-- ==== Sys2Proof/Word.lean ====
section
/-!
DEFINITION. Word types of the JC9: the 64-bit register word (R21), the byte (R45), the 32-bit
instruction word (R64) and the 6-bit register code (R21).
-/

namespace Sys2Proof

/-- A 64-bit register or memory word (R21). -/
abbrev Word := BitVec 64

/-- A byte of memory (R45). -/
abbrev Byte := BitVec 8

/-- A 32-bit instruction word or vector lane (R29, R64). -/
abbrev W32 := BitVec 32

/-- A register code (R21): 0-47 g, 48-55 k, 56 z0, 57 z1, 58 nil, 59 tid, 60-63 reserved. -/
abbrev RegCode := BitVec 6

end Sys2Proof
end

