-- ==== Sys2Proof/Machine/Table.lean ====
section
/-!
DEFINITION. Keyed tables and byte memories as lists in one canonical form: keys strictly rising. A key
that a table does not list stands for a default the reader names. A byte memory lists no zero byte,
because an unlisted address reads as zero (log 1), so equal memories are equal lists.
-/

namespace Sys2Proof.Machine

/-- A table: key and value pairs with strictly rising keys. -/
abbrev Table (α : Type) := List (Nat × α)

/-- The value listed under a key. -/
def tfind {α : Type} : Table α → Nat → Option α
  | [], _ => none
  | (k, v) :: t, n => if k = n then some v else if n < k then none else tfind t n

/-- The value under a key, or the default. -/
def tget {α : Type} (d : α) (t : Table α) (n : Nat) : α := (tfind t n).getD d

/-- The table with a key's value set. -/
def tput {α : Type} : Table α → Nat → α → Table α
  | [], n, x => [(n, x)]
  | (k, v) :: t, n, x =>
    if n < k then (n, x) :: (k, v) :: t
    else if n = k then (n, x) :: t
    else (k, v) :: tput t n x

/-- The table without a key. -/
def tdel {α : Type} : Table α → Nat → Table α
  | [], _ => []
  | (k, v) :: t, n =>
    if n < k then (k, v) :: t
    else if n = k then t
    else (k, v) :: tdel t n

/-- Keys strictly rising and above a bound. -/
def tsortedFrom {α : Type} : Nat → Table α → Bool
  | _, [] => true
  | lo, (k, _) :: t => decide (lo ≤ k) && tsortedFrom (k + 1) t

/-- The canonical form of a table. -/
def tsorted {α : Type} (t : Table α) : Bool := tsortedFrom 0 t

/-- The byte at an address of a memory: zero where nothing is listed (log 1). -/
def cget (m : List Host.Cell) (a : Nat) : Byte := tget 0 m a

/-- The memory with one byte written; writing zero removes the entry. -/
def cput (m : List Host.Cell) (a : Nat) (b : Byte) : List Host.Cell :=
  if b = 0 then tdel m a else tput m a b

/-- The canonical form of a memory: addresses strictly rising, no zero byte listed. -/
def Memory.wf (m : List Host.Cell) : Bool := tsorted m && m.all fun c => c.2 != 0

/-- The n bytes from an address upwards. -/
def cgets (m : List Host.Cell) (a : Nat) : Nat → List Byte
  | 0 => []
  | n + 1 => cget m a :: cgets m (a + 1) n

/-- The memory with bytes written from an address upwards. -/
def cputs (m : List Host.Cell) (a : Nat) : List Byte → List Host.Cell
  | [] => m
  | b :: bs => cputs (cput m a b) (a + 1) bs

/-- A list of numbers as a set: n added in rising order. -/
def sadd : List Nat → Nat → List Nat
  | [], n => [n]
  | k :: t, n => if n < k then n :: k :: t else if n = k then k :: t else k :: sadd t n

/-- A set of numbers without n. -/
def sdel (l : List Nat) (n : Nat) : List Nat := l.filter (· != n)

/-- Little-endian value of bytes (R45). -/
def leNat : List Byte → Nat
  | [] => 0
  | b :: bs => b.toNat + 256 * leNat bs

/-- The n low bytes of a value, least significant first (R45). -/
def leBytes : Nat → Nat → List Byte
  | 0, _ => []
  | n + 1, v => BitVec.ofNat 8 v :: leBytes n (v / 256)

/-- Bits [lo+n-1 : lo] of a number. -/
def nbits (v lo n : Nat) : Nat := v / 2 ^ lo % 2 ^ n

/-- Bit k of a number. -/
def nbit (v k : Nat) : Bool := v / 2 ^ k % 2 == 1

/-- A signed reading of the low n bits of a number (R46). -/
def sint (n v : Nat) : Int := if v % 2 ^ n < 2 ^ (n - 1) then (v % 2 ^ n : Nat) else (v % 2 ^ n : Nat) - (2 : Int) ^ n

/-- A 64-bit word from an integer, modulo 2^64. -/
def wordOfInt (i : Int) : Word := BitVec.ofInt 64 i

end Sys2Proof.Machine
end

