-- ==== Sys2Proof/Machine/Float.lean ====
section
/-!
DEFINITION. The element formats of R46 to R50 and their arithmetic (R51 to R58): an operand is read as an
exact dyadic number, an infinity or a NaN, an operation forms its exact result, and one function rounds
it into the destination format. Flags are the five bits of STAT.FLAGS: NV DZ OF UF NX from the top.
-/

namespace Sys2Proof.Machine

/-- The twelve element formats that have a PFX code (R46, R48). -/
inductive Fmt where
  | fp32 | fp16 | bf16 | f8a | f8b | i32 | i16 | i8 | i6 | i4 | u8 | tern
  deriving DecidableEq, Repr

/-- The format of a PFX code, none for 0 and 13 to 15 (R46, R48). -/
def fmtOfCode : Nat → Option Fmt
  | 1 => some .fp32 | 2 => some .fp16 | 3 => some .bf16 | 4 => some .f8a | 5 => some .f8b
  | 6 => some .i32 | 7 => some .i16 | 8 => some .i8 | 9 => some .i6 | 10 => some .i4
  | 11 => some .u8 | 12 => some .tern | _ => none

/-- The width of an element in bits (R46, R48). -/
def Fmt.width : Fmt → Nat
  | .fp32 => 32 | .fp16 => 16 | .bf16 => 16 | .f8a => 8 | .f8b => 8 | .i32 => 32 | .i16 => 16
  | .i8 => 8 | .i6 => 6 | .i4 => 4 | .u8 => 8 | .tern => 2

/-- The float class of R57. -/
def Fmt.isFloat : Fmt → Bool
  | .fp32 | .fp16 | .bf16 | .f8a | .f8b => true
  | _ => false

/-- Fraction bits M (R46). -/
def Fmt.frac : Fmt → Nat
  | .fp32 => 23 | .fp16 => 10 | .bf16 => 7 | .f8a => 3 | .f8b => 2 | _ => 0

/-- Exponent bits (R46). -/
def Fmt.expBits : Fmt → Nat
  | .fp32 => 8 | .fp16 => 5 | .bf16 => 8 | .f8a => 4 | .f8b => 5 | _ => 0

/-- Exponent bias (R46). -/
def Fmt.bias : Fmt → Nat
  | .fp32 => 127 | .fp16 => 15 | .bf16 => 127 | .f8a => 7 | .f8b => 15 | _ => 0

/-- Canonical NaN (R47). -/
def Fmt.nan : Fmt → Nat
  | .fp32 => 0x7FC00000 | .fp16 => 0x7E00 | .bf16 => 0x7FC0 | .f8a => 0x7F | .f8b => 0x7E | _ => 0

/-- Largest finite magnitude (R47). -/
def Fmt.maxFinite : Fmt → Nat
  | .fp32 => 0x7F7FFFFF | .fp16 => 0x7BFF | .bf16 => 0x7F7F | .f8a => 0x7E | .f8b => 0x7B | _ => 0

/-- Positive infinity; F8A has none (R47). -/
def Fmt.inf : Fmt → Nat
  | .fp32 => 0x7F800000 | .fp16 => 0x7C00 | .bf16 => 0x7F80 | .f8a => 0x7F | .f8b => 0x7C | _ => 0

/-- STAT.FLAGS. -/
abbrev Flags := BitVec 5
def fNV : Flags := 16
def fDZ : Flags := 8
def fOF : Flags := 4
def fUF : Flags := 2
def fNX : Flags := 1

/-- The rounding modes of R51. -/
inductive Rnd where
  | rne | rtz | rdn | rup
  deriving DecidableEq, Repr

/-- The mode of STAT.RM (R31). -/
def rndOfCode (c : Nat) : Rnd :=
  if c = 0 then .rne else if c = 1 then .rtz else if c = 2 then .rdn else .rup

/-- An operand's value: NaN (signalling or quiet), an infinity, or (−1)^neg × m × 2^e. -/
inductive FVal where
  | nan (signalling : Bool)
  | inf (neg : Bool)
  | fin (neg : Bool) (m : Nat) (e : Int)
  deriving DecidableEq, Repr

/-- The value of a float encoding (R46). -/
def fdecode (f : Fmt) (bits : Nat) : FVal :=
  let M := f.frac
  let neg := nbit bits (f.width - 1)
  let ex := nbits bits M f.expBits
  let fr := nbits bits 0 M
  let top := 2 ^ f.expBits - 1
  if ex = 0 then .fin neg fr (1 - f.bias - M)
  else if ex = top && (f != .f8a || fr = 7) then
    if f = .f8a then .nan false
    else if fr = 0 then .inf neg
    else .nan (!nbit fr (M - 1))
  else .fin neg (fr + 2 ^ M) ((ex : Int) - f.bias - M)

/-- Sign bit placed in an encoding. -/
def withSign (f : Fmt) (neg : Bool) (bits : Nat) : Nat := if neg then bits + 2 ^ (f.width - 1) else bits

/-- An exact infinite result (R52): the infinity of its sign, or F8A's substitute. -/
def deliverInf (f : Fmt) (neg sat : Bool) : Nat × Flags :=
  if f = .f8a then
    if sat then (withSign f neg f.maxFinite, fOF ||| fNX) else (f.nan, fNV)
  else (withSign f neg f.inf, 0)

/-- An overflow (R52). -/
def deliverOverflow (f : Fmt) (r : Rnd) (sat neg : Bool) : Nat × Flags :=
  let big := sat || match r with
    | .rne => false
    | .rtz => true
    | .rdn => !neg
    | .rup => neg
  if big then (withSign f neg f.maxFinite, fOF ||| fNX)
  else if f = .f8a then (f.nan, fNV ||| fOF ||| fNX)
  else (withSign f neg f.inf, fOF ||| fNX)

/-- A magnitude m × 2^e rounded to a multiple of 2^q: the multiple and whether it is inexact (R51). -/
def roundAt (r : Rnd) (neg : Bool) (m : Nat) (e q : Int) : Nat × Bool :=
  if q ≤ e then (m * 2 ^ (e - q).toNat, false)
  else
    let k := (q - e).toNat
    let t := m / 2 ^ k
    let rem := m % 2 ^ k
    let half := 2 ^ (k - 1)
    let up := match r with
      | .rne => decide (half < rem) || (rem == half && t % 2 == 1)
      | .rtz => false
      | .rdn => neg && rem != 0
      | .rup => !neg && rem != 0
    (if up then t + 1 else t, rem != 0)

/-- A finite exact result (−1)^neg × m × 2^e rounded into a float format (R51 to R53). -/
def fround (f : Fmt) (r : Rnd) (sat neg : Bool) (m : Nat) (e : Int) : Nat × Flags :=
  if m = 0 then (withSign f neg 0, 0)
  else
    let M : Int := f.frac
    let emin : Int := 1 - f.bias
    let lead := e + Nat.log2 m
    let q := max (lead - M) (emin - M)
    let (t, inexact) := roundAt r neg m e q
    let (q, t) := if t = 2 ^ (f.frac + 1) then (q + 1, 2 ^ f.frac) else (q, t)
    let field : Int := if t < 2 ^ f.frac then 0 else q + M + f.bias
    let bits := if t < 2 ^ f.frac then t else field.toNat * 2 ^ f.frac + (t - 2 ^ f.frac)
    if f.maxFinite < bits then deliverOverflow f r sat neg
    else
      let (tu, _) := roundAt r neg m e (lead - M)
      let tiny := decide (lead < emin) && !(decide (lead = emin - 1) && tu == 2 ^ (f.frac + 1))
      let fl := if inexact then (if tiny then fUF ||| fNX else fNX) else 0
      (withSign f neg bits, fl)

/-- An operation's exact value delivered in a float format: NaN canonical (R54), infinities (R52). -/
def fdeliver (f : Fmt) (r : Rnd) (sat : Bool) (x : FVal) : Nat × Flags :=
  match x with
  | .nan _ => (f.nan, 0)
  | .inf neg => deliverInf f neg sat
  | .fin neg m e => fround f r sat neg m e

def FVal.isNan : FVal → Bool
  | .nan _ => true
  | _ => false
def FVal.isSig : FVal → Bool
  | .nan s => s
  | _ => false
def FVal.isZero : FVal → Bool
  | .fin _ m _ => m == 0
  | _ => false
def FVal.isInf : FVal → Bool
  | .inf _ => true
  | _ => false
def FVal.sign : FVal → Bool
  | .nan _ => false
  | .inf n => n
  | .fin n _ _ => n
/-- The operand with its sign inverted; a NaN stays a NaN. -/
def FVal.neg : FVal → FVal
  | .nan s => .nan s
  | .inf n => .inf (!n)
  | .fin n m e => .fin (!n) m e

/-- NV when an operand is a signalling NaN (R54). -/
def sigFlag (x y : FVal) : Flags := if x.isSig || y.isSig then fNV else 0

/-- A signed magnitude. -/
def signed (neg : Bool) (m : Nat) : Int := if neg then -(m : Int) else m

/-- Exact sum (R55). -/
def fadd (r : Rnd) (x y : FVal) : FVal × Flags :=
  match x, y with
  | .nan _, _ => (.nan false, sigFlag x y)
  | _, .nan _ => (.nan false, sigFlag x y)
  | .inf a, .inf b => if a = b then (.inf a, 0) else (.nan false, fNV)
  | .inf a, .fin _ _ _ => (.inf a, 0)
  | .fin _ _ _, .inf b => (.inf b, 0)
  | .fin a m e, .fin b n g =>
    let q := min e g
    let v := signed a (m * 2 ^ (e - q).toNat) + signed b (n * 2 ^ (g - q).toNat)
    if v = 0 then (.fin (if a = b then a else r == .rdn) 0 0, 0)
    else (.fin (decide (v < 0)) v.natAbs q, 0)

/-- Exact product (R55). -/
def fmul (x y : FVal) : FVal × Flags :=
  match x, y with
  | .nan _, _ => (.nan false, sigFlag x y)
  | _, .nan _ => (.nan false, sigFlag x y)
  | .inf a, .inf b => (.inf (a != b), 0)
  | .inf a, .fin b n _ => if n = 0 then (.nan false, fNV) else (.inf (a != b), 0)
  | .fin a m _, .inf b => if m = 0 then (.nan false, fNV) else (.inf (a != b), 0)
  | .fin a m e, .fin b n g => (.fin (a != b) (m * n) (e + g), 0)

/-- Exact quotient, as far as rounding into any format can tell: a quotient of at least 64 bits with a
last bit that says whether anything remains (R55). -/
def fdiv (x y : FVal) : FVal × Flags :=
  match x, y with
  | .nan _, _ => (.nan false, sigFlag x y)
  | _, .nan _ => (.nan false, sigFlag x y)
  | .inf _, .inf _ => (.nan false, fNV)
  | .inf a, .fin b _ _ => (.inf (a != b), 0)
  | .fin a _ _, .inf b => (.fin (a != b) 0 0, 0)
  | .fin a m e, .fin b n g =>
    if n = 0 then (if m = 0 then (.nan false, fNV) else (.inf (a != b), fDZ))
    else
      let t := m * 2 ^ 96
      let q := 2 * (t / n) + (if t % n = 0 then 0 else 1)
      (.fin (a != b) q (e - g - 97), 0)

/-- The integer square root by bits: the largest r with r × r ≤ v, built from bit n − 1 down. -/
def isqrtFrom (v : Nat) : Nat → Nat → Nat
  | 0, r => r
  | n + 1, r => if (r + 2 ^ n) * (r + 2 ^ n) ≤ v then isqrtFrom v n (r + 2 ^ n) else isqrtFrom v n r

/-- Exact square root, as far as rounding can tell (R55, R133). -/
def fsqrt (x : FVal) : FVal × Flags :=
  match x with
  | .nan s => (.nan false, if s then fNV else 0)
  | .inf neg => if neg then (.nan false, fNV) else (.inf false, 0)
  | .fin neg m e =>
    if m = 0 then (.fin neg 0 0, 0)
    else if neg then (.nan false, fNV)
    else
      let (m, e) := if e % 2 = 0 then (m, e) else (m * 2, e - 1)
      let t := m * 2 ^ 96
      let r := isqrtFrom t 64 0
      (.fin false (2 * r + (if r * r = t then 0 else 1)) (e / 2 - 49), 0)

/-- d + a × b with the special cases of R135: an invalid product first, then the sum. -/
def ffma (r : Rnd) (d a b : FVal) : FVal × Flags :=
  let (p, pf) := fmul a b
  let (v, vf) := fadd r p d
  (v, pf ||| vf)

/-- Whether the exact value of x is below that of y; neither is a NaN. −0 counts as below +0 when the
flag says so (R55), and equals it otherwise (R137). -/
def fless (zeroOrder : Bool) (x y : FVal) : Bool :=
  match x, y with
  | .nan _, _ => false
  | _, .nan _ => false
  | .inf a, .inf b => a && !b
  | .inf a, .fin _ _ _ => a
  | .fin _ _ _, .inf b => !b
  | .fin a m e, .fin b n g =>
    if m = 0 && n = 0 then zeroOrder && a && !b
    else
      let q := min e g
      decide (signed a (m * 2 ^ (e - q).toNat) < signed b (n * 2 ^ (g - q).toNat))

/-- Equality of exact values, neither a NaN (R137). -/
def feqv (x y : FVal) : Bool :=
  !x.isNan && !y.isNan && !fless false x y && !fless false y x

/-- A value rounded to an integer in a mode: the integer and whether it changed. -/
def fintegral (r : Rnd) (neg : Bool) (m : Nat) (e : Int) : Nat × Bool := roundAt r neg m e 0

/-- Range of an integer or ternary format (R48, R57). -/
def Fmt.range : Fmt → Int × Int
  | .i32 => (-2147483648, 2147483647) | .i16 => (-32768, 32767) | .i8 => (-128, 127)
  | .i6 => (-32, 31) | .i4 => (-8, 7) | .u8 => (0, 255) | .tern => (-1, 1)
  | _ => (0, 0)

/-- The low bits of an integer in a format's encoding. -/
def intBits (f : Fmt) (v : Int) : Nat := (v % (2 : Int) ^ f.width).toNat

/-- The value of an integer or ternary encoding (R48, R50): the reserved digit code reads as zero and
raises NV. -/
def intValue (f : Fmt) (bits : Nat) : Int × Flags :=
  match f with
  | .u8 => ((bits % 256 : Nat), 0)
  | .tern =>
    let c := bits % 4
    if c = 1 then (1, 0) else if c = 3 then (-1, 0) else if c = 2 then (0, fNV) else (0, 0)
  | _ => (sint f.width bits, 0)

/-- Clamped to a format's range. -/
def clampTo (f : Fmt) (v : Int) : Int := max f.range.1 (min f.range.2 v)

/-- A conversion between any two formats (R57): the destination's bits and the flags. -/
def fconvert (src dst : Fmt) (r : Rnd) (sat : Bool) (bits : Nat) : Nat × Flags :=
  if src.isFloat then
    let x := fdecode src bits
    let sig : Flags := if x.isSig then fNV else 0
    if dst.isFloat then
      match x with
      | .nan _ => (dst.nan, sig)
      | .inf _ => if src = dst then (bits % 2 ^ src.width, 0) else fdeliver dst r sat x
      | .fin _ _ _ => if src = dst then (bits % 2 ^ src.width, 0) else fdeliver dst r sat x
    else
      match x with
      | .nan _ => (0, fNV)
      | .inf neg => (intBits dst (if neg then dst.range.1 else dst.range.2), fNV)
      | .fin neg m e =>
        let (t, inexact) := fintegral r neg m e
        let v := signed neg t
        let c := clampTo dst v
        (intBits dst c, if c ≠ v then fNV else if inexact then fNX else 0)
  else
    let (v, fl) := intValue src bits
    if dst.isFloat then
      let (b, g) := fround dst r sat (decide (v < 0)) v.natAbs 0
      (b, fl ||| g)
    else if dst = .tern || sat then (intBits dst (clampTo dst v), fl)
    else (intBits dst v, fl)

/-- A result of a format in a 64-bit register (R45). -/
def fextend (f : Fmt) (bits : Nat) : Word :=
  if f.isFloat || f = .u8 then BitVec.ofNat 64 (bits % 2 ^ f.width)
  else wordOfInt (sint f.width bits)

/-- Minimum or maximum by R55, delivered in D (R134): the selected operand converted. -/
def fminmax (isMax : Bool) (fa fb fd : Fmt) (r : Rnd) (sat : Bool) (a b : Nat) : Nat × Flags :=
  let x := fdecode fa a
  let y := fdecode fb b
  let sf := sigFlag x y
  if x.isNan && y.isNan then (fd.nan, sf)
  else
    let first := if x.isNan then false else if y.isNan then true
      else if isMax then !fless true x y else !fless true y x
    let (res, fl) := if first then fconvert fa fd r sat a else fconvert fb fd r sat b
    (res, sf ||| fl)

/-- FRND (R134). -/
def fintegralOp (f : Fmt) (r : Rnd) (bits : Nat) : Nat × Flags :=
  match fdecode f bits with
  | .nan s => (f.nan, if s then fNV else 0)
  | .inf _ => (bits % 2 ^ f.width, 0)
  | .fin neg m e =>
    if m = 0 then (bits % 2 ^ f.width, 0)
    else
      let (t, inexact) := fintegral r neg m e
      ((fround f .rne false neg t 0).1, if inexact then fNX else 0)

/-- Comparison kinds of R136. -/
inductive FCmp where
  | eq | lt | le
  deriving DecidableEq, Repr

/-- A comparison (R137): the answer and the flags. -/
def fcompare (k : FCmp) (x y : FVal) : Bool × Flags :=
  if x.isNan || y.isNan then (false, match k with | .eq => sigFlag x y | _ => fNV)
  else (match k with
    | .eq => feqv x y
    | .lt => fless false x y
    | .le => !fless false y x, 0)

/-- The class mask of R138. -/
def fclassOp (f : Fmt) (bits : Nat) : Nat :=
  match fdecode f bits with
  | .nan true => 256
  | .nan false => 512
  | .inf neg => if neg then 1 else 128
  | .fin neg m _ =>
    if m = 0 then (if neg then 8 else 16)
    else if nbits bits f.frac f.expBits = 0 then (if neg then 4 else 32)
    else (if neg then 2 else 64)

/-- FP32 addition rounded RNE with the special values of R55, for atomics, merges and nodes. -/
def fp32add (a b : Nat) : Nat × Flags :=
  let (v, f) := fadd .rne (fdecode .fp32 a) (fdecode .fp32 b)
  let (r, g) := fdeliver .fp32 .rne false v
  (r, f ||| g)

end Sys2Proof.Machine
end

