-- ==== Sys2Proof/Config.lean ====
section
/-!
DEFINITION. What an implementation fixes and the free values: opaque constants without a body, so that
no proof can lean on a value of one. Log entries 3, 5, 15, 16, 17 and 18 say which open point of the spec
each stands for.
-/

namespace Sys2Proof

/-- A free value: one word for each index that the machine draws (State.tick), log 3. -/
opaque Config.freeWord : Nat → Word

/-- Extra reference cycles that pass beside cycle n of the model's clock (log 5): the spec promises no
latency under load (R305), so CYCLE as software reads it is not the model's count. -/
opaque Config.lag : Nat → Nat

/-- The package cycle count (R34) at the model's clock n: it rises by at least one a clock. -/
def Config.cycleOf : Nat → Nat
  | 0 => 0
  | n + 1 => Config.cycleOf n + 1 + Config.lag n

/-- The ML-DSA-65 signature that a private key gives a message (R378), log 16: FIPS 204 lets the signer draw its
randomness. -/
opaque Config.mldsaSign : List Byte → List Byte → List Byte

/-- What a firmware image signs, the key it brings and its signature (R377 gives no layout), log 17. -/
opaque Config.firmwareParts : List Byte → List Byte × List Byte × List Byte

/-- What a debug unlock token signs for a serial (R379 gives no layout), log 16. -/
opaque Config.debugMessage : Nat → List Byte

/-- How a refusal of IMG_ADD names a region, a row and a column in RW2 (R357 gives no layout), log 18. -/
opaque Config.loaderWhere : Nat → Nat → Nat → Word

/-- How the survey service lays out a fault log (R370 gives no layout): count, HANDLER_ABSENT, token words, log 18. -/
opaque Config.faultLogLayout : Nat → Bool → List Nat → List Byte

/-- How an attestation report lays out its parts, and part number and serial among them (R378), log 18. -/
opaque Config.reportLayout : List (List Byte) → List Byte

/-- How a message is packed into flits' payloads (R362 gives no layout), log 18: its kind (1 register send,
2 channel message, 3 acknowledgement, 4 read of memory, 5 store, 6 data or atomic result, 7 atomic, 8 no room in a
ring), the sender's or target's rank or the request's tag, a capability or an address, a value, and bytes. -/
opaque Config.flitPayload : Nat → Nat → Nat → Nat → List Byte → List Byte

/-- The messages that the payload bytes of a class hold (R362), in the same parts, and the bytes of a message whose
rest comes with the next flit, log 18. -/
opaque Config.flitMessages : List Byte → List (Nat × Nat × Nat × Nat × List Byte) × List Byte

/-- The errors that the rows of one RUN meet (R335, log 15): row, contour, second pass, column, segment, change of the
sum, and failing replays of each. -/
opaque Config.contourErrors : Nat → List (List Int)

/-- The version that a firmware image declares (R377), log 17. -/
opaque Config.firmwareVersion : List Byte → Nat

/-- The seed store slot that the SEED field of a thread place's plat entry names (R350), log 18. -/
opaque Config.seedSlot : Nat → BitVec 16

end Sys2Proof
end

