-- ==== Sys2Proof/Syntax.lean ====
section
/-!
DEFINITION. The instruction set of the JC9 as one inductive: a constructor for every row of
spec/opcode_table.json. The 241 instruction words carry their operand fields as R65 lays them out
and stand first; the 108 rows without bits are events of the machine around the thread, and what such
an event concerns (a thread place, core, die, cluster, queue, host or port) stands in the machine's
event arguments (Machine/State.lean, EvArgs).
-/

namespace Sys2Proof

/-- The scopes of R106. -/
inductive Scope where
  | core | party | die | pkg | sys
  deriving DecidableEq, Repr

/-- The vector element types of R70. -/
inductive VType where
  | i32 | f32 | i16 | f16 | bf16 | i8 | u8
  deriving DecidableEq, Repr

/-- An instruction or event of the opcode table. Field names follow R65: d, a, b register codes,
hA and hB the hold bits of R25, sc a scope, q a mask number, ty an element type. -/
inductive Instr where
  /-- ADD (R87): Writes the 64-bit sum of a and b modulo 2^64 to d. -/
  | add (d a b : RegCode) (hA hB : Bool)
  /-- SUB (R87): Writes the 64-bit difference a - b modulo 2^64 to d. -/
  | sub (d a b : RegCode) (hA hB : Bool)
  /-- MUL (R87): Writes the low 64 bits of the product of a and b to d. -/
  | mul (d a b : RegCode) (hA hB : Bool)
  /-- MULH (R87): Writes the high 64 bits of the signed product of a and b to d. -/
  | mulh (d a b : RegCode) (hA hB : Bool)
  /-- MULHU (R87): Writes the high 64 bits of the unsigned product of a and b to d. -/
  | mulhu (d a b : RegCode) (hA hB : Bool)
  /-- DIV (R88): Signed division truncating toward zero, with fixed results for a zero divisor and for overflow. -/
  | div (d a b : RegCode) (hA hB : Bool)
  /-- DIVU (R88): Unsigned division; a zero divisor gives all ones. -/
  | divu (d a b : RegCode) (hA hB : Bool)
  /-- REM (R88): Signed remainder with the sign of the dividend, with fixed results for a zero divisor and for overflow. -/
  | rem (d a b : RegCode) (hA hB : Bool)
  /-- REMU (R88): Unsigned remainder; a zero divisor gives a. -/
  | remu (d a b : RegCode) (hA hB : Bool)
  /-- AND (R87): Writes the bitwise AND of a and b to d. -/
  | and (d a b : RegCode) (hA hB : Bool)
  /-- OR (R87): Writes the bitwise OR of a and b to d. -/
  | or (d a b : RegCode) (hA hB : Bool)
  /-- XOR (R87): Writes the bitwise XOR of a and b to d. -/
  | xor (d a b : RegCode) (hA hB : Bool)
  /-- ANDN (R87): Writes a AND NOT b to d. -/
  | andn (d a b : RegCode) (hA hB : Bool)
  /-- SLL (R87): Shifts a left by b[5:0]. -/
  | sll (d a b : RegCode) (hA hB : Bool)
  /-- SRL (R87): Shifts a right logically by b[5:0]. -/
  | srl (d a b : RegCode) (hA hB : Bool)
  /-- SRA (R87): Shifts a right arithmetically by b[5:0]. -/
  | sra (d a b : RegCode) (hA hB : Bool)
  /-- ROL (R87): Rotates a left by b[5:0]. -/
  | rol (d a b : RegCode) (hA hB : Bool)
  /-- ROR (R87): Rotates a right by b[5:0]. -/
  | ror (d a b : RegCode) (hA hB : Bool)
  /-- MIN (R87): Writes the signed minimum of a and b. -/
  | min (d a b : RegCode) (hA hB : Bool)
  /-- MAX (R87): Writes the signed maximum of a and b. -/
  | max (d a b : RegCode) (hA hB : Bool)
  /-- MINU (R87): Writes the unsigned minimum of a and b. -/
  | minu (d a b : RegCode) (hA hB : Bool)
  /-- MAXU (R87): Writes the unsigned maximum of a and b. -/
  | maxu (d a b : RegCode) (hA hB : Bool)
  /-- SLT (R87): Writes 1 if a is signed-less than b, else 0. -/
  | slt (d a b : RegCode) (hA hB : Bool)
  /-- SLTU (R87): Writes 1 if a is unsigned-less than b, else 0. -/
  | sltu (d a b : RegCode) (hA hB : Bool)
  /-- SEQ (R87): Writes 1 if a equals b, else 0. -/
  | seq (d a b : RegCode) (hA hB : Bool)
  /-- ADDW (R89): 32-bit add, sign-extended into d. -/
  | addw (d a b : RegCode) (hA hB : Bool)
  /-- SUBW (R89): 32-bit subtract, sign-extended into d. -/
  | subw (d a b : RegCode) (hA hB : Bool)
  /-- MULW (R89): Low 32 bits of the product, sign-extended. -/
  | mulw (d a b : RegCode) (hA hB : Bool)
  /-- DIVW (R89): 32-bit signed division with the fixed edge results. -/
  | divw (d a b : RegCode) (hA hB : Bool)
  /-- DIVUW (R89): 32-bit unsigned division, result sign-extended. -/
  | divuw (d a b : RegCode) (hA hB : Bool)
  /-- REMW (R89): 32-bit signed remainder with the fixed edge results. -/
  | remw (d a b : RegCode) (hA hB : Bool)
  /-- REMUW (R89): 32-bit unsigned remainder, result sign-extended. -/
  | remuw (d a b : RegCode) (hA hB : Bool)
  /-- SLLW (R89): 32-bit left shift by b[4:0], sign-extended. -/
  | sllw (d a b : RegCode) (hA hB : Bool)
  /-- SRLW (R89): 32-bit logical right shift by b[4:0], sign-extended. -/
  | srlw (d a b : RegCode) (hA hB : Bool)
  /-- SRAW (R89): 32-bit arithmetic right shift by b[4:0]. -/
  | sraw (d a b : RegCode) (hA hB : Bool)
  /-- ROLW (R89): 32-bit rotate left by b[4:0], sign-extended. -/
  | rolw (d a b : RegCode) (hA hB : Bool)
  /-- RORW (R89): 32-bit rotate right by b[4:0], sign-extended. -/
  | rorw (d a b : RegCode) (hA hB : Bool)
  /-- ADDI (R90): Adds the sign-extended 14-bit immediate to a. -/
  | addi (d a : RegCode) (imm : BitVec 14)
  /-- ADDIW (R90): 32-bit add of the immediate, sign-extended. -/
  | addiw (d a : RegCode) (imm : BitVec 14)
  /-- ANDI (R91): ANDs a with the sign-extended 12-bit immediate. -/
  | andi (d a : RegCode) (imm : BitVec 12)
  /-- ORI (R91): ORs a with the sign-extended 12-bit immediate. -/
  | ori (d a : RegCode) (imm : BitVec 12)
  /-- XORI (R91): XORs a with the sign-extended 12-bit immediate. -/
  | xori (d a : RegCode) (imm : BitVec 12)
  /-- SLLI (R92): Shifts a left by an immediate count. -/
  | slli (d a : RegCode) (sh : BitVec 6)
  /-- SLLIW (R92): 32-bit left shift by an immediate count, sign-extended. -/
  | slliw (d a : RegCode) (sh : BitVec 5)
  /-- SRLI (R92): Logical right shift by an immediate count. -/
  | srli (d a : RegCode) (sh : BitVec 6)
  /-- SRLIW (R92): 32-bit logical right shift by an immediate count. -/
  | srliw (d a : RegCode) (sh : BitVec 5)
  /-- SRAI (R92): Arithmetic right shift by an immediate count. -/
  | srai (d a : RegCode) (sh : BitVec 6)
  /-- SRAIW (R92): 32-bit arithmetic right shift by an immediate count. -/
  | sraiw (d a : RegCode) (sh : BitVec 5)
  /-- RORI (R92): Rotates a right by an immediate count. -/
  | rori (d a : RegCode) (sh : BitVec 6)
  /-- RORIW (R92): 32-bit rotate right by an immediate count. -/
  | roriw (d a : RegCode) (sh : BitVec 5)
  /-- SLTI (R93): Signed compare of a with the immediate. -/
  | slti (d a : RegCode) (imm : BitVec 12)
  /-- SLTIU (R93): Unsigned compare of a with the sign-extended immediate. -/
  | sltiu (d a : RegCode) (imm : BitVec 12)
  /-- SEQI (R93): Equality compare of a with the immediate. -/
  | seqi (d a : RegCode) (imm : BitVec 12)
  /-- LIH (R94): Loads the sign-extended 20-bit immediate shifted left by 14. -/
  | lih (d : RegCode) (imm : BitVec 20)
  /-- ADDPC (R94): Adds the shifted 20-bit immediate to the PC. -/
  | addpc (d : RegCode) (imm : BitVec 20)
  /-- BR_EQ (R97): Branches when a equals b. -/
  | brEq (a b : RegCode) (off : BitVec 11)
  /-- BR_NE (R97): Branches when a differs from b. -/
  | brNe (a b : RegCode) (off : BitVec 11)
  /-- BR_LT (R97): Branches when a is signed-less than b. -/
  | brLt (a b : RegCode) (off : BitVec 11)
  /-- BR_GE (R97): Branches when a is signed-greater or equal to b. -/
  | brGe (a b : RegCode) (off : BitVec 11)
  /-- BR_LTU (R97): Branches when a is unsigned-less than b. -/
  | brLtu (a b : RegCode) (off : BitVec 11)
  /-- BR_GEU (R97): Branches when a is unsigned-greater or equal to b. -/
  | brGeu (a b : RegCode) (off : BitVec 11)
  /-- BZ_EQZ (R98): Branches when a is zero. -/
  | bzEqz (a : RegCode) (off : BitVec 18)
  /-- BZ_NEZ (R98): Branches when a is non-zero. -/
  | bzNez (a : RegCode) (off : BitVec 18)
  /-- BZ_LTZ (R98): Branches when a is negative. -/
  | bzLtz (a : RegCode) (off : BitVec 18)
  /-- BZ_GEZ (R98): Branches when a is non-negative. -/
  | bzGez (a : RegCode) (off : BitVec 18)
  /-- JAL (R99): Writes the link and jumps to the PC-relative target. -/
  | jal (d : RegCode) (off : BitVec 20)
  /-- JALR (R99): Writes the link and jumps to a plus the immediate, faulting on non-zero bits [63:55]. -/
  | jalr (d a : RegCode) (imm : BitVec 14)
  /-- LOOP (R101): Captures the next n instructions and runs them the counted number of times. -/
  | loop (a : RegCode) (n : BitVec 6)
  /-- SEL (R95): Selects a or b according to z0. -/
  | sel (d a b : RegCode) (hA hB : Bool)
  /-- CLZ (R95): Counts leading zero bits of a. -/
  | clz (d a : RegCode) (hA : Bool)
  /-- CTZ (R95): Counts trailing zero bits of a. -/
  | ctz (d a : RegCode) (hA : Bool)
  /-- POPC (R95): Counts the one bits of a. -/
  | popc (d a : RegCode) (hA : Bool)
  /-- BREV (R95): Reverses the bit order of a. -/
  | brev (d a : RegCode) (hA : Bool)
  /-- BSWAP (R95): Reverses the byte order of a. -/
  | bswap (d a : RegCode) (hA : Bool)
  /-- BFX (R96): Extracts a signed bitfield of a under control word b. -/
  | bfx (d a b : RegCode) (hA hB : Bool)
  /-- BFXU (R96): Extracts an unsigned bitfield of a under control word b. -/
  | bfxu (d a b : RegCode) (hA hB : Bool)
  /-- BFI (R96): Inserts a field from b into a under control word z0. -/
  | bfi (d a b : RegCode) (hA hB : Bool)
  /-- LD (R118): Loads 1, 2, 4 or 8 bytes at base plus scaled offset, sign- or zero-extended, leaving d PENDING. -/
  | ld (d a : RegCode) (size : BitVec 2) (uns : Bool) (off : BitVec 11)
  /-- ST (R118): Stores the low bytes of the data register at base plus scaled offset. -/
  | st (d a : RegCode) (size : BitVec 2) (off : BitVec 11)
  /-- LDX (R119): Indexed load at a plus b scaled by size. -/
  | ldx (d a b : RegCode) (hA hB : Bool) (size : BitVec 2) (uns : Bool)
  /-- STX (R119): Indexed store of the d-field register at a plus b scaled by size. -/
  | stx (d a b : RegCode) (hA hB : Bool) (size : BitVec 2)
  /-- LDX_ACQ (R119): Indexed word or doubleword load followed by an acquire at the scope. -/
  | ldxAcq (d a b : RegCode) (hA hB dbl : Bool) (sc : Scope)
  /-- STX_REL (R119): Release at the scope followed by an indexed word or doubleword store. -/
  | stxRel (d a b : RegCode) (hA hB dbl : Bool) (sc : Scope)
  /-- LDBIT_U (R121): Loads an N-bit unsigned field from the local window at a bit index. -/
  | ldbitU (d a b : RegCode) (hA hB : Bool) (n : BitVec 4)
  /-- LDBIT_S (R121): Loads an N-bit signed field from the local window at a bit index. -/
  | ldbitS (d a b : RegCode) (hA hB : Bool) (n : BitVec 4)
  /-- STBIT (R121): Stores an N-bit field into the local window at a bit index. -/
  | stbit (d a b : RegCode) (hA hB : Bool) (n : BitVec 4)
  /-- AMO_ADD (R123): Atomic add at the home of the scope, returning the old value. -/
  | amoAdd (d a : RegCode) (sc : Scope) (ord : BitVec 2) (dbl hA : Bool)
  /-- AMO_AND (R123): Atomic AND at the home of the scope. -/
  | amoAnd (d a : RegCode) (sc : Scope) (ord : BitVec 2) (dbl hA : Bool)
  /-- AMO_OR (R123): Atomic OR at the home of the scope. -/
  | amoOr (d a : RegCode) (sc : Scope) (ord : BitVec 2) (dbl hA : Bool)
  /-- AMO_XOR (R123): Atomic XOR at the home of the scope. -/
  | amoXor (d a : RegCode) (sc : Scope) (ord : BitVec 2) (dbl hA : Bool)
  /-- AMO_MIN (R123): Atomic signed minimum at the home of the scope. -/
  | amoMin (d a : RegCode) (sc : Scope) (ord : BitVec 2) (dbl hA : Bool)
  /-- AMO_MAX (R123): Atomic signed maximum at the home of the scope. -/
  | amoMax (d a : RegCode) (sc : Scope) (ord : BitVec 2) (dbl hA : Bool)
  /-- AMO_MINU (R123): Atomic unsigned minimum at the home of the scope. -/
  | amoMinu (d a : RegCode) (sc : Scope) (ord : BitVec 2) (dbl hA : Bool)
  /-- AMO_MAXU (R123): Atomic unsigned maximum at the home of the scope. -/
  | amoMaxu (d a : RegCode) (sc : Scope) (ord : BitVec 2) (dbl hA : Bool)
  /-- AMO_XCHG (R123): Atomic exchange at the home of the scope. -/
  | amoXchg (d a : RegCode) (sc : Scope) (ord : BitVec 2) (dbl hA : Bool)
  /-- AMO_FADD32 (R123): Atomic FP32 add rounded RNE at the home of the scope. -/
  | amoFadd32 (d a : RegCode) (sc : Scope) (ord : BitVec 2) (hA : Bool)
  /-- CAS (R124): Compare-and-swap at the home of the scope, returning the old value. -/
  | cas (d a b : RegCode) (hA hB : Bool) (sc : Scope) (ord : BitVec 2) (dbl : Bool)
  /-- FENCE_ACQ (R126): Waits for outstanding loads and performs the acquire invalidation of the scope. -/
  | fenceAcq (sc : Scope)
  /-- FENCE_REL (R126): Performs every release step of the scope, after synchronising register sends. -/
  | fenceRel (sc : Scope)
  /-- FENCE_FULL (R126): Release then acquire at the scope. -/
  | fenceFull (sc : Scope)
  /-- PREF (R127): Starts a fill of a line into the core's cache portion under a prefetch slot. -/
  | pref (a : RegCode) (off : BitVec 8)
  /-- PREF_L2 (R127): Posts a fill of a line into its L2 slice. -/
  | prefL2 (a : RegCode) (off : BitVec 8)
  /-- CLWB (R127): Writes a line's dirty bytes to the home of the scope. -/
  | clwb (a : RegCode) (sc : Scope) (off : BitVec 8)
  /-- CLINV (R127): Writes back a line's dirty bytes then invalidates its copies up to the home. -/
  | clinv (a : RegCode) (sc : Scope) (off : BitVec 8)
  /-- FADD (R133): Floating add rounded once into D. -/
  | fadd (d a b : RegCode) (hA hB : Bool)
  /-- FSUB (R133): Floating subtract rounded once into D. -/
  | fsub (d a b : RegCode) (hA hB : Bool)
  /-- FMUL (R133): Floating multiply rounded once into D. -/
  | fmul (d a b : RegCode) (hA hB : Bool)
  /-- FDIV (R133): Floating divide rounded once into D. -/
  | fdiv (d a b : RegCode) (hA hB : Bool)
  /-- FSQRT (R133): Floating square root rounded once into D. -/
  | fsqrt (d a : RegCode) (hA : Bool)
  /-- FMIN (R134): Selects the smaller operand by R55 and delivers it in D. -/
  | fmin (d a b : RegCode) (hA hB : Bool)
  /-- FMAX (R134): Selects the larger operand by R55 and delivers it in D. -/
  | fmax (d a b : RegCode) (hA hB : Bool)
  /-- FABS (R134): Clears the sign bit of a. -/
  | fabs (d a : RegCode) (hA : Bool)
  /-- FNEG (R134): Inverts the sign bit of a. -/
  | fneg (d a : RegCode) (hA : Bool)
  /-- FCPS (R134): Gives a the sign of b. -/
  | fcps (d a b : RegCode) (hA hB : Bool)
  /-- FRND (R134): Rounds a to an integral value in its format. -/
  | frnd (d a : RegCode) (hA : Bool)
  /-- FMAC (R135): Fused d + a × b rounded once. -/
  | fmac (d a b : RegCode) (hA hB : Bool)
  /-- FMSC (R135): Fused d - a × b rounded once. -/
  | fmsc (d a b : RegCode) (hA hB : Bool)
  /-- FNMAC (R135): Fused -(a × b) - d rounded once. -/
  | fnmac (d a b : RegCode) (hA hB : Bool)
  /-- FEQ (R137): Floating equality compare. -/
  | feq (d a b : RegCode) (hA hB : Bool)
  /-- FLT (R137): Floating less-than compare. -/
  | flt (d a b : RegCode) (hA hB : Bool)
  /-- FLE (R137): Floating less-or-equal compare. -/
  | fle (d a b : RegCode) (hA hB : Bool)
  /-- FCLASS (R138): Writes a one-hot class mask of a. -/
  | fclass (d a : RegCode) (hA : Bool)
  /-- FCVT (R139): Converts a between formats, default FP32 to FP32. -/
  | fcvt (d a : RegCode) (hA : Bool)
  /-- FCVTI (R139): Converts a, default FP32 to INT32. -/
  | fcvti (d a : RegCode) (hA : Bool)
  /-- FCVTF (R139): Converts a, default INT32 to FP32. -/
  | fcvtf (d a : RegCode) (hA : Bool)
  /-- PFX (R141): Latches formats, rounding and saturate for the next instruction and sets STAT.PP. -/
  | pfx (fa fb fd : BitVec 4) (rnd : BitVec 3) (sat : Bool)
  /-- VADD (R150): Elementwise vector add. -/
  | vadd (vd va vb : BitVec 3) (q : BitVec 2) (ty : VType)
  /-- VSUB (R150): Elementwise vector subtract. -/
  | vsub (vd va vb : BitVec 3) (q : BitVec 2) (ty : VType)
  /-- VMUL (R150): Elementwise vector multiply. -/
  | vmul (vd va vb : BitVec 3) (q : BitVec 2) (ty : VType)
  /-- VMIN (R150): Elementwise vector minimum. -/
  | vmin (vd va vb : BitVec 3) (q : BitVec 2) (ty : VType)
  /-- VMAX (R150): Elementwise vector maximum. -/
  | vmax (vd va vb : BitVec 3) (q : BitVec 2) (ty : VType)
  /-- VAND (R150): Lanewise bitwise AND. -/
  | vand (vd va vb : BitVec 3) (q : BitVec 2)
  /-- VOR (R150): Lanewise bitwise OR. -/
  | vor (vd va vb : BitVec 3) (q : BitVec 2)
  /-- VXOR (R150): Lanewise bitwise XOR. -/
  | vxor (vd va vb : BitVec 3) (q : BitVec 2)
  /-- VSHL (R150): Elementwise left shift. -/
  | vshl (vd va vb : BitVec 3) (q : BitVec 2) (ty : VType)
  /-- VSHR (R150): Elementwise logical right shift. -/
  | vshr (vd va vb : BitVec 3) (q : BitVec 2) (ty : VType)
  /-- VSRA (R150): Elementwise arithmetic right shift. -/
  | vsra (vd va vb : BitVec 3) (q : BitVec 2) (ty : VType)
  /-- VSEL (R152): Selects lanes of va or vb by the mask. -/
  | vsel (vd va vb : BitVec 3) (q : BitVec 2)
  /-- VCMP (R152): Compares lanes and writes a mask register. -/
  | vcmp (qd : BitVec 2) (va vb : BitVec 3) (q : BitVec 2) (ty : VType) (cond : BitVec 3)
  /-- VCVT (R153): Converts one part of the elements between formats under a prefix. -/
  | vcvt (vd va part : BitVec 3) (q : BitVec 2) (ty : VType)
  /-- VADD_VS (R150): Vector add with a scalar operand. -/
  | vaddVs (vd va : BitVec 3) (q : BitVec 2) (ty : VType) (g : RegCode)
  /-- VSUB_VS (R150): Vector subtract with a scalar operand. -/
  | vsubVs (vd va : BitVec 3) (q : BitVec 2) (ty : VType) (g : RegCode)
  /-- VMUL_VS (R150): Vector multiply with a scalar operand. -/
  | vmulVs (vd va : BitVec 3) (q : BitVec 2) (ty : VType) (g : RegCode)
  /-- VMIN_VS (R150): Vector minimum with a scalar operand. -/
  | vminVs (vd va : BitVec 3) (q : BitVec 2) (ty : VType) (g : RegCode)
  /-- VMAX_VS (R150): Vector maximum with a scalar operand. -/
  | vmaxVs (vd va : BitVec 3) (q : BitVec 2) (ty : VType) (g : RegCode)
  /-- VAND_VS (R150): Lanewise AND with a scalar. -/
  | vandVs (vd va : BitVec 3) (q : BitVec 2) (g : RegCode)
  /-- VOR_VS (R150): Lanewise OR with a scalar. -/
  | vorVs (vd va : BitVec 3) (q : BitVec 2) (g : RegCode)
  /-- VXOR_VS (R150): Lanewise XOR with a scalar. -/
  | vxorVs (vd va : BitVec 3) (q : BitVec 2) (g : RegCode)
  /-- VSHL_VS (R150): Left shift by a scalar count. -/
  | vshlVs (vd va : BitVec 3) (q : BitVec 2) (ty : VType) (g : RegCode)
  /-- VSHR_VS (R150): Logical right shift by a scalar count. -/
  | vshrVs (vd va : BitVec 3) (q : BitVec 2) (ty : VType) (g : RegCode)
  /-- VSRA_VS (R150): Arithmetic right shift by a scalar count. -/
  | vsraVs (vd va : BitVec 3) (q : BitVec 2) (ty : VType) (g : RegCode)
  /-- VSEL_VS (R152): Selects lanes of va or a scalar by the mask. -/
  | vselVs (vd va : BitVec 3) (q : BitVec 2) (g : RegCode)
  /-- VCMP_VS (R152): Compares lanes with a scalar and writes a mask. -/
  | vcmpVs (qd : BitVec 2) (va : BitVec 3) (q : BitVec 2) (ty : VType) (g : RegCode) (cond : BitVec 3)
  /-- VMAC (R150): Elementwise multiply-accumulate, fused for floats. -/
  | vmac (vd va vb : BitVec 3) (q : BitVec 2) (ty : VType)
  /-- VMAC_VS (R150): Multiply-accumulate with a scalar operand. -/
  | vmacVs (vd va : BitVec 3) (q : BitVec 2) (ty : VType) (g : RegCode)
  /-- VDOT4 (R151): Four-byte dot product accumulated into INT32 lanes. -/
  | vdot4 (vd va vb : BitVec 3) (q : BitVec 2) (ty : VType)
  /-- VDOT4_VS (R151): Four-byte dot product against a scalar's bytes. -/
  | vdot4Vs (vd va : BitVec 3) (q : BitVec 2) (ty : VType) (g : RegCode)
  /-- VLD (R160): Loads 128 contiguous bytes into a vector register. -/
  | vld (vd : BitVec 3) (q : BitVec 2) (g : RegCode)
  /-- VST (R160): Stores a vector register to 128 contiguous bytes. -/
  | vst (vd : BitVec 3) (q : BitVec 2) (g : RegCode)
  /-- VLDS (R160): Strided vector load. -/
  | vlds (vd : BitVec 3) (q : BitVec 2) (g : RegCode)
  /-- VSTS (R160): Strided vector store. -/
  | vsts (vd : BitVec 3) (q : BitVec 2) (g : RegCode)
  /-- VGATHER (R161): Gathers elements at base plus scaled indices. -/
  | vgather (vd va : BitVec 3) (q : BitVec 2) (ty : VType) (g : RegCode)
  /-- VGATHER_P (R162): Partial gather writing done and fault masks and never trapping on addresses. -/
  | vgatherP (vd va : BitVec 3) (c q : BitVec 2) (ty : VType) (g : RegCode)
  /-- VSCATTER (R161): Scatters elements to base plus scaled indices. -/
  | vscatter (vd va : BitVec 3) (q : BitVec 2) (ty : VType) (g : RegCode)
  /-- VLDBIT_U (R160): Loads 32 unsigned N-bit fields from the local window. -/
  | vldbitU (vd : BitVec 3) (q : BitVec 2) (g : RegCode) (n : BitVec 4)
  /-- VLDBIT_S (R160): Loads 32 signed N-bit fields from the local window. -/
  | vldbitS (vd : BitVec 3) (q : BitVec 2) (g : RegCode) (n : BitVec 4)
  /-- VSTBIT (R160): Stores 32 N-bit fields into the local window. -/
  | vstbit (vd : BitVec 3) (q : BitVec 2) (g : RegCode) (n : BitVec 4)
  /-- VBCAST (R155): Broadcasts a scalar to active elements. -/
  | vbcast (vd : BitVec 3) (q : BitVec 2) (ty : VType) (g : RegCode)
  /-- VEXT (R155): Extracts one lane into a scalar register. -/
  | vext (va : BitVec 3) (lane : BitVec 5) (ty : VType) (g : RegCode)
  /-- VPERM (R155): Permutes lanes of va by the indices in vb. -/
  | vperm (vd va vb : BitVec 3) (q : BitVec 2)
  /-- VSHUF (R155): Zips or unzips va and vb by a scalar pattern. -/
  | vshuf (vd va vb : BitVec 3) (q : BitVec 2) (g : RegCode)
  /-- VROT (R155): Rotates lanes by a scalar count. -/
  | vrot (vd va : BitVec 3) (q : BitVec 2) (g : RegCode)
  /-- VRED (R156): Reduces active elements in the fixed tree into a scalar. -/
  | vred (va : BitVec 3) (q : BitVec 2) (ty : VType) (g : RegCode) (op : BitVec 3)
  /-- VSCAN (R156): Inclusive prefix of active elements in fixed steps. -/
  | vscan (vd va : BitVec 3) (q : BitVec 2) (ty : VType) (op : BitVec 3)
  /-- MAND (R157): ANDs two mask registers. -/
  | mand (qd qa qb : BitVec 2)
  /-- MOR (R157): ORs two mask registers. -/
  | mor (qd qa qb : BitVec 2)
  /-- MXOR (R157): XORs two mask registers. -/
  | mxor (qd qa qb : BitVec 2)
  /-- MNOT (R157): Inverts a mask register. -/
  | mnot (qd qa : BitVec 2)
  /-- MPOPC (R157): Counts the one bits of a mask. -/
  | mpopc (qa : BitVec 2) (g : RegCode)
  /-- MFIRST (R157): Writes the index of a mask's lowest one bit, or 32. -/
  | mfirst (qa : BitVec 2) (g : RegCode)
  /-- MMOV (R157): Writes a mask from a scalar's low 32 bits. -/
  | mmov (qd : BitVec 2) (g : RegCode)
  /-- MRD (R157): Reads a mask into a scalar, zero-extended. -/
  | mrd (qa : BitVec 2) (g : RegCode)
  /-- BAR (R184): Synchronises sends, releases at PARTY scope and arrives at the party barrier. -/
  | bar
  /-- TRIG (R185): Releases at SYS scope and marks the party triggered. -/
  | trig
  /-- EXIT (R186): Synchronises sends, releases at SYS scope and ends the thread. -/
  | exit
  /-- YIELD (R187): Completes at once and keeps the slot unready until others have issued or 16 cycles pass. -/
  | yield
  /-- SLEEP (R187): Waits for a cycle count, an arrival or an inbox message. -/
  | sleep (a : RegCode) (hA : Bool)
  /-- MIGPT (R188): Safe point that waits for a requested migration to complete. -/
  | migpt
  /-- HINT (R187): Hands a phase hint to the Surveyor with no visible effect. -/
  | hint (phase : BitVec 2)
  /-- ARM (R174): Arms a register for a register-send arrival. -/
  | arm (d : RegCode)
  /-- ARM_ACQ (R174): Arms a register with an acquire scope for the consumed arrival. -/
  | armAcq (d : RegCode) (sc : Scope)
  /-- SENDR (R175): Checks a capability and sends a 64-bit value towards the target rank. -/
  | sendr (a b : RegCode) (hA hB : Bool)
  /-- SENDR_REL (R175): Releases at the scope, then sends. -/
  | sendrRel (a b : RegCode) (hA hB : Bool) (sc : Scope)
  /-- SENDR_W (R175): Sends and then synchronises on all outstanding sends. -/
  | sendrW (a b : RegCode) (hA hB : Bool)
  /-- SENDR_W_REL (R175): Releases, sends, then synchronises on outstanding sends. -/
  | sendrWRel (a b : RegCode) (hA hB : Bool) (sc : Scope)
  /-- CAPR (R172): Mints a register capability for the issuing thread. -/
  | capr (d b : RegCode) (rights : BitVec 2)
  /-- CAPCHK (R173): Checks a capability against the survey key without contacting the target. -/
  | capchk (d a : RegCode) (hA : Bool)
  /-- CAPI (R172): Mints an inbox capability for the issuing thread. -/
  | capi (d : RegCode)
  /-- SRV (R165): Sends a serve call packet to the bound fabric server and makes the result registers PENDING. -/
  | srv (d a b : RegCode) (nr na : BitVec 2) (sel : BitVec 4)
  /-- CHSEND (R180): Enters a channel message in the send buffer. -/
  | chsend (d a b : RegCode) (hA hB : Bool)
  /-- CHSEND_REL (R180): Releases at the scope, then enters a channel message. -/
  | chsendRel (d a b : RegCode) (hA hB : Bool) (sc : Scope)
  /-- CHSEND_BLK (R180): Enters a channel message and synchronises on outstanding sends. -/
  | chsendBlk (d a b : RegCode) (hA hB : Bool)
  /-- CHSEND_BLK_REL (R180): Releases, enters a message and synchronises. -/
  | chsendBlkRel (d a b : RegCode) (hA hB : Bool) (sc : Scope)
  /-- CHRECV (R183): Frees the held message and waits for and returns the next inbox message. -/
  | chrecv (d : RegCode)
  /-- CHRECV_ACQ (R183): CHRECV followed by an acquire at the scope. -/
  | chrecvAcq (d : RegCode) (sc : Scope)
  /-- CHPOLL (R183): Returns the next inbox message or 0 without waiting. -/
  | chpoll (d : RegCode)
  /-- CHPOLL_ACQ (R183): CHPOLL followed by an acquire at the scope. -/
  | chpollAcq (d : RegCode) (sc : Scope)
  /-- COPY_GO (R209): Queues a COPY command moving bytes or a tile to a destination. -/
  | copyGo (ctx : BitVec 2) (a b : RegCode) (sc : Scope)
  /-- COPY_GATHER (R209): Queues a COPY command gathering indexed rows. -/
  | copyGather (ctx : BitVec 2) (a b : RegCode) (sc : Scope)
  /-- COPY_RED (R209): Queues a COPY command reducing into a scratchpad destination. -/
  | copyRed (ctx : BitVec 2) (a b : RegCode) (sc : Scope)
  /-- COPY_MCAST (R209): Queues a COPY command multicasting to placement cores. -/
  | copyMcast (ctx : BitVec 2) (a b : RegCode) (sc : Scope)
  /-- PLANE_LDW (R216): Queues a load of a weight tile into a plane buffer as digit planes. -/
  | planeLdw (ctx : BitVec 2) (sc : Scope)
  /-- PLANE_RUN (R217): Queues a RUN multiplying latch rows by the buffer's tiles and sending contributions. -/
  | planeRun (ctx : BitVec 2) (sc : Scope)
  /-- PLANE_FID (R219): Queues a fidelity change of the contour rails. -/
  | planeFid (ctx : BitVec 2) (sc : Scope)
  /-- PLANE_CNT (R220): Queues a snapshot of the contours' detected-error counters. -/
  | planeCnt (ctx : BitVec 2) (sc : Scope)
  /-- GATHER_ROWS (R215): Queues a gather of activation rows into a latch half. -/
  | gatherRows (ctx : BitVec 2) (sc : Scope)
  /-- FAB_LOAD (R224): Queues a command making a fabric region resident. -/
  | fabLoad (ctx : BitVec 2) (sc : Scope)
  /-- FAB_EVICT (R224): Queues a command removing a region from the fabric. -/
  | fabEvict (ctx : BitVec 2) (sc : Scope)
  /-- FAB_SEED (R224): Queues a command injecting tokens at an edge port. -/
  | fabSeed (ctx : BitVec 2) (sc : Scope)
  /-- FAB_SNAP (R224): Queues a command writing the state of a band's accumulator nodes. -/
  | fabSnap (ctx : BitVec 2) (sc : Scope)
  /-- CXW (R191): Writes a scalar into an engine register of a context. -/
  | cxw (eng : BitVec 4) (ctx : BitVec 2) (src : RegCode) (ereg : BitVec 5)
  /-- CXR (R191): Reads an engine register into a scalar two cycles later. -/
  | cxr (eng : BitVec 4) (ctx : BitVec 2) (d : RegCode) (ereg : BitVec 5)
  /-- HSET (R202): Binds a FREE handle entry to a new buffer and generation. -/
  | hset (d a b : RegCode) (hA hB : Bool)
  /-- HFREE (R203): Frees a FULL handle, waiting if FILLING. -/
  | hfree (a : RegCode) (hA : Bool)
  /-- HKILL (R203): Frees a handle from any state and advances its generation. -/
  | hkill (a : RegCode) (hA : Bool)
  /-- HWAIT (R203): Waits until a handle is in a masked state, then acquires at CORE scope. -/
  | hwait (a : RegCode) (mask : BitVec 4) (hA : Bool)
  /-- HSTAT (R203): Reads a handle entry's discard count, state and current handle. -/
  | hstat (d a : RegCode) (hA : Bool)
  /-- TLWAIT (R198): Waits until a context counter reaches a target, then acquires at the scope. -/
  | tlwait (a : RegCode) (sc : Scope) (hA : Bool) (eng ctx : BitVec 2)
  /-- TLREAD (R199): Samples a context counter, delivered two cycles later. -/
  | tlread (d : RegCode) (eng ctx : BitVec 2)
  /-- TLADV (R199): Takes the next command number as a no-work command. -/
  | tladv (d : RegCode) (eng ctx : BitVec 2)
  /-- TRAP (R249): Enters the handler with cause TRAP_INSTR and the 18-bit code. -/
  | trap (code : BitVec 18)
  /-- ERET (R249): Restores STAT and the prefix from the shadows and resumes at EPC. -/
  | eret
  /-- WFI (R250): Waits for an arrival, inbox message, counter, handle change or resumption. -/
  | wfi
  /-- CTLR (R247): Reads a control register. -/
  | ctlr (d : RegCode) (addr : BitVec 12)
  /-- CTLW (R247): Writes a control register, subject to privilege. -/
  | ctlw (src : RegCode) (addr : BitVec 12)
  /-- CTLSET (R247): Sets bits of a control register. -/
  | ctlset (src : RegCode) (addr : BitVec 12)
  /-- CTLCLR (R247): Clears bits of a control register. -/
  | ctlclr (src : RegCode) (addr : BitVec 12)
  /-- TLBINV (R251): Invalidates translations of a context over a range in every TLB, walk cache and fault marker. -/
  | tlbinv (d a b : RegCode) (hA hB : Bool)
  /-- TLBPROBE (R253): Looks up an address in the TLBs without walking. -/
  | tlbprobe (d a b : RegCode) (hA hB : Bool)
  /-- CWB (R254): Writes back every dirty byte of the core's cache portion to the home of the scope. -/
  | cwb (sc : Scope)
  /-- CINV (R254): Writes back and invalidates the whole cache portion. -/
  | cinv (sc : Scope)
  /-- VECTOR_COMPLETION (R145): A vector instruction completes after acceptance or after its last lane's data, releasing the waiting thread. -/
  | vectorCompletion
  /-- SLEEP_EXPIRY (R187): The SLEEP count elapses and the thread returns to the rotation. -/
  | sleepExpiry
  /-- TLSTAT_WRITE (R191): A CXW to TLSTAT clears the status word whatever the value. -/
  | tlstatWrite
  /-- CXR_VALUE_RETURN (R191): Two cycles after a CXR the engine register's value is written and the destination becomes READY. -/
  | cxrValueReturn
  /-- TLREAD_VALUE_RETURN (R199): The sampled counter value is written two cycles after TLREAD. -/
  | tlreadValueReturn
  /-- STAT_WRITE (R248): A write of STAT changes only RM and FLAGS in user mode and may change MODE, PP and LA in supervisor mode. -/
  | statWrite
  /-- LMSPLIT_WRITE (R33): Changes the scratchpad split, writing back and invalidating ways that become scratchpad. -/
  | lmsplitWrite
  /-- INBOX_WRITE (R33): Sets the inbox ring and resets its positions and held message. -/
  | inboxWrite
  /-- GPOOL_WRITE (R294): Enables or disables the core's victim pooling, flushing pool lines when disabled. -/
  | gpoolWrite
  /-- SRVTAB_WRITE (R35): Changes a server selector binding for later SRV calls. -/
  | srvtabWrite
  /-- TLBINV_COMPLETE (R252): The invalidation completes once arrays are purged, stale walks ended and translated accesses performed. -/
  | tlbinvComplete
  /-- TLBPROBE_RESULT (R253): The probe result is written when the lookup reaches the die TLB. -/
  | tlbprobeResult
  /-- INSTRUCTION_FETCH_FILL (R388): A missed instruction-cache line arrives and the fetching thread becomes runnable. -/
  | instructionFetchFill
  /-- LOAD_DATA_RETURN (R27): Data returned for a PENDING register is written and the register becomes READY, or keeps poison. -/
  | loadDataReturn
  /-- RELEASE_COMPLETE (R300): All write-backs and flush acknowledgements of a release have arrived and the waiting instruction proceeds. -/
  | releaseComplete
  /-- ACQUIRE_COMPLETE (R299): An acquire completes by setting the thread's floors. -/
  | acquireComplete
  /-- L2_MISS_FILL (R296): A line read by an L2 miss-status register arrives and its waiters are served in order. -/
  | l2MissFill
  /-- PAGE_WALK_COMPLETE (R312): A walk ends, installing its entry and serving merged requesters, or failing each. -/
  | pageWalkComplete
  /-- SRV_RESULT_WRITEBACK (R166): The EXT result for a tag is written to all result registers, or the caller takes SERVE_POISON. -/
  | srvResultWriteback
  /-- SEND_DELIVERY (R176): A register send is examined at the target's gazetteer and accepted, held or refused. -/
  | sendDelivery
  /-- SEND_ACKNOWLEDGEMENT (R179): An acknowledgement reaches the sender and updates its outstanding count and refusal record. -/
  | sendAcknowledgement
  /-- CHANNEL_TRANSMIT (R180): The network interface reads the source bytes and transmits a channel message. -/
  | channelTransmit
  /-- INBOX_PLACEMENT (R182): An arriving inbox message is placed in the ring, waits for room, or is refused TOO_LARGE. -/
  | inboxPlacement
  /-- COMMAND_START (R197): An engine starts a queued command in number order once its hazards allow. -/
  | commandStart
  /-- COMMAND_COMPLETION (R197): A command completes, merging its status and advancing the timeline counter. -/
  | commandCompletion
  /-- COPY_LAST_BYTE (R201): A copy's last byte is written or read and its handle moves to FULL or FREE. -/
  | copyLastByte
  /-- CONTOUR_CLAIM (R213): A waiting client takes the contour array's claim, clearing buffers when the party changes. -/
  | contourClaim
  /-- RAIL_SETTLE (R333): A contour rail setpoint change finishes settling. -/
  | railSettle
  /-- ELEMENT_FIRE (R227): A fabric element fires, consuming its operands and writing its result to every destination. -/
  | elementFire
  /-- ENT_ACCEPT (R381): An ENT port accepts one waiting serve-call packet and emits its argument tokens. -/
  | entAccept
  /-- LDP_EMIT (R237): An LDP's read returns and it emits the data token in address-token order. -/
  | ldpEmit
  /-- STP_PERFORMED (R238): An STP's synchronising store is performed at its home and the completion token is emitted. -/
  | stpPerformed
  /-- FAULT_TOKEN_DRAIN (R274): The Surveyor drains a fault token into the region's fault log. -/
  | faultTokenDrain
  /-- HANDLER_ABSENT_TIMEOUT (R274): After 100 us without a resident handler region, the Surveyor drains the edge itself and sets HANDLER_ABSENT. -/
  | handlerAbsentTimeout
  /-- REGION_REQUEST (R317): The Surveyor serves a request to make a region resident, placing or evicting by use. -/
  | regionRequest
  /-- CONFIG_CACHE_FETCH (R316): A region record fetched from memory lands in a configuration cache entry. -/
  | configCacheFetch
  /-- CONFIG_COMPLETE_WAVE (R318): The last column reports loaded; AG nests start and held tokens become eligible. -/
  | configCompleteWave
  /-- METERED_INJECTION (R324): Each cycle a metering group refills its balance and charges offering ports in order. -/
  | meteredInjection
  /-- REGION_STOP (R327): After the injection freeze, a graph region stops once no memory access is in flight and saves its state. -/
  | regionStop
  /-- LAUNCH_TOKEN_WRITE (R341): A host posted write enters tokens into a launch FIFO or causes OVERRUN. -/
  | launchTokenWrite
  /-- HEADER_CONSUME (R342): The Surveyor consumes a survey header at the FIFO head and checks it. -/
  | headerConsume
  /-- AGEING_PROMOTION (R349): An eligible survey waiting LIMIT us without a bind gains one ageing step. -/
  | ageingPromotion
  /-- PARTY_BIND (R349): The primary Surveyor chooses a candidate and placement and writes BIND records and the commit. -/
  | partyBind
  /-- DISPATCH_START (R351): Dispatch initialises the party's threads, sets gazetteer entries VALID and starts them in one cycle. -/
  | dispatchStart
  /-- SURVEY_COMPLETION (R346): A completed, cancelled or refused survey merges its status and advances its counter. -/
  | surveyCompletion
  /-- QSTOP (R352): Stops binding from a launch queue. -/
  | qstop
  /-- QSTART (R352): Resumes binding from a launch queue. -/
  | qstart
  /-- QKILL (R353): Kills every accepted survey of the queue that has not ended. -/
  | qkill
  /-- KILL_REGION_TIMEOUT (R353): A killed region not at a boundary within 100 us stops where it is, discarding queue contents. -/
  | killRegionTimeout
  /-- QRESET (R352): Empties a stopped idle queue's FIFO and clears its error state. -/
  | qreset
  /-- LVAL_WRITE (R345): A host raises a launch counter's completion value. -/
  | lvalWrite
  /-- LTRIG_WRITE (R345): A host raises a launch counter's trigger value. -/
  | ltrigWrite
  /-- LSTAT_WRITE (R345): A host write clears a launch counter's WORST status. -/
  | lstatWrite
  /-- SERVICE_RESOLVE (R271): Escalated RESOLVE passes the fault to the owning host and waits. -/
  | serviceResolve
  /-- RESOLVE_ANSWER (R271): The host's answer arrives and the thread resumes after its TRAP. -/
  | resolveAnswer
  /-- SERVICE_MIGRATE (R271): Escalated MIGRATE moves the thread to a core holding the needed features or reports none. -/
  | serviceMigrate
  /-- SERVICE_TERM_THREAD (R271): Escalated TERM_THREAD ends the thread as trap-terminated. -/
  | serviceTermThread
  /-- SERVICE_TERM_PARTY (R271): Escalated TERM_PARTY terminates the party. -/
  | serviceTermParty
  /-- PARTY_TERMINATION (R272): Any other escalated cause stops every thread of the party and records the trap. -/
  | partyTermination
  /-- PREEMPTION_STOP (R276): The Surveyor stops a party: entries go IN_TRANSIT, units reach stopping points, releases at SYS scope. -/
  | preemptionStop
  /-- SAVE_WRITE (R283): The save engine writes the save area granule by granule and marks it valid. -/
  | saveWrite
  /-- SAVE_RESUME (R284): After the host maps the page, the Surveyor resumes the save engine at CURSOR. -/
  | saveResume
  /-- RESTORE (R286): The Surveyor restores a valid save area onto a placement and resumes the party. -/
  | restore
  /-- MIGRATION_REQUEST (R287): A migration is noted: gazetteer entries go IN_TRANSIT and deliveries are held. -/
  | migrationRequest
  /-- MIGRATION_TRANSFER (R287): At safe points the threads' state moves to the new cores and entries go VALID there. -/
  | migrationTransfer
  /-- THERMAL_MIGRATION (R376): A tile above THRESH has its persistent parties moved to the coolest qualifying core. -/
  | thermalMigration
  /-- SURVEY_READ (R370): Mailbox command copying one object's current state to host memory. -/
  | surveyRead
  /-- IMG_ADD (R367): Mailbox command checking, translating and entering an image in the image table. -/
  | imgAdd
  /-- IMG_REMOVE (R358): Mailbox command removing or marking for removal an image. -/
  | imgRemove
  /-- SET_DOMAIN (R357): Mailbox command setting the package number and plane mask before the first launch. -/
  | setDomain
  /-- MGRP_WRITE (R323): SETREG of a metering group's enable, depth and refill. -/
  | mgrpWrite
  /-- MCOST_WRITE (R323): SETREG of a port's injection cost. -/
  | mcostWrite
  /-- CFLOOR_WRITE (R334): SETREG of a cluster's lowest permitted contour setpoint. -/
  | cfloorWrite
  /-- OPREQ_WRITE (R372): SETREG of a core's operating-point request and hint envelope. -/
  | opreqWrite
  /-- TMIG_WRITE (R376): SETREG of a cluster's thermal migration policy. -/
  | tmigWrite
  /-- CTBASE_WRITE (R306): SETREG of the context table base and enable. -/
  | ctbaseWrite
  /-- FWSTAGE (R377): Copies and verifies a firmware image into the inactive slot. -/
  | fwstage
  /-- FWACT (R377): Activates the staged firmware slot and restarts the Surveyors. -/
  | fwact
  /-- ATTOUT (R378): Writes a signed attestation report to the given host address. -/
  | attout
  /-- IMGKEY_WRITE (R359): Installs or empties an image-signing public key slot. -/
  | imgkeyWrite
  /-- REGISTER_WRITE (R359): A write to a register with no behaviour of its own stores the value. -/
  | registerWrite
  /-- ISTATUS_WRITE (R360): A host write of ones clears interrupt cause bits. -/
  | istatusWrite
  /-- HOST_LINK_DOWN (R355): A host port's link goes down and accesses to its memory window fail. -/
  | hostLinkDown
  /-- HOST_LINK_RETRAIN (R355): A host port's link retrains and memory-window accesses resume. -/
  | hostLinkRetrain
  /-- JENLINK_FLIT_RECEIVE (R362): A 256-byte flit arrives and is CRC-checked and its messages delivered. -/
  | jenlinkFlitReceive
  /-- JENLINK_LINK_DOWN (R364): A Jenlink port loses its link and in-flight messages meet their fixed outcomes. -/
  | jenlinkLinkDown
  /-- JENLINK_TRAINING (R365): A link negotiates version and features and comes up or stays down. -/
  | jenlinkTraining
  /-- PACKAGE_RESET (R379): Verifies boot firmware, trains memory and links, zeroes state and clears CYCLE. -/
  | packageReset
  /-- SURVEYOR_RESTART (R375): Reset control restarts the Surveyors, which reload firmware and rebuild tables. -/
  | surveyorRestart
  /-- DEBUG_UNLOCK (R379): A signed debug unlock token opens internal state through the IEEE 1149.1 port. -/
  | debugUnlock
  /-- WATCHDOG_EXPIRY (R375): The Surveyor watchdog expires: points clamp to FSAFE, binding and services stop, hosts are interrupted. -/
  | watchdogExpiry
  /-- THERMAL_TRIP (R374): A tile sensor reaches 110 deg C and the tile stops issuing. -/
  | thermalTrip
  /-- THERMAL_TRIP_END (R374): The sensor falls below 100 deg C and the tile resumes. -/
  | thermalTripEnd
  /-- CURRENT_LIMIT (R374): Tile current above its limit throttles issue until it falls. -/
  | currentLimit
  /-- POWER_CLAMP (R374): Package power above 1,600 W stretches every arithmetic clock. -/
  | powerClamp
  /-- PACKAGE_SHUTDOWN (R374): A sensor at 125 deg C turns off every clock and rail. -/
  | packageShutdown
  /-- TEMP_REFRESH (R372): Every 10 us each tile sensor refreshes OPSTAT.TEMP. -/
  | tempRefresh
  /-- OPERATING_POINT_CHANGE (R372): A tile's change of operating point completes. -/
  | operatingPointChange
  /-- ROLLBACK_ADVANCE (R377): After 10 s of new firmware without watchdog expiry the rollback counter advances. -/
  | rollbackAdvance
  /-- VECTOR_LATCH_ACCEPT (R144): In a cycle the tile's vector unit accepts one full request latch, chosen by rotation among the four cores. -/
  | vectorLatchAccept
  /-- VECTOR_RESPONSE_RETURN (R385): A response to one request of a vector load returns, writes its lanes and frees its reserved slot so that a held-back request may be sent. -/
  | vectorResponseReturn
  /-- PREF_FILL_RETURN (R127): The response to a PREF fill arrives, fills the line into the core's cache portion and frees one of the core's 4 prefetch slots. -/
  | prefFillReturn
  /-- DEVICE_STORE_ACCEPTED (R128): The target accepts a posted device store, and the thread's next device access may be sent. -/
  | deviceStoreAccepted
  /-- YIELD_EXPIRY (R187): After a YIELD, 16 cycles pass, or every other ready slot has issued once, and the slot becomes ready again. -/
  | yieldExpiry
  /-- POWER_CLAMP_RELEASE (R374): Package power falls below 1,600 W, so clock stretching ends and STRETCH clears. -/
  | powerClampRelease
  /-- CURRENT_LIMIT_RELEASE (R374): Tile current falls back below its fused limit, so issue throttling ends and OPSTAT.LIMIT clears. -/
  | currentLimitRelease
  /-- MAILBOX_BAD_COMMAND (R357): A CW0 write whose CMD is unassigned, or a SETREG naming an unlisted register, gets a BAD_COMMAND response and changes nothing. -/
  | mailboxBadCommand
  /-- CONTOUR_COUNTER_CLEAR (R337): The host clears the contours' 48-bit detected-error counters. -/
  | contourCounterClear
  deriving DecidableEq, Repr

end Sys2Proof
end

