-- ==== Sys2Proof/WellFormed.lean ====
section
/-!
DEFINITION. Which instruction terms are well formed: the register classes of R21, R66 and R68, the
type classes of R147 and R156, and the reserved sub-field values that R73 refuses. A term that is not
well formed has a named defect; its word takes ILLEGAL_INSTR.
-/

namespace Sys2Proof

/-- Why a word or a term is no instruction. All of them take ILLEGAL_INSTR (R73) but reservedEngine,
which takes ENGINE_FAULT (R69). -/
inductive DecodeError where
  | reservedMajor      -- R72
  | unassigned         -- a function code, condition or selector the table leaves unassigned (R73)
  | nonZeroField       -- a field that must be zero is not, a stray hold bit among them (R65, R25)
  | badScope           -- scope code 5 to 7 (R106)
  | badType            -- element type 7 or outside the instruction's class (R70, R147)
  | badRegister        -- a reserved code or one outside the class of the field (R21, R66, R68)
  | badField           -- a sub-field value the instruction reserves (R105, R147, R163, R192)
  | reservedEngine     -- a CX naming engine 4 to 15 (R69)
  | notAWord           -- an event row, which has no word
  | truncated          -- fewer than four bytes
  deriving DecidableEq, Repr

/-- A code that may be read (R21). -/
def RegCode.readable (c : RegCode) : Bool := c.toNat < 60

/-- A code that may be named as a destination: g, k and nil (R21). -/
def RegCode.writable (c : RegCode) : Bool := c.toNat < 56 || c.toNat == 58

/-- A g or k register (R163). -/
def RegCode.isGK (c : RegCode) : Bool := c.toNat < 56

/-- A g register (R68). -/
def RegCode.isG (c : RegCode) : Bool := c.toNat < 48

/-- A g register whose successor is a g register (R147). -/
def RegCode.isGPair (c : RegCode) : Bool := c.toNat < 47

/-- Type class `int` of R147. -/
def VType.isInt : VType → Bool
  | .i32 | .i16 | .i8 | .u8 => true
  | .f32 | .f16 | .bf16 => false

/-- Type class `w32` of R147. -/
def VType.isW32 : VType → Bool
  | .i32 | .f32 => true
  | .i16 | .f16 | .bf16 | .i8 | .u8 => false

/-- The type class of a VRED or VSCAN operation code (R156). -/
def redTypeOk (op : BitVec 3) (ty : VType) : Bool :=
  if op.toNat < 3 then true
  else if op.toNat < 5 then ty == .i32 || ty == .i16 || ty == .i8
  else ty == .i32

/-- The type class of a VCMP condition (R147): EQ, NE, LT, LE on w32, LTU and LEU on INT32. -/
def cmpDefect (cond : BitVec 3) (ty : VType) : Option DecodeError :=
  if cond.toNat > 5 then some .unassigned
  else if ty.isW32 && (cond.toNat < 4 || ty == .i32) then none
  else some .badType

/-- The register rule of R68 for an SRV. -/
def srvRegsOk (d a b : RegCode) (nr na : BitVec 2) : Bool :=
  let na := na.toNat
  a.isG && d.isG && d.toNat + nr.toNat < 48 &&
  (if na == 0 then b == 0 else b.isG) &&
  (na < 2 || a.toNat + 1 < 48) && (na < 3 || b.toNat + 1 < 48)

/-- First failing check, or none. -/
def chk (e : DecodeError) (ok : Bool) (rest : Option DecodeError) : Option DecodeError :=
  if ok then rest else some e

/-- The defect of a term, none when it is well formed. -/
def Instr.defect : Instr → Option DecodeError
  | .add d a b _ _ => chk .badRegister (d.writable) (chk .badRegister (a.readable) (chk .badRegister (b.readable) none))
  | .sub d a b _ _ => chk .badRegister (d.writable) (chk .badRegister (a.readable) (chk .badRegister (b.readable) none))
  | .mul d a b _ _ => chk .badRegister (d.writable) (chk .badRegister (a.readable) (chk .badRegister (b.readable) none))
  | .mulh d a b _ _ => chk .badRegister (d.writable) (chk .badRegister (a.readable) (chk .badRegister (b.readable) none))
  | .mulhu d a b _ _ => chk .badRegister (d.writable) (chk .badRegister (a.readable) (chk .badRegister (b.readable) none))
  | .div d a b _ _ => chk .badRegister (d.writable) (chk .badRegister (a.readable) (chk .badRegister (b.readable) none))
  | .divu d a b _ _ => chk .badRegister (d.writable) (chk .badRegister (a.readable) (chk .badRegister (b.readable) none))
  | .rem d a b _ _ => chk .badRegister (d.writable) (chk .badRegister (a.readable) (chk .badRegister (b.readable) none))
  | .remu d a b _ _ => chk .badRegister (d.writable) (chk .badRegister (a.readable) (chk .badRegister (b.readable) none))
  | .and d a b _ _ => chk .badRegister (d.writable) (chk .badRegister (a.readable) (chk .badRegister (b.readable) none))
  | .or d a b _ _ => chk .badRegister (d.writable) (chk .badRegister (a.readable) (chk .badRegister (b.readable) none))
  | .xor d a b _ _ => chk .badRegister (d.writable) (chk .badRegister (a.readable) (chk .badRegister (b.readable) none))
  | .andn d a b _ _ => chk .badRegister (d.writable) (chk .badRegister (a.readable) (chk .badRegister (b.readable) none))
  | .sll d a b _ _ => chk .badRegister (d.writable) (chk .badRegister (a.readable) (chk .badRegister (b.readable) none))
  | .srl d a b _ _ => chk .badRegister (d.writable) (chk .badRegister (a.readable) (chk .badRegister (b.readable) none))
  | .sra d a b _ _ => chk .badRegister (d.writable) (chk .badRegister (a.readable) (chk .badRegister (b.readable) none))
  | .rol d a b _ _ => chk .badRegister (d.writable) (chk .badRegister (a.readable) (chk .badRegister (b.readable) none))
  | .ror d a b _ _ => chk .badRegister (d.writable) (chk .badRegister (a.readable) (chk .badRegister (b.readable) none))
  | .min d a b _ _ => chk .badRegister (d.writable) (chk .badRegister (a.readable) (chk .badRegister (b.readable) none))
  | .max d a b _ _ => chk .badRegister (d.writable) (chk .badRegister (a.readable) (chk .badRegister (b.readable) none))
  | .minu d a b _ _ => chk .badRegister (d.writable) (chk .badRegister (a.readable) (chk .badRegister (b.readable) none))
  | .maxu d a b _ _ => chk .badRegister (d.writable) (chk .badRegister (a.readable) (chk .badRegister (b.readable) none))
  | .slt d a b _ _ => chk .badRegister (d.writable) (chk .badRegister (a.readable) (chk .badRegister (b.readable) none))
  | .sltu d a b _ _ => chk .badRegister (d.writable) (chk .badRegister (a.readable) (chk .badRegister (b.readable) none))
  | .seq d a b _ _ => chk .badRegister (d.writable) (chk .badRegister (a.readable) (chk .badRegister (b.readable) none))
  | .addw d a b _ _ => chk .badRegister (d.writable) (chk .badRegister (a.readable) (chk .badRegister (b.readable) none))
  | .subw d a b _ _ => chk .badRegister (d.writable) (chk .badRegister (a.readable) (chk .badRegister (b.readable) none))
  | .mulw d a b _ _ => chk .badRegister (d.writable) (chk .badRegister (a.readable) (chk .badRegister (b.readable) none))
  | .divw d a b _ _ => chk .badRegister (d.writable) (chk .badRegister (a.readable) (chk .badRegister (b.readable) none))
  | .divuw d a b _ _ => chk .badRegister (d.writable) (chk .badRegister (a.readable) (chk .badRegister (b.readable) none))
  | .remw d a b _ _ => chk .badRegister (d.writable) (chk .badRegister (a.readable) (chk .badRegister (b.readable) none))
  | .remuw d a b _ _ => chk .badRegister (d.writable) (chk .badRegister (a.readable) (chk .badRegister (b.readable) none))
  | .sllw d a b _ _ => chk .badRegister (d.writable) (chk .badRegister (a.readable) (chk .badRegister (b.readable) none))
  | .srlw d a b _ _ => chk .badRegister (d.writable) (chk .badRegister (a.readable) (chk .badRegister (b.readable) none))
  | .sraw d a b _ _ => chk .badRegister (d.writable) (chk .badRegister (a.readable) (chk .badRegister (b.readable) none))
  | .rolw d a b _ _ => chk .badRegister (d.writable) (chk .badRegister (a.readable) (chk .badRegister (b.readable) none))
  | .rorw d a b _ _ => chk .badRegister (d.writable) (chk .badRegister (a.readable) (chk .badRegister (b.readable) none))
  | .addi d a _ => chk .badRegister (d.writable) (chk .badRegister (a.readable) none)
  | .addiw d a _ => chk .badRegister (d.writable) (chk .badRegister (a.readable) none)
  | .andi d a _ => chk .badRegister (d.writable) (chk .badRegister (a.readable) none)
  | .ori d a _ => chk .badRegister (d.writable) (chk .badRegister (a.readable) none)
  | .xori d a _ => chk .badRegister (d.writable) (chk .badRegister (a.readable) none)
  | .slli d a _ => chk .badRegister (d.writable) (chk .badRegister (a.readable) none)
  | .slliw d a _ => chk .badRegister (d.writable) (chk .badRegister (a.readable) none)
  | .srli d a _ => chk .badRegister (d.writable) (chk .badRegister (a.readable) none)
  | .srliw d a _ => chk .badRegister (d.writable) (chk .badRegister (a.readable) none)
  | .srai d a _ => chk .badRegister (d.writable) (chk .badRegister (a.readable) none)
  | .sraiw d a _ => chk .badRegister (d.writable) (chk .badRegister (a.readable) none)
  | .rori d a _ => chk .badRegister (d.writable) (chk .badRegister (a.readable) none)
  | .roriw d a _ => chk .badRegister (d.writable) (chk .badRegister (a.readable) none)
  | .slti d a _ => chk .badRegister (d.writable) (chk .badRegister (a.readable) none)
  | .sltiu d a _ => chk .badRegister (d.writable) (chk .badRegister (a.readable) none)
  | .seqi d a _ => chk .badRegister (d.writable) (chk .badRegister (a.readable) none)
  | .lih d _ => chk .badRegister (d.writable) none
  | .addpc d _ => chk .badRegister (d.writable) none
  | .brEq a b _ => chk .badRegister (a.readable) (chk .badRegister (b.readable) none)
  | .brNe a b _ => chk .badRegister (a.readable) (chk .badRegister (b.readable) none)
  | .brLt a b _ => chk .badRegister (a.readable) (chk .badRegister (b.readable) none)
  | .brGe a b _ => chk .badRegister (a.readable) (chk .badRegister (b.readable) none)
  | .brLtu a b _ => chk .badRegister (a.readable) (chk .badRegister (b.readable) none)
  | .brGeu a b _ => chk .badRegister (a.readable) (chk .badRegister (b.readable) none)
  | .bzEqz a _ => chk .badRegister (a.readable) none
  | .bzNez a _ => chk .badRegister (a.readable) none
  | .bzLtz a _ => chk .badRegister (a.readable) none
  | .bzGez a _ => chk .badRegister (a.readable) none
  | .jal d _ => chk .badRegister (d.writable) none
  | .jalr d a _ => chk .badRegister (d.writable) (chk .badRegister (a.readable) none)
  | .loop a _ => chk .badRegister (a.readable) none
  | .sel d a b _ _ => chk .badRegister (d.writable) (chk .badRegister (a.readable) (chk .badRegister (b.readable) none))
  | .clz d a _ => chk .badRegister (d.writable) (chk .badRegister (a.readable) none)
  | .ctz d a _ => chk .badRegister (d.writable) (chk .badRegister (a.readable) none)
  | .popc d a _ => chk .badRegister (d.writable) (chk .badRegister (a.readable) none)
  | .brev d a _ => chk .badRegister (d.writable) (chk .badRegister (a.readable) none)
  | .bswap d a _ => chk .badRegister (d.writable) (chk .badRegister (a.readable) none)
  | .bfx d a b _ _ => chk .badRegister (d.writable) (chk .badRegister (a.readable) (chk .badRegister (b.readable) none))
  | .bfxu d a b _ _ => chk .badRegister (d.writable) (chk .badRegister (a.readable) (chk .badRegister (b.readable) none))
  | .bfi d a b _ _ => chk .badRegister (d.writable) (chk .badRegister (a.readable) (chk .badRegister (b.readable) none))
  | .ld d a size uns _ => chk .badRegister (d.writable) (chk .badRegister (a.readable) (chk .badField (!(size == 3 && uns)) none))
  | .st d a _ _ => chk .badRegister (d.readable) (chk .badRegister (a.readable) none)
  | .ldx d a b _ _ size uns => chk .badRegister (d.writable) (chk .badRegister (a.readable) (chk .badRegister (b.readable) (chk .badField (!(size == 3 && uns)) none)))
  | .stx d a b _ _ _ => chk .badRegister (d.readable) (chk .badRegister (a.readable) (chk .badRegister (b.readable) none))
  | .ldxAcq d a b _ _ _ _ => chk .badRegister (d.writable) (chk .badRegister (a.readable) (chk .badRegister (b.readable) none))
  | .stxRel d a b _ _ _ _ => chk .badRegister (d.readable) (chk .badRegister (a.readable) (chk .badRegister (b.readable) none))
  | .ldbitU d a b _ _ _ => chk .badRegister (d.writable) (chk .badRegister (a.readable) (chk .badRegister (b.readable) none))
  | .ldbitS d a b _ _ _ => chk .badRegister (d.writable) (chk .badRegister (a.readable) (chk .badRegister (b.readable) none))
  | .stbit d a b _ _ _ => chk .badRegister (d.readable) (chk .badRegister (a.readable) (chk .badRegister (b.readable) none))
  | .amoAdd d a _ _ _ _ => chk .badRegister (d.writable) (chk .badRegister (a.readable) none)
  | .amoAnd d a _ _ _ _ => chk .badRegister (d.writable) (chk .badRegister (a.readable) none)
  | .amoOr d a _ _ _ _ => chk .badRegister (d.writable) (chk .badRegister (a.readable) none)
  | .amoXor d a _ _ _ _ => chk .badRegister (d.writable) (chk .badRegister (a.readable) none)
  | .amoMin d a _ _ _ _ => chk .badRegister (d.writable) (chk .badRegister (a.readable) none)
  | .amoMax d a _ _ _ _ => chk .badRegister (d.writable) (chk .badRegister (a.readable) none)
  | .amoMinu d a _ _ _ _ => chk .badRegister (d.writable) (chk .badRegister (a.readable) none)
  | .amoMaxu d a _ _ _ _ => chk .badRegister (d.writable) (chk .badRegister (a.readable) none)
  | .amoXchg d a _ _ _ _ => chk .badRegister (d.writable) (chk .badRegister (a.readable) none)
  | .amoFadd32 d a _ _ _ => chk .badRegister (d.writable) (chk .badRegister (a.readable) none)
  | .cas d a b _ _ _ _ _ => chk .badRegister (d.writable) (chk .badRegister (a.readable) (chk .badRegister (b.readable) none))
  | .fenceAcq _ => none
  | .fenceRel _ => none
  | .fenceFull _ => none
  | .pref a _ => chk .badRegister (a.readable) none
  | .prefL2 a _ => chk .badRegister (a.readable) none
  | .clwb a _ _ => chk .badRegister (a.readable) none
  | .clinv a _ _ => chk .badRegister (a.readable) none
  | .fadd d a b _ _ => chk .badRegister (d.writable) (chk .badRegister (a.readable) (chk .badRegister (b.readable) none))
  | .fsub d a b _ _ => chk .badRegister (d.writable) (chk .badRegister (a.readable) (chk .badRegister (b.readable) none))
  | .fmul d a b _ _ => chk .badRegister (d.writable) (chk .badRegister (a.readable) (chk .badRegister (b.readable) none))
  | .fdiv d a b _ _ => chk .badRegister (d.writable) (chk .badRegister (a.readable) (chk .badRegister (b.readable) none))
  | .fsqrt d a _ => chk .badRegister (d.writable) (chk .badRegister (a.readable) none)
  | .fmin d a b _ _ => chk .badRegister (d.writable) (chk .badRegister (a.readable) (chk .badRegister (b.readable) none))
  | .fmax d a b _ _ => chk .badRegister (d.writable) (chk .badRegister (a.readable) (chk .badRegister (b.readable) none))
  | .fabs d a _ => chk .badRegister (d.writable) (chk .badRegister (a.readable) none)
  | .fneg d a _ => chk .badRegister (d.writable) (chk .badRegister (a.readable) none)
  | .fcps d a b _ _ => chk .badRegister (d.writable) (chk .badRegister (a.readable) (chk .badRegister (b.readable) none))
  | .frnd d a _ => chk .badRegister (d.writable) (chk .badRegister (a.readable) none)
  | .fmac d a b _ _ => chk .badRegister (d.writable) (chk .badRegister (a.readable) (chk .badRegister (b.readable) none))
  | .fmsc d a b _ _ => chk .badRegister (d.writable) (chk .badRegister (a.readable) (chk .badRegister (b.readable) none))
  | .fnmac d a b _ _ => chk .badRegister (d.writable) (chk .badRegister (a.readable) (chk .badRegister (b.readable) none))
  | .feq d a b _ _ => chk .badRegister (d.writable) (chk .badRegister (a.readable) (chk .badRegister (b.readable) none))
  | .flt d a b _ _ => chk .badRegister (d.writable) (chk .badRegister (a.readable) (chk .badRegister (b.readable) none))
  | .fle d a b _ _ => chk .badRegister (d.writable) (chk .badRegister (a.readable) (chk .badRegister (b.readable) none))
  | .fclass d a _ => chk .badRegister (d.writable) (chk .badRegister (a.readable) none)
  | .fcvt d a _ => chk .badRegister (d.writable) (chk .badRegister (a.readable) none)
  | .fcvti d a _ => chk .badRegister (d.writable) (chk .badRegister (a.readable) none)
  | .fcvtf d a _ => chk .badRegister (d.writable) (chk .badRegister (a.readable) none)
  | .pfx _ _ _ _ _ => none
  | .vadd _ _ _ _ _ => none
  | .vsub _ _ _ _ _ => none
  | .vmul _ _ _ _ _ => none
  | .vmin _ _ _ _ _ => none
  | .vmax _ _ _ _ _ => none
  | .vand _ _ _ _ => none
  | .vor _ _ _ _ => none
  | .vxor _ _ _ _ => none
  | .vshl _ _ _ _ ty => chk .badType (ty.isInt) none
  | .vshr _ _ _ _ ty => chk .badType (ty.isInt) none
  | .vsra _ _ _ _ ty => chk .badType (ty.isInt) none
  | .vsel _ _ _ _ => none
  | .vcmp _ _ _ _ ty cond => cmpDefect cond ty
  | .vcvt _ _ _ _ _ => none
  | .vaddVs _ _ _ _ g => chk .badRegister (g.readable) none
  | .vsubVs _ _ _ _ g => chk .badRegister (g.readable) none
  | .vmulVs _ _ _ _ g => chk .badRegister (g.readable) none
  | .vminVs _ _ _ _ g => chk .badRegister (g.readable) none
  | .vmaxVs _ _ _ _ g => chk .badRegister (g.readable) none
  | .vandVs _ _ _ g => chk .badRegister (g.readable) none
  | .vorVs _ _ _ g => chk .badRegister (g.readable) none
  | .vxorVs _ _ _ g => chk .badRegister (g.readable) none
  | .vshlVs _ _ _ ty g => chk .badRegister (g.readable) (chk .badType (ty.isInt) none)
  | .vshrVs _ _ _ ty g => chk .badRegister (g.readable) (chk .badType (ty.isInt) none)
  | .vsraVs _ _ _ ty g => chk .badRegister (g.readable) (chk .badType (ty.isInt) none)
  | .vselVs _ _ _ g => chk .badRegister (g.readable) none
  | .vcmpVs _ _ _ ty g cond => chk .badRegister (g.readable) (cmpDefect cond ty)
  | .vmac _ _ _ _ _ => none
  | .vmacVs _ _ _ _ g => chk .badRegister (g.readable) none
  | .vdot4 _ _ _ _ ty => chk .badType ((ty == .i8 || ty == .u8)) none
  | .vdot4Vs _ _ _ ty g => chk .badRegister (g.readable) (chk .badType ((ty == .i8 || ty == .u8)) none)
  | .vld _ _ g => chk .badRegister (g.readable) none
  | .vst _ _ g => chk .badRegister (g.readable) none
  | .vlds _ _ g => chk .badRegister (g.isGPair) none
  | .vsts _ _ g => chk .badRegister (g.isGPair) none
  | .vgather _ _ _ _ g => chk .badRegister (g.readable) none
  | .vgatherP _ _ c _ _ g => chk .badRegister (g.readable) (chk .badField (c != 0) none)
  | .vscatter _ _ _ _ g => chk .badRegister (g.readable) none
  | .vldbitU _ _ g _ => chk .badRegister (g.isGPair) none
  | .vldbitS _ _ g _ => chk .badRegister (g.isGPair) none
  | .vstbit _ _ g _ => chk .badRegister (g.isGPair) none
  | .vbcast _ _ _ g => chk .badRegister (g.readable) none
  | .vext _ _ ty g => chk .badRegister (g.writable) (chk .badType (ty.isW32) none)
  | .vperm _ _ _ _ => none
  | .vshuf _ _ _ _ g => chk .badRegister (g.readable) none
  | .vrot _ _ _ g => chk .badRegister (g.readable) none
  | .vred _ _ ty g op => chk .badRegister (g.writable) (chk .badType (redTypeOk op ty) none)
  | .vscan _ _ _ ty op => chk .badType (redTypeOk op ty) none
  | .mand _ _ _ => none
  | .mor _ _ _ => none
  | .mxor _ _ _ => none
  | .mnot _ _ => none
  | .mpopc _ g => chk .badRegister (g.writable) none
  | .mfirst _ g => chk .badRegister (g.writable) none
  | .mmov _ g => chk .badRegister (g.readable) none
  | .mrd _ g => chk .badRegister (g.writable) none
  | .bar => none
  | .trig => none
  | .exit => none
  | .yield => none
  | .sleep a _ => chk .badRegister (a.readable) none
  | .migpt => none
  | .hint _ => none
  | .arm d => chk .badRegister (d.isGK) none
  | .armAcq d _ => chk .badRegister (d.isGK) none
  | .sendr a b _ _ => chk .badRegister (a.readable) (chk .badRegister (b.readable) none)
  | .sendrRel a b _ _ _ => chk .badRegister (a.readable) (chk .badRegister (b.readable) none)
  | .sendrW a b _ _ => chk .badRegister (a.readable) (chk .badRegister (b.readable) none)
  | .sendrWRel a b _ _ _ => chk .badRegister (a.readable) (chk .badRegister (b.readable) none)
  | .capr d b rights => chk .badRegister (d.writable) (chk .badRegister (b.isGK) (chk .badField (rights != 0) none))
  | .capchk d a _ => chk .badRegister (d.writable) (chk .badRegister (a.readable) none)
  | .capi d => chk .badRegister (d.writable) none
  | .srv d a b nr na _ => chk .badRegister (srvRegsOk d a b nr na) none
  | .chsend d a b _ _ => chk .badRegister (d.readable) (chk .badRegister (a.readable) (chk .badRegister (b.readable) none))
  | .chsendRel d a b _ _ _ => chk .badRegister (d.readable) (chk .badRegister (a.readable) (chk .badRegister (b.readable) none))
  | .chsendBlk d a b _ _ => chk .badRegister (d.readable) (chk .badRegister (a.readable) (chk .badRegister (b.readable) none))
  | .chsendBlkRel d a b _ _ _ => chk .badRegister (d.readable) (chk .badRegister (a.readable) (chk .badRegister (b.readable) none))
  | .chrecv d => chk .badRegister (d.writable) none
  | .chrecvAcq d _ => chk .badRegister (d.writable) none
  | .chpoll d => chk .badRegister (d.writable) none
  | .chpollAcq d _ => chk .badRegister (d.writable) none
  | .copyGo _ a b _ => chk .badRegister (a.readable) (chk .badRegister (b.readable) none)
  | .copyGather _ a b _ => chk .badRegister (a.readable) (chk .badRegister (b.readable) none)
  | .copyRed _ a b _ => chk .badRegister (a.readable) (chk .badRegister (b.readable) none)
  | .copyMcast _ a b _ => chk .badRegister (a.readable) (chk .badRegister (b.readable) none)
  | .planeLdw _ _ => none
  | .planeRun _ _ => none
  | .planeFid _ _ => none
  | .planeCnt _ _ => none
  | .gatherRows _ _ => none
  | .fabLoad _ _ => none
  | .fabEvict _ _ => none
  | .fabSeed _ _ => none
  | .fabSnap _ _ => none
  | .cxw _ _ src _ => chk .badRegister (src.readable) none
  | .cxr _ _ d _ => chk .badRegister (d.writable) none
  | .hset d a b _ _ => chk .badRegister (d.writable) (chk .badRegister (a.readable) (chk .badRegister (b.readable) none))
  | .hfree a _ => chk .badRegister (a.readable) none
  | .hkill a _ => chk .badRegister (a.readable) none
  | .hwait a mask _ => chk .badRegister (a.readable) (chk .badField (mask != 0) none)
  | .hstat d a _ => chk .badRegister (d.writable) (chk .badRegister (a.readable) none)
  | .tlwait a _ _ _ _ => chk .badRegister (a.readable) none
  | .tlread d _ _ => chk .badRegister (d.writable) none
  | .tladv d _ _ => chk .badRegister (d.writable) none
  | .trap _ => none
  | .eret => none
  | .wfi => none
  | .ctlr d _ => chk .badRegister (d.writable) none
  | .ctlw src _ => chk .badRegister (src.readable) none
  | .ctlset src _ => chk .badRegister (src.readable) none
  | .ctlclr src _ => chk .badRegister (src.readable) none
  | .tlbinv d a b _ _ => chk .badRegister (d.readable) (chk .badRegister (a.readable) (chk .badRegister (b.readable) none))
  | .tlbprobe d a b _ _ => chk .badRegister (d.writable) (chk .badRegister (a.readable) (chk .badRegister (b.readable) none))
  | .cwb _ => none
  | .cinv _ => none
  | .vectorCompletion => some .notAWord
  | .sleepExpiry => some .notAWord
  | .tlstatWrite => some .notAWord
  | .cxrValueReturn => some .notAWord
  | .tlreadValueReturn => some .notAWord
  | .statWrite => some .notAWord
  | .lmsplitWrite => some .notAWord
  | .inboxWrite => some .notAWord
  | .gpoolWrite => some .notAWord
  | .srvtabWrite => some .notAWord
  | .tlbinvComplete => some .notAWord
  | .tlbprobeResult => some .notAWord
  | .instructionFetchFill => some .notAWord
  | .loadDataReturn => some .notAWord
  | .releaseComplete => some .notAWord
  | .acquireComplete => some .notAWord
  | .l2MissFill => some .notAWord
  | .pageWalkComplete => some .notAWord
  | .srvResultWriteback => some .notAWord
  | .sendDelivery => some .notAWord
  | .sendAcknowledgement => some .notAWord
  | .channelTransmit => some .notAWord
  | .inboxPlacement => some .notAWord
  | .commandStart => some .notAWord
  | .commandCompletion => some .notAWord
  | .copyLastByte => some .notAWord
  | .contourClaim => some .notAWord
  | .railSettle => some .notAWord
  | .elementFire => some .notAWord
  | .entAccept => some .notAWord
  | .ldpEmit => some .notAWord
  | .stpPerformed => some .notAWord
  | .faultTokenDrain => some .notAWord
  | .handlerAbsentTimeout => some .notAWord
  | .regionRequest => some .notAWord
  | .configCacheFetch => some .notAWord
  | .configCompleteWave => some .notAWord
  | .meteredInjection => some .notAWord
  | .regionStop => some .notAWord
  | .launchTokenWrite => some .notAWord
  | .headerConsume => some .notAWord
  | .ageingPromotion => some .notAWord
  | .partyBind => some .notAWord
  | .dispatchStart => some .notAWord
  | .surveyCompletion => some .notAWord
  | .qstop => some .notAWord
  | .qstart => some .notAWord
  | .qkill => some .notAWord
  | .killRegionTimeout => some .notAWord
  | .qreset => some .notAWord
  | .lvalWrite => some .notAWord
  | .ltrigWrite => some .notAWord
  | .lstatWrite => some .notAWord
  | .serviceResolve => some .notAWord
  | .resolveAnswer => some .notAWord
  | .serviceMigrate => some .notAWord
  | .serviceTermThread => some .notAWord
  | .serviceTermParty => some .notAWord
  | .partyTermination => some .notAWord
  | .preemptionStop => some .notAWord
  | .saveWrite => some .notAWord
  | .saveResume => some .notAWord
  | .restore => some .notAWord
  | .migrationRequest => some .notAWord
  | .migrationTransfer => some .notAWord
  | .thermalMigration => some .notAWord
  | .surveyRead => some .notAWord
  | .imgAdd => some .notAWord
  | .imgRemove => some .notAWord
  | .setDomain => some .notAWord
  | .mgrpWrite => some .notAWord
  | .mcostWrite => some .notAWord
  | .cfloorWrite => some .notAWord
  | .opreqWrite => some .notAWord
  | .tmigWrite => some .notAWord
  | .ctbaseWrite => some .notAWord
  | .fwstage => some .notAWord
  | .fwact => some .notAWord
  | .attout => some .notAWord
  | .imgkeyWrite => some .notAWord
  | .registerWrite => some .notAWord
  | .istatusWrite => some .notAWord
  | .hostLinkDown => some .notAWord
  | .hostLinkRetrain => some .notAWord
  | .jenlinkFlitReceive => some .notAWord
  | .jenlinkLinkDown => some .notAWord
  | .jenlinkTraining => some .notAWord
  | .packageReset => some .notAWord
  | .surveyorRestart => some .notAWord
  | .debugUnlock => some .notAWord
  | .watchdogExpiry => some .notAWord
  | .thermalTrip => some .notAWord
  | .thermalTripEnd => some .notAWord
  | .currentLimit => some .notAWord
  | .powerClamp => some .notAWord
  | .packageShutdown => some .notAWord
  | .tempRefresh => some .notAWord
  | .operatingPointChange => some .notAWord
  | .rollbackAdvance => some .notAWord
  | .vectorLatchAccept => some .notAWord
  | .vectorResponseReturn => some .notAWord
  | .prefFillReturn => some .notAWord
  | .deviceStoreAccepted => some .notAWord
  | .yieldExpiry => some .notAWord
  | .powerClampRelease => some .notAWord
  | .currentLimitRelease => some .notAWord
  | .mailboxBadCommand => some .notAWord
  | .contourCounterClear => some .notAWord

/-- A well-formed instruction: one that has a word and no defect. -/
def Instr.wf (i : Instr) : Bool := i.defect == none

/-- An event of the machine: a row of the table without bits. -/
def Instr.isEvent (i : Instr) : Bool := i.defect == some .notAWord

end Sys2Proof
end

