-- ==== Sys2Proof/Decode.lean ====
section
/-!
DEFINITION. Decoding (R64 to R74) and, after it, the encoder. The decoder reads the fields of the
row that a word's major and function select, and then asks that the encoder gives the word back (so
that every field R65 or the row makes zero is zero) and that the term has no defect. The encoder adds
each field at its place to the row's constant bits, as the spec's own worked encodings do.
-/

namespace Sys2Proof

/-- Bits [lo+n-1 : lo] of a word, as a field of n bits. -/
def fld (n : Nat) (w : W32) (lo : Nat) : BitVec n := BitVec.ofNat n (w.toNat / 2 ^ lo)

/-- Bits [hi : lo] of a word, as a number. -/
def bits (w : W32) (hi lo : Nat) : Nat := w.toNat / 2 ^ lo % 2 ^ (hi - lo + 1)

/-- Bit k of a word. -/
def flag (w : W32) (k : Nat) : Bool := w.toNat / 2 ^ k % 2 == 1

/-- The scope code (R106). -/
def Scope.code : Scope → Nat
  | .core => 0 | .party => 1 | .die => 2 | .pkg => 3 | .sys => 4

/-- The scope of a code, none for 5 to 7 (R106). -/
def Scope.ofCode : Nat → Option Scope
  | 0 => some .core | 1 => some .party | 2 => some .die | 3 => some .pkg | 4 => some .sys
  | _ => none

/-- The element type code (R70). -/
def VType.code : VType → Nat
  | .i32 => 0 | .f32 => 1 | .i16 => 2 | .f16 => 3 | .bf16 => 4 | .i8 => 5 | .u8 => 6

/-- The element type of a code, none for 7 (R70). -/
def VType.ofCode : Nat → Option VType
  | 0 => some .i32 | 1 => some .f32 | 2 => some .i16 | 3 => some .f16 | 4 => some .bf16
  | 5 => some .i8 | 6 => some .u8 | _ => none

/-- What decoding answers. -/
abbrev Decoded := Except DecodeError Instr

/-- An instruction that carries a scope. -/
def withScope (n : Nat) (f : Scope → Instr) : Decoded :=
  match Scope.ofCode n with
  | some sc => .ok (f sc)
  | none => .error .badScope

/-- An instruction that carries an element type. -/
def withType (n : Nat) (f : VType → Instr) : Decoded :=
  match VType.ofCode n with
  | some ty => .ok (f ty)
  | none => .error .badType

/-- Major 0x01. -/
def parse01 (w : W32) : Decoded :=
  match bits w 5 0 with
  | 0 => .ok (.add (fld 6 w 20) (fld 6 w 14) (fld 6 w 8) (flag w 7) (flag w 6))
  | 1 => .ok (.sub (fld 6 w 20) (fld 6 w 14) (fld 6 w 8) (flag w 7) (flag w 6))
  | 2 => .ok (.mul (fld 6 w 20) (fld 6 w 14) (fld 6 w 8) (flag w 7) (flag w 6))
  | 3 => .ok (.mulh (fld 6 w 20) (fld 6 w 14) (fld 6 w 8) (flag w 7) (flag w 6))
  | 4 => .ok (.mulhu (fld 6 w 20) (fld 6 w 14) (fld 6 w 8) (flag w 7) (flag w 6))
  | 5 => .ok (.div (fld 6 w 20) (fld 6 w 14) (fld 6 w 8) (flag w 7) (flag w 6))
  | 6 => .ok (.divu (fld 6 w 20) (fld 6 w 14) (fld 6 w 8) (flag w 7) (flag w 6))
  | 7 => .ok (.rem (fld 6 w 20) (fld 6 w 14) (fld 6 w 8) (flag w 7) (flag w 6))
  | 8 => .ok (.remu (fld 6 w 20) (fld 6 w 14) (fld 6 w 8) (flag w 7) (flag w 6))
  | 9 => .ok (.and (fld 6 w 20) (fld 6 w 14) (fld 6 w 8) (flag w 7) (flag w 6))
  | 10 => .ok (.or (fld 6 w 20) (fld 6 w 14) (fld 6 w 8) (flag w 7) (flag w 6))
  | 11 => .ok (.xor (fld 6 w 20) (fld 6 w 14) (fld 6 w 8) (flag w 7) (flag w 6))
  | 12 => .ok (.andn (fld 6 w 20) (fld 6 w 14) (fld 6 w 8) (flag w 7) (flag w 6))
  | 13 => .ok (.sll (fld 6 w 20) (fld 6 w 14) (fld 6 w 8) (flag w 7) (flag w 6))
  | 14 => .ok (.srl (fld 6 w 20) (fld 6 w 14) (fld 6 w 8) (flag w 7) (flag w 6))
  | 15 => .ok (.sra (fld 6 w 20) (fld 6 w 14) (fld 6 w 8) (flag w 7) (flag w 6))
  | 16 => .ok (.rol (fld 6 w 20) (fld 6 w 14) (fld 6 w 8) (flag w 7) (flag w 6))
  | 17 => .ok (.ror (fld 6 w 20) (fld 6 w 14) (fld 6 w 8) (flag w 7) (flag w 6))
  | 18 => .ok (.min (fld 6 w 20) (fld 6 w 14) (fld 6 w 8) (flag w 7) (flag w 6))
  | 19 => .ok (.max (fld 6 w 20) (fld 6 w 14) (fld 6 w 8) (flag w 7) (flag w 6))
  | 20 => .ok (.minu (fld 6 w 20) (fld 6 w 14) (fld 6 w 8) (flag w 7) (flag w 6))
  | 21 => .ok (.maxu (fld 6 w 20) (fld 6 w 14) (fld 6 w 8) (flag w 7) (flag w 6))
  | 22 => .ok (.slt (fld 6 w 20) (fld 6 w 14) (fld 6 w 8) (flag w 7) (flag w 6))
  | 23 => .ok (.sltu (fld 6 w 20) (fld 6 w 14) (fld 6 w 8) (flag w 7) (flag w 6))
  | 24 => .ok (.seq (fld 6 w 20) (fld 6 w 14) (fld 6 w 8) (flag w 7) (flag w 6))
  | _ => .error .unassigned

/-- Major 0x02. -/
def parse02 (w : W32) : Decoded :=
  match bits w 5 0 with
  | 0 => .ok (.addw (fld 6 w 20) (fld 6 w 14) (fld 6 w 8) (flag w 7) (flag w 6))
  | 1 => .ok (.subw (fld 6 w 20) (fld 6 w 14) (fld 6 w 8) (flag w 7) (flag w 6))
  | 2 => .ok (.mulw (fld 6 w 20) (fld 6 w 14) (fld 6 w 8) (flag w 7) (flag w 6))
  | 5 => .ok (.divw (fld 6 w 20) (fld 6 w 14) (fld 6 w 8) (flag w 7) (flag w 6))
  | 6 => .ok (.divuw (fld 6 w 20) (fld 6 w 14) (fld 6 w 8) (flag w 7) (flag w 6))
  | 7 => .ok (.remw (fld 6 w 20) (fld 6 w 14) (fld 6 w 8) (flag w 7) (flag w 6))
  | 8 => .ok (.remuw (fld 6 w 20) (fld 6 w 14) (fld 6 w 8) (flag w 7) (flag w 6))
  | 13 => .ok (.sllw (fld 6 w 20) (fld 6 w 14) (fld 6 w 8) (flag w 7) (flag w 6))
  | 14 => .ok (.srlw (fld 6 w 20) (fld 6 w 14) (fld 6 w 8) (flag w 7) (flag w 6))
  | 15 => .ok (.sraw (fld 6 w 20) (fld 6 w 14) (fld 6 w 8) (flag w 7) (flag w 6))
  | 16 => .ok (.rolw (fld 6 w 20) (fld 6 w 14) (fld 6 w 8) (flag w 7) (flag w 6))
  | 17 => .ok (.rorw (fld 6 w 20) (fld 6 w 14) (fld 6 w 8) (flag w 7) (flag w 6))
  | _ => .error .unassigned

/-- Major 0x03. -/
def parse03 (w : W32) : Decoded :=
  .ok (.addi (fld 6 w 20) (fld 6 w 14) (fld 14 w 0))

/-- Major 0x04. -/
def parse04 (w : W32) : Decoded :=
  .ok (.addiw (fld 6 w 20) (fld 6 w 14) (fld 14 w 0))

/-- Major 0x05. -/
def parse05 (w : W32) : Decoded :=
  match bits w 13 12 with
  | 0 => .ok (.andi (fld 6 w 20) (fld 6 w 14) (fld 12 w 0))
  | 1 => .ok (.ori (fld 6 w 20) (fld 6 w 14) (fld 12 w 0))
  | 2 => .ok (.xori (fld 6 w 20) (fld 6 w 14) (fld 12 w 0))
  | _ => .error .unassigned

/-- Major 0x06. -/
def parse06 (w : W32) : Decoded :=
  match bits w 13 11 with
  | 0 => .ok (.slli (fld 6 w 20) (fld 6 w 14) (fld 6 w 0))
  | 1 => .ok (.slliw (fld 6 w 20) (fld 6 w 14) (fld 5 w 0))
  | 2 => .ok (.srli (fld 6 w 20) (fld 6 w 14) (fld 6 w 0))
  | 3 => .ok (.srliw (fld 6 w 20) (fld 6 w 14) (fld 5 w 0))
  | 4 => .ok (.srai (fld 6 w 20) (fld 6 w 14) (fld 6 w 0))
  | 5 => .ok (.sraiw (fld 6 w 20) (fld 6 w 14) (fld 5 w 0))
  | 6 => .ok (.rori (fld 6 w 20) (fld 6 w 14) (fld 6 w 0))
  | 7 => .ok (.roriw (fld 6 w 20) (fld 6 w 14) (fld 5 w 0))
  | _ => .error .unassigned

/-- Major 0x07. -/
def parse07 (w : W32) : Decoded :=
  match bits w 13 12 with
  | 0 => .ok (.slti (fld 6 w 20) (fld 6 w 14) (fld 12 w 0))
  | 1 => .ok (.sltiu (fld 6 w 20) (fld 6 w 14) (fld 12 w 0))
  | 2 => .ok (.seqi (fld 6 w 20) (fld 6 w 14) (fld 12 w 0))
  | _ => .error .unassigned

/-- Major 0x08. -/
def parse08 (w : W32) : Decoded :=
  .ok (.lih (fld 6 w 20) (fld 20 w 0))

/-- Major 0x09. -/
def parse09 (w : W32) : Decoded :=
  .ok (.addpc (fld 6 w 20) (fld 20 w 0))

/-- Major 0x0A. -/
def parse0A (w : W32) : Decoded :=
  match bits w 13 11 with
  | 0 => .ok (.brEq (fld 6 w 20) (fld 6 w 14) (fld 11 w 0))
  | 1 => .ok (.brNe (fld 6 w 20) (fld 6 w 14) (fld 11 w 0))
  | 2 => .ok (.brLt (fld 6 w 20) (fld 6 w 14) (fld 11 w 0))
  | 3 => .ok (.brGe (fld 6 w 20) (fld 6 w 14) (fld 11 w 0))
  | 4 => .ok (.brLtu (fld 6 w 20) (fld 6 w 14) (fld 11 w 0))
  | 5 => .ok (.brGeu (fld 6 w 20) (fld 6 w 14) (fld 11 w 0))
  | _ => .error .unassigned

/-- Major 0x0B. -/
def parse0B (w : W32) : Decoded :=
  match bits w 19 18 with
  | 0 => .ok (.bzEqz (fld 6 w 20) (fld 18 w 0))
  | 1 => .ok (.bzNez (fld 6 w 20) (fld 18 w 0))
  | 2 => .ok (.bzLtz (fld 6 w 20) (fld 18 w 0))
  | 3 => .ok (.bzGez (fld 6 w 20) (fld 18 w 0))
  | _ => .error .unassigned

/-- Major 0x0C. -/
def parse0C (w : W32) : Decoded :=
  .ok (.jal (fld 6 w 20) (fld 20 w 0))

/-- Major 0x0D. -/
def parse0D (w : W32) : Decoded :=
  .ok (.jalr (fld 6 w 20) (fld 6 w 14) (fld 14 w 0))

/-- Major 0x0E. -/
def parse0E (w : W32) : Decoded :=
  .ok (.loop (fld 6 w 14) (fld 6 w 0))

/-- Major 0x0F. -/
def parse0F (w : W32) : Decoded :=
  match bits w 5 0 with
  | 0 => .ok (.sel (fld 6 w 20) (fld 6 w 14) (fld 6 w 8) (flag w 7) (flag w 6))
  | 1 => .ok (.clz (fld 6 w 20) (fld 6 w 14) (flag w 7))
  | 2 => .ok (.ctz (fld 6 w 20) (fld 6 w 14) (flag w 7))
  | 3 => .ok (.popc (fld 6 w 20) (fld 6 w 14) (flag w 7))
  | 4 => .ok (.brev (fld 6 w 20) (fld 6 w 14) (flag w 7))
  | 5 => .ok (.bswap (fld 6 w 20) (fld 6 w 14) (flag w 7))
  | 6 => .ok (.bfx (fld 6 w 20) (fld 6 w 14) (fld 6 w 8) (flag w 7) (flag w 6))
  | 7 => .ok (.bfxu (fld 6 w 20) (fld 6 w 14) (fld 6 w 8) (flag w 7) (flag w 6))
  | 8 => .ok (.bfi (fld 6 w 20) (fld 6 w 14) (fld 6 w 8) (flag w 7) (flag w 6))
  | _ => .error .unassigned

/-- Major 0x10. -/
def parse10 (w : W32) : Decoded :=
  .ok (.ld (fld 6 w 20) (fld 6 w 14) (fld 2 w 12) (flag w 11) (fld 11 w 0))

/-- Major 0x11. -/
def parse11 (w : W32) : Decoded :=
  .ok (.st (fld 6 w 20) (fld 6 w 14) (fld 2 w 12) (fld 11 w 0))

/-- Major 0x12. -/
def parse12 (w : W32) : Decoded :=
  match bits w 5 4 with
  | 0 => .ok (.ldx (fld 6 w 20) (fld 6 w 14) (fld 6 w 8) (flag w 7) (flag w 6) (fld 2 w 2) (flag w 1))
  | 1 => .ok (.stx (fld 6 w 20) (fld 6 w 14) (fld 6 w 8) (flag w 7) (flag w 6) (fld 2 w 2))
  | 2 => withScope (bits w 2 0) fun sc => .ldxAcq (fld 6 w 20) (fld 6 w 14) (fld 6 w 8) (flag w 7) (flag w 6) (flag w 3) sc
  | 3 => withScope (bits w 2 0) fun sc => .stxRel (fld 6 w 20) (fld 6 w 14) (fld 6 w 8) (flag w 7) (flag w 6) (flag w 3) sc
  | _ => .error .unassigned

/-- Major 0x13. -/
def parse13 (w : W32) : Decoded :=
  match bits w 5 4 with
  | 0 => .ok (.ldbitU (fld 6 w 20) (fld 6 w 14) (fld 6 w 8) (flag w 7) (flag w 6) (fld 4 w 0))
  | 1 => .ok (.ldbitS (fld 6 w 20) (fld 6 w 14) (fld 6 w 8) (flag w 7) (flag w 6) (fld 4 w 0))
  | 2 => .ok (.stbit (fld 6 w 20) (fld 6 w 14) (fld 6 w 8) (flag w 7) (flag w 6) (fld 4 w 0))
  | _ => .error .unassigned

/-- Major 0x14. -/
def parse14 (w : W32) : Decoded :=
  match bits w 5 0 with
  | 0 => withScope (bits w 13 11) fun sc => .amoAdd (fld 6 w 20) (fld 6 w 14) sc (fld 2 w 9) (flag w 8) (flag w 7)
  | 1 => withScope (bits w 13 11) fun sc => .amoAnd (fld 6 w 20) (fld 6 w 14) sc (fld 2 w 9) (flag w 8) (flag w 7)
  | 2 => withScope (bits w 13 11) fun sc => .amoOr (fld 6 w 20) (fld 6 w 14) sc (fld 2 w 9) (flag w 8) (flag w 7)
  | 3 => withScope (bits w 13 11) fun sc => .amoXor (fld 6 w 20) (fld 6 w 14) sc (fld 2 w 9) (flag w 8) (flag w 7)
  | 4 => withScope (bits w 13 11) fun sc => .amoMin (fld 6 w 20) (fld 6 w 14) sc (fld 2 w 9) (flag w 8) (flag w 7)
  | 5 => withScope (bits w 13 11) fun sc => .amoMax (fld 6 w 20) (fld 6 w 14) sc (fld 2 w 9) (flag w 8) (flag w 7)
  | 6 => withScope (bits w 13 11) fun sc => .amoMinu (fld 6 w 20) (fld 6 w 14) sc (fld 2 w 9) (flag w 8) (flag w 7)
  | 7 => withScope (bits w 13 11) fun sc => .amoMaxu (fld 6 w 20) (fld 6 w 14) sc (fld 2 w 9) (flag w 8) (flag w 7)
  | 8 => withScope (bits w 13 11) fun sc => .amoXchg (fld 6 w 20) (fld 6 w 14) sc (fld 2 w 9) (flag w 8) (flag w 7)
  | 9 => withScope (bits w 13 11) fun sc => .amoFadd32 (fld 6 w 20) (fld 6 w 14) sc (fld 2 w 9) (flag w 7)
  | _ => .error .unassigned

/-- Major 0x15. -/
def parse15 (w : W32) : Decoded :=
  withScope (bits w 5 3) fun sc => .cas (fld 6 w 20) (fld 6 w 14) (fld 6 w 8) (flag w 7) (flag w 6) sc (fld 2 w 1) (flag w 0)

/-- Major 0x16. -/
def parse16 (w : W32) : Decoded :=
  match bits w 2 1 with
  | 1 => withScope (bits w 5 3) fun sc => .fenceAcq sc
  | 2 => withScope (bits w 5 3) fun sc => .fenceRel sc
  | 3 => withScope (bits w 5 3) fun sc => .fenceFull sc
  | _ => .error .unassigned

/-- Major 0x17. -/
def parse17 (w : W32) : Decoded :=
  match bits w 13 11 with
  | 0 => .ok (.pref (fld 6 w 14) (fld 8 w 0))
  | 1 => .ok (.prefL2 (fld 6 w 14) (fld 8 w 0))
  | 2 => withScope (bits w 10 8) fun sc => .clwb (fld 6 w 14) sc (fld 8 w 0)
  | 3 => withScope (bits w 10 8) fun sc => .clinv (fld 6 w 14) sc (fld 8 w 0)
  | _ => .error .unassigned

/-- Major 0x18. -/
def parse18 (w : W32) : Decoded :=
  match bits w 5 0 with
  | 0 => .ok (.fadd (fld 6 w 20) (fld 6 w 14) (fld 6 w 8) (flag w 7) (flag w 6))
  | 1 => .ok (.fsub (fld 6 w 20) (fld 6 w 14) (fld 6 w 8) (flag w 7) (flag w 6))
  | 2 => .ok (.fmul (fld 6 w 20) (fld 6 w 14) (fld 6 w 8) (flag w 7) (flag w 6))
  | 3 => .ok (.fdiv (fld 6 w 20) (fld 6 w 14) (fld 6 w 8) (flag w 7) (flag w 6))
  | 4 => .ok (.fsqrt (fld 6 w 20) (fld 6 w 14) (flag w 7))
  | 5 => .ok (.fmin (fld 6 w 20) (fld 6 w 14) (fld 6 w 8) (flag w 7) (flag w 6))
  | 6 => .ok (.fmax (fld 6 w 20) (fld 6 w 14) (fld 6 w 8) (flag w 7) (flag w 6))
  | 7 => .ok (.fabs (fld 6 w 20) (fld 6 w 14) (flag w 7))
  | 8 => .ok (.fneg (fld 6 w 20) (fld 6 w 14) (flag w 7))
  | 9 => .ok (.fcps (fld 6 w 20) (fld 6 w 14) (fld 6 w 8) (flag w 7) (flag w 6))
  | 10 => .ok (.frnd (fld 6 w 20) (fld 6 w 14) (flag w 7))
  | _ => .error .unassigned

/-- Major 0x19. -/
def parse19 (w : W32) : Decoded :=
  match bits w 5 0 with
  | 0 => .ok (.fmac (fld 6 w 20) (fld 6 w 14) (fld 6 w 8) (flag w 7) (flag w 6))
  | 1 => .ok (.fmsc (fld 6 w 20) (fld 6 w 14) (fld 6 w 8) (flag w 7) (flag w 6))
  | 2 => .ok (.fnmac (fld 6 w 20) (fld 6 w 14) (fld 6 w 8) (flag w 7) (flag w 6))
  | _ => .error .unassigned

/-- Major 0x1A. -/
def parse1A (w : W32) : Decoded :=
  match bits w 5 0 with
  | 0 => .ok (.feq (fld 6 w 20) (fld 6 w 14) (fld 6 w 8) (flag w 7) (flag w 6))
  | 1 => .ok (.flt (fld 6 w 20) (fld 6 w 14) (fld 6 w 8) (flag w 7) (flag w 6))
  | 2 => .ok (.fle (fld 6 w 20) (fld 6 w 14) (fld 6 w 8) (flag w 7) (flag w 6))
  | 3 => .ok (.fclass (fld 6 w 20) (fld 6 w 14) (flag w 7))
  | 4 => .ok (.fcvt (fld 6 w 20) (fld 6 w 14) (flag w 7))
  | 5 => .ok (.fcvti (fld 6 w 20) (fld 6 w 14) (flag w 7))
  | 6 => .ok (.fcvtf (fld 6 w 20) (fld 6 w 14) (flag w 7))
  | _ => .error .unassigned

/-- Major 0x1B. -/
def parse1B (w : W32) : Decoded :=
  .ok (.pfx (fld 4 w 22) (fld 4 w 18) (fld 4 w 14) (fld 3 w 11) (flag w 10))

/-- Major 0x20. -/
def parse20 (w : W32) : Decoded :=
  match bits w 5 3 with
  | 0 =>
    match bits w 2 0 with
    | 0 => withType (bits w 14 12) fun ty => .vadd (fld 3 w 23) (fld 3 w 20) (fld 3 w 17) (fld 2 w 15) ty
    | 1 => withType (bits w 14 12) fun ty => .vsub (fld 3 w 23) (fld 3 w 20) (fld 3 w 17) (fld 2 w 15) ty
    | 2 => withType (bits w 14 12) fun ty => .vmul (fld 3 w 23) (fld 3 w 20) (fld 3 w 17) (fld 2 w 15) ty
    | 3 => withType (bits w 14 12) fun ty => .vmin (fld 3 w 23) (fld 3 w 20) (fld 3 w 17) (fld 2 w 15) ty
    | 4 => withType (bits w 14 12) fun ty => .vmax (fld 3 w 23) (fld 3 w 20) (fld 3 w 17) (fld 2 w 15) ty
    | 5 => .ok (.vand (fld 3 w 23) (fld 3 w 20) (fld 3 w 17) (fld 2 w 15))
    | 6 => .ok (.vor (fld 3 w 23) (fld 3 w 20) (fld 3 w 17) (fld 2 w 15))
    | 7 => .ok (.vxor (fld 3 w 23) (fld 3 w 20) (fld 3 w 17) (fld 2 w 15))
    | _ => .error .unassigned
  | 1 =>
    match bits w 2 0 with
    | 0 => withType (bits w 14 12) fun ty => .vshl (fld 3 w 23) (fld 3 w 20) (fld 3 w 17) (fld 2 w 15) ty
    | 1 => withType (bits w 14 12) fun ty => .vshr (fld 3 w 23) (fld 3 w 20) (fld 3 w 17) (fld 2 w 15) ty
    | 2 => withType (bits w 14 12) fun ty => .vsra (fld 3 w 23) (fld 3 w 20) (fld 3 w 17) (fld 2 w 15) ty
    | 3 => .ok (.vsel (fld 3 w 23) (fld 3 w 20) (fld 3 w 17) (fld 2 w 15))
    | _ => .error .unassigned
  | 2 => withType (bits w 14 12) fun ty => .vcmp (fld 2 w 23) (fld 3 w 20) (fld 3 w 17) (fld 2 w 15) ty (fld 3 w 0)
  | 3 =>
    match bits w 2 0 with
    | 0 => withType (bits w 14 12) fun ty => .vcvt (fld 3 w 23) (fld 3 w 20) (fld 3 w 17) (fld 2 w 15) ty
    | _ => .error .unassigned
  | 4 =>
    match bits w 2 0 with
    | 0 => withType (bits w 14 12) fun ty => .vaddVs (fld 3 w 23) (fld 3 w 20) (fld 2 w 15) ty (fld 6 w 6)
    | 1 => withType (bits w 14 12) fun ty => .vsubVs (fld 3 w 23) (fld 3 w 20) (fld 2 w 15) ty (fld 6 w 6)
    | 2 => withType (bits w 14 12) fun ty => .vmulVs (fld 3 w 23) (fld 3 w 20) (fld 2 w 15) ty (fld 6 w 6)
    | 3 => withType (bits w 14 12) fun ty => .vminVs (fld 3 w 23) (fld 3 w 20) (fld 2 w 15) ty (fld 6 w 6)
    | 4 => withType (bits w 14 12) fun ty => .vmaxVs (fld 3 w 23) (fld 3 w 20) (fld 2 w 15) ty (fld 6 w 6)
    | 5 => .ok (.vandVs (fld 3 w 23) (fld 3 w 20) (fld 2 w 15) (fld 6 w 6))
    | 6 => .ok (.vorVs (fld 3 w 23) (fld 3 w 20) (fld 2 w 15) (fld 6 w 6))
    | 7 => .ok (.vxorVs (fld 3 w 23) (fld 3 w 20) (fld 2 w 15) (fld 6 w 6))
    | _ => .error .unassigned
  | 5 =>
    match bits w 2 0 with
    | 0 => withType (bits w 14 12) fun ty => .vshlVs (fld 3 w 23) (fld 3 w 20) (fld 2 w 15) ty (fld 6 w 6)
    | 1 => withType (bits w 14 12) fun ty => .vshrVs (fld 3 w 23) (fld 3 w 20) (fld 2 w 15) ty (fld 6 w 6)
    | 2 => withType (bits w 14 12) fun ty => .vsraVs (fld 3 w 23) (fld 3 w 20) (fld 2 w 15) ty (fld 6 w 6)
    | 3 => .ok (.vselVs (fld 3 w 23) (fld 3 w 20) (fld 2 w 15) (fld 6 w 6))
    | _ => .error .unassigned
  | 6 => withType (bits w 14 12) fun ty => .vcmpVs (fld 2 w 23) (fld 3 w 20) (fld 2 w 15) ty (fld 6 w 6) (fld 3 w 0)
  | _ => .error .unassigned

/-- Major 0x21. -/
def parse21 (w : W32) : Decoded :=
  match bits w 5 0 with
  | 0 => withType (bits w 14 12) fun ty => .vmac (fld 3 w 23) (fld 3 w 20) (fld 3 w 17) (fld 2 w 15) ty
  | 32 => withType (bits w 14 12) fun ty => .vmacVs (fld 3 w 23) (fld 3 w 20) (fld 2 w 15) ty (fld 6 w 6)
  | 1 => withType (bits w 14 12) fun ty => .vdot4 (fld 3 w 23) (fld 3 w 20) (fld 3 w 17) (fld 2 w 15) ty
  | 33 => withType (bits w 14 12) fun ty => .vdot4Vs (fld 3 w 23) (fld 3 w 20) (fld 2 w 15) ty (fld 6 w 6)
  | _ => .error .unassigned

/-- Major 0x22. -/
def parse22 (w : W32) : Decoded :=
  match bits w 5 0 with
  | 0 => .ok (.vld (fld 3 w 23) (fld 2 w 15) (fld 6 w 6))
  | 1 => .ok (.vst (fld 3 w 23) (fld 2 w 15) (fld 6 w 6))
  | 2 => .ok (.vlds (fld 3 w 23) (fld 2 w 15) (fld 6 w 6))
  | 3 => .ok (.vsts (fld 3 w 23) (fld 2 w 15) (fld 6 w 6))
  | _ => .error .unassigned

/-- Major 0x23. -/
def parse23 (w : W32) : Decoded :=
  match bits w 5 0 with
  | 0 => withType (bits w 14 12) fun ty => .vgather (fld 3 w 23) (fld 3 w 20) (fld 2 w 15) ty (fld 6 w 6)
  | 1 => withType (bits w 14 12) fun ty => .vgatherP (fld 3 w 23) (fld 3 w 20) (fld 2 w 17) (fld 2 w 15) ty (fld 6 w 6)
  | 2 => withType (bits w 14 12) fun ty => .vscatter (fld 3 w 23) (fld 3 w 20) (fld 2 w 15) ty (fld 6 w 6)
  | _ => .error .unassigned

/-- Major 0x24. -/
def parse24 (w : W32) : Decoded :=
  match bits w 5 4 with
  | 1 => .ok (.vldbitU (fld 3 w 23) (fld 2 w 15) (fld 6 w 6) (fld 4 w 0))
  | 2 => .ok (.vldbitS (fld 3 w 23) (fld 2 w 15) (fld 6 w 6) (fld 4 w 0))
  | 3 => .ok (.vstbit (fld 3 w 23) (fld 2 w 15) (fld 6 w 6) (fld 4 w 0))
  | _ => .error .unassigned

/-- Major 0x25. -/
def parse25 (w : W32) : Decoded :=
  match bits w 5 0 with
  | 0 => withType (bits w 14 12) fun ty => .vbcast (fld 3 w 23) (fld 2 w 15) ty (fld 6 w 6)
  | 1 => withType (bits w 14 12) fun ty => .vext (fld 3 w 20) (fld 5 w 15) ty (fld 6 w 6)
  | 2 => .ok (.vperm (fld 3 w 23) (fld 3 w 20) (fld 3 w 17) (fld 2 w 15))
  | 3 => .ok (.vshuf (fld 3 w 23) (fld 3 w 20) (fld 3 w 17) (fld 2 w 15) (fld 6 w 6))
  | 4 => .ok (.vrot (fld 3 w 23) (fld 3 w 20) (fld 2 w 15) (fld 6 w 6))
  | _ => .error .unassigned

/-- Major 0x26. -/
def parse26 (w : W32) : Decoded :=
  match bits w 5 5 with
  | 0 => withType (bits w 14 12) fun ty => .vred (fld 3 w 20) (fld 2 w 15) ty (fld 6 w 6) (fld 3 w 0)
  | 1 => withType (bits w 14 12) fun ty => .vscan (fld 3 w 23) (fld 3 w 20) (fld 2 w 15) ty (fld 3 w 0)
  | _ => .error .unassigned

/-- Major 0x27. -/
def parse27 (w : W32) : Decoded :=
  match bits w 5 0 with
  | 0 => .ok (.mand (fld 2 w 23) (fld 2 w 20) (fld 2 w 17))
  | 1 => .ok (.mor (fld 2 w 23) (fld 2 w 20) (fld 2 w 17))
  | 2 => .ok (.mxor (fld 2 w 23) (fld 2 w 20) (fld 2 w 17))
  | 3 => .ok (.mnot (fld 2 w 23) (fld 2 w 20))
  | 4 => .ok (.mpopc (fld 2 w 20) (fld 6 w 6))
  | 5 => .ok (.mfirst (fld 2 w 20) (fld 6 w 6))
  | 6 => .ok (.mmov (fld 2 w 23) (fld 6 w 6))
  | 7 => .ok (.mrd (fld 2 w 20) (fld 6 w 6))
  | _ => .error .unassigned

/-- Major 0x28. -/
def parse28 (w : W32) : Decoded :=
  match bits w 5 2 with
  | 0 =>
    match bits w 1 0 with
    | 0 => .ok .bar
    | 1 => .ok .trig
    | 2 => .ok .exit
    | 3 => .ok .yield
    | _ => .error .unassigned
  | 1 =>
    match bits w 1 0 with
    | 0 => .ok (.sleep (fld 6 w 14) (flag w 7))
    | 1 => .ok .migpt
    | _ => .error .unassigned
  | 2 => .ok (.hint (fld 2 w 0))
  | _ => .error .unassigned

/-- Major 0x29. -/
def parse29 (w : W32) : Decoded :=
  match bits w 5 3 with
  | 0 =>
    match bits w 2 0 with
    | 0 => .ok (.arm (fld 6 w 20))
    | _ => .error .unassigned
  | 1 => withScope (bits w 2 0) fun sc => .armAcq (fld 6 w 20) sc
  | 2 =>
    match bits w 2 0 with
    | 0 => .ok (.sendr (fld 6 w 14) (fld 6 w 8) (flag w 7) (flag w 6))
    | _ => .error .unassigned
  | 3 => withScope (bits w 2 0) fun sc => .sendrRel (fld 6 w 14) (fld 6 w 8) (flag w 7) (flag w 6) sc
  | 4 =>
    match bits w 2 0 with
    | 0 => .ok (.sendrW (fld 6 w 14) (fld 6 w 8) (flag w 7) (flag w 6))
    | _ => .error .unassigned
  | 5 => withScope (bits w 2 0) fun sc => .sendrWRel (fld 6 w 14) (fld 6 w 8) (flag w 7) (flag w 6) sc
  | 6 =>
    match bits w 2 0 with
    | 0 | 1 | 2 | 3 => .ok (.capr (fld 6 w 20) (fld 6 w 8) (fld 2 w 0))
    | 4 => .ok (.capchk (fld 6 w 20) (fld 6 w 14) (flag w 7))
    | 5 => .ok (.capi (fld 6 w 20))
    | _ => .error .unassigned
  | _ => .error .unassigned

/-- Major 0x2A. -/
def parse2A (w : W32) : Decoded :=
  .ok (.srv (fld 6 w 20) (fld 6 w 14) (fld 6 w 8) (fld 2 w 6) (fld 2 w 4) (fld 4 w 0))

/-- Major 0x2B. -/
def parse2B (w : W32) : Decoded :=
  match bits w 5 3 with
  | 0 =>
    match bits w 2 0 with
    | 0 => .ok (.chsend (fld 6 w 20) (fld 6 w 14) (fld 6 w 8) (flag w 7) (flag w 6))
    | _ => .error .unassigned
  | 1 => withScope (bits w 2 0) fun sc => .chsendRel (fld 6 w 20) (fld 6 w 14) (fld 6 w 8) (flag w 7) (flag w 6) sc
  | 2 =>
    match bits w 2 0 with
    | 0 => .ok (.chsendBlk (fld 6 w 20) (fld 6 w 14) (fld 6 w 8) (flag w 7) (flag w 6))
    | _ => .error .unassigned
  | 3 => withScope (bits w 2 0) fun sc => .chsendBlkRel (fld 6 w 20) (fld 6 w 14) (fld 6 w 8) (flag w 7) (flag w 6) sc
  | 4 =>
    match bits w 2 0 with
    | 0 => .ok (.chrecv (fld 6 w 20))
    | _ => .error .unassigned
  | 5 => withScope (bits w 2 0) fun sc => .chrecvAcq (fld 6 w 20) sc
  | 6 =>
    match bits w 2 0 with
    | 0 => .ok (.chpoll (fld 6 w 20))
    | _ => .error .unassigned
  | 7 => withScope (bits w 2 0) fun sc => .chpollAcq (fld 6 w 20) sc
  | _ => .error .unassigned

/-- Major 0x30. -/
def parse30 (w : W32) : Decoded :=
  match bits w 25 22 with
  | 0 =>
    match bits w 4 0 with
    | 1 => withScope (bits w 7 5) fun sc => .copyGo (fld 2 w 20) (fld 6 w 14) (fld 6 w 8) sc
    | 2 => withScope (bits w 7 5) fun sc => .copyGather (fld 2 w 20) (fld 6 w 14) (fld 6 w 8) sc
    | 3 => withScope (bits w 7 5) fun sc => .copyRed (fld 2 w 20) (fld 6 w 14) (fld 6 w 8) sc
    | 4 => withScope (bits w 7 5) fun sc => .copyMcast (fld 2 w 20) (fld 6 w 14) (fld 6 w 8) sc
    | _ => .error .unassigned
  | 1 =>
    match bits w 4 0 with
    | 1 => withScope (bits w 7 5) fun sc => .planeLdw (fld 2 w 20) sc
    | 2 => withScope (bits w 7 5) fun sc => .planeRun (fld 2 w 20) sc
    | 3 => withScope (bits w 7 5) fun sc => .planeFid (fld 2 w 20) sc
    | 4 => withScope (bits w 7 5) fun sc => .planeCnt (fld 2 w 20) sc
    | _ => .error .unassigned
  | 2 =>
    match bits w 4 0 with
    | 1 => withScope (bits w 7 5) fun sc => .gatherRows (fld 2 w 20) sc
    | _ => .error .unassigned
  | 3 =>
    match bits w 4 0 with
    | 1 => withScope (bits w 7 5) fun sc => .fabLoad (fld 2 w 20) sc
    | 2 => withScope (bits w 7 5) fun sc => .fabEvict (fld 2 w 20) sc
    | 3 => withScope (bits w 7 5) fun sc => .fabSeed (fld 2 w 20) sc
    | 4 => withScope (bits w 7 5) fun sc => .fabSnap (fld 2 w 20) sc
    | _ => .error .unassigned
  | _ => .error .reservedEngine

/-- Major 0x31. -/
def parse31 (w : W32) : Decoded :=
  .ok (.cxw (fld 4 w 22) (fld 2 w 20) (fld 6 w 14) (fld 5 w 9))

/-- Major 0x32. -/
def parse32 (w : W32) : Decoded :=
  .ok (.cxr (fld 4 w 22) (fld 2 w 20) (fld 6 w 14) (fld 5 w 9))

/-- Major 0x33. -/
def parse33 (w : W32) : Decoded :=
  match bits w 5 0 with
  | 0 => .ok (.hset (fld 6 w 20) (fld 6 w 14) (fld 6 w 8) (flag w 7) (flag w 6))
  | 1 => .ok (.hfree (fld 6 w 14) (flag w 7))
  | 2 => .ok (.hkill (fld 6 w 14) (flag w 7))
  | 3 => .ok (.hwait (fld 6 w 14) (fld 4 w 8) (flag w 7))
  | 4 => .ok (.hstat (fld 6 w 20) (fld 6 w 14) (flag w 7))
  | _ => .error .unassigned

/-- Major 0x34. -/
def parse34 (w : W32) : Decoded :=
  match bits w 5 4 with
  | 0 => withScope (bits w 10 8) fun sc => .tlwait (fld 6 w 14) sc (flag w 7) (fld 2 w 2) (fld 2 w 0)
  | 1 => .ok (.tlread (fld 6 w 20) (fld 2 w 2) (fld 2 w 0))
  | 2 => .ok (.tladv (fld 6 w 20) (fld 2 w 2) (fld 2 w 0))
  | _ => .error .unassigned

/-- Major 0x38. -/
def parse38 (w : W32) : Decoded :=
  match bits w 5 3 with
  | 0 =>
    match bits w 2 0 with
    | 0 => .ok (.trap (fld 18 w 8))
    | 1 => .ok .eret
    | 2 => .ok .wfi
    | _ => .error .unassigned
  | 1 =>
    match bits w 2 0 with
    | 0 => .ok (.ctlr (fld 6 w 20) (fld 12 w 8))
    | 1 => .ok (.ctlw (fld 6 w 20) (fld 12 w 8))
    | 2 => .ok (.ctlset (fld 6 w 20) (fld 12 w 8))
    | 3 => .ok (.ctlclr (fld 6 w 20) (fld 12 w 8))
    | _ => .error .unassigned
  | 2 =>
    match bits w 2 0 with
    | 0 => .ok (.tlbinv (fld 6 w 20) (fld 6 w 14) (fld 6 w 8) (flag w 7) (flag w 6))
    | 1 => .ok (.tlbprobe (fld 6 w 20) (fld 6 w 14) (fld 6 w 8) (flag w 7) (flag w 6))
    | _ => .error .unassigned
  | 3 => withScope (bits w 2 0) fun sc => .cwb sc
  | 4 => withScope (bits w 2 0) fun sc => .cinv sc
  | _ => .error .unassigned

/-- The fields of the row that a word's major selects (R72), before the zero fields and the register
and type classes are checked. -/
def rawParse (w : W32) : Decoded :=
  match bits w 31 26 with
  | 1 => parse01 w
  | 2 => parse02 w
  | 3 => parse03 w
  | 4 => parse04 w
  | 5 => parse05 w
  | 6 => parse06 w
  | 7 => parse07 w
  | 8 => parse08 w
  | 9 => parse09 w
  | 10 => parse0A w
  | 11 => parse0B w
  | 12 => parse0C w
  | 13 => parse0D w
  | 14 => parse0E w
  | 15 => parse0F w
  | 16 => parse10 w
  | 17 => parse11 w
  | 18 => parse12 w
  | 19 => parse13 w
  | 20 => parse14 w
  | 21 => parse15 w
  | 22 => parse16 w
  | 23 => parse17 w
  | 24 => parse18 w
  | 25 => parse19 w
  | 26 => parse1A w
  | 27 => parse1B w
  | 32 => parse20 w
  | 33 => parse21 w
  | 34 => parse22 w
  | 35 => parse23 w
  | 36 => parse24 w
  | 37 => parse25 w
  | 38 => parse26 w
  | 39 => parse27 w
  | 40 => parse28 w
  | 41 => parse29 w
  | 42 => parse2A w
  | 43 => parse2B w
  | 48 => parse30 w
  | 49 => parse31 w
  | 50 => parse32 w
  | 51 => parse33 w
  | 52 => parse34 w
  | 56 => parse38 w
  | _ => .error .reservedMajor

/-- The word of an instruction; an event has none, and zero, a reserved word (R73), stands for it. -/
def encode : Instr → W32
  | .add d a b hA hB => BitVec.ofNat 32 (0x4000000 + d.toNat * 0x100000 + a.toNat * 0x4000 + b.toNat * 0x100 + hA.toNat * 0x80 + hB.toNat * 0x40)
  | .sub d a b hA hB => BitVec.ofNat 32 (0x4000001 + d.toNat * 0x100000 + a.toNat * 0x4000 + b.toNat * 0x100 + hA.toNat * 0x80 + hB.toNat * 0x40)
  | .mul d a b hA hB => BitVec.ofNat 32 (0x4000002 + d.toNat * 0x100000 + a.toNat * 0x4000 + b.toNat * 0x100 + hA.toNat * 0x80 + hB.toNat * 0x40)
  | .mulh d a b hA hB => BitVec.ofNat 32 (0x4000003 + d.toNat * 0x100000 + a.toNat * 0x4000 + b.toNat * 0x100 + hA.toNat * 0x80 + hB.toNat * 0x40)
  | .mulhu d a b hA hB => BitVec.ofNat 32 (0x4000004 + d.toNat * 0x100000 + a.toNat * 0x4000 + b.toNat * 0x100 + hA.toNat * 0x80 + hB.toNat * 0x40)
  | .div d a b hA hB => BitVec.ofNat 32 (0x4000005 + d.toNat * 0x100000 + a.toNat * 0x4000 + b.toNat * 0x100 + hA.toNat * 0x80 + hB.toNat * 0x40)
  | .divu d a b hA hB => BitVec.ofNat 32 (0x4000006 + d.toNat * 0x100000 + a.toNat * 0x4000 + b.toNat * 0x100 + hA.toNat * 0x80 + hB.toNat * 0x40)
  | .rem d a b hA hB => BitVec.ofNat 32 (0x4000007 + d.toNat * 0x100000 + a.toNat * 0x4000 + b.toNat * 0x100 + hA.toNat * 0x80 + hB.toNat * 0x40)
  | .remu d a b hA hB => BitVec.ofNat 32 (0x4000008 + d.toNat * 0x100000 + a.toNat * 0x4000 + b.toNat * 0x100 + hA.toNat * 0x80 + hB.toNat * 0x40)
  | .and d a b hA hB => BitVec.ofNat 32 (0x4000009 + d.toNat * 0x100000 + a.toNat * 0x4000 + b.toNat * 0x100 + hA.toNat * 0x80 + hB.toNat * 0x40)
  | .or d a b hA hB => BitVec.ofNat 32 (0x400000A + d.toNat * 0x100000 + a.toNat * 0x4000 + b.toNat * 0x100 + hA.toNat * 0x80 + hB.toNat * 0x40)
  | .xor d a b hA hB => BitVec.ofNat 32 (0x400000B + d.toNat * 0x100000 + a.toNat * 0x4000 + b.toNat * 0x100 + hA.toNat * 0x80 + hB.toNat * 0x40)
  | .andn d a b hA hB => BitVec.ofNat 32 (0x400000C + d.toNat * 0x100000 + a.toNat * 0x4000 + b.toNat * 0x100 + hA.toNat * 0x80 + hB.toNat * 0x40)
  | .sll d a b hA hB => BitVec.ofNat 32 (0x400000D + d.toNat * 0x100000 + a.toNat * 0x4000 + b.toNat * 0x100 + hA.toNat * 0x80 + hB.toNat * 0x40)
  | .srl d a b hA hB => BitVec.ofNat 32 (0x400000E + d.toNat * 0x100000 + a.toNat * 0x4000 + b.toNat * 0x100 + hA.toNat * 0x80 + hB.toNat * 0x40)
  | .sra d a b hA hB => BitVec.ofNat 32 (0x400000F + d.toNat * 0x100000 + a.toNat * 0x4000 + b.toNat * 0x100 + hA.toNat * 0x80 + hB.toNat * 0x40)
  | .rol d a b hA hB => BitVec.ofNat 32 (0x4000010 + d.toNat * 0x100000 + a.toNat * 0x4000 + b.toNat * 0x100 + hA.toNat * 0x80 + hB.toNat * 0x40)
  | .ror d a b hA hB => BitVec.ofNat 32 (0x4000011 + d.toNat * 0x100000 + a.toNat * 0x4000 + b.toNat * 0x100 + hA.toNat * 0x80 + hB.toNat * 0x40)
  | .min d a b hA hB => BitVec.ofNat 32 (0x4000012 + d.toNat * 0x100000 + a.toNat * 0x4000 + b.toNat * 0x100 + hA.toNat * 0x80 + hB.toNat * 0x40)
  | .max d a b hA hB => BitVec.ofNat 32 (0x4000013 + d.toNat * 0x100000 + a.toNat * 0x4000 + b.toNat * 0x100 + hA.toNat * 0x80 + hB.toNat * 0x40)
  | .minu d a b hA hB => BitVec.ofNat 32 (0x4000014 + d.toNat * 0x100000 + a.toNat * 0x4000 + b.toNat * 0x100 + hA.toNat * 0x80 + hB.toNat * 0x40)
  | .maxu d a b hA hB => BitVec.ofNat 32 (0x4000015 + d.toNat * 0x100000 + a.toNat * 0x4000 + b.toNat * 0x100 + hA.toNat * 0x80 + hB.toNat * 0x40)
  | .slt d a b hA hB => BitVec.ofNat 32 (0x4000016 + d.toNat * 0x100000 + a.toNat * 0x4000 + b.toNat * 0x100 + hA.toNat * 0x80 + hB.toNat * 0x40)
  | .sltu d a b hA hB => BitVec.ofNat 32 (0x4000017 + d.toNat * 0x100000 + a.toNat * 0x4000 + b.toNat * 0x100 + hA.toNat * 0x80 + hB.toNat * 0x40)
  | .seq d a b hA hB => BitVec.ofNat 32 (0x4000018 + d.toNat * 0x100000 + a.toNat * 0x4000 + b.toNat * 0x100 + hA.toNat * 0x80 + hB.toNat * 0x40)
  | .addw d a b hA hB => BitVec.ofNat 32 (0x8000000 + d.toNat * 0x100000 + a.toNat * 0x4000 + b.toNat * 0x100 + hA.toNat * 0x80 + hB.toNat * 0x40)
  | .subw d a b hA hB => BitVec.ofNat 32 (0x8000001 + d.toNat * 0x100000 + a.toNat * 0x4000 + b.toNat * 0x100 + hA.toNat * 0x80 + hB.toNat * 0x40)
  | .mulw d a b hA hB => BitVec.ofNat 32 (0x8000002 + d.toNat * 0x100000 + a.toNat * 0x4000 + b.toNat * 0x100 + hA.toNat * 0x80 + hB.toNat * 0x40)
  | .divw d a b hA hB => BitVec.ofNat 32 (0x8000005 + d.toNat * 0x100000 + a.toNat * 0x4000 + b.toNat * 0x100 + hA.toNat * 0x80 + hB.toNat * 0x40)
  | .divuw d a b hA hB => BitVec.ofNat 32 (0x8000006 + d.toNat * 0x100000 + a.toNat * 0x4000 + b.toNat * 0x100 + hA.toNat * 0x80 + hB.toNat * 0x40)
  | .remw d a b hA hB => BitVec.ofNat 32 (0x8000007 + d.toNat * 0x100000 + a.toNat * 0x4000 + b.toNat * 0x100 + hA.toNat * 0x80 + hB.toNat * 0x40)
  | .remuw d a b hA hB => BitVec.ofNat 32 (0x8000008 + d.toNat * 0x100000 + a.toNat * 0x4000 + b.toNat * 0x100 + hA.toNat * 0x80 + hB.toNat * 0x40)
  | .sllw d a b hA hB => BitVec.ofNat 32 (0x800000D + d.toNat * 0x100000 + a.toNat * 0x4000 + b.toNat * 0x100 + hA.toNat * 0x80 + hB.toNat * 0x40)
  | .srlw d a b hA hB => BitVec.ofNat 32 (0x800000E + d.toNat * 0x100000 + a.toNat * 0x4000 + b.toNat * 0x100 + hA.toNat * 0x80 + hB.toNat * 0x40)
  | .sraw d a b hA hB => BitVec.ofNat 32 (0x800000F + d.toNat * 0x100000 + a.toNat * 0x4000 + b.toNat * 0x100 + hA.toNat * 0x80 + hB.toNat * 0x40)
  | .rolw d a b hA hB => BitVec.ofNat 32 (0x8000010 + d.toNat * 0x100000 + a.toNat * 0x4000 + b.toNat * 0x100 + hA.toNat * 0x80 + hB.toNat * 0x40)
  | .rorw d a b hA hB => BitVec.ofNat 32 (0x8000011 + d.toNat * 0x100000 + a.toNat * 0x4000 + b.toNat * 0x100 + hA.toNat * 0x80 + hB.toNat * 0x40)
  | .addi d a imm => BitVec.ofNat 32 (0xC000000 + d.toNat * 0x100000 + a.toNat * 0x4000 + imm.toNat)
  | .addiw d a imm => BitVec.ofNat 32 (0x10000000 + d.toNat * 0x100000 + a.toNat * 0x4000 + imm.toNat)
  | .andi d a imm => BitVec.ofNat 32 (0x14000000 + d.toNat * 0x100000 + a.toNat * 0x4000 + imm.toNat)
  | .ori d a imm => BitVec.ofNat 32 (0x14001000 + d.toNat * 0x100000 + a.toNat * 0x4000 + imm.toNat)
  | .xori d a imm => BitVec.ofNat 32 (0x14002000 + d.toNat * 0x100000 + a.toNat * 0x4000 + imm.toNat)
  | .slli d a sh => BitVec.ofNat 32 (0x18000000 + d.toNat * 0x100000 + a.toNat * 0x4000 + sh.toNat)
  | .slliw d a sh => BitVec.ofNat 32 (0x18000800 + d.toNat * 0x100000 + a.toNat * 0x4000 + sh.toNat)
  | .srli d a sh => BitVec.ofNat 32 (0x18001000 + d.toNat * 0x100000 + a.toNat * 0x4000 + sh.toNat)
  | .srliw d a sh => BitVec.ofNat 32 (0x18001800 + d.toNat * 0x100000 + a.toNat * 0x4000 + sh.toNat)
  | .srai d a sh => BitVec.ofNat 32 (0x18002000 + d.toNat * 0x100000 + a.toNat * 0x4000 + sh.toNat)
  | .sraiw d a sh => BitVec.ofNat 32 (0x18002800 + d.toNat * 0x100000 + a.toNat * 0x4000 + sh.toNat)
  | .rori d a sh => BitVec.ofNat 32 (0x18003000 + d.toNat * 0x100000 + a.toNat * 0x4000 + sh.toNat)
  | .roriw d a sh => BitVec.ofNat 32 (0x18003800 + d.toNat * 0x100000 + a.toNat * 0x4000 + sh.toNat)
  | .slti d a imm => BitVec.ofNat 32 (0x1C000000 + d.toNat * 0x100000 + a.toNat * 0x4000 + imm.toNat)
  | .sltiu d a imm => BitVec.ofNat 32 (0x1C001000 + d.toNat * 0x100000 + a.toNat * 0x4000 + imm.toNat)
  | .seqi d a imm => BitVec.ofNat 32 (0x1C002000 + d.toNat * 0x100000 + a.toNat * 0x4000 + imm.toNat)
  | .lih d imm => BitVec.ofNat 32 (0x20000000 + d.toNat * 0x100000 + imm.toNat)
  | .addpc d imm => BitVec.ofNat 32 (0x24000000 + d.toNat * 0x100000 + imm.toNat)
  | .brEq a b off => BitVec.ofNat 32 (0x28000000 + a.toNat * 0x100000 + b.toNat * 0x4000 + off.toNat)
  | .brNe a b off => BitVec.ofNat 32 (0x28000800 + a.toNat * 0x100000 + b.toNat * 0x4000 + off.toNat)
  | .brLt a b off => BitVec.ofNat 32 (0x28001000 + a.toNat * 0x100000 + b.toNat * 0x4000 + off.toNat)
  | .brGe a b off => BitVec.ofNat 32 (0x28001800 + a.toNat * 0x100000 + b.toNat * 0x4000 + off.toNat)
  | .brLtu a b off => BitVec.ofNat 32 (0x28002000 + a.toNat * 0x100000 + b.toNat * 0x4000 + off.toNat)
  | .brGeu a b off => BitVec.ofNat 32 (0x28002800 + a.toNat * 0x100000 + b.toNat * 0x4000 + off.toNat)
  | .bzEqz a off => BitVec.ofNat 32 (0x2C000000 + a.toNat * 0x100000 + off.toNat)
  | .bzNez a off => BitVec.ofNat 32 (0x2C040000 + a.toNat * 0x100000 + off.toNat)
  | .bzLtz a off => BitVec.ofNat 32 (0x2C080000 + a.toNat * 0x100000 + off.toNat)
  | .bzGez a off => BitVec.ofNat 32 (0x2C0C0000 + a.toNat * 0x100000 + off.toNat)
  | .jal d off => BitVec.ofNat 32 (0x30000000 + d.toNat * 0x100000 + off.toNat)
  | .jalr d a imm => BitVec.ofNat 32 (0x34000000 + d.toNat * 0x100000 + a.toNat * 0x4000 + imm.toNat)
  | .loop a n => BitVec.ofNat 32 (0x38000000 + a.toNat * 0x4000 + n.toNat)
  | .sel d a b hA hB => BitVec.ofNat 32 (0x3C000000 + d.toNat * 0x100000 + a.toNat * 0x4000 + b.toNat * 0x100 + hA.toNat * 0x80 + hB.toNat * 0x40)
  | .clz d a hA => BitVec.ofNat 32 (0x3C000001 + d.toNat * 0x100000 + a.toNat * 0x4000 + hA.toNat * 0x80)
  | .ctz d a hA => BitVec.ofNat 32 (0x3C000002 + d.toNat * 0x100000 + a.toNat * 0x4000 + hA.toNat * 0x80)
  | .popc d a hA => BitVec.ofNat 32 (0x3C000003 + d.toNat * 0x100000 + a.toNat * 0x4000 + hA.toNat * 0x80)
  | .brev d a hA => BitVec.ofNat 32 (0x3C000004 + d.toNat * 0x100000 + a.toNat * 0x4000 + hA.toNat * 0x80)
  | .bswap d a hA => BitVec.ofNat 32 (0x3C000005 + d.toNat * 0x100000 + a.toNat * 0x4000 + hA.toNat * 0x80)
  | .bfx d a b hA hB => BitVec.ofNat 32 (0x3C000006 + d.toNat * 0x100000 + a.toNat * 0x4000 + b.toNat * 0x100 + hA.toNat * 0x80 + hB.toNat * 0x40)
  | .bfxu d a b hA hB => BitVec.ofNat 32 (0x3C000007 + d.toNat * 0x100000 + a.toNat * 0x4000 + b.toNat * 0x100 + hA.toNat * 0x80 + hB.toNat * 0x40)
  | .bfi d a b hA hB => BitVec.ofNat 32 (0x3C000008 + d.toNat * 0x100000 + a.toNat * 0x4000 + b.toNat * 0x100 + hA.toNat * 0x80 + hB.toNat * 0x40)
  | .ld d a size uns off => BitVec.ofNat 32 (0x40000000 + d.toNat * 0x100000 + a.toNat * 0x4000 + size.toNat * 0x1000 + uns.toNat * 0x800 + off.toNat)
  | .st d a size off => BitVec.ofNat 32 (0x44000000 + d.toNat * 0x100000 + a.toNat * 0x4000 + size.toNat * 0x1000 + off.toNat)
  | .ldx d a b hA hB size uns => BitVec.ofNat 32 (0x48000000 + d.toNat * 0x100000 + a.toNat * 0x4000 + b.toNat * 0x100 + hA.toNat * 0x80 + hB.toNat * 0x40 + size.toNat * 0x4 + uns.toNat * 0x2)
  | .stx d a b hA hB size => BitVec.ofNat 32 (0x48000010 + d.toNat * 0x100000 + a.toNat * 0x4000 + b.toNat * 0x100 + hA.toNat * 0x80 + hB.toNat * 0x40 + size.toNat * 0x4)
  | .ldxAcq d a b hA hB dbl sc => BitVec.ofNat 32 (0x48000020 + d.toNat * 0x100000 + a.toNat * 0x4000 + b.toNat * 0x100 + hA.toNat * 0x80 + hB.toNat * 0x40 + dbl.toNat * 0x8 + sc.code)
  | .stxRel d a b hA hB dbl sc => BitVec.ofNat 32 (0x48000030 + d.toNat * 0x100000 + a.toNat * 0x4000 + b.toNat * 0x100 + hA.toNat * 0x80 + hB.toNat * 0x40 + dbl.toNat * 0x8 + sc.code)
  | .ldbitU d a b hA hB n => BitVec.ofNat 32 (0x4C000000 + d.toNat * 0x100000 + a.toNat * 0x4000 + b.toNat * 0x100 + hA.toNat * 0x80 + hB.toNat * 0x40 + n.toNat)
  | .ldbitS d a b hA hB n => BitVec.ofNat 32 (0x4C000010 + d.toNat * 0x100000 + a.toNat * 0x4000 + b.toNat * 0x100 + hA.toNat * 0x80 + hB.toNat * 0x40 + n.toNat)
  | .stbit d a b hA hB n => BitVec.ofNat 32 (0x4C000020 + d.toNat * 0x100000 + a.toNat * 0x4000 + b.toNat * 0x100 + hA.toNat * 0x80 + hB.toNat * 0x40 + n.toNat)
  | .amoAdd d a sc ord dbl hA => BitVec.ofNat 32 (0x50000000 + d.toNat * 0x100000 + a.toNat * 0x4000 + sc.code * 0x800 + ord.toNat * 0x200 + dbl.toNat * 0x100 + hA.toNat * 0x80)
  | .amoAnd d a sc ord dbl hA => BitVec.ofNat 32 (0x50000001 + d.toNat * 0x100000 + a.toNat * 0x4000 + sc.code * 0x800 + ord.toNat * 0x200 + dbl.toNat * 0x100 + hA.toNat * 0x80)
  | .amoOr d a sc ord dbl hA => BitVec.ofNat 32 (0x50000002 + d.toNat * 0x100000 + a.toNat * 0x4000 + sc.code * 0x800 + ord.toNat * 0x200 + dbl.toNat * 0x100 + hA.toNat * 0x80)
  | .amoXor d a sc ord dbl hA => BitVec.ofNat 32 (0x50000003 + d.toNat * 0x100000 + a.toNat * 0x4000 + sc.code * 0x800 + ord.toNat * 0x200 + dbl.toNat * 0x100 + hA.toNat * 0x80)
  | .amoMin d a sc ord dbl hA => BitVec.ofNat 32 (0x50000004 + d.toNat * 0x100000 + a.toNat * 0x4000 + sc.code * 0x800 + ord.toNat * 0x200 + dbl.toNat * 0x100 + hA.toNat * 0x80)
  | .amoMax d a sc ord dbl hA => BitVec.ofNat 32 (0x50000005 + d.toNat * 0x100000 + a.toNat * 0x4000 + sc.code * 0x800 + ord.toNat * 0x200 + dbl.toNat * 0x100 + hA.toNat * 0x80)
  | .amoMinu d a sc ord dbl hA => BitVec.ofNat 32 (0x50000006 + d.toNat * 0x100000 + a.toNat * 0x4000 + sc.code * 0x800 + ord.toNat * 0x200 + dbl.toNat * 0x100 + hA.toNat * 0x80)
  | .amoMaxu d a sc ord dbl hA => BitVec.ofNat 32 (0x50000007 + d.toNat * 0x100000 + a.toNat * 0x4000 + sc.code * 0x800 + ord.toNat * 0x200 + dbl.toNat * 0x100 + hA.toNat * 0x80)
  | .amoXchg d a sc ord dbl hA => BitVec.ofNat 32 (0x50000008 + d.toNat * 0x100000 + a.toNat * 0x4000 + sc.code * 0x800 + ord.toNat * 0x200 + dbl.toNat * 0x100 + hA.toNat * 0x80)
  | .amoFadd32 d a sc ord hA => BitVec.ofNat 32 (0x50000009 + d.toNat * 0x100000 + a.toNat * 0x4000 + sc.code * 0x800 + ord.toNat * 0x200 + hA.toNat * 0x80)
  | .cas d a b hA hB sc ord dbl => BitVec.ofNat 32 (0x54000000 + d.toNat * 0x100000 + a.toNat * 0x4000 + b.toNat * 0x100 + hA.toNat * 0x80 + hB.toNat * 0x40 + sc.code * 0x8 + ord.toNat * 0x2 + dbl.toNat)
  | .fenceAcq sc => BitVec.ofNat 32 (0x58000002 + sc.code * 0x8)
  | .fenceRel sc => BitVec.ofNat 32 (0x58000004 + sc.code * 0x8)
  | .fenceFull sc => BitVec.ofNat 32 (0x58000006 + sc.code * 0x8)
  | .pref a off => BitVec.ofNat 32 (0x5C000000 + a.toNat * 0x4000 + off.toNat)
  | .prefL2 a off => BitVec.ofNat 32 (0x5C000800 + a.toNat * 0x4000 + off.toNat)
  | .clwb a sc off => BitVec.ofNat 32 (0x5C001000 + a.toNat * 0x4000 + sc.code * 0x100 + off.toNat)
  | .clinv a sc off => BitVec.ofNat 32 (0x5C001800 + a.toNat * 0x4000 + sc.code * 0x100 + off.toNat)
  | .fadd d a b hA hB => BitVec.ofNat 32 (0x60000000 + d.toNat * 0x100000 + a.toNat * 0x4000 + b.toNat * 0x100 + hA.toNat * 0x80 + hB.toNat * 0x40)
  | .fsub d a b hA hB => BitVec.ofNat 32 (0x60000001 + d.toNat * 0x100000 + a.toNat * 0x4000 + b.toNat * 0x100 + hA.toNat * 0x80 + hB.toNat * 0x40)
  | .fmul d a b hA hB => BitVec.ofNat 32 (0x60000002 + d.toNat * 0x100000 + a.toNat * 0x4000 + b.toNat * 0x100 + hA.toNat * 0x80 + hB.toNat * 0x40)
  | .fdiv d a b hA hB => BitVec.ofNat 32 (0x60000003 + d.toNat * 0x100000 + a.toNat * 0x4000 + b.toNat * 0x100 + hA.toNat * 0x80 + hB.toNat * 0x40)
  | .fsqrt d a hA => BitVec.ofNat 32 (0x60000004 + d.toNat * 0x100000 + a.toNat * 0x4000 + hA.toNat * 0x80)
  | .fmin d a b hA hB => BitVec.ofNat 32 (0x60000005 + d.toNat * 0x100000 + a.toNat * 0x4000 + b.toNat * 0x100 + hA.toNat * 0x80 + hB.toNat * 0x40)
  | .fmax d a b hA hB => BitVec.ofNat 32 (0x60000006 + d.toNat * 0x100000 + a.toNat * 0x4000 + b.toNat * 0x100 + hA.toNat * 0x80 + hB.toNat * 0x40)
  | .fabs d a hA => BitVec.ofNat 32 (0x60000007 + d.toNat * 0x100000 + a.toNat * 0x4000 + hA.toNat * 0x80)
  | .fneg d a hA => BitVec.ofNat 32 (0x60000008 + d.toNat * 0x100000 + a.toNat * 0x4000 + hA.toNat * 0x80)
  | .fcps d a b hA hB => BitVec.ofNat 32 (0x60000009 + d.toNat * 0x100000 + a.toNat * 0x4000 + b.toNat * 0x100 + hA.toNat * 0x80 + hB.toNat * 0x40)
  | .frnd d a hA => BitVec.ofNat 32 (0x6000000A + d.toNat * 0x100000 + a.toNat * 0x4000 + hA.toNat * 0x80)
  | .fmac d a b hA hB => BitVec.ofNat 32 (0x64000000 + d.toNat * 0x100000 + a.toNat * 0x4000 + b.toNat * 0x100 + hA.toNat * 0x80 + hB.toNat * 0x40)
  | .fmsc d a b hA hB => BitVec.ofNat 32 (0x64000001 + d.toNat * 0x100000 + a.toNat * 0x4000 + b.toNat * 0x100 + hA.toNat * 0x80 + hB.toNat * 0x40)
  | .fnmac d a b hA hB => BitVec.ofNat 32 (0x64000002 + d.toNat * 0x100000 + a.toNat * 0x4000 + b.toNat * 0x100 + hA.toNat * 0x80 + hB.toNat * 0x40)
  | .feq d a b hA hB => BitVec.ofNat 32 (0x68000000 + d.toNat * 0x100000 + a.toNat * 0x4000 + b.toNat * 0x100 + hA.toNat * 0x80 + hB.toNat * 0x40)
  | .flt d a b hA hB => BitVec.ofNat 32 (0x68000001 + d.toNat * 0x100000 + a.toNat * 0x4000 + b.toNat * 0x100 + hA.toNat * 0x80 + hB.toNat * 0x40)
  | .fle d a b hA hB => BitVec.ofNat 32 (0x68000002 + d.toNat * 0x100000 + a.toNat * 0x4000 + b.toNat * 0x100 + hA.toNat * 0x80 + hB.toNat * 0x40)
  | .fclass d a hA => BitVec.ofNat 32 (0x68000003 + d.toNat * 0x100000 + a.toNat * 0x4000 + hA.toNat * 0x80)
  | .fcvt d a hA => BitVec.ofNat 32 (0x68000004 + d.toNat * 0x100000 + a.toNat * 0x4000 + hA.toNat * 0x80)
  | .fcvti d a hA => BitVec.ofNat 32 (0x68000005 + d.toNat * 0x100000 + a.toNat * 0x4000 + hA.toNat * 0x80)
  | .fcvtf d a hA => BitVec.ofNat 32 (0x68000006 + d.toNat * 0x100000 + a.toNat * 0x4000 + hA.toNat * 0x80)
  | .pfx fa fb fd rnd sat => BitVec.ofNat 32 (0x6C000000 + fa.toNat * 0x400000 + fb.toNat * 0x40000 + fd.toNat * 0x4000 + rnd.toNat * 0x800 + sat.toNat * 0x400)
  | .vadd vd va vb q ty => BitVec.ofNat 32 (0x80000000 + vd.toNat * 0x800000 + va.toNat * 0x100000 + vb.toNat * 0x20000 + q.toNat * 0x8000 + ty.code * 0x1000)
  | .vsub vd va vb q ty => BitVec.ofNat 32 (0x80000001 + vd.toNat * 0x800000 + va.toNat * 0x100000 + vb.toNat * 0x20000 + q.toNat * 0x8000 + ty.code * 0x1000)
  | .vmul vd va vb q ty => BitVec.ofNat 32 (0x80000002 + vd.toNat * 0x800000 + va.toNat * 0x100000 + vb.toNat * 0x20000 + q.toNat * 0x8000 + ty.code * 0x1000)
  | .vmin vd va vb q ty => BitVec.ofNat 32 (0x80000003 + vd.toNat * 0x800000 + va.toNat * 0x100000 + vb.toNat * 0x20000 + q.toNat * 0x8000 + ty.code * 0x1000)
  | .vmax vd va vb q ty => BitVec.ofNat 32 (0x80000004 + vd.toNat * 0x800000 + va.toNat * 0x100000 + vb.toNat * 0x20000 + q.toNat * 0x8000 + ty.code * 0x1000)
  | .vand vd va vb q => BitVec.ofNat 32 (0x80000005 + vd.toNat * 0x800000 + va.toNat * 0x100000 + vb.toNat * 0x20000 + q.toNat * 0x8000)
  | .vor vd va vb q => BitVec.ofNat 32 (0x80000006 + vd.toNat * 0x800000 + va.toNat * 0x100000 + vb.toNat * 0x20000 + q.toNat * 0x8000)
  | .vxor vd va vb q => BitVec.ofNat 32 (0x80000007 + vd.toNat * 0x800000 + va.toNat * 0x100000 + vb.toNat * 0x20000 + q.toNat * 0x8000)
  | .vshl vd va vb q ty => BitVec.ofNat 32 (0x80000008 + vd.toNat * 0x800000 + va.toNat * 0x100000 + vb.toNat * 0x20000 + q.toNat * 0x8000 + ty.code * 0x1000)
  | .vshr vd va vb q ty => BitVec.ofNat 32 (0x80000009 + vd.toNat * 0x800000 + va.toNat * 0x100000 + vb.toNat * 0x20000 + q.toNat * 0x8000 + ty.code * 0x1000)
  | .vsra vd va vb q ty => BitVec.ofNat 32 (0x8000000A + vd.toNat * 0x800000 + va.toNat * 0x100000 + vb.toNat * 0x20000 + q.toNat * 0x8000 + ty.code * 0x1000)
  | .vsel vd va vb q => BitVec.ofNat 32 (0x8000000B + vd.toNat * 0x800000 + va.toNat * 0x100000 + vb.toNat * 0x20000 + q.toNat * 0x8000)
  | .vcmp qd va vb q ty cond => BitVec.ofNat 32 (0x80000010 + qd.toNat * 0x800000 + va.toNat * 0x100000 + vb.toNat * 0x20000 + q.toNat * 0x8000 + ty.code * 0x1000 + cond.toNat)
  | .vcvt vd va part q ty => BitVec.ofNat 32 (0x80000018 + vd.toNat * 0x800000 + va.toNat * 0x100000 + part.toNat * 0x20000 + q.toNat * 0x8000 + ty.code * 0x1000)
  | .vaddVs vd va q ty g => BitVec.ofNat 32 (0x80000020 + vd.toNat * 0x800000 + va.toNat * 0x100000 + q.toNat * 0x8000 + ty.code * 0x1000 + g.toNat * 0x40)
  | .vsubVs vd va q ty g => BitVec.ofNat 32 (0x80000021 + vd.toNat * 0x800000 + va.toNat * 0x100000 + q.toNat * 0x8000 + ty.code * 0x1000 + g.toNat * 0x40)
  | .vmulVs vd va q ty g => BitVec.ofNat 32 (0x80000022 + vd.toNat * 0x800000 + va.toNat * 0x100000 + q.toNat * 0x8000 + ty.code * 0x1000 + g.toNat * 0x40)
  | .vminVs vd va q ty g => BitVec.ofNat 32 (0x80000023 + vd.toNat * 0x800000 + va.toNat * 0x100000 + q.toNat * 0x8000 + ty.code * 0x1000 + g.toNat * 0x40)
  | .vmaxVs vd va q ty g => BitVec.ofNat 32 (0x80000024 + vd.toNat * 0x800000 + va.toNat * 0x100000 + q.toNat * 0x8000 + ty.code * 0x1000 + g.toNat * 0x40)
  | .vandVs vd va q g => BitVec.ofNat 32 (0x80000025 + vd.toNat * 0x800000 + va.toNat * 0x100000 + q.toNat * 0x8000 + g.toNat * 0x40)
  | .vorVs vd va q g => BitVec.ofNat 32 (0x80000026 + vd.toNat * 0x800000 + va.toNat * 0x100000 + q.toNat * 0x8000 + g.toNat * 0x40)
  | .vxorVs vd va q g => BitVec.ofNat 32 (0x80000027 + vd.toNat * 0x800000 + va.toNat * 0x100000 + q.toNat * 0x8000 + g.toNat * 0x40)
  | .vshlVs vd va q ty g => BitVec.ofNat 32 (0x80000028 + vd.toNat * 0x800000 + va.toNat * 0x100000 + q.toNat * 0x8000 + ty.code * 0x1000 + g.toNat * 0x40)
  | .vshrVs vd va q ty g => BitVec.ofNat 32 (0x80000029 + vd.toNat * 0x800000 + va.toNat * 0x100000 + q.toNat * 0x8000 + ty.code * 0x1000 + g.toNat * 0x40)
  | .vsraVs vd va q ty g => BitVec.ofNat 32 (0x8000002A + vd.toNat * 0x800000 + va.toNat * 0x100000 + q.toNat * 0x8000 + ty.code * 0x1000 + g.toNat * 0x40)
  | .vselVs vd va q g => BitVec.ofNat 32 (0x8000002B + vd.toNat * 0x800000 + va.toNat * 0x100000 + q.toNat * 0x8000 + g.toNat * 0x40)
  | .vcmpVs qd va q ty g cond => BitVec.ofNat 32 (0x80000030 + qd.toNat * 0x800000 + va.toNat * 0x100000 + q.toNat * 0x8000 + ty.code * 0x1000 + g.toNat * 0x40 + cond.toNat)
  | .vmac vd va vb q ty => BitVec.ofNat 32 (0x84000000 + vd.toNat * 0x800000 + va.toNat * 0x100000 + vb.toNat * 0x20000 + q.toNat * 0x8000 + ty.code * 0x1000)
  | .vmacVs vd va q ty g => BitVec.ofNat 32 (0x84000020 + vd.toNat * 0x800000 + va.toNat * 0x100000 + q.toNat * 0x8000 + ty.code * 0x1000 + g.toNat * 0x40)
  | .vdot4 vd va vb q ty => BitVec.ofNat 32 (0x84000001 + vd.toNat * 0x800000 + va.toNat * 0x100000 + vb.toNat * 0x20000 + q.toNat * 0x8000 + ty.code * 0x1000)
  | .vdot4Vs vd va q ty g => BitVec.ofNat 32 (0x84000021 + vd.toNat * 0x800000 + va.toNat * 0x100000 + q.toNat * 0x8000 + ty.code * 0x1000 + g.toNat * 0x40)
  | .vld vd q g => BitVec.ofNat 32 (0x88000000 + vd.toNat * 0x800000 + q.toNat * 0x8000 + g.toNat * 0x40)
  | .vst vd q g => BitVec.ofNat 32 (0x88000001 + vd.toNat * 0x800000 + q.toNat * 0x8000 + g.toNat * 0x40)
  | .vlds vd q g => BitVec.ofNat 32 (0x88000002 + vd.toNat * 0x800000 + q.toNat * 0x8000 + g.toNat * 0x40)
  | .vsts vd q g => BitVec.ofNat 32 (0x88000003 + vd.toNat * 0x800000 + q.toNat * 0x8000 + g.toNat * 0x40)
  | .vgather vd va q ty g => BitVec.ofNat 32 (0x8C000000 + vd.toNat * 0x800000 + va.toNat * 0x100000 + q.toNat * 0x8000 + ty.code * 0x1000 + g.toNat * 0x40)
  | .vgatherP vd va c q ty g => BitVec.ofNat 32 (0x8C000001 + vd.toNat * 0x800000 + va.toNat * 0x100000 + c.toNat * 0x20000 + q.toNat * 0x8000 + ty.code * 0x1000 + g.toNat * 0x40)
  | .vscatter vd va q ty g => BitVec.ofNat 32 (0x8C000002 + vd.toNat * 0x800000 + va.toNat * 0x100000 + q.toNat * 0x8000 + ty.code * 0x1000 + g.toNat * 0x40)
  | .vldbitU vd q g n => BitVec.ofNat 32 (0x90000010 + vd.toNat * 0x800000 + q.toNat * 0x8000 + g.toNat * 0x40 + n.toNat)
  | .vldbitS vd q g n => BitVec.ofNat 32 (0x90000020 + vd.toNat * 0x800000 + q.toNat * 0x8000 + g.toNat * 0x40 + n.toNat)
  | .vstbit vd q g n => BitVec.ofNat 32 (0x90000030 + vd.toNat * 0x800000 + q.toNat * 0x8000 + g.toNat * 0x40 + n.toNat)
  | .vbcast vd q ty g => BitVec.ofNat 32 (0x94000000 + vd.toNat * 0x800000 + q.toNat * 0x8000 + ty.code * 0x1000 + g.toNat * 0x40)
  | .vext va lane ty g => BitVec.ofNat 32 (0x94000001 + va.toNat * 0x100000 + lane.toNat * 0x8000 + ty.code * 0x1000 + g.toNat * 0x40)
  | .vperm vd va vb q => BitVec.ofNat 32 (0x94000002 + vd.toNat * 0x800000 + va.toNat * 0x100000 + vb.toNat * 0x20000 + q.toNat * 0x8000)
  | .vshuf vd va vb q g => BitVec.ofNat 32 (0x94000003 + vd.toNat * 0x800000 + va.toNat * 0x100000 + vb.toNat * 0x20000 + q.toNat * 0x8000 + g.toNat * 0x40)
  | .vrot vd va q g => BitVec.ofNat 32 (0x94000004 + vd.toNat * 0x800000 + va.toNat * 0x100000 + q.toNat * 0x8000 + g.toNat * 0x40)
  | .vred va q ty g op => BitVec.ofNat 32 (0x98000000 + va.toNat * 0x100000 + q.toNat * 0x8000 + ty.code * 0x1000 + g.toNat * 0x40 + op.toNat)
  | .vscan vd va q ty op => BitVec.ofNat 32 (0x98000020 + vd.toNat * 0x800000 + va.toNat * 0x100000 + q.toNat * 0x8000 + ty.code * 0x1000 + op.toNat)
  | .mand qd qa qb => BitVec.ofNat 32 (0x9C000000 + qd.toNat * 0x800000 + qa.toNat * 0x100000 + qb.toNat * 0x20000)
  | .mor qd qa qb => BitVec.ofNat 32 (0x9C000001 + qd.toNat * 0x800000 + qa.toNat * 0x100000 + qb.toNat * 0x20000)
  | .mxor qd qa qb => BitVec.ofNat 32 (0x9C000002 + qd.toNat * 0x800000 + qa.toNat * 0x100000 + qb.toNat * 0x20000)
  | .mnot qd qa => BitVec.ofNat 32 (0x9C000003 + qd.toNat * 0x800000 + qa.toNat * 0x100000)
  | .mpopc qa g => BitVec.ofNat 32 (0x9C000004 + qa.toNat * 0x100000 + g.toNat * 0x40)
  | .mfirst qa g => BitVec.ofNat 32 (0x9C000005 + qa.toNat * 0x100000 + g.toNat * 0x40)
  | .mmov qd g => BitVec.ofNat 32 (0x9C000006 + qd.toNat * 0x800000 + g.toNat * 0x40)
  | .mrd qa g => BitVec.ofNat 32 (0x9C000007 + qa.toNat * 0x100000 + g.toNat * 0x40)
  | .bar => BitVec.ofNat 32 (0xA0000000)
  | .trig => BitVec.ofNat 32 (0xA0000001)
  | .exit => BitVec.ofNat 32 (0xA0000002)
  | .yield => BitVec.ofNat 32 (0xA0000003)
  | .sleep a hA => BitVec.ofNat 32 (0xA0000004 + a.toNat * 0x4000 + hA.toNat * 0x80)
  | .migpt => BitVec.ofNat 32 (0xA0000005)
  | .hint phase => BitVec.ofNat 32 (0xA0000008 + phase.toNat)
  | .arm d => BitVec.ofNat 32 (0xA4000000 + d.toNat * 0x100000)
  | .armAcq d sc => BitVec.ofNat 32 (0xA4000008 + d.toNat * 0x100000 + sc.code)
  | .sendr a b hA hB => BitVec.ofNat 32 (0xA4000010 + a.toNat * 0x4000 + b.toNat * 0x100 + hA.toNat * 0x80 + hB.toNat * 0x40)
  | .sendrRel a b hA hB sc => BitVec.ofNat 32 (0xA4000018 + a.toNat * 0x4000 + b.toNat * 0x100 + hA.toNat * 0x80 + hB.toNat * 0x40 + sc.code)
  | .sendrW a b hA hB => BitVec.ofNat 32 (0xA4000020 + a.toNat * 0x4000 + b.toNat * 0x100 + hA.toNat * 0x80 + hB.toNat * 0x40)
  | .sendrWRel a b hA hB sc => BitVec.ofNat 32 (0xA4000028 + a.toNat * 0x4000 + b.toNat * 0x100 + hA.toNat * 0x80 + hB.toNat * 0x40 + sc.code)
  | .capr d b rights => BitVec.ofNat 32 (0xA4000030 + d.toNat * 0x100000 + b.toNat * 0x100 + rights.toNat)
  | .capchk d a hA => BitVec.ofNat 32 (0xA4000034 + d.toNat * 0x100000 + a.toNat * 0x4000 + hA.toNat * 0x80)
  | .capi d => BitVec.ofNat 32 (0xA4000035 + d.toNat * 0x100000)
  | .srv d a b nr na sel => BitVec.ofNat 32 (0xA8000000 + d.toNat * 0x100000 + a.toNat * 0x4000 + b.toNat * 0x100 + nr.toNat * 0x40 + na.toNat * 0x10 + sel.toNat)
  | .chsend d a b hA hB => BitVec.ofNat 32 (0xAC000000 + d.toNat * 0x100000 + a.toNat * 0x4000 + b.toNat * 0x100 + hA.toNat * 0x80 + hB.toNat * 0x40)
  | .chsendRel d a b hA hB sc => BitVec.ofNat 32 (0xAC000008 + d.toNat * 0x100000 + a.toNat * 0x4000 + b.toNat * 0x100 + hA.toNat * 0x80 + hB.toNat * 0x40 + sc.code)
  | .chsendBlk d a b hA hB => BitVec.ofNat 32 (0xAC000010 + d.toNat * 0x100000 + a.toNat * 0x4000 + b.toNat * 0x100 + hA.toNat * 0x80 + hB.toNat * 0x40)
  | .chsendBlkRel d a b hA hB sc => BitVec.ofNat 32 (0xAC000018 + d.toNat * 0x100000 + a.toNat * 0x4000 + b.toNat * 0x100 + hA.toNat * 0x80 + hB.toNat * 0x40 + sc.code)
  | .chrecv d => BitVec.ofNat 32 (0xAC000020 + d.toNat * 0x100000)
  | .chrecvAcq d sc => BitVec.ofNat 32 (0xAC000028 + d.toNat * 0x100000 + sc.code)
  | .chpoll d => BitVec.ofNat 32 (0xAC000030 + d.toNat * 0x100000)
  | .chpollAcq d sc => BitVec.ofNat 32 (0xAC000038 + d.toNat * 0x100000 + sc.code)
  | .copyGo ctx a b sc => BitVec.ofNat 32 (0xC0000001 + ctx.toNat * 0x100000 + a.toNat * 0x4000 + b.toNat * 0x100 + sc.code * 0x20)
  | .copyGather ctx a b sc => BitVec.ofNat 32 (0xC0000002 + ctx.toNat * 0x100000 + a.toNat * 0x4000 + b.toNat * 0x100 + sc.code * 0x20)
  | .copyRed ctx a b sc => BitVec.ofNat 32 (0xC0000003 + ctx.toNat * 0x100000 + a.toNat * 0x4000 + b.toNat * 0x100 + sc.code * 0x20)
  | .copyMcast ctx a b sc => BitVec.ofNat 32 (0xC0000004 + ctx.toNat * 0x100000 + a.toNat * 0x4000 + b.toNat * 0x100 + sc.code * 0x20)
  | .planeLdw ctx sc => BitVec.ofNat 32 (0xC04EBA01 + ctx.toNat * 0x100000 + sc.code * 0x20)
  | .planeRun ctx sc => BitVec.ofNat 32 (0xC04EBA02 + ctx.toNat * 0x100000 + sc.code * 0x20)
  | .planeFid ctx sc => BitVec.ofNat 32 (0xC04EBA03 + ctx.toNat * 0x100000 + sc.code * 0x20)
  | .planeCnt ctx sc => BitVec.ofNat 32 (0xC04EBA04 + ctx.toNat * 0x100000 + sc.code * 0x20)
  | .gatherRows ctx sc => BitVec.ofNat 32 (0xC08EBA01 + ctx.toNat * 0x100000 + sc.code * 0x20)
  | .fabLoad ctx sc => BitVec.ofNat 32 (0xC0CEBA01 + ctx.toNat * 0x100000 + sc.code * 0x20)
  | .fabEvict ctx sc => BitVec.ofNat 32 (0xC0CEBA02 + ctx.toNat * 0x100000 + sc.code * 0x20)
  | .fabSeed ctx sc => BitVec.ofNat 32 (0xC0CEBA03 + ctx.toNat * 0x100000 + sc.code * 0x20)
  | .fabSnap ctx sc => BitVec.ofNat 32 (0xC0CEBA04 + ctx.toNat * 0x100000 + sc.code * 0x20)
  | .cxw eng ctx src ereg => BitVec.ofNat 32 (0xC4000000 + eng.toNat * 0x400000 + ctx.toNat * 0x100000 + src.toNat * 0x4000 + ereg.toNat * 0x200)
  | .cxr eng ctx d ereg => BitVec.ofNat 32 (0xC8000000 + eng.toNat * 0x400000 + ctx.toNat * 0x100000 + d.toNat * 0x4000 + ereg.toNat * 0x200)
  | .hset d a b hA hB => BitVec.ofNat 32 (0xCC000000 + d.toNat * 0x100000 + a.toNat * 0x4000 + b.toNat * 0x100 + hA.toNat * 0x80 + hB.toNat * 0x40)
  | .hfree a hA => BitVec.ofNat 32 (0xCC000001 + a.toNat * 0x4000 + hA.toNat * 0x80)
  | .hkill a hA => BitVec.ofNat 32 (0xCC000002 + a.toNat * 0x4000 + hA.toNat * 0x80)
  | .hwait a mask hA => BitVec.ofNat 32 (0xCC000003 + a.toNat * 0x4000 + mask.toNat * 0x100 + hA.toNat * 0x80)
  | .hstat d a hA => BitVec.ofNat 32 (0xCC000004 + d.toNat * 0x100000 + a.toNat * 0x4000 + hA.toNat * 0x80)
  | .tlwait a sc hA eng ctx => BitVec.ofNat 32 (0xD0000000 + a.toNat * 0x4000 + sc.code * 0x100 + hA.toNat * 0x80 + eng.toNat * 0x4 + ctx.toNat)
  | .tlread d eng ctx => BitVec.ofNat 32 (0xD0000010 + d.toNat * 0x100000 + eng.toNat * 0x4 + ctx.toNat)
  | .tladv d eng ctx => BitVec.ofNat 32 (0xD0000020 + d.toNat * 0x100000 + eng.toNat * 0x4 + ctx.toNat)
  | .trap code => BitVec.ofNat 32 (0xE0000000 + code.toNat * 0x100)
  | .eret => BitVec.ofNat 32 (0xE0000001)
  | .wfi => BitVec.ofNat 32 (0xE0000002)
  | .ctlr d addr => BitVec.ofNat 32 (0xE0000008 + d.toNat * 0x100000 + addr.toNat * 0x100)
  | .ctlw src addr => BitVec.ofNat 32 (0xE0000009 + src.toNat * 0x100000 + addr.toNat * 0x100)
  | .ctlset src addr => BitVec.ofNat 32 (0xE000000A + src.toNat * 0x100000 + addr.toNat * 0x100)
  | .ctlclr src addr => BitVec.ofNat 32 (0xE000000B + src.toNat * 0x100000 + addr.toNat * 0x100)
  | .tlbinv d a b hA hB => BitVec.ofNat 32 (0xE0000010 + d.toNat * 0x100000 + a.toNat * 0x4000 + b.toNat * 0x100 + hA.toNat * 0x80 + hB.toNat * 0x40)
  | .tlbprobe d a b hA hB => BitVec.ofNat 32 (0xE0000011 + d.toNat * 0x100000 + a.toNat * 0x4000 + b.toNat * 0x100 + hA.toNat * 0x80 + hB.toNat * 0x40)
  | .cwb sc => BitVec.ofNat 32 (0xE0000018 + sc.code)
  | .cinv sc => BitVec.ofNat 32 (0xE0000020 + sc.code)
  | .vectorCompletion => 0
  | .sleepExpiry => 0
  | .tlstatWrite => 0
  | .cxrValueReturn => 0
  | .tlreadValueReturn => 0
  | .statWrite => 0
  | .lmsplitWrite => 0
  | .inboxWrite => 0
  | .gpoolWrite => 0
  | .srvtabWrite => 0
  | .tlbinvComplete => 0
  | .tlbprobeResult => 0
  | .instructionFetchFill => 0
  | .loadDataReturn => 0
  | .releaseComplete => 0
  | .acquireComplete => 0
  | .l2MissFill => 0
  | .pageWalkComplete => 0
  | .srvResultWriteback => 0
  | .sendDelivery => 0
  | .sendAcknowledgement => 0
  | .channelTransmit => 0
  | .inboxPlacement => 0
  | .commandStart => 0
  | .commandCompletion => 0
  | .copyLastByte => 0
  | .contourClaim => 0
  | .railSettle => 0
  | .elementFire => 0
  | .entAccept => 0
  | .ldpEmit => 0
  | .stpPerformed => 0
  | .faultTokenDrain => 0
  | .handlerAbsentTimeout => 0
  | .regionRequest => 0
  | .configCacheFetch => 0
  | .configCompleteWave => 0
  | .meteredInjection => 0
  | .regionStop => 0
  | .launchTokenWrite => 0
  | .headerConsume => 0
  | .ageingPromotion => 0
  | .partyBind => 0
  | .dispatchStart => 0
  | .surveyCompletion => 0
  | .qstop => 0
  | .qstart => 0
  | .qkill => 0
  | .killRegionTimeout => 0
  | .qreset => 0
  | .lvalWrite => 0
  | .ltrigWrite => 0
  | .lstatWrite => 0
  | .serviceResolve => 0
  | .resolveAnswer => 0
  | .serviceMigrate => 0
  | .serviceTermThread => 0
  | .serviceTermParty => 0
  | .partyTermination => 0
  | .preemptionStop => 0
  | .saveWrite => 0
  | .saveResume => 0
  | .restore => 0
  | .migrationRequest => 0
  | .migrationTransfer => 0
  | .thermalMigration => 0
  | .surveyRead => 0
  | .imgAdd => 0
  | .imgRemove => 0
  | .setDomain => 0
  | .mgrpWrite => 0
  | .mcostWrite => 0
  | .cfloorWrite => 0
  | .opreqWrite => 0
  | .tmigWrite => 0
  | .ctbaseWrite => 0
  | .fwstage => 0
  | .fwact => 0
  | .attout => 0
  | .imgkeyWrite => 0
  | .registerWrite => 0
  | .istatusWrite => 0
  | .hostLinkDown => 0
  | .hostLinkRetrain => 0
  | .jenlinkFlitReceive => 0
  | .jenlinkLinkDown => 0
  | .jenlinkTraining => 0
  | .packageReset => 0
  | .surveyorRestart => 0
  | .debugUnlock => 0
  | .watchdogExpiry => 0
  | .thermalTrip => 0
  | .thermalTripEnd => 0
  | .currentLimit => 0
  | .powerClamp => 0
  | .packageShutdown => 0
  | .tempRefresh => 0
  | .operatingPointChange => 0
  | .rollbackAdvance => 0
  | .vectorLatchAccept => 0
  | .vectorResponseReturn => 0
  | .prefFillReturn => 0
  | .deviceStoreAccepted => 0
  | .yieldExpiry => 0
  | .powerClampRelease => 0
  | .currentLimitRelease => 0
  | .mailboxBadCommand => 0
  | .contourCounterClear => 0

/-- The engine and register checks that hold for a CX of a reserved engine (R69). Its gA and gB are not decoded
(R189); that a reserved code 60 to 63 in either still takes ILLEGAL_INSTR, as R69 has of every register field, is
the model's reading (log 50). -/
def reservedEngineWord (w : W32) : DecodeError :=
  if RegCode.readable (fld 6 w 14) && RegCode.readable (fld 6 w 8) then .reservedEngine else .badRegister

/-- Decoding of one word (R73): total, and rejecting by name. -/
def decode (w : W32) : Decoded :=
  match rawParse w with
  | .error .reservedEngine => .error (reservedEngineWord w)
  | .error e => .error e
  | .ok i =>
    if encode i = w then
      match i.defect with
      | none => .ok i
      | some e => .error e
    else .error .nonZeroField

/-- A word from its four bytes, least significant first (R45, R64). -/
def wordOfBytes (b0 b1 b2 b3 : Byte) : W32 :=
  BitVec.ofNat 32 (b0.toNat + b1.toNat * 0x100 + b2.toNat * 0x10000 + b3.toNat * 0x1000000)

/-- The four bytes of a word, least significant first (R45, R64). -/
def bytesOfWord (w : W32) : List Byte := [fld 8 w 0, fld 8 w 8, fld 8 w 16, fld 8 w 24]

/-- Decoding of bytes: the instruction and the bytes after it. -/
def decodeBytes : List Byte → Except DecodeError (Instr × List Byte)
  | b0 :: b1 :: b2 :: b3 :: rest =>
    match decode (wordOfBytes b0 b1 b2 b3) with
    | .ok i => .ok (i, rest)
    | .error e => .error e
  | _ => .error .truncated

/-- The instruction the decoder reads from a word given as the opcode table numbers its bits; every
bit at or above nbits is 0. The word is laid out as bytes and given to decodeBytes. -/
def decodeTableWord (nbits w : Nat) : Option Instr :=
  match decodeBytes (bytesOfWord (BitVec.ofNat 32 (w % 2 ^ nbits))) with
  | .ok (i, _) => some i
  | .error _ => none

end Sys2Proof
end

