-- ==== Sys2Proof/Machine/Types.lean ====
section
/-!
DEFINITION. The plain data of a thread, of the memory system's caches and TLBs, and of the core record.
Names follow the registers and tables of spec/01, 05, 08, 09 and 14.
-/

namespace Sys2Proof.Machine

/-- The trap causes of R255, in code order from 0x01. -/
inductive Cause where
  | illegalInstr | illegalPrefix | featureAbsent | misaligned | pageFaultLoad | pageFaultStore
  | pageFaultFetch | accessRights | localRange | poison | servePoison | staleHandle | handleState
  | sendRefused | msgTooLarge | loopFault | engineFault | trapInstr | privileged | barrierMisuse
  | capability | tlbRange
  deriving DecidableEq, Repr

/-- The scoreboard states of R26. -/
inductive Sb where
  | ready | pending | armed | arrived
  deriving DecidableEq, Repr

/-- A g or k register with its scoreboard state and re-arm bit (R26), the poison bit with the load
address and PC it reports (R116), and EX and AQ (R174). -/
structure Reg where
  val : Word := 0
  sb : Sb := .ready
  ra : Bool := false
  pb : Bool := false
  pAddr : Word := 0
  pPc : Word := 0
  ex : Bool := false
  aq : Option Scope := none
  deriving DecidableEq, Repr

/-- The fields of STAT and SSTAT (R31). Reserved bits read zero and ignore writes (R5, R32). -/
structure Stat where
  flags : BitVec 5 := 0
  rm : BitVec 2 := 0
  la : Bool := false
  pp : Bool := false
  mode : Bool := false
  deriving DecidableEq, Repr

/-- RANK (R32): generation, package, thread number. -/
structure Rank where
  gen : BitVec 8 := 0
  pkg : BitVec 8 := 0
  thr : BitVec 16 := 0
  deriving DecidableEq, Repr

/-- PARTY (R32). -/
structure PartyId where
  pidx : BitVec 32 := 0
  surv : BitVec 12 := 0
  tidx : BitVec 10 := 0
  nthr : BitVec 10 := 0
  deriving DecidableEq, Repr

/-- INBOX (R32). -/
structure Inbox where
  en : Bool := false
  size : BitVec 4 := 0
  base : BitVec 17 := 0
  deriving DecidableEq, Repr

/-- SRVTABn (R32). -/
structure SrvBind where
  v : Bool := false
  img : BitVec 16 := 0
  sidx : BitVec 4 := 0
  deriving DecidableEq, Repr

/-- A hold latch: the register code and the value read (R25). -/
structure Latch where
  code : RegCode
  val : Word
  deriving DecidableEq, Repr

/-- The refusal record of R179. -/
structure Refused where
  cap : Word
  sub : BitVec 8
  more : BitVec 8
  deriving DecidableEq, Repr

/-- A message in the send buffer (R180, R280): whether it has been transmitted, and whether it came back for want of
room in the target's ring (R182). -/
structure OutMsg where
  id : Nat := 0
  sent : Bool := false
  tried : Bool := false
  cap : Word
  off : Nat
  len : Nat
  deriving DecidableEq, Repr

/-- The outstanding SRV call (R165): its tag and number, the result registers, and what they held (R168). -/
structure SrvCall where
  tag : Nat
  id : Nat := 0
  d : RegCode
  nr : Nat
  old : List Word
  pc : Word
  word : W32
  deriving DecidableEq, Repr

/-- A line read on its way to a requester: line number, the bytes that came by offset, the clock at which they
were read, the stamp of the L2 line they came from, and whether a pool lookup gave them (R293). -/
structure Fill where
  line : Nat
  bytes : Table Byte
  stamp : Nat
  home : Nat := 0
  pool : Bool := false
  deriving DecidableEq, Repr

/-- An outstanding load, AMO or CAS (R109, R115): destination, size and extension, its bytes as far as
they are known, low byte first, with the physical address of each, and the context that translated it (R252). -/
structure Load where
  id : Nat
  dst : RegCode
  sext : Bool
  va : Word
  pc : Word
  bytes : List (Nat × Option Byte)
  poisoned : Bool := false
  slot : Bool := false
  dev : Bool := false
  ctx : Nat := 0
  deriving DecidableEq, Repr

/-- Where a late register value comes from: CXR (R191), TLREAD (R199), TLBPROBE (R253). -/
inductive LateKind where
  | cxr | tlread | tlbprobe
  deriving DecidableEq, Repr

/-- A register value that returns later without a memory access. -/
structure Late where
  kind : LateKind
  dst : RegCode
  val : Word
  deriving DecidableEq, Repr

/-- A request a vector load still waits for (R159), and what came: a line of ordinary memory, or the device
bytes of one lane, which are never merged (R128). -/
structure VReq where
  id : Nat
  line : Nat
  dev : Option Nat := none
  sent : Bool := false
  got : Option Fill := none
  poisoned : Bool := false
  deriving DecidableEq, Repr

/-- A lane of a vector load: lane number, virtual address, its bytes with the physical address of each and, once
known, its value, and whether they lie in device memory. -/
structure VLane where
  lane : Nat
  va : Word
  bytes : List (Nat × Option Byte)
  dev : Bool := false
  poisoned : Bool := false
  deriving DecidableEq, Repr

/-- The vector load in flight of a thread (R145, R158, R159): destination, sign extension and access width
in bytes, the lanes served and the line requests outstanding; a VGATHER.P also answers the mask C and the
fault bits known so far (R162). -/
structure VLoad where
  vd : BitVec 3
  sext : Bool
  width : Nat
  lanes : List VLane
  reqs : List VReq := []
  mask : Option (BitVec 2 × BitVec 32) := none
  deriving DecidableEq, Repr

/-- Where one byte of an access lies. -/
inductive Loc where
  | scratch (key : Nat)
  | mem (pa : Nat)
  | dev (pa : Nat)
  deriving DecidableEq, Repr

/-- A lane, or a field of VLDBIT and VSTBIT, of a vector memory instruction: its number, its address, the first bit of a
field in its bytes, and where those lie (R158, R160). -/
structure VSpot where
  lane : Nat
  va : Word
  bit : Nat := 0
  locs : List Loc
  deriving DecidableEq, Repr

/-- What a vector memory instruction does to memory (R158 to R162): a load, whose lanes are not filled in yet; a store, with
the bytes of each lane; the fields of VLDBIT (destination, sign extension, bits) and of VSTBIT (bits, values). -/
inductive VWork where
  | load (v : VLoad)
  | store (data : List (List Byte))
  | loadBits (vd : BitVec 3) (sext : Bool) (n : Nat)
  | storeBits (n : Nat) (vals : List Nat)
  deriving DecidableEq, Repr

/-- A vector memory instruction in its core's request latch (R144, R385): what it does once the vector unit accepts it,
where, and what its source registers were before it issued. -/
structure VOp where
  work : VWork
  spots : List VSpot
  back : List (Nat × Reg)
  deriving DecidableEq, Repr

/-- What a thread waits for (R13, R108, R145, R164). Each is a condition that State.waitOver examines,
or one that the named event clears. -/
inductive Wait where
  | none
  | reg (c : RegCode)                     -- a scoreboard state (R27)
  | loads                                 -- outstanding loads to return (R119, R126)
  | slots                                 -- one of the 8 response slots (R115)
  | sends                                 -- no send outstanding (R179)
  | fetch (line : Nat)                    -- INSTRUCTION_FETCH_FILL (R388)
  | walk (ctx page : Nat)                 -- PAGE_WALK_COMPLETE (R108)
  | releaseAck                            -- RELEASE_COMPLETE (R119)
  | acquire (sc : Scope) (after : Bool)   -- ACQUIRE_COMPLETE (R119), inside an instruction or after it
  | acqLoad (id : Nat) (sc : Scope)       -- the loaded value of an acquiring load (R119)
  | consume (c : RegCode) (sc : Scope)    -- ACQUIRE_COMPLETE before a consumption (R177)
  | vlatch                                -- the core's vector request latch (R144)
  | vector                                -- the vector instruction's completion (R145)
  | srv                                   -- SRV_RESULT_WRITEBACK (R166)
  | timeline (eng : Nat) (ctx : Nat) (target : Nat)   -- TLWAIT (R198)
  | handle (idx gen : Nat) (mask : BitVec 4)          -- HWAIT, HFREE, CX (R203, R204)
  | handles (idx gen : Nat) (mask : BitVec 4) (idx2 gen2 : Nat) -- CX, the generation of its other handle watched (R203)
  | room (eng : Nat) (ctx : Nat)          -- 16 uncompleted commands (R190)
  | ring                                  -- a message in the inbox (R183)
  | sendBuf                               -- room in the send buffer (R180)
  | sleep (deadline : Nat)                -- SLEEP_EXPIRY (R187)
  | wfi                                   -- an event of R250
  | barrier (episode : Nat)               -- the barrier episode opens (R184)
  | device                                -- a device load (R128)
  | devStore                              -- a device store accepted (R128)
  | migpt                                 -- a requested migration (R188)
  | escalated                             -- the Surveyor's answer (R270)
  | tlbinv (ctx mark : Nat)               -- TLBINV_COMPLETE (R252); accesses numbered below mark came before it
  | hints                                 -- CLWB and CLINV whose walk has not returned (R127)
  deriving DecidableEq, Repr

/-- How far a thread is inside an instruction that works in several phases: its release done (R119),
its acquire done, its barrier arrival made (R184), its send or message entered (R175, R180), or restored
after that send, with the synchronising step still to do (R277). -/
inductive Phase where
  | fresh | released | acquired | arrived (episode : Nat) | sent | resumed
  deriving DecidableEq, Repr

/-- The status of a thread place, as the plat and R12, R270 give it. -/
inductive TStatus where
  | free | running | ended
  deriving DecidableEq, Repr

/-- A thread record: everything R29 to R43 give a thread, and what chapters 05 to 13 add. -/
structure Thread where
  place : Nat := 0
  pid : Nat := 0
  status : TStatus := .free
  regs : Vector Reg 56 := Vector.replicate 56 {}
  z0 : Word := 0
  z1 : Word := 0
  v : Vector (Vector W32 32) 8 := Vector.replicate 8 (Vector.replicate 32 0)
  q : Vector W32 3 := Vector.replicate 3 0
  pc : Word := 0
  stat : Stat := {}
  sstat : Stat := {}
  ecause : Byte := 0
  epc : Word := 0
  eval1 : Word := 0
  eval2 : Word := 0
  tvec : Word := 0
  hscr : Word := 0
  reqf : BitVec 6 := 0
  fidmax : BitVec 2 := 0
  rank : Rank := {}
  party : PartyId := {}
  migcnt : Word := 0
  ctx : BitVec 16 := 0
  inbox : Inbox := {}
  wpos : BitVec 16 := 0
  rpos : BitVec 16 := 0
  heldMsg : Option Nat := none
  lcnt : Word := 0
  lstart : Word := 0
  lend : Word := 0
  srvtab : Vector SrvBind 16 := Vector.replicate 16 {}
  latchA : Option Latch := none
  latchB : Option Latch := none
  loopBuf : Table W32 := []
  pfx : W32 := 0
  pfxShadow : W32 := 0
  sends : Nat := 0
  refused : Option Refused := none
  sendBuf : List OutMsg := []
  srvSeq : BitVec 6 := 0
  srvCall : Option SrvCall := none
  loads : List Load := []
  late : List Late := []
  vop : Option VOp := none
  vload : Option VLoad := none
  devStore : Bool := false
  devCtx : BitVec 16 := 0
  pfloor : Nat := 0
  lfloor : Nat := 0
  wait : Wait := .none
  phase : Phase := .fresh
  /-- The word of the instruction in flight (R19): it is not fetched again while the thread waits in it. -/
  held : Option W32 := none
  walkFails : List (Nat × Nat) := []
  leftAt : Nat := 0
  yields : List Nat := []
  yieldAt : Nat := 0
  migReq : Bool := false
  moving : Bool := false
  halt : Bool := false
  deriving DecidableEq, Repr

/-- A cache line (R291, R295): line number (physical address / 64), its valid bytes by offset with the
dirty mark of each, fill stamp, the fill stamp of the L2 line its clean bytes came from (log 65), its way in
a cache portion, the slots that wrote its dirty bytes and the contexts under which they did (R252), the core whose portion it came from (its own core, unless it is a pool line),
and the clock of its first dirtying (R300). -/
structure Line where
  no : Nat
  bytes : Table (Byte × Bool) := []
  stamp : Nat := 0
  home : Nat := 0
  way : Nat := 0
  writers : List Nat := []
  ctxs : List Nat := []
  owner : Nat := 0
  since : Nat := 0
  deriving DecidableEq, Repr

/-- Who waits for a missing line of an L2 slice (R296): an outstanding load, a vector load request, a
prefetch into a portion, nobody (PREF.L2), or bytes of a store. -/
inductive Waiter where
  | load (place id : Nat)
  | vload (place id : Nat)
  | pref (core : Nat)
  | none
  | store (bytes : Table Byte)
  deriving DecidableEq, Repr

/-- A miss-status register with its waiter list, in arrival order (R296). -/
structure Mshr where
  line : Nat
  waiters : List Waiter
  deriving DecidableEq, Repr

/-- Page sizes of R307 and R308, by the code of R253. -/
inductive PageSize where
  | k64 | m2 | m512 | t4
  deriving DecidableEq, Repr

/-- A translation: page number of its own size, physical base, attributes (R307, R310). -/
structure TlbEntry where
  ctx : Nat
  size : PageSize
  page : Nat
  pa : Nat
  w : Bool
  u : Bool
  dev : Bool
  x : Bool
  deriving DecidableEq, Repr

/-- Who waits for a page walk (R312): a thread's access, a VGATHER.P lane (a fault marker on the tile
on failure), a prefetch hint (core, line byte address, write the portion, mode), a line hint, the streamers, ports and
Surveyor of the die. -/
inductive WalkFor where
  | thread (place : Nat)
  | marker (core : Nat) (sup : Bool)
  | pref (core : Nat) (va : Nat) (portion : Bool) (sup : Bool)
  | hint (core : Nat) (va : Nat) (inval : Bool) (sc : Scope) (sup : Bool)
  | unit
  deriving DecidableEq, Repr

/-- A walk-merge entry (R312): context, 64 KiB page, requesters, and whether an invalidation made the
walk stale (R313). -/
structure Walk where
  ctx : Nat
  page : Nat
  reqs : List WalkFor
  stale : Bool := false
  deriving DecidableEq, Repr

/-- An entry of the page-walk cache: context, level (1 or 2), virtual prefix, next table (R312). -/
structure PwcEntry where
  ctx : Nat
  level : Nat
  pfxNo : Nat
  table : Nat
  deriving DecidableEq, Repr

/-- An instruction-cache line: line number, 16 words, fill stamp (R388), and that of the L2 line it came from
(log 65). -/
structure ILine where
  no : Nat
  words : List W32
  stamp : Nat
  home : Nat := 0
  deriving DecidableEq, Repr

/-- A fault marker of a tile (R162): context and 64 KiB page. -/
structure FaultMark where
  ctx : Nat
  page : Nat
  deriving DecidableEq, Repr

/-- The handle states of R200. -/
inductive HState where
  | free | filling | full | draining
  deriving DecidableEq, Repr

/-- A handle-table entry (R200). -/
structure Handle where
  st : HState := .free
  gen : Nat := 1
  off : Nat := 0
  size : Nat := 0
  discard : Nat := 0
  deriving DecidableEq, Repr

end Sys2Proof.Machine
end

