-- ==== Sys2Proof/Machine/EngineTypes.lean ====
section
/-!
DEFINITION. The plain data of the engines (R189 to R224), of the contour array's client state (R213,
R328, R329) and of a cluster's fabric (R225 to R244, R314 to R327).
-/

namespace Sys2Proof.Machine

/-- How a command ended (R195, R196). -/
structure CmdEnd where
  code : Nat := 0
  detail : Nat := 0
  flags : BitVec 5 := 0
  sat : Bool := false
  clamped : Bool := false
  fapp : Nat := 0
  deriving DecidableEq, Repr

/-- A row of a copy: its distance from the destination in bytes, the width of its elements, and them, none where
poisoned (R208). -/
structure CopyRow where
  off : Nat
  width : Nat
  elems : List (Option Nat)
  deriving DecidableEq, Repr

/-- A command of a context (R190): number, command code (31 for TLADV), scope code, its handles (0 none),
the register snapshot with a resolved destination, and what it carries of the issuing thread: mode (R211),
place, party, translation context, survey and fidelity ceiling. The copy a follow-on waits for is named
by context and number (R212). A command is started, its last byte lands, its outcome is fixed (ended), and
it completes (done), waiting then only for the commands before it (R197). A tensor copy keeps the words
of its layout record under the keys 32 to 39 once it has read them (R207). A copy whose destination's core moves holds
what it has read, with the flags of its conversion (R287, R386). -/
structure Cmd where
  num : Nat
  code : Nat
  scope : Nat := 0
  src : Nat := 0
  dst : Nat := 0
  regs : Table Word := []
  sup : Bool := false
  place : Nat := 0
  pid : Nat := 0
  ctxid : Nat := 0
  surv : Nat := 0
  fidmax : Nat := 0
  order : Nat := 0
  after : Option (Nat × Nat) := none
  started : Bool := false
  landed : Bool := false
  held : Option (List CopyRow × BitVec 5) := none
  ended : Option CmdEnd := none
  done : Bool := false
  deriving DecidableEq, Repr

/-- An engine context (R193, R194). -/
structure EngCtx where
  regs : Table Word := []
  count : Nat := 0
  nextn : Nat := 1
  tlFirst : Nat := 0
  tlFlags : BitVec 5 := 0
  tlWorst : Nat := 0
  cstat : Word := 0
  queue : List Cmd := []
  deriving DecidableEq, Repr

/-- A plane buffer (R328, R282): the format, K and N of its latest LDW, the tiles loaded, the digit of
each contour cell (bit 0 select, bit 1 sign; contour x 32768 + 64k + n, contours 8 to 10 for the
extension registers of 5 to 7), and the segment words (weight sum and exponent by 1024t + 16n + s).
A non-finite column segment is marked (R60), and a tile whose weights were read poisoned (R222). -/
structure PlaneBuf where
  wfmt : Nat := 0
  k : Nat := 0
  n : Nat := 0
  loaded : List Nat := []
  digits : Table Nat := []
  sums : Table Int := []
  exps : Table Int := []
  nonfinite : List Nat := []
  poisoned : List Nat := []
  deriving DecidableEq, Repr

/-- A half of the operand latch (R329): activation format, rows and the row bytes: 64 rows of 512
activations of w bytes, byte b of a row at 512 x w x row + b. -/
structure LatchHalf where
  afmt : Nat := 0
  m : Nat := 0
  bytes : List Host.Cell := []
  poisoned : List Nat := []
  deriving DecidableEq, Repr

/-- The contour array's contents as a save keeps them (R282, R286): the client's place in the placement and
its context, plane buffers and latch halves. -/
structure Contour where
  core : Nat
  ctx : Nat
  buf0 : PlaneBuf
  buf1 : PlaneBuf
  half0 : LatchHalf
  half1 : LatchHalf
  deriving DecidableEq, Repr

/-- A client of the contour array (R213). -/
structure Client where
  core : Nat
  ctx : Nat
  pid : Nat
  deriving DecidableEq, Repr

/-- A fabric token (R225). The model's own field run names the RUN of its cluster that a contribution is of, 0 for any
other token (R217, R382). -/
structure Token where
  data : W32 := 0
  mark : Nat := 0
  psn : Bool := false
  tag : BitVec 16 := 0
  run : Nat := 0
  deriving DecidableEq, Repr

/-- The caller of a serve call as its SRV left it (R165, R237): its place and core, the number of its call, its
placement, translation context and mode. -/
structure Caller where
  place : Nat := 0
  core : Nat := 0
  id : Nat := 0
  cores : List Nat := []
  ctx : Nat := 0
  sup : Bool := false
  deriving DecidableEq, Repr

/-- A result that an EXT sends back (R166, R168, R169, R240): the tag and the number of the call, the result words,
and the origin of its poison. -/
structure Back where
  tag : BitVec 16
  id : Nat := 0
  words : List Word
  poison : Option W32 := none
  deriving DecidableEq, Repr

/-- The pairing that R230 leaves open after a marker on some operands only: what the firing held back for
each destination, for the completion of an STP or for a caller, the highest marker so far, and the queues
still to be discarded up to a marker. -/
structure Resync where
  emits : List (Nat × Token) := []
  push : Option Token := none
  back : Option Back := none
  tag : BitVec 16 := 0
  mark : Nat
  queues : List Nat
  deriving DecidableEq, Repr

/-- An element of a resident region: its configuration record (R232), state, queues, sticky fields, the
origin of an accumulator's poison, the nest of an AG (R236: indexes, the token that started it, whether an
AG without operand has begun, its last marker), and the accesses in flight of an LDP or STP (R237, R238:
address tokens, or completion tokens). -/
structure Elem where
  conf : List Word := []
  s0 : W32 := 0
  s1 : W32 := 0
  queues : List (List Token) := [[], [], [], []]
  mismatch : Nat := 0
  flags : BitVec 5 := 0
  sat : Bool := false
  poisoned : Bool := false
  origin : W32 := 0
  ends : Nat := 0
  resync : Option Resync := none
  nest : Option (List Nat) := none
  nestTok : Token := {}
  nestBegun : Bool := false
  nestMark : Nat := 0
  flight : List Token := []
  deriving DecidableEq, Repr

/-- A serve-call packet (R165): tag, argument words, n_r and the caller. -/
structure Packet where
  tag : BitVec 16
  args : List Word
  nr : Nat
  caller : Caller
  deriving DecidableEq, Repr

/-- A packet waiting at a region's edge or for the region to load (R165, R326): image, region index within
it, survey, server's ENT position (64 x row + column), the packet, and whether its token is paid for (R324). -/
structure EdgePacket where
  img : Nat
  ridx : Nat
  surv : Nat
  ent : Nat
  pkt : Packet
  paid : Bool := false
  deriving DecidableEq, Repr

/-- A transfer of tokens offered at an edge port (R324, R325): the port, the tokens still to enter, how many of them
are already paid for, the command that offers them (core, context key, number), and, for launch seeds, the party
they are of (R319). -/
structure Offer where
  port : Nat
  toks : List Token
  paid : Nat := 0
  cmd : Option (Nat × Nat × Nat) := none
  owner : Option Nat := none
  deriving DecidableEq, Repr

/-- The stages of a region in the fabric (R317, R318). -/
inductive RStage where
  | loading | resident | stopped
  deriving DecidableEq, Repr

/-- A region in a cluster's fabric: image, index within it, survey, owner party and the context and place
it was loaded for (R237, R275), base column, its record's words, its elements by 64 x row + column, the
sticky LENGTH flag (R230), the fault edge (R242), offered tokens, tags in flight with their callers, the clock it was
last served (R317), balances of R324 with the clock of their last refill, waiting ports, the last marker injected at
each port, whether a stop has been asked for, when a kill asked (R353), and whether it has frozen injection (R327),
since when the fault edge waits for a handler (R274), and, by band, the contributions that its CAI still has to send,
each with the position of its node (R240, R242). -/
structure Region where
  img : Nat
  ridx : Nat
  surv : Nat
  owner : Option Nat := none
  ctxid : Nat := 0
  place : Nat := 0
  stage : RStage := .loading
  base : Nat := 0
  words : List Word := []
  elems : Table Elem := []
  length : Bool := false
  edge : List Token := []
  offers : List Offer := []
  tags : List (BitVec 16 × Caller) := []
  served : Nat := 0
  bal : List Nat := [0, 0, 0, 0]
  balAt : Nat := 0
  waits : Table Nat := []
  lastMark : Table Nat := []
  asked : Bool := false
  askedAt : Nat := 0
  frozen : Bool := false
  absentSince : Option Nat := none
  caiHeld : Table (List (Nat × Token)) := []
  deriving DecidableEq, Repr

/-- A request to make a region resident (R317), in order of arrival: the launch seeds to offer, a transfer for each
party (R319, R325), and the region a restore brings back (R286). -/
structure RegionReq where
  img : Nat
  ridx : Nat
  surv : Nat
  owner : Option Nat := none
  ctxid : Nat := 0
  place : Nat := 0
  seeds : List (Nat × List Token) := []
  back : Option Region := none
  deriving DecidableEq, Repr

/-- A configuration-cache entry (R316): image handle, region index, the record's words, the clock it was
last made resident. -/
structure CfgEntry where
  img : Nat
  ridx : Nat
  words : List Word
  used : Nat := 0
  deriving DecidableEq, Repr

/-- Metering values of a region of an image (R323): per group EN, DEPTH, REFILL, and costs by port. -/
structure Meter where
  groups : List (Bool × Nat × Nat) := [(false, 0, 0), (false, 0, 0), (false, 0, 0), (false, 0, 0)]
  costs : Table Nat := []
  deriving DecidableEq, Repr

/-- The Surveyor's fault log of a region (R274). -/
structure FaultLog where
  count : Nat := 0
  toks : List Token := []
  absent : Bool := false
  deriving DecidableEq, Repr

/-- A contour rail (R333): a change settling, the fidelity served, the setpoint in mV. -/
structure Rail where
  settling : Bool := false
  fapp : Nat := 0
  setpt : Nat := 750
  deriving DecidableEq, Repr

/-- An error the environment makes in a contour's row operation (R335, log 15): row, contour, second
pass, column, segment, what it adds to S, and how many replays fail in turn. -/
structure CErr where
  row : Nat
  contour : Nat
  second : Bool
  col : Nat
  seg : Nat
  delta : Int
  refail : Nat
  deriving DecidableEq, Repr

/-- A cluster's fabric and contour array: the configuration cache, regions by resident index (R383), region
requests, packets and results on their way, the contour array's claim and the party that held it last
(R213), the RUN whose contributions are still being added, its number and whether one clamped (R217, R382), plane
buffers and latch halves, error counters (R220), rails and their floor, metering settings, fault logs, and
the errors the environment makes (log 15). -/
structure Cluster where
  cfg : List CfgEntry := []
  regions : Table Region := []
  reqs : List RegionReq := []
  packets : List EdgePacket := []
  backs : List Back := []
  claim : Option Client := none
  lastPid : Option Nat := none
  run : Option (Nat × Nat × Nat) := none
  runs : Nat := 0
  runSat : Bool := false
  buf0 : PlaneBuf := {}
  buf1 : PlaneBuf := {}
  half0 : LatchHalf := {}
  half1 : LatchHalf := {}
  ecnt : List Nat := [0, 0, 0, 0, 0, 0, 0, 0]
  cfloor : Nat := 750
  rails : List Rail := [{}, {}, {}, {}, {}, {}, {}, {}]
  meters : Table Meter := []
  logs : Table FaultLog := []
  cerrs : List CErr := []
  deriving DecidableEq, Repr

end Sys2Proof.Machine
end

