-- ==== Sys2Proof/Machine/HostTypes.lean ====
section
/-!
DEFINITION. The plain data of launch (R340 to R353), of the host attachment, Jenlink and images (R354 to
R370), and of power, firmware and identity (R371 to R379).
-/

namespace Sys2Proof.Machine

/-- A dependence of a survey (R343, R347, R348): kind (1 completion, 2 trigger), counter, value, and
whether it has become satisfied. -/
structure Dep where
  kind : Nat
  ctr : Nat
  val : Nat
  met : Bool := false
  deriving DecidableEq, Repr

/-- A survey (R343): header fields, seeds, capability key (R171), how far its parties are bound, triggered
and ended, its worst status (R345) and first trap, its ageing (R349), whether it is being killed, and whether
parties of it were given up before they started (R17). -/
structure Survey where
  img : Nat := 0
  nthr : Nat := 1
  cls : Nat := 0
  prio : Nat := 0
  fidmax : Nat := 0
  seedMode : Nat := 0
  runOnCancel : Bool := false
  nparty : Nat := 1
  ctxid : Nat := 0
  cctr : Nat := 0
  req : BitVec 6 := 0
  cval : Nat := 0
  deps : List Dep := []
  shared : List Word := []
  queue : Nat := 0
  key : List Byte := []
  bound : Nat := 0
  triggered : Nat := 0
  ended : Nat := 0
  worst : Nat := 0
  age : Nat := 0
  since : Nat := 0
  killed : Bool := false
  dropped : Bool := false
  deriving DecidableEq, Repr

/-- A launch queue (R340): its FIFO of tokens of eight words, the flags of QSTAT, QERR, the ageing limit,
the seed tokens the survey being written still lacks, whether it lost one or is to be consumed unread
(R341, R344, R353), the accepted survey that still has parties to bind, and the commands that wait for a
kill (R352). -/
structure Queue where
  fifo : List (List Word) := []
  stopped : Bool := false
  killing : Bool := false
  overrun : Bool := false
  ovcause : Nat := 0
  nref : Nat := 0
  code : Nat := 0
  limit : Nat := 0
  expect : Nat := 0
  lost : Bool := false
  unread : Bool := false
  active : Option Nat := none
  cmds : List Nat := []
  deriving DecidableEq, Repr

/-- A launch timeline counter (R345), and whether a trap has been recorded since LSTAT was last cleared. -/
structure Counter where
  val : Nat := 0
  trig : Nat := 0
  worst : Nat := 0
  tcause : Byte := 0
  trank : BitVec 24 := 0
  seen : Bool := false
  deriving DecidableEq, Repr

/-- The states of a plat entry (R350). -/
inductive PState where
  | free | bind | run | held | stop
  deriving DecidableEq, Repr

/-- A plat entry (R350). -/
structure Plat where
  st : PState := .free
  gen : BitVec 8 := 0
  rank : BitVec 24 := 0
  surv : Nat := 0
  cls : Nat := 0
  tidx : Nat := 0
  pidx : Nat := 0
  nthr : Nat := 0
  img : Nat := 0
  pc : Nat := 0
  seed : List Word := []
  deriving DecidableEq, Repr

/-- A virtual core of an image (R367): entry and trap entry as addresses (none when it names none), and
its scratchpad split. -/
structure VCore where
  entry : Nat
  trapEntry : Option Nat
  lmsplit : Nat
  deriving DecidableEq, Repr

/-- A channel of an image (R367). -/
structure Channel where
  sender : Nat
  receiver : Nat
  inbox : Bool
  field : Nat
  deriving DecidableEq, Repr

/-- An entry of the image table (R358): generation, the host that entered it, and, when it is in use,
what the loader read from the image, with the physical address where its region records begin (R316). -/
structure Image where
  gen : Nat := 1
  used : Bool := false
  removing : Bool := false
  host : Nat := 0
  base : Nat := 0
  reqf : BitVec 6 := 0
  vcores : List VCore := []
  channels : List Channel := []
  selectors : List (Bool × Nat) := []
  regions : List (List Word) := []
  recordsAt : Nat := 0
  deriving DecidableEq, Repr

/-- A host's mailbox and interrupt registers (R357, R360); its MSI-X table entry (address; data with the vector
control above), pending bit and the messages sent, each an address and its data (R360); whether its link is up
(R355). -/
structure HostPort where
  cw : List Word := [0, 0, 0, 0, 0, 0, 0, 0]
  rw : List Word := [0, 0, 0, 0, 0, 0, 0, 0]
  submitted : Bool := false
  istatus : BitVec 64 := 0
  ienable : BitVec 64 := 0
  msix : List (Word × Word) := []
  vector : List Word := [0, 0x100000000]
  pending : Bool := false
  linkUp : Bool := true
  deriving DecidableEq, Repr

/-- A Jenlink port (R362 to R366): JLSTAT's fields, whether its link has been lost since the mask was installed (R364), the next link sequence numbers, the replay buffer's
flits, every flit sent on the wire, oldest first, the loss count, the bytes received of a message whose rest has not
come, by package and class, and the management payloads received. -/
structure JPort where
  up : Bool := false
  lost : Bool := false
  major : Nat := 0
  minor : Nat := 0
  feat : W32 := 0
  txSeq : BitVec 32 := 0
  rxSeq : BitVec 32 := 0
  replay : List (List Byte) := []
  wire : List (List Byte) := []
  lossCount : Nat := 0
  parts : Table (List Byte) := []
  received : List (List Byte) := []
  deriving DecidableEq, Repr

/-- A core's operating-point request (R372). -/
structure OpReq where
  hinten : Bool := false
  floor : Nat := 7
  req : Nat := 7
  deriving DecidableEq, Repr

/-- A tile's operating state (R372, R374, R376). -/
structure TilePower where
  temp : Nat := 45
  trip : Bool := false
  limit : Bool := false
  point : Nat := 7
  fsafe : Nat := 7
  migAt : Option Nat := none
  deriving DecidableEq, Repr

/-- Thermal migration policy of a cluster (R376). -/
structure TMig where
  en : Bool := false
  thresh : Nat := 100
  persist : Nat := 1000
  deriving DecidableEq, Repr

/-- A firmware slot (R377). -/
structure FwSlot where
  version : Nat := 0
  valid : Bool := false
  image : List Byte := []
  deriving DecidableEq, Repr

/-- What manufacture gives a package (R377 to R379): part number and serial, the identity key pair and its certificate,
the attestation's private key, the key of the identity chain that signs debug tokens, and the fused digest of the
firmware key. -/
structure Identity where
  part : Nat := 0
  serial : Nat := 0
  publicKey : List Byte := []
  privateKey : List Byte := []
  certificate : List Byte := []
  attestKey : List Byte := []
  chainKey : List Byte := []
  fusedDigest : List Byte := []
  deriving DecidableEq, Repr

/-- Firmware, identity and debug (R377 to R379, R359). -/
structure Firmware where
  identity : Identity := {}
  slotA : FwSlot := { version := 1, valid := true }
  slotB : FwSlot := {}
  activeB : Bool := false
  staged : Bool := false
  rollback : Nat := 0
  fwaddr : Word := 0
  fwlen : Word := 0
  attnonce : Word := 0
  attout : Word := 0
  keys : List (List Byte) := [[], [], [], []]
  keyAddr : List Word := [0, 0, 0, 0]
  require : Bool := false
  unlocked : Bool := false
  debugOut : List Byte := []
  restartAt : Nat := 0
  deriving DecidableEq, Repr

/-- Why a party stops (R275). -/
inductive StopKind where
  | save | migrate
  deriving DecidableEq, Repr

/-- A party's stop (R275, R276) or save under way: kind; save area, its size, the cursor (R284) and the sequence
number; the thread index that moves alone and its target place, or the cores a placement moves to (R287); the
places of the threads whose MIGRATE services it answers (R271); whether the threads have been told to stop,
everything has stopped, and a fault or an overflow holds the save. -/
structure Stop where
  kind : StopKind
  area : Nat := 0
  size : Nat := 0
  cursor : Nat := 0
  seq : Nat := 0
  tidx : Option Nat := none
  target : Nat := 0
  cores : List Nat := []
  services : List Nat := []
  begun : Bool := false
  stopped : Bool := false
  faulted : Bool := false
  overflow : Bool := false
  deriving DecidableEq, Repr

/-- A saved party (R283): its area, class, context, survey, index, thread numbers by index (65536 for one that has ended) and the cores it
left, what a save area has no place for (commands' issuing fields, commands that have completed and that the counter has not
passed, the region records, marks of the contour array, what the poisoned registers of each thread report, and the plat
entry of each thread: log 46), and the cores a restore under way brings it to (R286). -/
structure Saved where
  area : Nat
  size : Nat
  cls : Nat
  ctx : Nat
  surv : Nat
  pidx : Nat
  thrs : List Nat
  plats : List Plat := []
  cores : List Nat := []
  ctxs : List (Table EngCtx) := []
  regions : List Region := []
  contour : Option Contour := none
  poisons : List (Table (Word × Word)) := []
  restoring : List Nat := []
  deriving DecidableEq, Repr

end Sys2Proof.Machine
end

