-- ==== Sys2Proof/Machine/State.lean ====
section
/-!
DEFINITION. The state of the machine as plain data, the reasons a step can stop, and the state after
reset (R379). Tables list only what differs from a default that the accessor names, so one State holds
4,096 cores, 65,536 thread places, 64 clusters and 4 dies.
-/

namespace Sys2Proof.Machine

/-- Why the machine stops. -/
inductive Fault where
  /-- The package has shut down (R374) and nothing of it moves until a reset. Raised by step alone.
  Safe: no state follows. -/
  | shutDown
  deriving DecidableEq, Repr

/-- Why an instruction has no meaning. -/
inductive Refusal where
  /-- Raised by an arm of exec for an instruction that is not modelled yet. Safe: no state follows. -/
  | notModelled (mnemonic : String)
  deriving DecidableEq, Repr

/-- What an event of the opcode table concerns: the operands that the row's prose names. -/
structure EvArgs where
  /-- A thread place: package core x 16 + slot (R9). -/
  p : Nat := 0
  /-- A position in a list, a region index, an element index or a counter number. -/
  k : Nat := 0
  e : Nat := 0
  /-- A core, die, tile, cluster, port, host, queue or party, as the event says. -/
  n : Nat := 0
  m : Nat := 0
  reg : RegCode := 0
  v : Word := 0
  w : Word := 0
  words : List Word := []
  bytes : List Byte := []
  nums : List Nat := []
  yes : Bool := false
  deriving DecidableEq, Repr

/-- What moves next when the agenda names it: a core issues, or an event happens. -/
inductive Turn where
  | core (c : Nat)
  | event (i : Instr) (a : EvArgs)
  deriving DecidableEq, Repr

/-- The states of a gazetteer entry (R178). -/
inductive GState where
  | dead | valid | inTransit | absent
  deriving DecidableEq, Repr

/-- A gazetteer entry (R178). -/
structure GazEntry where
  st : GState := .dead
  gen : BitVec 8 := 0
  acks : Nat := 0
  place : Nat := 0
  save : Nat := 0
  refused : Option Refused := none
  deriving DecidableEq, Repr

/-- A message between network interfaces (R175 to R182): a register send, an inbox message, or an
acknowledgement (a refusal carries the capability and the sub-cause), with the capability of the message it answers
and whether that one came from a send buffer. Each names the endpoint it was sent from
(R303): a core, a gazetteer slice as 4096 + die, or a Jenlink port as 8192 + port. -/
inductive Msg where
  | send (cap val : Word) (src : BitVec 24) (entry : Option Nat) (node : Nat)
  | chan (cap : Word) (src : BitVec 24) (payload : List Byte) (entry : Nat) (node : Nat)
  | ack (dst : BitVec 24) (refused : Option (Word × BitVec 8)) (node : Nat) (cap : Word) (buffered : Bool)
  deriving DecidableEq, Repr

/-- An escalation record (R270) with the thread place it came from; fatal when a user trap found no
handler or the cause is no service (R37, R272); asked once a host has been asked or a move has begun (R271). -/
structure Escalation where
  place : Nat
  cause : Cause
  pc : Word
  e1 : Word
  e2 : Word
  fatal : Bool
  asked : Bool := false
  deriving DecidableEq, Repr

/-- A party (R7 to R17): its survey and index, thread count, placement class, placement cores in
placement order as package core numbers, whether it has started (R16), trigger, whether a thread of it was trap-terminated, it was
cancelled (R353), or it is being killed (R272, R353), when it was bound, the contour array's contents it
restores with its next claim (R286), barrier episode and arrivals
(R184), and the threads that have ended. -/
structure Party where
  surv : Nat := 0
  pidx : Nat := 0
  nthr : Nat := 1
  cls : Nat := 0
  cores : List Nat := []
  started : Bool := false
  triggered : Bool := false
  trapped : Bool := false
  cancelled : Bool := false
  killed : Bool := false
  boundAt : Nat := 0
  contour : Option Contour := none
  episode : Nat := 0
  arrived : List Nat := []
  gone : List Nat := []
  deriving DecidableEq, Repr

/-- A core's record (R30, R33, R18, R388, R291, R127, R144, R200). Its own fields pf and lf are floors below
which no clean byte is used on it, raised by the releases of its threads, and wrote lists by physical address when a
byte that it wrote last left it (log 65). -/
structure Core where
  feat : BitVec 6 := 0x3F
  lmsplit : BitVec 4 := 0
  gpool : Bool := false
  icache : List ILine := []
  portion : List Line := []
  prefs : List (Nat × Bool) := []
  pf : Nat := 0
  lf : Nat := 0
  wrote : Table Nat := []
  vlatch : Option Nat := none
  handles : Table Handle := []
  ctxs : Table EngCtx := []
  deriving DecidableEq, Repr

/-- The machine. -/
structure State where
  /-- The thread that issues, or that an event concerns. -/
  th : Thread := {}
  /-- Every other thread record, by place. -/
  others : Table Thread := []
  cores : Table Core := []
  /-- The slot that issued last on each core (R18); unlisted 15. -/
  lastSlot : Table Nat := []
  parties : Table Party := []
  /-- Main memory by physical address (the LPDDR for the package's own), the LLC's lines of each bank with their
  dirty bytes, scratchpads by core x 2^17 + offset (R291, R297, R298). -/
  mem : List Host.Cell := []
  llc : Table (List Line) := []
  memPoison : List Nat := []
  scratch : List Host.Cell := []
  scratchPoison : List Nat := []
  /-- L2 lines, miss-status registers, walk-merge entries, miss queue of the die TLB and page-walk cache of each
  die; the pages of a die's failed walks that its units have still to be told of (R312); the ingress queue of each slice by die x 256 + slice, its first 64 entries queued and the rest deflected
  (R296); the floor that releases have set for a die's L2 (log 65); the context entries in use (R306). -/
  l2 : Table (List Line) := []
  mshrs : Table (List Mshr) := []
  ingress : Table (List (Nat × Waiter)) := []
  dieLf : Table Nat := []
  walks : Table (List Walk) := []
  walkQueue : Table (List Walk) := []
  walkFails : Table (List FaultMark) := []
  pwc : Table (List PwcEntry) := []
  ctxRoots : Table Nat := []
  /-- Micro, tile, cluster and die TLBs, and fault markers of each tile (R310, R162). -/
  utlb : Table (List TlbEntry) := []
  ttlb : Table (List TlbEntry) := []
  ctlb : Table (List TlbEntry) := []
  dtlb : Table (List TlbEntry) := []
  marks : Table (List FaultMark) := []
  /-- Gazetteer by thread number, hold buffers by die, messages in flight (R178, R176). -/
  gaz : Table GazEntry := []
  hold : Table (List Msg) := []
  flight : List Msg := []
  escal : List Escalation := []
  /-- CTBASE (R306): enable and address. -/
  ctbaseEn : Bool := false
  ctbase : Nat := 0
  /-- Clusters (R314, R328), the launch machinery of the primary Surveyor (R340 to R351). -/
  clusters : Table Cluster := []
  queues : Table Queue := []
  surveys : Table Survey := []
  counters : Table Counter := []
  plat : Table Plat := []
  images : Table Image := []
  /-- The core of each tile whose vector latch was taken last (R144). -/
  lastServed : Table Nat := []
  /-- The queue that bound last at each effective priority (R349); unlisted 63. -/
  bindServed : Table Nat := []
  launched : Bool := false
  stops : Table Stop := []
  /-- Migrations that wait until one of the same party is over (R289). -/
  moveQueue : List (Nat × Stop) := []
  savedAreas : Table Saved := []
  saveSeq : Nat := 0
  /-- Hosts and Jenlink (R354 to R366). -/
  hosts : Table HostPort := []
  ports : Table JPort := []
  pkgNo : BitVec 8 := 0
  planes : BitVec 24 := 0
  domainSet : Bool := false
  /-- Messages handed to Jenlink whose acknowledgement has not come (R179, R364). -/
  outbound : List Msg := []
  /-- Power, limits and firmware (R371 to R379). -/
  opreq : Table OpReq := []
  tiles : Table TilePower := []
  tmig : Table TMig := []
  clamp : Bool := false
  watchdog : Bool := false
  firmware : Firmware := {}
  shutDown : Bool := false
  /-- The model's own fields: log 3, 4 and 5. -/
  ev : EvArgs := {}
  agenda : List Turn := []
  eventTurn : Nat := 0
  round : List Nat := []
  clock : Nat := 0
  tick : Nat := 0
  serial : Nat := 0
  deriving DecidableEq, Repr

/-- The machine right after reset (R379): every field at its default, which is the reset value that
INVENTORY.md gives for it. -/
def State.reset : State := {}

end Sys2Proof.Machine
end

