-- ==== Sys2Proof/Machine/Ops.lean ====
section
/-!
DEFINITION. The named operations over a thread and its registers: reading sources under the scoreboard
(R27), hold latches and bank cost (R24, R25), synchronous and late results (R22, R27), completion with
the loop-closing step (R102), taking a trap (R37, R270), and the issue gate in the order of R74.
-/

namespace Sys2Proof.Machine

/-- The outcome of a meaning. -/
abbrev Out := Host.Outcome State Fault Refusal

/-- The g or k register of a code below 56. -/
def Thread.reg (t : Thread) (n : Nat) : Reg := if h : n < 56 then t.regs[n] else {}

/-- The thread with a g or k register replaced. -/
def Thread.setReg (t : Thread) (n : Nat) (r : Reg) : Thread :=
  if h : n < 56 then { t with regs := t.regs.set n r } else t

/-- The thread's logical rank, 24 bits (R10). -/
def Rank.logical (r : Rank) : BitVec 24 := r.pkg ++ r.thr

/-- The value a register code reads as (R21): nil and the reserved codes read zero. -/
def Thread.value (t : Thread) (c : RegCode) : Word :=
  if c.toNat < 56 then (t.reg c.toNat).val
  else if c.toNat = 56 then t.z0
  else if c.toNat = 57 then t.z1
  else if c.toNat = 59 then t.rank.logical.setWidth 64
  else 0

/-- The sources an instruction reads: positions A and B with their hold bits (R25), and the registers
it reads in other positions (R66). -/
structure Srcs where
  a : Option RegCode := none
  b : Option RegCode := none
  hA : Bool := false
  hB : Bool := false
  more : List RegCode := []
  deriving DecidableEq, Repr

/-- The scalar destination: none, a synchronous result, or registers written later (R27). -/
inductive Dst where
  | none
  | sync (d : RegCode)
  | late (ds : List RegCode)
  deriving DecidableEq, Repr

/-- Whether a hold latch serves a source (R25). -/
def latched (l : Option Latch) (c : RegCode) : Bool :=
  match l with
  | some l => l.code == c
  | none => false

/-- Source A as read: the latched value, or the register (R25). -/
def Thread.readA (t : Thread) (c : RegCode) : Word :=
  match t.latchA with
  | some l => if l.code = c then l.val else t.value c
  | none => t.value c

/-- Source B as read. -/
def Thread.readB (t : Thread) (c : RegCode) : Word :=
  match t.latchB with
  | some l => if l.code = c then l.val else t.value c
  | none => t.value c

/-- The registers an instruction reads that no latch serves (R28). -/
def Srcs.unlatched (r : Srcs) (t : Thread) : List RegCode :=
  (match r.a with
    | some c => if latched t.latchA c then [] else [c]
    | none => []) ++
  (match r.b with
    | some c => if latched t.latchB c then [] else [c]
    | none => []) ++ r.more

/-- What reading a source under the scoreboard meets (R27, R116, R177). -/
inductive Read where
  | ok
  | stall (c : RegCode)
  | poison (addr pc : Word)
  | acquire (c : RegCode) (sc : Scope)
  deriving DecidableEq, Repr

/-- What one source meets. -/
def Thread.readOne (t : Thread) (c : RegCode) : Read :=
  let r := t.reg c.toNat
  if 56 ≤ c.toNat then .ok
  else match r.sb with
    | .pending => .stall c
    | .armed => .stall c
    | .ready => if r.pb then .poison r.pAddr r.pPc else .ok
    | .arrived =>
      if r.pb then .poison r.pAddr r.pPc
      else match r.aq with
        | some sc => .acquire c sc
        | none => .ok

/-- What the sources meet: an acquire before consumption comes first of all, since it is performed once
however long the instruction then waits (R177); then a stall; then poison. -/
def Thread.readAll (t : Thread) (cs : List RegCode) : Read :=
  let rs := cs.map t.readOne
  match rs.find? (fun r => match r with | .acquire _ _ => true | _ => false) with
  | some r => r
  | none =>
    match rs.find? (fun r => match r with | .stall _ => true | _ => false) with
    | some r => r
    | none => (rs.find? (fun r => r != .ok)).getD .ok

/-- The register a destination makes the thread wait for, none when it may be written (R27). A register
the instruction also reads has been judged as a source. -/
def Thread.dstWait (t : Thread) : Dst → Option RegCode
  | .none => none
  | .sync d => if d.toNat < 56 && ((t.reg d.toNat).sb == .pending || (t.reg d.toNat).sb == .armed) then some d else none
  | .late ds => ds.find? fun d => d.toNat < 56 && ((t.reg d.toNat).sb == .pending || (t.reg d.toNat).sb == .armed)

/-- Drop a hold latch on a register (R25). -/
def dropLatch (l : Option Latch) (n : Nat) : Option Latch :=
  match l with
  | some l => if l.code.toNat = n then none else some l
  | none => none

/-- Drop a hold latch that a synchronous result overtakes: on its destination, or on z0 or z1, which the result
writes (R22, R25). -/
def dropResult (l : Option Latch) (d : RegCode) : Option Latch :=
  match l with
  | some l => if l.code = d || l.code.toNat = 56 || l.code.toNat = 57 then none else some l
  | none => none

/-- Consume a source: an ARRIVED register becomes ARMED when RA = 1, else READY (R27). -/
def Thread.consumeOne (t : Thread) (c : RegCode) : Thread :=
  let r := t.reg c.toNat
  if c.toNat < 56 && r.sb == .arrived then
    t.setReg c.toNat { r with sb := if r.ra then .armed else .ready, aq := none }
  else t

/-- The latch an instruction leaves at a position: the value it read when its hold bit is set and the
register did not become ARMED by the reading (R25). -/
def holdFor (t' : Thread) (src : Option RegCode) (h : Bool) (v : Word) : Option Latch :=
  match src with
  | some c => if h && !(c.toNat < 56 && (t'.reg c.toNat).sb == .armed) then some ⟨c, v⟩ else none
  | none => none

/-- The thread after its sources are consumed and its latches renewed or dropped. -/
def Thread.consume (t : Thread) (r : Srcs) : Thread :=
  let t' := (r.unlatched t).foldl Thread.consumeOne t
  { t' with
    latchA := holdFor t' r.a r.hA (t.readA (r.a.getD 0))
    latchB := holdFor t' r.b r.hB (t.readB (r.b.getD 0)) }

/-- A synchronous scalar result (R22, R27): z1 and z0 move, a g or k register becomes READY with the
value, every other field of its record cleared; nil discards. -/
def Thread.writeSync (t : Thread) (d : RegCode) (v : Word) : Thread :=
  let t := { t with z1 := t.z0, z0 := v, latchA := dropResult t.latchA d, latchB := dropResult t.latchB d }
  if d.toNat < 56 then t.setReg d.toNat { val := v } else t

/-- A late destination becomes PENDING with its old value kept (R27). -/
def Thread.pend (t : Thread) (d : RegCode) : Thread :=
  if d.toNat < 56 then
    let t := t.setReg d.toNat { val := (t.reg d.toNat).val, sb := .pending }
    { t with latchA := dropLatch t.latchA d.toNat, latchB := dropLatch t.latchB d.toNat }
  else t

/-- A late value arrives: READY, value written, z0 and z1 untouched (R22, R27). -/
def Thread.writeLate (t : Thread) (d : RegCode) (v : Word) : Thread :=
  if d.toNat < 56 then t.setReg d.toNat { val := v } else t

/-- A load returned poison: READY with PB and what the trap will report, no value written (R116). -/
def Thread.writePoison (t : Thread) (d : RegCode) (addr pc : Word) : Thread :=
  if d.toNat < 56 then
    t.setReg d.toNat { val := (t.reg d.toNat).val, pb := true, pAddr := addr, pPc := pc }
  else t

/-- Whether the loop registers give a body that the loop buffer cannot capture (R104). -/
def Thread.loopTooBig (t : Thread) : Bool :=
  decide (t.lend.toNat < t.lstart.toNat) || decide (256 < t.lend.toNat - t.lstart.toNat + 4)

/-- Whether a loop is active and runs: the core never runs one whose body it cannot capture (R104), which only a
supervisor write can make active (log 69). -/
def Thread.looping (t : Thread) : Bool := t.stat.la && !t.loopTooBig

/-- The program counter and loop state after an instruction that did not transfer control (R102). -/
def Thread.advance (t : Thread) : Thread :=
  if t.looping && t.pc == t.lend then
    if t.lcnt ≤ 1 then
      { t with lcnt := 0, stat := { t.stat with la := false }, loopBuf := [], pc := t.pc + 4 }
    else { t with lcnt := t.lcnt - 1, pc := t.lstart }
  else { t with pc := t.pc + 4 }

/-- Completion of an instruction that did not transfer control: the next address and PP cleared (R41). -/
def Thread.complete (t : Thread) : Thread :=
  let t := t.advance
  { t with stat := { t.stat with pp := false }, phase := .fresh, held := none, wait := .none, walkFails := [] }

/-- Completion of a control transfer to an address: it ends a loop (R103) and clears PP. -/
def Thread.jump (t : Thread) (target : Word) : Thread :=
  { t with
    pc := target, phase := .fresh, held := none, wait := .none, walkFails := []
    stat := { t.stat with pp := false, la := false }
    loopBuf := if t.stat.la then [] else t.loopBuf }

/-- Extra issue cycles (R24): distinct main-file registers read without a latch, less distinct banks. -/
def bankCost (cs : List RegCode) : Nat :=
  let rs := ((cs.map BitVec.toNat).filter (· < 48)).eraseDups
  rs.length - (rs.map (· % 6)).eraseDups.length

/-- The core of a place (R9). -/
def coreOf (place : Nat) : Nat := place / 16

/-- The core record of a core. -/
def State.core (s : State) (c : Nat) : Core := tget {} s.cores c

/-- The state with a core record replaced. -/
def State.setCore (s : State) (c : Nat) (r : Core) : State := { s with cores := tput s.cores c r }

/-- The core the focus thread runs on. -/
def State.here (s : State) : Nat := coreOf s.th.place

/-- The state with the focus thread replaced. -/
def State.withTh (s : State) (t : Thread) : State := { s with th := t }

/-- The instruction leaves issue: the clock moves past its extra cycles (R20, R24) and its slot is the
one that issued last (R18). -/
def State.leave (s : State) (r : Srcs) : State :=
  let e := bankCost (r.unlatched s.th).eraseDups
  { s with
    clock := s.clock + e
    lastSlot := tput s.lastSlot s.here (s.th.place % 16)
    th := { s.th with leftAt := s.clock + e } }

/-- The instruction completes: sources consumed, the effect on the thread, then completion. -/
def retire (r : Srcs) (s : State) (f : Thread → Thread) : Out :=
  let s := s.leave r
  .next (s.withTh (f (s.th.consume r)).complete)

/-- The thread stays at its instruction, waiting. -/
def stall (w : Wait) (s : State) : Out := .next { s with th := { s.th with wait := w } }

/-- Bits [54:2] of an address register (R32). -/
def addrField (v : Word) : Word := v &&& 0x007FFFFFFFFFFFFC

/-- The code of a trap cause (R255). -/
def Cause.code : Cause → Byte
  | .illegalInstr => 0x01 | .illegalPrefix => 0x02 | .featureAbsent => 0x03 | .misaligned => 0x04
  | .pageFaultLoad => 0x05 | .pageFaultStore => 0x06 | .pageFaultFetch => 0x07
  | .accessRights => 0x08 | .localRange => 0x09 | .poison => 0x0A | .servePoison => 0x0B
  | .staleHandle => 0x0C | .handleState => 0x0D | .sendRefused => 0x0E | .msgTooLarge => 0x0F
  | .loopFault => 0x10 | .engineFault => 0x11 | .trapInstr => 0x12 | .privileged => 0x13
  | .barrierMisuse => 0x14 | .capability => 0x15 | .tlbRange => 0x16

/-- The registers that trap entry in user mode writes (R37). -/
def Thread.saveTrap (t : Thread) (c : Cause) (e1 e2 epc : Word) : Thread :=
  { t with
    sstat := t.stat, epc := addrField epc, ecause := c.code, eval1 := e1, eval2 := e2
    latchA := none, latchB := none, loopBuf := [], wait := .none, phase := .fresh, held := none, walkFails := [] }

/-- Handler entry of a thread in user mode with a trap vector (R37, R142). -/
def Thread.enter (t : Thread) (c : Cause) (e1 e2 epc : Word) : Thread :=
  let t := t.saveTrap c e1 e2 epc
  { t with
    stat := { t.stat with mode := true, pp := false, la := false }
    pfxShadow := t.pfx, pc := addrField t.tvec }

/-- Taking a trap (R37, R270). In user mode the thread enters its handler, or, with TVEC.ADDR zero, it
records the trap, stops and escalates for its party's termination. In supervisor mode no register is
written, the thread stops and the Surveyor of its die gets the record; only TRAP_INSTR asks a service
(R271), every other cause ends the party (R272). Every trap drops the hold latches and the captured loop
body (R25, R40). -/
def takeTrap (c : Cause) (e1 e2 : Word) (s : State) : State :=
  let t := s.th
  if t.stat.mode then
    { s with
      th := { t with wait := .escalated, phase := .fresh, held := none, latchA := none, latchB := none, loopBuf := [] }
      escal := s.escal ++ [⟨t.place, c, t.pc, e1, e2, c != .trapInstr, false⟩] }
  else if addrField t.tvec = 0 then
    { s with
      th := { t.saveTrap c e1 e2 t.pc with wait := .escalated }
      escal := s.escal ++ [⟨t.place, c, t.pc, e1, e2, true, false⟩] }
  else { s with th := t.enter c e1 e2 t.pc }

/-- The issue slot of an instruction that traps: it issued, and changed nothing else (R19). -/
def State.leaveTrap (s : State) : State :=
  { s with
    lastSlot := tput s.lastSlot s.here (s.th.place % 16)
    th := { s.th with leftAt := s.clock } }

/-- An instruction ends in a trap at its own address. -/
def trap (c : Cause) (e1 e2 : Word) (s : State) : Out := .next (takeTrap c e1 e2 s.leaveTrap)

/-- A 32-bit word as EVAL holds it. -/
def evalWord (w : W32) : Word := w.setWidth 64

/-- What a word needs before it issues (R42, R36, R131): the FEAT bit, supervisor mode, and whether it
consumes a pending prefix. -/
structure Need where
  feat : BitVec 6 := 1
  priv : Bool := false
  pfx : Bool := false
  deriving DecidableEq, Repr

/-- The issue gate: steps 3 to 6 of R74, then the sources and the destination under the scoreboard. -/
def issue (w : W32) (nd : Need) (r : Srcs) (d : Dst) (s : State) (k : State → Out) : Out :=
  if (s.core s.here).feat &&& nd.feat ≠ nd.feat then
    trap .featureAbsent (evalWord w) (nd.feat.setWidth 64) s
  else if s.th.stat.pp && !nd.pfx then
    trap .illegalPrefix (evalWord w) (evalWord s.th.pfx) s
  else if nd.priv && !s.th.stat.mode then
    trap .privileged (evalWord w) 0 s
  else
    match s.th.readAll (r.unlatched s.th) with
    | .acquire c sc => stall (.consume c sc) s
    | .stall c => stall (.reg c) s
    | .poison a p => trap .poison a p s
    | .ok =>
      match s.th.dstWait d with
      | some c => stall (.reg c) s
      | none => k s

/-- An instruction that only computes a synchronous result from the thread. -/
def alu (w : W32) (nd : Need) (r : Srcs) (d : RegCode) (s : State) (v : Thread → Word) : Out :=
  issue w nd r (.sync d) s fun s => retire r s fun t => t.writeSync d (v s.th)

end Sys2Proof.Machine
end

