-- ==== Sys2Proof/Machine/Flags.lean ====
section
/-!
DEFINITION. STAT as a word and its flags (R31, R56), the effective rounding mode (R51), and the fields
of a pending format prefix with the acceptance table of R131.
-/

namespace Sys2Proof.Machine

/-- STAT or SSTAT as a 64-bit word (R31). -/
def Stat.word (t : Stat) : Word :=
  BitVec.ofNat 64 (t.flags.toNat * 256 + t.rm.toNat * 16 + t.la.toNat * 4 + t.pp.toNat * 2 + t.mode.toNat)

/-- The fields of a 64-bit word as STAT (R31). -/
def Stat.ofWord (w : Word) : Stat :=
  { flags := BitVec.ofNat 5 (w.toNat / 256), rm := BitVec.ofNat 2 (w.toNat / 16),
    la := nbit w.toNat 2, pp := nbit w.toNat 1, mode := nbit w.toNat 0 }

/-- Flags merged into STAT; they are sticky (R56). -/
def Thread.raise (t : Thread) (f : Flags) : Thread :=
  { t with stat := { t.stat with flags := t.stat.flags ||| f } }

/-- The fields of a format prefix (R140). -/
structure PfxFields where
  fa : Nat := 0
  fb : Nat := 0
  fd : Nat := 0
  rnd : Nat := 0
  sat : Bool := false
  deriving DecidableEq, Repr

/-- The fields of a prefix word (R140). -/
def pfxOf (w : W32) : PfxFields :=
  { fa := nbits w.toNat 22 4, fb := nbits w.toNat 18 4, fd := nbits w.toNat 14 4,
    rnd := nbits w.toNat 11 3, sat := nbit w.toNat 10 }

/-- The prefix that applies to the thread's instruction: none unless STAT.PP is set (R141). -/
def Thread.pfxFields (t : Thread) : PfxFields := if t.stat.pp then pfxOf t.pfx else {}

/-- The effective rounding mode (R51): the prefix's when its field is not zero, else STAT.RM. -/
def Thread.rounding (t : Thread) : Rnd :=
  let r := t.pfxFields.rnd
  if r = 0 then rndOfCode t.stat.rm.toNat else rndOfCode (r - 1)

/-- What a format field of a prefix may name (R131). -/
inductive PfxKind where
  | float | any | zero
  | equalA
  deriving DecidableEq, Repr

/-- A row of R131 (and of R155 for vector instructions). -/
structure PfxRule where
  a : PfxKind
  b : PfxKind
  d : PfxKind
  rnd : Bool := true
  sat : Bool := true
  deriving DecidableEq, Repr

/-- Whether a field's code is accepted; 0 always is. The second argument is the effective A code. -/
def PfxKind.accepts (k : PfxKind) (effA code : Nat) : Bool :=
  code == 0 || match k with
    | .float => decide (code ≤ 5)
    | .any => decide (code ≤ 12)
    | .zero => false
    | .equalA => code == effA

/-- Whether an instruction accepts the pending prefix (R131). -/
def PfxRule.accepts (r : PfxRule) (p : PfxFields) : Bool :=
  let effA := if p.fa = 0 then 1 else p.fa
  r.a.accepts effA p.fa && r.b.accepts effA p.fb && r.d.accepts effA p.fd &&
  (r.rnd || p.rnd == 0) && (r.sat || !p.sat)

/-- Step 5 of R74 for a word that consumes formats: a prefix outside its row traps before the scoreboard
is consulted, once the core is known to have the feature. -/
def withPrefix (w : W32) (feat : BitVec 6) (rule : PfxRule) (s : State) (k : Out) : Out :=
  if (s.core s.here).feat &&& feat = feat && !rule.accepts s.th.pfxFields then
    trap .illegalPrefix (evalWord w) (evalWord s.th.pfx) s
  else k

/-- The format of a code, or the default for 0. -/
def fmtOr (dflt : Fmt) (code : Nat) : Fmt := (fmtOfCode code).getD dflt

/-- A scalar operand of a format: its low bits (R129). -/
def operandBits (f : Fmt) (w : Word) : Nat := w.toNat % 2 ^ f.width

end Sys2Proof.Machine
end

