-- ==== Sys2Proof/Machine/Flit.lean ====
section
/-!
DEFINITION. Jenlink below the messages (R361 to R364): planes, flits with their CRC, what a port sends, and the
requests that memory of other packages takes. What can be reached at all (R355, R364).
-/

namespace Sys2Proof.Machine

/-- n steps of the CRC-64 of ECMA-182 in bit-reflected form (R362). -/
def crcBits : Nat → BitVec 64 → BitVec 64
  | 0, c => c
  | n + 1, c => crcBits n (if c.getLsbD 0 then (c >>> 1) ^^^ 0xC96C5795D7870F42 else c >>> 1)

/-- The CRC-64 of bytes (R362). -/
def crc64 (bs : List Byte) : BitVec 64 :=
  ~~~(bs.foldl (fun c b => crcBits 8 (c ^^^ b.setWidth 64)) (~~~0))

/-- A flit (R362): header, payload of 232 bytes, CRC. -/
def flitOf (cls src dst seq : Nat) (payload : List Byte) : List Byte :=
  let body := leBytes 16 (cls + src * 2 ^ 8 + dst * 2 ^ 16 + seq * 2 ^ 32) ++ (payload ++ List.replicate 232 0).take 232
  body ++ leBytes 8 (crc64 body).toNat

/-- Whether a flit arrived whole (R362). -/
def flitGood (bs : List Byte) : Bool := bs.length == 256 && (bs.drop 248 == leBytes 8 (crc64 (bs.take 248)).toNat)

/-- A Jenlink port. -/
def State.port (s : State) (j : Nat) : JPort := tget {} s.ports j

/-- The state with a port replaced. -/
def State.setPort (s : State) (j : Nat) (p : JPort) : State := { s with ports := tput s.ports j p }

/-- The places of the set bits of a word, ascending. -/
def setBits (n w : Nat) : List Nat := (List.range n).filter (nbit w)

/-- The plane that a key's message takes, whether or not its link is up (R363). -/
def planeOf (s : State) (key : Nat) : Option Nat :=
  let ps := setBits 24 s.planes.toNat
  ps[key % ps.length]?

/-- The port a message with a key leaves by: its plane, while the link is up. A plane that has lost its link stays
lost until the host installs a new mask, though the link may train again (R364, log 82). -/
def planeFor (s : State) (key : Nat) : Option Nat := (planeOf s key).filter fun p => (s.port p).up && !(s.port p).lost

/-- The package whose memory an address names, none for this package's own and for hosts and devices (R298). -/
def peerOf (pa : Nat) : Option Nat :=
  let top := pa / 2 ^ 44
  if 1 ≤ top && top ≤ 0xC0 then some (top - 1) else none

/-- Whether memory at a physical address can be reached: host windows while their link is up (R355), other
packages by a plane whose link is up (R363, R364). -/
def reachable (s : State) (pa : Nat) : Bool :=
  let top := pa / 2 ^ 44
  if top = 0xF0 || top = 0xF1 then (tget {} s.hosts (top - 0xF0)).linkUp
  else if (peerOf pa).isSome then (planeFor s (nbits pa 6 16)).isSome
  else true

/-- A posted store that finds its port's link lost is counted there (R364). -/
def countLoss (s : State) (pa : Nat) : State :=
  match if (peerOf pa).isSome then planeOf s (nbits pa 6 16) else none with
  | some p => s.setPort p { s.port p with lossCount := (s.port p).lossCount + 1 }
  | none => s

/-- A payload in pieces that a flit holds. -/
def cutPayload : Nat → List Byte → List (List Byte)
  | 0, _ => []
  | n + 1, bs => if bs.length ≤ 232 then [bs] else bs.take 232 :: cutPayload n (bs.drop 232)

/-- One flit sent by a port: it takes the next link sequence number, goes out and stays in the replay buffer of
512. -/
def sendFlit (j cls dst : Nat) (s : State) (payload : List Byte) : State :=
  let p := s.port j
  let f := flitOf cls s.pkgNo.toNat dst p.txSeq.toNat payload
  let l := p.replay ++ [f]
  s.setPort j { p with txSeq := p.txSeq + 1, replay := l.drop (l.length - 512), wire := p.wire ++ [f] }

/-- A message sent by a port, over as many flits as it takes. -/
def transmit (s : State) (j cls dst : Nat) (payload : List Byte) : State :=
  (cutPayload (payload.length + 1) payload).foldl (sendFlit j cls dst) s

/-- The flits of the replay buffer from a sequence number on, sent again (R362). -/
def resend (p : JPort) (seq : Nat) : JPort :=
  { p with wire := p.wire ++ p.replay.filter fun f => decide (seq ≤ leNat ((f.drop 4).take 4)) }

/-- A request that memory of another package takes leaves by the plane of its address (R362, R363): kind as
Config.flitPayload has it, the tag that its answer brings back, the address, a value, bytes. Other memory takes none. -/
def peerSend (s : State) (kind tag pa val : Nat) (bytes : List Byte) : State :=
  match peerOf pa, planeFor s (nbits pa 6 16) with
  | some d, some j => transmit s j 1 d (Config.flitPayload kind tag pa val bytes)
  | _, _ => s

/-- A line of another package asked for. -/
def askPeer (s : State) (no : Nat) : State := peerSend s 4 0 (no * 64) 64 []

/-- The tag of a load's request to another package: odd for a read, even for an atomic, whose answer is not what the
memory then holds (log 60). -/
def peerTag (id : Nat) (atomic : Bool) : Nat := 2 * id + 1 + atomic.toNat

/-- Bytes of a line stored in another package's memory: the offsets as a mask, and the bytes. -/
def storePeer (s : State) (no : Nat) (bytes : Table Byte) : State :=
  peerSend s 5 0 (no * 64) ((bytes.map fun p => 2 ^ (p.1 % 64)).sum) (bytes.map (·.2))

end Sys2Proof.Machine
end

