-- ==== Sys2Proof/Machine/Memory.lean ====
section
/-!
DEFINITION. The memory system below the instructions: homes and their poison markers, the L2 slices with
their miss-status registers, the cache portions and the group pool (R291 to R296), the steps that
realise release and acquire (R299, R300), and the scratchpads (R110, R111).
-/

namespace Sys2Proof.Machine

/-- Tile, group, cluster and die of a package core (R2). -/
def tileOf (core : Nat) : Nat := core / 4
def groupOf (core : Nat) : Nat := core / 16
def clusterOf (core : Nat) : Nat := core / 64
def dieOf (core : Nat) : Nat := core / 1024

/-- A focus change: the thread record of a place, as it stands. -/
def State.threadAt (s : State) (place : Nat) : Thread :=
  if s.th.place = place then s.th else tget { place := place } s.others place

/-- The state with a place's thread record replaced. -/
def State.setThreadAt (s : State) (place : Nat) (t : Thread) : State :=
  if s.th.place = place then { s with th := t } else { s with others := tput s.others place t }

/-- The thread at a place becomes the focus; the record that was is kept unless it is a default one. -/
def State.focus (s : State) (place : Nat) : State :=
  if s.th.place = place then s
  else
    let t := s.threadAt place
    let kept := tput s.others s.th.place s.th
    { s with th := t, others := tdel kept place }

/-- Every thread record of the machine. -/
def State.threads (s : State) : List Thread := s.th :: s.others.map (·.2)

/-- The bytes of a line with those of a table written dirty. -/
def mergeDirty (bytes : Table (Byte × Bool)) (new : Table Byte) : Table (Byte × Bool) :=
  new.foldl (fun t p => tput t p.1 (p.2, true)) bytes

/-- Clean bytes merged under a fill: dirty bytes are never overwritten (R292). -/
def mergeClean (bytes : Table (Byte × Bool)) (new : Table Byte) : Table (Byte × Bool) :=
  new.foldl (fun t p =>
    match tfind t p.1 with
    | some (_, true) => t
    | _ => tput t p.1 (p.2, false)) bytes

/-- Clean bytes added where a line has none (R293). -/
def mergeLacking (bytes : Table (Byte × Bool)) (new : Table Byte) : Table (Byte × Bool) :=
  new.foldl (fun t p => if (tfind t p.1).isSome then t else tput t p.1 (p.2, false)) bytes

/-- Older dirty bytes added where a line has none that is dirty. -/
def mergeOlder (bytes : Table (Byte × Bool)) (old : Table Byte) : Table (Byte × Bool) :=
  old.foldl (fun t p =>
    match tfind t p.1 with
    | some (_, true) => t
    | _ => tput t p.1 (p.2, true)) bytes

/-- A line evicted into the pool over an older pool line of its owner: what that still holds dirty joins it (R293). -/
def Line.over (l old : Line) : Line :=
  { l with
    bytes := mergeOlder l.bytes ((old.bytes.filter (·.2.2)).map fun p => (p.1, p.2.1))
    writers := old.writers.foldl sadd l.writers, ctxs := old.ctxs.foldl sadd l.ctxs }

/-- The values of a table of bytes with marks. -/
def bytesOf (t : Table (Byte × Bool)) : Table Byte := t.map fun p => (p.1, p.2.1)

/-- The dirty bytes of a line. -/
def Line.dirtyBytes (l : Line) : Table Byte := bytesOf (l.bytes.filter (·.2.2))

/-- The line with every byte clean. -/
def Line.cleaned (l : Line) : Line := { l with bytes := l.bytes.map (fun p => (p.1, (p.2.1, false))), writers := [], ctxs := [] }

/-- Whether a reader with the two floors may use a line's clean bytes (R299, log 65). -/
def Line.fresh (l : Line) (pf lf : Nat) : Bool := decide (pf ≤ l.stamp) && decide (lf ≤ l.home)

/-- The bytes of a portion or pool line a reader with the two floors may use (R299): dirty ones, and clean ones
not older. -/
def Line.usable (l : Line) (pf lf : Nat) : Table Byte := bytesOf (l.bytes.filter fun p => p.2.2 || l.fresh pf lf)

/-- The bytes of an L2 line a reader with a floor may use (R295, R299). -/
def Line.usableL2 (l : Line) (lf : Nat) : Table Byte := bytesOf (l.bytes.filter fun p => p.2.2 || decide (lf ≤ l.stamp))

/-- A portion line with a fill merged for a reader with the two floors (R292, R293, R299): the dirty bytes stay. A
fill from L2 that is nowhere older replaces the clean ones with its stamps; one from the pool, and one that comes
late, adds the bytes that are lacking, the line taking the older stamps. Clean bytes that the reader may not use
are lacking. -/
def Line.filled (l : Line) (pf lf : Nat) (f : Fill) : Line :=
  let dirty := l.bytes.filter (·.2.2)
  if !f.pool && decide (l.stamp ≤ f.stamp) && decide (l.home ≤ f.home) || !l.fresh pf lf || dirty.length == l.bytes.length then
    { l with bytes := mergeClean dirty f.bytes, stamp := f.stamp, home := f.home }
  else
    { l with bytes := mergeLacking l.bytes f.bytes, stamp := min l.stamp f.stamp, home := min l.home f.home }

/-- Whether a table of bytes lists every offset asked for. -/
def covers (t : Table Byte) (offs : List Nat) : Bool := offs.all fun o => (tfind t o).isSome

/-- The list without one line. -/
def dropLine (ls : List Line) (no owner : Nat) : List Line := ls.filter fun l => !(l.no == no && l.owner == owner)

/-- The line of a list. -/
def findLine (ls : List Line) (no owner : Nat) : Option Line := ls.find? fun l => l.no == no && l.owner == owner

/-- A line's most recent use in a list (R291, R295). -/
def touchLine (ls : List Line) (no owner : Nat) : List Line :=
  match findLine ls no owner with
  | some l => l :: dropLine ls no owner
  | none => ls

/-- The oldest line of a set beyond the number of ways, if any: most recently used first. -/
def overflowOf (ls : List Line) (same : Line → Bool) (ways : Nat) : Option Line :=
  let set := ls.filter same
  if ways < set.length then set.getLast? else none

/-- Whether a line is of the package's own memory, which the LLC fronts (R297, R298). -/
def isLocal (no : Nat) : Bool := no / 2 ^ 38 == 0

/-- The LLC bank of a line (R297), and its set within the bank, whose index the spec does not give (log 66). -/
def llcBank (no : Nat) : Nat := (no % 512) ^^^ (no / 512 % 512)
def llcSet (no : Nat) : Nat := no / 512 % 4096

/-- Bytes of a line written into main memory. -/
def memPut (s : State) (no : Nat) (bytes : Table Byte) : State :=
  { s with mem := bytes.foldl (fun m p => cput m (no * 64 + p.1) p.2) s.mem }

/-- A line used in its LLC bank, with bytes written dirty: a miss takes a way of its set, and the line evicted for
it is written back to the LPDDR (R297). Clean bytes are not listed, since they are the LPDDR's. -/
def llcUse (s : State) (no : Nat) (bytes : Table Byte) : State :=
  let b := llcBank no
  let old := tget [] s.llc b
  let l := (findLine old no 0).getD { no := no }
  let ls := { l with bytes := mergeDirty l.bytes bytes } :: dropLine old no 0
  match overflowOf ls (fun x => llcSet x.no == llcSet no) 16 with
  | some x => memPut { s with llc := tput s.llc b (dropLine ls x.no 0) } x.no x.dirtyBytes
  | none => { s with llc := tput s.llc b ls }

/-- The byte at a physical address as every agent finds it at the memory's own home: the LLC's dirty byte for local
memory, else the memory's (R297). -/
def memByte (s : State) (pa : Nat) : Byte :=
  match if isLocal (pa / 64) then (findLine (tget [] s.llc (llcBank (pa / 64))) (pa / 64) 0).bind fun l => tfind l.bytes (pa % 64) else none with
  | some b => b.1
  | none => cget s.mem pa

/-- The n bytes from a physical address upwards at their home. -/
def memBytes (s : State) (pa : Nat) : Nat → List Byte
  | 0 => []
  | n + 1 => memByte s pa :: memBytes s (pa + 1) n

/-- The 64 bytes of a line at its home (R297). -/
def homeLine (s : State) (no : Nat) : Table Byte := (List.range 64).map fun o => (o, memByte s (no * 64 + o))

/-- Bytes of a line written at its home, lost where it cannot be reached (R355, R364); those of another package leave
by Jenlink (R362). A poison marker of the line stays (R116). -/
def homeWrite (s : State) (no : Nat) (bytes : Table Byte) : State :=
  if bytes.isEmpty then s
  else if !reachable s (no * 64) then countLoss s (no * 64)
  else if isLocal no then llcUse s no bytes
  else memPut (storePeer s no bytes) no bytes

/-- A byte written at its home. -/
def homePut (s : State) (pa : Nat) (b : Byte) : State := homeWrite s (pa / 64) [(pa % 64, b)]

/-- The L2 lines of a die, most recently used first. -/
def State.l2Lines (s : State) (die : Nat) : List Line := tget [] s.l2 die

/-- The slice of a line on its die (R295), and its set and slice as one number: lines with equal ones compete. -/
def l2Slice (no : Nat) : Nat := (no % 256) ^^^ (no / 256 % 256)
def l2Set (no : Nat) : Nat := l2Slice no * 512 + no / 256 % 512

/-- A line put into an L2 slice (R295); of a full set the least recently used goes to its home (DESIGN CHOICE, log 92:
R295 gives no rule for it). -/
def l2Put (s : State) (die : Nat) (l : Line) : State :=
  let ls := l :: dropLine (s.l2Lines die) l.no 0
  match overflowOf ls (fun x => l2Set x.no == l2Set l.no) 16 with
  | some old =>
    homeWrite { s with l2 := tput s.l2 die (dropLine ls old.no 0) } old.no old.dirtyBytes
  | none => { s with l2 := tput s.l2 die ls }

/-- An L2 line's most recent use. -/
def l2Touch (s : State) (die no : Nat) : State := { s with l2 := tput s.l2 die (touchLine (s.l2Lines die) no 0) }

/-- The line of an L2 slice, an empty one when the slice does not hold it. -/
def State.l2Line (s : State) (die no : Nat) : Line := (findLine (s.l2Lines die) no 0).getD { no := no }

/-- The miss-status registers of a die. -/
def State.mshrOf (s : State) (die : Nat) : List Mshr := tget [] s.mshrs die

/-- Whether a miss of a line is outstanding on a die. -/
def State.missing (s : State) (die no : Nat) : Bool := (s.mshrOf die).any (·.line == no)

/-- The requests that wait for a slice in arrival order: the first 64 in its ingress queue, the rest deflected by
the network (R296). -/
def State.ingressOf (s : State) (die slice : Nat) : List (Nat × Waiter) := tget [] s.ingress (die * 256 + slice)

/-- Whether a request for a line is among some that wait. -/
def waitsFor (q : List (Nat × Waiter)) (no : Nat) : Bool := q.any (·.1 == no)

/-- The floors of a thread's reads in its core's portion, in the pool and in its instruction cache (R299): clean bytes
older than what a release of the core covered count as dropped (R260, log 65). -/
def State.floors (s : State) (t : Thread) : Nat × Nat :=
  let r := s.core (coreOf t.place)
  (max t.pfloor r.pf, max t.lfloor r.lf)

/-- The floor below which clean bytes of a die's L2 count as dropped: what a release beyond CORE scope covered (R260,
log 65). -/
def State.dieFloor (s : State) (die : Nat) : Nat := tget 0 s.dieLf die

/-- The floor of a thread's reads in L2 (R299). -/
def State.l2Floor (s : State) (t : Thread) : Nat := max (s.floors t).2 (s.dieFloor (dieOf (coreOf t.place)))

/-- Whether a request for a line reaches its slice at once (R296): the ingress queue has room, and no earlier
request to the line is outstanding there or waits. -/
def State.l2Open (s : State) (die no : Nat) : Bool :=
  let q := s.ingressOf die (l2Slice no)
  !s.missing die no && decide (q.length < 64) && !waitsFor q no

/-- Bytes merged dirty into the L2 line, allocated without fetching (R295). -/
def l2Merge (s : State) (die no : Nat) (bytes : Table Byte) : State :=
  if bytes.isEmpty then s
  else
    let l := (findLine (s.l2Lines die) no 0).getD { no := no, stamp := s.clock }
    let since := if l.dirtyBytes.isEmpty then s.clock else l.since
    l2Put s die { l with bytes := mergeDirty l.bytes bytes, since := since }

/-- A request admitted to a miss-status register of its slice (R296): it joins the line's waiters while the slice's
waiter pool has one of its 256 entries free, or takes one of the slice's 64 registers and asks for the line. -/
def l2Admit (s : State) (die no : Nat) (w : Waiter) : Option State :=
  let ms := s.mshrOf die
  let here := ms.filter fun m => l2Slice m.line == l2Slice no
  if s.missing die no then
    if (here.map fun (m : Mshr) => m.waiters.length - 1).sum < 256 then
      let joined := ms.map fun m => if m.line = no then { m with waiters := m.waiters ++ [w] } else m
      some { s with mshrs := tput s.mshrs die joined }
    else none
  else if here.length < 64 then some { askPeer s no with mshrs := tput s.mshrs die (ms ++ [⟨no, [w]⟩]) }
  else none

/-- A request that cannot be answered now waits: admitted to a register, else in the ingress queue or, beyond it,
deflected (R296). -/
def l2Wait (s : State) (die no : Nat) (w : Waiter) : State :=
  let sl := l2Slice no
  let q := s.ingressOf die sl
  let queued := { s with ingress := tput s.ingress (die * 256 + sl) (q ++ [(no, w)]) }
  if decide (64 ≤ q.length) || waitsFor q no then queued
  else (l2Admit s die no w).getD queued

/-- A store or write-back reaching an L2 slice: behind an outstanding or waiting request for its line it waits
(R296), else it is merged. -/
def l2Write (s : State) (die no : Nat) (bytes : Table Byte) : State :=
  if bytes.isEmpty then s
  else if s.l2Open die no then l2Merge s die no bytes
  else l2Wait s die no (.store bytes)

/-- The portion lines of a core, its own and the pool lines it hosts, most recently used first. -/
def State.portionOf (s : State) (c : Nat) : List Line := (s.core c).portion

/-- The state with a core's portion replaced. -/
def State.setPortion (s : State) (c : Nat) (ls : List Line) : State :=
  s.setCore c { s.core c with portion := ls }

/-- The ways of a core's cache portion (R291). -/
def waysOf (s : State) (c : Nat) : Nat := 8 - (s.core c).lmsplit.toNat

/-- The cores of a core's group, ascending. -/
def groupCores (c : Nat) : List Nat := (List.range 16).map (groupOf c * 16 + ·)

/-- Whether a core hosts pool lines (R293). -/
def poolMember (s : State) (c : Nat) : Bool := (s.core c).gpool && decide ((s.core c).lmsplit.toNat < 8)

/-- The cores of a group that host pool lines (R293), ascending. -/
def poolCores (s : State) (group : Nat) : List Nat := ((List.range 16).map (group * 16 + ·)).filter (poolMember s)

/-- The pool host of a line in a group, none when the group has no pool (R293). -/
def poolHost (s : State) (group no : Nat) : Option Nat :=
  let cs := poolCores s group
  if cs.isEmpty then none else cs[no % 2 ^ 16 % cs.length]?

/-- The cores other than its owner that hold a pool line: at most one does. -/
def poolHolders (s : State) (no owner : Nat) : List Nat :=
  (groupCores owner).filter fun h => h != owner && (findLine (s.portionOf h) no owner).isSome

/-- The dirty bytes of an owner's pool line: older than any in its own portion. -/
def poolDirty (s : State) (no owner : Nat) : Table Byte :=
  match (poolHolders s no owner).head? with
  | some h => ((findLine (s.portionOf h) no owner).map Line.dirtyBytes).getD []
  | none => []

/-- A core notes when bytes that it wrote went to a home beyond its portion: no clean copy in another core's pool line
that was fetched earlier serves it (R114, log 65). -/
def noteWrote (s : State) (c no : Nat) (bytes : Table Byte) : State :=
  let r := s.core c
  s.setCore c { r with wrote := bytes.foldl (fun w b => tput w (no * 64 + b.1) s.clock) r.wrote }

/-- Dirty bytes of an owner's line go to its L2 slice; the owner notes when. -/
def dirtyOut (s : State) (no owner : Nat) (bytes : Table Byte) : State :=
  if bytes.isEmpty then s else noteWrote (l2Write s (dieOf owner) no bytes) owner no bytes

/-- A line without the bytes a table lists. -/
def Line.without (l : Line) (bytes : Table Byte) : Line := { l with bytes := l.bytes.filter fun p => (tfind bytes p.1).isNone }

/-- The owner's lines of a number in some portions lose the bytes a table lists. -/
def dropBytes (s : State) (cores : List Nat) (no owner : Nat) (bytes : Table Byte) : State :=
  cores.foldl (fun s h =>
    if (findLine (s.portionOf h) no owner).isSome then
      s.setPortion h ((s.portionOf h).map fun l => if l.no = no && l.owner = owner then l.without bytes else l)
    else s) s

/-- The dirty bytes of an owner's pool line sent to L2; it stays, clean. -/
def poolOut (s : State) (no owner : Nat) : State :=
  (poolHolders s no owner).foldl (fun s h =>
    match findLine (s.portionOf h) no owner with
    | some l => dirtyOut (s.setPortion h ((s.portionOf h).map fun x => if x.no = no && x.owner = owner then x.cleaned else x))
        no owner l.dirtyBytes
    | none => s) s

/-- An owner's pool line written back and dropped. -/
def poolDrop (s : State) (no owner : Nat) : State :=
  (poolHolders s no owner).foldl (fun s h => s.setPortion h (dropLine (s.portionOf h) no owner)) (poolOut s no owner)

/-- An owner's dirty bytes leave its portion for L2, after the older ones of its pool line, which keeps no older copy
of them (R114). -/
def ownOut (s : State) (no owner : Nat) (bytes : Table Byte) : State :=
  if bytes.isEmpty then s
  else
    let s := poolOut s no owner
    dirtyOut (dropBytes s (poolHolders s no owner) no owner bytes) no owner bytes

/-- A line that has left a portion is written back to L2. -/
def writeBack (s : State) (l : Line) : State := ownOut s l.no l.owner l.dirtyBytes

/-- The pool lines of a number in a core's group written back and dropped. -/
def dropPooled (s : State) (c no : Nat) : State :=
  (groupCores c).foldl (fun s h =>
    ((s.portionOf h).filter fun l => l.no == no && l.owner != h).foldl
      (fun s l => writeBack (s.setPortion h (dropLine (s.portionOf h) no l.owner)) l) s) s

/-- The lowest way of a set that is free, among those that are cache (R291, log 7). -/
def freeWay (split : Nat) (set : List Line) : Option Nat :=
  ((List.range 8).filter fun j => decide (split ≤ j)).find? fun j => !set.any (·.way == j)

/-- A line put into a core's portion as the most recently used; when its set is full the least recently used of
the set is evicted (R291, R292): an own line of an enabled core goes to its pool host, where it joins what an
older pool line of it there still holds dirty, a pool line or a line without another host goes to L2 (R293).
The fuel bounds a chain of evictions from host to host; at its end the dirty bytes go to L2 (log 26). -/
def portionPut : Nat → State → Nat → Line → State
  | 0, s, _, l => writeBack s l
  | fuel + 1, s, c, l =>
    let split := (s.core c).lmsplit.toNat
    let rest := dropLine (s.portionOf c) l.no l.owner
    let set := rest.filter fun x => x.no % 256 == l.no % 256
    match ((findLine (s.portionOf c) l.no l.owner).map Line.way).or (freeWay split set) with
    | some w => s.setPortion c ({ l with way := w } :: rest)
    | none =>
      match set.getLast? with
      | none => writeBack s l
      | some old =>
        let s := s.setPortion c ({ l with way := old.way } :: dropLine rest old.no old.owner)
        match if old.owner = c && poolMember s c then poolHost s (groupOf c) old.no else none with
        | none => writeBack s old
        | some h =>
          if h = c then writeBack s old
          else match findLine (s.portionOf h) old.no c with
            | some x => portionPut fuel s h (old.over x)
            | none => portionPut fuel (poolDrop s old.no c) h old

/-- A fill merged into a core's own line (R292, R299). -/
def portionFill (s : State) (c pf lf : Nat) (f : Fill) : State :=
  let l := (findLine (s.portionOf c) f.line c).getD { no := f.line, owner := c }
  if waysOf s c = 0 then s else portionPut 16 s c (l.filled pf lf f)

/-- The bytes of a line as L2 can give them to a core: its slice's, under what the core's pool line holds dirty. -/
def l2Fillable (s : State) (c no : Nat) : Fill :=
  let l := s.l2Line (dieOf c) no
  { line := no, bytes := (poolDirty s no c).foldl (fun t p => tput t p.1 p.2) (bytesOf l.bytes)
    stamp := s.clock, home := l.stamp }

/-- A core's own line filled from its L2 slice (R292). -/
def refill (s : State) (c pf lf no : Nat) : State := portionFill s c pf lf (l2Fillable s c no)

/-- Bytes stored into a core's own line, allocated without fetching (R292); a store to the window of a host whose
link is down is discarded (R355). -/
def portionStore (s : State) (c slot no : Nat) (bytes : Table Byte) : State :=
  if (no / 2 ^ 38 = 0xF0 || no / 2 ^ 38 = 0xF1) && !reachable s (no * 64) then s else
  let l := (findLine (s.portionOf c) no c).getD { no := no, owner := c, stamp := s.clock, home := s.clock }
  let since := if l.dirtyBytes.isEmpty then s.clock else l.since
  portionPut 16 s c { l with bytes := mergeDirty l.bytes bytes, writers := sadd l.writers slot, ctxs := sadd l.ctxs s.th.ctx.toNat, since := since }

/-- The pool lines a core's lookup finds (R293, R294): those at the line's present host, its own first. -/
def poolLines (s : State) (c no : Nat) : List (Nat × Line) :=
  match poolHost s (groupOf c) no with
  | some h =>
    let ls := (s.portionOf h).filter fun l => l.no == no && l.owner != h
    (ls.filter (·.owner == c) ++ ls.filter (·.owner != c)).map fun l => (h, l)
  | none => []

/-- The bytes of a pool line that a core may use: of another core's clean ones none that it has itself written since
they were fetched (R114, R261, log 65). -/
def poolUsable (s : State) (c pf lf : Nat) (l : Line) : Table Byte :=
  if l.owner = c then l.usable pf lf
  else
    let wrote := (s.core c).wrote
    bytesOf (l.bytes.filter fun p => p.2.2 || (l.fresh pf lf && decide (tget 0 wrote (l.no * 64 + p.1) < l.stamp)))

/-- What a lookup of the group pool gives a core (R293): its own line's bytes come before those of others, and the
stamps are the oldest of the lines used. -/
def poolFill (s : State) (c pf lf no : Nat) : Fill :=
  (poolLines s c no).foldl (fun f p =>
    let bs := poolUsable s c pf lf p.2
    if bs.isEmpty then f
    else { f with
      bytes := bs.foldl (fun t b => if (tfind t b.1).isSome then t else tput t b.1 b.2) f.bytes
      stamp := if f.bytes.isEmpty then p.2.stamp else min f.stamp p.2.stamp
      home := if f.bytes.isEmpty then p.2.home else min f.home p.2.home })
    { line := no, bytes := [], stamp := 0, pool := true }

/-- The pool lines of a lookup that hit are the most recently used of their hosts. -/
def poolTouch (s : State) (c no : Nat) : State :=
  (poolLines s c no).foldl (fun s p => s.setPortion p.1 (touchLine (s.portionOf p.1) no p.2.owner)) s

/-- Bytes given to an outstanding load, each at its physical address. -/
def Load.give (l : Load) (no : Nat) (bytes : Table Byte) : Load :=
  { l with bytes := l.bytes.map fun p =>
      match p.2 with
      | some _ => p
      | none => if p.1 / 64 = no then (p.1, tfind bytes (p.1 % 64)) else p }

/-- Bytes given to the lanes of a vector load. -/
def VLoad.give (l : VLoad) (no : Nat) (bytes : Table Byte) : VLoad :=
  { l with lanes := l.lanes.map fun ln => if ln.dev then ln else { ln with bytes := ln.bytes.map fun p =>
      match p.2 with
      | some _ => p
      | none => if p.1 / 64 = no then (p.1, tfind bytes (p.1 % 64)) else p } }

/-- Whether reading a line gives poison: its marker stands, which is looked up at its home for every read, those
that a cache serves too (R116, log 67), or it cannot be reached (R355, R364). -/
def State.linePoisoned (s : State) (no : Nat) : Bool := s.memPoison.contains no || !reachable s (no * 64)

/-- The bytes of a line that a load still wants, and those a vector load wants. -/
def Load.wants (l : Load) (no : Nat) : List Nat :=
  l.bytes.filterMap fun b => if b.2.isNone && b.1 / 64 = no then some (b.1 % 64) else none
def VLoad.wants (v : VLoad) (no : Nat) : List Nat :=
  v.lanes.flatMap fun l => l.bytes.filterMap fun b => if !l.dev && b.2.isNone && b.1 / 64 = no then some (b.1 % 64) else none

/-- Whether a queued read finds what it wants in the slice (R295). -/
def waiterHits (s : State) (die no : Nat) (w : Waiter) : Bool :=
  let l := s.l2Line die no
  match w with
  | .load place id =>
    let t := s.threadAt place
    t.loads.any fun x => x.id == id && covers (l.usableL2 (s.l2Floor t)) (x.wants no)
  | .vload place _ =>
    let t := s.threadAt place
    match t.vload with
    | some v => covers (l.usableL2 (s.l2Floor t)) (v.wants no)
    | none => true
  | .pref _ => covers (bytesOf l.bytes) (List.range 64)
  | .none => covers (bytesOf l.bytes) (List.range 64)
  | .store _ => true

/-- A request served by its slice (R296): a load takes the line's bytes, a vector load and a prefetch are answered,
a store is merged. What cannot be reached answers poison. -/
def serveWaiter (die no : Nat) (s : State) (w : Waiter) : State :=
  let here := reachable s (no * 64)
  let bytes : Table Byte := if here then bytesOf (s.l2Line die no).bytes else homeLine s no
  let poison := s.linePoisoned no
  match w with
  | .load place id =>
    let t := s.threadAt place
    s.setThreadAt place { t with loads := t.loads.map fun l =>
      if l.id = id then { l.give no bytes with poisoned := l.poisoned || poison } else l }
  | .vload place id =>
    let t := s.threadAt place
    s.setThreadAt place { t with vload := t.vload.map fun v =>
      { v with reqs := v.reqs.map fun r =>
          if r.id = id then { r with got := some { line := no, bytes := bytes, stamp := s.clock }, poisoned := poison } else r } }
  | .pref c =>
    s.setCore c { s.core c with
      prefs := if here then (s.core c).prefs.map fun p => if p.1 = no then (no, true) else p
        else (s.core c).prefs.filter fun p => p.1 != no || p.2 }
  | .none => s
  | .store new => l2Merge s die no new

/-- The portion of a requester's core filled once its request and those with it have been served: no older byte
then overwrites a store of the core that waited behind the request (R261). -/
def refillFor (no : Nat) (s : State) (w : Waiter) : State :=
  let fill := fun (place : Nat) =>
    let t := s.threadAt place
    let (pf, lf) := s.floors t
    if reachable s (no * 64) then refill s (coreOf place) pf lf no else s
  match w with
  | .load place _ => fill place
  | .vload place _ => fill place
  | _ => s

/-- The requests that wait for a slice, taken in order while the ingress queue holds them (R296): none overtakes an
earlier one to its line, a hit and a store without an outstanding miss are served, a miss is admitted when a
register or a waiter entry is free. -/
def drainGo (die : Nat) : State → List (Nat × Waiter) → List (Nat × Waiter) → State × List (Nat × Waiter)
  | s, kept, [] => (s, kept)
  | s, kept, (no, w) :: rest =>
    if decide (64 ≤ kept.length) || waitsFor kept no then drainGo die s (kept ++ [(no, w)]) rest
    else if !s.missing die no && waiterHits s die no w then 
      let s := serveWaiter die no s w
      drainGo die (if waitsFor rest no then s else refillFor no s w) kept rest
    else match l2Admit s die no w with
      | some s => drainGo die s kept rest
      | none => drainGo die s (kept ++ [(no, w)]) rest

/-- A slice's ingress queue looked at again. -/
def l2Drain (s : State) (die slice : Nat) : State :=
  match s.ingressOf die slice with
  | [] => s
  | q =>
    let (s, kept) := drainGo die { s with ingress := tdel s.ingress (die * 256 + slice) } [] q
    if kept.isEmpty then s else { s with ingress := tput s.ingress (die * 256 + slice) kept }

/-- A line read from its home into its slice: clean bytes merged and stamped (R295, R296). -/
def l2Fetch (s : State) (die no : Nat) : State :=
  if !reachable s (no * 64) then s
  else
    let s := if isLocal no then llcUse s no [] else s
    let l := s.l2Line die no
    l2Put s die { l with bytes := mergeClean l.bytes (homeLine s no), stamp := s.clock }

/-- The fill of an outstanding L2 miss (R296): the line arrives, its waiters are served in list order, and the
slice's queue is looked at again. -/
def l2Fill (s : State) (die no : Nat) : State :=
  match (s.mshrOf die).find? (·.line == no) with
  | none => s
  | some m =>
    let s := { s with mshrs := tput s.mshrs die ((s.mshrOf die).filter (·.line != no)) }
    let s := m.waiters.foldl (serveWaiter die no) (l2Fetch s die no)
    let s := if waitsFor (s.ingressOf die (l2Slice no)) no then s else m.waiters.foldl (refillFor no) s
    l2Drain s die (l2Slice no)

/-- Every outstanding miss of a die filled, those that waited for a register too: one of the orders in which the
fills may come (log 10). -/
def l2FillAll (s : State) (die : Nat) : State :=
  let n := (s.mshrOf die).length + ((s.ingress.filter fun q => q.1 / 256 == die).map fun q => q.2.length).sum
  (List.range n).foldl (fun s _ =>
    match (s.mshrOf die).head? with
    | some m => l2Fill s die m.line
    | none => s) s

/-- Every earlier request to a line done with (R296). -/
def l2Settle (s : State) (die no : Nat) : State :=
  if waitsFor (s.ingressOf die (l2Slice no)) no then l2FillAll s die else l2Fill s die no

/-- The L2 line present with the offsets asked for, fetched if needed. -/
def l2Ensure (s : State) (die no floor : Nat) (offs : List Nat) : State :=
  let s := l2Settle s die no
  if covers ((s.l2Line die no).usableL2 floor) offs then l2Touch s die no else l2Fetch (askPeer s no) die no

/-- The dirty bytes of the selected lines a core owns sent to L2, those of its pool lines first, since they are the
older ones; the lines stay valid (R300), but for a pool line's older copies of bytes sent from the portion. -/
def flushLines (s : State) (c : Nat) (sel : Nat → Bool) : State :=
  ((groupCores c).filter (· != c) ++ [c]).foldl (fun s h =>
    let mine := (s.portionOf h).filter fun l => l.owner == c && sel l.no
    if mine.isEmpty then s
    else
      let s := s.setPortion h ((s.portionOf h).map fun l => if l.owner == c && sel l.no then l.cleaned else l)
      mine.foldl (fun s l => if h = c then ownOut s l.no c l.dirtyBytes else dirtyOut s l.no c l.dirtyBytes) s) s

/-- Every dirty line of a die's L2 sent to its home (R300), once no store waits behind a miss. -/
def flushL2 (s : State) (die : Nat) (sel : Nat → Bool) : State :=
  let s := l2FillAll s die
  let ls := s.l2Lines die
  let s := { s with l2 := tput s.l2 die (ls.map fun l => if sel l.no then l.cleaned else l) }
  (ls.filter fun l => sel l.no).foldl (fun s l => homeWrite s l.no l.dirtyBytes) s

/-- The release steps of R300 at a scope for a core and the selected lines: to the homes of R120. -/
def releaseLines (s : State) (c : Nat) (sc : Scope) (sel : Nat → Bool) : State :=
  match sc with
  | .core => s
  | .party => flushLines s c sel
  | .die => flushLines s c sel
  | .pkg => flushL2 (flushLines s c sel) (dieOf c) sel
  | .sys => flushL2 (flushLines s c sel) (dieOf c) sel

/-- The release steps of R300 for a core. -/
def releaseAt (s : State) (c : Nat) (sc : Scope) : State := releaseLines s c sc fun _ => true

/-- What the focus thread's earlier acquires made visible is covered by its release (R119, R259, R260): its core, and
beyond CORE scope its die's L2, use no clean byte older than it may itself use. Such bytes count as dropped, which a
cache may do with a clean byte at any time; the floors of other threads stay (log 65). -/
def publish (s : State) (sc : Scope) : State :=
  let t := s.th
  let r := s.core s.here
  let s := s.setCore s.here { r with pf := max r.pf t.pfloor, lf := max r.lf t.lfloor }
  if sc = .core then s
  else { s with dieLf := tput s.dieLf (dieOf s.here) (max (s.dieFloor (dieOf s.here)) t.lfloor) }

/-- An acquire of the focus thread completes: its further effect and the floors, as the table of R299 gives them. -/
def acquireAt (s : State) (sc : Scope) : State :=
  let s := releaseAt s s.here sc
  let t := s.th
  match sc with
  | .core => s
  | .party => { s with th := { t with pfloor := s.clock } }
  | .die => { s with th := { t with pfloor := s.clock } }
  | .pkg => { s with th := { t with pfloor := s.clock, lfloor := s.clock } }
  | .sys => { s with th := { t with pfloor := s.clock, lfloor := s.clock } }

/-- The key of a scratchpad byte. -/
def scratchKey (core off : Nat) : Nat := core * 2 ^ 17 + off

/-- The bytes of a core's scratchpad (R291). -/
def scratchSize (s : State) (core : Nat) : Nat := (s.core core).lmsplit.toNat * 16384

/-- Whether a virtual address lies in the local window (R110). -/
def inWindow (va : Nat) : Bool := va / 2 ^ 32 == 0x7FFFFF

/-- The placement cores of the focus thread's party (R9). -/
def State.placement (s : State) : List Nat := (tget {} s.parties s.th.pid).cores

/-- The scratchpad byte a window address names for the focus thread, none for LOCAL_RANGE (R110, R111). -/
def windowKey (s : State) (va : Nat) : Option Nat :=
  let idx := va / 2 ^ 17 % 128
  let off := va % 2 ^ 17
  let core := if idx = 0x7F then some s.here else s.placement[idx]?
  match core with
  | some c => if va / 2 ^ 24 % 256 = 0 && decide (off < scratchSize s c) then some (scratchKey c off) else none
  | none => none

/-- The three words of a launch timeline counter: LVAL, LTRIG and LSTAT (R345). -/
def Counter.words (c : Counter) : List Nat := [c.val, c.trig, c.trank.toNat * 65536 + c.tcause.toNat * 256 + c.worst]

/-- The word of the counter registers at an offset (R345), 8-byte aligned; the spec gives no other register of
device control space, and no order of the three words in their 32 bytes but that of its table (log 72). -/
def counterWord (s : State) (off : Nat) : Option Nat :=
  if 0x20000 ≤ off && off < 0x40000 then (tget {} s.counters ((off - 0x20000) / 32)).words[off % 32 / 8]? else none

/-- A byte of a device: of a register that the spec defines, else a free value (R345, log 3). -/
def deviceByte (s : State) (pa : Nat) : Byte :=
  match if pa / 2 ^ 44 = 0xFF then counterWord s (pa % 2 ^ 44 / 8 * 8) else none with
  | some w => BitVec.ofNat 8 (w / 256 ^ (pa % 8))
  | none => (Config.freeWord (s.tick + 1 + pa)).setWidth 8

/-- The free values of device reads are used up (log 3). -/
def spendDevice (s : State) : State := { s with tick := s.tick + 2 ^ 53 }

end Sys2Proof.Machine
end

