-- ==== Sys2Proof/Machine/Translate.lean ====
section
/-!
DEFINITION. Address translation: page tables and walks (R306 to R309), the four TLB levels, walk-merge
table and page-walk cache (R310 to R312), range invalidation (R313), and where the bytes of an access
lie or which fault the lowest faulting byte takes (R107, R117).
-/

namespace Sys2Proof.Machine

/-- log2 of a page's size (R307, R308). -/
def PageSize.bits : PageSize → Nat
  | .k64 => 16 | .m2 => 21 | .m512 => 29 | .t4 => 42

/-- Whether an entry maps an address of a context. -/
def TlbEntry.maps (e : TlbEntry) (ctx va : Nat) : Bool := e.ctx == ctx && e.page == va / 2 ^ e.size.bits

/-- The physical address an entry gives. -/
def TlbEntry.phys (e : TlbEntry) (va : Nat) : Nat := e.pa + va % 2 ^ e.size.bits

/-- Sets and ways of the micro, tile, cluster and die TLBs (R310). -/
def tlbSets : Nat → Nat
  | 0 => 1 | 1 => 16 | 2 => 512 | _ => 4096
def tlbWays : Nat → Nat
  | 0 => 16 | 1 => 8 | 2 => 8 | _ => 16

/-- The set of a page at a level: its number modulo the sets (log 6: the spec gives no index function). -/
def tlbSet (level page : Nat) : Nat := page % tlbSets level

/-- A list, most recently used first, cut to the ways of one set of a level (R310). -/
def tlbTrim {α : Type} (level set : Nat) (page : α → Nat) (es : List α) : List α :=
  let keep := (es.filter fun e => tlbSet level (page e) == set).take (tlbWays level)
  let rest := es.filter fun e => tlbSet level (page e) != set
  keep ++ rest

/-- The TLB of a level that serves a core. -/
def tlbOf (s : State) (core level : Nat) : List TlbEntry :=
  match level with
  | 0 => tget [] s.utlb core
  | 1 => tget [] s.ttlb (tileOf core)
  | 2 => tget [] s.ctlb (clusterOf core)
  | _ => tget [] s.dtlb (dieOf core)

/-- The TLB of a level replaced. -/
def setTlb (s : State) (core level : Nat) (es : List TlbEntry) : State :=
  match level with
  | 0 => { s with utlb := tput s.utlb core es }
  | 1 => { s with ttlb := tput s.ttlb (tileOf core) es }
  | 2 => { s with ctlb := tput s.ctlb (clusterOf core) es }
  | _ => { s with dtlb := tput s.dtlb (dieOf core) es }

/-- An entry installed as the most recently used of its set, replacing one of the same page (R310). -/
def tlbInstall (s : State) (core level : Nat) (e : TlbEntry) : State :=
  let es := (tlbOf s core level).filter fun x => !(x.ctx == e.ctx && x.size == e.size && x.page == e.page)
  setTlb s core level (tlbTrim level (tlbSet level e.page) TlbEntry.page (e :: es))

/-- The first level that holds a translation, and the entry. -/
def tlbFind (s : State) (core ctx va : Nat) : Option (Nat × TlbEntry) :=
  match (tlbOf s core 0).find? (·.maps ctx va) with
  | some e => some (0, e)
  | none =>
    match (tlbOf s core 1).find? (·.maps ctx va) with
    | some e => some (1, e)
    | none =>
      match (tlbOf s core 2).find? (·.maps ctx va) with
      | some e => some (2, e)
      | none =>
        match (tlbOf s core 3).find? (·.maps ctx va) with
        | some e => some (3, e)
        | none => none

/-- The state after a lookup that hit at a level: used there, copied into the levels above (R310). -/
def tlbTouch (s : State) (core level : Nat) (e : TlbEntry) : State :=
  (List.range (level + 1)).foldl (fun s l => tlbInstall s core l e) s

/-- The physical address as the package sees it (R298): the package's own number maps to local memory. -/
def physOf (s : State) (pa : Nat) : Nat :=
  if pa / 2 ^ 44 = s.pkgNo.toNat + 1 then pa % 2 ^ 44 else pa

/-- A page-table word at its home (R298, R309), little-endian. -/
def tableWord (s : State) (pa : Nat) : Nat := leNat (memBytes s (physOf s pa) 8)

/-- What one page-table entry says (R307). -/
inductive Pte where
  | bad
  | next (table : Nat)
  | leaf (size : PageSize) (pa : Nat) (w u dev x : Bool)
  deriving DecidableEq, Repr

/-- The reading of an entry's word at a level (R307, R308). -/
def pteOf (level word : Nat) : Pte :=
  let leaf := nbit word 62
  let contig := nbit word 61
  let w := nbit word 60
  let u := nbit word 59
  let dev := nbit word 58
  let x := nbit word 57
  let pa := nbits word 16 36 * 65536
  if !nbit word 63 || nbits word 52 5 ≠ 0 || nbits word 0 16 ≠ 0 then .bad
  else if !leaf then
    if level = 3 || contig || w || dev || x then .bad else .next pa
  else if contig && level ≠ 3 then .bad
  else if level = 1 then (if pa % 2 ^ 42 = 0 then .leaf .t4 pa w u dev x else .bad)
  else if level = 2 then (if pa % 2 ^ 29 = 0 then .leaf .m512 pa w u dev x else .bad)
  else if contig then .leaf .m2 (pa / 2 ^ 21 * 2 ^ 21) w u dev x
  else .leaf .k64 pa w u dev x

/-- The index of a virtual address at a level (R307). -/
def vaIndex (level va : Nat) : Nat :=
  if level = 1 then nbits va 42 13 else if level = 2 then nbits va 29 13 else nbits va 16 13

/-- The prefix of a virtual address that a pointer entry of a level covers (R312). -/
def vaPrefix (level va : Nat) : Nat := if level = 1 then va / 2 ^ 42 else va / 2 ^ 29

/-- The table walk from a level down: the entry and the pointers met (R312). -/
def walkFrom (s : State) (ctx va : Nat) : Nat → Nat → Nat → Option TlbEntry × List PwcEntry
  | 0, _, _ => (none, [])
  | fuel + 1, level, table =>
    match pteOf level (tableWord s (table + vaIndex level va * 8)) with
    | .bad => (none, [])
    | .leaf size pa w u dev x => (some ⟨ctx, size, va / 2 ^ size.bits, pa, w, u, dev, x⟩, [])
    | .next t =>
      let (e, ps) := walkFrom s ctx va fuel (level + 1) t
      (e, ⟨ctx, level, vaPrefix level va, t⟩ :: ps)

/-- The level-1 table that a context's entry names in memory (R306): none when it is invalid. -/
def contextEntry (s : State) (ctx : Nat) : Option Nat :=
  let word := tableWord s (s.ctbase + ctx * 16)
  let high := tableWord s (s.ctbase + ctx * 16 + 8)
  if nbit word 63 && nbits word 0 16 == 0 && nbits word 52 11 == 0 && high == 0 then some (nbits word 16 36 * 65536) else none

/-- The level-1 table of a context (R306): none while CTBASE is disabled; a valid entry that a walk has used stays in
use until a TLBINV of the whole context, another is read from memory. -/
def contextTable (s : State) (ctx : Nat) : Option Nat :=
  if !s.ctbaseEn then none else (tfind s.ctxRoots ctx).or (contextEntry s ctx)

/-- A whole walk (R312): the context entry first, then from the deepest cached table. -/
def walkTables (s : State) (die ctx va : Nat) : Option TlbEntry × List PwcEntry :=
  match contextTable s ctx with
  | none => (none, [])
  | some root =>
    let cache := tget [] s.pwc die
    match cache.find? fun p => p.ctx == ctx && p.level == 2 && p.pfxNo == vaPrefix 2 va with
    | some p => walkFrom s ctx va 1 3 p.table
    | none =>
      match cache.find? fun p => p.ctx == ctx && p.level == 1 && p.pfxNo == vaPrefix 1 va with
      | some p => walkFrom s ctx va 2 2 p.table
      | none => walkFrom s ctx va 3 1 root

/-- The page-walk cache with pointers added (R312): the 4,096 most recently added, wherever they belong (DESIGN CHOICE,
log 92: R312 gives its size only). -/
def pwcAdd (s : State) (die : Nat) (ps : List PwcEntry) : State :=
  if ps.isEmpty then s
  else { s with pwc := tput s.pwc die ((ps ++ (tget [] s.pwc die).filter (fun p => !ps.contains p)).take 4096) }

/-- What a walk that succeeded leaves (R306, R312): its pointers and its context entry in use; one that failed leaves
nothing. -/
def walkTrace (s : State) (die ctx va : Nat) : State :=
  match walkTables s die ctx va, contextTable s ctx with
  | (some _, ps), some root => pwcAdd { s with ctxRoots := tput s.ctxRoots ctx root } die ps
  | _, _ => s

/-- A request joined to a walk of the same context and page, if the walk-merge table holds one that is not stale. -/
def walkJoin (ws : List Walk) (q : Walk) : Option (List Walk) :=
  let same := fun (w : Walk) => w.ctx == q.ctx && w.page == q.page && !w.stale
  if ws.any same then
    some (ws.map fun w => if same w then { w with reqs := w.reqs ++ q.reqs.filter fun r => !w.reqs.contains r } else w)
  else none

/-- The miss queue of a die's TLB looked at again (R312): its requests join a walk or take one of the 1,024 merge
entries, in arrival order. -/
def walkAdmit : List Walk → List Walk → List Walk × List Walk
  | ws, [] => (ws, [])
  | ws, q :: qs =>
    match walkJoin ws q with
    | some ws => walkAdmit ws qs
    | none => if ws.length < 1024 then walkAdmit (ws ++ [q]) qs else (ws, q :: qs)

/-- The walk-merge table and miss queue of a die replaced. -/
def setWalks (s : State) (die : Nat) (ws queue : List Walk) : State :=
  let (ws, queue) := walkAdmit ws queue
  { s with
    walks := tput s.walks die ws
    walkQueue := if queue.isEmpty then tdel s.walkQueue die else tput s.walkQueue die queue }

/-- A request for a walk (R312): joined to one of the same context and page, or a new entry, or in the miss queue
when the table is full. -/
def walkRequest (s : State) (die ctx page : Nat) (who : WalkFor) : State :=
  let q : Walk := ⟨ctx, page, [who], false⟩
  let ws := tget [] s.walks die
  let queue := tget [] s.walkQueue die
  match walkJoin ws q with
  | some ws => { s with walks := tput s.walks die ws }
  | none => setWalks s die ws (queue ++ [q])

/-- The kinds of access (R107, R307). -/
inductive Access where
  | load | store | fetch
  deriving DecidableEq, Repr

/-- The page fault of an access (R107). -/
def Access.pageFault : Access → Cause
  | .load => .pageFaultLoad | .store => .pageFaultStore | .fetch => .pageFaultFetch

/-- Whether a mode may make an access through an entry (R117, R307). -/
def TlbEntry.allows (e : TlbEntry) (sup : Bool) : Access → Bool
  | .load => sup || e.u
  | .store => (sup || e.u) && e.w
  | .fetch => (sup || e.u) && e.x

/-- Whether a physical address exists (R298); those of other packages only once SET_DOMAIN is accepted (R357). -/
def physOk (s : State) (pa : Nat) : Bool :=
  let top := pa / 2 ^ 44
  if top = 0 then decide (pa < 0x18000000000)
  else (s.domainSet && decide (top ≤ 0xC0)) || top == 0xF0 || top == 0xF1 || top == 0xFF

/-- Whether any byte lies in device memory. -/
def anyDev (locs : List Loc) : Bool := locs.any fun l => match l with | .dev _ => true | _ => false

/-- What locating an access meets. -/
inductive Located where
  | ok (locs : List Loc) (s : State)
  | walk (ctx page : Nat)
  | fault (c : Cause) (va : Word)

/-- Where one byte lies for the focus thread: R110, R111, translation, rights (R117). -/
def locateByte (s : State) (k : Access) (va : Word) : Located :=
  let v := va.toNat
  if v / 2 ^ 55 ≠ 0 then .fault k.pageFault va
  else if inWindow v && k != .fetch then
    match windowKey s v with
    | some key => .ok [.scratch key] s
    | none => .fault .localRange va
  else
    match tlbFind s s.here s.th.ctx.toNat v with
    | none =>
      if s.th.walkFails.contains (s.th.ctx.toNat, v / 65536) then .fault k.pageFault va
      else .walk s.th.ctx.toNat (v / 65536)
    | some (level, e) =>
      let pa := physOf s (e.phys v)
      if !e.allows s.th.stat.mode k || !physOk s pa then .fault .accessRights va
      else .ok [if e.dev then .dev pa else .mem pa] (tlbTouch s s.here level e)

/-- Where the bytes of an access lie: the lowest faulting byte decides (R113). A byte of device memory faults in a
misaligned access (R128). -/
def locateAll (odd : Bool) : State → Access → List Word → Located
  | s, _, [] => .ok [] s
  | s, k, va :: vas =>
    match locateByte s k va with
    | .ok l s =>
      if odd && anyDev l then .fault .accessRights va
      else match locateAll odd s k vas with
        | .ok ls s => .ok (l ++ ls) s
        | r => r
    | r => r

/-- The n byte addresses of an access, modulo 2^64 (R107). -/
def byteAddrs (va : Word) : Nat → List Word
  | 0 => []
  | n + 1 => va :: byteAddrs (va + 1) n

/-- Where the n bytes of a plain access at an address lie. -/
def locate (s : State) (k : Access) (va : Word) (n : Nat) : Located := locateAll (va.toNat % n != 0) s k (byteAddrs va n)

/-- Whether a page of an entry overlaps a range (R251). -/
def overlaps (bits page base len : Nat) : Bool :=
  decide (page * 2 ^ bits < base + len) && decide (base < (page + 1) * 2 ^ bits)

/-- Every translation of a context over a range removed from every array of the package, and every walk
of the context marked stale (R251, R313); over 0 to 2^55 its context entry too (R306). -/
def invalidate (s : State) (ctx base len : Nat) : State :=
  let keep := fun (e : TlbEntry) => !(e.ctx == ctx && overlaps e.size.bits e.page base len)
  let cleanT := fun (t : Table (List TlbEntry)) => t.map fun p => (p.1, p.2.filter keep)
  { s with
    utlb := cleanT s.utlb, ttlb := cleanT s.ttlb, ctlb := cleanT s.ctlb, dtlb := cleanT s.dtlb
    pwc := s.pwc.map fun p => (p.1, p.2.filter fun (e : PwcEntry) =>
      !(e.ctx == ctx && overlaps (if e.level = 1 then 42 else 29) e.pfxNo base len))
    marks := s.marks.map fun p => (p.1, p.2.filter fun (m : FaultMark) => !(m.ctx == ctx && overlaps 16 m.page base len))
    ctxRoots := if base = 0 && len = 2 ^ 55 then tdel s.ctxRoots ctx else s.ctxRoots
    walks := s.walks.map fun p => (p.1, p.2.map fun (w : Walk) => if w.ctx = ctx then { w with stale := true } else w) }

end Sys2Proof.Machine
end

