-- ==== Sys2Proof/Machine/Operands.lean ====
section
/-!
DEFINITION. The operand forms of the memory instructions: effective addresses (R118, R119, R121, R127),
reading and writing located bytes, the phases of release, acquire and synchronisation (R119, R179), and
starting a load (R109, R115, R292).
-/

namespace Sys2Proof.Machine

/-- Bytes of a size code (R118, R119). -/
def sizeOf2 (size : BitVec 2) : Nat := 2 ^ size.toNat

/-- ea of LD and ST: base plus the scaled signed offset (R118). -/
def eaOffset (base : Word) (off : BitVec 11) (size : BitVec 2) : Word :=
  base + off.signExtend 64 * BitVec.ofNat 64 (sizeOf2 size)

/-- ea of LDX and STX: base plus the scaled index (R119). -/
def eaIndex (base index : Word) (n : Nat) : Word := base + index * BitVec.ofNat 64 n

/-- The line address of a hint (R127). -/
def eaLine (base : Word) (off : BitVec 8) : Word := (base + off.signExtend 64 <<< 6) &&& ~~~63

/-- The thread waits for a page walk, which is started or joined (R108, R312). -/
def startWalk (s : State) (ctx page : Nat) : Out :=
  let s := walkRequest s (dieOf s.here) ctx page (.thread s.th.place)
  stall (.walk ctx page) s

/-- The physical lines an access touches. -/
def linesOf (locs : List Loc) : List Nat :=
  (locs.filterMap fun l => match l with | .mem pa => some (pa / 64) | _ => none).eraseDups

/-- The offsets of an access within a line. -/
def offsIn (locs : List Loc) (no : Nat) : List Nat :=
  locs.filterMap fun l => match l with | .mem pa => if pa / 64 = no then some (pa % 64) else none | _ => none

/-- The bytes of a store that fall into a line. -/
def bytesIn (locs : List Loc) (data : List Byte) (no : Nat) : Table Byte :=
  (locs.zip data).foldl (fun t p => match p.1 with
    | .mem pa => if pa / 64 = no then tput t (pa % 64) p.2 else t
    | _ => t) []

/-- What a core's own caches give a thread of a line (R292, R293): its portion's usable bytes when they cover the
offsets, or complete with what a pool lookup of an enabled core adds, the portion then filled; else its dirty bytes,
with those of its pool line wherever it was placed (R114). -/
inductive Near where
  | hit (bytes : Table Byte) (s : State)
  | miss (bytes : Table Byte)

/-- The lookup of a line in a core's portion and group pool for a reader with the two floors. -/
def nearLine (s : State) (c pf lf no : Nat) (offs : List Nat) : Near :=
  let own := (findLine (s.portionOf c) no c).getD { no := no }
  if covers (own.usable pf lf) offs then .hit (own.usable pf lf) (s.setPortion c (touchLine (s.portionOf c) no c))
  else
    let onto := fun (t new : Table Byte) => new.foldl (fun t p => tput t p.1 p.2) t
    let older := poolDirty s no c
    let pool := if (s.core c).gpool then poolFill s c pf lf no else { line := no, bytes := [], stamp := 0 }
    let all := onto (onto pool.bytes older) (own.usable pf lf)
    if !pool.bytes.isEmpty && covers all offs then
      .hit all (portionFill (poolTouch s c no) c pf lf { pool with bytes := onto pool.bytes older })
    else .miss (onto older own.dirtyBytes)

/-- One line of a load (R292, R293, R295): the cache portion, then the group pool, then the L2 slice, from which the
portion is filled; the load's bytes as far as they are known, and whether a response slot is held (R115). -/
def loadLine (s : State) (t : Thread) (c : Nat) (ld : Load) (no : Nat) (offs : List Nat) : State × Load :=
  let ld := { ld with poisoned := ld.poisoned || s.linePoisoned no }
  let (pf, lf) := s.floors t
  match nearLine s c pf lf no offs with
  | .hit bytes s => (s, ld.give no bytes)
  | .miss dirty =>
    let ld := { ld.give no dirty with slot := true }
    let d := dieOf c
    let have2 := (s.l2Line d no).usableL2 (s.l2Floor t)
    if covers have2 (ld.wants no) && s.l2Open d no then (refill (l2Touch s d no) c pf lf no, ld.give no have2)
    else (l2Wait s d no (.load t.place ld.id), ld)

/-- Whether a scratchpad word holds poison (R116). -/
def scratchPoisoned (s : State) (key : Nat) : Bool := s.scratchPoison.contains (key / 8)

/-- The bytes of a load known at issue: those of scratchpads. -/
def scratchBytes (s : State) (locs : List Loc) : List (Nat × Option Byte) :=
  locs.map fun l => match l with
    | .scratch k => (0, some (cget s.scratch k))
    | .mem pa => (pa, none)
    | .dev pa => (pa, none)

/-- The load record of an access, with every line looked up (R109). -/
def makeLoad (s : State) (dst : RegCode) (sext : Bool) (va : Word) (locs : List Loc) : State × Load :=
  let ld : Load :=
    { id := s.serial, dst := dst, sext := sext, va := va, pc := s.th.pc, bytes := scratchBytes s locs, ctx := s.th.ctx.toNat
      poisoned := locs.any fun l => match l with | .scratch k => scratchPoisoned s k | _ => false }
  (linesOf locs).foldl (fun p no => loadLine p.1 s.th s.here p.2 no (offsIn locs no))
    ({ s with serial := s.serial + 1 }, ld)

/-- A load whose value is known when it is issued. -/
def readyLoad (s : State) (dst : RegCode) (sext : Bool) (va : Word) (bytes : List Byte) (poisoned slot : Bool) : Load :=
  { id := s.serial, dst := dst, sext := sext, va := va, pc := s.th.pc,
    bytes := bytes.map fun b => (0, some b), poisoned := poisoned, slot := slot, ctx := s.th.ctx.toNat }

/-- The response slots a thread holds (R115). -/
def Thread.slotsHeld (t : Thread) : Nat :=
  (t.loads.filter (·.slot)).length + (match t.vload with | some v => (v.reqs.filter (·.sent)).length | none => 0)

/-- The load is outstanding: the destination is PENDING, the record joins the thread's, and the thread
goes on, or waits as given (R109). -/
def issueLoad (r : Srcs) (s : State) (ld : Load) (w : Wait) : Out :=
  let s := { s with serial := s.serial + 1 }.leave r
  let t := ((s.th.consume r).pend ld.dst).complete
  .next (s.withTh { t with loads := t.loads ++ [ld], wait := w })

/-- A device load, whose data the target returns later (R128); one of a host whose link is down returns poison
(R355). -/
def deviceLoad (s : State) (d : RegCode) (sext : Bool) (va : Word) (locs : List Loc) : Load :=
  { id := s.serial, dst := d, sext := sext, va := va, pc := s.th.pc, bytes := scratchBytes s locs, slot := true, dev := true
    ctx := s.th.ctx.toNat
    poisoned := locs.any fun l => match l with | .dev pa => !reachable s pa | _ => false }

/-- A load of n bytes at va (R107 to R119, R128). -/
def load (r : Srcs) (d : RegCode) (sext : Bool) (n : Nat) (va : Word) (s : State) : Out :=
  match locate s .load va n with
  | .fault c a => trap c a (BitVec.ofNat 64 n) s
  | .walk ctx page => startWalk s ctx page
  | .ok locs s =>
    if anyDev locs then
      if s.th.devStore then stall .devStore s
      else if 8 ≤ s.th.slotsHeld then stall .slots s
      else issueLoad r s (deviceLoad s d sext va locs) .device
    else
      let (s', ld) := makeLoad s d sext va locs
      if ld.slot && decide (8 ≤ s.th.slotsHeld) then stall .slots s
      else issueLoad r s' ld .none

/-- Bytes written at scratchpad places. -/
def storeScratch (s : State) (locs : List Loc) (data : List Byte) : State :=
  { s with scratch := (locs.zip data).foldl (fun m p => match p.1 with
      | .scratch k => cput m k p.2
      | _ => m) s.scratch }

/-- Bytes of a store written: scratchpads at their banks, ordinary memory into the cache portion (R292). -/
def storeBytes (s : State) (locs : List Loc) (data : List Byte) : State :=
  (linesOf locs).foldl (fun s no => portionStore s s.here (s.th.place % 16) no (bytesIn locs data no))
    (storeScratch s locs data)

/-- The lines of device places, each once. -/
def devLines (locs : List Loc) : List Nat :=
  (locs.filterMap fun l => match l with | .dev pa => some (pa / 64) | _ => none).eraseDups

/-- A posted device store that its port's lost link takes with it is counted there (R364). -/
def devLoss (s : State) (locs : List Loc) : State :=
  (devLines locs).foldl (fun s no => if reachable s (no * 64) then s else countLoss s (no * 64)) s

/-- A store of bytes at located places (R107, R128), and what follows once they are written. -/
def storeAt (r : Srcs) (locs : List Loc) (data : List Byte) (s : State) (after : State → List Loc → State) : Out :=
  if anyDev locs then
    if s.th.devStore then stall .devStore s
    else retire r (devLoss s locs) fun t => { t with devStore := true, devCtx := t.ctx }
  else retire r (after (storeBytes s locs data) locs) id

/-- A store of bytes at va (R107 to R119, R128). -/
def store (r : Srcs) (va : Word) (data : List Byte) (s : State) : Out :=
  let n := data.length
  match locate s .store va n with
  | .fault c a => trap c a (BitVec.ofNat 64 n) s
  | .walk ctx page => startWalk s ctx page
  | .ok locs s => storeAt r locs data s fun s _ => s

/-- CLWB and CLINV of a core whose walk has not returned (R127). -/
def hintsPending (s : State) (c : Nat) : Bool :=
  (tget [] s.walks (dieOf c) ++ tget [] s.walkQueue (dieOf c)).any fun w => w.reqs.any fun r => match r with
    | .hint core _ _ _ _ => core == c
    | _ => false

/-- The release steps before an instruction's own effect (R119): outstanding loads return, then the
thread waits for the acknowledgement of its stores; at CORE scope nothing is left to do, unless a unit that
reads past the cache portion takes part in the release (deep: R259). -/
def withReleaseTo (deep : Bool) (sc : Scope) (s : State) (k : State → Out) : Out :=
  if s.th.phase ≠ .fresh then k s
  else if s.th.loads ≠ [] then stall .loads s
  else if hintsPending s s.here then stall .hints s
  else if sc = .core && !deep then k (publish s sc)
  else stall .releaseAck (releaseAt (publish s sc) s.here (if sc = .core then .party else sc))

/-- A release of a thread (R119). -/
def withRelease (sc : Scope) (s : State) (k : State → Out) : Out := withReleaseTo false sc s k

/-- A release before the effect when the order asks for one. -/
def withReleaseIf (rel : Bool) (sc : Scope) (s : State) (k : State → Out) : Out :=
  if rel then withRelease sc s k else k s

/-- The acquire at the end of an instruction that stays at its address until it is done (R126, R198). -/
def withAcquire (sc : Scope) (s : State) (k : State → Out) : Out :=
  if s.th.phase = .acquired then k s else stall (.acquire sc false) s

/-- The synchronising step of R179: no send outstanding, then a pending refusal traps. -/
def withSync (s : State) (k : State → Out) : Out :=
  if s.th.phase ≠ .fresh then k s
  else if s.th.sends ≠ 0 then stall .sends s
  else match s.th.refused with
    | some r =>
      trap .sendRefused r.cap (r.more.setWidth 64 <<< 8 ||| r.sub.setWidth 64)
        { s with th := { s.th with refused := none } }
    | none => k s

end Sys2Proof.Machine
end

