-- ==== Sys2Proof/Machine/Wait.lean ====
section
/-!
DEFINITION. When a waiting thread returns to the rotation (R13, R27, R108, R164), and the rotation of a
core (R18, R187).
-/

namespace Sys2Proof.Machine

/-- A core's engine context (R193). -/
def State.ctx (s : State) (c eng n : Nat) : EngCtx := tget {} (s.core c).ctxs (eng * 4 + n)

/-- The state with an engine context replaced. -/
def State.setCtx (s : State) (c eng n : Nat) (x : EngCtx) : State :=
  s.setCore c { s.core c with ctxs := tput (s.core c).ctxs (eng * 4 + n) x }

/-- A handle-table entry of a core (R200). -/
def State.handle (s : State) (c i : Nat) : Handle := tget {} (s.core c).handles i

/-- The state with a handle-table entry replaced. -/
def State.setHandle (s : State) (c i : Nat) (h : Handle) : State :=
  s.setCore c { s.core c with handles := tput (s.core c).handles i h }

/-- Reference cycles passed since a clock value (R34), and those of n microseconds (log 5). -/
def elapsed (s : State) (since : Nat) : Nat := Config.cycleOf s.clock - Config.cycleOf since
def micros (n : Nat) : Nat := 1300 * n

/-- The bit of a handle state in a mask (R192). -/
def HState.code : HState → Nat
  | .free => 0 | .filling => 1 | .full => 2 | .draining => 3

/-- The commands of a context that have not completed (R190). -/
def EngCtx.open (x : EngCtx) : Nat := (x.queue.filter fun q => !q.done).length

/-- Whether what a thread waits for has come about; a wait that an event ends is over only then. An instruction that found
its late destination ARMED looks again once it is READY or ARRIVED, and discards what has arrived (DESIGN CHOICE, log 89:
R27 has it wait until READY, R165 while the register is PENDING or ARMED). -/
def waitOver (s : State) (t : Thread) : Bool :=
  let c := coreOf t.place
  match t.wait with
  | .none => true
  | .reg r => let b := (t.reg r.toNat).sb; b == .ready || b == .arrived
  | .loads => t.loads.isEmpty
  | .slots => decide (t.slotsHeld < 8)
  | .sends => t.sends == 0
  | .timeline e n k => decide (k ≤ (s.ctx c e n).count)
  | .handle i g mask =>
    let h := s.handle c i
    h.gen != g || mask.getLsbD h.st.code
  | .handles i g mask i2 g2 =>
    let h := s.handle c i
    h.gen != g || mask.getLsbD h.st.code || (s.handle c i2).gen != g2
  | .room e n => decide ((s.ctx c e n).open < 16)
  | .ring => t.wpos != t.rpos
  | .sendBuf => decide (t.sendBuf.length < 8)
  | .barrier ep => decide (ep < (tget {} s.parties t.pid).episode)
  | .devStore => !t.devStore
  | .hints => !hintsPending s c
  | .vlatch => (s.core c).vlatch.isNone
  | .migpt => !t.migReq
  | _ => false

/-- The slots of a core in the order of R18: ascending after the one that issued last. -/
def slotOrder (last : Nat) : List Nat := (List.range 16).map fun k => (last + 1 + k) % 16

/-- The cycle in which a thread is ready again after its last issue (R18). -/
def readyAt (t : Thread) : Nat := if t.leftAt = 0 then 0 else t.leftAt + 8

/-- Whether a YIELD still holds a slot back (R187): some slot that was ready then has not issued since. -/
def yielding (s : State) (t : Thread) : Bool :=
  decide (s.clock < t.yieldAt + 16) && t.yields.any fun k =>
    let u := s.threadAt (coreOf t.place * 16 + k)
    u.status == .running && waitOver s u && decide (u.leftAt ≤ t.yieldAt)

/-- Whether a thread stops issuing at this boundary: for a migration not while a prefix is pending (R41, R275,
R276). -/
def stopsHere (t : Thread) : Bool := t.halt || (t.moving && !t.stat.pp)

/-- Whether a tile issues nothing and its vector unit accepts nothing: it has tripped (R374), or its clock is
stopped (R371). -/
def tileStopped (s : State) (tile : Nat) : Bool :=
  let t : TilePower := tget {} s.tiles tile
  t.trip || t.point == 0

/-- Whether a thread may issue but for the revisit interval (R12, R13, R371, R374). -/
def runnable (s : State) (t : Thread) : Bool :=
  t.status == .running && waitOver s t && !yielding s t && !stopsHere t &&
  !tileStopped s (coreOf t.place / 4)

/-- The runnable threads of a core, in the order of R18. -/
def candidates (s : State) (c : Nat) : List Thread :=
  ((slotOrder (tget 15 s.lastSlot c)).map fun k => s.threadAt (c * 16 + k)).filter (runnable s)

/-- The thread a core issues next and the cycle it does so (R18): the earliest cycle in which some slot is
ready, and in it the first ready slot. -/
def pickThread (s : State) (c : Nat) : Option (Nat × Nat) :=
  let ts := candidates s c
  match (ts.map readyAt).min? with
  | none => none
  | some m =>
    let now := max (s.clock + 1) m
    (ts.find? fun t => decide (readyAt t ≤ now)).map fun t => (t.place, now)

end Sys2Proof.Machine
end

