-- ==== Sys2Proof/Machine/Party.lean ====
section
/-!
DEFINITION. The life of threads, parties and surveys as every chapter uses it (R12, R16, R17, R184): a
barrier episode, a trigger, the end of a thread, the end of a party, and the record of a trap.
-/

namespace Sys2Proof.Machine

/-- A party's record. -/
def State.party (s : State) (pid : Nat) : Party := tget {} s.parties pid

/-- The state with a party's record replaced. -/
def State.setParty (s : State) (pid : Nat) (p : Party) : State := { s with parties := tput s.parties pid p }

/-- A survey's record. -/
def State.survey (s : State) (sid : Nat) : Survey := tget {} s.surveys sid

/-- The state with a survey's record replaced. -/
def State.setSurvey (s : State) (sid : Nat) (x : Survey) : State := { s with surveys := tput s.surveys sid x }

/-- A launch counter. -/
def State.counter (s : State) (n : Nat) : Counter := tget {} s.counters n

/-- The state with a launch counter replaced. -/
def State.setCounter (s : State) (n : Nat) (x : Counter) : State := { s with counters := tput s.counters n x }

/-- A launch queue, by host x 32 + queue (R340). -/
def State.queue (s : State) (q : Nat) : Queue := tget {} s.queues q

/-- The state with a launch queue replaced. -/
def State.setQueue (s : State) (q : Nat) (x : Queue) : State := { s with queues := tput s.queues q x }

/-- Seed tokens of a queue given up unread: those in the FIFO now, the rest as they arrive. -/
def Queue.dropSeeds (q : Queue) (n : Nat) : Queue :=
  { q with fifo := q.fifo.drop n, unread := q.unread || decide (q.fifo.length < n) }

/-- The parties of a survey that are not bound are given up with a status (R341, R348, R353): their seed tokens
are consumed unread, and the survey has no further party; one that was given up is never triggered (R16, R17). -/
def giveUp (s : State) (sid st : Nat) : State :=
  let x := s.survey sid
  let q := s.queue x.queue
  let s := s.setSurvey sid { x with nparty := x.bound, worst := max x.worst st, dropped := x.dropped || decide (x.bound < x.nparty) }
  if q.active = some sid then
    s.setQueue x.queue { q.dropSeeds (if x.seedMode = 2 then x.nparty - x.bound else 0) with active := none }
  else s

/-- Whether a dependence's counter has reached its value (R347). -/
def depReached (s : State) (d : Dep) : Bool :=
  decide (d.val ≤ if d.kind = 1 then (s.counter d.ctr).val else (s.counter d.ctr).trig)

/-- The dependences of a survey that their counters now satisfy become satisfied, and WORST is examined for
each (R348). -/
def examineDeps (s : State) (sid : Nat) : State :=
  let x := s.survey sid
  let bad := x.deps.any fun d =>
    !d.met && depReached s d && ((s.counter d.ctr).worst == 2 || (s.counter d.ctr).worst == 3)
  let late := x.deps.any fun d => !d.met && depReached s d
  let s := s.setSurvey sid { x with
    deps := x.deps.map fun d => { d with met := d.met || depReached s d }
    since := if late then s.clock else x.since }
  if bad && !x.runOnCancel && x.bound = 0 then giveUp s sid 2 else s

/-- The dependences of every survey examined, after counters have risen (R347). -/
def settleDeps (s : State) : State := s.surveys.foldl (fun s x => examineDeps s x.1) s

/-- A counter advances (R346): TRIG, and VAL when the survey has ended, then its dependants. -/
def raiseCounter (s : State) (n trig val : Nat) : State :=
  let c := s.counter n
  settleDeps (s.setCounter n { c with trig := max c.trig trig, val := max c.val val })

/-- A survey is triggered once every one of its parties is (R17): its counter's TRIG rises (R346). -/
def surveyTrigger (s : State) (sid : Nat) : State :=
  let x := s.survey sid
  if !x.dropped && decide (x.nparty ≤ x.triggered) then raiseCounter s x.cctr x.cval 0 else s

/-- A party becomes triggered, once (R16). -/
def triggerParty (s : State) (pid : Nat) : State :=
  let p := s.party pid
  if p.triggered then s
  else
    let s := s.setParty pid { p with triggered := true }
    let x := s.survey p.surv
    surveyTrigger (s.setSurvey p.surv { x with triggered := x.triggered + 1 }) p.surv

/-- The barrier episode opens when every thread that has not ended has arrived (R184). -/
def barrierCheck (s : State) (pid : Nat) : State :=
  let p := s.party pid
  if p.arrived ≠ [] && (List.range p.nthr).all fun i => p.arrived.contains i || p.gone.contains i then
    s.setParty pid { p with episode := p.episode + 1, arrived := [] }
  else s

/-- A thread arrives at its party's barrier (R184). -/
def barrierArrive (s : State) (t : Thread) : State :=
  let p := s.party t.pid
  barrierCheck (s.setParty t.pid { p with arrived := sadd p.arrived t.party.tidx.toNat }) t.pid

/-- The gazetteer entry of a thread number (R178). -/
def State.gazOf (s : State) (thr : Nat) : GazEntry := tget {} s.gaz thr

/-- A gazetteer entry whose thread has ended: what it absorbed in transit goes (R178). -/
def GazEntry.ended (g : GazEntry) : GazEntry := { g with st := .dead, acks := 0, refused := none, save := 0 }

/-- The state with a gazetteer entry replaced. -/
def State.setGaz (s : State) (thr : Nat) (g : GazEntry) : State := { s with gaz := tput s.gaz thr g }

/-- A plat entry's state replaced (R350). -/
def setPlat (s : State) (place : Nat) (st : PState) : State :=
  let p : Plat := tget {} s.plat place
  { s with plat := tput s.plat place (if st = .free then {} else { p with st := st }) }

/-- Whether a command of a party is uncompleted in some context of a core (R12). -/
def commandsOpen (s : State) (pid core : Nat) : Bool :=
  (s.core core).ctxs.any fun x => x.2.queue.any fun q => q.pid == pid && !q.done

/-- Whether a party has ended: every thread gone and no command uncompleted (R12). -/
def partyOver (s : State) (pid : Nat) : Bool :=
  let p := s.party pid
  (tfind s.parties pid).isSome && (List.range p.nthr).all (fun i => p.gone.contains i) &&
  !p.cores.any (commandsOpen s pid)

/-- A thread place emptied. -/
def clearPlace (s : State) (place : Nat) : State :=
  let s := setPlat s place .free
  if s.th.place = place then { s with th := { place := place } }
  else { s with others := tdel s.others place }

/-- A region without the launch seeds of a party that are still held at it (R319). -/
def Region.withoutSeeds (r : Region) (pid : Nat) : Region := { r with offers := r.offers.filter (·.owner != some pid) }

/-- A cluster after a party that stood in it has ended: the party's launch seeds still held are discarded (R319), and
the contour array's next client finds its contents cleared (R213). -/
def Cluster.withoutParty (k : Cluster) (pid : Nat) : Cluster :=
  { k with
    reqs := k.reqs.map fun q => { q with seeds := q.seeds.filter (·.1 != pid), back := q.back.map (·.withoutSeeds pid) }
    regions := k.regions.map fun r => (r.1, r.2.withoutSeeds pid)
    lastPid := if k.lastPid = some pid then none else k.lastPid }

/-- What a party leaves when it ends (R12, R16, R351): it becomes triggered if it has started, its writes are performed at
SYS scope (R346), its slots, handle tables and engine contexts are released, and its survey counts it. -/
def finishParty (s : State) (pid : Nat) : State :=
  let s := if (s.party pid).started then triggerParty s pid else s
  let p := s.party pid
  let s := p.cores.foldl (fun s c => releaseAt s c .sys) s
  let s := p.cores.foldl (fun s c =>
    let s := s.setCore c { s.core c with handles := [], ctxs := [] }
    (List.range 16).foldl (fun s k => clearPlace s (c * 16 + k)) s) s
  let s := { s with
    clusters := s.clusters.map fun (x : Nat × Cluster) => (x.1, x.2.withoutParty pid)
    savedAreas := s.savedAreas.map fun (x : Nat × Saved) => (x.1, { x.2 with regions := x.2.regions.map fun (r : Region) => r.withoutSeeds pid }) }
  let x := s.survey p.surv
  let st := if p.cancelled then 2 else if p.trapped then 1 else 0
  let s := s.setSurvey p.surv { x with ended := x.ended + 1, worst := max x.worst st }
  { s with parties := tdel s.parties pid, moveQueue := s.moveQueue.filter (·.1 != pid) }

/-- A party that is over is finished. -/
def settleParty (s : State) (pid : Nat) : State := if partyOver s pid then finishParty s pid else s

/-- A thread record of a place ends (R12): it issues no more, its gazetteer entry goes DEAD, its plat entry
STOP, and it no longer counts at the barrier. -/
def endPlace (s : State) (place : Nat) : State :=
  let t := s.threadAt place
  let s := s.setThreadAt place { t with status := .ended, wait := .none, phase := .fresh, held := none, vop := none }
  let thr := t.rank.thr.toNat
  let s := s.setGaz thr (s.gazOf thr).ended
  let s := setPlat s place .stop
  let p := s.party t.pid
  if (tfind s.parties t.pid).isSome then
    barrierCheck (s.setParty t.pid { p with gone := sadd p.gone t.party.tidx.toNat }) t.pid
  else s

/-- A thread ends, and with it its party if that was all (R12). -/
def endThread (s : State) (place : Nat) : State :=
  let pid := (s.threadAt place).pid
  settleParty (endPlace s place) pid

/-- The trap record of the survey status word (R16, R345): the first since LSTAT was last cleared. -/
def recordTrap (s : State) (pid : Nat) (rank : BitVec 24) (cause : Byte) : State :=
  let p := s.party pid
  let x := s.survey p.surv
  let c := s.counter x.cctr
  let s := s.setParty pid { p with trapped := true }
  if c.seen then s else s.setCounter x.cctr { c with tcause := cause, trank := rank, seen := true }

end Sys2Proof.Machine
end

