-- ==== Sys2Proof/Machine/RegionOps.lean ====
section
/-!
DEFINITION. What the instructions and the Surveyor ask of a cluster's fabric: the parts of a region record
(R244), the image table's lookup (R358), servers by their image-wide number, and region requests (R317).
-/

namespace Sys2Proof.Machine

/-- A cluster's record. -/
def State.cluster (s : State) (cl : Nat) : Cluster := tget {} s.clusters cl

/-- The state with a cluster's record replaced. -/
def State.setCluster (s : State) (cl : Nat) (k : Cluster) : State := { s with clusters := tput s.clusters cl k }

/-- Word n of a region record. -/
def recWord (r : List Word) (n : Nat) : Nat := (r.getD n 0).toNat

/-- NELEM, NSERV and NSUFF of a region record (R244). -/
def recNelem (r : List Word) : Nat := nbits (recWord r 1) 0 12
def recNserv (r : List Word) : Nat := nbits (recWord r 1) 12 5
def recNsuff (r : List Word) : Nat := nbits (recWord r 1) 17 10

/-- The width of a region in columns (R244). -/
def recWidth (r : List Word) : Nat := (nbits (recWord r 0) 1 3 + 1) * 8

/-- MODE of a region: graph or server (R244). -/
def recGraph (r : List Word) : Bool := nbit (recWord r 0) 0

/-- Words that n bytes take when a part begins at a 64-byte boundary (R244). -/
def partWords (n : Nat) : Nat := (n + 63) / 64 * 8

/-- Where the sufficiency table and the element records begin, in words (R244). -/
def recSuffAt (r : List Word) : Nat := 24 + partWords (4 * recNserv r)
def recElemAt (r : List Word) : Nat := recSuffAt r + partWords (4 * recNsuff r)

/-- The port table's entry of a port (R244). -/
def recPort (r : List Word) (p : Nat) : Nat := nbits (recWord r (8 + p / 4)) (16 * (p % 4)) 16

/-- The server table's entry (R244). -/
def recServer (r : List Word) (n : Nat) : Nat := nbits (recWord r (24 + n / 2)) (32 * (n % 2)) 32

/-- The sufficiency table's entry (R244). -/
def recSuff (r : List Word) (n : Nat) : Nat := nbits (recWord r (recSuffAt r + n / 2)) (32 * (n % 2)) 32

/-- The eight words of an element record (R232, R244). -/
def recElem (r : List Word) (n : Nat) : List Word := (r.drop (recElemAt r + 8 * n)).take 8

/-- The image a handle names, when the entry is in use with that generation (R358). -/
def State.imageOf (s : State) (handle : Nat) : Option Image :=
  match tfind s.images (handle % 4096) with
  | some im => if im.used && im.gen = handle / 4096 then some im else none
  | none => none

/-- The record of an image's region k as it stands in memory, one after another (R244, R316, R367); none where the
memory cannot be reached. -/
def Image.record (s : State) (im : Image) (k : Nat) : Option (List Word) :=
  let at' := im.recordsAt + ((im.regions.take k).map fun r => 8 * r.length).sum
  if reachable s at' then
    (im.regions[k]?).map fun r => (List.range r.length).map fun j => BitVec.ofNat 64 (leNat (memBytes s (at' + 8 * j) 8))
  else none

/-- The region index and the local server of an image-wide server number (R244). -/
def findServer : List (List Word) → Nat → Nat → Option (Nat × Nat)
  | [], _, _ => none
  | r :: rs, ridx, n => if n < recNserv r then some (ridx, recServer r n) else findServer rs (ridx + 1) (n - recNserv r)

/-- A server's region index and its ENT position (R244). -/
def serverOf (s : State) (handle sidx : Nat) : Option (Nat × Nat) :=
  match s.imageOf handle with
  | none => none
  | some im => (findServer im.regions 0 sidx).map fun p => (p.1, nbits p.2 12 12)

/-- Whether a resident or loading region is the one asked for (R317). -/
def Region.serves (r : Region) (img ridx surv : Nat) : Bool := r.img == img && r.ridx == ridx && r.surv == surv

/-- The index of a region present for a survey in a cluster. -/
def regionFor (k : Cluster) (img ridx surv : Nat) : Option Nat :=
  (k.regions.find? fun r => r.2.serves img ridx surv && r.2.stage != .stopped).map (·.1)

/-- A request to make a region resident, unless it is present or already asked for (R317). -/
def requestRegion (k : Cluster) (q : RegionReq) : Cluster :=
  if (regionFor k q.img q.ridx q.surv).isSome then k
  else if k.reqs.any fun x => x.img == q.img && x.ridx == q.ridx && x.surv == q.surv then k
  else { k with reqs := k.reqs ++ [q] }

end Sys2Proof.Machine
end

