-- ==== Sys2Proof/Machine/System.lean ====
section
/-!
DEFINITION. Major 0x38: traps and their return, events, control registers, translation and whole-portion
write-back (R246 to R254), with the control-register space of R30 to R33.
-/

namespace Sys2Proof.Machine

def Rank.word (r : Rank) : Word :=
  BitVec.ofNat 64 (r.gen.toNat * 2 ^ 24 + r.pkg.toNat * 2 ^ 16 + r.thr.toNat)
def PartyId.word (p : PartyId) : Word :=
  BitVec.ofNat 64 (p.pidx.toNat * 2 ^ 32 + p.surv.toNat * 2 ^ 20 + p.tidx.toNat * 2 ^ 10 + p.nthr.toNat)
def Inbox.word (b : Inbox) : Word :=
  BitVec.ofNat 64 (b.en.toNat * 2 ^ 63 + b.size.toNat * 2 ^ 32 + b.base.toNat)
def SrvBind.word (b : SrvBind) : Word :=
  BitVec.ofNat 64 (b.v.toNat * 2 ^ 63 + b.img.toNat * 2 ^ 24 + b.sidx.toNat * 2 ^ 16)
/-- The fields of a SRVTAB word (R32). -/
def SrvBind.ofWord (w : Word) : SrvBind :=
  { v := nbit w.toNat 63, img := BitVec.ofNat 16 (w.toNat / 2 ^ 24), sidx := BitVec.ofNat 4 (w.toNat / 2 ^ 16) }
/-- The fields of an INBOX word; bits of BASE below the ring size read as zero (R32). -/
def Inbox.ofWord (w : Word) : Inbox :=
  let size := nbits w.toNat 32 4
  let ring := 256 * 2 ^ size
  { en := nbit w.toNat 63, size := BitVec.ofNat 4 size,
    base := BitVec.ofNat 17 (nbits w.toNat 0 17 / ring * ring) }

/-- The value a control register reads as for the focus thread, none for an unassigned address (R30). -/
def ctlRead (s : State) (addr : Nat) : Option Word :=
  let t := s.th
  match addr with
  | 0x000 => some t.stat.word
  | 0x001 => some t.sstat.word
  | 0x002 => some (t.ecause.setWidth 64)
  | 0x003 => some t.epc
  | 0x004 => some t.eval1
  | 0x005 => some t.eval2
  | 0x006 => some t.tvec
  | 0x007 => some t.hscr
  | 0x010 => some ((s.core s.here).feat.setWidth 64)
  | 0x011 => some (t.reqf.setWidth 64)
  | 0x012 => some (t.fidmax.setWidth 64)
  | 0x020 => some t.rank.word
  | 0x021 => some t.party.word
  | 0x022 => some t.migcnt
  | 0x023 => some (t.ctx.setWidth 64)
  | 0x030 => some ((s.core s.here).lmsplit.setWidth 64)
  | 0x031 => some (BitVec.ofNat 64 (s.core s.here).gpool.toNat)
  | 0x032 => some t.inbox.word
  | 0x033 => some (BitVec.ofNat 64 (t.wpos.toNat * 65536 + t.rpos.toNat))
  | 0x040 => some t.lcnt
  | 0x041 => some t.lstart
  | 0x042 => some t.lend
  | 0x050 => some (BitVec.ofNat 64 (Config.cycleOf s.clock))
  | _ => if h : 0x60 ≤ addr ∧ addr < 0x70 then some (t.srvtab[addr - 0x60]).word else none

/-- Whether a mode may write a register (R30, R248). -/
def ctlMayWrite (sup : Bool) (addr : Nat) : Bool :=
  addr == 0x000 || addr == 0x030 || addr == 0x032 ||
  (sup && (decide (addr ≤ 0x007) || addr == 0x011 || addr == 0x023 || addr == 0x031 ||
    (decide (0x040 ≤ addr) && decide (addr ≤ 0x042)) || (decide (0x060 ≤ addr) && decide (addr < 0x070))))

/-- A write of STAT (R31): in user mode only RM and FLAGS change. -/
def Thread.writeStat (t : Thread) (w : Word) : Thread :=
  let n := Stat.ofWord w
  if t.stat.mode then { t with stat := n } else { t with stat := { t.stat with rm := n.rm, flags := n.flags } }

/-- A write of an INBOX: the ring is reset and its held message forgotten (R33, R183). -/
def Thread.writeInbox (t : Thread) (w : Word) : Thread :=
  { t with inbox := Inbox.ofWord w, wpos := 0, rpos := 0, heldMsg := none }

/-- A write of SRVTABn (R35). -/
def Thread.writeSrvtab (t : Thread) (n : Nat) (w : Word) : Thread :=
  if h : n < 16 then { t with srvtab := t.srvtab.set n (SrvBind.ofWord w) } else t

/-- A write of a per-thread control register that is not LMSPLIT or GPOOL. -/
def Thread.ctlWrite (t : Thread) (addr : Nat) (w : Word) : Thread :=
  match addr with
  | 0x000 => t.writeStat w
  | 0x001 => { t with sstat := Stat.ofWord w }
  | 0x002 => { t with ecause := w.setWidth 8 }
  | 0x003 => { t with epc := addrField w }
  | 0x004 => { t with eval1 := w }
  | 0x005 => { t with eval2 := w }
  | 0x006 => { t with tvec := addrField w }
  | 0x007 => { t with hscr := w }
  | 0x011 => { t with reqf := w.setWidth 6 }
  | 0x023 => { t with ctx := w.setWidth 16 }
  | 0x032 => t.writeInbox w
  | 0x040 => { t with lcnt := w }
  | 0x041 => { t with lstart := addrField w }
  | 0x042 => { t with lend := addrField w }
  | _ => t.writeSrvtab (addr - 0x60) w

/-- Whether a ring lies in a scratchpad of some number of bytes (R33). -/
def Inbox.fits (b : Inbox) (bytes : Nat) : Bool := decide (b.base.toNat + 256 * 2 ^ b.size.toNat ≤ bytes)

/-- The threads of a core. -/
def coreThreads (s : State) (c : Nat) : List Thread := (List.range 16).map fun k => s.threadAt (c * 16 + k)

/-- The fault of a write of LMSPLIT or INBOX (R33), none when its value is accepted. -/
def ctlDefect (s : State) (addr : Nat) (w : Word) : Option Cause :=
  if addr = 0x030 then
    let split := nbits w.toNat 0 4
    if 8 < split then some .illegalInstr
    else if (coreThreads s s.here).any fun t => t.inbox.en && !t.inbox.fits (split * 16384) then some .localRange
    else none
  else if addr = 0x032 then
    let b := Inbox.ofWord w
    if 8 < b.size.toNat then some .illegalInstr
    else if b.en && !b.fits (scratchSize s s.here) then some .localRange
    else none
  else none

/-- LMSPLIT changes (R33): the ways that become scratchpad are written back and dropped, scratchpad bytes that
change role read zero. -/
def setLmsplit (s : State) (c : Nat) (new : BitVec 4) : State :=
  let old := (s.core c).lmsplit
  let gone := (s.portionOf c).filter fun l => decide (l.way < new.toNat)
  let s := s.setCore c { s.core c with
    lmsplit := new, portion := (s.portionOf c).filter fun l => !decide (l.way < new.toNat) }
  let s := gone.foldl writeBack s
  let lo := scratchKey c (min old.toNat new.toNat * 16384)
  let hi := scratchKey c (2 ^ 17)
  { s with
    scratch := s.scratch.filter fun p => decide (p.1 < lo) || decide (hi ≤ p.1)
    scratchPoison := s.scratchPoison.filter fun k => decide (k * 8 < lo) || decide (hi ≤ k * 8) }

/-- A write of LMSPLIT of the focus thread's core (R33). -/
def writeLmsplit (s : State) (w : Word) : State := setLmsplit s s.here (w.setWidth 4)

/-- GPOOL.EN changes (R294): from 1 to 0 the core's pool lines elsewhere and the pool lines it hosts are
written back and dropped. -/
def setGpool (s : State) (c : Nat) (en : Bool) : State :=
  let goes := fun (h : Nat) (l : Line) => (l.owner == c) != (h == c)
  let s :=
    if (s.core c).gpool && !en then
      (groupCores c).foldl (fun s h =>
        let out := (s.portionOf h).filter (goes h)
        if out.isEmpty then s
        else out.foldl (fun s l => dirtyOut s l.no l.owner l.dirtyBytes)
          (s.setPortion h ((s.portionOf h).filter fun l => !goes h l))) s
    else s
  s.setCore c { s.core c with gpool := en }

/-- A write of GPOOL of the focus thread's core (R294). -/
def writeGpool (s : State) (w : Word) : State := setGpool s s.here (nbit w.toNat 0)

/-- A write of a control register of the focus thread takes effect. -/
def ctlApply (s : State) (addr : Nat) (w : Word) : State :=
  if addr = 0x030 then writeLmsplit s w
  else if addr = 0x031 then writeGpool s w
  else { s with th := s.th.ctlWrite addr w }

/-- CTLW, CTLSET and CTLCLR (R247, R248): a register not writable in the mode traps before the source is looked at
(R74), and the write stands after the instruction's own completion (R41), whose closing step of a loop at LEND runs on the
old values also where LCNT, LSTART or LEND is written (DESIGN CHOICE, log 91: R41 says it of STAT.PP and STAT.LA). -/
def ctlModify (i : Instr) (src : RegCode) (addr : Nat) (s : State) (f : Word → Word → Word) : Out :=
  let w := encode i
  let r : Srcs := { more := [src] }
  issue w {} {} .none s fun s =>
    if (ctlRead s addr).isSome && !ctlMayWrite s.th.stat.mode addr then
      trap .privileged (evalWord w) (BitVec.ofNat 64 addr) s
    else issue w {} r .none s fun s =>
      match ctlRead s addr with
      | none => trap .illegalInstr (evalWord w) 0 s
      | some old =>
        let new := f old (s.th.value src)
        match ctlDefect s addr new with
        | some .localRange => trap .localRange new (BitVec.ofNat 64 addr) s
        | some _ => trap .illegalInstr (evalWord w) 0 s
        | none =>
          let s := s.leave r
          .next (ctlApply (s.withTh (s.th.consume r).complete) addr new)

/-- What ERET restores (R249): STAT but for FLAGS, the prefix latch, and the pc; hold latches go, and a
loop is captured again as its words are fetched (R40). -/
def Thread.eret (t : Thread) : Thread :=
  { t with
    stat := { t.sstat with flags := t.stat.flags }, pfx := t.pfxShadow, pc := addrField t.epc
    latchA := none, latchB := none, loopBuf := [], phase := .fresh, held := none, wait := .none, walkFails := [] }

/-- Whether an ERET meets a loop it could not capture (R104). -/
def Thread.badLoop (t : Thread) : Bool := t.sstat.la && t.loopTooBig

/-- The result of a TLBPROBE (R253): what the TLBs hold, without a walk and without a change. -/
def probeWord (s : State) (ctx va : Nat) : Word :=
  if va / 2 ^ 55 ≠ 0 || inWindow va then 0
  else
    let mark := (tget [] s.marks (tileOf s.here)).any fun m => m.ctx == ctx && m.page == va / 65536
    let base := if mark then 2 ^ 58 else 0
    match tlbFind s s.here ctx va with
    | none => BitVec.ofNat 64 base
    | some (level, e) =>
      let size := match e.size with | .k64 => 0 | .m2 => 1 | .m512 => 2 | .t4 => 3
      BitVec.ofNat 64 (2 ^ 63 + level * 2 ^ 61 + size * 2 ^ 59 + base + e.w.toNat * 2 ^ 57 +
        e.u.toNat * 2 ^ 56 + e.dev.toNat * 2 ^ 55 + nbits (e.phys va) 16 36 * 65536)

/-- The numbers of the lines in a core's portion and of its pool lines. -/
def portionLines (s : State) (c : Nat) : List Nat :=
  (s.portionOf c).map (·.no) ++ (groupCores c).flatMap fun h => ((s.portionOf h).filter (·.owner == c)).map (·.no)

/-- Every dirty byte of a core's portion and of its pool lines sent to L2, and beyond to the home of a
wider scope (R254). -/
def flushPortion (s : State) (c : Nat) (sc : Scope) : State :=
  if sc = .core then s
  else
    let lines := portionLines s c
    let hosted := (s.portionOf c).filter fun l => l.owner != c
    let s := s.setPortion c ((s.portionOf c).map fun l => if l.owner != c then l.cleaned else l)
    let s := hosted.foldl (fun s l => dirtyOut s l.no l.owner l.dirtyBytes) s
    releaseLines s c sc fun no => lines.contains no

/-- Every line of a core's portion, its pool lines, other cores' pool copies of those lines and, for a home beyond
L2, their L2 copies, dropped after the write-back (R254). -/
def dropPortion (s : State) (c : Nat) (sc : Scope) : State :=
  if sc = .core then s
  else
    let lines := portionLines s c
    let s := flushPortion s c .party
    let s := releaseLines (lines.foldl (fun s no => dropPooled s c no) s) c sc fun no => lines.contains no
    let s := (groupCores c).foldl (fun s h =>
      s.setPortion h (if h = c then [] else (s.portionOf h).filter (·.owner != c))) s
    match sc with
    | .pkg => { s with l2 := tput s.l2 (dieOf c) ((s.l2Lines (dieOf c)).filter fun l => !lines.contains l.no) }
    | .sys => { s with l2 := tput s.l2 (dieOf c) ((s.l2Lines (dieOf c)).filter fun l => !lines.contains l.no) }
    | _ => s

/-- Whether a line of a core holds dirty bytes stored under a context, whoever runs in the slot now (R247, R252). -/
def writtenUnder (ctx c : Nat) (l : Line) : Bool := l.owner == c && !l.dirtyBytes.isEmpty && l.ctxs.contains ctx

/-- Every store that a thread of a context has made performed at the SYS home, with what the L2 slices still hold
(R252, R313, log 73). -/
def performCtx (s : State) (ctx : Nat) : State :=
  let s := (s.cores.map (·.1)).foldl (fun s c =>
    let lines := ((groupCores c).flatMap s.portionOf).filter (writtenUnder ctx c)
    if lines.isEmpty then s else flushLines s c fun no => lines.any (·.no == no)) s
  (List.range 4).foldl (fun s d => if (s.l2Lines d).isEmpty && (s.mshrOf d).isEmpty then s else flushL2 s d fun _ => true) s

/-- Whether a thread still waits for an access that a context translated before a mark (R252). -/
def accessBefore (ctx mark : Nat) (t : Thread) : Bool :=
  (t.loads.any fun l => l.ctx == ctx && decide (l.id < mark)) ||
  (t.devCtx.toNat == ctx && t.devStore) ||
  (t.ctx.toNat == ctx && match t.vload with
    | some v => v.reqs.any fun r => decide (r.id < mark)
    | none => false)

/-- TRAP: R249. -/
def execTrap (code : BitVec 18) (s : State) : Out :=
  issue (encode (.trap code)) {} {} .none s fun s => trap .trapInstr (code.setWidth 64) 0 s

/-- ERET: R249, R179: a pending refusal is taken at the return address from the restored mode. -/
def execEret  (s : State) : Out :=
  issue (encode .eret) { priv := true } {} .none s fun s =>
    if s.th.sends ≠ 0 then stall .sends s
    else if s.th.badLoop then trap .loopFault s.th.lstart s.th.lend s
    else
      let s := s.leave {}
      let t := s.th.eret
      match t.refused with
      | none => .next (s.withTh t)
      | some r =>
        .next (takeTrap .sendRefused r.cap (r.more.setWidth 64 <<< 8 ||| r.sub.setWidth 64)
          (s.withTh { t with refused := none }))

/-- WFI: R250. -/
def execWfi  (s : State) : Out :=
  issue (encode .wfi) {} {} .none s fun s =>
    let s := s.leave {}
    .next (s.withTh { (s.th.consume {}).complete with wait := .wfi })

/-- CTLR: R247. -/
def execCtlr (d : RegCode) (addr : BitVec 12) (s : State) : Out :=
  let w := encode (.ctlr d addr)
  issue w {} {} (.sync d) s fun s =>
    match ctlRead s addr.toNat with
    | none => trap .illegalInstr (evalWord w) 0 s
    | some v => retire {} s fun t => t.writeSync d v

/-- CTLW: R247. -/
def execCtlw (src : RegCode) (addr : BitVec 12) (s : State) : Out :=
  ctlModify (.ctlw src addr) src addr.toNat s fun _ v => v

/-- CTLSET: R247. -/
def execCtlset (src : RegCode) (addr : BitVec 12) (s : State) : Out :=
  ctlModify (.ctlset src addr) src addr.toNat s fun old v => old ||| v

/-- CTLCLR: R247. -/
def execCtlclr (src : RegCode) (addr : BitVec 12) (s : State) : Out :=
  ctlModify (.ctlclr src addr) src addr.toNat s fun old v => old &&& ~~~v

/-- TLBINV: R251, R252. The invalidation is made once its release is done; the thread then waits at the instruction for completion. -/
def execTlbinv (d a b : RegCode) (hA hB : Bool) (s : State) : Out :=
  let r : Srcs := { a := some a, b := some b, hA, hB, more := [d] }
  issue (encode (.tlbinv d a b hA hB)) { priv := true } r .none s fun s =>
    let ctx := (s.th.value d).toNat % 65536
    let base := (s.th.readA a).toNat
    let len := (s.th.readB b).toNat
    if base / 2 ^ 55 ≠ 0 || decide (2 ^ 55 < base + len) then
      trap .tlbRange (s.th.readA a) (s.th.readB b) s
    else if len = 0 || s.th.phase = .acquired then retire r s id
    else withRelease .sys s fun s => stall (.tlbinv ctx s.serial) (invalidate s ctx base len)

/-- TLBPROBE: R253. -/
def execTlbprobe (d a b : RegCode) (hA hB : Bool) (s : State) : Out :=
  let r : Srcs := { a := some a, b := some b, hA, hB }
  issue (encode (.tlbprobe d a b hA hB)) { priv := b != 58 } r (.late [d]) s fun s =>
    let ctx := if b = 58 then s.th.ctx.toNat else (s.th.readB b).toNat % 65536
    let v := probeWord s ctx (s.th.readA a).toNat
    retire r s fun t => { t.pend d with late := t.late ++ [⟨.tlbprobe, d, v⟩] }

/-- CWB: R254. -/
def execCwb (sc : Scope) (s : State) : Out :=
  issue (encode (.cwb sc)) {} {} .none s fun s =>
    if sc = .core || s.th.phase = .released then retire {} s id
    else stall .releaseAck (flushPortion s s.here sc)

/-- CINV: R254. -/
def execCinv (sc : Scope) (s : State) : Out :=
  issue (encode (.cinv sc)) {} {} .none s fun s =>
    if sc = .core || s.th.phase = .released then retire {} (dropPortion s s.here sc) id
    else stall .releaseAck (flushPortion s s.here sc)

/-- A late value of a kind reaches its register (R27, R191, R199, R253): the oldest of the kind for
register ev.reg of the thread at place ev.p. -/
def deliverLate (s : State) (k : LateKind) : State :=
  let t := s.threadAt s.ev.p
  match t.late.find? fun x => x.kind == k && x.dst == s.ev.reg with
  | none => s
  | some x => s.setThreadAt s.ev.p { t.writeLate x.dst x.val with late := t.late.erase x }

/-- STAT_WRITE: the write of STAT that a CTLW, CTLSET or CTLCLR of the thread in focus makes (R31). -/
def execStatWrite (s : State) : Out :=
  .next { s with th := s.th.writeStat s.ev.v }

/-- LMSPLIT_WRITE: the write of LMSPLIT by the thread in focus (R33); a value R33 refuses changes nothing. -/
def execLmsplitWrite (s : State) : Out :=
  .next (if (ctlDefect s 0x030 s.ev.v).isSome then s else writeLmsplit s s.ev.v)

/-- INBOX_WRITE: the write of INBOX by the thread in focus (R33). -/
def execInboxWrite (s : State) : Out :=
  .next (if (ctlDefect s 0x032 s.ev.v).isSome then s else { s with th := s.th.writeInbox s.ev.v })

/-- GPOOL_WRITE: the supervisor write of GPOOL on the core of the thread in focus (R294). -/
def execGpoolWrite (s : State) : Out :=
  .next (writeGpool s s.ev.v)

/-- SRVTAB_WRITE: the write of SRVTABn, n in ev.n, by the thread in focus (R35). -/
def execSrvtabWrite (s : State) : Out :=
  .next { s with th := s.th.writeSrvtab s.ev.n s.ev.v }

/-- TLBINV_COMPLETE (R252, R313): every walk of the context that began before has ended, every access translated
before has returned, and every store has been performed at its home; the thread at place ev.p goes on. -/
def execTlbinvComplete (s : State) : Out :=
  let t := s.threadAt s.ev.p
  match t.wait with
  | .tlbinv ctx mark =>
    if (s.walks.any fun w => w.2.any fun x => x.ctx == ctx && x.stale) || s.threads.any (accessBefore ctx mark) then .next s
    else
      let s := performCtx s ctx
      .next (s.setThreadAt s.ev.p { s.threadAt s.ev.p with wait := .none, phase := .acquired })
  | _ => .next s

/-- TLBPROBE_RESULT: a TLBPROBE answers its register ev.reg of the thread at place ev.p (R253). -/
def execTlbprobeResult (s : State) : Out :=
  .next (deliverLate s .tlbprobe)

end Sys2Proof.Machine
end

