-- ==== Sys2Proof/Machine/Cap.lean ====
section
/-!
DEFINITION. Capabilities (R170 to R173): their fields, AES-128-CMAC (FIPS 197, NIST SP 800-38B) and the
16-bit check.
-/

namespace Sys2Proof.Machine

/-- The AES substitution box, byte i at bits [8i+7 : 8i]. -/
def aesSbox : Nat := 0x16bb54b00f2d99416842e6bf0d89a18cdf2855cee9871e9b948ed9691198f8e19e1dc186b95735610ef6034866b53e708a8bbd4b1f74dde8c6b4a61c2e2578ba08ae7a65eaf4566ca94ed58d6d37c8e779e4959162acd3c25c2406490a3a32e0db0b5ede14b8ee4688902a22dc4f816073195d643d7ea7c41744975fec130ccdd2f3ff1021dab6bcf5389d928f40a351a89f3c507f02f94585334d43fbaaefd0cf584c4a39becb6a5bb1fc20ed00d153842fe329b3d63b52a05a6e1b1a2c830975b227ebe28012079a059618c323c7041531d871f1e5a534ccf73f362693fdb7c072a49cafa2d4adf04759fa7dc982ca76abd7fe2b670130c56f6bf27b777c63

/-- SubBytes of one byte. -/
def aesSub (b : Nat) : Nat := aesSbox / 2 ^ (8 * b) % 256

/-- Multiplication by x in GF(2^8). -/
def aesDouble (b : Nat) : Nat := if b < 128 then 2 * b else (2 * b - 256) ^^^ 0x1B

/-- Byte-wise exclusive or. -/
def xorBytes (a b : List Nat) : List Nat := List.zipWith (· ^^^ ·) a b

/-- ShiftRows on the 16 bytes in column order. -/
def aesShift (s : List Nat) : List Nat :=
  (List.range 16).map fun i => s.getD ((i + 4 * (i % 4)) % 16) 0

/-- MixColumns of one column. -/
def aesMixCol : List Nat → List Nat
  | [a, b, c, d] =>
    [aesDouble a ^^^ aesDouble b ^^^ b ^^^ c ^^^ d, a ^^^ aesDouble b ^^^ aesDouble c ^^^ c ^^^ d,
      a ^^^ b ^^^ aesDouble c ^^^ aesDouble d ^^^ d, aesDouble a ^^^ a ^^^ b ^^^ c ^^^ aesDouble d]
  | l => l

/-- MixColumns. -/
def aesMix (s : List Nat) : List Nat :=
  aesMixCol (s.take 4) ++ aesMixCol ((s.drop 4).take 4) ++ aesMixCol ((s.drop 8).take 4) ++ aesMixCol (s.drop 12)

/-- The next round key. -/
def aesNextKey (rcon : Nat) (k : List Nat) : List Nat :=
  let w3 := k.drop 12
  let t := [aesSub (w3.getD 1 0) ^^^ rcon, aesSub (w3.getD 2 0), aesSub (w3.getD 3 0), aesSub (w3.getD 0 0)]
  let w0 := xorBytes (k.take 4) t
  let w1 := xorBytes ((k.drop 4).take 4) w0
  let w2 := xorBytes ((k.drop 8).take 4) w1
  w0 ++ w1 ++ w2 ++ xorBytes w3 w2

/-- The rounds left, with the round constant and key. -/
def aesRounds : Nat → Nat → List Nat → List Nat → List Nat
  | 0, _, _, s => s
  | n + 1, rcon, k, s =>
    let k := aesNextKey rcon k
    let s := aesShift (s.map aesSub)
    aesRounds n (aesDouble rcon) k (xorBytes (if n = 0 then s else aesMix s) k)

/-- AES-128 encryption of a block of 16 bytes. -/
def aes128 (key block : List Nat) : List Nat := aesRounds 10 1 key (xorBytes block key)

/-- A 128-bit string shifted left by one, most significant byte first, with the constant of SP 800-38B. -/
def cmacDouble (b : List Nat) : List Nat :=
  let v := b.foldl (fun n x => n * 256 + x) 0
  let d := if v < 2 ^ 127 then 2 * v else (2 * v - 2 ^ 128) ^^^ 0x87
  (List.range 16).map fun i => d / 256 ^ (15 - i) % 256

/-- AES-CMAC of a message of 8 bytes: one padded block under the second subkey. -/
def cmac8 (key msg : List Nat) : List Nat :=
  let k2 := cmacDouble (cmacDouble (aes128 key (List.replicate 16 0)))
  aes128 key (xorBytes (msg ++ [0x80, 0, 0, 0, 0, 0, 0, 0]) k2)

/-- The check of a capability word under a key (R171). -/
def capCheck (key : List Byte) (c : Word) : BitVec 16 :=
  let m := (leBytes 8 (c.toNat / 65536 * 65536)).map BitVec.toNat
  let t := cmac8 (key.map BitVec.toNat) m
  BitVec.ofNat 16 (t.getD 0 0 + 256 * t.getD 1 0)

/-- Fields of a capability (R170). -/
def capKind (c : Word) : Nat := nbits c.toNat 62 2
def capPkg (c : Word) : Nat := nbits c.toNat 54 8
def capThr (c : Word) : Nat := nbits c.toNat 38 16
def capReg (c : Word) : Nat := nbits c.toNat 32 6
def capSize (c : Word) : Nat := nbits c.toNat 32 4
def capGen (c : Word) : BitVec 8 := BitVec.ofNat 8 (nbits c.toNat 24 8)
def capRights (c : Word) : Nat := nbits c.toNat 22 2

/-- The first defect of a capability's form as R173 numbers it, 0 for none. -/
def capDefect (c : Word) : Nat :=
  if capKind c ≠ 1 && capKind c ≠ 2 then 1
  else if capRights c = 0 || (capKind c = 2 && capRights c ≠ 1) then 2
  else if nbits c.toNat 16 6 ≠ 0 || (capKind c = 2 && nbits c.toNat 36 2 ≠ 0) || (capKind c = 1 && 55 < capReg c) then 3
  else 0

/-- The key of a survey (R171). -/
def State.keyOf (s : State) (surv : Nat) : List Byte := (tget {} s.surveys surv).key

/-- A capability minted for a thread (R172): kind, field [37:32] and rights. -/
def mintCap (s : State) (t : Thread) (kind field rights : Nat) : Word :=
  let c : Word := BitVec.ofNat 64
    (kind * 2 ^ 62 + t.rank.logical.toNat * 2 ^ 38 + field * 2 ^ 32 + t.rank.gen.toNat * 2 ^ 24 + rights * 2 ^ 22)
  c ||| (capCheck (s.keyOf t.party.surv.toNat) c).setWidth 64

end Sys2Proof.Machine
end

