-- ==== Sys2Proof/Machine/Threads.lean ====
section
/-!
DEFINITION. Majors 0x28 to 0x2B: barriers and thread control, register sends, serve calls and channels
(R163 to R188).
-/

namespace Sys2Proof.Machine

/-- The synchronising step after a SENDR.W or CHSEND.BLK has sent (R175, R179, R180): the hold latches that its
reading left stay for the next instruction (R25). -/
def finishSent (s : State) : Out :=
  if s.th.sends ≠ 0 then stall .sends s
  else match s.th.refused with
    | some r =>
      trap .sendRefused r.cap (r.more.setWidth 64 <<< 8 ||| r.sub.setWidth 64)
        { s with th := { s.th with refused := none } }
    | none => .next ((s.leave {}).withTh (s.leave {}).th.complete)

/-- The address of the instruction that left the pc where it is without a transfer of control: the last of an
active loop's body when the pc is at its start, else the word before (R102). -/
def Thread.before (t : Thread) : Word := if t.looping && t.pc == t.lstart then t.lend else t.pc - 4

/-- The synchronising step of a thread restored after a SENDR.W or CHSEND.BLK (R277): a refusal is taken at that
instruction, which lies before the saved pc; otherwise the thread goes on. -/
def resumeSync (s : State) (k : State → Out) : Out :=
  if s.th.sends ≠ 0 then stall .sends s
  else match s.th.refused with
    | some r =>
      trap .sendRefused r.cap (r.more.setWidth 64 <<< 8 ||| r.sub.setWidth 64)
        { s with th := { s.th with refused := none, pc := s.th.before, phase := .fresh } }
    | none => k { s with th := { s.th with phase := .fresh } }

/-- The send has left: the instruction completes, or, in a blocking form, waits at its address for its
synchronising step with its sources already consumed. -/
def afterSend (blk : Bool) (r : Srcs) (s : State) (f : Thread → Thread) : Out :=
  if blk then
    let s := s.leave r
    .next (s.withTh { f (s.th.consume r) with phase := .sent, wait := .sends })
  else retire r s f

/-- A release before a send when the form asks for one. -/
def withReleaseAt (rel : Option Scope) (s : State) (k : State → Out) : Out :=
  match rel with
  | some sc => withRelease sc s k
  | none => k s

/-- SENDR in its four forms (R175). -/
def sendReg (i : Instr) (a b : RegCode) (hA hB : Bool) (rel : Option Scope) (blk : Bool) (s : State) : Out :=
  if s.th.phase = .sent then finishSent s
  else
    let r : Srcs := { a := some a, b := some b, hA := hA, hB := hB }
    issue (encode i) {} r .none s fun s =>
      let c := s.th.readA a
      let v := s.th.readB b
      if capKind c ≠ 1 then trap .capability c 1 s
      else if capDefect c ≠ 0 then trap .capability c (BitVec.ofNat 64 (capDefect c)) s
      else withReleaseAt rel s fun s =>
        let s := { s with flight := s.flight ++ [.send c v s.th.rank.logical none s.here] }
        afterSend blk r s fun t => { t with sends := t.sends + 1 }

/-- ARM (R27, R174). -/
def armReg (i : Instr) (d : RegCode) (aq : Option Scope) (s : State) : Out :=
  issue (encode i) {} {} .none s fun s =>
    let x := s.th.reg d.toNat
    if x.sb = .pending then stall (.reg d) s
    else retire {} s fun t =>
      t.setReg d.toNat (if x.sb = .ready then { x with sb := .armed, ra := false, ex := true, aq := aq }
        else { x with ex := true, aq := aq })

/-- The scratchpad offset of n bytes at a window address when all of them lie in the thread's own
scratchpad (R180); else the first address that does not. -/
def ownRange (s : State) (va : Word) (n : Nat) : Except Word Nat :=
  if n = 0 then .ok 0
  else if !inWindow va.toNat then .error va
  else match windowKey s va.toNat with
    | none => .error va
    | some k =>
      if k / 2 ^ 17 ≠ s.here then .error va
      else
        let off := k % 2 ^ 17
        let size := scratchSize s s.here
        if off + n ≤ size then .ok off else .error (va + BitVec.ofNat 64 (size - off))

/-- Bytes a message of n payload bytes takes in a ring (R180). -/
def msgBytes (n : Nat) : Nat := 8 + 8 * ((n + 7) / 8)

/-- CHSEND in its four forms (R180). -/
def chanSend (i : Instr) (d a b : RegCode) (hA hB : Bool) (rel : Option Scope) (blk : Bool) (s : State) : Out :=
  if s.th.phase = .sent then finishSent s
  else
    let r : Srcs := { a := some a, b := some b, hA := hA, hB := hB, more := [d] }
    issue (encode i) {} r .none s fun s =>
      let c := s.th.readA a
      let n := (s.th.value d).toNat
      let ring := 256 * 2 ^ capSize c
      if capDefect c ≠ 0 then trap .capability c (BitVec.ofNat 64 (capDefect c)) s
      else if (capKind c = 1 && n ≠ 8) || (capKind c = 2 && (65528 < n || ring - 8 < msgBytes n)) then
        trap .msgTooLarge c (BitVec.ofNat 64 n) s
      else match ownRange s (s.th.readB b) n with
        | .error va => trap .localRange va (BitVec.ofNat 64 n) s
        | .ok off =>
          if 8 ≤ s.th.sendBuf.length then stall .sendBuf s
          else withReleaseAt rel s fun s =>
            let m : OutMsg := { id := s.serial, cap := c, off := off, len := n }
            let s := { s with serial := s.serial + 1 }
            afterSend blk r s fun t => { t with sends := t.sends + 1, sendBuf := t.sendBuf ++ [m] }

/-- The size of a thread's inbox ring (R32). -/
def Thread.ringSize (t : Thread) : Nat := 256 * 2 ^ t.inbox.size.toNat

/-- The header at a position of a thread's ring (R181). -/
def ringHeader (s : State) (t : Thread) (pos : Nat) : Nat :=
  leNat (cgets s.scratch (scratchKey (coreOf t.place) (t.inbox.base.toNat + pos)) 8)

/-- The read position after skip headers (R183); only a ring that is not empty has one to look at
(log 20). -/
def skipTo (s : State) (t : Thread) : Nat → Nat → Nat
  | 0, pos => pos
  | n + 1, pos =>
    if pos = t.wpos.toNat then pos
    else if ringHeader s t pos % 256 = 2 then skipTo s t n 0
    else pos

/-- The ring after the held message is freed and skips are followed (R182, R183). -/
def freeHeld (s : State) (t : Thread) : Thread :=
  let pos := t.heldMsg.getD t.rpos.toNat
  let pos := skipTo s t 2 pos
  if pos = t.wpos.toNat then { t with heldMsg := none, wpos := 0, rpos := 0 }
  else { t with heldMsg := none, rpos := BitVec.ofNat 16 pos }

/-- CHRECV and CHPOLL (R183). -/
def chanRecv (i : Instr) (d : RegCode) (poll : Bool) (aq : Option Scope) (s : State) : Out :=
  issue (encode i) {} {} (.sync d) s fun s =>
    if !s.th.inbox.en then trap .localRange 0 0 s
    else
      let t := freeHeld s s.th
      let s := s.withTh t
      if t.rpos = t.wpos then
        if poll then retire {} s fun t => t.writeSync d 0 else stall .ring s
      else
        let h := ringHeader s t t.rpos.toNat
        let len := nbits h 16 16
        let after := (t.rpos.toNat + msgBytes len) % t.ringSize
        let v : Word := BitVec.ofNat 64
          (nbits h 40 24 * 2 ^ 40 + len * 2 ^ 24 + (t.inbox.base.toNat + t.rpos.toNat + 8))
        let s := s.leave {}
        let u := (({ s.th with heldMsg := some after }.consume {}).writeSync d v).complete
        .next (s.withTh (match aq with
          | some sc => { u with wait := .acquire sc true }
          | none => u))

/-- The registers an SRV sends, in the order of R68. -/
def srvArgs (a b : RegCode) (na : Nat) : List RegCode :=
  [a] ++ (if 1 ≤ na then [b] else []) ++ (if 2 ≤ na then [a + 1] else []) ++ (if 3 ≤ na then [b + 1] else [])

/-- The registers an SRV writes (R68). -/
def srvResults (d : RegCode) (nr : Nat) : List RegCode := (List.range (nr + 1)).map fun k => d + BitVec.ofNat 6 k

/-- BAR: R184, R179. The arrival is made once; when the episode is open the thread acquires at PARTY. -/
def execBar  (s : State) : Out :=
  let w := encode .bar
  issue w {} {} .none s fun s =>
    if s.th.stat.mode then trap .barrierMisuse (evalWord w) 0 s
    else withSync s fun s => withRelease .party s fun s =>
      match s.th.phase with
      | .acquired => retire {} s id
      | .arrived ep =>
        if ep < (s.party s.th.pid).episode then stall (.acquire .party false) s else stall (.barrier ep) s
      | _ =>
        let ep := (s.party s.th.pid).episode
        let s := barrierArrive s s.th
        .next { s with th := { s.th with phase := .arrived ep, wait := .barrier ep } }

/-- TRIG: R185, R16. -/
def execTrig  (s : State) : Out :=
  issue (encode .trig) {} {} .none s fun s =>
    withRelease .sys s fun s => retire {} (triggerParty s s.th.pid) id

/-- EXIT: R186, R12; in supervisor mode the thread ends trap-terminated with the cause in ECAUSE. -/
def execExit  (s : State) : Out :=
  issue (encode .exit) {} {} .none s fun s =>
    withSync s fun s => withRelease .sys s fun s =>
      let s := s.leave {}
      let s := if s.th.stat.mode then recordTrap s s.th.pid s.th.rank.logical s.th.ecause else s
      .next (endThread s s.th.place)

/-- YIELD: R187; the slots that are ready when it issues are those past their revisit interval (R18). -/
def execYield  (s : State) : Out :=
  issue (encode .yield) {} {} .none s fun s =>
    let others := (List.range 16).filter fun k =>
      k != s.th.place % 16 && runnable s (s.threadAt (s.here * 16 + k)) && decide (readyAt (s.threadAt (s.here * 16 + k)) ≤ s.clock)
    retire {} s fun t => { t with yields := others, yieldAt := t.leftAt }

/-- SLEEP: R187. -/
def execSleep (a : RegCode) (hA : Bool) (s : State) : Out :=
  let r : Srcs := { a := some a, hA := hA }
  issue (encode (.sleep a hA)) {} r .none s fun s =>
    let n := (s.th.readA a).toNat
    if n = 0 then retire r s id
    else
      let s := s.leave r
      let t := (s.th.consume r).complete
      .next (s.withTh { t with wait := .sleep (s.clock + n) })

/-- MIGPT: R188. -/
def execMigpt  (s : State) : Out :=
  issue (encode .migpt) {} {} .none s fun s =>
    if s.th.migReq then stall .migpt s else retire {} s id

/-- HINT: R187; advice only (R373). -/
def execHint (phase : BitVec 2) (s : State) : Out :=
  issue (encode (.hint phase)) {} {} .none s fun s => retire {} s id

/-- ARM: R174. -/
def execArm (d : RegCode) (s : State) : Out :=
  armReg (.arm d) d none s

/-- ARM.ACQ: R174. -/
def execArmAcq (d : RegCode) (sc : Scope) (s : State) : Out :=
  armReg (.armAcq d sc) d (some sc) s

/-- SENDR: R175. -/
def execSendr (a b : RegCode) (hA hB : Bool) (s : State) : Out :=
  sendReg (.sendr a b hA hB) a b hA hB none false s

/-- SENDR_REL: R175. -/
def execSendrRel (a b : RegCode) (hA hB : Bool) (sc : Scope) (s : State) : Out :=
  sendReg (.sendrRel a b hA hB sc) a b hA hB (some sc) false s

/-- SENDR_W: R175. -/
def execSendrW (a b : RegCode) (hA hB : Bool) (s : State) : Out :=
  sendReg (.sendrW a b hA hB) a b hA hB none true s

/-- SENDR_W_REL: R175. -/
def execSendrWRel (a b : RegCode) (hA hB : Bool) (sc : Scope) (s : State) : Out :=
  sendReg (.sendrWRel a b hA hB sc) a b hA hB (some sc) true s

/-- CAPR: R172. -/
def execCapr (d b : RegCode) (rights : BitVec 2) (s : State) : Out :=
  alu (encode (.capr d b rights)) {} {} d s fun t => mintCap s t 1 b.toNat rights.toNat

/-- CAPCHK: R173. -/
def execCapchk (d a : RegCode) (hA : Bool) (s : State) : Out :=
  alu (encode (.capchk d a hA)) {} { a := some a, hA } d s fun t =>
    let c := t.readA a
    if capDefect c ≠ 0 then BitVec.ofNat 64 (capDefect c)
    else if capCheck (s.keyOf t.party.surv.toNat) c = c.setWidth 16 then 0 else 4

/-- CAPI: R172. -/
def execCapi (d : RegCode) (s : State) : Out :=
  alu (encode (.capi d)) {} {} d s fun t => mintCap s t 2 t.inbox.size.toNat 1

/-- SRV: R165 to R169. The pc stays at the SRV until the result is written back. -/
def execSrv (d a b : RegCode) (nr na : BitVec 2) (sel : BitVec 4) (s : State) : Out :=
  let regs := srvArgs a b na.toNat
  let r : Srcs := { a := some a, b := if na = 0 then none else some b, more := regs.drop 2 }
  let res := srvResults d nr.toNat
  issue (encode (.srv d a b nr na sel)) { feat := 8 } r .none s fun s =>
    let t := s.th
    let bind := t.srvtab[sel.toNat]
    match if bind.v then serverOf s bind.img.toNat bind.sidx.toNat else none with
    | none => trap .servePoison 0xFFFF 0xFF s
    | some (ridx, ent) =>
      match t.dstWait (.late res) with
      | some c => stall (.reg c) s
      | none => withRelease .core s fun s =>
        let t := s.th
        let seq := t.srvSeq + 1
        let tag : BitVec 16 := BitVec.ofNat 16 ((s.here % 64 * 16 + t.place % 16) * 64 + seq.toNat)
        let args := regs.map fun c => if c = a then t.readA a else if c = b then t.readB b else t.value c
        let cl := clusterOf s.here
        let sid := t.party.surv.toNat
        let me : Caller := ⟨t.place, s.here, s.serial, (s.party t.pid).cores, t.ctx.toNat, t.stat.mode⟩
        let pk : EdgePacket := ⟨bind.img.toNat, ridx, sid, ent, ⟨tag, args, nr.toNat + 1, me⟩, false⟩
        let q : RegionReq := { img := bind.img.toNat, ridx := ridx, surv := sid, ctxid := t.ctx.toNat, place := t.place }
        let k := s.cluster cl
        let s := (s.setCluster cl (requestRegion { k with packets := k.packets ++ [pk] } q)).leave r
        let call : SrvCall :=
          { tag := tag.toNat, id := s.serial, d := d, nr := nr.toNat + 1, old := res.map t.value, pc := t.pc, word := encode (.srv d a b nr na sel) }
        let t := res.foldl Thread.pend (s.th.consume r)
        .next ({ s with serial := s.serial + 1 }.withTh { t with srvSeq := seq, srvCall := some call, wait := .srv })

/-- CHSEND: R180. -/
def execChsend (d a b : RegCode) (hA hB : Bool) (s : State) : Out :=
  chanSend (.chsend d a b hA hB) d a b hA hB none false s

/-- CHSEND_REL: R180. -/
def execChsendRel (d a b : RegCode) (hA hB : Bool) (sc : Scope) (s : State) : Out :=
  chanSend (.chsendRel d a b hA hB sc) d a b hA hB (some sc) false s

/-- CHSEND_BLK: R180. -/
def execChsendBlk (d a b : RegCode) (hA hB : Bool) (s : State) : Out :=
  chanSend (.chsendBlk d a b hA hB) d a b hA hB none true s

/-- CHSEND_BLK_REL: R180. -/
def execChsendBlkRel (d a b : RegCode) (hA hB : Bool) (sc : Scope) (s : State) : Out :=
  chanSend (.chsendBlkRel d a b hA hB sc) d a b hA hB (some sc) true s

/-- CHRECV: R183. -/
def execChrecv (d : RegCode) (s : State) : Out :=
  chanRecv (.chrecv d) d false none s

/-- CHRECV_ACQ: R183. -/
def execChrecvAcq (d : RegCode) (sc : Scope) (s : State) : Out :=
  chanRecv (.chrecvAcq d sc) d false (some sc) s

/-- CHPOLL: R183. -/
def execChpoll (d : RegCode) (s : State) : Out :=
  chanRecv (.chpoll d) d true none s

/-- CHPOLL_ACQ: R183. -/
def execChpollAcq (d : RegCode) (sc : Scope) (s : State) : Out :=
  chanRecv (.chpollAcq d sc) d true (some sc) s

end Sys2Proof.Machine
end

