-- ==== Sys2Proof/Machine/Engine.lean ====
section
/-!
DEFINITION. Majors 0x30 to 0x34: engine commands, engine registers, handles and timelines (R189 to R206,
R209, R212, R214, R215, R223, R224).
-/

namespace Sys2Proof.Machine

/-- The feature an engine needs (R42, R69). -/
def engFeat (eng : Nat) : BitVec 6 := if eng = 3 then 32 else if eng = 1 || eng = 2 then 16 else 1

/-- TLSTAT as a word (R196). -/
def EngCtx.tlstat (x : EngCtx) : Word :=
  BitVec.ofNat 64 (x.tlFirst % 2 ^ 40 * 2 ^ 24 + x.tlFlags.toNat * 2 ^ 12 + x.tlWorst)

/-- An engine register as CXR reads it (R191, R194); an unassigned one reads zero. -/
def EngCtx.read (x : EngCtx) (n : Nat) : Word :=
  if n = 31 then BitVec.ofNat 64 x.count
  else if n = 30 then x.tlstat
  else if n = 29 then BitVec.ofNat 64 x.nextn
  else if n = 28 then x.cstat
  else tget 0 x.regs n

/-- Whether CXW writes an engine register (R205, R214, R215, R223). -/
def engWritable (eng n : Nat) : Bool :=
  match eng with
  | 0 => decide (n ≤ 10)
  | 1 => decide (n ≤ 5)
  | 2 => decide (n ≤ 1)
  | _ => decide (n ≤ 2)

/-- TLSTAT cleared (R191, R196). -/
def EngCtx.clearTlstat (x : EngCtx) : EngCtx := { x with tlFirst := 0, tlFlags := 0, tlWorst := 0 }

/-- The threads of a core that wait for an event are woken (R250). -/
def wakeCore (s : State) (c : Nat) : State :=
  (List.range 16).foldl (fun s k =>
    let t := s.threadAt (c * 16 + k)
    if t.wait = .wfi then s.setThreadAt (c * 16 + k) { t with wait := .none } else s) s

/-- A handle entry replaced; a change of its state ends every WFI of the core (R250). -/
def changeHandle (s : State) (c i : Nat) (h : Handle) : State :=
  let old := s.handle c i
  let s := s.setHandle c i h
  if old.st = h.st then s else wakeCore s c

/-- The generation after another: 2,047 wraps to 1 (R200). -/
def nextGen (g : Nat) : Nat := if g = 2047 then 1 else g + 1

/-- A handle's index and generation (R200). -/
def handleIdx (h : Nat) : Nat := nbits h 11 5
def handleGen (h : Nat) : Nat := nbits h 0 11

/-- Whether a handle operand names a live binding (R203). -/
def liveHandle (s : State) (c h : Nat) : Bool := decide (h < 65536) && (s.handle c (handleIdx h)).gen == handleGen h

/-- The window address of an offset in the core with a party-relative index (R110). -/
def windowAddr (core off : Nat) : Nat := 0x7FFFFF * 2 ^ 32 + core * 2 ^ 17 + off

/-- The first address from va below hi that names no scratchpad byte of the focus thread (R110, R111),
checked core by core; the fuel bounds the cores of the window. -/
def windowBreach (s : State) : Nat → Nat → Nat → Option Nat
  | 0, va, hi => if va < hi then some va else none
  | fuel + 1, va, hi =>
    if hi ≤ va then none
    else if !inWindow va then some va
    else match windowKey s va with
      | none => some va
      | some key =>
        let lim := va / 2 ^ 17 * 2 ^ 17 + scratchSize s (key / 2 ^ 17)
        let stop := min hi ((va / 2 ^ 17 + 1) * 2 ^ 17)
        if lim < stop then some lim else windowBreach s fuel stop hi

/-- The breach of n bytes at a window address. -/
def windowCheck (s : State) (va n : Nat) : Option Nat := windowBreach s 130 va (va + max n 1)

/-- Fields of CTL (R206). -/
def ctlTens (c : Nat) : Bool := nbit c 44
def ctlDfmt (c : Nat) : Nat := nbits c 40 4
def ctlSat (c : Nat) : Bool := nbit c 39
def ctlRnd (c : Nat) : Nat := nbits c 37 2
def ctlRop (c : Nat) : Nat := nbits c 34 3
def ctlGacc (c : Nat) : Bool := nbit c 33

/-- An extent of EXT (R205). -/
def extentOf (e k : Nat) : Nat := nbits e (12 * k) 12

/-- The format a reduction needs (R209). -/
def ropFmt (rop : Nat) : Nat := if rop = 1 || rop = 3 || rop = 4 then 6 else 1

/-- The bit width of a format code. -/
def codeWidth (c : Nat) : Nat := ((fmtOfCode c).map Fmt.width).getD 8

/-- Elements a tensor copy writes: the tile, or the rows of a GATHER (R204, R208). -/
def tileCount (gather gacc : Bool) (ext len : Nat) : Nat :=
  if gather then extentOf ext 0 * (if gacc then 1 else len)
  else extentOf ext 0 * extentOf ext 1 * extentOf ext 2 * extentOf ext 3 * extentOf ext 4

/-- The bytes a copy command writes when that is known at the CX (R204). -/
def copyCount (code : Nat) (r : Table Word) : Option Nat :=
  let ctl := (tget 0 r 3).toNat
  let len := (tget 0 r 2).toNat
  if !ctlTens ctl then some len
  else if ctlDfmt ctl = 0 then none
  else some ((tileCount (code == 2) (ctlGacc ctl) (tget 0 r 7).toNat len * codeWidth (ctlDfmt ctl) + 7) / 8)

/-- Engine registers of a context's snapshot that break a check of a COPY command (R205, R206, R209,
R212), ascending: R190 names the lowest, also where another is CTL with ROP = 7 (log 75). The destination is checked
as the address given. -/
def copyBreaks (code : Nat) (r : Table Word) (hd : Bool) (dst : Nat) : List Nat :=
  let ctl := (tget 0 r 3).toNat
  let len := (tget 0 r 2).toNat
  let ext := (tget 0 r 7).toNat
  let tens := ctlTens ctl
  let rop := ctlRop ctl
  let window := hd || inWindow dst
  (if ((rop ≠ 0 || code = 3) && code ≠ 1 && code ≠ 4 && (!window || dst % 4 ≠ 0)) || (code = 4 && !inWindow (tget 0 r 1).toNat)
    then [1] else []) ++
  (if (code = 2 && (len = 0 || 4096 < len)) || (code ≠ 2 && !tens && (len = 0 || 2 ^ 32 < len)) ||
      (code = 3 && !tens && len % 4 ≠ 0) then [2] else []) ++
  (if nbits ctl 45 19 ≠ 0 || nbits ctl 0 33 ≠ 0 || rop = 7 || 12 < ctlDfmt ctl ||
      (!tens && (ctlDfmt ctl ≠ 0 || ctlSat ctl || ctlRnd ctl ≠ 0)) ||
      ((code = 1 || code = 4) && rop ≠ 0) || (code = 3 && rop = 0) || (code = 2 && !tens) ||
      (code = 2 && ctlGacc ctl && rop = 0) ||
      (rop ≠ 0 && ctlDfmt ctl ≠ 0 && ctlDfmt ctl ≠ ropFmt rop) then [3] else []) ++
  (if tens && nbits (tget 0 r 6).toNat 32 32 ≠ 0 then [6] else []) ++
  (if tens && (nbits ext 60 4 ≠ 0 || (List.range 5).any fun k => extentOf ext k == 0) then [7] else []) ++
  (if code = 4 && (let n := ((List.range 64).filter fun k => nbit (tget 0 r 9).toNat k).length; n = 0 || 16 < n)
    then [9] else []) ++
  (let f := (tget 0 r 10).toNat
   if nbit f 63 && (nbits f 55 3 ≠ 0 || nbits f 0 50 ≠ 0 ||
      !((nbits f 60 3 = 1 && 1 ≤ nbits f 50 5 && nbits f 50 5 ≤ 4) || (nbits f 60 3 = 2 && nbits f 50 5 = 1)))
    then [10] else [])

/-- The breach of the handle operands themselves (R204): the register it names. -/
def handleBreaks (s : State) (code : Nat) (r : Table Word) (hs hd : Nat) : List Nat :=
  let c := s.here
  (if hs ≠ 0 && (code = 2 || hs = hd) then [0] else []) ++
  (if hd ≠ 0 && (code = 4 || (match copyCount code r with
      | some n => decide ((s.handle c (handleIdx hd)).size < n)
      | none => false)) then [1] else []) ++
  (if hs ≠ 0 && !ctlTens (tget 0 r 3).toNat &&
      (let n := (tget 0 r 2).toNat; n = 0 || decide ((s.handle c (handleIdx hs)).size < n)) then [2] else []) ++
  (if hs ≠ 0 && ctlTens (tget 0 r 3).toNat then [3] else [])

/-- Tiles of a weight format in a plane buffer, 0 for a code that is none (R214). -/
def weightTiles (f : Nat) : Nat :=
  match f with
  | 12 => 8 | 10 => 2 | 4 => 2 | 5 => 2 | 9 => 1 | 8 => 1 | 3 => 1 | 2 => 1 | _ => 0

/-- Bytes of an activation format, 0 for a code that is none (R214). -/
def actBytes (f : Nat) : Nat :=
  match f with
  | 8 => 1 | 11 => 1 | 4 => 1 | 5 => 1 | 3 => 2 | 2 => 2 | _ => 0

/-- Fields of WGEO, RGEO and GGEO (R214, R215). -/
def geoFmt (w : Nat) : Nat := nbits w 0 4
def wgeoK (w : Nat) : Nat := nbits w 4 10
def wgeoN (w : Nat) : Nat := nbits w 14 7
def wgeoSlot (w : Nat) : Nat := nbits w 21 3
def wgeoBuf (w : Nat) : Bool := nbit w 24
def rgeoM (w : Nat) : Nat := nbits w 4 7
def rgeoHalf (w : Nat) : Bool := nbit w 11
def rgeoBuf (w : Nat) : Bool := nbit w 12
def rgeoMask (w : Nat) : Nat := nbits w 13 8
def ggeoHalf (w : Nat) : Bool := nbit w 21

/-- Engine registers that break a check of a PLANE command (R214): LDW, RUN and FID read WFMT, K and N, and LDW its
tile slot. -/
def planeBreaks (code : Nat) (r : Table Word) : List Nat :=
  let w := (tget 0 r 1).toNat
  let g := (tget 0 r 3).toNat
  let tiles := weightTiles (geoFmt w)
  (if code ≤ 3 && (w / 2 ^ 25 ≠ 0 || tiles = 0 || wgeoK w = 0 || 512 < wgeoK w || wgeoN w = 0 || 64 < wgeoN w) ||
      (code = 1 && tiles ≤ wgeoSlot w)
    then [1] else []) ++
  (if code = 1 && (tget 0 r 2).toNat / 2 ^ 32 ≠ 0 then [2] else []) ++
  (if code = 2 && (g / 2 ^ 21 ≠ 0 || actBytes (geoFmt g) = 0 || rgeoM g = 0 || 64 / actBytes (geoFmt g) < rgeoM g ||
      rgeoMask g = 0 || (tiles ≠ 0 && 2 ^ tiles ≤ rgeoMask g)) then [3] else []) ++
  (if (code = 2 || code = 3) && (tget 0 r 5).toNat / 4 ≠ 0 then [5] else [])

/-- Engine registers that break a check of ROWS (R215). -/
def gatherBreaks (r : Table Word) : List Nat :=
  let g := (tget 0 r 1).toNat
  if g / 2 ^ 22 ≠ 0 || actBytes (geoFmt g) = 0 || wgeoK g = 0 || 512 < wgeoK g || wgeoN g = 0 ||
    64 / actBytes (geoFmt g) < wgeoN g then [1] else []

/-- Engine registers that break a check of a FAB command (R223). -/
def fabBreaks (code : Nat) (r : Table Word) : List Nat :=
  let i := (tget 0 r 0).toNat
  let f := (tget 0 r 2).toNat
  (if i / 2 ^ 40 ≠ 0 || nbits i 20 4 ≠ 0 || nbits i 0 16 ≠ 0 then [0] else []) ++
  (if (code = 3 || code = 4) && f / 2 ^ 24 ≠ 0 || (code = 3 && nbits f 0 12 = 0) then [2] else [])

/-- The window ranges of the weight rows that an LDW reads (R216), none for a row outside the window. -/
def weightRanges (r : Table Word) : List (Nat × Nat) :=
  let w := (tget 0 r 1).toNat
  let n := (wgeoN w * codeWidth (geoFmt w) + 7) / 8
  ((List.range (wgeoK w)).map fun k =>
    ((((tget 0 r 0).toNat : Int) + sint 32 (tget 0 r 2).toNat * k) % (2 : Int) ^ 64).toNat).filterMap fun va =>
      if inWindow va then some (va, n) else none

/-- The window ranges a command without handles checks at the CX, as address and bytes (R190, R215,
R224). -/
def commandRanges (eng code : Nat) (r : Table Word) : List (Nat × Nat) :=
  match eng with
  | 1 => if code = 1 then weightRanges r else []
  | 2 => [((tget 0 r 0).toNat, 4 * wgeoN (tget 0 r 1).toNat)]
  | 3 =>
    if code = 3 then [((tget 0 r 1).toNat, 8 * nbits (tget 0 r 2).toNat 0 12)]
    else if code = 4 then [((tget 0 r 1).toNat, 8)]
    else []
  | _ => []

/-- The window ranges a COPY command checks at the CX: its source and destination as far as their extent is
known there, and the buffers of its handles (R190, R204, R209). -/
def copyRanges (s : State) (code : Nat) (r : Table Word) (hs hd : Nat) : List (Nat × Nat) :=
  let c := s.here
  let src := (tget 0 r 0).toNat
  let dst := (tget 0 r 1).toNat
  let len := (tget 0 r 2).toNat
  let tens := ctlTens (tget 0 r 3).toNat
  let h := s.handle c (handleIdx hs)
  let g := s.handle c (handleIdx hd)
  let n := (copyCount code r).getD 1
  (if hs ≠ 0 then [(windowAddr 0x7F h.off, h.size)]
    else if inWindow src then [(src, if tens then 64 else len)] else []) ++
  (if code = 4 then
      ((List.range 64).filter fun k => nbit (tget 0 r 9).toNat k).map fun k => (windowAddr k (dst % 2 ^ 17), n)
    else if hd ≠ 0 then [(windowAddr 0x7F g.off, g.size)]
    else if inWindow dst then [(dst, n)] else []) ++
  (if code = 2 && inWindow (tget 0 r 8).toNat then [((tget 0 r 8).toNat, 4 * len)] else [])

/-- The first breach among window ranges, with the bytes of its range. -/
def firstBreach (s : State) : List (Nat × Nat) → Option (Nat × Nat)
  | [] => none
  | (va, n) :: rs =>
    match windowCheck s va n with
    | some bad => some (bad, n)
    | none => firstBreach s rs

/-- The engine's own checks of a snapshot (R190). -/
def commandBreaks (eng code : Nat) (r : Table Word) : List Nat :=
  match eng with
  | 1 => planeBreaks code r
  | 2 => gatherBreaks r
  | 3 => fabBreaks code r
  | _ => []

/-- The trap of an engine register, of a window breach, or the continuation (R190). -/
def snapshotGate (eng : Nat) (byte : Word) (breaks : List Nat) (ranges : List (Nat × Nat)) (s : State) (k : Out) : Out :=
  match breaks with
  | n :: _ => trap .engineFault (BitVec.ofNat 64 (eng * 256 + n)) byte s
  | [] =>
    match firstBreach s ranges with
    | some (va, n) => trap .localRange (BitVec.ofNat 64 va) (BitVec.ofNat 64 n) s
    | none => k

/-- The position of the focus thread's core in its party's placement (R9). -/
def State.coreIndex (s : State) : Nat := s.placement.idxOf s.here

/-- A window address with CORE = 0x7F named by the issuing core's index (R204). -/
def resolveOwn (s : State) (va : Nat) : Nat :=
  if inWindow va && va / 2 ^ 17 % 128 = 0x7F then windowAddr (s.coreIndex) (va % 2 ^ 17) else va

/-- A command as it is queued for the focus thread (R190): its number is the context's next. -/
def makeCmd (s : State) (x : EngCtx) (code scope src dst : Nat) (after : Option (Nat × Nat)) : Cmd :=
  let t := s.th
  { num := x.nextn, code := code, scope := scope, src := src, dst := dst, regs := x.regs
    sup := t.stat.mode, place := t.place, pid := t.pid, ctxid := t.ctx.toNat, surv := t.party.surv.toNat
    fidmax := t.fidmax.toNat, order := s.serial, after := after }

/-- The context with a command queued. -/
def EngCtx.queued (x : EngCtx) (c : Cmd) : EngCtx := { x with nextn := x.nextn + 1, queue := x.queue ++ [c] }

/-- A command queued in a context of the focus thread's core. -/
def queueCmd (s : State) (eng n : Nat) (code scope src dst : Nat) (after : Option (Nat × Nat)) : State :=
  let x := s.ctx s.here eng n
  { s.setCtx s.here eng n (x.queued (makeCmd s x code scope src dst after)) with serial := s.serial + 1 }

/-- The addresses of a queued COPY command: a handle's buffer, an own window address by index (R204). -/
def settleAddrs (s : State) (r : Table Word) (hs hd : Nat) : Table Word :=
  let c := s.here
  let dst := if hd ≠ 0 then windowAddr s.coreIndex (s.handle c (handleIdx hd)).off else resolveOwn s (tget 0 r 1).toNat
  let src := if hs ≠ 0 then windowAddr s.coreIndex (s.handle c (handleIdx hs)).off else resolveOwn s (tget 0 r 0).toNat
  tput (tput r 0 (BitVec.ofNat 64 src)) 1 (BitVec.ofNat 64 dst)

/-- The handle states that a CX leaves (R201). -/
def takeHandles (s : State) (hs hd : Nat) : State :=
  let c := s.here
  let s := if hd = 0 then s else changeHandle s c (handleIdx hd) { s.handle c (handleIdx hd) with st := .filling }
  if hs = 0 then s else changeHandle s c (handleIdx hs) { s.handle c (handleIdx hs) with st := .draining }

/-- A COPY command queued with its handles and its follow-on (R190, R201, R204, R212). -/
def queueCopy (s : State) (n code scope hs hd : Nat) : State :=
  let x := s.ctx s.here 0 n
  let cmd := makeCmd s x code scope hs hd none
  let cmd := { cmd with regs := settleAddrs s cmd.regs hs hd }
  let s := { s.setCtx s.here 0 n (x.queued cmd) with serial := s.serial + 1 }
  let f := (tget 0 x.regs 10).toNat
  let s := if nbit f 63 then queueCmd s (nbits f 60 3) (nbits f 58 2) (nbits f 50 5) scope 0 0 (some (n, x.nextn)) else s
  takeHandles s hs hd

/-- A wait for room in a context, the focus thread's release, then the queueing (R190). -/
def withRoom (eng n : Nat) (s : State) (k : State → Out) : Out :=
  if 16 ≤ (s.ctx s.here eng n).open then stall (.room eng n) s else k s

/-- A CX without handles (R189, R190). -/
def cxPlain (i : Instr) (eng code : Nat) (ctx : BitVec 2) (sc : Scope) (s : State) : Out :=
  let w := encode i
  let n := ctx.toNat
  issue w { feat := engFeat eng } {} .none s fun s =>
    let r := (s.ctx s.here eng n).regs
    snapshotGate eng ((w.setWidth 8).setWidth 64) (commandBreaks eng code r) (commandRanges eng code r) s
      (withRoom eng n s fun s => withReleaseTo true sc s fun s =>
        retire {} (queueCmd s eng n code sc.code 0 0 none) id)

/-- What a CX waits for: the state of one handle, while the generation of the other is watched too (R203). -/
def handleWait (h other : Nat) (mask : BitVec 4) : Wait :=
  if other = 0 then .handle (handleIdx h) (handleGen h) mask
  else .handles (handleIdx h) (handleGen h) mask (handleIdx other) (handleGen other)

/-- The wait of a CX on the states of its handles (R204): the destination FREE, the source FULL. -/
def withHandleStates (hs hd : Nat) (s : State) (k : State → Out) : Out :=
  let c := s.here
  if hd ≠ 0 && (s.handle c (handleIdx hd)).st ≠ .free then stall (handleWait hd hs 1) s
  else if hs ≠ 0 && (s.handle c (handleIdx hs)).st ≠ .full then stall (handleWait hs hd 4) s
  else k s

/-- The checks of a follow-on, made as if its CX had been issued (R212); EVAL2 of its ENGINE_FAULT holds the command
byte of the COPY CX, the only word there is (log 76). -/
def followGate (byte : Word) (r : Table Word) (w : W32) (s : State) (k : Out) : Out :=
  let f := (tget 0 r 10).toNat
  if !nbit f 63 then k
  else if (s.core s.here).feat &&& 16 ≠ 16 then trap .featureAbsent (evalWord w) 16 s
  else
    let eng := nbits f 60 3
    let code := nbits f 50 5
    let fr := (s.ctx s.here eng (nbits f 58 2)).regs
    snapshotGate eng byte (commandBreaks eng code fr) (commandRanges eng code fr) s k

/-- The room a follow-on needs in its own context (R190). -/
def withFollowRoom (r : Table Word) (s : State) (k : State → Out) : Out :=
  let f := (tget 0 r 10).toNat
  if nbit f 63 then withRoom (nbits f 60 3) (nbits f 58 2) s k else k s

/-- A COPY command (R189, R190, R204, R205, R206, R209, R212). -/
def cxCopy (i : Instr) (code : Nat) (ctx : BitVec 2) (a b : RegCode) (sc : Scope) (s : State) : Out :=
  let w := encode i
  let byte : Word := (w.setWidth 8).setWidth 64
  let n := ctx.toNat
  let r : Srcs := { a := some a, b := some b }
  issue w {} r .none s fun s =>
    let hs := (s.th.readA a).toNat
    let hd := (s.th.readB b).toNat
    let regs := (s.ctx s.here 0 n).regs
    let dst := if hd = 0 then (tget 0 regs 1).toNat else (s.handle s.here (handleIdx hd)).off
    if hs ≠ 0 && !liveHandle s s.here hs then trap .staleHandle (s.th.readA a) 0 s
    else if hd ≠ 0 && !liveHandle s s.here hd then trap .staleHandle (s.th.readB b) 0 s
    else
      let own := copyBreaks code regs (hd ≠ 0) dst
      let breaks := if own = [] then handleBreaks s code regs hs hd else own
      snapshotGate 0 byte breaks (copyRanges s code regs hs hd) s
        (followGate byte regs w s
          (withRoom 0 n s fun s => withFollowRoom regs s fun s => withHandleStates hs hd s fun s =>
            withReleaseTo true sc s fun s => retire r (queueCopy s n code sc.code hs hd) id))

/-- A late register value from an engine context (R191, R199). -/
def lateEngine (k : LateKind) (d : RegCode) (v : Word) (s : State) : Out :=
  retire {} s fun t => { t.pend d with late := t.late ++ [⟨k, d, v⟩] }

/-- A handle operand's check (R203). -/
def handleGate (a : Word) (s : State) (k : Nat → Handle → Out) : Out :=
  if liveHandle s s.here a.toNat then k (handleIdx a.toNat) (s.handle s.here (handleIdx a.toNat))
  else trap .staleHandle a 0 s

/-- COPY_GO: R209. -/
def execCopyGo (ctx : BitVec 2) (a b : RegCode) (sc : Scope) (s : State) : Out :=
  cxCopy (.copyGo ctx a b sc) 1 ctx a b sc s

/-- COPY_GATHER: R209. -/
def execCopyGather (ctx : BitVec 2) (a b : RegCode) (sc : Scope) (s : State) : Out :=
  cxCopy (.copyGather ctx a b sc) 2 ctx a b sc s

/-- COPY_RED: R209. -/
def execCopyRed (ctx : BitVec 2) (a b : RegCode) (sc : Scope) (s : State) : Out :=
  cxCopy (.copyRed ctx a b sc) 3 ctx a b sc s

/-- COPY_MCAST: R209. -/
def execCopyMcast (ctx : BitVec 2) (a b : RegCode) (sc : Scope) (s : State) : Out :=
  cxCopy (.copyMcast ctx a b sc) 4 ctx a b sc s

/-- PLANE_LDW: R216. -/
def execPlaneLdw (ctx : BitVec 2) (sc : Scope) (s : State) : Out := cxPlain (.planeLdw ctx sc) 1 1 ctx sc s

/-- PLANE_RUN: R217. -/
def execPlaneRun (ctx : BitVec 2) (sc : Scope) (s : State) : Out := cxPlain (.planeRun ctx sc) 1 2 ctx sc s

/-- PLANE_FID: R219. -/
def execPlaneFid (ctx : BitVec 2) (sc : Scope) (s : State) : Out := cxPlain (.planeFid ctx sc) 1 3 ctx sc s

/-- PLANE_CNT: R220. -/
def execPlaneCnt (ctx : BitVec 2) (sc : Scope) (s : State) : Out := cxPlain (.planeCnt ctx sc) 1 4 ctx sc s

/-- GATHER_ROWS: R215. -/
def execGatherRows (ctx : BitVec 2) (sc : Scope) (s : State) : Out := cxPlain (.gatherRows ctx sc) 2 1 ctx sc s

/-- FAB_LOAD: R224. -/
def execFabLoad (ctx : BitVec 2) (sc : Scope) (s : State) : Out := cxPlain (.fabLoad ctx sc) 3 1 ctx sc s

/-- FAB_EVICT: R224. -/
def execFabEvict (ctx : BitVec 2) (sc : Scope) (s : State) : Out := cxPlain (.fabEvict ctx sc) 3 2 ctx sc s

/-- FAB_SEED: R224. -/
def execFabSeed (ctx : BitVec 2) (sc : Scope) (s : State) : Out := cxPlain (.fabSeed ctx sc) 3 3 ctx sc s

/-- FAB_SNAP: R224. -/
def execFabSnap (ctx : BitVec 2) (sc : Scope) (s : State) : Out := cxPlain (.fabSnap ctx sc) 3 4 ctx sc s

/-- The gate of a CXW or CXR: a reserved engine traps before the scoreboard is consulted (R69, R74). -/
def engGate (i : Instr) (eng : Nat) (r : Srcs) (d : Dst) (s : State) (k : State → Out) : Out :=
  if 4 ≤ eng then issue (encode i) {} {} .none s fun s => trap .engineFault (BitVec.ofNat 64 (eng * 256 + 0xFF)) 0 s
  else issue (encode i) { feat := engFeat eng } r d s k

/-- CXW: R191. -/
def execCxw (eng : BitVec 4) (ctx : BitVec 2) (src : RegCode) (ereg : BitVec 5) (s : State) : Out :=
  let r : Srcs := { a := some src }
  let e := eng.toNat
  let n := ctx.toNat
  engGate (.cxw eng ctx src ereg) e r .none s fun s =>
    let x := s.ctx s.here e n
    if ereg = 30 then retire r (s.setCtx s.here e n x.clearTlstat) id
    else if engWritable e ereg.toNat then
      retire r (s.setCtx s.here e n { x with regs := tput x.regs ereg.toNat (s.th.readA src) }) id
    else trap .engineFault (BitVec.ofNat 64 (e * 256 + ereg.toNat)) 0 s

/-- CXR: R191; it takes effect in its issue order at the core. -/
def execCxr (eng : BitVec 4) (ctx : BitVec 2) (d : RegCode) (ereg : BitVec 5) (s : State) : Out :=
  engGate (.cxr eng ctx d ereg) eng.toNat {} (.late [d]) s fun s =>
    lateEngine .cxr d ((s.ctx s.here eng.toNat ctx.toNat).read ereg.toNat) s

/-- HSET: R202. -/
def execHset (d a b : RegCode) (hA hB : Bool) (s : State) : Out :=
  let r : Srcs := { a := some a, b := some b, hA, hB }
  issue (encode (.hset d a b hA hB)) {} r (.sync d) s fun s =>
    let u := s.th.readA a
    let v := s.th.readB b
    let h := s.handle s.here u.toNat
    let off := nbits v.toNat 0 17
    let size := nbits v.toNat 32 32
    if 32 ≤ u.toNat then trap .handleState u 0 s
    else if h.st ≠ .free then trap .handleState u (BitVec.ofNat 64 h.st.code) s
    else if nbits v.toNat 17 15 ≠ 0 || size = 0 || scratchSize s s.here < off + size then trap .localRange v 0 s
    else
      let h : Handle := { st := .free, gen := nextGen h.gen, off := off, size := size, discard := 0 }
      retire r (s.setHandle s.here u.toNat h) fun t => t.writeSync d (BitVec.ofNat 64 (u.toNat * 2048 + h.gen))

/-- HFREE: R203. -/
def execHfree (a : RegCode) (hA : Bool) (s : State) : Out :=
  let r : Srcs := { a := some a, hA }
  issue (encode (.hfree a hA)) {} r .none s fun s =>
    let u := s.th.readA a
    handleGate u s fun i h =>
      match h.st with
      | .full => retire r (changeHandle s s.here i { h with st := .free }) id
      | .filling => stall (.handle i h.gen 4) s
      | st => trap .handleState u (BitVec.ofNat 64 st.code) s

/-- HKILL: R203. -/
def execHkill (a : RegCode) (hA : Bool) (s : State) : Out :=
  let r : Srcs := { a := some a, hA }
  issue (encode (.hkill a hA)) {} r .none s fun s =>
    handleGate (s.th.readA a) s fun i h =>
      retire r (changeHandle s s.here i { h with st := .free, gen := nextGen h.gen }) id

/-- HWAIT: R203; the acquire is at CORE scope. -/
def execHwait (a : RegCode) (mask : BitVec 4) (hA : Bool) (s : State) : Out :=
  let r : Srcs := { a := some a, hA }
  issue (encode (.hwait a mask hA)) {} r .none s fun s =>
    if s.th.phase = .acquired then retire r s id
    else handleGate (s.th.readA a) s fun i h =>
      if mask.getLsbD h.st.code then stall (.acquire .core false) s else stall (.handle i h.gen mask) s

/-- HSTAT: R203. -/
def execHstat (d a : RegCode) (hA : Bool) (s : State) : Out :=
  let r : Srcs := { a := some a, hA }
  issue (encode (.hstat d a hA)) {} r (.sync d) s fun s =>
    let i := handleIdx (s.th.readA a).toNat
    let h := s.handle s.here i
    retire r s fun t => t.writeSync d (BitVec.ofNat 64 (h.discard * 2 ^ 32 + h.st.code * 2 ^ 16 + i * 2048 + h.gen))

/-- TLWAIT: R198. -/
def execTlwait (a : RegCode) (sc : Scope) (hA : Bool) (eng ctx : BitVec 2) (s : State) : Out :=
  let r : Srcs := { a := some a, hA }
  issue (encode (.tlwait a sc hA eng ctx)) {} r .none s fun s =>
    let target := (s.th.readA a).toNat
    if s.th.phase = .acquired then retire r s id
    else if (s.ctx s.here eng.toNat ctx.toNat).count < target then stall (.timeline eng.toNat ctx.toNat target) s
    else withAcquire sc s fun s => retire r s id

/-- TLREAD: R199. -/
def execTlread (d : RegCode) (eng ctx : BitVec 2) (s : State) : Out :=
  issue (encode (.tlread d eng ctx)) {} {} (.late [d]) s fun s =>
    lateEngine .tlread d (BitVec.ofNat 64 (s.ctx s.here eng.toNat ctx.toNat).count) s

/-- The status of a completed command merged into CSTAT and TLSTAT (R196): NX and UF alone do not flag. -/
def EngCtx.record (x : EngCtx) (num : Nat) (e : CmdEnd) : EngCtx :=
  let code := if e.code ≤ 1 && (e.flags &&& (fNV ||| fDZ ||| fOF) ≠ 0 || e.sat) then 2 else e.code
  let word := num % 2 ^ 40 * 2 ^ 24 + e.clamped.toNat * 2 ^ 20 + e.fapp % 4 * 2 ^ 18 + e.sat.toNat * 2 ^ 17 +
    e.flags.toNat * 2 ^ 12 + e.detail % 16 * 2 ^ 8 + code
  let first := x.tlFirst = 0 || x.tlWorst < code
  { x with
    cstat := BitVec.ofNat 64 word
    tlFlags := x.tlFlags ||| e.flags
    tlFirst := if first then num else x.tlFirst
    tlWorst := if first then code else x.tlWorst }

/-- The counter moves past every completed command at the head of the queue (R197); a TLADV there
completes (R199). -/
def EngCtx.advance : Nat → EngCtx → EngCtx
  | 0, x => x
  | fuel + 1, x =>
    match x.queue with
    | [] => x
    | q :: qs =>
      if q.done then EngCtx.advance fuel { x with queue := qs, count := q.num }
      else if q.code = 31 then EngCtx.advance fuel { x.record q.num {} with queue := qs, count := q.num }
      else x

/-- TLADV: R199. -/
def execTladv (d : RegCode) (eng ctx : BitVec 2) (s : State) : Out :=
  let e := eng.toNat
  let n := ctx.toNat
  issue (encode (.tladv d eng ctx)) {} {} (.sync d) s fun s =>
    withRoom e n s fun s =>
      let num := (s.ctx s.here e n).nextn
      let s := queueCmd s e n 31 0 0 0 none
      let x := s.ctx s.here e n
      let y := x.advance (x.queue.length)
      let s := s.setCtx s.here e n y
      let s := if y.count = x.count then s else wakeCore s s.here
      retire {} s fun t => t.writeSync d (BitVec.ofNat 64 num)

/-- TLSTAT_WRITE: the write of TLSTAT in context ev.k (engine x 4 + context) of core ev.n, which clears it
(R196). -/
def execTlstatWrite (s : State) : Out :=
  let x := s.ctx s.ev.n (s.ev.k / 4) (s.ev.k % 4)
  .next (s.setCtx s.ev.n (s.ev.k / 4) (s.ev.k % 4) x.clearTlstat)

/-- CXR_VALUE_RETURN: a CXR answers its register ev.reg of the thread at place ev.p (R191). -/
def execCxrValueReturn (s : State) : Out := .next (deliverLate s .cxr)

/-- TLREAD_VALUE_RETURN: a TLREAD answers its register ev.reg of the thread at place ev.p (R199). -/
def execTlreadValueReturn (s : State) : Out := .next (deliverLate s .tlread)

end Sys2Proof.Machine
end

