-- ==== Sys2Proof/Machine/Area.lean ====
section
/-!
DEFINITION. Memory as the device's own units reach it: virtual addresses of a context translated for a
unit, reads and writes at the SYS home (R283, R309), and the parts of a save area that change while its
threads are absent (R176, R179, R182).
-/

namespace Sys2Proof.Machine

/-- The translation a unit of a die finds for an address of a context (R312). -/
def unitEntry (s : State) (die ctx va : Nat) : Option TlbEntry :=
  match (tget [] s.dtlb die).find? (·.maps ctx va) with
  | some e => some e
  | none => (walkTables s die ctx va).1

/-- What a unit's lookup leaves (R310, R312): a hit in the die's TLB is the latest use of its set, and a walk that
succeeds installs its entry there, one that has failed is answered. -/
def unitLookup (s : State) (die ctx va : Nat) : State :=
  let s := { s with walkFails := tput s.walkFails die ((tget [] s.walkFails die).filter fun m => !(m.ctx == ctx && m.page == va / 65536)) }
  match if va / 2 ^ 55 ≠ 0 || inWindow va then none else unitEntry s die ctx va with
  | none => s
  | some e =>
    let s := if (tget [] s.dtlb die).any (·.maps ctx va) then s else walkTrace s die ctx va
    tlbInstall s (die * 1024) 3 e

/-- The lookups of a unit for addresses of a context, one for each 64 KiB page. -/
def unitLookups (s : State) (die ctx : Nat) (vas : List Nat) : State :=
  ((vas.map (· / 65536)).eraseDups).foldl (fun s p => unitLookup s die ctx (p * 65536)) s

/-- Whether a unit's access to an address has its translation's outcome: it takes none, its die's TLB holds one, or a
walk has just failed for it (R312). -/
def unitKnown (s : State) (die ctx va : Nat) : Bool :=
  va / 2 ^ 55 != 0 || inWindow va || (tget [] s.dtlb die).any (·.maps ctx va) ||
    (tget [] s.walkFails die).any fun m => m.ctx == ctx && m.page == va / 65536

/-- The walks that a unit's access to addresses of a context has to wait for, asked for like those of threads: each
joins a walk, takes a merge entry or waits for one (R312). None when every page has its outcome. -/
def unitAwaits (s : State) (die ctx : Nat) (vas : List Nat) : Option State :=
  match ((vas.map (· / 65536)).eraseDups).filter fun p => !unitKnown s die ctx (p * 65536) with
  | [] => none
  | ps => some (ps.foldl (fun s p => walkRequest s die ctx p .unit) s)

/-- The physical address of a unit's access, none when it faults: no mapping, no right, a device page, or an
address that does not exist or cannot be reached (R298, R355). -/
def unitPhys (s : State) (die ctx : Nat) (sup : Bool) (k : Access) (va : Nat) : Option Nat :=
  if va / 2 ^ 55 ≠ 0 || inWindow va then none
  else match unitEntry s die ctx va with
    | none => none
    | some e =>
      let pa := physOf s (e.phys va)
      if e.allows sup k && !e.dev && physOk s pa && reachable s pa then some pa else none

/-- The bytes a unit reads at the SYS home, none when one of them faults. -/
def unitRead (s : State) (die ctx : Nat) (sup : Bool) (va : Nat) : Nat → Option (List Byte)
  | 0 => some []
  | n + 1 =>
    match unitPhys s die ctx sup .load va with
    | none => none
    | some pa => (unitRead s die ctx sup (va + 1) n).map (memByte s pa :: ·)

/-- The bytes a unit writes at the SYS home, none when one of them faults. -/
def unitWrite (s : State) (die ctx : Nat) (sup : Bool) (va : Nat) : List Byte → Option State
  | [] => some s
  | b :: bs =>
    match unitPhys s die ctx sup .store va with
    | none => none
    | some pa => unitWrite (homePut s pa b) die ctx sup (va + 1) bs

/-- The saved party whose area holds a thread number's record, with the thread's index in it. -/
def savedOf (s : State) (thr : Nat) : Option (Saved × Nat) :=
  match s.savedAreas.find? fun x => x.2.thrs.contains thr with
  | some x => some (x.2, (x.2.thrs.idxOf thr))
  | none => none

/-- The address of a thread record of a save area (R278). -/
def Saved.record (x : Saved) (i : Nat) : Nat := x.area + 0x200 + 0x800 * i

/-- Bytes of an area read in supervisor mode. -/
def Saved.read (x : Saved) (s : State) (off n : Nat) : List Byte :=
  (unitRead s 0 x.ctx true (x.area + off) n).getD (List.replicate n 0)

/-- A little-endian word of an area. -/
def Saved.word (x : Saved) (s : State) (off : Nat) : Nat := leNat (x.read s off 8)

/-- Bytes of an area written in supervisor mode; an area that is no longer mapped keeps nothing. -/
def Saved.write (x : Saved) (s : State) (off : Nat) (bs : List Byte) : State :=
  (unitWrite s 0 x.ctx true (x.area + off) bs).getD s

end Sys2Proof.Machine
end

