-- ==== Sys2Proof/Machine/Stream.lean ====
section
/-!
DEFINITION. How streamers and fabric ports reach memory and scratchpads (R110, R211, R237, R238, R264,
R298): locating an address for an engine, reading it, and writing it at the home of a scope.
-/

namespace Sys2Proof.Machine

/-- Who makes a streamer's or port's access: the core that CORE = 0x7F names, the placement other indices
name, the translation context and the mode (R204, R211, R237). -/
structure Agent where
  core : Nat
  cores : List Nat
  ctx : Nat
  sup : Bool
  deriving DecidableEq, Repr

/-- Where a byte lies for an engine, or why it cannot be reached. -/
inductive UnitLoc where
  | scratch (key : Nat)
  | mem (pa : Nat)
  | dev (pa : Nat)
  | page
  | rights
  | range
  deriving DecidableEq, Repr

/-- The scratchpad byte of a window address for an engine (R110, R111, R204). -/
def Agent.window (g : Agent) (s : State) (va : Nat) : UnitLoc :=
  let idx := va / 2 ^ 17 % 128
  let off := va % 2 ^ 17
  match if idx = 0x7F then some g.core else g.cores[idx]? with
  | none => .range
  | some c => if va / 2 ^ 24 % 256 = 0 && decide (off < scratchSize s c) then .scratch (scratchKey c off) else .range

/-- Where a byte lies for an engine on the die of its core. -/
def Agent.locate (g : Agent) (s : State) (k : Access) (va : Nat) : UnitLoc :=
  if va / 2 ^ 55 ≠ 0 then .page
  else if inWindow va then g.window s va
  else match unitEntry s (dieOf g.core) g.ctx va with
    | none => .page
    | some e =>
      let pa := physOf s (e.phys va)
      if !e.allows g.sup k || !physOk s pa || ((pa / 2 ^ 44 = 0xF0 || pa / 2 ^ 44 = 0xF1) && !reachable s pa) then .rights
      else if e.dev then .dev pa
      else .mem pa

/-- The places of n bytes from an address, modulo 2^64. -/
def Agent.locateAll (g : Agent) (s : State) (k : Access) (va : Nat) : Nat → List UnitLoc
  | 0 => []
  | n + 1 => g.locate s k (va % 2 ^ 64) :: g.locateAll s k (va + 1) n

/-- Addresses that name every page of 64 KiB that n bytes touch. -/
def spanVas (va n : Nat) : List Nat :=
  if n = 0 then [] else (List.range ((va + n - 1) / 65536 + 1 - va / 65536)).map fun i => if i = 0 then va else (va / 65536 + i) * 65536

/-- The state after an engine has translated addresses (R310, R312). -/
def Agent.visit (g : Agent) (s : State) (vas : List Nat) : State := unitLookups s (dieOf g.core) g.ctx (vas.map (· % 2 ^ 64))

/-- The walks that an engine's access to addresses has to wait for, asked for (R312): none when every page has its
outcome. -/
def Agent.awaits (g : Agent) (s : State) (vas : List Nat) : Option State := unitAwaits s (dieOf g.core) g.ctx (vas.map (· % 2 ^ 64))

/-- Whether a place is a fault. -/
def UnitLoc.bad : UnitLoc → Bool
  | .page => true
  | .rights => true
  | .range => true
  | _ => false

/-- Every earlier request to the lines of an access done with, before a unit's access reaches the slice (R167, R296). -/
def settleAt (s : State) (die : Nat) (ls : List UnitLoc) : State :=
  ((ls.filterMap fun l => match l with | .mem pa => some (pa / 64) | _ => none).eraseDups).foldl (fun s no => l2Settle s die no) s

/-- A byte of ordinary memory as an engine of a die reads it: the slice's dirty byte, else the home's. -/
def streamByte (s : State) (die pa : Nat) : Byte :=
  match (findLine (s.l2Lines die) (pa / 64) 0).bind fun l => tfind l.bytes (pa % 64) with
  | some (b, true) => b
  | _ => memByte s pa

/-- The byte at a place and whether it is poisoned (R116); a place that is a fault has none. -/
def Agent.byteAt (g : Agent) (s : State) : UnitLoc → Byte × Bool
  | .scratch k => (cget s.scratch k, s.scratchPoison.contains (k / 8))
  | .mem pa => (streamByte s (dieOf g.core) pa, s.linePoisoned (pa / 64))
  | .dev pa => (deviceByte s pa, false)
  | _ => (0, false)

/-- Bytes read by an engine, or the first fault met. -/
def Agent.read (g : Agent) (s : State) (va n : Nat) : Except UnitLoc (List (Byte × Bool)) :=
  let ls := g.locateAll s .load va n
  match ls.find? UnitLoc.bad with
  | some b => .error b
  | none => .ok (ls.map (g.byteAt s))

/-- Bytes of a line of ordinary memory written at the home of a scope (R120, R211): an L2 slice up to DIE scope, else
the memory's own home, past which the slice keeps no copy of them. -/
def streamPut (s : State) (die scope no : Nat) (bytes : Table Byte) : State :=
  let s := l2Settle s die no
  if scope ≤ 2 then l2Merge s die no bytes
  else
    let s := homeWrite s no bytes
    match findLine (s.l2Lines die) no 0 with
    | some l => { s with l2 := tput s.l2 die ((s.l2Lines die).map fun x =>
        if x.no = l.no then { x with bytes := x.bytes.filter fun b => (tfind bytes b.1).isNone } else x) }
    | none => s

/-- The bytes of ordinary memory that a store of places gives a line. -/
def storedBytes (ps : List (UnitLoc × Option Byte)) (no : Nat) : Table Byte :=
  ps.foldl (fun t p => match p with
    | (.mem pa, some b) => if pa / 64 = no then tput t (pa % 64) b else t
    | _ => t) []

/-- The lines of ordinary memory that a store of places gives bytes. -/
def storedLines (ps : List (UnitLoc × Option Byte)) : List Nat :=
  (ps.filterMap fun p => match p with
    | (.mem pa, some _) => some (pa / 64)
    | _ => none).eraseDups

/-- The poison marker of a place's line or scratchpad word (R116, R208, R238). -/
def markPoison (s : State) (l : UnitLoc) : State :=
  match l with
  | .scratch k => { s with scratchPoison := sadd s.scratchPoison (k / 8) }
  | .mem pa => { s with memPoison := sadd s.memPoison (pa / 64) }
  | _ => s

/-- What shares poison at a place: the line, or the scratchpad word, each in a numbering of its own. -/
def UnitLoc.unit : UnitLoc → Nat
  | .scratch k => 2 * (k / 8)
  | .mem pa => 2 * (pa / 64) + 1
  | _ => 0

/-- What an engine's store leaves beside ordinary memory: scratchpad bytes, and the markers of poison. A store to a
device changes no state of the machine. -/
def writePlace (s : State) (p : UnitLoc × Option Byte) : State :=
  match p with
  | (l, none) => markPoison s l
  | (.scratch k, some b) => { s with scratch := cput s.scratch k b }
  | _ => s

/-- Bytes written at their places: what is none is poison, and nothing is written into its line or word
(R208). Bytes of one line are one store. -/
def Agent.writeAll (g : Agent) (s : State) (scope : Nat) (ps : List (UnitLoc × Option Byte)) : State :=
  let bad := (ps.filter (·.2.isNone)).map (·.1.unit)
  let ps := ps.filter fun p => p.2.isNone || !bad.contains p.1.unit
  (storedLines ps).foldl (fun s no => streamPut s (dieOf g.core) scope no (storedBytes ps no)) (ps.foldl writePlace s)

end Sys2Proof.Machine
end

