-- ==== Sys2Proof/Machine/Copy.lean ====
section
/-!
DEFINITION. Commands once they are queued (R195 to R197, R201, R212), and the COPY streamer: layout records,
tiles, gathers, merges and deliveries (R204, R207 to R211).
-/

namespace Sys2Proof.Machine

/-- The command of a number in a context. -/
def EngCtx.cmd (x : EngCtx) (num : Nat) : Option Cmd := x.queue.find? (·.num == num)

/-- A command of context key k (engine x 4 + context) of a core. -/
def State.cmd (s : State) (n k num : Nat) : Option Cmd := (s.ctx n (k / 4) (k % 4)).cmd num

/-- A command's record replaced. -/
def State.setCmd (s : State) (n k : Nat) (c : Cmd) : State :=
  let x := s.ctx n (k / 4) (k % 4)
  s.setCtx n (k / 4) (k % 4) { x with queue := x.queue.map fun q => if q.num = c.num then c else q }

/-- Who makes a command's accesses (R204, R211). -/
def cmdAgent (s : State) (n : Nat) (c : Cmd) : Agent := ⟨n, (s.party c.pid).cores, c.ctxid, c.sup⟩

/-- A handle of a copy moves on when the copy ends (R195, R201); one that HKILL has freed does not. -/
def releaseHandle (s : State) (n h : Nat) (old new : HState) : State :=
  if h = 0 || !liveHandle s n h || (s.handle n (handleIdx h)).st ≠ old then s
  else changeHandle s n (handleIdx h) { s.handle n (handleIdx h) with st := new }

/-- A follow-on of a copy that has ended: free to start, or over with the copy's status (R212). -/
def followOn (e : CmdEnd) (from_ : Nat × Nat) (q : Cmd) : Cmd :=
  if q.after = some from_ then
    if 3 ≤ e.code then
      { q with after := none, started := true, landed := true, ended := some { code := e.code, detail := e.detail } }
    else { q with after := none }
  else q

/-- The follow-ons of copy num of COPY context k, in the PLANE and GATHER contexts of the core. -/
def settleFollowers (s : State) (n k num : Nat) (e : CmdEnd) : State :=
  let c := s.core n
  s.setCore n { c with ctxs := c.ctxs.map fun p =>
    (p.1, { p.2 with queue := p.2.queue.map (followOn e (k, num)) }) }

/-- A command's outcome is fixed: its last byte has landed or it has stopped (R195, R201, R212). -/
def endCommand (s : State) (n k : Nat) (c : Cmd) (e : CmdEnd) : State :=
  let s := s.setCmd n k { c with started := true, landed := true, ended := some e }
  if k < 4 then
    let s := releaseHandle s n c.dst .filling .full
    let s := releaseHandle s n c.src .draining .free
    settleFollowers s n k c.num e
  else s

/-- The status of a fault that an engine meets (R195, R196). -/
def UnitLoc.status : UnitLoc → CmdEnd
  | .range => { code := 5, detail := 3 }
  | _ => { code := 6 }

/-- A command completes (R196, R197): its status is merged, then the counter moves; the core's waiting
threads see it (R250), and a party whose threads are gone ends with its last command (R12). -/
def completeCommand (s : State) (n k num : Nat) (e : CmdEnd) : State :=
  let x := s.ctx n (k / 4) (k % 4)
  match x.cmd num with
  | none => s
  | some c =>
    let y := { x.record num e with queue := x.queue.map fun (q : Cmd) => if q.num = num then { q with done := true } else q }
    let y := y.advance y.queue.length
    let s := s.setCtx n (k / 4) (k % 4) y
    let s := if y.count = x.count then s else wakeCore s n
    settleParty s c.pid

/-- A tensor layout record (R207). -/
structure Tensor where
  base : Nat
  fmt : Nat
  ndim : Nat
  strides : List Int
  sizes : List Nat
  fill : Nat
  deriving DecidableEq, Repr

/-- The fields of a record's words. -/
def tensorOf (w : List Nat) : Tensor :=
  let g := fun i => w.getD i 0
  { base := nbits (g 0) 0 55, fmt := nbits (g 1) 0 4, ndim := nbits (g 1) 4 3
    strides := [0, sint 32 (g 2), sint 32 (g 2 / 2 ^ 32), sint 32 (g 3), sint 32 (g 3 / 2 ^ 32)]
    sizes := [nbits (g 4) 0 32, nbits (g 4) 32 32, nbits (g 5) 0 32, nbits (g 5) 32 32, nbits (g 6) 0 32]
    fill := nbits (g 7) 0 32 }

/-- The five origins of a snapshot (R205). -/
def originsOf (r : Table Word) : List Int :=
  let a := (tget 0 r 4).toNat
  let b := (tget 0 r 5).toNat
  [sint 32 a, sint 32 (a / 2 ^ 32), sint 32 b, sint 32 (b / 2 ^ 32), sint 32 (tget 0 r 6).toNat]

/-- The destination format's code of a copy: that of DFMT, or the source's (R206). -/
def dstCode (r : Table Word) (t : Tensor) : Nat :=
  let d := ctlDfmt (tget 0 r 3).toNat
  if d = 0 then t.fmt else d

/-- Whether a record keeps the rules of R207 and R209 for a command; its size is judged with the handle's
buffer (R204). -/
def recordOk (code : Nat) (r : Table Word) (w : List Nat) (size : Option Nat) : Bool :=
  let t := tensorOf w
  let g := fun i => w.getD i 0
  let ctl := (tget 0 r 3).toNat
  let ext := (tget 0 r 7).toNat
  let rop := ctlRop ctl
  (tget 0 r 0).toNat % 8 == 0 && decide (g 0 / 2 ^ 55 = 0) && decide (g 1 / 2 ^ 7 = 0) &&
  decide (1 ≤ t.fmt) && decide (t.fmt ≤ 12) && decide (1 ≤ t.ndim) && decide (t.ndim ≤ 5) &&
  decide (g 6 / 2 ^ 32 = 0) && decide (g 7 / 2 ^ 32 = 0) &&
  (rop == 0 || dstCode r t == ropFmt rop) && (code != 2 || decide (2 ≤ t.ndim)) &&
  ((List.range 5).all fun k => decide (k < t.ndim) ||
    (t.strides.getD k 0 == 0 && t.sizes.getD k 0 == 1 && (originsOf r).getD k 0 == 0 && extentOf ext k == 1)) &&
  (match size with
   | none => true
   | some m => decide ((tileCount (code == 2) (ctlGacc ctl) ext (tget 0 r 2).toNat * codeWidth (dstCode r t) + 7) / 8 ≤ m))

/-- The record's words, kept in the snapshot under 32 to 39. -/
def recordWords (r : Table Word) : List Nat := (List.range 8).map fun i => (tget 0 r (32 + i)).toNat

/-- The eight words of 64 bytes. -/
def wordsOf (bs : List (Byte × Bool)) : List Nat :=
  (List.range (bs.length / 8)).map fun i => leNat (((bs.drop (8 * i)).take 8).map (·.1))

/-- A COPY command starts (R197, R207): a tensor's record is read and judged, its size by the buffer of a destination
handle that is still the one the CX named (R203, R204). -/
def startCopy (s : State) (n k : Nat) (c : Cmd) : State :=
  let ctl := (tget 0 c.regs 3).toNat
  if !ctlTens ctl then s.setCmd n k { c with started := true }
  else
    let at0 := (tget 0 c.regs 0).toNat
    match (cmdAgent s n c).awaits s [at0] with
    | some s => s
    | none =>
    let s := (cmdAgent s n c).visit (l2FillAll s (dieOf n)) [at0]
    match (cmdAgent s n c).read s (tget 0 c.regs 0).toNat 64 with
    | .error l => endCommand s n k c l.status
    | .ok bs =>
      let w := wordsOf bs
      let size := if c.dst = 0 || !liveHandle s n c.dst then none else some (s.handle n (handleIdx c.dst)).size
      if bs.any (·.2) then endCommand s n k c { code := 4 }
      else if !recordOk c.code c.regs w size then endCommand s n k c { code := 5, detail := 1 }
      else
        let regs := (List.range 8).foldl (fun t i => tput t (32 + i) (BitVec.ofNat 64 (w.getD i 0))) c.regs
        s.setCmd n k { c with started := true, regs := regs }

/-- What a conversion needs: source and destination formats, rounding, saturation. -/
structure Conv where
  src : Fmt
  dst : Fmt
  rnd : Rnd
  sat : Bool
  deriving DecidableEq, Repr

/-- Whether coordinates lie inside a tensor (R208). -/
def Tensor.inside (t : Tensor) (c : List Int) : Bool :=
  (List.range 5).all fun k => decide (0 ≤ c.getD k 0) && decide (c.getD k 0 < t.sizes.getD k 0)

/-- The address of an element in bits (R208). -/
def Tensor.bit (t : Tensor) (width : Nat) (c : List Int) : Nat :=
  let row : Int := (List.range 5).foldl (fun (a : Int) k => a + c.getD k 0 * t.strides.getD k 0) (t.base : Int)
  ((row * 8 + c.getD 0 0 * (width : Int)) % (2 : Int) ^ 67).toNat

/-- One element of a tensor at its coordinates (R208): its bits in the destination format, none for
poison, and the flags of its conversion. -/
def tensorElem (g : Agent) (s : State) (t : Tensor) (v : Conv) (c : List Int) : Except UnitLoc (Option Nat × Flags) :=
  if !t.inside c then .ok (some (t.fill % 2 ^ v.dst.width), 0)
  else
    let pos := t.bit v.src.width c
    let n := (pos % 8 + v.src.width + 7) / 8
    match g.read s (pos / 8) n with
    | .error l => .error l
    | .ok bs =>
      if bs.any (·.2) then .ok (none, 0)
      else
        let (x, fl) := fconvert v.src v.dst v.rnd v.sat (leNat (bs.map (·.1)) / 2 ^ (pos % 8) % 2 ^ v.src.width)
        .ok (some x, fl)

/-- The elements at a list of coordinates, in order, with the flags of all. -/
def tensorElems (g : Agent) (s : State) (t : Tensor) (v : Conv) : List (List Int) → Except UnitLoc (List (Option Nat) × Flags)
  | [] => .ok ([], 0)
  | c :: cs =>
    match tensorElem g s t v c with
    | .error l => .error l
    | .ok (x, f) =>
      match tensorElems g s t v cs with
      | .error l => .error l
      | .ok (xs, fs) => .ok (x :: xs, f ||| fs)

/-- The coordinates of a tile, dimension 0 running fastest (R208). -/
def tileCoords (org : List Int) (ext : Nat) : List (List Int) :=
  let n := fun k => extentOf ext k
  (List.range (tileCount false false ext 0)).map fun p =>
    [org.getD 0 0 + (p % n 0 : Nat), org.getD 1 0 + (p / n 0 % n 1 : Nat),
     org.getD 2 0 + (p / (n 0 * n 1) % n 2 : Nat), org.getD 3 0 + (p / (n 0 * n 1 * n 2) % n 3 : Nat),
     org.getD 4 0 + (p / (n 0 * n 1 * n 2 * n 3) : Nat)]

/-- The coordinates of a GATHER's row for an index (R209). -/
def gatherCoords (r : Table Word) (idx : Int) : List (List Int) :=
  let org := originsOf r
  (List.range (extentOf (tget 0 r 7).toNat 0)).map fun (j : Nat) => [org.getD 0 0 + (j : Int), idx, org.getD 2 0, org.getD 3 0, org.getD 4 0]

/-- A list cut into pieces of four; the fuel bounds their number. -/
def quads {α : Type} : Nat → List α → List (List α)
  | 0, _ => []
  | n + 1, l => if l.isEmpty then [] else l.take 4 :: quads n (l.drop 4)

/-- The rows of a GATHER from row index i on (R209): one for each entry of the index array, poisoned as a
whole when its entry is (log 42). -/
def gatherRows (g : Agent) (s : State) (t : Tensor) (v : Conv) (r : Table Word) (step : Nat) :
    Nat → List (List (Byte × Bool)) → Except UnitLoc (List CopyRow × Flags)
  | _, [] => .ok ([], 0)
  | i, e :: es =>
    let n0 := extentOf (tget 0 r 7).toNat 0
    let cs := gatherCoords r (sint 32 (leNat (e.map (·.1))))
    match if e.any (·.2) then .ok (List.replicate n0 none, 0) else tensorElems g s t v cs with
    | .error l => .error l
    | .ok (xs, f) =>
      match gatherRows g s t v r step (i + 1) es with
      | .error l => .error l
      | .ok (rows, fs) => .ok (⟨i * step, v.dst.width, xs⟩ :: rows, f ||| fs)

/-- Everything a copy reads, as rows to deliver, with its conversion flags (R206, R208, R209). -/
def copySource (g : Agent) (s : State) (c : Cmd) : Except UnitLoc (List CopyRow × Flags) :=
  let r := c.regs
  let ctl := (tget 0 r 3).toNat
  let len := (tget 0 r 2).toNat
  if !ctlTens ctl then
    match g.read s (tget 0 r 0).toNat len with
    | .error l => .error l
    | .ok bs =>
      let el := fun (b : Byte × Bool) => if b.2 then none else some b.1.toNat
      if ctlRop ctl = 0 then .ok ([⟨0, 8, bs.map el⟩], 0)
      else .ok ([⟨0, 32, (quads len bs).map fun q =>
        if q.any (·.2) then none else some (leNat (q.map (·.1)))⟩], 0)
  else
    let t := tensorOf (recordWords r)
    let v : Conv := ⟨fmtOr .fp32 t.fmt, fmtOr .fp32 (dstCode r t), rndOfCode (ctlRnd ctl), ctlSat ctl⟩
    if c.code = 2 then
      match g.read s (tget 0 r 8).toNat (4 * len) with
      | .error l => .error l
      | .ok bs =>
        let step := if ctlGacc ctl then 0 else (extentOf (tget 0 r 7).toNat 0 * v.dst.width + 7) / 8
        gatherRows g s t v r step 0 (quads len bs)
    else
      match tensorElems g s t v (tileCoords (originsOf r) (tget 0 r 7).toNat) with
      | .error l => .error l
      | .ok (xs, f) => .ok ([⟨0, v.dst.width, xs⟩], f)

/-- Addresses that name every page of a copy's source (R206, R208, R209). -/
def sourceVas (g : Agent) (s : State) (c : Cmd) : List Nat :=
  let r := c.regs
  let len := (tget 0 r 2).toNat
  if !ctlTens (tget 0 r 3).toNat then spanVas (tget 0 r 0).toNat len
  else
    let t := tensorOf (recordWords r)
    let width := (fmtOr .fp32 t.fmt).width
    let at_ := fun (cs : List (List Int)) => (cs.filter t.inside).flatMap fun p =>
      [t.bit width p / 8, (t.bit width p + width - 1) / 8]
    if c.code = 2 then
      match g.read s (tget 0 r 8).toNat (4 * len) with
      | .error _ => spanVas (tget 0 r 8).toNat (4 * len)
      | .ok bs => spanVas (tget 0 r 8).toNat (4 * len) ++
          (quads len bs).flatMap fun e => if e.any (·.2) then [] else at_ (gatherCoords r (sint 32 (leNat (e.map (·.1)))))
    else at_ (tileCoords (originsOf r) (tget 0 r 7).toNat)

/-- Bytes a row occupies (R49). -/
def CopyRow.size (w : CopyRow) : Nat := (w.elems.length * w.width + 7) / 8

/-- A row as one packed array (R49): byte by byte, none where an element of it is poisoned; bits beyond the
last element keep what the destination holds. -/
def CopyRow.bytes (w : CopyRow) (old : Byte) : List (Option Byte) :=
  let packed := w.elems.foldr (fun e a => e.getD 0 % 2 ^ w.width + 2 ^ w.width * a) 0
  let bits := w.elems.length * w.width
  let packed := packed + (if bits % 8 = 0 then 0 else nbits old.toNat (bits % 8) (8 - bits % 8) * 2 ^ bits)
  (List.range w.size).map fun i =>
    let lo := 8 * i / w.width
    let hi := min (w.elems.length - 1) ((8 * i + 7) / w.width)
    if (List.range (hi + 1 - lo)).any fun j => (w.elems.getD (lo + j) none).isNone then none
    else some (BitVec.ofNat 8 (packed / 256 ^ i))

/-- The merge of a reduction (R210): op(resident, incoming), with the flags of an FP32 add. -/
def mergeOp (rop : Nat) (old new : Nat) : Nat × Flags :=
  if rop = 1 then ((old + new) % 2 ^ 32, 0)
  else if rop = 2 then fp32add old new
  else if rop = 3 then ((if sint 32 old < sint 32 new then new else old), 0)
  else if rop = 4 then ((if sint 32 new < sint 32 old then new else old), 0)
  else fminmax (rop == 5) .fp32 .fp32 .fp32 .rne false old new

/-- The elements of a row merged into its places, four a time, in order (R210). A resident element that is itself
poisoned is merged with by its bytes and keeps its mark (log 77). -/
def mergeRow (g : Agent) (rop : Nat) (bad : List Nat) : State → List UnitLoc → List (Option Nat) → State × Flags
  | s, _, [] => (s, 0)
  | s, ls, e :: es =>
    let at4 := ls.take 4
    let (s, f) := match e with
      | none => (at4.foldl markPoison s, 0)
      | some x =>
        if at4.any fun l => bad.contains l.unit then (s, 0)
        else
          let old := leNat (at4.map fun l => (g.byteAt s l).1)
          let (v, f) := mergeOp rop old x
          (g.writeAll s 0 (at4.zip ((leBytes 4 v).map some)), f)
    let (s, fs) := mergeRow g rop bad s (ls.drop 4) es
    (s, f ||| fs)

/-- A row delivered at an address whose places are known to be good. -/
def deliverRow (g : Agent) (scope rop : Nat) (base : Nat) (p : State × Flags) (w : CopyRow) : State × Flags :=
  let s := p.1
  let ls := g.locateAll s .store (base + w.off) w.size
  if rop = 0 then
    let old := (g.byteAt s (ls.getLastD .page)).1
    (g.writeAll s scope (ls.zip (w.bytes old)), p.2)
  else
    let bad := ((List.range w.elems.length).filter fun j => (w.elems.getD j none).isNone).flatMap fun j =>
      ((ls.drop (4 * j)).take 4).map UnitLoc.unit
    let (s, f) := mergeRow g rop bad s ls w.elems
    (s, p.2 ||| f)

/-- The addresses a copy delivers its rows at: one, or one in each core of an MCAST (R209). -/
def copyTargets (c : Cmd) : List Nat :=
  let dst := (tget 0 c.regs 1).toNat
  if c.code = 4 then
    ((List.range 64).filter fun k => nbit (tget 0 c.regs 9).toNat k).map fun k => windowAddr k (dst % 2 ^ 17)
  else [dst]

/-- The first fault among the places of the rows at the targets. -/
def targetFault (g : Agent) (s : State) (rows : List CopyRow) (targets : List Nat) : Option UnitLoc :=
  (targets.flatMap fun b => rows.flatMap fun w => g.locateAll s .store (b + w.off) w.size).find? UnitLoc.bad

/-- The addresses of the rows at the targets. -/
def targetVas (rows : List CopyRow) (targets : List Nat) : List Nat :=
  targets.flatMap fun b => rows.flatMap fun w => spanVas (b + w.off) w.size

/-- Addresses up to the first that an engine cannot reach: it asks for no later one. -/
def Agent.reached (g : Agent) (s : State) (k : Access) (vas : List Nat) : List Nat :=
  vas.takeWhile fun va => !(g.locate s k (va % 2 ^ 64)).bad

/-- The same and the first that it cannot reach, whose translation it asks for. -/
def Agent.tried (g : Agent) (s : State) (k : Access) (vas : List Nat) : List Nat :=
  g.reached s k vas ++ (vas.drop (g.reached s k vas).length).take 1

/-- The copy request that a source in another package's memory takes (R362), one for each page piece. -/
def Agent.askCopy (g : Agent) (s : State) (va : Nat) : State :=
  match g.locate s .load (va % 2 ^ 64) with
  | .mem pa => peerSend s 4 0 pa 0 []
  | _ => s

/-- Bytes discarded for a binding that HKILL has freed (R203). -/
def discardBytes (s : State) (n h bytes : Nat) : State :=
  let e := s.handle n (handleIdx h)
  s.setHandle n (handleIdx h) { e with discard := min (2 ^ 32 - 1) (e.discard + bytes) }

/-- Whether a copy's turn has come among the copies of its context (R210). -/
def copyTurn (x : EngCtx) (num : Nat) : Bool :=
  x.queue.all fun q => decide (num ≤ q.num) || q.code == 31 || q.landed

/-- A started copy reads its source (R206, R208, R209), its pages translated: the state after, with what it has read, or
how the copy ends. -/
def readCopy (s : State) (n : Nat) (c : Cmd) : State × Except CmdEnd (List CopyRow × Flags) :=
  let s := l2FillAll s (dieOf n)
  let g := cmdAgent s n c
  if c.src ≠ 0 && !liveHandle s n c.src then (discardBytes s n c.src (tget 0 c.regs 2).toNat, .error { code := 3 })
  else
    let s := g.visit s (g.reached s .load (sourceVas g s c))
    let s := (g.reached s .load (sourceVas g s c)).foldl g.askCopy s
    match copySource g s c with
    | .error l => (s, .error l.status)
    | .ok x => (spendDevice s, .ok x)

/-- The walks that a copy's source has to wait for, asked for. -/
def copyAwaits (s : State) (n : Nat) (c : Cmd) : Option State :=
  if c.src ≠ 0 && !liveHandle s n c.src then none
  else let g := cmdAgent s n c; g.awaits s (g.tried s .load (sourceVas g s c))

/-- A copy delivers what it has read (R204, R208 to R211, R288), and holds it while the pages of its destination are
walked for. -/
def writeCopy (s : State) (n k : Nat) (c : Cmd) (rows : List CopyRow) (fl : Flags) : State :=
  let g := cmdAgent s n c
  if c.dst ≠ 0 && !liveHandle s n c.dst then
    endCommand (discardBytes s n c.dst (rows.map CopyRow.size).sum) n k c { code := 3, flags := fl }
  else match g.awaits s (g.tried s .store (targetVas rows (copyTargets c))) with
  | some s => s.setCmd n k { c with held := some (rows, fl) }
  | none =>
    let s := g.visit s (g.reached s .store (targetVas rows (copyTargets c)))
    match targetFault g s rows (copyTargets c) with
    | some l => endCommand s n k c { l.status with flags := fl }
    | none =>
      let rop := ctlRop (tget 0 c.regs 3).toNat
      let (s, fm) := (copyTargets c).foldl (fun p b => rows.foldl (deliverRow g c.scope rop b) p) (s, fl)
      let lost := (copyTargets c).any fun b => rows.any fun w => (g.locateAll s .store (b + w.off) w.size).any fun l =>
        match l with
        | .mem pa => !reachable s pa
        | _ => false
      let poison := lost || rows.any fun w => w.elems.any Option.isNone
      endCommand s n k c { code := if poison then 4 else 0, flags := fm }

/-- A started copy reads its source, unless it holds what it has read (R386), and delivers every byte. -/
def runCopy (s : State) (n k : Nat) (c : Cmd) : State :=
  match c.held with
  | some (rows, fl) => writeCopy s n k c rows fl
  | none => match copyAwaits s n c with
    | some s => s
    | none => match readCopy s n c with
      | (s, .error e) => endCommand s n k c e
      | (s, .ok (rows, fl)) => writeCopy s n k c rows fl

/-- Whether a copy writes into a scratchpad: its streamer can hold the bytes while the cores of its party move (R275,
R386). -/
def copyHolds (ctx : Nat) (q : Cmd) : Bool :=
  decide (ctx < 4) && q.code != 31 && !q.landed && (q.dst != 0 || inWindow (tget 0 q.regs 1).toNat)

/-- Whether the cores of a party move now (R287). -/
def coresMove (s : State) (pid : Nat) : Bool :=
  match tfind s.stops pid with
  | some st => st.kind == .migrate && st.begun && st.tidx.isNone
  | none => false

/-- A copy into a core that moves reads on, and what it has read is held at its streamer (R287, R386). -/
def holdCopy (s : State) (n k : Nat) (c : Cmd) : State :=
  if c.held.isSome then s
  else match copyAwaits s n c with
  | some s => s
  | none => match readCopy s n c with
    | (s, .error e) => endCommand s n k c e
    | (s, .ok x) => s.setCmd n k { c with held := some x }

/-- COPY_LAST_BYTE (R201, R211, R212): the last byte of copy ev.m of COPY context ev.k of core ev.n is read
and written; its handles move on and its follow-on may start. While its destination moves, it is read and held. -/
def execCopyLastByte (s : State) : Out :=
  match s.cmd s.ev.n s.ev.k s.ev.m with
  | none => .next s
  | some c =>
    if s.ev.k < 4 && c.started && !c.landed && c.code != 31 then
      if copyHolds s.ev.k c && coresMove s c.pid then .next (holdCopy s s.ev.n s.ev.k c)
      else if copyTurn (s.ctx s.ev.n (s.ev.k / 4) (s.ev.k % 4)) c.num then .next (runCopy s s.ev.n s.ev.k c)
      else .next s
    else .next s

end Sys2Proof.Machine
end

