-- ==== Sys2Proof/Machine/Integer.lean ====
section
/-!
DEFINITION. Majors 0x01 to 0x0F: the integer operations of R87 to R96 as functions of 64-bit words, and
the meanings of the integer, branch, jump and LOOP instructions (R85 to R104).
-/

namespace Sys2Proof.Machine

def addOp (a b : Word) : Word := a + b
def subOp (a b : Word) : Word := a - b
def mulOp (a b : Word) : Word := a * b
/-- Bits [127:64] of the signed product (R87). -/
def mulhOp (a b : Word) : Word := BitVec.ofInt 64 (a.toInt * b.toInt / 2 ^ 64)
/-- Bits [127:64] of the unsigned product (R87). -/
def mulhuOp (a b : Word) : Word := BitVec.ofNat 64 (a.toNat * b.toNat / 2 ^ 64)
/-- Signed division at a width (R88): by zero all ones, most negative by minus one itself, else
truncation towards zero. -/
def divS {n : Nat} (a b : BitVec n) : BitVec n :=
  if b = 0 then BitVec.allOnes n else BitVec.ofInt n (Int.tdiv a.toInt b.toInt)
/-- Unsigned division at a width (R88). -/
def divU {n : Nat} (a b : BitVec n) : BitVec n :=
  if b = 0 then BitVec.allOnes n else BitVec.ofNat n (a.toNat / b.toNat)
/-- Signed remainder at a width (R88): by zero the dividend; the sign of the dividend. -/
def remS {n : Nat} (a b : BitVec n) : BitVec n :=
  if b = 0 then a else BitVec.ofInt n (Int.tmod a.toInt b.toInt)
/-- Unsigned remainder at a width (R88). -/
def remU {n : Nat} (a b : BitVec n) : BitVec n :=
  if b = 0 then a else BitVec.ofNat n (a.toNat % b.toNat)
def divOp (a b : Word) : Word := divS a b
def divuOp (a b : Word) : Word := divU a b
def remOp (a b : Word) : Word := remS a b
def remuOp (a b : Word) : Word := remU a b
def andOp (a b : Word) : Word := a &&& b
def orOp (a b : Word) : Word := a ||| b
def xorOp (a b : Word) : Word := a ^^^ b
def andnOp (a b : Word) : Word := a &&& ~~~b
/-- Shifts and rotates read b[5:0] (R87). -/
def sllOp (a b : Word) : Word := a <<< (b.toNat % 64)
def srlOp (a b : Word) : Word := a >>> (b.toNat % 64)
def sraOp (a b : Word) : Word := a.sshiftRight (b.toNat % 64)
/-- A shift by 64 gives zero, so a rotation by 0 gives a (R87). -/
def rolOp (a b : Word) : Word := a <<< (b.toNat % 64) ||| a >>> (64 - b.toNat % 64)
def rorOp (a b : Word) : Word := a >>> (b.toNat % 64) ||| a <<< (64 - b.toNat % 64)
def minOp (a b : Word) : Word := if a.toInt ≤ b.toInt then a else b
def maxOp (a b : Word) : Word := if a.toInt ≤ b.toInt then b else a
def minuOp (a b : Word) : Word := if a.toNat ≤ b.toNat then a else b
def maxuOp (a b : Word) : Word := if a.toNat ≤ b.toNat then b else a
/-- One or zero as a register word. -/
def boolWord (p : Bool) : Word := if p then 1 else 0
def sltOp (a b : Word) : Word := boolWord (decide (a.toInt < b.toInt))
def sltuOp (a b : Word) : Word := boolWord (decide (a.toNat < b.toNat))
def seqOp (a b : Word) : Word := boolWord (decide (a = b))

/-- The low 32 bits (R89). -/
def lo32 (a : Word) : W32 := a.setWidth 32
/-- A 32-bit result sign-extended (R89). -/
def sx32 (r : W32) : Word := r.signExtend 64
def addwOp (a b : Word) : Word := sx32 (lo32 a + lo32 b)
def subwOp (a b : Word) : Word := sx32 (lo32 a - lo32 b)
def mulwOp (a b : Word) : Word := sx32 (lo32 a * lo32 b)
def divwOp (a b : Word) : Word := sx32 (divS (lo32 a) (lo32 b))
def divuwOp (a b : Word) : Word := sx32 (divU (lo32 a) (lo32 b))
def remwOp (a b : Word) : Word := sx32 (remS (lo32 a) (lo32 b))
def remuwOp (a b : Word) : Word := sx32 (remU (lo32 a) (lo32 b))
def sllwOp (a b : Word) : Word := sx32 (lo32 a <<< (b.toNat % 32))
def srlwOp (a b : Word) : Word := sx32 (lo32 a >>> (b.toNat % 32))
def srawOp (a b : Word) : Word := sx32 ((lo32 a).sshiftRight (b.toNat % 32))
def rolwOp (a b : Word) : Word := sx32 (lo32 a <<< (b.toNat % 32) ||| lo32 a >>> (32 - b.toNat % 32))
def rorwOp (a b : Word) : Word := sx32 (lo32 a >>> (b.toNat % 32) ||| lo32 a <<< (32 - b.toNat % 32))

/-- The leading zero bits of the low n bits of v. -/
def clzFrom (v : Nat) : Nat → Nat
  | 0 => 0
  | n + 1 => if v / 2 ^ n % 2 = 1 then 0 else 1 + clzFrom v n
/-- The trailing zero bits of v, at most n. -/
def ctzFrom : Nat → Nat → Nat
  | _, 0 => 0
  | v, n + 1 => if v % 2 = 1 then 0 else 1 + ctzFrom (v / 2) n
/-- The one bits among the low n bits of v. -/
def popcFrom : Nat → Nat → Nat
  | _, 0 => 0
  | v, n + 1 => v % 2 + popcFrom (v / 2) n
/-- The low n bits of v in reverse order. -/
def brevFrom : Nat → Nat → Nat
  | _, 0 => 0
  | v, n + 1 => v % 2 * 2 ^ n + brevFrom (v / 2) n
/-- The low n bytes of v in reverse order. -/
def bswapFrom : Nat → Nat → Nat
  | _, 0 => 0
  | v, n + 1 => v % 256 * 256 ^ n + bswapFrom (v / 256) n

/-- R95: a if z0 is not zero, else b. -/
def selOp (a b z : Word) : Word := if z ≠ 0 then a else b
def clzOp (a : Word) : Word := BitVec.ofNat 64 (clzFrom a.toNat 64)
def ctzOp (a : Word) : Word := BitVec.ofNat 64 (ctzFrom a.toNat 64)
def popcOp (a : Word) : Word := BitVec.ofNat 64 (popcFrom a.toNat 64)
def brevOp (a : Word) : Word := BitVec.ofNat 64 (brevFrom a.toNat 64)
def bswapOp (a : Word) : Word := BitVec.ofNat 64 (bswapFrom a.toNat 8)

/-- pos of a control word (R96). -/
def bfPos (c : Word) : Nat := c.toNat % 64
/-- len of a control word (R96), cut at bit 63. -/
def bfLen (c : Word) : Nat := min (c.toNat / 256 % 128) (64 - bfPos c)
/-- The field f of R96. -/
def bfField (a c : Word) : Nat := a.toNat / 2 ^ bfPos c % 2 ^ bfLen c
def bfxuOp (a c : Word) : Word := BitVec.ofNat 64 (bfField a c)
def bfxOp (a c : Word) : Word :=
  if bfLen c = 0 then 0
  else if bfField a c < 2 ^ (bfLen c - 1) then BitVec.ofNat 64 (bfField a c)
  else BitVec.ofInt 64 ((bfField a c : Int) - 2 ^ bfLen c)
def bfiOp (a b c : Word) : Word :=
  let m : Word := BitVec.ofNat 64 ((2 ^ bfLen c - 1) * 2 ^ bfPos c)
  a &&& ~~~m ||| b <<< bfPos c &&& m

/-- A conditional branch (R97, R98): taken, it transfers control and ends a loop (R103); not taken, it
is an ordinary instruction. -/
def branch (w : W32) (r : Srcs) (off : Word) (s : State) (cond : State → Bool) : Out :=
  issue w {} r .none s fun s =>
    if cond s then
      let s := s.leave r
      .next (s.withTh ((s.th.consume r).jump (s.th.pc + off <<< 2)))
    else retire r s id

/-- What LOOP sets before its own completion (R38): with a count of 0 the next address is the one after
the n-th instruction and nothing else changes; the pc is set so that completion adds 4. -/
def Thread.startLoop (t : Thread) (count : Word) (n : Nat) : Thread :=
  if count = 0 then { t with pc := t.pc + BitVec.ofNat 64 (4 * (n + 1)) }
  else
    { t with
      lcnt := count
      lstart := addrField (t.pc + 4)
      lend := addrField (t.pc + BitVec.ofNat 64 (4 * (n + 1)))
      stat := { t.stat with la := true }, loopBuf := [] }

/-- ADD: R87. -/
def execAdd (d a b : RegCode) (hA hB : Bool) (s : State) : Out :=
  alu (encode (.add d a b hA hB)) {} { a := some a, b := some b, hA, hB } d s
    fun t => addOp (t.readA a) (t.readB b)

/-- SUB: R87. -/
def execSub (d a b : RegCode) (hA hB : Bool) (s : State) : Out :=
  alu (encode (.sub d a b hA hB)) {} { a := some a, b := some b, hA, hB } d s
    fun t => subOp (t.readA a) (t.readB b)

/-- MUL: R87. -/
def execMul (d a b : RegCode) (hA hB : Bool) (s : State) : Out :=
  alu (encode (.mul d a b hA hB)) {} { a := some a, b := some b, hA, hB } d s
    fun t => mulOp (t.readA a) (t.readB b)

/-- MULH: R87. -/
def execMulh (d a b : RegCode) (hA hB : Bool) (s : State) : Out :=
  alu (encode (.mulh d a b hA hB)) {} { a := some a, b := some b, hA, hB } d s
    fun t => mulhOp (t.readA a) (t.readB b)

/-- MULHU: R87. -/
def execMulhu (d a b : RegCode) (hA hB : Bool) (s : State) : Out :=
  alu (encode (.mulhu d a b hA hB)) {} { a := some a, b := some b, hA, hB } d s
    fun t => mulhuOp (t.readA a) (t.readB b)

/-- DIV: R88. -/
def execDiv (d a b : RegCode) (hA hB : Bool) (s : State) : Out :=
  alu (encode (.div d a b hA hB)) {} { a := some a, b := some b, hA, hB } d s
    fun t => divOp (t.readA a) (t.readB b)

/-- DIVU: R88. -/
def execDivu (d a b : RegCode) (hA hB : Bool) (s : State) : Out :=
  alu (encode (.divu d a b hA hB)) {} { a := some a, b := some b, hA, hB } d s
    fun t => divuOp (t.readA a) (t.readB b)

/-- REM: R88. -/
def execRem (d a b : RegCode) (hA hB : Bool) (s : State) : Out :=
  alu (encode (.rem d a b hA hB)) {} { a := some a, b := some b, hA, hB } d s
    fun t => remOp (t.readA a) (t.readB b)

/-- REMU: R88. -/
def execRemu (d a b : RegCode) (hA hB : Bool) (s : State) : Out :=
  alu (encode (.remu d a b hA hB)) {} { a := some a, b := some b, hA, hB } d s
    fun t => remuOp (t.readA a) (t.readB b)

/-- AND: R87. -/
def execAnd (d a b : RegCode) (hA hB : Bool) (s : State) : Out :=
  alu (encode (.and d a b hA hB)) {} { a := some a, b := some b, hA, hB } d s
    fun t => andOp (t.readA a) (t.readB b)

/-- OR: R87. -/
def execOr (d a b : RegCode) (hA hB : Bool) (s : State) : Out :=
  alu (encode (.or d a b hA hB)) {} { a := some a, b := some b, hA, hB } d s
    fun t => orOp (t.readA a) (t.readB b)

/-- XOR: R87. -/
def execXor (d a b : RegCode) (hA hB : Bool) (s : State) : Out :=
  alu (encode (.xor d a b hA hB)) {} { a := some a, b := some b, hA, hB } d s
    fun t => xorOp (t.readA a) (t.readB b)

/-- ANDN: R87. -/
def execAndn (d a b : RegCode) (hA hB : Bool) (s : State) : Out :=
  alu (encode (.andn d a b hA hB)) {} { a := some a, b := some b, hA, hB } d s
    fun t => andnOp (t.readA a) (t.readB b)

/-- SLL: R87. -/
def execSll (d a b : RegCode) (hA hB : Bool) (s : State) : Out :=
  alu (encode (.sll d a b hA hB)) {} { a := some a, b := some b, hA, hB } d s
    fun t => sllOp (t.readA a) (t.readB b)

/-- SRL: R87. -/
def execSrl (d a b : RegCode) (hA hB : Bool) (s : State) : Out :=
  alu (encode (.srl d a b hA hB)) {} { a := some a, b := some b, hA, hB } d s
    fun t => srlOp (t.readA a) (t.readB b)

/-- SRA: R87. -/
def execSra (d a b : RegCode) (hA hB : Bool) (s : State) : Out :=
  alu (encode (.sra d a b hA hB)) {} { a := some a, b := some b, hA, hB } d s
    fun t => sraOp (t.readA a) (t.readB b)

/-- ROL: R87. -/
def execRol (d a b : RegCode) (hA hB : Bool) (s : State) : Out :=
  alu (encode (.rol d a b hA hB)) {} { a := some a, b := some b, hA, hB } d s
    fun t => rolOp (t.readA a) (t.readB b)

/-- ROR: R87. -/
def execRor (d a b : RegCode) (hA hB : Bool) (s : State) : Out :=
  alu (encode (.ror d a b hA hB)) {} { a := some a, b := some b, hA, hB } d s
    fun t => rorOp (t.readA a) (t.readB b)

/-- MIN: R87. -/
def execMin (d a b : RegCode) (hA hB : Bool) (s : State) : Out :=
  alu (encode (.min d a b hA hB)) {} { a := some a, b := some b, hA, hB } d s
    fun t => minOp (t.readA a) (t.readB b)

/-- MAX: R87. -/
def execMax (d a b : RegCode) (hA hB : Bool) (s : State) : Out :=
  alu (encode (.max d a b hA hB)) {} { a := some a, b := some b, hA, hB } d s
    fun t => maxOp (t.readA a) (t.readB b)

/-- MINU: R87. -/
def execMinu (d a b : RegCode) (hA hB : Bool) (s : State) : Out :=
  alu (encode (.minu d a b hA hB)) {} { a := some a, b := some b, hA, hB } d s
    fun t => minuOp (t.readA a) (t.readB b)

/-- MAXU: R87. -/
def execMaxu (d a b : RegCode) (hA hB : Bool) (s : State) : Out :=
  alu (encode (.maxu d a b hA hB)) {} { a := some a, b := some b, hA, hB } d s
    fun t => maxuOp (t.readA a) (t.readB b)

/-- SLT: R87. -/
def execSlt (d a b : RegCode) (hA hB : Bool) (s : State) : Out :=
  alu (encode (.slt d a b hA hB)) {} { a := some a, b := some b, hA, hB } d s
    fun t => sltOp (t.readA a) (t.readB b)

/-- SLTU: R87. -/
def execSltu (d a b : RegCode) (hA hB : Bool) (s : State) : Out :=
  alu (encode (.sltu d a b hA hB)) {} { a := some a, b := some b, hA, hB } d s
    fun t => sltuOp (t.readA a) (t.readB b)

/-- SEQ: R87. -/
def execSeq (d a b : RegCode) (hA hB : Bool) (s : State) : Out :=
  alu (encode (.seq d a b hA hB)) {} { a := some a, b := some b, hA, hB } d s
    fun t => seqOp (t.readA a) (t.readB b)

/-- ADDW: R89. -/
def execAddw (d a b : RegCode) (hA hB : Bool) (s : State) : Out :=
  alu (encode (.addw d a b hA hB)) {} { a := some a, b := some b, hA, hB } d s
    fun t => addwOp (t.readA a) (t.readB b)

/-- SUBW: R89. -/
def execSubw (d a b : RegCode) (hA hB : Bool) (s : State) : Out :=
  alu (encode (.subw d a b hA hB)) {} { a := some a, b := some b, hA, hB } d s
    fun t => subwOp (t.readA a) (t.readB b)

/-- MULW: R89. -/
def execMulw (d a b : RegCode) (hA hB : Bool) (s : State) : Out :=
  alu (encode (.mulw d a b hA hB)) {} { a := some a, b := some b, hA, hB } d s
    fun t => mulwOp (t.readA a) (t.readB b)

/-- DIVW: R89. -/
def execDivw (d a b : RegCode) (hA hB : Bool) (s : State) : Out :=
  alu (encode (.divw d a b hA hB)) {} { a := some a, b := some b, hA, hB } d s
    fun t => divwOp (t.readA a) (t.readB b)

/-- DIVUW: R89. -/
def execDivuw (d a b : RegCode) (hA hB : Bool) (s : State) : Out :=
  alu (encode (.divuw d a b hA hB)) {} { a := some a, b := some b, hA, hB } d s
    fun t => divuwOp (t.readA a) (t.readB b)

/-- REMW: R89. -/
def execRemw (d a b : RegCode) (hA hB : Bool) (s : State) : Out :=
  alu (encode (.remw d a b hA hB)) {} { a := some a, b := some b, hA, hB } d s
    fun t => remwOp (t.readA a) (t.readB b)

/-- REMUW: R89. -/
def execRemuw (d a b : RegCode) (hA hB : Bool) (s : State) : Out :=
  alu (encode (.remuw d a b hA hB)) {} { a := some a, b := some b, hA, hB } d s
    fun t => remuwOp (t.readA a) (t.readB b)

/-- SLLW: R89. -/
def execSllw (d a b : RegCode) (hA hB : Bool) (s : State) : Out :=
  alu (encode (.sllw d a b hA hB)) {} { a := some a, b := some b, hA, hB } d s
    fun t => sllwOp (t.readA a) (t.readB b)

/-- SRLW: R89. -/
def execSrlw (d a b : RegCode) (hA hB : Bool) (s : State) : Out :=
  alu (encode (.srlw d a b hA hB)) {} { a := some a, b := some b, hA, hB } d s
    fun t => srlwOp (t.readA a) (t.readB b)

/-- SRAW: R89. -/
def execSraw (d a b : RegCode) (hA hB : Bool) (s : State) : Out :=
  alu (encode (.sraw d a b hA hB)) {} { a := some a, b := some b, hA, hB } d s
    fun t => srawOp (t.readA a) (t.readB b)

/-- ROLW: R89. -/
def execRolw (d a b : RegCode) (hA hB : Bool) (s : State) : Out :=
  alu (encode (.rolw d a b hA hB)) {} { a := some a, b := some b, hA, hB } d s
    fun t => rolwOp (t.readA a) (t.readB b)

/-- RORW: R89. -/
def execRorw (d a b : RegCode) (hA hB : Bool) (s : State) : Out :=
  alu (encode (.rorw d a b hA hB)) {} { a := some a, b := some b, hA, hB } d s
    fun t => rorwOp (t.readA a) (t.readB b)

/-- ADDI: R90. -/
def execAddi (d a : RegCode) (imm : BitVec 14) (s : State) : Out :=
  alu (encode (.addi d a imm)) {} { a := some a } d s
    fun t => addOp (t.readA a) (imm.signExtend 64)

/-- ADDIW: R90. -/
def execAddiw (d a : RegCode) (imm : BitVec 14) (s : State) : Out :=
  alu (encode (.addiw d a imm)) {} { a := some a } d s
    fun t => addwOp (t.readA a) (imm.signExtend 64)

/-- ANDI: R91. -/
def execAndi (d a : RegCode) (imm : BitVec 12) (s : State) : Out :=
  alu (encode (.andi d a imm)) {} { a := some a } d s
    fun t => andOp (t.readA a) (imm.signExtend 64)

/-- ORI: R91. -/
def execOri (d a : RegCode) (imm : BitVec 12) (s : State) : Out :=
  alu (encode (.ori d a imm)) {} { a := some a } d s
    fun t => orOp (t.readA a) (imm.signExtend 64)

/-- XORI: R91. -/
def execXori (d a : RegCode) (imm : BitVec 12) (s : State) : Out :=
  alu (encode (.xori d a imm)) {} { a := some a } d s
    fun t => xorOp (t.readA a) (imm.signExtend 64)

/-- SLLI: R92. -/
def execSlli (d a : RegCode) (sh : BitVec 6) (s : State) : Out :=
  alu (encode (.slli d a sh)) {} { a := some a } d s
    fun t => sllOp (t.readA a) (sh.setWidth 64)

/-- SRLI: R92. -/
def execSrli (d a : RegCode) (sh : BitVec 6) (s : State) : Out :=
  alu (encode (.srli d a sh)) {} { a := some a } d s
    fun t => srlOp (t.readA a) (sh.setWidth 64)

/-- SRAI: R92. -/
def execSrai (d a : RegCode) (sh : BitVec 6) (s : State) : Out :=
  alu (encode (.srai d a sh)) {} { a := some a } d s
    fun t => sraOp (t.readA a) (sh.setWidth 64)

/-- RORI: R92. -/
def execRori (d a : RegCode) (sh : BitVec 6) (s : State) : Out :=
  alu (encode (.rori d a sh)) {} { a := some a } d s
    fun t => rorOp (t.readA a) (sh.setWidth 64)

/-- SLLIW: R92. -/
def execSlliw (d a : RegCode) (sh : BitVec 5) (s : State) : Out :=
  alu (encode (.slliw d a sh)) {} { a := some a } d s
    fun t => sllwOp (t.readA a) (sh.setWidth 64)

/-- SRLIW: R92. -/
def execSrliw (d a : RegCode) (sh : BitVec 5) (s : State) : Out :=
  alu (encode (.srliw d a sh)) {} { a := some a } d s
    fun t => srlwOp (t.readA a) (sh.setWidth 64)

/-- SRAIW: R92. -/
def execSraiw (d a : RegCode) (sh : BitVec 5) (s : State) : Out :=
  alu (encode (.sraiw d a sh)) {} { a := some a } d s
    fun t => srawOp (t.readA a) (sh.setWidth 64)

/-- RORIW: R92. -/
def execRoriw (d a : RegCode) (sh : BitVec 5) (s : State) : Out :=
  alu (encode (.roriw d a sh)) {} { a := some a } d s
    fun t => rorwOp (t.readA a) (sh.setWidth 64)

/-- SLTI: R93. -/
def execSlti (d a : RegCode) (imm : BitVec 12) (s : State) : Out :=
  alu (encode (.slti d a imm)) {} { a := some a } d s
    fun t => sltOp (t.readA a) (imm.signExtend 64)

/-- SLTIU: R93. -/
def execSltiu (d a : RegCode) (imm : BitVec 12) (s : State) : Out :=
  alu (encode (.sltiu d a imm)) {} { a := some a } d s
    fun t => sltuOp (t.readA a) (imm.signExtend 64)

/-- SEQI: R93. -/
def execSeqi (d a : RegCode) (imm : BitVec 12) (s : State) : Out :=
  alu (encode (.seqi d a imm)) {} { a := some a } d s
    fun t => seqOp (t.readA a) (imm.signExtend 64)

/-- LIH: R94. -/
def execLih (d : RegCode) (imm : BitVec 20) (s : State) : Out :=
  alu (encode (.lih d imm)) {} {} d s
    fun _ => imm.signExtend 64 <<< 14

/-- ADDPC: R94. -/
def execAddpc (d : RegCode) (imm : BitVec 20) (s : State) : Out :=
  alu (encode (.addpc d imm)) {} {} d s
    fun t => t.pc + imm.signExtend 64 <<< 14

/-- SEL: R95, the third operand from z0. -/
def execSel (d a b : RegCode) (hA hB : Bool) (s : State) : Out :=
  alu (encode (.sel d a b hA hB)) {} { a := some a, b := some b, hA, hB } d s
    fun t => selOp (t.readA a) (t.readB b) t.z0

/-- CLZ: R95. -/
def execClz (d a : RegCode) (hA : Bool) (s : State) : Out :=
  alu (encode (.clz d a hA)) {} { a := some a, hA } d s
    fun t => clzOp (t.readA a)

/-- CTZ: R95. -/
def execCtz (d a : RegCode) (hA : Bool) (s : State) : Out :=
  alu (encode (.ctz d a hA)) {} { a := some a, hA } d s
    fun t => ctzOp (t.readA a)

/-- POPC: R95. -/
def execPopc (d a : RegCode) (hA : Bool) (s : State) : Out :=
  alu (encode (.popc d a hA)) {} { a := some a, hA } d s
    fun t => popcOp (t.readA a)

/-- BREV: R95. -/
def execBrev (d a : RegCode) (hA : Bool) (s : State) : Out :=
  alu (encode (.brev d a hA)) {} { a := some a, hA } d s
    fun t => brevOp (t.readA a)

/-- BSWAP: R95. -/
def execBswap (d a : RegCode) (hA : Bool) (s : State) : Out :=
  alu (encode (.bswap d a hA)) {} { a := some a, hA } d s
    fun t => bswapOp (t.readA a)

/-- BFX: R96. -/
def execBfx (d a b : RegCode) (hA hB : Bool) (s : State) : Out :=
  alu (encode (.bfx d a b hA hB)) {} { a := some a, b := some b, hA, hB } d s
    fun t => bfxOp (t.readA a) (t.readB b)

/-- BFXU: R96. -/
def execBfxu (d a b : RegCode) (hA hB : Bool) (s : State) : Out :=
  alu (encode (.bfxu d a b hA hB)) {} { a := some a, b := some b, hA, hB } d s
    fun t => bfxuOp (t.readA a) (t.readB b)

/-- BFI: R96, the control word from z0. -/
def execBfi (d a b : RegCode) (hA hB : Bool) (s : State) : Out :=
  alu (encode (.bfi d a b hA hB)) {} { a := some a, b := some b, hA, hB } d s
    fun t => bfiOp (t.readA a) (t.readB b) t.z0

/-- BR_EQ: R97. Source b stands at position A, bits [19:14] (R25). -/
def execBrEq (a b : RegCode) (off : BitVec 11) (s : State) : Out :=
  branch (encode (.brEq a b off)) { a := some b, more := [a] } (off.signExtend 64) s
    fun s => decide ((s.th.value a) = (s.th.readA b))

/-- BR_NE: R97. Source b stands at position A, bits [19:14] (R25). -/
def execBrNe (a b : RegCode) (off : BitVec 11) (s : State) : Out :=
  branch (encode (.brNe a b off)) { a := some b, more := [a] } (off.signExtend 64) s
    fun s => decide ((s.th.value a) ≠ (s.th.readA b))

/-- BR_LT: R97. Source b stands at position A, bits [19:14] (R25). -/
def execBrLt (a b : RegCode) (off : BitVec 11) (s : State) : Out :=
  branch (encode (.brLt a b off)) { a := some b, more := [a] } (off.signExtend 64) s
    fun s => decide ((s.th.value a).toInt < (s.th.readA b).toInt)

/-- BR_GE: R97. Source b stands at position A, bits [19:14] (R25). -/
def execBrGe (a b : RegCode) (off : BitVec 11) (s : State) : Out :=
  branch (encode (.brGe a b off)) { a := some b, more := [a] } (off.signExtend 64) s
    fun s => decide ((s.th.readA b).toInt ≤ (s.th.value a).toInt)

/-- BR_LTU: R97. Source b stands at position A, bits [19:14] (R25). -/
def execBrLtu (a b : RegCode) (off : BitVec 11) (s : State) : Out :=
  branch (encode (.brLtu a b off)) { a := some b, more := [a] } (off.signExtend 64) s
    fun s => decide ((s.th.value a).toNat < (s.th.readA b).toNat)

/-- BR_GEU: R97. Source b stands at position A, bits [19:14] (R25). -/
def execBrGeu (a b : RegCode) (off : BitVec 11) (s : State) : Out :=
  branch (encode (.brGeu a b off)) { a := some b, more := [a] } (off.signExtend 64) s
    fun s => decide ((s.th.readA b).toNat ≤ (s.th.value a).toNat)

/-- BZ_EQZ: R98. -/
def execBzEqz (a : RegCode) (off : BitVec 18) (s : State) : Out :=
  branch (encode (.bzEqz a off)) { more := [a] } (off.signExtend 64) s
    fun s => decide (s.th.value a = 0)

/-- BZ_NEZ: R98. -/
def execBzNez (a : RegCode) (off : BitVec 18) (s : State) : Out :=
  branch (encode (.bzNez a off)) { more := [a] } (off.signExtend 64) s
    fun s => decide (s.th.value a ≠ 0)

/-- BZ_LTZ: R98. -/
def execBzLtz (a : RegCode) (off : BitVec 18) (s : State) : Out :=
  branch (encode (.bzLtz a off)) { more := [a] } (off.signExtend 64) s
    fun s => decide ((s.th.value a).toInt < 0)

/-- BZ_GEZ: R98. -/
def execBzGez (a : RegCode) (off : BitVec 18) (s : State) : Out :=
  branch (encode (.bzGez a off)) { more := [a] } (off.signExtend 64) s
    fun s => decide (0 ≤ (s.th.value a).toInt)

/-- JAL: R99. -/
def execJal (d : RegCode) (off : BitVec 20) (s : State) : Out :=
  issue (encode (.jal d off)) {} {} (.sync d) s fun s =>
    let s := s.leave {}
    .next (s.withTh (((s.th.consume {}).writeSync d (s.th.pc + 4)).jump (s.th.pc + off.signExtend 64 <<< 2)))

/-- JALR: R99. The base is read before the link is written. -/
def execJalr (d a : RegCode) (imm : BitVec 14) (s : State) : Out :=
  issue (encode (.jalr d a imm)) {} { a := some a } (.sync d) s fun s =>
    let t := s.th.readA a + imm.signExtend 64
    if t >>> 55 ≠ 0 then trap .pageFaultFetch t 4 s
    else
      let s := s.leave { a := some a }
      .next (s.withTh (((s.th.consume { a := some a }).writeSync d (s.th.pc + 4)).jump (t &&& ~~~3)))

/-- LOOP: R38, R39, R101. -/
def execLoop (a : RegCode) (n : BitVec 6) (s : State) : Out :=
  issue (encode (.loop a n)) {} { a := some a } .none s fun s =>
    if s.th.stat.la then trap .loopFault s.th.lstart s.th.lend s
    else
      let count := s.th.readA a
      retire { a := some a } s fun t => t.startLoop count n.toNat

end Sys2Proof.Machine
end

