-- ==== Sys2Proof/Machine/LoadStore.lean ====
section
/-!
DEFINITION. Majors 0x10 to 0x17: loads, stores, bit access, atomics, fences and line hints (R105 to
R128).
-/

namespace Sys2Proof.Machine

/-- The low n bytes of a register. -/
def wordBytes (n : Nat) (v : Word) : List Byte := leBytes n v.toNat

/-- A releasing store performs at the home of its scope (R119, R265): its lines are written through. -/
def writeThrough (sc : Scope) (s : State) (locs : List Loc) : State :=
  let lines := linesOf locs
  releaseLines s s.here sc fun no => lines.contains no

/-- The bytes of a line, present at the home of a scope (R120, R125): dirty bytes closer to the thread
are written back first. The CORE home is the cache portion, which takes what it lacks from the group pool or L2
as a load does; on a core without one it is the line's L2 slice (R301). -/
def bringHome (s : State) (sc : Scope) (no : Nat) (offs : List Nat) : State :=
  let c := s.here
  let d := dieOf c
  let (pf, lf) := s.floors s.th
  let floor := s.l2Floor s.th
  match sc with
  | .core =>
    if waysOf s c = 0 then l2Ensure (releaseLines s c .party (· == no)) d no floor offs
    else match nearLine s c pf lf no offs with
      | .hit _ s => s
      | .miss _ => refill (l2Ensure s d no floor offs) c pf lf no
  | .party => l2Ensure (releaseLines s c .party (· == no)) d no floor offs
  | .die => l2Ensure (releaseLines s c .die (· == no)) d no floor offs
  | .pkg => releaseLines s c .pkg (· == no)
  | .sys => releaseLines s c .sys (· == no)

/-- A byte at the home of a scope once it has been brought there. The CORE home is the cache portion, with the pool
lines that evictions may have made of its line since (R293); on a core without a portion it is the line's L2 slice
(R301). -/
def homeByte (s : State) (sc : Scope) (pa : Nat) : Byte :=
  let c := s.here
  let inLine := fun (ls : List Line) owner => ((findLine ls (pa / 64) owner).bind fun l => tfind l.bytes (pa % 64)).map (·.1)
  let l2 := (inLine (s.l2Lines (dieOf c)) 0).getD (memByte s pa)
  match sc with
  | .core =>
    if waysOf s c = 0 then l2
    else
      let pool := (poolHolders s (pa / 64) c).findSome? fun h => inLine (s.portionOf h) c
      (((inLine (s.portionOf c) c).or pool).or (tfind (poolFill s c (s.floors s.th).1 (s.floors s.th).2 (pa / 64)).bytes (pa % 64))).getD l2
  | .party => l2
  | .die => l2
  | .pkg => memByte s pa
  | .sys => memByte s pa

/-- The core's own clean copies of bytes that it writes at a home beyond its portion are used no more, so that its
later loads return them or newer ones (R114, R301): those of its portion and pool line, other cores' pool copies
(R261), and, for a home beyond L2, its slice's. -/
def forget (s : State) (c no : Nat) (beyondL2 : Bool) (bytes : Table Byte) : State :=
  let s := noteWrote (dropBytes s (c :: poolHolders s no c) no c bytes) c no bytes
  if beyondL2 && (findLine (s.l2Lines (dieOf c)) no 0).isSome then
    { s with l2 := tput s.l2 (dieOf c) ((s.l2Lines (dieOf c)).map fun l => if l.no = no then l.without bytes else l) }
  else s

/-- Bytes of a line stored at a core's CORE home: its portion, or on a core without one the line's slice (R120, R301). -/
def coreStore (s : State) (c slot no : Nat) (bytes : Table Byte) : State :=
  if waysOf s c = 0 then l2Merge (forget s c no false bytes) (dieOf c) no bytes else portionStore s c slot no bytes

/-- Bytes of a line written at the home of a scope (R125, R301). -/
def homeStore (s : State) (sc : Scope) (no : Nat) (bytes : Table Byte) : State :=
  let c := s.here
  match sc with
  | .core => coreStore s c (s.th.place % 16) no bytes
  | .party => l2Merge (forget s c no false bytes) (dieOf c) no bytes
  | .die => l2Merge (forget s c no false bytes) (dieOf c) no bytes
  | .pkg => homeWrite (forget s c no true bytes) no bytes
  | .sys => homeWrite (forget s c no true bytes) no bytes

/-- The bytes of located places at the home of a scope. -/
def readHome (s : State) (sc : Scope) (locs : List Loc) : List Byte :=
  locs.map fun l => match l with
    | .scratch k => cget s.scratch k
    | .mem pa => homeByte s sc pa
    | .dev _ => 0

/-- Every line of an access brought to the home of a scope. -/
def bringAll (s : State) (sc : Scope) (locs : List Loc) : State :=
  (linesOf locs).foldl (fun s no => bringHome s sc no (offsIn locs no)) s

/-- Bytes written at the home of a scope. -/
def writeHome (s : State) (sc : Scope) (locs : List Loc) (data : List Byte) : State :=
  (linesOf locs).foldl (fun s no => homeStore s sc no (bytesIn locs data no)) (storeScratch s locs data)

/-- Whether an access reads poison (R116). -/
def poisonAt (s : State) (locs : List Loc) : Bool :=
  locs.any fun l => match l with
    | .scratch k => scratchPoisoned s k
    | .mem pa => s.linePoisoned (pa / 64)
    | .dev _ => false

/-- Whether every byte lies in a scratchpad. -/
def allScratch (locs : List Loc) : Bool := locs.all fun l => match l with | .scratch _ => true | _ => false

/-- Whether an acquiring load is served by its core's own portion or pool (R115). -/
def coreServes (s : State) (sc : Scope) (locs : List Loc) : Bool :=
  let (pf, lf) := s.floors s.th
  sc == .core && (linesOf locs).all fun no => match nearLine s s.here pf lf no (offsIn locs no) with
    | .hit _ _ => true
    | .miss _ => false

/-- Whether a byte's home at a scope is another package's LLC bank, and can be reached (R120, R298, R301). -/
def peerHome (s : State) (sc : Scope) (l : Loc) : Bool :=
  match l with
  | .mem pa => (sc == .pkg || sc == .sys) && (peerOf pa).isSome && reachable s pa
  | _ => false

/-- A load whose bytes other packages hold waits for them (R301, R362). -/
def Load.away (s : State) (sc : Scope) (locs : List Loc) (ld : Load) : Load :=
  { ld with bytes := (locs.zip ld.bytes).map fun p => match p.1 with
      | .mem pa => if peerHome s sc p.1 then (pa, none) else p.2
      | _ => p.2 }

/-- The reads of an access that other packages answer (R362): one for each line. -/
def askAway (s : State) (sc : Scope) (locs : List Loc) : State :=
  let far := locs.filter (peerHome s sc)
  (linesOf far).foldl (fun s no =>
    let offs := offsIn far no
    peerSend s 4 (peerTag s.serial false) (no * 64 + offs.headD 0) offs.length []) s

/-- LDX.ACQ (R119): the value is read at the home of the scope, never from a cache below it (R299), and
the thread waits through the acquire. -/
def loadAcquire (r : Srcs) (d : RegCode) (sc : Scope) (n : Nat) (va : Word) (s : State) : Out :=
  match locate s .load va n with
  | .fault c a => trap c a (BitVec.ofNat 64 n) s
  | .walk ctx page => startWalk s ctx page
  | .ok locs s =>
    if anyDev locs then
      if s.th.devStore then stall .devStore s
      else if 8 ≤ s.th.slotsHeld then stall .slots s
      else issueLoad r s (deviceLoad s d true va locs) (.acqLoad s.serial sc)
    else
      let slot := !allScratch locs && !coreServes s sc locs
      if slot && decide (8 ≤ s.th.slotsHeld) then stall .slots s
      else
        let s := bringAll s sc locs
        let ld := readyLoad s d true va (readHome s sc locs) (poisonAt s locs) slot
        issueLoad r (askAway s sc locs) (ld.away s sc locs) (.acqLoad s.serial sc)

/-- Whether an address is host memory (R298). -/
def isHost (pa : Nat) : Bool := pa / 2 ^ 44 == 0xF0 || pa / 2 ^ 44 == 0xF1

/-- An atomic that travels to another package (R301, R362): its number in the order of R123's table, CAS after FADD32
with the expected value below the new one, and its operand. The bytes held here of that memory take the operation at once,
as they take stores (log 60). -/
def sendAtomic (s : State) (locs : List Loc) (n code arg : Nat) (new : Option Nat) : State :=
  (linesOf locs).foldl (fun s no =>
    let offs := offsIn locs no
    let s := peerSend s 7 (peerTag s.serial true) (no * 64 + offs.headD 0) (code * 16 + n) (leBytes (2 * n) arg)
    match new with
    | some v => let bytes := bytesIn locs (leBytes n v) no; memPut (forget s s.here no true bytes) no bytes
    | none => s) s

/-- An atomic (R123 to R125): alignment first, then the located bytes, the release, the read and write
at the home in one step, and the old value on its way back; one whose home is another package goes there and waits for
its answer (R301). The operation answers the new value, or none when nothing is written; code and arg name it on
Jenlink, and hostOk says whether PCI Express carries it (R125). -/
def atomic (r : Srcs) (d : RegCode) (sc : Scope) (ord : BitVec 2) (n : Nat) (sext hostOk : Bool)
    (va : Word) (s : State) (code arg : Nat) (op : Nat → Option Nat) : Out :=
  let wd : Word := BitVec.ofNat 64 n
  if va.toNat % n ≠ 0 then trap .misaligned va wd s
  else match locate s .store va n with
  | .fault c a => trap c a wd s
  | .walk ctx page => startWalk s ctx page
  | .ok locs s =>
    if anyDev locs || (!hostOk && locs.any fun l => match l with | .mem pa => isHost pa | _ => false) then
      trap .accessRights va wd s
    else if !allScratch locs && decide (8 ≤ s.th.slotsHeld) then stall .slots s
    else withReleaseIf (2 ≤ ord.toNat) sc s fun s =>
      let s := bringAll s sc locs
      let old := readHome s sc locs
      let poisoned := poisonAt s locs
      let far := !poisoned && locs.any (peerHome s sc)
      let s' := if poisoned then s
        else if far then sendAtomic s locs n code arg (op (leNat old))
        else match op (leNat old) with
          | some v => writeHome s sc locs (leBytes n v)
          | none => s
      let ld := readyLoad s d sext va old poisoned (!allScratch locs)
      issueLoad r s' (if far then ld.away s sc locs else ld) (if ord.toNat % 2 = 1 then .acqLoad s.serial sc else .none)

/-- An AMO: operand from the d field, address in a, and its number in the order of R123's table (R123). -/
def amo (i : Instr) (d a : RegCode) (hA : Bool) (sc : Scope) (ord : BitVec 2) (n : Nat)
    (sext hostOk : Bool) (s : State) (code : Nat) (op : Nat → Nat → Nat) : Out :=
  let r : Srcs := { a := some a, hA := hA, more := [d] }
  issue (encode i) {} r (.late [d]) s fun s =>
    let x := (s.th.value d).toNat % 2 ^ (8 * n)
    atomic r d sc ord n sext hostOk (s.th.readA a) s code x fun old => some (op old x % 2 ^ (8 * n))

/-- Bytes of the width bit of an AMO or CAS (R106). -/
def dblBytes (dbl : Bool) : Nat := if dbl then 8 else 4

/-- The smaller or larger by a signed reading of n bytes. -/
def pickSigned (n : Nat) (max : Bool) (a b : Nat) : Nat :=
  if decide (sint (8 * n) a ≤ sint (8 * n) b) != max then a else b

/-- Where the bytes of a bit field lie: the local window only (R121). -/
def locateBits : State → Access → List Word → Located
  | s, _, [] => .ok [] s
  | s, k, va :: vas =>
    if va.toNat / 2 ^ 55 ≠ 0 then .fault k.pageFault va
    else if !inWindow va.toNat then .fault .localRange va
    else match windowKey s va.toNat with
      | none => .fault .localRange va
      | some key =>
        match locateBits s k vas with
        | .ok ls s => .ok (.scratch key :: ls) s
        | r => r

/-- The first byte, first bit and byte span of a bit field (R121). -/
def bitField (a b : Word) (n : Nat) : Word × Nat × Nat :=
  (a + BitVec.ofNat 64 (b.toNat / 8), b.toNat % 8, (b.toNat % 8 + n + 7) / 8)

/-- LDBIT (R121). -/
def loadBits (i : Instr) (d a b : RegCode) (hA hB sext : Bool) (n : Nat) (s : State) : Out :=
  let r : Srcs := { a := some a, b := some b, hA := hA, hB := hB }
  issue (encode i) {} r (.late [d]) s fun s =>
    let (va, bit, span) := bitField (s.th.readA a) (s.th.readB b) n
    match locateBits s .load (byteAddrs va span) with
    | .fault c x => trap c x (BitVec.ofNat 64 span) s
    | .walk ctx page => startWalk s ctx page
    | .ok locs s =>
      let field := nbits (leNat (readHome s .core locs)) bit n
      let v : Word := if sext then wordOfInt (sint n field) else BitVec.ofNat 64 field
      issueLoad r s (readyLoad s d false va (wordBytes 8 v) (poisonAt s locs) false) .none

/-- The line a hint names, when it acts at all: an address that hits, not in the window, not in device
memory, readable in the mode (R127). -/
inductive Hint where
  | nop
  | at (pa : Nat) (s : State)
  | walk (ctx page : Nat)

/-- What a hint's address meets. -/
def hintAt (s : State) (va : Word) : Hint :=
  if inWindow va.toNat then .nop
  else match locateByte s .load va with
    | .ok [.mem pa] s => .at pa s
    | .walk ctx page => .walk ctx page
    | _ => .nop

/-- A fill of a line started for a core's portion, or for the L2 slice only (R127). -/
def startPref (s : State) (c pa : Nat) (portion : Bool) : State :=
  let no := pa / 64
  let d := dieOf c
  let l2 := (findLine (s.l2Lines d) no 0).getD { no := no }
  let full := covers (bytesOf l2.bytes) (List.range 64)
  if portion && waysOf s c != 0 then
    if 4 ≤ (s.core c).prefs.length then s
    else
      let got := full && s.l2Open d no
      let s := s.setCore c { s.core c with prefs := (s.core c).prefs ++ [(no, got)] }
      if got then s else l2Wait s d no (.pref c)
  else if full && s.l2Open d no then s
  else l2Wait s d no .none

/-- CLWB or CLINV of one line at the home of its scope (R127): write-back, then, for CLINV, every copy
between the core and that home goes: in its portion, in the pool it looks up, whose dirty bytes go home with the
others (R292), and beyond L2 in its slice. -/
def lineHint (s : State) (c pa : Nat) (inval : Bool) (sc : Scope) : State :=
  let no := pa / 64
  if !inval || sc = .core then releaseLines s c sc (· == no)
  else
    let s := releaseLines (dropPooled s c no) c sc (· == no)
    let s := s.setPortion c (dropLine (s.portionOf c) no c)
    match sc with
    | .pkg => { s with l2 := tput s.l2 (dieOf c) (dropLine (s.l2Lines (dieOf c)) no 0) }
    | .sys => { s with l2 := tput s.l2 (dieOf c) (dropLine (s.l2Lines (dieOf c)) no 0) }
    | _ => s

/-- A hint instruction: it never waits and never traps on its address (R127). -/
def hint (i : Instr) (a : RegCode) (off : BitVec 8) (s : State) (who : Nat → Bool → WalkFor)
    (act : State → Nat → State) : Out :=
  let r : Srcs := { a := some a }
  issue (encode i) {} r .none s fun s =>
    let va := eaLine (s.th.readA a) off
    match hintAt s va with
    | .nop => retire r s id
    | .at pa s => retire r (act s pa) id
    | .walk ctx page =>
      retire r (walkRequest s (dieOf s.here) ctx page (who va.toNat s.th.stat.mode)) id

/-- LD: R118. -/
def execLd (d a : RegCode) (size : BitVec 2) (uns : Bool) (off : BitVec 11) (s : State) : Out :=
  issue (encode (.ld d a size uns off)) {} { a := some a } (.late [d]) s fun s =>
    load { a := some a } d (!uns) (sizeOf2 size) (eaOffset (s.th.readA a) off size) s

/-- ST: R118; the data comes from the d field. -/
def execSt (d a : RegCode) (size : BitVec 2) (off : BitVec 11) (s : State) : Out :=
  issue (encode (.st d a size off)) {} { a := some a, more := [d] } .none s fun s =>
    store { a := some a, more := [d] } (eaOffset (s.th.readA a) off size)
      (wordBytes (sizeOf2 size) (s.th.value d)) s

/-- LDX: R119. -/
def execLdx (d a b : RegCode) (hA hB : Bool) (size : BitVec 2) (uns : Bool) (s : State) : Out :=
  issue (encode (.ldx d a b hA hB size uns)) {} { a := some a, b := some b, hA, hB } (.late [d]) s fun s =>
    load { a := some a, b := some b, hA, hB } d (!uns) (sizeOf2 size)
      (eaIndex (s.th.readA a) (s.th.readB b) (sizeOf2 size)) s

/-- STX: R119. -/
def execStx (d a b : RegCode) (hA hB : Bool) (size : BitVec 2) (s : State) : Out :=
  issue (encode (.stx d a b hA hB size)) {} { a := some a, b := some b, hA, hB, more := [d] } .none s fun s =>
    store { a := some a, b := some b, hA, hB, more := [d] }
      (eaIndex (s.th.readA a) (s.th.readB b) (sizeOf2 size)) (wordBytes (sizeOf2 size) (s.th.value d)) s

/-- LDX.ACQ: R119. -/
def execLdxAcq (d a b : RegCode) (hA hB dbl : Bool) (sc : Scope) (s : State) : Out :=
  issue (encode (.ldxAcq d a b hA hB dbl sc)) {} { a := some a, b := some b, hA, hB } (.late [d]) s fun s =>
    loadAcquire { a := some a, b := some b, hA, hB } d sc (dblBytes dbl)
      (eaIndex (s.th.readA a) (s.th.readB b) (dblBytes dbl)) s

/-- STX.REL: R119; causes of the store are judged before the release, and again once it is done. -/
def execStxRel (d a b : RegCode) (hA hB dbl : Bool) (sc : Scope) (s : State) : Out :=
  let r : Srcs := { a := some a, b := some b, hA, hB, more := [d] }
  issue (encode (.stxRel d a b hA hB dbl sc)) {} r .none s fun s =>
    let va := eaIndex (s.th.readA a) (s.th.readB b) (dblBytes dbl)
    let n := dblBytes dbl
    match locate s .store va n with
    | .fault c x => trap c x (BitVec.ofNat 64 n) s
    | .walk ctx page => startWalk s ctx page
    | .ok locs s =>
      withRelease sc s fun s => storeAt r locs (wordBytes n (s.th.value d)) s (writeThrough sc)

/-- LDBIT, zero-extended: R121. -/
def execLdbitU (d a b : RegCode) (hA hB : Bool) (n : BitVec 4) (s : State) : Out :=
  loadBits (.ldbitU d a b hA hB n) d a b hA hB false (n.toNat + 1) s

/-- LDBIT, sign-extended: R121. -/
def execLdbitS (d a b : RegCode) (hA hB : Bool) (n : BitVec 4) (s : State) : Out :=
  loadBits (.ldbitS d a b hA hB n) d a b hA hB true (n.toNat + 1) s

/-- STBIT: R121, R122. -/
def execStbit (d a b : RegCode) (hA hB : Bool) (n : BitVec 4) (s : State) : Out :=
  let r : Srcs := { a := some a, b := some b, hA, hB, more := [d] }
  issue (encode (.stbit d a b hA hB n)) {} r .none s fun s =>
    let n := n.toNat + 1
    let (va, bit, span) := bitField (s.th.readA a) (s.th.readB b) n
    match locateBits s .store (byteAddrs va span) with
    | .fault c x => trap c x (BitVec.ofNat 64 span) s
    | .walk ctx page => startWalk s ctx page
    | .ok locs s =>
      let old := leNat (readHome s .core locs)
      let new := old - nbits old bit n * 2 ^ bit + (s.th.value d).toNat % 2 ^ n * 2 ^ bit
      retire r (storeScratch s locs (leBytes span new)) id

/-- AMO_ADD: R123. -/
def execAmoAdd (d a : RegCode) (sc : Scope) (ord : BitVec 2) (dbl hA : Bool) (s : State) : Out :=
  amo (.amoAdd d a sc ord dbl hA) d a hA sc ord (dblBytes dbl) true true s 0 (fun old x => old + x)

/-- AMO_AND: R123. -/
def execAmoAnd (d a : RegCode) (sc : Scope) (ord : BitVec 2) (dbl hA : Bool) (s : State) : Out :=
  amo (.amoAnd d a sc ord dbl hA) d a hA sc ord (dblBytes dbl) true false s 1 (fun old x => old &&& x)

/-- AMO_OR: R123. -/
def execAmoOr (d a : RegCode) (sc : Scope) (ord : BitVec 2) (dbl hA : Bool) (s : State) : Out :=
  amo (.amoOr d a sc ord dbl hA) d a hA sc ord (dblBytes dbl) true false s 2 (fun old x => old ||| x)

/-- AMO_XOR: R123. -/
def execAmoXor (d a : RegCode) (sc : Scope) (ord : BitVec 2) (dbl hA : Bool) (s : State) : Out :=
  amo (.amoXor d a sc ord dbl hA) d a hA sc ord (dblBytes dbl) true false s 3 (fun old x => old ^^^ x)

/-- AMO_MIN: R123. -/
def execAmoMin (d a : RegCode) (sc : Scope) (ord : BitVec 2) (dbl hA : Bool) (s : State) : Out :=
  amo (.amoMin d a sc ord dbl hA) d a hA sc ord (dblBytes dbl) true false s 4 (pickSigned (dblBytes dbl) false)

/-- AMO_MAX: R123. -/
def execAmoMax (d a : RegCode) (sc : Scope) (ord : BitVec 2) (dbl hA : Bool) (s : State) : Out :=
  amo (.amoMax d a sc ord dbl hA) d a hA sc ord (dblBytes dbl) true false s 5 (pickSigned (dblBytes dbl) true)

/-- AMO_MINU: R123. -/
def execAmoMinu (d a : RegCode) (sc : Scope) (ord : BitVec 2) (dbl hA : Bool) (s : State) : Out :=
  amo (.amoMinu d a sc ord dbl hA) d a hA sc ord (dblBytes dbl) true false s 6 (fun old x => min old x)

/-- AMO_MAXU: R123. -/
def execAmoMaxu (d a : RegCode) (sc : Scope) (ord : BitVec 2) (dbl hA : Bool) (s : State) : Out :=
  amo (.amoMaxu d a sc ord dbl hA) d a hA sc ord (dblBytes dbl) true false s 7 (fun old x => max old x)

/-- AMO_XCHG: R123. -/
def execAmoXchg (d a : RegCode) (sc : Scope) (ord : BitVec 2) (dbl hA : Bool) (s : State) : Out :=
  amo (.amoXchg d a sc ord dbl hA) d a hA sc ord (dblBytes dbl) true true s 8 (fun _ x => x)

/-- AMO.FADD32: R123, RNE with R55, no flag in STAT; the old value zero-extended. -/
def execAmoFadd32 (d a : RegCode) (sc : Scope) (ord : BitVec 2) (hA : Bool) (s : State) : Out :=
  amo (.amoFadd32 d a sc ord hA) d a hA sc ord 4 false false s 9 (fun old x => (fp32add old x).1)

/-- CAS: R124. -/
def execCas (d a b : RegCode) (hA hB : Bool) (sc : Scope) (ord : BitVec 2) (dbl : Bool) (s : State) : Out :=
  let r : Srcs := { a := some a, b := some b, hA, hB, more := [d] }
  let n := dblBytes dbl
  issue (encode (.cas d a b hA hB sc ord dbl)) {} r (.late [d]) s fun s =>
    let exp := (s.th.value d).toNat % 2 ^ (8 * n)
    let new := (s.th.readB b).toNat % 2 ^ (8 * n)
    atomic r d sc ord n true true (s.th.readA a) s 10 (exp + new * 2 ^ (8 * n)) fun old =>
      if old = exp then some new else none

/-- FENCE.ACQ: R126, R179. -/
def execFenceAcq (sc : Scope) (s : State) : Out :=
  issue (encode (.fenceAcq sc)) {} {} .none s fun s =>
    withSync s fun s =>
      if s.th.loads ≠ [] then stall .loads s
      else withAcquire sc s fun s => retire {} s id

/-- FENCE.REL: R126, R179. -/
def execFenceRel (sc : Scope) (s : State) : Out :=
  issue (encode (.fenceRel sc)) {} {} .none s fun s =>
    withSync s fun s => withRelease sc s fun s => retire {} s id

/-- FENCE.FULL: R126, R179; at SYS scope device accesses are ordered too (R128). -/
def execFenceFull (sc : Scope) (s : State) : Out :=
  issue (encode (.fenceFull sc)) {} {} .none s fun s =>
    withSync s fun s =>
      if sc = .sys && s.th.devStore then stall .devStore s
      else withRelease sc s fun s => withAcquire sc s fun s => retire {} s id

/-- PREF: R127. -/
def execPref (a : RegCode) (off : BitVec 8) (s : State) : Out :=
  hint (.pref a off) a off s (fun va m => .pref s.here va true m) fun s pa => startPref s s.here pa true

/-- PREF.L2: R127. -/
def execPrefL2 (a : RegCode) (off : BitVec 8) (s : State) : Out :=
  hint (.prefL2 a off) a off s (fun va m => .pref s.here va false m) fun s pa => startPref s s.here pa false

/-- CLWB: R127. -/
def execClwb (a : RegCode) (sc : Scope) (off : BitVec 8) (s : State) : Out :=
  hint (.clwb a sc off) a off s (fun va m => .hint s.here va false sc m) fun s pa => lineHint s s.here pa false sc

/-- CLINV: R127. -/
def execClinv (a : RegCode) (sc : Scope) (off : BitVec 8) (s : State) : Out :=
  hint (.clinv a sc off) a off s (fun va m => .hint s.here va true sc m) fun s pa => lineHint s s.here pa true sc

end Sys2Proof.Machine
end

