-- ==== Sys2Proof/Machine/Fabric.lean ====
section
/-!
DEFINITION. Fabric elements (R225 to R243): what one element does with its operands, and how elements
joined by links without slots fire together.
-/

namespace Sys2Proof.Machine

/-- Word n of an element record. -/
def Elem.word (e : Elem) (n : Nat) : Nat := (e.conf.getD n 0).toNat

/-- Fields of word 0 (R232). -/
def Elem.op (e : Elem) : Nat := nbits (e.word 0) 58 6
def Elem.ftrap (e : Elem) : Bool := nbit (e.word 0) 57
def Elem.fxt (e : Elem) : Bool := nbit (e.word 0) 56
def Elem.rm (e : Elem) : Rnd := rndOfCode (nbits (e.word 0) 54 2)
def Elem.satBit (e : Elem) : Bool := nbit (e.word 0) 53
def Elem.fmtA (e : Elem) : Fmt := fmtOr .fp32 (nbits (e.word 0) 49 4)
def Elem.fmtD (e : Elem) : Fmt := fmtOr .fp32 (nbits (e.word 0) 45 4)
def Elem.sa (e : Elem) : Nat := nbits (e.word 0) 42 3
def Elem.sb (e : Elem) : Nat := nbits (e.word 0) 39 3
def Elem.sc (e : Elem) : Nat := nbits (e.word 0) 36 3
def Elem.qdepth (e : Elem) (q : Nat) : Nat := nbits (e.word 0) (24 + 3 * q) 3
def Elem.sub (e : Elem) : Nat := nbits (e.word 0) 20 4
def Elem.pos (e : Elem) : Nat := nbits (e.word 0) 6 6 * 64 + nbits (e.word 0) 0 6
def Elem.c0 (e : Elem) : W32 := BitVec.ofNat 32 (e.word 1)
def Elem.c1 (e : Elem) : W32 := BitVec.ofNat 32 (e.word 1 / 2 ^ 32)

/-- Destination n: its element's position and its queue, none when it is not valid (R232). -/
def Elem.dest (e : Elem) (n : Nat) : Option (Nat × Nat) :=
  let d := nbits (e.word 3) (16 * n) 16
  if nbit d 15 then some (nbits d 7 6 * 64 + nbits d 1 6, nbits d 13 2) else none

/-- The valid destinations, with their numbers. -/
def Elem.dests (e : Elem) : List (Nat × Nat × Nat) :=
  (List.range 4).filterMap fun n => (e.dest n).map fun d => (n, d.1, d.2)

/-- The queue an operand source names. -/
def queueOf (src : Nat) : Option Nat := if 1 ≤ src && src ≤ 4 then some (src - 1) else none

/-- The queues of an EXT with their result halves (R240). -/
def Elem.extQueues (e : Elem) : List (Nat × Nat) :=
  (List.range 4).filterMap fun n => if nbit (e.word 4) (8 * n + 7) then some (n, nbits (e.word 4) (8 * n) 3) else none

/-- The queues an element reads, each once (R232). -/
def Elem.reads (e : Elem) : List Nat :=
  if e.op = 0x2D then e.extQueues.map (·.1)
  else ([queueOf e.sa, queueOf e.sb, queueOf e.sc].filterMap id).eraseDups

/-- The element at a position of a region. -/
def Region.elem (r : Region) (p : Nat) : Option Elem := tfind r.elems p

/-- Whether a link enters a queue. -/
def Region.linked (r : Region) (p q : Nat) : Bool :=
  r.elems.any fun x => x.2.dests.any fun d => d.2.1 == p && d.2.2 == q

/-- Whether a position is a node of some band of the region (R240). -/
def Region.bandNode (r : Region) (p : Nat) : Bool :=
  r.elems.any fun x => x.2.op == 0x2E &&
    (let w := x.2.word 4
     let bw := (nbits w 18 4 + 1) * 8
     decide (nbits w 6 6 ≤ p / 64) && decide (p / 64 < nbits w 6 6 + nbits w 22 6) &&
     decide (nbits w 12 6 ≤ p % 64) && decide (p % 64 < nbits w 12 6 + bw))

/-- The slots of a queue: those of its link, or 2 for the Q0 of a band's node, and for a Q0 without a link that an edge
port fills (R226, R382, R387). -/
def Region.depth (r : Region) (p q : Nat) : Nat :=
  match r.elem p with
  | none => 0
  | some e => if q = 0 && (r.bandNode p || !r.linked p 0 && e.reads.contains 0) then 2 else e.qdepth q

/-- Whether a queue is a wire: a link without slots enters it (R226). -/
def Region.wired (r : Region) (p q : Nat) : Bool := r.linked p q && r.depth p q == 0

/-- MODE of a region (R244). -/
def Region.server (r : Region) : Bool := !recGraph r.words

/-- The key of a region of an image for metering (R323), and of a region of a survey for its log (R274). -/
def meterKey (img ridx : Nat) : Nat := img * 16 + ridx
def logKey (img ridx surv : Nat) : Nat := (img * 16 + ridx) * 4096 + surv

/-- The port that binds a position, if any. -/
def Region.portOf (r : Region) (pos : Nat) : Option Nat :=
  (List.range 64).find? fun p => let w := recPort r.words p; nbit w 15 && nbits w 6 6 * 64 + nbits w 0 6 == pos

/-- Metering of a group of a region: EN, DEPTH, REFILL (R323). -/
def groupOfMeter (m : Meter) (g : Nat) : Bool × Nat × Nat := m.groups.getD g (false, 0, 0)

/-- The settings that apply to a region. -/
def Cluster.meter (c : Cluster) (r : Region) : Meter := tget {} c.meters (meterKey r.img r.ridx)

/-- The metering group of a port (R244). -/
def recGroup (words : List Word) (p : Nat) : Nat := nbits (recWord words (2 + p / 32)) (2 * (p % 32)) 2

/-- What an element is asked to do: fire on its operands, take a packet (ENT), or emit what an access in
flight has answered (LDP, STP). -/
inductive Act where
  | fire
  | packet (p : EdgePacket)
  | emit
  deriving DecidableEq, Repr

/-- What a firing does: queues consumed, tokens for destinations by number, destinations that must have room for a
result that is held (R227, R230), the element after it, fault tokens, a result for a caller, the packet an ENT took,
bytes to store with the scope, the bytes of a port's access (agent, address, number), the RUN whose contribution made an
accumulator clamp (0 none), and whether the region's LENGTH flag is set. -/
structure Plan where
  cons : List Nat := []
  emits : List (Nat × Token) := []
  room : List Nat := []
  elem : Elem
  faults : List Token := []
  back : Option Back := none
  packet : Option EdgePacket := none
  store : Option (Agent × Nat × List (UnitLoc × Option Byte)) := none
  visits : List (Agent × Nat × Nat) := []
  clamp : Nat := 0
  length : Bool := false
  read : Bool := false
  deriving DecidableEq, Repr

/-- A token of an operand that is a constant or state (R227). -/
def constTok (v : W32) : Token := { data := v }

/-- The token of an operand source, none when its queue is empty or it names nothing. -/
def operand (e : Elem) (head : Nat → Option Token) (src : Nat) : Option Token :=
  match src with
  | 0 => none
  | 5 => some (constTok e.c0)
  | 6 => some (constTok e.c1)
  | 7 => some (constTok e.s0)
  | n => head (n - 1)

/-- What pairing queue tokens gives (R229 to R231): the highest marker, the tag, whether tags differ, and
the queues that lack a marker another has. -/
structure Meet where
  mark : Nat
  tag : BitVec 16
  tagBad : Bool
  lacking : List Nat
  deriving DecidableEq, Repr

/-- The pairing of the tokens consumed from queues in one firing. -/
def meet (server : Bool) (qt : List (Nat × Token)) : Meet :=
  let marks := qt.map (·.2.mark)
  let high := marks.foldl max 0
  let tags := qt.map (·.2.tag)
  let first := tags.headD 0
  let differ := server && tags.any (· != first)
  { mark := high
    tag := if differ then tags.foldl (fun a b => if b.toNat < a.toNat then b else a) first else first
    tagBad := differ
    lacking := if high = 0 then [] else (qt.filter fun p => p.2.mark == 0).map (·.1) }

/-- A token that an element poisons (R225): its DATA holds cause, row and column. -/
def newPoison (e : Elem) (cause mark : Nat) (tag : BitVec 16) : Token :=
  { data := BitVec.ofNat 32 (cause * 65536 + e.pos / 64 * 256 + e.pos % 64), mark := mark, psn := true, tag := tag }

/-- The fault token of poison an element creates, when FTRAP asks for one (R242). -/
def faultOf (e : Elem) (t : Token) : List Token := if e.ftrap then [{ data := t.data, tag := t.tag }] else []

/-- A result put to every valid destination (R228). -/
def toAll (e : Elem) (t : Token) : List (Nat × Token) := e.dests.map fun d => (d.1, t)

/-- The plan, held back while some operand still lacks a marker (R230). -/
def settlePairing (m : Meet) (push : Option Token) (p : Plan) : Plan :=
  if m.lacking = [] then
    match push with
    | some t => { p with elem := { p.elem with flight := p.elem.flight ++ [t] } }
    | none => p
  else
    { p with
      emits := [], back := none, room := p.emits.map (·.1)
      elem := { p.elem with resync := some ⟨p.emits, push, p.back, m.tag, m.mark, m.lacking⟩ } }

/-- Two's-complement clamp to 32 bits (R234, R63). -/
def clamp32 (v : Int) : W32 := BitVec.ofInt 32 (max (-2147483648) (min 2147483647 v))

/-- A comparison of CMP (R234). -/
def fabricCmp (sub : Nat) (a b : W32) : Bool :=
  match sub with
  | 0 => a == b
  | 1 => a != b
  | 2 => a.slt b
  | 3 => !a.slt b
  | 4 => a.ult b
  | _ => !a.ult b

/-- A float operation of an element (R234): FP32, rounded once. -/
def fabricFloat (e : Elem) (v : FVal × Flags) : W32 × Flags :=
  let (b, f) := fdeliver .fp32 e.rm e.satBit v.1
  (BitVec.ofNat 32 b, v.2 ||| f)

/-- The integer and float operations of R234. -/
def fabricCalc (e : Elem) (a b c : W32) : W32 × Flags :=
  let fv := fun (x : W32) => fdecode .fp32 x.toNat
  match e.op with
  | 0x01 => (if e.satBit then clamp32 (a.toInt + b.toInt) else a + b, 0)
  | 0x02 => (if e.satBit then clamp32 (a.toInt - b.toInt) else a - b, 0)
  | 0x03 => (a * b, 0)
  | 0x04 => (BitVec.ofInt 32 (a.toInt * b.toInt / 2 ^ 32), 0)
  | 0x05 => (a &&& b, 0)
  | 0x06 => (a ||| b, 0)
  | 0x07 => (a ^^^ b, 0)
  | 0x08 => (~~~a, 0)
  | 0x09 => (a <<< (b.toNat % 32), 0)
  | 0x0A => (a >>> (b.toNat % 32), 0)
  | 0x0B => (a.sshiftRight (b.toNat % 32), 0)
  | 0x0C => (a.rotateLeft (b.toNat % 32), 0)
  | 0x0D => (if b.slt a then b else a, 0)
  | 0x0E => (if a.slt b then b else a, 0)
  | 0x0F => (if b.ult a then b else a, 0)
  | 0x10 => (if a.ult b then b else a, 0)
  | 0x11 => (if fabricCmp e.sub a b then 1 else 0, 0)
  | 0x12 => (if c = 0 then b else a, 0)
  | 0x18 => fabricFloat e (fadd e.rm (fv a) (fv b))
  | 0x19 => fabricFloat e (fadd e.rm (fv a) (fv b).neg)
  | 0x1A => fabricFloat e (fmul (fv a) (fv b))
  | 0x1B => fabricFloat e (ffma e.rm (fv c) (fv a) (fv b))
  | 0x1C => let (v, f) := fminmax false .fp32 .fp32 .fp32 e.rm e.satBit a.toNat b.toNat; (BitVec.ofNat 32 v, f)
  | 0x1D => let (v, f) := fminmax true .fp32 .fp32 .fp32 e.rm e.satBit a.toNat b.toNat; (BitVec.ofNat 32 v, f)
  | _ =>
    let (v, f) := fconvert e.fmtA e.fmtD e.rm e.satBit (a.toNat % 2 ^ e.fmtA.width)
    ((fextend e.fmtD v).setWidth 32, f)

/-- The operands an arithmetic operation names, in the order A, B, C, none when one is missing. -/
def operands (e : Elem) (head : Nat → Option Token) : List Nat → Option (List (Nat × Token))
  | [] => some []
  | src :: rest =>
    if src = 0 then operands e head rest
    else match operand e head src, operands e head rest with
      | some t, some ts => some ((src, t) :: ts)
      | _, _ => none

/-- The queue tokens among operands, each queue once. -/
def queueToks (ts : List (Nat × Token)) : List (Nat × Token) :=
  (ts.filterMap fun p => (queueOf p.1).map fun q => (q, p.2)).foldl
    (fun l p => if l.any (·.1 == p.1) then l else l ++ [p]) []

/-- An arithmetic firing (R229 to R231, R234). -/
def planCalc (server : Bool) (e : Elem) (head : Nat → Option Token) : Option Plan :=
  match operands e head [e.sa, e.sb, e.sc] with
  | none => none
  | some ts =>
    let qt := queueToks ts
    let m := meet server qt
    let get := fun (src : Nat) => ((operand e head src).map (·.data)).getD 0
    let cons := qt.map (·.1)
    match ts.find? (·.2.psn) with
    | some bad =>
      let out : Token := { data := bad.2.data, mark := m.mark, psn := true, tag := m.tag }
      some (settlePairing m none { cons := cons, emits := toAll e out, elem := e })
    | none =>
      if m.tagBad then
        let out := newPoison e 0x07 m.mark m.tag
        some (settlePairing m none { cons := cons, emits := toAll e out, elem := e, faults := faultOf e out })
      else
        let (v, f) := fabricCalc e (get e.sa) (get e.sb) (get e.sc)
        let e := { e with flags := e.flags ||| f }
        if e.fxt && f &&& fNV ≠ 0 then
          let out := newPoison e 0x09 m.mark m.tag
          some (settlePairing m none { cons := cons, emits := toAll e out, elem := e, faults := faultOf e out })
        else
          let out : Token := { data := v, mark := m.mark, tag := m.tag }
          some (settlePairing m none { cons := cons, emits := toAll e out, elem := e })

/-- PASS, FORK, CONST, QOCC and TIME (R235, R243). A poisoned token goes on as it is. -/
def planOne (clock : Nat) (e : Elem) (head : Nat → Option Token) : Option Plan :=
  match operand e head e.sa with
  | none => none
  | some a =>
    let v : W32 :=
      if e.op = 0x26 then e.c0
      else if e.op = 0x39 then BitVec.ofNat 32 (e.queues.getD (e.sub % 4) []).length
      else BitVec.ofNat 32 (Config.cycleOf clock)
    let out := if a.psn || e.op = 0x20 || e.op = 0x21 then a else { a with data := v }
    some { cons := (queueOf e.sa).toList, emits := toAll e out, elem := e }

/-- CNT and ENDM (R235). A CNT counts a poisoned token like any other, and one whose marker makes it emit goes out in
place of the count (DESIGN CHOICE, log 93: the spec gives DATA := S0 + 1 and does not say what becomes of PSN). -/
def planCount (e : Elem) (head : Nat → Option Token) : Option Plan :=
  match operand e head e.sa with
  | none => none
  | some a =>
    let v := e.s0 + 1
    let cons := (queueOf e.sa).toList
    if e.op = 0x25 then
      if e.sub ≤ a.mark then
        let out := if a.psn then a else { a with data := v }
        some { cons := cons, emits := toAll e out, elem := { e with s0 := 0 } }
      else some { cons := cons, elem := { e with s0 := v } }
    else
      let hit := v == e.c0
      let out := if hit then { a with mark := max a.mark e.sub } else a
      some { cons := cons, emits := toAll e out, elem := { e with s0 := if hit then 0 else v } }

/-- GATE and STEER (R235): the emitted token carries the highest marker (R229) and the pair's tag (R231). Poison of an
operand passes on before anything is judged (R225, log 45); a poisoned A that a GATE with b = 0 turns into its C0 is
dropped with its poison (DESIGN CHOICE, log 93: the spec gives DATA := C0 and does not say what becomes of PSN). -/
def planGate (server : Bool) (e : Elem) (head : Nat → Option Token) : Option Plan :=
  match operand e head e.sa, operand e head e.sb with
  | some a, some b =>
    let qt := queueToks [(e.sa, a), (e.sb, b)]
    let m := meet server qt
    let base : Plan := { cons := qt.map (·.1), elem := e }
    let steer := e.op == 0x22
    let n := b.data.toNat % 4
    let put := fun (n : Nat) (t : Token) =>
      if steer then (if (e.dest n).isSome then [(n, t)] else []) else toAll e t
    let out : Token := { a with mark := m.mark, tag := m.tag }
    if b.psn || a.psn && (m.tagBad || steer && (e.dest n).isNone) then
      some (settlePairing m none { base with emits := put 0 { out with data := if a.psn then a.data else b.data, psn := true } })
    else if m.tagBad then
      let bad := newPoison e 0x07 m.mark m.tag
      some (settlePairing m none { base with emits := put 0 bad, faults := faultOf e bad })
    else if steer then
      if (e.dest n).isSome then some (settlePairing m none { base with emits := put n out })
      else
        let bad := newPoison e 0x08 m.mark m.tag
        some (settlePairing m none { base with emits := put 0 bad, faults := faultOf e bad })
    else if b.data ≠ 0 then some (settlePairing m none { base with emits := put 0 out })
    else if a.mark ≠ 0 then some (settlePairing m none { base with emits := put 0 { data := e.c0, mark := m.mark, tag := m.tag } })
    else some (settlePairing m none base)
  | _, _ => none

/-- MERGE (R235): the marker is the selected token's, and the tag the pair's (R231). -/
def planMerge (server : Bool) (e : Elem) (head : Nat → Option Token) : Option Plan :=
  match operand e head e.sc with
  | none => none
  | some c =>
    let q := c.data.toNat % 4
    let cq := (queueOf e.sc).toList
    if !e.reads.contains q then
      let out := if c.psn then c else newPoison e 0x08 c.mark c.tag
      some { cons := cq, emits := toAll e out, elem := e, faults := if c.psn then [] else faultOf e out }
    else match head q with
      | none => none
      | some t =>
        let m := meet server (queueToks [(e.sc, c), (q + 1, t)])
        let cons := (cq ++ [q]).eraseDups
        if t.psn || c.psn then
          let out := { t with data := if t.psn then t.data else c.data, psn := true, tag := m.tag }
          some { cons := cons, emits := toAll e out, elem := e }
        else if m.tagBad then
          let out := newPoison e 0x07 t.mark m.tag
          some { cons := cons, emits := toAll e out, elem := e, faults := faultOf e out }
        else some { cons := cons, emits := toAll e t, elem := e }

/-- MRGA (R243): the lowest queue that holds a token. -/
def planAny (e : Elem) (head : Nat → Option Token) : Option Plan :=
  match ([0, 1, 2, 3].filter e.reads.contains).find? fun q => (head q).isSome with
  | none => none
  | some q => (head q).map fun t => { cons := [q], emits := toAll e t, elem := e }

/-- ACC (R240, R222): one contribution added, and the sum emitted at its last end of reduction. -/
def planAcc (e : Elem) (head : Nat → Option Token) : Option Plan :=
  match operand e head e.sa with
  | none => none
  | some a =>
    let w := e.word 4
    let isEnd := decide (nbits w 16 2 ≤ a.mark)
    let last := isEnd && decide (nbits w 0 16 ≤ e.ends + 1)
    let exact := e.s0.toInt + a.data.toInt
    let sum : W32 × Flags :=
      if a.psn then (e.s0, 0)
      else if nbit w 18 then let (v, f) := fp32add e.s0.toNat a.data.toNat; (BitVec.ofNat 32 v, f)
      else (clamp32 exact, 0)
    let clamped := !a.psn && !nbit w 18 && (clamp32 exact).toInt != exact
    let clampedBy := if clamped then a.run else 0
    let psn := e.poisoned || a.psn
    let org := if e.poisoned then e.origin else a.data
    let cons := (queueOf e.sa).toList
    if last then
      let out : Token := { data := if psn then org else sum.1, mark := a.mark, psn := psn, tag := a.tag }
      some { cons := cons, emits := toAll e out, clamp := clampedBy
             elem := { e with s0 := 0, s1 := 0, sat := false, poisoned := false, origin := 0, ends := 0, flags := e.flags ||| sum.2 } }
    else
      some { cons := cons, clamp := clampedBy
             elem := { e with
               s0 := sum.1, s1 := if e.s1.toNat < 65535 then e.s1 + 1 else e.s1, sat := e.sat || clamped
               poisoned := psn, origin := if psn then org else 0, ends := e.ends + isEnd.toNat, flags := e.flags ||| sum.2 } }

/-- The used levels of an AG from level 0: stride, count and rank (R236). -/
def agLevels (e : Elem) : List (Int × Nat × Nat) :=
  ((List.range 4).map fun l => e.word (4 + l)).filterMap fun w =>
    if nbits w 32 16 = 0 then none else some (sint 32 w, nbits w 32 16, nbits w 48 2)

/-- The nest indexes after one more iteration, none when the nest is over. -/
def nestNext : List (Int × Nat × Nat) → List Nat → Option (List Nat)
  | [], _ => none
  | (_, cnt, _) :: ls, i :: is =>
    if i + 1 < cnt then some ((i + 1) :: is) else (nestNext ls is).map (0 :: ·)
  | _ :: _, [] => none

/-- The marker of an iteration: the highest rank of the levels that end with it (R236). -/
def nestMarkOf : List (Int × Nat × Nat) → List Nat → Nat
  | (_, cnt, rank) :: ls, i :: is => if i + 1 = cnt then max rank (nestMarkOf ls is) else 0
  | _, _ => 0

/-- One token of an AG's nest (R236). A nest that a poisoned token started emits poison (R225). -/
def agStep (e : Elem) (idx : List Nat) (a : Token) (cons : List Nat) : Plan :=
  let ls := agLevels e
  let start := a.data + e.c0
  let off : Int := (idx.zip ls).foldl (fun (x : Int) p => x + (p.1 : Int) * p.2.1) 0
  let next := nestNext ls idx
  let mark := max (nestMarkOf ls idx) (if next = none then a.mark else 0)
  let out : Token := { data := if a.psn then a.data else start + BitVec.ofInt 32 off, mark := mark, psn := a.psn, tag := a.tag }
  { cons := cons, emits := toAll e out, elem := { e with nest := next, nestTok := a, nestBegun := true, nestMark := mark } }

/-- AG (R236): the next token of its nest, or a new nest. An AG without operand begins its nest at the
configuration-complete wave. -/
def planAg (e : Elem) (head : Nat → Option Token) : Option Plan :=
  match e.nest with
  | some idx => some (agStep e idx e.nestTok [])
  | none =>
    if e.sa = 0 then none
    else (operand e head e.sa).map fun a => agStep e ((agLevels e).map fun _ => 0) a (queueOf e.sa).toList

/-- The caller of a tag in flight in a region (R165, R169): the oldest whose result has not gone out, else the oldest
(R167: accesses of a tag may still come after its result). -/
def tagCaller (c : Cluster) (r : Region) (tag : BitVec 16) : Caller :=
  (((r.tags.find? fun x => x.1 == tag && !c.backs.any (·.id == x.2.id)).or (r.tags.find? (·.1 == tag))).map (·.2)).getD {}

/-- The agent of a port's access (R237): the caller of a tag, or the owner of a graph region. A graph region that no party
owns, since a fault token made it resident (R242), names the cores of party 0 by its window indexes (DESIGN CHOICE, log
83: the spec gives none). -/
def portAgent (s : State) (cl : Nat) (r : Region) (tag : BitVec 16) : Agent :=
  if r.server then
    let k := tagCaller (s.cluster cl) r tag
    ⟨k.core, k.cores, k.ctx, k.sup⟩
  else ⟨coreOf r.place, (s.party (r.owner.getD 0)).cores, r.ctxid, false⟩

/-- A byte as a server reads it for its caller (R167): the caller's own dirty bytes come first, those of its portion
before those of its pool line. -/
def callerByte (s : State) (core : Nat) (l : UnitLoc) (b : Byte) : Byte :=
  match l with
  | .mem pa =>
    let own := (findLine (s.portionOf core) (pa / 64) core).bind fun x => tfind x.dirtyBytes (pa % 64)
    (own.or (tfind (poolDirty s (pa / 64) core) (pa % 64))).getD b
  | _ => b

/-- The element cause of a fault at a port (R237, R238, R241). -/
def portCause (store : Bool) : UnitLoc → Nat
  | .range => 0x0A
  | .rights => 0x03
  | _ => if store then 0x02 else 0x01

/-- The address of a port's access for an address token, and its width in bytes (R237, R238). -/
def portAddr (e : Elem) (a : Token) : Nat × Nat := (nbits (e.word 4) 0 55 + a.data.toNat, 2 ^ nbits (e.word 5) 0 2)

/-- The places of a port's access; one to a device that is not aligned to its width has no right to them (R128). -/
def Agent.portPlaces (g : Agent) (s : State) (k : Access) (va n : Nat) : List UnitLoc :=
  let ls := g.locateAll s k va n
  let dev := ls.any fun l => match l with
    | .dev _ => true
    | _ => false
  if dev && va % n ≠ 0 && !ls.any UnitLoc.bad then [.rights] else ls

/-- What an LDP emits for an address token (R237). -/
def ldpResult (s : State) (cl : Nat) (r : Region) (e : Elem) (a : Token) : Token × List Token :=
  if a.psn then (a, [])
  else
    let g := portAgent s cl r a.tag
    let (va, n) := portAddr e a
    let fail := fun (cause : Nat) => let t := newPoison e cause a.mark a.tag; (t, faultOf e t)
    let ls := g.portPlaces s .load va n
    match ls.find? UnitLoc.bad with
    | some l => fail (portCause false l)
    | none =>
      let bs := ls.map fun l => let b := g.byteAt s l; (if r.server then callerByte s g.core l b.1 else b.1, b.2)
      if bs.any (·.2) then fail 0x04
      else
        let v := leNat (bs.map (·.1))
        let d : W32 := if nbit (e.word 5) 2 then BitVec.ofInt 32 (sint (8 * n) v) else BitVec.ofNat 32 v
        ({ a with data := d }, [])

/-- LDP (R237): takes an address when a response slot is free (R315), or emits its oldest answer. -/
def planLdp (s : State) (cl : Nat) (r : Region) (e : Elem) (head : Nat → Option Token) (act : Act) : Option Plan :=
  match act with
  | .emit =>
    match e.flight with
    | [] => none
    | a :: rest =>
      let (t, fs) := ldpResult s cl r e a
      let visits := if a.psn then [] else [(portAgent s cl r a.tag, portAddr e a)]
      some { emits := toAll e t, faults := fs, elem := { e with flight := rest }, visits := visits, read := true }
  | _ =>
    if 16 ≤ e.flight.length then none
    else (operand e head e.sa).map fun a => { cons := (queueOf e.sa).toList, elem := { e with flight := e.flight ++ [a] } }

/-- What an STP stores, and its completion token with A's marker (R238); a constant A leaves the tag to B. -/
def stpEffect (s : State) (cl : Nat) (r : Region) (e : Elem) (a b : Token) (m : Meet) :
    Token × List Token × Option (Agent × Nat × List (UnitLoc × Option Byte)) :=
  let done : Token := { mark := a.mark, tag := m.tag }
  if a.psn then ({ done with data := a.data, psn := true }, [], none)
  else if m.tagBad then let t := newPoison e 0x07 a.mark m.tag; (t, faultOf e t, none)
  else
    let g := portAgent s cl r m.tag
    let (va, n) := portAddr e a
    let ls := g.portPlaces s .store va n
    match ls.find? UnitLoc.bad with
    | some l => let t := newPoison e (portCause true l) a.mark m.tag; (t, faultOf e t, none)
    | none =>
      let data : List (Option Byte) := if b.psn then List.replicate n none else (leBytes n b.data.toNat).map some
      (done, [], some (g, nbits (e.word 5) 3 3, ls.zip data))

/-- STP (R238): stores, and later emits its completion token when it has a destination. -/
def planStp (s : State) (cl : Nat) (r : Region) (e : Elem) (head : Nat → Option Token) (act : Act) : Option Plan :=
  match act with
  | .emit =>
    match e.flight with
    | [] => none
    | t :: rest => some { emits := toAll e t, elem := { e with flight := rest } }
  | _ =>
    match operand e head e.sa, operand e head e.sb with
    | some a, some b =>
      if 16 ≤ e.flight.length then none
      else
        let qt := queueToks [(e.sa, a), (e.sb, b)]
        let m := meet r.server qt
        let (t, fs, st) := stpEffect s cl r e a b m
        let push := if e.dests.isEmpty then none else some t
        let visits := if a.psn || m.tagBad then [] else [(portAgent s cl r m.tag, portAddr e a)]
        some (settlePairing m push { cons := qt.map (·.1), faults := fs, store := st, visits := visits, elem := e })
    | _, _ => none

/-- ENT (R240): the halves of a packet's argument words, or ARITY poison. -/
def planEnt (e : Elem) (act : Act) : Option Plan :=
  match act with
  | .packet p =>
    let w := e.word 4
    let tag := p.pkt.tag
    if p.pkt.args.length ≠ nbits w 0 2 + 1 || p.pkt.nr ≠ nbits w 2 2 + 1 then
      let out := newPoison e 0x06 0 tag
      some { emits := toAll e out, elem := e, faults := faultOf e out, packet := some p }
    else
      let half := fun (n : Nat) =>
        let h := nbits w (8 * n + 8) 3
        BitVec.ofNat 32 ((p.pkt.args.getD (h / 2) 0).toNat / 2 ^ (32 * (h % 2)))
      some { emits := e.dests.map fun d => (d.1, { data := half d.1, tag := tag }), elem := e, packet := some p }
  | _ => none

/-- The result words an EXT forms from its queues (R240). -/
def extWords (qs : List (Nat × Nat)) (head : Nat → Option Token) : List Word :=
  (List.range 4).map fun j =>
    let half := fun (h : Nat) => match qs.find? (·.2 == h) with
      | some q => ((head q.1).map (·.data.toNat)).getD 0
      | none => 0
    BitVec.ofNat 64 (half (2 * j) + half (2 * j + 1) * 2 ^ 32)

/-- EXT (R240): fires when every valid queue holds a token. -/
def planExt (server : Bool) (e : Elem) (head : Nat → Option Token) : Option Plan :=
  let qs := e.extQueues
  if qs.isEmpty || qs.any fun q => (head q.1).isNone then none
  else
    let qt := qs.map fun q => (q.1, (head q.1).getD {})
    let m := meet server qt
    let tagPoison := newPoison e 0x07 0 m.tag
    let bad : Option W32 := match qt.find? (·.2.psn) with
      | some p => some p.2.data
      | none => if m.tagBad then some tagPoison.data else none
    let faults := if (qt.find? (·.2.psn)).isNone && m.tagBad then faultOf e tagPoison else []
    some (settlePairing m none
      { cons := qs.map (·.1), elem := e, faults := faults, back := some { tag := m.tag, words := extWords qs head, poison := bad } })

/-- A step of the discarding that R230 asks for: one token from each queue that still lacks a marker; once
all have met one, what was held goes out with the highest marker, poisoned in server mode unless it is poison already
(R225). -/
def planResync (server : Bool) (e : Elem) (h : Resync) (head : Nat → Option Token) : Option Plan :=
  let have_ := h.queues.filter fun q => (head q).isSome
  if have_.isEmpty then none
  else
    let mark := have_.foldl (fun m q => max m ((head q).map (·.mark) |>.getD 0)) h.mark
    let left := h.queues.filter fun q => match head q with
      | some t => t.mark == 0
      | none => true
    let e1 := { e with mismatch := min 65535 (e.mismatch + have_.length) }
    if left ≠ [] then some { cons := have_, elem := { e1 with resync := some { h with mark := mark, queues := left } } }
    else
      let bad := newPoison e 0x05 mark h.tag
      let fix := fun (t : Token) => if server && !t.psn then { bad with tag := t.tag } else { t with mark := mark }
      let e2 := { e1 with resync := none, flight := e1.flight ++ (h.push.map fix).toList }
      some { cons := have_, emits := h.emits.map fun p => (p.1, fix p.2), elem := e2, faults := faultOf e bad
             back := h.back.map fun b => if server then { b with poison := b.poison.or (some bad.data) } else b, length := true }

/-- TASKRANK of a region (R244). -/
def recTaskrank (words : List Word) : Nat := nbits (recWord words 0) 4 2

/-- Whether a region is at a tile-task boundary (R327). -/
def Region.atBoundary (r : Region) : Bool :=
  r.lastMark.all (fun x => decide (recTaskrank r.words ≤ x.2)) &&
  r.elems.all fun x => !(x.2.op == 0x29 && x.2.sa == 0) || !x.2.nestBegun || x.2.nest.isNone ||
    decide (recTaskrank r.words ≤ x.2.nestMark)

/-- Whether injection at a region's entry ports is frozen: from the first boundary after a stop is asked for (R327). -/
def Region.shut (r : Region) : Bool := r.frozen || r.asked && r.atBoundary

/-- What an element does next, none when it cannot. An AG without operand is an entry port, which a stop
freezes (R327). -/
def planElem (s : State) (cl : Nat) (r : Region) (e : Elem) (head : Nat → Option Token) (act : Act) : Option Plan :=
  match if act = .fire then e.resync else none with
  | some h => planResync r.server e h head
  | none =>
    let op := e.op
    if op = 0x20 || op = 0x21 || op = 0x26 || op = 0x39 || op = 0x3A then planOne s.clock e head
    else if op = 0x22 || op = 0x24 then planGate r.server e head
    else if op = 0x23 then planMerge r.server e head
    else if op = 0x25 || op = 0x27 then planCount e head
    else if op = 0x28 then planAcc e head
    else if op = 0x29 then (if r.shut && e.sa = 0 then none else planAg e head)
    else if op = 0x2A then planLdp s cl r e head act
    else if op = 0x2B then planStp s cl r e head act
    else if op = 0x2C then planEnt e act
    else if op = 0x2D then planExt r.server e head
    else if op = 0x2E || op = 0 then none
    else if op = 0x38 then planAny e head
    else planCalc r.server e head

/-- The elements joined to a position by links without slots (R226); the fuel bounds the search. -/
def wireGroup (r : Region) : Nat → List Nat → List Nat
  | 0, ps => ps
  | fuel + 1, ps =>
    let more := r.elems.flatMap fun x => x.2.dests.filterMap fun d =>
      if ps.contains x.1 == ps.contains d.2.1 || !r.wired d.2.1 d.2.2 then none
      else some (if ps.contains x.1 then d.2.1 else x.1)
    if more.isEmpty then ps else wireGroup r fuel (ps ++ more.eraseDups)

/-- The head of a queue in a firing: a wire's token of this firing, or the queue's own (R226). -/
def headIn (r : Region) (wires : Table Token) (p : Nat) (e : Elem) (q : Nat) : Option Token :=
  if r.wired p q then tfind wires (4 * p + q) else (e.queues.getD q []).head?

/-- The plans of the elements of a group that can fire, given what is on the wires between them. -/
def groupPlans (s : State) (cl : Nat) (r : Region) (act : Nat → Act) (wires : Table Token) (ps : List Nat) : List (Nat × Plan) :=
  ps.filterMap fun p => (r.elem p).bind fun e => (planElem s cl r e (headIn r wires p e) (act p)).map fun x => (p, x)

/-- The tokens that plans put on wires, by 4 x position + queue. -/
def wiresOf (r : Region) (plans : List (Nat × Plan)) : Table Token :=
  plans.foldl (fun t x => x.2.emits.foldl (fun t m =>
    match x.2.elem.dest m.1 with
    | some (p, q) => if r.wired p q then tput t (4 * p + q) m.2 else t
    | none => t) t) []

/-- The plans once every wire has carried its token as far as it goes. -/
def spreadPlans (s : State) (cl : Nat) (r : Region) (act : Nat → Act) (ps : List Nat) : Nat → Table Token → List (Nat × Plan)
  | 0, w => groupPlans s cl r act w ps
  | fuel + 1, w =>
    let plans := groupPlans s cl r act w ps
    if wiresOf r plans = w then plans else spreadPlans s cl r act ps fuel (wiresOf r plans)

/-- Whether an element's plan finds room everywhere (R226 to R228, R242): a slot of each link, or one that its element
frees in this firing; a wire whose element consumes it in this firing; and the fault edge, with what the plans before
it send there. -/
def planFits (r : Region) (plans : List (Nat × Plan)) (x : Nat × Plan) : Bool :=
  let sent := ((plans.takeWhile fun y => y.1 != x.1).map fun y => y.2.faults.length).sum
  let slot := fun (n : Nat) (held : Bool) =>
    match x.2.elem.dest n with
    | none => true
    | some (p, q) =>
      let eaten := plans.any fun y => y.1 == p && y.2.cons.contains q
      if r.wired p q then eaten || held
      else eaten || decide ((((r.elem p).map fun e => (e.queues.getD q []).length).getD 0) < r.depth p q)
  (x.2.faults.isEmpty || decide (r.edge.length + sent + x.2.faults.length ≤ 16)) &&
  x.2.emits.all (fun m => slot m.1 false) && x.2.room.all fun n => slot n true

/-- The elements of a group that fire together: all but those without a plan or without room, found by
leaving them out one after another; the fuel bounds their number. -/
def groupFiring (s : State) (cl : Nat) (r : Region) (act : Nat → Act) : Nat → List Nat → List (Nat × Plan)
  | 0, _ => []
  | fuel + 1, ps =>
    let plans := spreadPlans s cl r act ps ps.length []
    match plans.find? fun x => !planFits r plans x with
    | none => plans
    | some x => groupFiring s cl r act fuel (ps.filter (· != x.1))

/-- The consumed heads taken from an element's queues. -/
def popQueues (e : Elem) (cons : List Nat) : Elem :=
  { e with queues := (List.range 4).map fun q =>
      if cons.contains q then (e.queues.getD q []).drop 1 else e.queues.getD q [] }

/-- A token added to an element's queue. -/
def pushQueue (t : Table Elem) (p q : Nat) (x : Token) : Table Elem :=
  match tfind t p with
  | none => t
  | some e => tput t p { e with queues := (List.range 4).map fun k => if k = q then e.queues.getD k [] ++ [x] else e.queues.getD k [] }

/-- The elements after a firing: consumed heads gone, states changed, then tokens written to their links. -/
def firedElems (r : Region) (plans : List (Nat × Plan)) : Table Elem :=
  let t := plans.foldl (fun t x => tput t x.1 (popQueues x.2.elem x.2.cons)) r.elems
  plans.foldl (fun t x => x.2.emits.foldl (fun t m =>
    match x.2.elem.dest m.1 with
    | some (p, q) => if r.wired p q then t else pushQueue t p q m.2
    | none => t) t) t

/-- The bytes of a port's store written at the home of its scope (R120, R238). A server's store takes the place of what
its caller's core holds of them, in its own portion and in pool lines (R167). The CORE home of a graph is the portion of
its agent's core, which passes the bytes on to the slice at once, since the region's loads are made there (R239). -/
def portStore (s : State) (server : Bool) (g : Agent) (scope : Nat) (ps : List (UnitLoc × Option Byte)) : State :=
  if server then
    (storedLines ps).foldl (fun s no => forget s g.core no false (storedBytes ps no)) (g.writeAll s scope ps)
  else if scope = 0 then
    let rest := ps.filter fun p => match p with
      | (.mem _, some _) => false
      | _ => true
    (storedLines ps).foldl (fun s no =>
      flushLines (coreStore (l2Settle s (dieOf g.core) no) g.core 0 no (storedBytes ps no)) g.core (· == no)) (g.writeAll s scope rest)
  else g.writeAll s scope ps

/-- Tokens in a queue of an element. -/
def Region.count (r : Region) (p q : Nat) : Nat := ((r.elem p).map fun e => (e.queues.getD q []).length).getD 0

/-- A token put into an element's Q0. -/
def Region.inject (r : Region) (p : Nat) (t : Token) : Region := { r with elems := pushQueue r.elems p 0 t }

/-- The CAI of a band of a region (R240). -/
def Region.cai (r : Region) (band : Nat) : Option Elem :=
  (r.elems.find? fun x => x.2.op == 0x2E && nbits (x.2.word 4) 0 6 == band).map (·.2)

/-- A fault token on the edge of region k (R242), for the token that shows the poison. -/
def edgeToken (k : Nat) (t : Token) : Token := { data := BitVec.ofNat 32 (k % 4 * 2 ^ 30 + t.data.toNat % 2 ^ 24), tag := t.tag }

/-- The contributions of a band of region k that its CAI can send now, in order (R240, R382): each into a free slot of
its node's Q0. A poisoned one of a CAI with FTRAP brings its fault token and waits for room on the fault edge, and with it
all that come after (R242). -/
def pumpBand (k band : Nat) (ftrap : Bool) : List (Nat × Token) → Region → Region
  | [], r => { r with caiHeld := tdel r.caiHeld band }
  | (p, t) :: rest, r =>
    if r.count p 0 < r.depth p 0 && !(ftrap && t.psn && decide (16 ≤ r.edge.length)) then
      pumpBand k band ftrap rest { r.inject p t with edge := if ftrap && t.psn then r.edge ++ [edgeToken k t] else r.edge }
    else { r with caiHeld := tput r.caiHeld band ((p, t) :: rest) }

/-- The CAIs of region k send what they can. -/
def Region.pump (r : Region) (k : Nat) : Region :=
  r.caiHeld.foldl (fun r x => pumpBand k x.1 (((r.cai x.1).map Elem.ftrap).getD false) x.2 r) r

/-- Whether contributions that satisfy a condition on their RUN still have to be added in a region (R217, R382). -/
def Region.adding (r : Region) (p : Nat → Bool) : Bool :=
  (r.caiHeld.any fun x => x.2.any fun y => p y.2.run) || r.elems.any fun x => (x.2.queues.getD 0 []).any fun t => p t.run

/-- A region whose ENT has taken a packet (R240, R317, R327). -/
def Region.took (r : Region) (p : EdgePacket) (clock : Nat) : Region :=
  { r with
    tags := r.tags ++ [(p.pkt.tag, p.pkt.caller)], served := clock
    lastMark := match r.portOf p.ent with
      | some port => tput r.lastMark port 0
      | none => r.lastMark }

/-- A result that goes out, numbered by the call of its tag (R169). -/
def numberBack (c : Cluster) (r : Region) (b : Back) : Back := { b with id := (tagCaller c r b.tag).id }

/-- The reads that the loads of a firing take from other packages (R362). -/
def askVisit (s : State) (v : Agent × Nat × Nat) : State :=
  (storedLines ((v.1.locateAll s .load v.2.1 v.2.2).map fun l => (l, some 0))).foldl askPeer s

/-- The region and the machine after a firing (R227, R228, R237 to R242). -/
def commitFiring (s : State) (cl k : Nat) (r : Region) (plans : List (Nat × Plan)) : State :=
  let s := plans.foldl (fun s x => match x.2.store with
    | some (g, scope, ps) => portStore s r.server g scope ps
    | none => s) s
  let s := plans.foldl (fun s x => x.2.visits.foldl (fun s v => v.1.visit s (spanVas v.2.1 v.2.2)) s) s
  let s := plans.foldl (fun s x => if x.2.read then x.2.visits.foldl askVisit s else s) s
  let s := if plans.any (·.2.read) then spendDevice s else s
  let c := s.cluster cl
  let faults := plans.flatMap fun x => x.2.faults.map (edgeToken k)
  let taken := plans.filterMap (·.2.packet)
  let r' := taken.foldl (fun r p => r.took p s.clock) { r with
    elems := firedElems r plans, edge := r.edge ++ faults, length := r.length || plans.any (·.2.length) }
  s.setCluster cl { c with
    regions := tput c.regions k (r'.pump k)
    packets := taken.foldl List.erase c.packets
    backs := c.backs ++ (plans.filterMap (·.2.back)).map (numberBack c r)
    runSat := c.runSat || (c.run.isSome && plans.any fun x => x.2.clamp != 0 && x.2.clamp == c.runs) }

/-- Whether a packet must be paid for, and is not (R324). -/
def packetUnpaid (c : Cluster) (r : Region) (p : EdgePacket) : Bool :=
  match r.portOf p.ent with
  | none => false
  | some port => (groupOfMeter (c.meter r) (recGroup r.words port)).1 && !p.paid

/-- The packet an ENT at a position would take now: the earliest for it, paid for (R240, R324, R381). -/
def entPacket (c : Cluster) (r : Region) (p : Nat) : Option EdgePacket :=
  match c.packets.find? fun x => r.serves x.img x.ridx x.surv && x.ent == p with
  | some x => if packetUnpaid c r x then none else some x
  | none => none

/-- What a port does when its group fires with it: an ENT takes its packet, an LDP or STP emits (R226). -/
def portAct (c : Cluster) (r : Region) (p : Nat) : Act :=
  match r.elem p with
  | none => .fire
  | some e =>
    if e.op = 0x2C then ((entPacket c r p).map Act.packet).getD .fire
    else if (e.op = 0x2A || e.op = 0x2B) && e.flight != [] then .emit
    else .fire

/-- The earlier requests to the lines of the LDP answers that are to go out done with (R167, R296). -/
def settlePorts (s : State) (cl : Nat) (r : Region) (act : Nat → Act) (ps : List Nat) : State :=
  ps.foldl (fun s p =>
    match (r.elem p).filter fun e => e.op == 0x2A && act p == .emit with
    | none => s
    | some e => match e.flight.head? with
      | none => s
      | some a =>
        if a.psn then s else
        let g := portAgent s cl r a.tag
        settleAt s (dieOf g.core) (g.locateAll s .load (portAddr e a).1 (portAddr e a).2)) s

/-- The walks that the ports of a firing have to wait for, asked for (R312). -/
def plansAwait (s : State) (plans : List (Nat × Plan)) : Option State :=
  plans.foldl (fun w x => x.2.visits.foldl (fun w v =>
    match v.1.awaits (w.getD s) (spanVas v.2.1 v.2.2) with
    | some s => some s
    | none => w) w) none

/-- A group tried as one firing with what its elements are to do: none when the element asked about does not fire. It
fires once its ports' pages have been walked for. -/
def tryGroup (s : State) (cl k p : Nat) (r : Region) (act : Nat → Act) (ps : List Nat) : Option State :=
  let s := settlePorts s cl r act ps
  let plans := groupFiring s cl r act ps.length ps
  if plans.any (·.1 == p) then some ((plansAwait s plans).getD (commitFiring s cl k r plans)) else none

/-- The firing of an element, with the elements it is joined to by wires: none when it cannot fire now. Where it
cannot by itself, the ports of its wire group act with it (R226), and then every element of the region that can fire
in the cycle fires with it, since a slot that is freed in a cycle counts as free in it (R227). An element without a
plan in its wire group has none beside the others. Only a resident region's elements fire. -/
def fireAt (s : State) (cl k p : Nat) (act : Act) : Option State :=
  let c := s.cluster cl
  match tfind c.regions k with
  | none => none
  | some r =>
    if r.stage ≠ .resident then none
    else
      let ps := wireGroup r r.elems.length [p]
      let all := r.elems.map (·.1)
      let one := fun (x : Nat) => if x = p then act else .fire
      let ports := fun (x : Nat) => if x = p then act else portAct c r x
      let planned := fun (acts : Nat → Act) => (spreadPlans s cl r acts ps ps.length []).any (·.1 == p)
      if !planned one && !planned ports then none
      else
        (tryGroup s cl k p r one ps).or <| (tryGroup s cl k p r ports ps).or <|
          (tryGroup s cl k p r one all).or (tryGroup s cl k p r ports all)

end Sys2Proof.Machine
end

