-- ==== Sys2Proof/Machine/Regions.lean ====
section
/-!
DEFINITION. Regions in a cluster's fabric: requests, the configuration cache, placement and loading (R314
to R319), injection and its metering (R323 to R326, R387), serve calls and results (R165 to R168), fault
edges (R242, R274), the stop of a graph region (R327), and the FAB commands (R223, R224).
-/

namespace Sys2Proof.Machine

/-- A region of a cluster by resident index. -/
def State.region (s : State) (cl k : Nat) : Option Region := tfind (s.cluster cl).regions k

/-- A region's record replaced. -/
def State.setRegion (s : State) (cl k : Nat) (r : Region) : State :=
  let c := s.cluster cl
  s.setCluster cl { c with regions := tput c.regions k r }

/-- Whether a region's port binds an element that takes injected tokens (R387): the element's position. -/
def Region.injectAt (r : Region) (p : Nat) : Option Nat :=
  let w := recPort r.words p
  let pos := nbits w 6 6 * 64 + nbits w 0 6
  match if nbit w 15 then r.elem pos else none with
  | none => none
  | some e =>
    if e.reads.contains 0 && !r.linked pos 0 && !(decide (0x29 ≤ e.op) && decide (e.op ≤ 0x2E)) then some pos else none

/-- The record of a region in the configuration cache (R316). -/
def Cluster.cached (c : Cluster) (img ridx : Nat) : Option CfgEntry := c.cfg.find? fun x => x.img == img && x.ridx == ridx

/-- Whether a base column has W free columns (R314, R317). -/
def baseFree (c : Cluster) (base w : Nat) : Bool :=
  decide (base + w ≤ 64) && c.regions.all fun x =>
    decide (base + w ≤ x.2.base) || decide (x.2.base + recWidth x.2.words ≤ base)

/-- The lowest base for a width and an entry for a region that loads, none while the grid or the four entries are taken
(R314, R317). -/
def findBase (c : Cluster) (w : Nat) : Option (Nat × Nat) :=
  match ((List.range 8).map (8 * ·)).find? (baseFree c · w), (List.range 4).find? fun k => (tfind c.regions k).isNone with
  | some b, some k => some (b, k)
  | _, _ => none

/-- An element as loading leaves it (R318). -/
def freshElem (conf : List Word) : Elem :=
  let w := (conf.getD 2 0).toNat
  { conf := conf, s0 := BitVec.ofNat 32 w, s1 := BitVec.ofNat 32 (w / 2 ^ 32) }

/-- The elements of a record, by position. -/
def loadElems (words : List Word) : Table Elem :=
  (List.range (recNelem words)).foldl (fun t n =>
    let e := freshElem (recElem words n)
    tput t e.pos e) []

/-- A transfer of tokens offered at a port. -/
def offerTokens (r : Region) (port : Nat) (toks : List Token) (cmd : Option (Nat × Nat × Nat)) (owner : Option Nat) : Region :=
  if toks.isEmpty then r else { r with offers := r.offers ++ [{ port := port, toks := toks, cmd := cmd, owner := owner }] }

/-- Launch seeds offered at a region's SEEDPORT, one transfer for each party (R319, R325). -/
def offerSeeds (r : Region) (seeds : List (Nat × List Token)) : Region :=
  seeds.foldl (fun r x => offerTokens r (nbits (recWord r.words 0) 27 6) x.2 none (some x.1)) r

/-- Whether an uncompleted FAB command of some core of a cluster names a region (R224, R317). -/
def namedByFab (s : State) (cl : Nat) (r : Region) (p : Cmd → Bool) : Bool :=
  ((List.range 64).map (cl * 64 + ·)).any fun n => (s.core n).ctxs.any fun x =>
    decide (12 ≤ x.1) && x.2.queue.any fun q =>
      let f := (tget 0 q.regs 0).toNat
      !q.done && nbits f 24 16 == r.img && nbits f 16 4 == r.ridx && q.surv == r.surv && p q

/-- The candidates for eviction by use (R317): resident index, last service, base. -/
def evictable (s : State) (cl : Nat) : List (Nat × Region) :=
  (s.cluster cl).regions.filter fun x =>
    x.2.server && x.2.stage == .resident && x.2.tags.isEmpty &&
    !namedByFab s cl x.2 fun q => q.code == 1 || q.code == 3 || q.code == 4

/-- The candidate least recently served, ties to the lower base. -/
def leastServed : List (Nat × Region) → Option Nat
  | [] => none
  | x :: xs => some (xs.foldl (fun b y =>
      if y.2.served < b.2.served || (y.2.served == b.2.served && decide (y.2.base < b.2.base)) then y else b) x).1

/-- The packets that wait at the edge for a region that has left ask for it again (R317). -/
def askAgain (c : Cluster) (r : Region) : Cluster :=
  match c.packets.find? fun p => r.serves p.img p.ridx p.surv with
  | some p => requestRegion c
      { img := r.img, ridx := r.ridx, surv := r.surv, ctxid := p.pkt.caller.ctx, place := p.pkt.caller.place }
  | none => c

/-- A region leaves the fabric; the cache entry of an image that is gone goes with its last copy (R316). -/
def dropRegion (s : State) (cl k : Nat) : State :=
  match s.region cl k with
  | none => s
  | some r =>
    let c := s.cluster cl
    let others := tdel c.regions k
    let keep := (s.imageOf r.img).isSome || others.any fun x => x.2.img == r.img && x.2.ridx == r.ridx
    let cfg := if keep then c.cfg else c.cfg.filter fun x => !(x.img == r.img && x.ridx == r.ridx)
    s.setCluster cl (askAgain { c with regions := others, cfg := cfg } r)

/-- The elements of a record with the states that a restore brings for them (R286): their configuration is the record's
(R316). -/
def statedElems (words : List Word) (saved : Table Elem) : Table Elem :=
  (loadElems words).map fun x => (x.1, match tfind saved x.1 with
    | some e => { e with conf := x.2.conf }
    | none => x.2)

/-- A region begins to load from its cache entry for a request (R316 to R318). One that a restore brings back takes
its element states with it and stays frozen until its party resumes (R286). -/
def placeRegion (c : Cluster) (q : RegionReq) (words : List Word) (base k : Nat) (clock : Nat) : Cluster :=
  let new : Region :=
    { img := q.img, ridx := q.ridx, surv := q.surv, owner := q.owner, ctxid := q.ctxid, place := q.place
      base := base, words := words, elems := loadElems words, served := clock }
  let r := match q.back with
    | some b => { new with
        elems := statedElems words b.elems, length := b.length, edge := b.edge, offers := b.offers, lastMark := b.lastMark
        asked := true, frozen := true }
    | none => new
  { c with
    regions := tput c.regions k (offerSeeds r q.seeds)
    cfg := c.cfg.map fun (x : CfgEntry) => if x.img = q.img && x.ridx = q.ridx then { x with used := clock } else x }

/-- A request that a region already present satisfies (R317): the launch seeds are offered there. -/
def satisfyRequest (c : Cluster) (q : RegionReq) : Cluster :=
  match regionFor c q.img q.ridx q.surv with
  | none => c
  | some k => match tfind c.regions k with
    | some r => { c with regions := tput c.regions k (offerSeeds r q.seeds) }
    | none => c

/-- The uncompleted started commands of the cores of a cluster's FAB contexts that satisfy a condition. -/
def fabCommands (s : State) (cl : Nat) (p : Cmd → Bool) : List (Nat × Nat × Cmd) :=
  ((List.range 64).map (cl * 64 + ·)).flatMap fun n => (s.core n).ctxs.flatMap fun x =>
    if 12 ≤ x.1 then (x.2.queue.filter fun q => q.started && q.ended.isNone && p q).map fun q => (n, x.1, q) else []

/-- REGION_REQUEST (R317): the Surveyor serves the first request of cluster ev.n: satisfied when the region is
present, dropped when its image is gone, which ends the LOADs that wait for it; while its record is not cached, or another region loads, it waits;
else the region is placed, or one is evicted by use, or it waits. -/
def execRegionRequest (s : State) : Out :=
  let cl := s.ev.n
  let c := s.cluster cl
  match c.reqs with
  | [] => .next s
  | q :: rest =>
    if q.back.isNone && (regionFor c q.img q.ridx q.surv).isSome then .next (s.setCluster cl (satisfyRequest { c with reqs := rest } q))
    else if (s.imageOf q.img).isNone then
      .next ((fabCommands s cl fun x => x.code == 1 && nbits (tget 0 x.regs 0).toNat 24 16 == q.img && x.surv == q.surv).foldl
        (fun s x => endCommand s x.1 x.2.1 x.2.2 { code := 5, detail := 4 }) (s.setCluster cl { c with reqs := rest }))
    else match c.cached q.img q.ridx with
      | none => .next s
      | some x =>
        if c.regions.any (·.2.stage == .loading) then .next s
        else match findBase c (recWidth x.words) with
          | some (base, k) => .next (s.setCluster cl (placeRegion { c with reqs := rest } q x.words base k s.clock))
          | none =>
            match leastServed (evictable s cl) with
            | some k => .next (dropRegion s cl k)
            | none => .next s

/-- CONFIG_CACHE_FETCH (R316): the record that the first request of cluster ev.n needs is fetched into a free
entry, or into the one least recently made resident whose region is neither resident nor loading. It waits while the
image's memory cannot be reached; a record that its host has changed since IMG_ADD is not checked again (log 47). -/
def execConfigCacheFetch (s : State) : Out :=
  let cl := s.ev.n
  let c := s.cluster cl
  match c.reqs with
  | [] => .next s
  | q :: _ =>
    match s.imageOf q.img with
    | none => .next s
    | some im =>
      match if (c.cached q.img q.ridx).isSome then none else im.record s q.ridx with
      | none => .next s
      | some words =>
        let new : CfgEntry := ⟨q.img, q.ridx, words, s.clock⟩
        if c.cfg.length < 16 then .next (s.setCluster cl { c with cfg := c.cfg ++ [new] })
        else
          let idle := c.cfg.filter fun x => !c.regions.any fun r => r.2.img == x.img && r.2.ridx == x.ridx
          match idle with
          | [] => .next s
          | x :: xs =>
            let old := xs.foldl (fun a b => if b.used < a.used then b else a) x
            .next (s.setCluster cl { c with cfg := (c.cfg.filter (· != old)) ++ [new] })

/-- The resident index that the region loaded as k takes (R383): the lowest that no other region holds. -/
def waveIndex (c : Cluster) (k : Nat) : Nat := ((List.range 4).find? fun j => j == k || (tfind c.regions j).isNone).getD k

/-- A loaded region at the configuration-complete wave (R318, R323): its AGs without operand begin, and its balances start
full. A region brought back by a restore stands as it was saved and waits for its party (R286). -/
def Region.loaded (r : Region) (m : Meter) (clock : Nat) : Region :=
  { r with
    stage := if r.frozen then .stopped else .resident, served := clock, balAt := clock
    bal := (List.range 4).map fun g => (groupOfMeter m g).2.1
    elems := if r.frozen then r.elems else r.elems.map fun x => (x.1,
      if x.2.op = 0x29 && x.2.sa = 0 then { x.2 with nest := some ((agLevels x.2).map fun _ => 0), nestBegun := true } else x.2) }

/-- CONFIG_COMPLETE_WAVE (R318): region ev.k of cluster ev.n is loaded and resident: it takes its resident index (R383),
and the LOADs that wait for it end (R224). -/
def execConfigCompleteWave (s : State) : Out :=
  let cl := s.ev.n
  match s.region cl s.ev.k with
  | none => .next s
  | some r =>
    if r.stage ≠ .loading then .next s
    else
      let c := s.cluster cl
      let s := s.setCluster cl { c with
        regions := tput (tdel c.regions s.ev.k) (waveIndex c s.ev.k) (r.loaded (c.meter r) s.clock) }
      .next ((fabCommands s cl fun q =>
          let f := (tget 0 q.regs 0).toNat
          q.code == 1 && nbits f 24 16 == r.img && nbits f 16 4 == r.ridx && q.surv == r.surv).foldl
        (fun s x => endCommand s x.1 x.2.1 x.2.2 {}) s)

/-- ELEMENT_FIRE (R227, R234 to R240, R243): the element at position ev.e (64 x row + column) of region ev.k of
cluster ev.n fires, with the elements its wires join it to. -/
def execElementFire (s : State) : Out := .next ((fireAt s s.ev.n s.ev.k s.ev.e .fire).getD s)

/-- An access in flight of a port is answered. -/
def portEmit (s : State) (op : Nat) : State :=
  match (s.region s.ev.n s.ev.k).bind fun r => r.elem s.ev.e with
  | some e => if e.op = op then (fireAt s s.ev.n s.ev.k s.ev.e .emit).getD s else s
  | none => s

/-- LDP_EMIT (R237): the LDP at position ev.e of region ev.k of cluster ev.n emits its oldest answer. -/
def execLdpEmit (s : State) : Out := .next (portEmit s 0x2A)

/-- STP_PERFORMED (R238): the oldest store of the STP at position ev.e of region ev.k of cluster ev.n has been
performed, and its completion token goes out. -/
def execStpPerformed (s : State) : Out := .next (portEmit s 0x2B)

/-- The resident region a packet is for. -/
def packetRegion (c : Cluster) (p : EdgePacket) : Option (Nat × Region) :=
  c.regions.find? fun x => x.2.serves p.img p.ridx p.surv && x.2.stage == .resident

/-- The machine after the ENT of a waiting packet has taken it, none when it cannot now: it is not its ENT's first, or
the element cannot fire (R240, R381). -/
def takePacket (s : State) (cl : Nat) (p : EdgePacket) : Option State :=
  let c := s.cluster cl
  match packetRegion c p, c.packets.find? fun x => x.img == p.img && x.ridx == p.ridx && x.surv == p.surv && x.ent == p.ent with
  | some (k, _), some x => if x = p then fireAt s cl k p.ent (.packet p) else none
  | _, _ => none

/-- ENT_ACCEPT (R240): packet ev.k waiting in cluster ev.n enters its server's ENT; one that must be paid for enters
when it is charged (R324). -/
def execEntAccept (s : State) : Out :=
  let cl := s.ev.n
  let c := s.cluster cl
  match c.packets[s.ev.k]? with
  | none => .next s
  | some p =>
    match packetRegion c p with
    | none => .next s
    | some (_, r) => .next (if packetUnpaid c r p then s else (takePacket s cl p).getD s)

/-- What a port offers in a metering cycle: tokens of its first offer, or one packet. -/
structure PortOffer where
  port : Nat
  toks : Nat
  packet : Option Nat := none
  deriving DecidableEq, Repr

/-- The offers of a region that are not paid for (R324, R325): the first of each port, and packets that their
ENT could take now. -/
def portOffers (s : State) (cl : Nat) (r : Region) : List PortOffer :=
  let c := s.cluster cl
  let seeds := r.offers.foldl (fun (l : List PortOffer) o =>
    if o.paid = 0 && !(l.any (·.port == o.port)) && !(r.offers.any fun x => x.port == o.port && x.paid != 0)
    then l ++ [⟨o.port, o.toks.length, none⟩] else l) []
  let packs := (List.range c.packets.length).filterMap fun i =>
    match c.packets[i]? with
    | none => none
    | some p =>
      match packetRegion c p with
      | none => none
      | some (_, x) =>
        if x.img = r.img && x.ridx = r.ridx && x.surv = r.surv && !p.paid && (takePacket s cl p).isSome
        then (r.portOf p.ent).map fun port => (⟨port, 1, some i⟩ : PortOffer) else none
  seeds ++ packs

/-- The order of service in a group: the longest-waiting port first, then ascending (R324). -/
def offerBefore (r : Region) (a b : PortOffer) : Bool :=
  match tfind r.waits a.port, tfind r.waits b.port with
  | some x, some y => decide (x < y) || (x == y && decide (a.port ≤ b.port))
  | some _, none => true
  | none, some _ => false
  | none, none => decide (a.port ≤ b.port)

/-- An offer put into a list in the order of service. -/
def insertOffer (r : Region) (o : PortOffer) : List PortOffer → List PortOffer
  | [] => [o]
  | x :: xs => if offerBefore r x o then x :: insertOffer r o xs else o :: x :: xs

/-- The packets of a cluster with one marked paid. -/
def payPacket (ps : List EdgePacket) (i : Nat) : List EdgePacket :=
  (List.range ps.length).filterMap fun j => (ps[j]?).map fun p => if j = i then { p with paid := true } else p

/-- Tokens of a port's first unpaid offer marked paid. -/
def payOffer (os : List Offer) (port n : Nat) : List Offer :=
  match os with
  | [] => []
  | o :: rest => if o.port = port && o.paid = 0 then { o with paid := n } :: rest else o :: payOffer rest port n

/-- An offer paid for. -/
def grant (c : Cluster) (r : Region) (o : PortOffer) (n : Nat) : Cluster × Region :=
  match o.packet with
  | some i => ({ c with packets := payPacket c.packets i }, { r with waits := tdel r.waits o.port })
  | none => (c, { r with offers := payOffer r.offers o.port n, waits := tdel r.waits o.port })

/-- Every port of a list waits from this cycle on, unless it waits already (R324). -/
def markWaiting (r : Region) (clock : Nat) (os : List PortOffer) : Region :=
  { r with waits := os.foldl (fun t o => if (tfind t o.port).isSome then t else tput t o.port clock) r.waits }

/-- The charging of a metered group in one cycle (R324, R325): depth, cost by port, balance. The first port that cannot
pay waits, and so does every port after it. -/
def chargeGroup (depth : Nat) (cost : Nat → Nat) (clock : Nat) : Cluster → Region → Nat → List PortOffer → Cluster × Region × Nat
  | c, r, bal, [] => (c, r, bal)
  | c, r, bal, o :: os =>
    let u := cost o.port
    let n := if u ≠ 0 && depth < o.toks * u then max 1 (depth / u) else o.toks
    if n * u ≤ bal then
      let (c, r) := grant c r o n
      chargeGroup depth cost clock c r (bal - n * u) os
    else (c, markWaiting r clock (o :: os), bal)

/-- The balance of a group with the refills of the cycles since the last metering cycle, at least as many as named
(R324). -/
def refilled (m : Meter) (r : Region) (clock least g : Nat) : Nat :=
  let (en, depth, refill) := groupOfMeter m g
  if en then min depth (r.bal.getD g 0 + refill * max least (clock - r.balAt)) else r.bal.getD g 0

/-- One group's part of a metering cycle: the refill, then the ports that offer; without EN everything is
granted (R323, R324). -/
def meterGroup (m : Meter) (offers : List PortOffer) (clock : Nat) (p : Cluster × Region) (g : Nat) : Cluster × Region :=
  let (c, r) := p
  let mine := offers.filter fun o => recGroup r.words o.port == g
  let (en, depth, _) := groupOfMeter m g
  if !en then mine.foldl (fun q o => grant q.1 q.2 o o.toks) (c, r)
  else
    let bal := refilled m r clock 1 g
    let order := mine.foldl (fun l o => insertOffer r o l) []
    let (c, r, bal) := chargeGroup depth (fun p => tget 0 m.costs p) clock c r bal order
    (c, { r with bal := (List.range 4).map fun i => if i = g then bal else r.bal.getD i 0 })

/-- Paid tokens enter, one at each port whose Q0 has room (R325, R387); the commands whose last token has
entered. -/
def enterTokens : List Offer → Region → List Offer → List (Nat × Nat × Nat) → Region × List (Nat × Nat × Nat)
  | [], r, kept, done => ({ r with offers := kept }, done)
  | o :: os, r, kept, done =>
    if o.paid = 0 || kept.any (·.port == o.port) then enterTokens os r (kept ++ [o]) done
    else match r.injectAt o.port, o.toks with
      | some pos, t :: ts =>
        if r.count pos 0 < r.depth pos 0 then
          let r := { r.inject pos t with lastMark := tput r.lastMark o.port t.mark }
          if ts.isEmpty then enterTokens os r kept (done ++ o.cmd.toList)
          else enterTokens os r (kept ++ [{ o with toks := ts, paid := o.paid - 1 }]) done
        else enterTokens os r (kept ++ [o]) done
      | _, _ => enterTokens os r kept (done ++ o.cmd.toList)

/-- How a SEED ends once its tokens have entered: OK, or what stopped its reading (R224), kept under 40. -/
def seedEnd (c : Cmd) : CmdEnd :=
  let w := (tget 0 c.regs 40).toNat
  { code := w / 16, detail := w % 16 }

/-- The packets that are paid for enter, those after others of the list first. -/
def enterPackets (s : State) (cl : Nat) (r : Region) : State :=
  ((s.cluster cl).packets.filter fun p => p.paid && r.serves p.img p.ridx p.surv).foldl (fun s p => (takePacket s cl p).getD s) s

/-- METERED_INJECTION (R323 to R326): one metering cycle of region ev.k of cluster ev.n: balances are refilled,
offers paid for, packets that are paid for enter, and tokens where there is room. Nothing enters a region whose
injection a stop has frozen (R327). -/
def execMeteredInjection (s : State) : Out :=
  let cl := s.ev.n
  let c := s.cluster cl
  match s.region cl s.ev.k with
  | none => .next s
  | some r =>
    if r.stage ≠ .resident || r.shut then .next s
    else
      let (c, r) := (List.range 4).foldl (meterGroup (c.meter r) (portOffers s cl r) s.clock) (c, r)
      let (r, done) := enterTokens r.offers { r with balAt := s.clock } [] []
      let s := enterPackets (s.setCluster cl { c with regions := tput c.regions s.ev.k r }) cl r
      .next (done.foldl (fun s d => match s.cmd d.1 d.2.1 d.2.2 with
        | some q => endCommand s d.1 d.2.1 q (seedEnd q)
        | none => s) s)

/-- The positions that tokens leaving some positions may come to; the fuel bounds the search. -/
def Region.ahead (r : Region) : Nat → List Nat → List Nat
  | 0, ps => ps
  | fuel + 1, ps =>
    let more := (ps.flatMap fun p => ((r.elem p).map fun e => e.dests.map (·.2.1)).getD []).filter fun p => !ps.contains p
    if more.isEmpty then ps else r.ahead fuel (ps ++ more.eraseDups)

/-- Whether an element is an LDP or an STP. -/
def Elem.isPort (e : Elem) : Bool := e.op == 0x2A || e.op == 0x2B

/-- Whether a token of a tag is still on its way to an LDP or STP of a region, so that accesses for the tag may come
(R167). -/
def Region.accessDue (r : Region) (tag : BitVec 16) : Bool :=
  r.elems.any fun x =>
    let e := x.2
    let mine := fun (t : Token) => t.tag == tag
    let onward := (r.ahead r.elems.length (e.dests.map (·.2.1))).any fun p => ((r.elem p).map Elem.isPort).getD false
    (e.queues.any (·.any mine) && (e.isPort || onward)) || (e.op == 0x2A && e.flight.any mine) ||
    (onward && (e.flight.any mine || (e.nest.isSome && mine e.nestTok) || match e.resync with
      | some h => h.push.any mine || h.emits.any (fun m => mine m.2)
      | none => false))

/-- The results of a serve call written to its registers (R166). -/
def writeResults (t : Thread) (call : SrvCall) (ws : List Word) : Thread :=
  (List.range call.nr).foldl (fun t k => t.writeLate (call.d + BitVec.ofNat 6 k) (ws.getD k 0)) t

/-- SRV_RESULT_WRITEBACK (R166, R168): result ev.k on its way in cluster ev.n reaches its caller, whose registers
are written or who takes SERVE_POISON; a result whose call is over with its thread is discarded (R169). It follows every
access for its tag (R167, R259, log 85). -/
def execSrvResultWriteback (s : State) : Out :=
  let cl := s.ev.n
  let c := s.cluster cl
  match (c.backs[s.ev.k]?).filter fun b =>
      !c.regions.any fun x => (x.2.tags.any fun y => y.1 == b.tag && y.2.id == b.id) && x.2.accessDue b.tag with
  | none => .next s
  | some b =>
    let s := s.setCluster cl { c with
      backs := c.backs.eraseIdx s.ev.k
      regions := c.regions.map fun x => (x.1, { x.2 with tags := x.2.tags.filter fun y => !(y.1 == b.tag && y.2.id == b.id) }) }
    let place := cl * 1024 + b.tag.toNat / 64
    let t := s.threadAt place
    match t.srvCall with
    | none => .next s
    | some call =>
      if t.wait ≠ .srv || call.tag ≠ b.tag.toNat || call.id ≠ b.id then .next s
      else
        let s := s.focus place
        match b.poison with
        | none =>
          let t := (writeResults s.th call b.words).complete
          .next (s.withTh { t with srvCall := none })
        | some w =>
          let t := writeResults s.th call call.old
          .next (takeTrap .servePoison (BitVec.ofNat 64 (w.toNat % 65536)) (BitVec.ofNat 64 (w.toNat / 65536 % 256))
            (s.withTh { t with srvCall := none }))

/-- A fault token entered in the log of a region (R274). -/
def FaultLog.add (l : FaultLog) (t : Token) (absent : Bool) : FaultLog :=
  { count := min (2 ^ 32 - 1) (l.count + 1)
    toks := if l.toks.length < 16 then l.toks ++ [t] else l.toks
    absent := l.absent || absent }

/-- A token of a region's edge entered in its log. -/
def logToken (c : Cluster) (r : Region) (t : Token) (absent : Bool) : Cluster :=
  let key := logKey r.img r.ridx r.surv
  { c with logs := tput c.logs key ((tget {} c.logs key).add t absent) }

/-- FTARGET and FPORT of a region (R244). -/
def recTarget (words : List Word) : Nat := nbits (recWord words 0) 14 6
def recFport (words : List Word) : Nat := nbits (recWord words 0) 20 6

/-- The oldest token of the fault edge of region k gone, which may let a CAI send on (R242). -/
def Region.drained (r : Region) (k : Nat) : Region := { r with edge := r.edge.drop 1 }.pump k

/-- A region waiting for its handler since a clock. -/
def Region.absentFrom (r : Region) (clock : Nat) : Region := { r with absentSince := r.absentSince.or (some clock) }

/-- FAULT_TOKEN_DRAIN (R242, R274): the oldest token of the fault edge of region ev.k of cluster ev.n goes to the
Surveyor's log, which a hung Surveyor does not serve (R375), or to its handler region, which is asked for when it is
not there, for the faulting region's context and place (DESIGN CHOICE, log 83: no LOAD names them). -/
def execFaultTokenDrain (s : State) : Out :=
  let cl := s.ev.n
  let c := s.cluster cl
  match s.region cl s.ev.k with
  | none => .next s
  | some r =>
    match r.edge with
    | [] => .next s
    | t :: _ =>
      let c' := { c with regions := tput c.regions s.ev.k { r.drained s.ev.k with absentSince := none } }
      if recTarget r.words = 0x3F then .next (if s.watchdog then s else s.setCluster cl (logToken c' r t false))
      else match regionFor c r.img (recTarget r.words) r.surv with
        | none =>
          .next (s.setCluster cl (requestRegion { c with regions := tput c.regions s.ev.k (r.absentFrom s.clock) }
            { img := r.img, ridx := recTarget r.words, surv := r.surv, ctxid := r.ctxid, place := r.place }))
        | some h =>
          match tfind c'.regions h with
          | none => .next s
          | some x =>
            match if x.stage = .resident then x.injectAt (recFport r.words) else none with
            | none => .next s
            | some pos =>
              if x.count pos 0 < x.depth pos 0 then
                .next (s.setCluster cl { c' with regions := tput c'.regions h (x.inject pos t) })
              else .next s

/-- A request after the party it was made for, or the fault edge, has gone (R317, R319): it goes on for the earliest of
the launch seeds, the FAB LOADs that have begun and the packets that still wait for its region, none when nothing
waits. -/
def RegionReq.goesOn (q : RegionReq) (s : State) (cl : Nat) (gone : Option Nat) : Option RegionReq :=
  let q := { q with seeds := q.seeds.filter fun x => some x.1 != gone, back := none }
  let loads := (fabCommands s cl fun x =>
    let f := (tget 0 x.regs 0).toNat
    x.code == 1 && some x.pid != gone && nbits f 24 16 == q.img && nbits f 16 4 == q.ridx && x.surv == q.surv).map (·.2.2)
  match q.seeds, loads, (s.cluster cl).packets.find? fun p => p.img == q.img && p.ridx == q.ridx && p.surv == q.surv with
  | x :: _, _, _ => some { q with owner := some x.1, place := (s.party x.1).cores.headD 0 * 16 }
  | [], c :: cs, _ =>
    let first := cs.foldl (fun a b => if b.order < a.order then b else a) c
    some { q with owner := some first.pid, ctxid := first.ctxid, place := first.place }
  | [], [], some p => some { q with owner := none, ctxid := p.pkt.caller.ctx, place := p.pkt.caller.place }
  | [], [], none => none

/-- Whether a handler region cannot be made resident now (R274, R317): no base and index are free for it, and no region
can be evicted by use. -/
def handlerBlocked (s : State) (cl : Nat) (r : Region) : Bool :=
  let width := ((s.imageOf r.img).bind fun im => im.regions[recTarget r.words]?).map recWidth
  (findBase (s.cluster cl) (width.getD 8)).isNone && (evictable s cl).isEmpty

/-- HANDLER_ABSENT_TIMEOUT (R274): the handler of region ev.k of cluster ev.n could not be made resident within 100 µs
and still cannot: it counts as absent, its request goes, and the edge is drained into the region's own log. -/
def execHandlerAbsentTimeout (s : State) : Out :=
  let cl := s.ev.n
  let c := s.cluster cl
  match s.region cl s.ev.k with
  | none => .next s
  | some r =>
    match r.absentSince with
    | none => .next s
    | some t0 =>
      let target := recTarget r.words
      if target = 0x3F || s.watchdog || (regionFor c r.img target r.surv).isSome || !handlerBlocked s cl r || elapsed s t0 < micros 100 then .next s
      else
        let c := r.edge.foldl (fun c t => logToken c r t true) c
        .next (s.setCluster cl { c with
          reqs := c.reqs.filterMap fun q =>
            if q.img = r.img && q.ridx = target && q.surv = r.surv && q.owner.isNone then q.goesOn s cl none else some q
          regions := tput c.regions s.ev.k ({ r with edge := [], absentSince := none }.pump s.ev.k) })

/-- Whether no access of a region's ports is in flight (R327), and no contribution of a RUN that has begun still has to be
added, since the stop lets it complete (R275, R382, log 84). -/
def Region.quiet (r : Region) : Bool := (r.elems.all fun x => x.2.flight.isEmpty) && !r.adding (· != 0)

/-- Whether the party that owns a region has been killed or is gone (R272, R353). -/
def Region.orphan (s : State) (r : Region) : Bool :=
  match r.owner with
  | none => false
  | some pid =>
    match tfind s.parties pid with
    | none => true
    | some p => p.killed

/-- REGION_STOP (R327): region ev.k of cluster ev.n, asked to stop, freezes its entry ports at the first boundary, with
tokens offered since held outside; once frozen and with no access in flight, it stops, and leaves if its party has been
killed. -/
def execRegionStop (s : State) : Out :=
  match s.region s.ev.n s.ev.k with
  | none => .next s
  | some r =>
    if !r.asked || r.stage = .loading then .next s
    else if r.stage = .resident && !r.frozen then .next (if r.atBoundary then s.setRegion s.ev.n s.ev.k { r with frozen := true } else s)
    else if !r.quiet then .next s
    else if r.orphan s then .next (dropRegion s s.ev.n s.ev.k)
    else .next (s.setRegion s.ev.n s.ev.k { r with stage := .stopped })

/-- The image handle and region index of FIMG (R223). -/
def fimgOf (c : Cmd) : Nat × Nat := let f := (tget 0 c.regs 0).toNat; (nbits f 24 16, nbits f 16 4)

/-- Whether a FAB command names a region of the issuing survey's image (R223). -/
def fabNames (s : State) (c : Cmd) : Bool :=
  let (img, ridx) := fimgOf c
  (s.survey c.surv).img == img && match s.imageOf img with
    | some im => decide (ridx < im.regions.length)
    | none => false

/-- A SEED token (R224), none for a word with a bit above 34. -/
def seedToken (w : Nat) : Option Token :=
  if w / 2 ^ 35 ≠ 0 then none else some { data := BitVec.ofNat 32 w, mark := nbits w 32 2, psn := nbit w 34 }

/-- The tokens of a seed buffer up to the first word that is none, and how the SEED ends after them: bytes
read poisoned end it POISONED, a bad word with DETAIL 5. -/
def seedTokens : List (List (Byte × Bool)) → List Token × CmdEnd
  | [] => ([], {})
  | b :: bs =>
    if b.any (·.2) then ([], { code := 4 })
    else match seedToken (leNat (b.map (·.1))) with
      | none => ([], { code := 5, detail := 5 })
      | some t => let (ts, e) := seedTokens bs; (t :: ts, e)

/-- A list cut into pieces of eight. -/
def octets {α : Type} : Nat → List α → List (List α)
  | 0, _ => []
  | n + 1, l => if l.isEmpty then [] else l.take 8 :: octets n (l.drop 8)

/-- SEED on a resident region (R224, R325). -/
def startSeed (s : State) (n k : Nat) (c : Cmd) (cl i : Nat) (r : Region) : State :=
  let f := (tget 0 c.regs 2).toNat
  let port := nbits f 12 6
  let cnt := nbits f 0 12
  match r.injectAt port with
  | none => endCommand s n k c { code := 5, detail := 4 }
  | some _ =>
    let g := cmdAgent s n c
    let vas := spanVas (tget 0 c.regs 1).toNat (8 * cnt)
    match g.awaits s (g.tried s .load vas) with
    | some s => s
    | none =>
    let s := g.visit (l2FillAll s (dieOf n)) (g.reached s .load vas)
    match g.read s (tget 0 c.regs 1).toNat (8 * cnt) with
    | .error l => endCommand s n k c l.status
    | .ok bs =>
      let (toks, e) := seedTokens (octets cnt bs)
      if toks.isEmpty then endCommand s n k c e
      else
        let s := s.setRegion cl i (offerTokens r port toks (some (n, k, c.num)) none)
        s.setCmd n k { c with started := true, regs := tput c.regs 40 (BitVec.ofNat 64 (e.code * 16 + e.detail)) }

/-- BW x BH of a band, its end-of-reduction rank, and the position of its node i (R240). -/
def bandSize (e : Elem) : Nat := (nbits (e.word 4) 18 4 + 1) * 8 * nbits (e.word 4) 22 6
def bandRank (e : Elem) : Nat := nbits (e.word 4) 28 2
def bandPos (e : Elem) (i : Nat) : Nat :=
  let bw := (nbits (e.word 4) 18 4 + 1) * 8
  (nbits (e.word 4) 6 6 + i / bw) * 64 + nbits (e.word 4) 12 6 + i % bw

/-- The record that SNAP writes for a node (R224). -/
def snapRecord (e : Elem) : Nat :=
  e.s0.toNat + nbits e.s1.toNat 0 16 * 2 ^ 32 + e.poisoned.toNat * 2 ^ 48 + e.sat.toNat * 2 ^ 49

/-- SNAP on a resident region (R224): nothing happens while a contribution is still to be added. -/
def startSnap (s : State) (n k : Nat) (c : Cmd) (r : Region) : State :=
  match r.cai (nbits (tget 0 c.regs 2).toNat 18 6) with
  | none => endCommand s n k c { code := 5, detail := 4 }
  | some e =>
    let ps := (List.range (bandSize e)).map (bandPos e)
    if (tfind r.caiHeld (nbits (tget 0 c.regs 2).toNat 18 6)).isSome || ps.any fun p => decide (0 < r.count p 0) then s
    else
      let bytes := ps.flatMap fun p => leBytes 8 (((r.elem p).map snapRecord).getD 0)
      let g := cmdAgent s n c
      let vas := spanVas (tget 0 c.regs 1).toNat bytes.length
      match g.awaits s (g.tried s .store vas) with
      | some s => s
      | none =>
      let s := g.visit s (g.reached s .store vas)
      let ls := g.locateAll s .store (tget 0 c.regs 1).toNat bytes.length
      match ls.find? UnitLoc.bad with
      | some l => endCommand s n k c l.status
      | none => endCommand (g.writeAll s c.scope (ls.zip (bytes.map some))) n k c {}

/-- Whether a region may leave for an EVICT (R224): no packet in flight, or a boundary, and no SEED or SNAP of it that
has not completed. -/
def evictReady (s : State) (cl : Nat) (r : Region) : Bool :=
  (if r.server then r.tags.isEmpty else r.stage == .stopped || r.atBoundary && r.quiet) &&
  !namedByFab s cl r fun q => q.code == 3 || q.code == 4

/-- The index of a region for a survey that is in the fabric in any stage (R224). -/
def regionHeld (k : Cluster) (img ridx surv : Nat) : Option (Nat × Region) :=
  k.regions.find? fun r => r.2.serves img ridx surv

/-- EVICT (R224): it has begun, and removes its region once that may leave. -/
def runEvict (s : State) (n k : Nat) (c : Cmd) : State :=
  let cl := clusterOf n
  match regionHeld (s.cluster cl) (fimgOf c).1 (fimgOf c).2 c.surv with
  | none => endCommand s n k c {}
  | some (i, r) =>
    if r.stage = .loading then endCommand s n k c {}
    else if evictReady s cl r then endCommand (dropRegion s cl i) n k c {}
    else s.setCmd n k { c with started := true }

/-- A FAB command that has its turn (R223, R224). One whose region has been asked for and has not begun to load waits for
it like one whose region loads (DESIGN CHOICE, log 94: R224 names only regions loading, and regions neither resident nor
loading). -/
def startFab (s : State) (n k : Nat) (c : Cmd) : State :=
  let cl := clusterOf n
  let (img, ridx) := fimgOf c
  let x := s.cluster cl
  if !fabNames s c then endCommand s n k c { code := 5, detail := 4 }
  else if c.code = 2 then runEvict s n k c
  else
    let asked := x.reqs.any fun q => q.img == img && q.ridx == ridx && q.surv == c.surv
    match regionHeld x img ridx c.surv with
    | some (i, r) =>
      if r.stage = .stopped then s
      else if c.code = 1 then
        if r.stage = .loading then s.setCmd n k { c with started := true } else endCommand s n k c {}
      else if r.stage = .loading then s
      else if c.code = 3 then startSeed s n k c cl i r
      else startSnap s n k c r
    | none =>
      if c.code = 1 then
        let q : RegionReq := { img := img, ridx := ridx, surv := c.surv, owner := some c.pid, ctxid := c.ctxid, place := c.place }
        (s.setCluster cl (requestRegion x q)).setCmd n k { c with started := true }
      else if asked then s
      else endCommand s n k c { code := 5, detail := 4 }

/-- The commands of a FAB context that have begun and wait to be looked at again: EVICTs (R224). -/
def waitingEvicts (x : EngCtx) : List Cmd := x.queue.filter fun q => q.started && q.ended.isNone && q.code == 2

end Sys2Proof.Machine
end

