-- ==== Sys2Proof/Machine/Contour.lean ====
section
/-!
DEFINITION. The contour array (R213 to R222, R328 to R338): plane buffers and digits, the operand latch, row
sums with their residue check and replay, contributions and where they go, rails and fidelity, and which
client holds the array.
-/

namespace Sys2Proof.Machine

/-- Planes of a weight format (R63, R221). -/
def planesOf (f : Nat) : Nat :=
  match f with
  | 12 => 1 | 10 => 4 | 4 => 4 | 5 => 4 | 9 => 6 | 8 => 8 | 3 => 8 | 2 => 11 | _ => 0

/-- The contour that holds plane j of tile t; 8 to 10 name the extension digits of contours 5 to 7 (R328). -/
def planeContour (f t j : Nat) : Nat :=
  if f = 12 then t else if planesOf f = 4 then 4 * t + j else j

/-- Digits that a format's tile occupies or leaves idle (R328): the contours LDW writes. -/
def tileContours (f t : Nat) : List Nat :=
  if f = 12 then [t]
  else if planesOf f = 4 then (List.range 4).map (4 * t + ·)
  else if f = 2 then List.range 11
  else List.range 8

/-- A weight or activation format as an element format. -/
def fmtCode (f : Nat) : Fmt := fmtOr .i8 f

/-- The unbiased exponent of a finite value (R59). -/
def floatExpo (f : Fmt) (bits : Nat) : Int :=
  let e := nbits bits f.frac f.expBits
  if e = 0 then 1 - (f.bias : Int) else (e : Int) - f.bias

/-- The aligned integer of a value in a segment of exponent E and width w (R59); of a NaN or an infinity, which R59 gives
none, it is 0 (DESIGN CHOICE, log 90). -/
def alignTo (w : Nat) (e : Int) (v : FVal) : Int :=
  match v with
  | .fin neg m x =>
    let sh := x + (w : Int) - 1 - e
    signed neg (if 0 ≤ sh then m * 2 ^ sh.toNat else m / 2 ^ (-sh).toNat)
  | _ => 0

/-- A segment aligned (R59, R60): its exponent, its integers, and whether it is non-finite. -/
def alignSegment (f : Fmt) (w : Nat) (xs : List Nat) : Int × List Int × Bool :=
  let vs := xs.map fun x => (x, fdecode f x)
  let live := vs.filter fun p => match p.2 with
    | .fin _ m _ => m != 0
    | _ => false
  let e := match live.map fun p => floatExpo f p.1 with
    | [] => 0
    | x :: rest => rest.foldl max x
  (e, vs.map fun p => alignTo w e p.2, vs.any fun p => match p.2 with
    | .fin _ _ _ => false
    | _ => true)

/-- The digits of one aligned or integer weight (R63, R328): for each plane the select bit, and the sign, which is the
weight's for TERN and float weights. -/
def weightDigits (f : Nat) (v : Int) (neg : Bool) : List Nat :=
  let p := planesOf f
  if f = 12 then [if v = 0 then 0 else if v < 0 then 3 else 1]
  else if (fmtCode f).isFloat then (List.range p).map fun j => (nbit v.natAbs j).toNat + 2 * neg.toNat
  else (List.range p).map fun j => if nbit (v % (2 : Int) ^ p).toNat j then 1 else 0

/-- Weight bits of row k, column n, of a tile whose rows were read as packed arrays (R49, R216); zero
outside. -/
def weightAt (f : Fmt) (rows : List (List (Byte × Bool))) (cols k n : Nat) : Nat :=
  match if n < cols then rows[k]? else none with
  | none => 0
  | some r =>
    let lo := n * f.width
    let part := (r.drop (lo / 8)).take ((lo % 8 + f.width + 7) / 8)
    leNat (part.map (·.1)) / 2 ^ (lo % 8) % 2 ^ f.width

/-- The codes of one column segment of a tile. -/
def weightCodes (wf : Nat) (rows : List (List (Byte × Bool))) (cols n seg : Nat) : List Nat :=
  (List.range 32).map fun i => weightAt (fmtCode wf) rows cols (32 * seg + i) n

/-- One column segment of a tile: its aligned weights, exponent, and whether it is non-finite. -/
def weightSegment (wf : Nat) (rows : List (List (Byte × Bool))) (cols n seg : Nat) : Int × List Int × Bool :=
  let f := fmtCode wf
  let raw := weightCodes wf rows cols n seg
  if f.isFloat then alignSegment f (planesOf wf) raw
  else (0, raw.map fun x => (intValue f x).1, false)

/-- The key of a digit and of a segment word. -/
def digitKey (contour k n : Nat) : Nat := contour * 32768 + 64 * k + n
def segKey (t n seg : Nat) : Nat := 1024 * t + 16 * n + seg

/-- A tile's digits, weight sums and exponents written into a plane buffer (R216, R328, R330). -/
def loadTile (b : PlaneBuf) (wf k n t : Nat) (rows : List (List (Byte × Bool))) : PlaneBuf :=
  let old := tileContours wf t
  let keep := fun (key : Nat) => !old.contains (key / 32768)
  let segs := (List.range 64).flatMap fun c => (List.range 16).map fun g => (c, g, weightSegment wf rows n c g)
  let mineSeg := fun (key : Nat) => key / 1024 == t
  let digits := segs.foldl (fun d x => (List.range 32).foldl (fun d i =>
      (weightDigits wf (x.2.2.2.1.getD i 0) (nbit ((weightCodes wf rows n x.1 x.2.1).getD i 0) ((fmtCode wf).width - 1))).zipIdx.foldl (fun d y =>
        if y.1 = 0 then d else tput d (digitKey (planeContour wf t y.2) (32 * x.2.1 + i) x.1) y.1) d) d)
    (b.digits.filter fun p => keep p.1)
  let sums := segs.foldl (fun m x => if x.2.2.2.1.sum = 0 then m else tput m (segKey t x.1 x.2.1) x.2.2.2.1.sum)
    (b.sums.filter fun p => !mineSeg p.1)
  let exps := segs.foldl (fun m x => if x.2.2.1 = 0 then m else tput m (segKey t x.1 x.2.1) x.2.2.1)
    (b.exps.filter fun p => !mineSeg p.1)
  let bad := segs.foldl (fun l x => if x.2.2.2.2 then sadd l (segKey t x.1 x.2.1) else l)
    (b.nonfinite.filter fun key => !mineSeg key)
  { wfmt := wf, k := k, n := n, loaded := sadd b.loaded t, digits := digits, sums := sums, exps := exps,
    nonfinite := bad, poisoned := sdel b.poisoned t }

/-- A plane buffer, and a latch half, of a cluster (R328, R329). -/
def Cluster.buf (c : Cluster) (one : Bool) : PlaneBuf := if one then c.buf1 else c.buf0
def Cluster.half (c : Cluster) (one : Bool) : LatchHalf := if one then c.half1 else c.half0
def Cluster.setBuf (c : Cluster) (one : Bool) (b : PlaneBuf) : Cluster := if one then { c with buf1 := b } else { c with buf0 := b }
def Cluster.setHalf (c : Cluster) (one : Bool) (h : LatchHalf) : Cluster := if one then { c with half1 := h } else { c with half0 := h }

/-- The rows of a weight tile read from memory (R216), or the first fault. -/
def readRows (g : Agent) (s : State) (base : Nat) (pitch : Int) (bytes : Nat) : List Nat → Except UnitLoc (List (List (Byte × Bool)))
  | [] => .ok []
  | k :: ks =>
    match g.read s (((base : Int) + pitch * k) % (2 : Int) ^ 64).toNat bytes with
    | .error l => .error l
    | .ok r =>
      match readRows g s base pitch bytes ks with
      | .error l => .error l
      | .ok rs => .ok (r :: rs)

/-- Whether a tile holds the reserved TERN code (R50, R216). -/
def reservedTern (rows : List (List (Byte × Bool))) (n : Nat) : Bool :=
  (List.range rows.length).any fun k => (List.range n).any fun c => weightAt .tern rows n k c == 2

/-- LDW (R216): a tile of weights is read and written into its plane buffer. A reserved TERN code ends it, and
what the buffer then holds is free (log 3). -/
def runLdw (s : State) (n k : Nat) (c : Cmd) : State :=
  let s := l2FillAll s (dieOf n)
  let w := (tget 0 c.regs 1).toNat
  let wf := geoFmt w
  let cols := wgeoN w
  let cl := clusterOf n
  let bytes := (cols * (fmtCode wf).width + 7) / 8
  let rowAt := fun (k : Nat) => (((tget 0 c.regs 0).toNat : Int) + sint 32 (tget 0 c.regs 2).toNat * k) % (2 : Int) ^ 64
  let g := cmdAgent s n c
  let vas := (List.range (wgeoK w)).flatMap fun k => spanVas (rowAt k).toNat bytes
  match g.awaits s (g.tried s .load vas) with
  | some s => s
  | none =>
  let s := g.visit s (g.reached s .load vas)
  let s := (g.reached s .load vas).foldl g.askCopy s
  match readRows g s (tget 0 c.regs 0).toNat (sint 32 (tget 0 c.regs 2).toNat) bytes (List.range (wgeoK w)) with
  | .error l => endCommand s n k c l.status
  | .ok rows =>
    let s := spendDevice s
    let x := s.cluster cl
    let poison := rows.any fun r => r.any (·.2)
    if wf = 12 && reservedTern rows cols then
      let free := fun (t : Nat) => (List.range 512).map fun i => (List.range 16).map fun j =>
        ((Config.freeWord (s.tick + 8192 * t + 16 * i + j)).setWidth 8, false)
      let b := (List.range 8).foldl (fun b t => loadTile b 12 512 64 t (free t)) (x.buf (wgeoBuf w))
      let s := { s with tick := s.tick + 65536 }
      endCommand (s.setCluster cl (x.setBuf (wgeoBuf w) b)) n k c { code := 5, detail := 2 }
    else
      let b := loadTile (x.buf (wgeoBuf w)) wf (wgeoK w) cols (wgeoSlot w) rows
      let b := if poison then { b with poisoned := sadd b.poisoned (wgeoSlot w) } else b
      endCommand (s.setCluster cl (x.setBuf (wgeoBuf w) b)) n k c { code := if poison then 4 else 0 }

/-- Where an index entry of ROWS points, none for one outside (R215): nothing for a zero row. -/
def rowPlace (e : Nat) : Option (Option Nat) :=
  if e = 0xFFFFFFFF then some none
  else if e / 2 ^ 24 ≠ 0 then none
  else some (some (windowAddr (nbits e 17 7) (e % 2 ^ 17)))

/-- The 512-byte parts of a latch half that row i takes when its activations have w bytes (R329). -/
def latchParts (w i : Nat) : List Nat := (List.range w).map (w * i + ·)

/-- The rows of a latch half from row i on, each 512 activations of w bytes (R329): the bytes written, the 512-byte
parts read poisoned, and the fault that ended them, if any (R215). -/
def gatherLatch (g : Agent) (s : State) (w bytes : Nat) : Nat → List Nat → List Host.Cell → List Nat → List Host.Cell × List Nat × Option CmdEnd
  | _, [], m, p => (m, p, none)
  | i, e :: es, m, p =>
    match rowPlace e with
    | none => (m, p, some { code := 5, detail := 3 })
    | some none => gatherLatch g s w bytes (i + 1) es m p
    | some (some va) =>
      match g.read s va bytes with
      | .error _ => (m, p, some { code := 5, detail := 3 })
      | .ok bs =>
        let bad := if bs.any (·.2) then (latchParts w i).foldl sadd p else p
        gatherLatch g s w bytes (i + 1) es (cputs m (512 * w * i) (bs.map (·.1))) bad

/-- ROWS (R215, R329): rows gathered into a latch half. -/
def runRows (s : State) (n k : Nat) (c : Cmd) : State :=
  let w := (tget 0 c.regs 1).toNat
  let m := wgeoN w
  let g := cmdAgent s n c
  let cl := clusterOf n
  let vas := spanVas (tget 0 c.regs 0).toNat (4 * m)
  match g.awaits s (g.tried s .load vas) with
  | some s => s
  | none =>
  let s := g.visit (l2FillAll s (dieOf n)) (g.reached s .load vas)
  match g.read s (tget 0 c.regs 0).toNat (4 * m) with
  | .error l => endCommand s n k c l.status
  | .ok bs =>
    if bs.any (·.2) then endCommand s n k c { code := 4 }
    else
      let idx := (quads m bs).map fun q => leNat (q.map (·.1))
      let (cells, bad, fault) := gatherLatch g s (actBytes (geoFmt w)) (wgeoK w * actBytes (geoFmt w)) 0 idx [] []
      let h : LatchHalf := { afmt := geoFmt w, m := m, bytes := cells, poisoned := bad }
      let x := s.cluster cl
      endCommand (s.setCluster cl (x.setHalf (ggeoHalf w) h)) n k c
        (fault.getD { code := if bad = [] then 0 else 4 })

/-- The bits of activation k of row m in a half (R329). -/
def actBits (h : LatchHalf) (af m k : Nat) : Nat :=
  let w := actBytes af
  leNat (cgets h.bytes (w * (512 * m + k)) w)

/-- A segment of a latch row as the contours see it (R330): exponent, integers, non-finite. -/
def actSegment (h : LatchHalf) (af m seg : Nat) : Int × List Int × Bool :=
  let raw := (List.range 32).map fun i => actBits h af m (32 * seg + i)
  let f := fmtCode af
  if f.isFloat then alignSegment f 11 raw
  else if af = 11 then (0, raw.map fun (x : Nat) => (x : Int) - 128, false)
  else (0, raw.map fun x => sint 8 x, false)

/-- The exact sum of a contour over a segment of a column (R330). -/
def planeSum (b : PlaneBuf) (contour n seg : Nat) (acts : List Int) : Int :=
  ((List.range 32).map fun i =>
    let d := tget 0 b.digits (digitKey contour (32 * seg + i) n)
    if d % 2 = 0 then 0 else if d / 2 = 1 then -(acts.getD i 0) else acts.getD i 0).sum

/-- The bound of a segment sum (R331). -/
def segBound (af : Nat) : Int := if (fmtCode af).isFloat then 65504 else 4096

/-- Whether the residue check sees the change that the errors of one column and segment make to S (R331, R335): S is
taken before the clamp. -/
def errSeen (bound exact delta : Int) : Bool :=
  decide (delta % 7 ≠ 0) || decide (exact + delta < -bound) || decide (bound < exact + delta)

/-- What a list of errors adds to the sum of a column and segment. -/
def errDelta (es : List CErr) (col seg : Nat) : Int := ((es.filter fun e => e.col == col && e.seg == seg).map (·.delta)).sum

/-- The errors of a row operation: row, contour (8 to 10 in the second pass). -/
def rowErrs (errs : List CErr) (m contour : Nat) : List CErr :=
  errs.filter fun e => e.row == m && (if e.second then e.contour + 3 == contour && decide (5 ≤ e.contour) else e.contour == contour)

/-- What checking a row operation gives (R335 to R337): how many errors are counted, whether the third replay
also failed, and the errors that stay in the sums. -/
structure RowCheck where
  count : Nat := 0
  failed : Bool := false
  left : List CErr := []
  deriving DecidableEq, Repr

/-- The check of a row operation of a buffer on a row's segments. What the check does not see stays in a contour whose
rail is lowered, and only there (R221). -/
def checkRow (b : PlaneBuf) (af : Nat) (segs : List (Int × List Int × Bool)) (errs : List CErr) (lowered : Bool) (m contour : Nat) : RowCheck :=
  let es := rowErrs errs m contour
  let seen := es.filter fun e =>
    errSeen (segBound af) (planeSum b contour e.col e.seg (segs.getD e.seg (0, [], false)).2.1) (errDelta es e.col e.seg)
  if seen.isEmpty then { left := if lowered then es else [] }
  else
    let fails := min 3 ((seen.map (·.refail)).foldl max 0)
    { count := 1 + fails, failed := decide (3 ≤ fails), left := [] }

/-- The sum of a contour over a segment with the errors that stay, clamped (R331). -/
def rowSum (b : PlaneBuf) (af : Nat) (left : List CErr) (contour n seg : Nat) (acts : List Int) : Int :=
  max (-(segBound af)) (min (segBound af) (planeSum b contour n seg acts + errDelta left n seg))

/-- The weight of plane j of a format (R63): the top plane of an integer weight is negative. -/
def planeWeight (wf j : Nat) : Int :=
  if !(fmtCode wf).isFloat && wf ≠ 12 && j + 1 = planesOf wf then -(2 : Int) ^ j else 2 ^ j

/-- X_s of a column's segment (R63, R330). -/
def combineSeg (b : PlaneBuf) (wf af t n seg : Nat) (left : Nat → List CErr) (acts : List Int) : Int :=
  let x := ((List.range (planesOf wf)).map fun j =>
    let c := planeContour wf t j
    planeWeight wf j * rowSum b af (left c) c n seg acts).sum
  if af = 11 then x + 128 * tget 0 b.sums (segKey t n seg) else x

/-- An exact sum of dyadic terms as sign, magnitude and exponent. -/
def dyadicSum (xs : List (Int × Int)) : Int × Int :=
  let low := (xs.map (·.2)).foldl min (xs.headD (0, 0)).2
  ((xs.map fun p => p.1 * (2 : Int) ^ (p.2 - low).toNat).sum, low)

/-- The contribution of a row to an output (R60, R63): its 32 bits and the flags. -/
def contribution (b : PlaneBuf) (wf af t n : Nat) (segs : List (Int × List Int × Bool)) (left : Nat → List CErr) : Nat × Flags :=
  let aF := (fmtCode af).isFloat
  let wF := (fmtCode wf).isFloat
  let xs := segs.zipIdx.map fun p => (p.2, combineSeg b wf af t n p.2 left p.1.2.1, p.1)
  if !aF && !wF then ((((xs.map (·.2.1)).sum) % (2 : Int) ^ 32).toNat, 0)
  else if xs.any fun x => (aF && x.2.2.2.2) || (wF && b.nonfinite.contains (segKey t n x.1)) then (Fmt.fp32.nan, fNV)
  else
    let terms := xs.map fun x =>
      (x.2.1, (if aF then x.2.2.1 - 10 else 0) + (if wF then tget 0 b.exps (segKey t n x.1) - (planesOf wf : Int) + 1 else 0))
    let (v, e) := dyadicSum terms
    fround .fp32 .rne false (decide (v < 0)) v.natAbs e

/-- The ceiling of a weight format (R219). -/
def fidCeiling (wf : Nat) : Nat := if wf = 12 then 0 else if planesOf wf = 4 then 1 else 3

/-- The fused rail voltages V_0 to V_3 in mV (log 13). -/
def railVolt (f : Nat) : Nat := [750, 720, 690, 660].getD f 660

/-- The fidelity a request achieves (R334): the largest F' up to F whose voltage the floor admits. -/
def achieved (floor : Nat) : Nat → Nat
  | 0 => 0
  | f + 1 => if floor ≤ railVolt (f + 1) then f + 1 else achieved floor f

/-- The applied fidelity of a command and whether it is clamped (R219, R334). -/
def appliedFid (cl : Cluster) (c : Cmd) : Nat × Bool :=
  let want := (tget 0 c.regs 5).toNat % 4
  let f := min want (min c.fidmax (fidCeiling (geoFmt (tget 0 c.regs 1).toNat)))
  let g := achieved cl.cfloor f
  (g, decide (g < want))

/-- The contours that a fidelity lowers for a format (R333). -/
def loweredContours (wf f : Nat) : List Nat :=
  if f = 0 || wf = 12 then [] else if planesOf wf = 4 then [0, 4] else List.range f

/-- The rails a fidelity asks for (R333). -/
def railTargets (wf f : Nat) : List (Nat × Nat) :=
  (List.range 8).map fun c => if (loweredContours wf f).contains c then (railVolt f, f) else (railVolt 0, 0)

/-- Whether the rails stand at a setting, and none settles. -/
def railsReady (c : Cluster) (wf f : Nat) : Bool :=
  (c.rails.zip (railTargets wf f)).all fun p => p.1.setpt == p.2.1 && !p.1.settling

/-- The rails sent to a setting; those that change settle (R333). While the watchdog has expired they hold
(R334). -/
def sendRails (c : Cluster) (hold : Bool) (wf f : Nat) : Cluster :=
  if hold then c
  else { c with rails := (c.rails.zip (railTargets wf f)).map fun p =>
    { settling := p.1.settling || p.1.setpt != p.2.1, fapp := p.2.2, setpt := p.2.1 } }

/-- The results of one row of a RUN (R217, R335 to R337). -/
structure RowRun where
  toks : List (Nat × Nat × Token)
  flags : Flags
  errs : List Nat
  deriving DecidableEq, Repr

/-- The contours whose row operations a RUN makes: each once a row, the extension digits in an FP16 second
pass. -/
def runContours (wf : Nat) : List Nat := if wf = 2 then List.range 11 else List.range 8

/-- The contour a row operation counts for (R337). -/
def countedFor (contour : Nat) : Nat := if 8 ≤ contour then contour - 3 else contour

/-- One row of a RUN at a fidelity: contributions of every tile of its mask to its band's nodes (tile, node, token), the
flags, and the errors counted by contour. The flags of a contribution that is sent poisoned count too (log 45). -/
def runRow (c : Cluster) (wf af f : Nat) (buf : PlaneBuf) (half : LatchHalf) (tiles : List (Nat × Elem)) (m : Nat) : RowRun :=
  let segs := (List.range 16).map fun g => actSegment half af m g
  let checks := (runContours wf).map fun x => (x, checkRow buf af segs c.cerrs ((loweredContours wf f).contains x) m x)
  let left := fun (x : Nat) => ((checks.find? (·.1 == x)).map (·.2.left)).getD []
  let failed := checks.any (·.2.failed)
  let outs := tiles.flatMap fun t => (List.range 64).map fun n => (t, n, contribution buf wf af t.1 n segs left)
  { toks := outs.map fun o =>
      let poison := failed || (latchParts (actBytes af) m).any half.poisoned.contains || buf.poisoned.contains o.1.1
      let org := if failed then 0x0B * 65536 + o.1.2.pos / 64 * 256 + o.1.2.pos % 64
        else 0x04 * 65536 + o.1.2.pos / 64 * 256 + o.1.2.pos % 64
      (o.1.1, 64 * m + o.2.1,
        { data := BitVec.ofNat 32 (if poison then org else o.2.2.1), mark := bandRank o.1.2, psn := poison })
    flags := outs.foldl (fun f o => f ||| o.2.2.2) 0
    errs := (List.range 8).map fun x => ((checks.filter fun y => countedFor y.1 == x).map (·.2.count)).sum }

/-- The resident index and band that ACCB names for a tile (R214, R383). -/
def accbOf (w t : Nat) : Nat × Nat := (nbits w (8 * t + 6) 2, nbits w (8 * t) 6)

/-- The tiles of a RUN's mask with the regions and CAIs of their bands, none when one has no region, no band, or
too few nodes (R240, R383). -/
def runBands (c : Cluster) (accb rows : Nat) : List Nat → Option (List (Nat × Nat × Elem))
  | [] => some []
  | t :: ts =>
    let (i, band) := accbOf accb t
    match (tfind c.regions i).bind fun r => if r.stage = .resident then r.cai band else none with
    | none => none
    | some e =>
      if bandSize e < 64 * rows then none
      else (runBands c accb rows ts).map ((t, i, e) :: ·)

/-- The contributions of a RUN handed to the CAIs of its bands, which send them to their nodes (R332, R382): in tile order,
rows in order. -/
def sendContributions (c : Cluster) (bands : List (Nat × Nat × Elem)) (toks : List (Nat × Nat × Token)) : Cluster :=
  bands.foldl (fun c b =>
    match tfind c.regions b.2.1 with
    | none => c
    | some r =>
      let band := nbits (b.2.2.word 4) 0 6
      let mine := (toks.filter (·.1 == b.1)).map fun x => (bandPos b.2.2 x.2.1, { x.2.2 with run := c.runs })
      { c with regions := tput c.regions b.2.1 ({ r with caiHeld := tput r.caiHeld band (tget [] r.caiHeld band ++ mine) }.pump b.2.1) }) c

/-- Detected errors added to the contours' counters, which saturate (R220, R337). -/
def addErrors (ecnt errs : List Nat) : List Nat := (ecnt.zip errs).map fun p => min (2 ^ 48 - 1) (p.1 + p.2)

/-- An engine register of a context set by the engine itself. -/
def setEngReg (s : State) (n k reg : Nat) (v : Word) : State :=
  let x := s.ctx n (k / 4) (k % 4)
  s.setCtx n (k / 4) (k % 4) { x with regs := tput x.regs reg v }

/-- The errors that the next RUN of an array meets: free values of Config (log 15). -/
def drawErrors (tick : Nat) : List CErr :=
  (Config.contourErrors tick).map fun l =>
    let g := fun i => (l.getD i 0).toNat
    { row := g 0, contour := g 1, second := g 2 != 0, col := g 3, seg := g 4, delta := l.getD 5 0, refail := g 6 }

/-- Whether a RUN names a resident index whose region has stopped and still holds it (R383): the region takes no
contribution until it resumes or leaves. -/
def bandStopped (c : Cluster) (accb : Nat) (tiles : List Nat) : Bool :=
  tiles.any fun t => ((tfind c.regions (accbOf accb t).1).map (·.stage)) == some .stopped

/-- RUN (R217): once its rails have settled, every row is multiplied and its contributions are sent. -/
def runRun (s : State) (n k : Nat) (c : Cmd) : State :=
  let cl := clusterOf n
  let x := s.cluster cl
  let w := (tget 0 c.regs 1).toNat
  let g := (tget 0 c.regs 3).toNat
  let wf := geoFmt w
  let af := geoFmt g
  let (f, clamped) := appliedFid x c
  let tiles := (List.range 8).filter fun t => nbit (rgeoMask g) t
  if bandStopped x (tget 0 c.regs 4).toNat tiles then s
  else match runBands x (tget 0 c.regs 4).toNat (rgeoM g) tiles with
  | none => endCommand s n k c { code := 5, detail := 4, fapp := f, clamped := clamped }
  | some bands =>
    if !railsReady x wf f && !s.watchdog then s.setCluster cl (sendRails x s.watchdog wf f)
    else
      let buf := x.buf (rgeoBuf g)
      let half := x.half (rgeoHalf g)
      let rows := (List.range (rgeoM g)).map fun m => runRow x wf af f buf half (bands.map fun b => (b.1, b.2.2)) m
      let toks := rows.flatMap (·.toks)
      let errs := rows.foldl (fun a r => (a.zip r.errs).map fun p => p.1 + p.2) [0, 0, 0, 0, 0, 0, 0, 0]
      let flags := rows.foldl (fun a r => a ||| r.flags) 0
      let poison := toks.any fun y => y.2.2.psn
      let x := { sendContributions { x with runs := x.runs + 1 } bands toks with
        ecnt := addErrors x.ecnt errs, cerrs := drawErrors s.tick, run := some (n, k, c.num), runSat := false }
      let s := setEngReg ({ s with tick := s.tick + 1 }.setCluster cl x) n k 6 (BitVec.ofNat 64 (min (2 ^ 48 - 1) errs.sum))
      endCommand s n k c { code := if poison then 4 else if clamped then 1 else 0, flags := flags, fapp := f, clamped := clamped }

/-- FID (R219, R334): the rails are sent to the fidelity achieved; it completes once they have settled. -/
def runFid (s : State) (n k : Nat) (c : Cmd) : State :=
  let cl := clusterOf n
  let x := s.cluster cl
  let (f, clamped) := appliedFid x c
  let s := s.setCluster cl (sendRails x s.watchdog (geoFmt (tget 0 c.regs 1).toNat) f)
  endCommand s n k c { code := if clamped then 1 else 0, fapp := f, clamped := clamped }

/-- CNT (R220): the counters are copied into ECNT0 to ECNT7. -/
def runCnt (s : State) (n k : Nat) (c : Cmd) : State :=
  let x := s.cluster (clusterOf n)
  let s := x.ecnt.zipIdx.foldl (fun s p => setEngReg s n k (8 + p.2) (BitVec.ofNat 64 p.1)) s
  endCommand s n k c {}

/-- The uncompleted commands of a client's two contexts, with their context keys (R213). -/
def clientCmds (s : State) (n ctx : Nat) : List (Nat × Cmd) :=
  (((s.ctx n 1 ctx).queue.filter (!·.done)).map fun q => (4 + ctx, q)) ++
  (((s.ctx n 2 ctx).queue.filter (!·.done)).map fun q => (8 + ctx, q))

/-- The first command of a context that has not started (R197). -/
def firstUnstarted (x : EngCtx) : Option Cmd := x.queue.find? fun q => !q.started && q.code != 31

/-- Whether the hazards of R218 let a command of a client start: those issued before it count. -/
def hazardFree (s : State) (n ctx eng : Nat) (c : Cmd) : Bool :=
  (clientCmds s n ctx).all fun p =>
    let q := p.2
    let run := decide (p.1 < 8) && q.code == 2
    let fid := decide (p.1 < 8) && q.code == 3
    let ldw := decide (p.1 < 8) && q.code == 1
    let rows := decide (8 ≤ p.1) && q.code == 1
    let g := (tget 0 c.regs 3).toNat
    let h := (tget 0 q.regs 3).toNat
    decide (c.order ≤ q.order) || q.code == 31 ||
    !(if eng = 1 && c.code = 2 then
        run || fid || (rows && ggeoHalf (tget 0 q.regs 1).toNat == rgeoHalf g) ||
        (ldw && wgeoBuf (tget 0 q.regs 1).toNat == rgeoBuf g)
      else if eng = 2 then run && rgeoHalf h == ggeoHalf (tget 0 c.regs 1).toNat
      else if c.code = 1 then run && rgeoBuf h == wgeoBuf (tget 0 c.regs 1).toNat
      else run)

/-- A client's startable command, as far as the claim lets it (R213, R218): context key and command. -/
def startableCmd (s : State) (n ctx : Nat) : Option (Nat × Cmd) :=
  let try_ := fun (eng : Nat) => match firstUnstarted (s.ctx n eng ctx) with
    | some c => if c.after.isNone && hazardFree s n ctx eng c then some (eng * 4 + ctx, c) else none
    | none => none
  match try_ 1, try_ 2 with
  | some a, some b => some (if a.2.order ≤ b.2.order then a else b)
  | some a, none => some a
  | none, b => b

/-- The clients of a cluster with a startable command: core, context, command. -/
def waitingClients (s : State) (cl : Nat) : List (Nat × Nat × Cmd) :=
  ((List.range 64).map (cl * 64 + ·)).flatMap fun n =>
    if (s.core n).ctxs.any fun x => decide (4 ≤ x.1) && decide (x.1 < 12) then
      (List.range 4).filterMap fun ctx => (startableCmd s n ctx).map fun c => (n, ctx, c.2)
    else []

/-- The client whose command arrived first (R213). -/
def firstClient : List (Nat × Nat × Cmd) → Option (Nat × Nat × Cmd)
  | [] => none
  | x :: xs => some (xs.foldl (fun a b => if b.2.2.order < a.2.2.order then b else a) x)

/-- The claim of a client that has no uncompleted command is released (R213). -/
def freeClaim (s : State) (cl : Nat) : State :=
  let x := s.cluster cl
  match x.claim with
  | none => s
  | some h => if (clientCmds s h.core h.ctx).isEmpty then s.setCluster cl { x with claim := none } else s

/-- CONTOUR_CLAIM (R213): the array of cluster ev.n, unclaimed, passes to the waiting client whose command came
first; buffers and latch are cleared when it is another party's, and a restored client finds its own (R286). -/
def execContourClaim (s : State) : Out :=
  let cl := s.ev.n
  let s := freeClaim s cl
  let x := s.cluster cl
  match x.claim, firstClient (waitingClients s cl) with
  | none, some (n, ctx, c) =>
    let x := if x.lastPid = some c.pid then x else { x with buf0 := {}, buf1 := {}, half0 := {}, half1 := {} }
    let p := s.party c.pid
    let (x, p) := match p.contour with
      | some k =>
        if p.cores[k.core]? = some n && k.ctx = ctx then
          ({ x with buf0 := k.buf0, buf1 := k.buf1, half0 := k.half0, half1 := k.half1 }, { p with contour := none })
        else (x, p)
      | none => (x, p)
    let s := if p = s.party c.pid then s else s.setParty c.pid p
    .next (s.setCluster cl { x with claim := some ⟨n, ctx, c.pid⟩, lastPid := some c.pid })
  | _, _ => .next s

/-- RAIL_SETTLE (R333): contour rail ev.k of cluster ev.n reaches its setpoint. -/
def execRailSettle (s : State) : Out :=
  let x := s.cluster s.ev.n
  .next (s.setCluster s.ev.n { x with rails := x.rails.zipIdx.map fun p =>
    if p.2 = s.ev.k then { p.1 with settling := false } else p.1 })

/-- CONTOUR_COUNTER_CLEAR (R337): the host clears the detected-error counter of contour ev.k of cluster ev.n. -/
def execContourCounterClear (s : State) : Out :=
  let x := s.cluster s.ev.n
  .next (s.setCluster s.ev.n { x with ecnt := x.ecnt.zipIdx.map fun p => if p.2 = s.ev.k then 0 else p.1 })

/-- A command of a context that holds the claim starts (R217 to R220). -/
def startContour (s : State) (n k : Nat) (c : Cmd) : State :=
  if 8 ≤ k then runRows s n k c
  else if c.code = 1 then runLdw s n k c
  else if c.code = 2 then runRun s n k c
  else if c.code = 3 then runFid s n k c
  else runCnt s n k c

/-- The first command of a context that has not started begins its work when its turn has come (R197). -/
def startNext (s : State) (n k : Nat) : State :=
  match firstUnstarted (s.ctx n (k / 4) (k % 4)) with
  | none => s
  | some c =>
    if c.after.isSome || ((tfind s.stops c.pid).any fun x => x.begun && x.tidx.isNone) then s
    else if k < 4 then startCopy s n k c
    else if k < 12 then
      let held := match (s.cluster (clusterOf n)).claim with
        | some h => h.core == n && h.ctx == k % 4
        | none => false
      if held && hazardFree s n (k % 4) (k / 4) c then startContour s n k c else s
    else startFab s n k c

/-- COMMAND_START (R197, R204, R207, R211 to R218, R224): the first command of context ev.k (engine x 4 +
context) of core ev.n that has not started begins its work when its turn has come; none of a party that stops (R275).
An EVICT that has begun removes its region first, if that may leave now. -/
def execCommandStart (s : State) : Out :=
  let n := s.ev.n
  let k := s.ev.k
  let waiting := if 12 ≤ k then waitingEvicts (s.ctx n (k / 4) (k % 4)) else []
  .next (startNext (waiting.foldl (fun s c => runEvict s n k c) s) n k)

/-- Whether every node has added the contributions of the RUN under way (R217, R382). -/
def nodesDone (x : Cluster) : Bool := !x.regions.any fun r => r.2.adding (· == x.runs)

/-- COMMAND_COMPLETION (R195 to R197, R212): command ev.m of context ev.k of core ev.n, whose work is done,
completes; a RUN once its nodes have added (R382), a FID once its rails have settled (R219). -/
def execCommandCompletion (s : State) : Out :=
  let n := s.ev.n
  let k := s.ev.k
  match s.cmd n k s.ev.m with
  | none => .next s
  | some c =>
    match c.ended with
    | none => .next s
    | some e =>
      let cl := clusterOf n
      let x := s.cluster cl
      if c.done then .next s
      else if x.run = some (n, k, c.num) then
        if nodesDone x then
          .next (freeClaim (completeCommand (s.setCluster cl { x with run := none, runSat := false }) n k c.num { e with sat := x.runSat }) cl)
        else .next s
      else if k / 4 = 1 && c.code = 3 && x.rails.any (·.settling) then .next s
      else .next (freeClaim (completeCommand s n k c.num e) cl)

end Sys2Proof.Machine
end

