-- ==== Sys2Proof/Machine/Fetch.lean ====
section
/-!
DEFINITION. Fetching an instruction word (R38, R74, R100, R388), the causes of a word that decodes to no
instruction (R69, R73, R74), and the placing of a word where the next fetch finds it.
-/

namespace Sys2Proof.Machine

/-- The instruction-cache line that serves a fetch: present and not older than the floors (R388, R299, log 65). -/
def findILine (ls : List ILine) (no pf lf : Nat) : Option ILine :=
  ls.find? fun l => l.no == no && decide (pf ≤ l.stamp) && decide (lf ≤ l.home)

/-- A line put into an instruction cache as the most recently used of its set of four (R388). The spec gives size,
ways and line alone: the set index, the line number modulo 128, and least-recent-use replacement are the model's
choice (log 68). -/
def iPut (ls : List ILine) (l : ILine) : List ILine :=
  let ls := l :: ls.filter (·.no != l.no)
  let set := ls.filter (·.no % 128 == l.no % 128)
  if 4 < set.length then
    match set.getLast? with
    | some old => ls.filter (·.no != old.no)
    | none => ls
  else ls

/-- The sixteen words of a line from its bytes. -/
def lineWords (bytes : Table Byte) : List W32 :=
  (List.range 16).map fun k => wordOfBytes (tget 0 bytes (4 * k)) (tget 0 bytes (4 * k + 1))
    (tget 0 bytes (4 * k + 2)) (tget 0 bytes (4 * k + 3))

/-- Whether the pc is in the body of a loop that runs (R38, R104). -/
def Thread.inBody (t : Thread) : Bool :=
  t.looping && decide (t.lstart.toNat ≤ t.pc.toNat) && decide (t.pc.toNat ≤ t.lend.toNat)

/-- The loop buffer captures a word of the body as it is fetched (R38, R40). -/
def Thread.capture (t : Thread) (w : W32) : Thread :=
  if t.inBody then { t with loopBuf := tput t.loopBuf t.pc.toNat w } else t

/-- What fetching meets: the word, with what the fetch changed, or the step it ends in. -/
inductive Fetched where
  | word (w : W32) (s : State)
  | out (o : Out)

/-- The fetch of the focus thread's next word: the word already in flight (R19), the loop buffer (R38),
or the instruction cache, after translation (R74, R388). A word in device memory is a free value (log 3). -/
def fetch (s : State) : Fetched :=
  let t := s.th
  match t.held with
  | some w => .word w s
  | none =>
    match if t.inBody then tfind t.loopBuf t.pc.toNat else none with
    | some w => .word w { s with th := { t with held := some w } }
    | none =>
      match locateByte s .fetch t.pc with
      | .fault c a => .out (trap c a 4 s)
      | .walk ctx page =>
        .out (.next { walkRequest s (dieOf s.here) ctx page (.thread t.place) with
          th := { t with wait := .walk ctx page } })
      | .ok [.mem pa] s =>
        match findILine (s.core s.here).icache (pa / 64) (s.floors t).1 (s.floors t).2 with
        | none => .out (stall (.fetch (pa / 64)) s)
        | some l =>
          let w := l.words.getD (pa % 64 / 4) 0
          let core := s.core s.here
          .word w { s.setCore s.here { core with icache := iPut core.icache l } with
            th := { t.capture w with held := some w } }
      | .ok _ s =>
        let w := (Config.freeWord s.tick).setWidth 32
        .word w { s with tick := s.tick + 1, th := { t.capture w with held := some w } }

/-- The feature bits that the major of a word, or its engine, needs (R42). -/
def featOf (w : W32) : BitVec 6 :=
  let m := bits w 31 26
  if 0x18 ≤ m && m ≤ 0x1B then 2
  else if 0x20 ≤ m && m ≤ 0x27 then 4
  else if m = 0x2A then 8
  else if 0x30 ≤ m && m ≤ 0x32 then
    (if bits w 25 22 = 3 then 32 else if bits w 25 22 = 1 || bits w 25 22 = 2 then 16 else 1)
  else 1

/-- A word that decodes to no instruction: the cause of R74 that comes first. -/
def undecodable (w : W32) (e : DecodeError) (s : State) : Out :=
  if e = .reservedMajor then trap .illegalInstr (evalWord w) 0 s
  else if (s.core s.here).feat &&& featOf w ≠ featOf w then
    trap .featureAbsent (evalWord w) ((featOf w).setWidth 64) s
  else if e = .reservedEngine then
    if s.th.stat.pp then trap .illegalPrefix (evalWord w) (evalWord s.th.pfx) s
    else trap .engineFault (BitVec.ofNat 64 (bits w 25 22 * 256 + 0xFF)) (BitVec.ofNat 64 (bits w 7 0)) s
  else trap .illegalInstr (evalWord w) 0 s

/-- INSTRUCTION_FETCH_FILL (R388): the line that the thread at place ev.p waits for is read from its L2
slice, or from further out, and put into the core's instruction cache with its fill stamp. -/
def execInstructionFetchFill (s : State) : Out :=
  let t := s.threadAt s.ev.p
  match t.wait with
  | .fetch no =>
    let c := coreOf s.ev.p
    let s := l2Ensure s (dieOf c) no (s.l2Floor t) (List.range 64)
    let line := s.l2Line (dieOf c) no
    let core := s.core c
    let new : ILine := ⟨no, lineWords (line.usableL2 (s.l2Floor t)), s.clock, line.stamp⟩
    let s := s.setCore c { core with icache := iPut core.icache new }
    .next (s.setThreadAt s.ev.p { s.threadAt s.ev.p with wait := .none })
  | _ => .next s

/-- The focus thread about to issue: running, waiting for nothing, its program counter on the first bytes
of page 0 of physical memory through an entry of its core's micro TLB that allows fetching in both modes. -/
def placeWord (s : State) (w : W32) : State :=
  let t := s.th
  let pc := addrField t.pc
  let c := s.here
  let pa := pc.toNat % 65536
  let e : TlbEntry := ⟨t.ctx.toNat, .k64, pc.toNat / 65536, 0, true, true, false, true⟩
  let s := ((List.range 4).zip (bytesOfWord w)).foldl (fun s p => homePut s (pa + p.1) p.2) s
  let line : ILine := ⟨pa / 64, lineWords (homeLine s (pa / 64)), (s.floors t).1, (s.floors t).2⟩
  let core := s.core c
  { s.setCore c { core with icache := iPut core.icache line } with
    utlb := tput s.utlb c (e :: (tget [] s.utlb c).filter fun x => !x.maps t.ctx.toNat pc.toNat)
    lastSlot := tput s.lastSlot c ((t.place + 15) % 16)
    shutDown := false
    tiles := tput s.tiles (c / 4) { tget {} s.tiles (c / 4) with trip := false, point := 7 }
    th := { t with
      pc := pc, status := .running, wait := .none, phase := .fresh, held := none, yields := [], leftAt := 0
      walkFails := [], loopBuf := tdel t.loopBuf pc.toNat } }

end Sys2Proof.Machine
end

