-- ==== Sys2Proof/Machine/Sign.lean ====
section
/-!
DEFINITION. SHAKE256 (FIPS 202) and the verification of an ML-DSA-65 signature (FIPS 204), by which images, firmware and
debug tokens are judged (R367, R377 to R379). The two standards are named by the spec and not printed in it (log 16).
-/

namespace Sys2Proof.Machine

/-- A lane of a Keccak state, whose 25 lanes are numbered x + 5y (FIPS 202, 3.1). -/
def keccakLane (a : List Word) (x y : Nat) : Word := a.getD (x % 5 + 5 * (y % 5)) 0

/-- The rotation of each lane (FIPS 202, 3.2.2). -/
def rhoOffsets : List Nat :=
  [0, 1, 62, 28, 27, 36, 44, 6, 55, 20, 3, 10, 43, 25, 39, 41, 45, 15, 21, 8, 18, 2, 61, 56, 14]

/-- The round constants (FIPS 202, 3.2.5). -/
def roundConsts : List Word :=
  [0x0000000000000001, 0x0000000000008082, 0x800000000000808A, 0x8000000080008000, 0x000000000000808B,
   0x0000000080000001, 0x8000000080008081, 0x8000000000008009, 0x000000000000008A, 0x0000000000000088,
   0x0000000080008009, 0x000000008000000A, 0x000000008000808B, 0x800000000000008B, 0x8000000000008089,
   0x8000000000008003, 0x8000000000008002, 0x8000000000000080, 0x000000000000800A, 0x800000008000000A,
   0x8000000080008081, 0x8000000000008080, 0x0000000080000001, 0x8000000080008008]

/-- A list over the lanes. -/
def keccakLanes (f : Nat → Nat → Word) : List Word := (List.range 25).map fun i => f (i % 5) (i / 5)

/-- The steps of a round (FIPS 202, 3.2.1 to 3.2.5). -/
def keccakTheta (a : List Word) : List Word :=
  let c := (List.range 5).map fun x => (List.range 5).foldl (fun w y => w ^^^ keccakLane a x y) 0
  keccakLanes fun x y => keccakLane a x y ^^^ c.getD ((x + 4) % 5) 0 ^^^ (c.getD ((x + 1) % 5) 0).rotateLeft 1

/-- Rotation of the lanes, and the lanes in their new places. -/
def keccakRhoPi (a : List Word) : List Word :=
  keccakLanes fun x y =>
    let i := (x + 3 * y) % 5 + 5 * x
    (a.getD i 0).rotateLeft (rhoOffsets.getD i 0)

/-- The step that mixes the lanes of a row, and the round constant. -/
def keccakChiIota (rc : Word) (a : List Word) : List Word :=
  keccakLanes fun x y => keccakLane a x y ^^^ (~~~(keccakLane a (x + 1) y) &&& keccakLane a (x + 2) y) ^^^ if x + y = 0 then rc else 0

/-- Keccak-f[1600] (FIPS 202, 3.3). -/
def keccakF (a : List Word) : List Word :=
  roundConsts.foldl (fun a rc => keccakChiIota rc (keccakRhoPi (keccakTheta a))) a

/-- The bytes of the lanes, and the lanes of bytes. -/
def laneBytes (a : List Word) : List Byte := a.flatMap fun w => leBytes 8 w.toNat
def byteLanes (bs : List Byte) : List Word := (List.range 25).map fun i => BitVec.ofNat 64 (leNat ((bs.drop (8 * i)).take 8))

/-- Blocks of a message absorbed (FIPS 202, 4). -/
def absorb (rate : Nat) : Nat → List Word → List Byte → List Word
  | 0, a, _ => a
  | n + 1, a, bs =>
    absorb rate n (keccakF ((a.zip (byteLanes (bs.take rate))).map fun p => p.1 ^^^ p.2)) (bs.drop rate)

/-- Blocks of output (FIPS 202, 4). -/
def squeeze (rate : Nat) : Nat → List Word → List Byte
  | 0, _ => []
  | n + 1, a => (laneBytes a).take rate ++ squeeze rate n (keccakF a)

/-- A message padded for SHAKE to whole blocks (FIPS 202, 5.1, 6.2). -/
def shakePad (rate : Nat) (bs : List Byte) : List Byte :=
  let gap := rate - bs.length % rate
  bs ++ if gap = 1 then [0x9F] else 0x1F :: List.replicate (gap - 2) 0 ++ [0x80]

/-- n bytes of a SHAKE with a rate in bytes (FIPS 202, 6.2). -/
def shake (rate n : Nat) (bs : List Byte) : List Byte :=
  let p := shakePad rate bs
  (squeeze rate (n / rate + 1) (absorb rate (p.length / rate) (List.replicate 25 0) p)).take n

/-- SHAKE128 and SHAKE256. -/
def shake128 (n : Nat) (bs : List Byte) : List Byte := shake 168 n bs
def shake256 (n : Nat) (bs : List Byte) : List Byte := shake 136 n bs

/-- The 64-byte digest that R367, R377 and R378 name. -/
def digest (bs : List Byte) : List Byte := shake256 64 bs

/-- The modulus of ML-DSA (FIPS 204, 4). -/
def mlQ : Nat := 8380417

/-- The numbers of w bits each that bytes hold, least significant first (FIPS 204, 7.1). -/
def unpackBits (w n : Nat) (bs : List Byte) : List Nat :=
  (List.range n).map fun i => leNat ((bs.drop (w * i / 8)).take ((w + 14) / 8)) / 2 ^ (w * i % 8) % 2 ^ w

/-- A power modulo the modulus, of an exponent below 2^n. -/
def mlPow (x : Nat) : Nat → Nat → Nat
  | 0, _ => 1
  | n + 1, e => let r := mlPow (x * x % mlQ) n (e / 2); if e % 2 = 1 then r * x % mlQ else r

/-- The 8 bits of a number in the opposite order (FIPS 204, 7.5). -/
def bitRev8 (m : Nat) : Nat := (List.range 8).foldl (fun r k => 2 * r + m / 2 ^ k % 2) 0

/-- The point at which component i of a transform evaluates (FIPS 204, 2.5): 1753 to the power 2 BitRev8(i) + 1. -/
def mlPoint (i : Nat) : Nat := mlPow 1753 9 (2 * bitRev8 i + 1)

/-- A polynomial, lowest coefficient first, at a point. -/
def mlEval (p : List Nat) (x : Nat) : Nat := p.foldr (fun c a => (c + x * a) % mlQ) 0

/-- The number theoretic transform of a polynomial of 256 coefficients, and its inverse (FIPS 204, 2.5). -/
def mlNtt (p : List Nat) : List Nat := (List.range 256).map fun i => mlEval p (mlPoint i)
def mlInvNtt (v : List Nat) : List Nat :=
  let back := (List.range 256).map fun i => mlPow (mlPoint i) 23 (mlQ - 2)
  let cols := (List.range 256).foldl (fun (acc : List Nat × List Nat) _ =>
    (acc.1 ++ [(v.zip acc.2).foldl (fun a p => (a + p.1 * p.2) % mlQ) 0 * 8347681 % mlQ], (acc.2.zip back).map fun p => p.1 * p.2 % mlQ))
    ([], List.replicate 256 1)
  cols.1

/-- Transforms multiplied and added, component by component. -/
def mlMul (a b : List Nat) : List Nat := (a.zip b).map fun p => p.1 * p.2 % mlQ
def mlAdd (a b : List Nat) : List Nat := (a.zip b).map fun p => (p.1 + p.2) % mlQ

/-- An entry of the public matrix (FIPS 204, 7.3): triples of a SHAKE128 stream below the modulus, from the bytes that 298
tries take. -/
def mlMatrix (rho : List Byte) (r s : Nat) : List Nat :=
  let bs := shake128 894 (rho ++ [BitVec.ofNat 8 s, BitVec.ofNat 8 r])
  (((List.range 298).map fun i => leNat ((bs.drop (3 * i)).take 3) % 2 ^ 23).filter fun (c : Nat) => decide (c < mlQ)).take 256

/-- The first byte of a stream that is at most i, and the rest (FIPS 204, 7.3). -/
def byteUpTo (i : Nat) : List Byte → Nat × List Byte
  | [] => (0, [])
  | b :: bs => if b.toNat ≤ i then (b.toNat, bs) else byteUpTo i bs

/-- The challenge polynomial of a seed, with 49 coefficients of 1 or -1 (FIPS 204, 7.3). -/
def mlBall (seed : List Byte) : List Nat :=
  let bs := shake256 264 seed
  let signs := leNat (bs.take 8)
  ((List.range 49).foldl (fun (acc : List Nat × List Byte) k =>
    let i := 207 + k
    let (j, rest) := byteUpTo i acc.2
    ((acc.1.set i (acc.1.getD j 0)).set j (if signs / 2 ^ k % 2 = 1 then mlQ - 1 else 1), rest))
    (List.replicate 256 0, bs.drop 8)).1

/-- The high part of a coefficient with its hint used (FIPS 204, 7.4), for 16 steps of 523776. -/
def useHint (hint : Bool) (r : Nat) : Nat :=
  let low := r % 523776
  let r0 : Int := if 261888 < low then (low : Int) - 523776 else low
  let top := (r : Int) - r0 = 8380416
  let r1 := if top then 0 else ((r : Int) - r0).toNat / 523776
  let r0 := if top then r0 - 1 else r0
  if !hint then r1 else if 0 < r0 then (r1 + 1) % 16 else (r1 + 15) % 16

/-- The places of the hints of six polynomials, none when they are not well formed (FIPS 204, 7.1): 55 bytes of places and
six ends. -/
def mlHints (bs : List Byte) : Option (List (List Nat)) :=
  let y := bs.map (·.toNat)
  let ends := 0 :: (List.range 6).map fun i => y.getD (55 + i) 0
  let parts := (List.range 6).map fun i => (y.take (ends.getD (i + 1) 0)).drop (ends.getD i 0)
  let rising := fun (l : List Nat) => (l.zip (l.drop 1)).all fun p => decide (p.1 < p.2)
  if (List.range 6).all (fun i => decide (ends.getD i 0 ≤ ends.getD (i + 1) 0) && decide (ends.getD (i + 1) 0 ≤ 55)) &&
      parts.all rising && ((y.take 55).drop (ends.getD 6 0)).all (· == 0) then some parts
  else none

/-- Whether a signature of a message verifies under a public key, with an empty context (FIPS 204, 5.3, 6.3): ML-DSA-65. -/
def mldsaVerify (key message sig : List Byte) : Bool :=
  if key.length ≠ 1952 || sig.length ≠ 3309 then false
  else match mlHints (sig.drop 3248) with
  | none => false
  | some hints =>
    let rho := key.take 32
    let t1 := (List.range 6).map fun i => (unpackBits 10 256 ((key.drop (32 + 320 * i)).take 320)).map (· * 2 ^ 13 % mlQ)
    let seed := sig.take 48
    let zs := (List.range 5).map fun i => (unpackBits 20 256 ((sig.drop (48 + 640 * i)).take 640)).map fun (v : Nat) => (524288 : Int) - v
    let mu := shake256 64 (shake256 64 key ++ [0, 0] ++ message)
    let c := mlNtt (mlBall seed)
    let z := zs.map fun p => mlNtt (p.map fun (v : Int) => (v % (mlQ : Int)).toNat)
    let w := (List.range 6).flatMap fun i =>
      let az := (List.range 5).foldl (fun a j => mlAdd a (mlMul (mlMatrix rho i j) (z.getD j []))) (List.replicate 256 0)
      let ct := (mlMul c (mlNtt (t1.getD i []))).map fun v => (mlQ - v) % mlQ
      (mlInvNtt (mlAdd az ct)).zipIdx.map fun p => useHint ((hints.getD i []).contains p.2) p.1
    let packed := (List.range 768).map fun i => BitVec.ofNat 8 (w.getD (2 * i) 0 + 16 * w.getD (2 * i + 1) 0)
    (zs.all fun p => p.all fun (v : Int) => decide (v.natAbs < 524092)) && shake256 48 (mu ++ packed) == seed

end Sys2Proof.Machine
end

