-- ==== Sys2Proof/Machine/Jenlink.lean ====
section
/-!
DEFINITION. The messages of threads on Jenlink (R361 to R366): what they name, and how they leave and arrive.
-/

namespace Sys2Proof.Machine

/-- The rank a message goes to. -/
def Msg.dst : Msg → BitVec 24
  | .send c _ _ _ _ => BitVec.ofNat 24 (nbits c.toNat 38 24)
  | .chan c _ _ _ _ => BitVec.ofNat 24 (nbits c.toNat 38 24)
  | .ack d _ _ _ _ => d

/-- The rank a message comes from; an acknowledgement has none to be ordered by. -/
def Msg.src : Msg → Option (BitVec 24)
  | .send _ _ r _ _ => some r
  | .chan _ r _ _ _ => some r
  | .ack _ _ _ _ _ => none

/-- The endpoint a message was sent from (R303). -/
def Msg.node : Msg → Nat
  | .send _ _ _ _ n => n
  | .chan _ _ _ _ n => n
  | .ack _ _ n _ _ => n

/-- Whether a rank belongs to this package (R178). -/
def ownRank (s : State) (r : BitVec 24) : Bool := r.toNat / 65536 == s.pkgNo.toNat

/-- The send-buffer entry a message came from. -/
def Msg.entry : Msg → Option Nat
  | .send _ _ _ e _ => e
  | .chan _ _ _ e _ => some e
  | .ack _ _ _ _ _ => none

/-- The capability a message carries, or answers. -/
def Msg.cap : Msg → Word
  | .send c _ _ _ _ => c
  | .chan c _ _ _ _ => c
  | .ack _ _ _ c _ => c

/-- The payload that carries a message (R362): a send from a send buffer has a byte 1, and an acknowledgement names
the message that it answers (log 74). -/
def Msg.payload : Msg → List Byte
  | .send c v r e _ => Config.flitPayload 1 r.toNat c.toNat v.toNat (if e.isSome then [1] else [])
  | .chan c r p _ _ => Config.flitPayload 2 r.toNat c.toNat 0 p
  | .ack d none _ c b => Config.flitPayload 3 d.toNat c.toNat 0 (if b then [1] else [])
  | .ack d (some (_, sub)) _ c b => Config.flitPayload 3 d.toNat c.toNat sub.toNat (if b then [1] else [])

/-- The class of a message's flit (R362). -/
def Msg.flitClass : Msg → Nat
  | .ack _ _ _ _ _ => 2
  | _ => 1

/-- A message for another package leaves by its plane (R363); a request waits for its acknowledgement. -/
def sendOut (s : State) (m : Msg) : State :=
  let s := match m with
    | .ack _ _ _ _ _ => s
    | _ => { s with outbound := s.outbound ++ [m] }
  match planeFor s (m.dst.toNat % 65536) with
  | some j => transmit s j m.flitClass (m.dst.toNat / 65536) m.payload
  | none => s

/-- A message as a flit's payload gives it, from its parts and the port it came by. -/
def msgOfParts (j : Nat) (x : Nat × Nat × Nat × Nat × List Byte) : Option Msg :=
  let (kind, rank, cap, val, bytes) := x
  match kind with
  | 1 => some (.send (BitVec.ofNat 64 cap) (BitVec.ofNat 64 val) (BitVec.ofNat 24 rank) (if bytes.isEmpty then none else some 0) (8192 + j))
  | 2 => some (.chan (BitVec.ofNat 64 cap) (BitVec.ofNat 24 rank) bytes 0 (8192 + j))
  | 3 => some (.ack (BitVec.ofNat 24 rank) (if val = 0 then none else some (BitVec.ofNat 64 cap, BitVec.ofNat 8 val)) (8192 + j)
      (BitVec.ofNat 64 cap) (!bytes.isEmpty))
  | _ => none

end Sys2Proof.Machine
end

