-- ==== Sys2Proof/Machine/NetEvents.lean ====
section
/-!
DEFINITION. The network interfaces: register sends and channel messages examined at their target,
acknowledgements, and the transmission of a message (R175 to R183, R389).
-/

namespace Sys2Proof.Machine

/-- The die whose gazetteer slice holds a rank (R178). -/
def sliceOf (thr : Nat) : Nat := thr / 16384

/-- The endpoint a message is examined at (R178, R303): the core its target's gazetteer entry names, the slice itself
when no core holds the target, or the Jenlink port that carries it. -/
def Msg.goal (s : State) (m : Msg) : Nat :=
  let thr := m.dst.toNat % 65536
  if !ownRank s m.dst then 8192 + ((planeOf s thr).getD 0)
  else if (s.gazOf thr).st = .valid then coreOf (s.gazOf thr).place
  else 4096 + sliceOf thr

/-- Whether two messages must keep their order: those of one sender to one target (R175, R180), and those of one class
from one endpoint to another by the same gazetteer slice (R303). -/
def sameRoute (s : State) (a b : Msg) : Bool :=
  (a.src.isSome && a.src == b.src && a.dst == b.dst) ||
  (a.flitClass == b.flitClass && a.node == b.node && a.goal s == b.goal s &&
    sliceOf (a.dst.toNat % 65536) == sliceOf (b.dst.toNat % 65536))

/-- The survey whose thread holds a thread number (R171). -/
def holderOf (s : State) (thr : Nat) : Nat :=
  match (s.gazOf thr).st with
  | .absent => match savedOf s thr with
    | some (x, _) => x.surv
    | none => 0
  | _ => (s.threadAt (s.gazOf thr).place).party.surv.toNat

/-- What examining a message at its target's gazetteer entry gives (R176, R182): it waits in the network, finds no
room and waits in its sender's send buffer, goes into the hold buffer, is refused with a sub-cause, or is accepted
with the state that follows. -/
inductive Verdict where
  | wait
  | room
  | hold
  | refuse (sub : BitVec 8)
  | accept (s : State)

/-- The conditions that come before the register or ring (R176). -/
def examineEntry (s : State) (c : Word) (live absent : GazEntry → Verdict) : Verdict :=
  let thr := capThr c
  let g := s.gazOf thr
  if g.st = .dead then .refuse 3
  else if capCheck (s.keyOf (holderOf s thr)) c ≠ c.setWidth 16 then .refuse 4
  else if g.gen ≠ capGen c then .refuse 3
  else match g.st with
    | .inTransit => if (tget [] s.hold (sliceOf thr)).length < 64 then .hold else .wait
    | .absent => absent g
    | _ => live g

/-- A thread that sleeps or waits for an event is woken by an accepted arrival or a placed message (R187,
R250). -/
def Thread.wake (t : Thread) : Thread :=
  match t.wait with
  | .sleep _ => { t with wait := .none }
  | .wfi => { t with wait := .none }
  | _ => t

/-- A send meets a register of a live thread (R176). -/
def sendToReg (s : State) (place : Nat) (c v : Word) : Verdict :=
  let t := s.threadAt place
  let r := t.reg (capReg c)
  match r.sb with
  | .arrived => .refuse 1
  | .ready => .refuse 2
  | .pending => .refuse 2
  | .armed =>
    if capRights c = 2 && !r.ex then .refuse 2
    else
      let r := { r with val := v, sb := .arrived, ex := false, ra := capRights c == 3, pb := false }
      .accept (s.setThreadAt place (t.setReg (capReg c) r).wake)

/-- The record of a saved thread that accepted an arrival or a message: a SLEEP it was saved in is over (R187, R277). -/
def wakeSaved (s : State) (x : Saved) (i : Nat) : State :=
  let o := 0x200 + 0x800 * i + 0x2B0
  if x.word s o % 4 = 3 then x.write s o (leBytes 8 0) else s

/-- A send meets a register in a save record (R176, R280). -/
def sendToSaved (s : State) (x : Saved) (i : Nat) (c v : Word) : Verdict :=
  let base := 0x200 + 0x800 * i
  let at_ := base + 0x1D0 + capReg c
  let b := leNat (x.read s at_ 1)
  match b % 4 with
  | 3 => .refuse 1
  | 2 =>
    if capRights c = 2 && !nbit b 4 then .refuse 2
    else
      let b := 3 + (if capRights c = 3 then 4 else 0) + b / 32 * 32
      let s := x.write s (base + 8 * capReg c) (leBytes 8 v.toNat)
      .accept (wakeSaved (x.write s at_ (leBytes 1 b)) x i)
  | _ => .refuse 2

/-- A register send examined (R176). -/
def examineSend (s : State) (c v : Word) : Verdict :=
  examineEntry s c (fun g => sendToReg s g.place c v) fun _ =>
    match savedOf s (capThr c) with
    | some (x, i) => sendToSaved s x i c v
    | none => .refuse 3

/-- Where a message of L bytes goes in a ring of S bytes (R182): the new WPOS, where it is written, and
whether a skip header goes to the old WPOS; none while it must wait. -/
def ringPlace (wpos rpos size len : Nat) : Option (Nat × Nat × Bool) :=
  let used := (wpos + size - rpos) % size
  let room := size - 8 - used
  let end_ := size - wpos
  if len ≤ end_ && len ≤ room then some ((wpos + len) % size, wpos, false)
  else if end_ < len && end_ + len ≤ room then some (len, 0, true)
  else none

/-- The bytes of a message in a ring (R181): header and padded payload. -/
def msgImage (src : BitVec 24) (payload : List Byte) : List Byte :=
  let n := payload.length
  leBytes 8 (src.toNat * 2 ^ 40 + n * 2 ^ 16 + 1) ++ payload ++ List.replicate (msgBytes n - 8 - n) 0

/-- A skip header (R181). -/
def skipImage : List Byte := leBytes 8 2

/-- A message meets the ring of a live thread (R182). While INBOX.EN is 0 it waits (R33). -/
def chanToRing (s : State) (place : Nat) (src : BitVec 24) (payload : List Byte) : Verdict :=
  let t := s.threadAt place
  let size := t.ringSize
  let len := msgBytes payload.length
  if !t.inbox.en then .room
  else if size - 8 < len then .refuse 5
  else match ringPlace t.wpos.toNat t.rpos.toNat size len with
    | none => .room
    | some (wpos, pos, skip) =>
      let key := fun p => scratchKey (coreOf place) (t.inbox.base.toNat + p)
      let m := if skip then cputs s.scratch (key t.wpos.toNat) skipImage else s.scratch
      let s := { s with scratch := cputs m (key pos) (msgImage src payload) }
      .accept (s.setThreadAt place { t with wpos := BitVec.ofNat 16 wpos }.wake)

/-- Where a core section begins in an area, from the sizes of those before it (R278, R281). -/
def sectionAt (x : Saved) (s : State) : Nat → Nat
  | 0 => 0x200 + 0x800 * x.thrs.length
  | j + 1 => let o := sectionAt x s j; o + x.word s o

/-- A message meets the ring image of a saved thread (R182): the image is the scratchpad of the core the
thread's index was placed on (R9). -/
def chanToSaved (s : State) (x : Saved) (i : Nat) (src : BitVec 24) (payload : List Byte) : Verdict :=
  let base := 0x200 + 0x800 * i
  let inbox := x.word s (base + 0x210 + 8 * 11)
  let pos := x.word s (base + 0x210 + 8 * 12)
  let size := 256 * 2 ^ nbits inbox 32 4
  let len := msgBytes payload.length
  if !nbit inbox 63 then .room
  else if size - 8 < len then .refuse 5
  else match ringPlace (nbits pos 16 16) (nbits pos 0 16) size len with
    | none => .room
    | some (wpos, at_, skip) =>
      let ring := sectionAt x s (i / 16) + 0x12400 + nbits inbox 0 17
      let s := if skip then x.write s (ring + nbits pos 16 16) skipImage else s
      let s := x.write s (ring + at_) (msgImage src payload)
      .accept (wakeSaved (x.write s (base + 0x210 + 8 * 12) (leBytes 8 (wpos * 65536 + nbits pos 0 16))) x i)

/-- An inbox message examined (R182). -/
def examineChan (s : State) (c : Word) (src : BitVec 24) (payload : List Byte) : Verdict :=
  examineEntry s c (fun g => chanToRing s g.place src payload) fun _ =>
    match savedOf s (capThr c) with
    | some (x, i) => chanToSaved s x i src payload
    | none => .refuse 3

/-- The record of a saved thread without the message of a binding that is placed or refused (R280): those after it
move up. -/
def dropSaved (s : State) (x : Saved) (i : Nat) (c : Word) : State :=
  let base := 0x200 + 0x800 * i
  let n := x.word s (base + 0x2F0) % 16
  let caps := (List.range n).map fun k => x.word s (base + 0x380 + 16 * k)
  match caps.idxOf? c.toNat with
  | none => s
  | some k =>
    let rest := x.read s (base + 0x390 + 16 * k) (16 * (n - 1 - k)) ++ List.replicate 16 0
    x.write (x.write s (base + 0x380 + 16 * k) rest) (base + 0x2F0) (leBytes 8 (n - 1))

/-- A message of a binding that is placed or refused leaves its sender's send buffer (R180), on the sender's package:
at most one of a binding is on its way, the oldest of it. -/
def dropEntry (s : State) (r : BitVec 24) (c : Word) : State :=
  let g := s.gazOf (r.toNat % 65536)
  if !ownRank s r then s
  else match g.st with
  | .dead => s
  | .absent => match savedOf s (r.toNat % 65536) with
    | some (x, i) => dropSaved s x i c
    | none => s
  | _ =>
    let t := s.threadAt g.place
    s.setThreadAt g.place { t with sendBuf := t.sendBuf.eraseP fun x => x.sent && x.cap == c }

/-- A message without room goes back to its sender's send buffer, from which it is offered again (R182, R33): to that
of another package by Jenlink (log 74), to that of a thread that has ended or is saved nowhere, since there its
buffer is gone, or holds it in the record. -/
def backTo (s : State) (r : BitVec 24) (c : Word) : State :=
  let g := s.gazOf (r.toNat % 65536)
  match g.st with
  | .dead => s
  | .absent => s
  | _ =>
    let t := s.threadAt g.place
    s.setThreadAt g.place { t with sendBuf := t.sendBuf.map fun x => if x.sent && x.cap == c then { x with sent := false, tried := true } else x }

/-- The sender of a message told that it found no room. -/
def sendBack (s : State) (m : Msg) : State :=
  match m.src with
  | none => s
  | some r =>
    if ownRank s r then backTo s r m.cap
    else match planeFor s (r.toNat % 65536) with
      | some j => transmit s j 2 (r.toNat / 65536) (Config.flitPayload 8 r.toNat m.cap.toNat 0 [])
      | none => s

/-- The acknowledgement of a message on its way to its sender, a refusal with its sub-cause, and the message gone from
the sender's send buffer (R176, R180). -/
def acknowledge (s : State) (m : Msg) (sub : Option (BitVec 8)) (node : Nat) : State :=
  match m.src with
  | none => s
  | some r =>
    let s := { s with flight := s.flight ++ [.ack r (sub.map fun x => (m.cap, x)) node m.cap m.entry.isSome] }
    if m.entry.isSome then dropEntry s r m.cap else s

/-- A verdict carried out on a message taken from a queue of the network (R176): an acknowledgement goes
back to the sender's rank. -/
def settle (s kept : State) (m : Msg) (v : Verdict) : State :=
  let node := m.goal s
  match v with
  | .wait => kept
  | .room => sendBack s m
  | .hold =>
    let d := sliceOf (m.dst.toNat % 65536)
    { s with hold := tput s.hold d (tget [] s.hold d ++ [m]) }
  | .refuse sub => acknowledge s m (some sub) node
  | .accept s => acknowledge s m none node

/-- The messages of the network an event may take: those in flight, or the hold buffer of a slice. -/
def netList (s : State) (held : Bool) (die : Nat) : List Msg := if held then tget [] s.hold die else s.flight

/-- The state without a message of a list. -/
def netDrop (s : State) (held : Bool) (die k : Nat) : State :=
  if held then { s with hold := tput s.hold die ((tget [] s.hold die).eraseIdx k) }
  else { s with flight := s.flight.eraseIdx k }

/-- Whether a message of the lists may be examined: nothing of its route stands before it, held deliveries leave
their buffer in the order in which they entered it, once their target has left IN_TRANSIT, and no message overtakes a
held one of its sender to its target (R175, R176, R180, R303); while the target is IN_TRANSIT it joins that one in the
hold buffer, behind it. -/
def mayExamine (s : State) (held : Bool) (die k : Nat) (m : Msg) : Bool :=
  let l := netList s held die
  let d := sliceOf (m.dst.toNat % 65536)
  let moving := (s.gazOf (m.dst.toNat % 65536)).st == .inTransit
  if held then k == 0 && !moving
  else !(l.take k).any (sameRoute s m) && (moving || !(tget [] s.hold d).any fun x => x.src == m.src && x.dst == m.dst)

/-- A message ev.k of the flight list, or of slice ev.n's hold buffer when ev.yes, examined at its target;
one for another package goes to Jenlink (R363), or is refused as STALE while no plane carries it (R357,
R364). -/
def deliver (s : State) (f : Msg → Option Verdict) : State :=
  match (netList s s.ev.yes s.ev.n)[s.ev.k]? with
  | none => s
  | some m =>
    if !mayExamine s s.ev.yes s.ev.n s.ev.k m then s
    else
      match f m with
      | none => s
      | some v =>
        let out := netDrop s s.ev.yes s.ev.n s.ev.k
        if !ownRank s m.dst then
          if s.domainSet && (planeFor s (m.dst.toNat % 65536)).isSome then sendOut out m
          else settle out s m (.refuse 3)
        else settle (match v with
          | .accept t => t
          | _ => out) s m (match v with
          | .accept t => .accept (netDrop t s.ev.yes s.ev.n s.ev.k)
          | v => v)

/-- SEND_DELIVERY (R176): a register send, or a channel message bound to a register, is examined. -/
def execSendDelivery (s : State) : Out :=
  .next (deliver s fun m => match m with
    | .send c v _ _ _ => some (examineSend s c v)
    | _ => none)

/-- INBOX_PLACEMENT (R182): an inbox message is placed, waits for room, or is refused. -/
def execInboxPlacement (s : State) : Out :=
  .next (deliver s fun m => match m with
    | .chan c r p _ _ => some (examineChan s c r p)
    | _ => none)

/-- The refusal record with one more refusal (R179). -/
def addRefused (r : Option Refused) (cap : Word) (sub : BitVec 8) : Option Refused :=
  match r with
  | none => some ⟨cap, sub, 0⟩
  | some r => some { r with more := if r.more = 255 then 255 else r.more + 1 }

/-- An acknowledgement applied to a thread (R179). -/
def Thread.acknowledge (t : Thread) (refused : Option (Word × BitVec 8)) : Thread :=
  { t with
    sends := t.sends - 1
    refused := match refused with
      | some (c, sub) => addRefused t.refused c sub
      | none => t.refused }

/-- An acknowledgement applied to a save record (R179, R280). -/
def ackSaved (s : State) (x : Saved) (i : Nat) (refused : Option (Word × BitVec 8)) : State :=
  let o := 0x200 + 0x800 * i + 0x2B8
  let w := x.word s o
  let sends := nbits w 0 16 - 1
  match refused with
  | none => x.write s o (leBytes 8 (w - nbits w 0 16 + sends))
  | some (c, sub) =>
    if nbits w 16 8 = 0 then
      x.write (x.write s o (leBytes 8 (sends + sub.toNat * 65536))) (o + 8) (leBytes 8 c.toNat)
    else
      x.write s o (leBytes 8 (sends + nbits w 16 8 * 65536 + min 255 (nbits w 24 8 + 1) * 2 ^ 24))

/-- SEND_ACKNOWLEDGEMENT (R179): acknowledgement ev.k in flight reaches its sender, in whatever state the
gazetteer holds it; a rank that has ended absorbs nothing. -/
def execSendAcknowledgement (s : State) : Out :=
  match s.flight[s.ev.k]? with
  | some (.ack dst refused node cap buffered) =>
    let before := (s.flight.take s.ev.k).any (sameRoute s (.ack dst refused node cap buffered))
    let s' := { s with flight := s.flight.eraseIdx s.ev.k }
    if before then .next s
    else if !ownRank s' dst then .next (sendOut s' (.ack dst refused node cap buffered))
    else
      let s := s'
      let thr := dst.toNat % 65536
      let g := s.gazOf thr
      match g.st with
      | .dead => .next s
      | .valid => .next (s.setThreadAt g.place ((s.threadAt g.place).acknowledge refused))
      | .inTransit =>
        .next (s.setGaz thr { g with
          acks := g.acks + 1
          refused := match refused with
            | some (c, sub) => addRefused g.refused c sub
            | none => g.refused })
      | .absent =>
        match savedOf s thr with
        | some (x, i) => .next (ackSaved s x i refused)
        | none => .next s
  | _ => .next s

/-- The entry leaves IN_TRANSIT: what it absorbed is merged into the thread (R178). -/
def mergeAcks (s : State) (thr place : Nat) : State :=
  let g := s.gazOf thr
  let t := s.threadAt place
  let r := match t.refused, g.refused with
    | none, r => r
    | some a, some b => some { a with more := BitVec.ofNat 8 (min 255 (a.more.toNat + 1 + b.more.toNat)) }
    | some a, none => some a
  (s.setThreadAt place { t with sends := t.sends - g.acks, refused := r }).setGaz thr { g with acks := 0, refused := none }

/-- The message of a send buffer that is transmitted next: the oldest not yet sent that no earlier one of the same
binding precedes, so that those of one binding are placed in issue order (R180, R182). -/
def nextOut (ok : OutMsg → Bool) : List OutMsg → List OutMsg → Option OutMsg
  | _, [] => none
  | before, m :: ms => if !m.sent && !before.any (·.cap == m.cap) && ok m then some m else nextOut ok (before ++ [m]) ms

/-- Whether a message that came back for want of room would find it now (R182); of a ring on another package its
sender cannot tell. -/
def roomNow (s : State) (t : Thread) (m : OutMsg) : Bool :=
  !m.tried || m.cap.toNat / 2 ^ 54 % 256 ≠ s.pkgNo.toNat ||
    match examineChan s m.cap t.rank.logical (List.replicate m.len 0) with
    | .room => false
    | _ => true

/-- CHANNEL_TRANSMIT (R180): the interface of the thread at place ev.p reads the source bytes of its oldest
message that may go and transmits it; that of a thread being swapped out keeps them (R280). -/
def execChannelTransmit (s : State) : Out :=
  let t := s.threadAt s.ev.p
  match if t.halt then none else nextOut (roomNow s t) [] t.sendBuf with
  | none => .next s
  | some m =>
    let bytes := cgets s.scratch (scratchKey (coreOf s.ev.p) m.off) m.len
    let src := t.rank.logical
    let msg : Msg := if capKind m.cap = 1 then .send m.cap (BitVec.ofNat 64 (leNat bytes)) src (some m.id) (coreOf s.ev.p)
      else .chan m.cap src bytes m.id (coreOf s.ev.p)
    let t := { t with sendBuf := t.sendBuf.map fun x => if x.id = m.id then { x with sent := true } else x }
    .next { s.setThreadAt s.ev.p t with flight := s.flight ++ [msg] }

end Sys2Proof.Machine
end

