-- ==== Sys2Proof/Machine/Launch.lean ====
section
/-!
DEFINITION. Launch (R340 to R353): token writes, headers and their checks, the Surveyor's choice and
placement, the state at bind (R43, R44, R368), completion and its counters, and the queue commands.
-/

namespace Sys2Proof.Machine

/-- An MSI-X message (R360): the data of the host's table entry goes to its address, or, while the entry is masked, the
pending bit is set (log 79). -/
def HostPort.message (p : HostPort) : HostPort :=
  let ctl := p.vector.getD 1 0
  if ctl.getLsbD 32 then { p with pending := true }
  else { p with msix := p.msix ++ [(p.vector.getD 0 0, ctl &&& 0xFFFFFFFF)] }

/-- An interrupt cause rises in a host's ISTATUS; an enabled one that was clear sends an MSI-X message (R360). -/
def raiseCause (s : State) (host bit : Nat) : State :=
  let p : HostPort := tget {} s.hosts host
  let q := { p with istatus := p.istatus ||| BitVec.ofNat 64 (2 ^ bit) }
  let q := if !nbit p.istatus.toNat bit && nbit p.ienable.toNat bit then q.message else q
  { s with hosts := tput s.hosts host q }

/-- Seed tokens that follow a header (R343); SEEDMODE 3 is taken to bring none (log 41). -/
def headerSeeds (h : List Word) : Nat :=
  match nbits (recWord h 0) 9 2 with
  | 1 => 1
  | 2 => nbits (recWord h 1) 0 32 + 1
  | _ => 0

/-- A queue enters OVERRUN (R341); the survey whose tokens were arriving has lost some. -/
def overrun (s : State) (q cause : Nat) : State :=
  let x := s.queue q
  if x.overrun then s
  else
    let s := raiseCause (s.setQueue q { x with overrun := true, ovcause := cause, lost := decide (0 < x.expect) }) (q / 32) 5
    match x.active with
    | some sid =>
      let v := s.survey sid
      if 0 < x.expect && v.seedMode = 2 && x.fifo.length < v.nparty - v.bound then giveUp s sid 3 else s
    | none => s

/-- One token at a queue's port (R341, R342). -/
def acceptToken (q : Nat) (s : State) (t : List Word) : State :=
  let x := s.queue q
  if x.overrun then s
  else if x.unread then s.setQueue q { x with expect := x.expect - 1, unread := decide (1 < x.expect) }
  else if 64 ≤ x.fifo.length then overrun s q 1
  else s.setQueue q { x with fifo := x.fifo ++ [t], expect := if x.expect = 0 then headerSeeds t else x.expect - 1 }

/-- Bytes cut into words of eight, then tokens of eight words. -/
def wordList : Nat → List Byte → List Word
  | 0, _ => []
  | n + 1, bs => BitVec.ofNat 64 (leNat (bs.take 8)) :: wordList n (bs.drop 8)

/-- The tokens of n x 64 bytes. -/
def tokenList : Nat → List Byte → List (List Word)
  | 0, _ => []
  | n + 1, bs => wordList 8 (bs.take 64) :: tokenList n (bs.drop 64)

/-- Whether a posted write to a queue's window keeps the rules of the token port (R341). -/
def tokenWriteOk (off len : Nat) : Bool :=
  off % 64 == 0 && len % 64 == 0 && decide (0 < len) && decide (off + len ≤ 0x800)

/-- Whether a posted write addresses one of a queue's registers as a register (R340). -/
def queueRegister (off len : Nat) : Bool :=
  len == 8 && off % 8 == 0 && decide (0x800 ≤ off) && decide (off ≤ 0x820)

/-- LAUNCH_TOKEN_WRITE (R341): a posted write of ev.bytes at offset ev.k of the window of queue ev.n
(host x 32 + queue). -/
def execLaunchTokenWrite (s : State) : Out :=
  let n := s.ev.bytes.length
  if tokenWriteOk s.ev.k n then .next ((tokenList (n / 64) s.ev.bytes).foldl (acceptToken s.ev.n) s)
  else if queueRegister s.ev.k n then .next s
  else .next (overrun s s.ev.n 2)

/-- Threads a placement class can hold (R8). -/
def classLimit (cls : Nat) : Nat := if cls = 0 then 64 else if cls = 1 then 256 else 1024

/-- Cores of one unit of a placement class. -/
def unitCores (cls : Nat) : Nat := classLimit cls / 16

/-- The survey a header describes (R343). -/
def headerSurvey (q : Nat) (h : List Word) : Survey :=
  let w := recWord h
  { img := nbits (w 0) 20 16, nthr := nbits (w 0) 36 10 + 1, cls := nbits (w 0) 11 2, prio := nbits (w 0) 13 3
    fidmax := nbits (w 0) 16 2, seedMode := nbits (w 0) 9 2, runOnCancel := nbit (w 0) 8
    nparty := nbits (w 1) 0 32 + 1, ctxid := nbits (w 2) 18 16, cctr := nbits (w 2) 6 12
    req := BitVec.ofNat 6 (nbits (w 2) 0 6), cval := nbits (w 3) 0 48, queue := q
    deps := ((List.range 4).filter fun i => nbits (w (4 + i)) 62 2 ≠ 0).map fun i =>
      { kind := nbits (w (4 + i)) 62 2, ctr := nbits (w (4 + i)) 50 12, val := nbits (w (4 + i)) 0 48 } }

/-- Whether a header breaks check 2 of R344. -/
def headerMalformed (h : List Word) : Bool :=
  let w := recWord h
  nbits (w 0) 18 2 ≠ 0 || nbits (w 0) 46 18 ≠ 0 || nbits (w 1) 32 32 ≠ 0 || nbits (w 2) 34 30 ≠ 0 ||
  nbits (w 3) 48 16 ≠ 0 || nbits (w 0) 9 2 = 3 || nbits (w 0) 11 2 = 3 ||
  (List.range 4).any fun i => nbits (w (4 + i)) 48 2 ≠ 0 || nbits (w (4 + i)) 62 2 = 3

/-- Whether a core's FEAT holds a feature word (R42). -/
def hasFeat (s : State) (need : BitVec 6) (c : Nat) : Bool := (s.core c).feat &&& need == need

/-- The first failing check of a header (R344), 0 for none. -/
def headerCode (s : State) (h : List Word) : Nat :=
  let x := headerSurvey 0 h
  if nbits (recWord h 0) 0 8 ≠ 1 then 1
  else if headerMalformed h then 2
  else if classLimit x.cls < x.nthr then 3
  else match s.imageOf x.img with
    | none => 4
    | some im =>
      if im.removing then 4
      else if !(List.range 4096).any (hasFeat s (x.req ||| im.reqf)) then 5
      else if x.nthr ≠ im.vcores.length then 6
      else 0

/-- The lowest survey identifier no live survey holds (R32). -/
def freeSurvey (s : State) : Option Nat := (List.range 4096).find? fun k => (tfind s.surveys k).isNone

/-- A key for a refused survey until its completion: it holds no identifier. -/
def refusedKey (s : State) : Nat := 4096 + ((List.range 4096).find? fun k => (tfind s.surveys (4096 + k)).isNone).getD 0

/-- Whether the Surveyors bind (R375, R377). -/
def bindsNow (s : State) : Bool := !s.watchdog && !s.firmware.staged

/-- Whether a queue gives up its head token as a header now (R342, R352, R377): the shared seed block goes with it. -/
def headerReady (s : State) (q : Nat) : Bool :=
  let x := s.queue q
  !x.stopped && !x.killing && x.active.isNone && bindsNow s && (freeSurvey s).isSome &&
  match x.fifo with
  | [] => false
  | h :: rest => x.lost || headerSeeds h ≠ 1 || rest ≠ []

/-- HEADER_CONSUME (R342 to R344, R348): the header at the head of queue ev.n is checked, and the survey
refused or accepted; its capability key is drawn (R171) and its dependences are examined. -/
def execHeaderConsume (s : State) : Out :=
  let q := s.ev.n
  let x := s.queue q
  match x.fifo, freeSurvey s with
  | h :: rest, some sid =>
    if !headerReady s q then .next s
    else
      let v := headerSurvey q h
      let code := headerCode s h
      if code ≠ 0 || (x.lost && decide (rest.length < headerSeeds h)) then
        let x := { { x with fifo := rest }.dropSeeds (headerSeeds h) with
          nref := if code = 0 then x.nref else min (2 ^ 32 - 1) (x.nref + 1)
          code := if code = 0 then x.code else code }
        .next ((s.setQueue q x).setSurvey (refusedKey s) { v with nparty := 0, worst := 3, deps := [] })
      else
        let key := leBytes 8 (Config.freeWord s.tick).toNat ++ leBytes 8 (Config.freeWord (s.tick + 1)).toNat
        let (shared, rest) := if v.seedMode = 1 then (rest.headD [], rest.drop 1) else ([], rest)
        let s := { s with tick := s.tick + 2, launched := true }
        let s := s.setQueue q { x with fifo := rest, active := some sid }
        .next (examineDeps (s.setSurvey sid { v with key := key, shared := shared, since := s.clock }) sid)
  | _, _ => .next s

/-- Whether a survey is eligible (R347). -/
def eligible (s : State) (sid : Nat) : Bool :=
  let x := s.survey sid
  let q := s.queue x.queue
  q.active == some sid && !q.stopped && !q.killing && x.deps.all (·.met)

/-- AGEING_PROMOTION (R349): eligible survey ev.n has waited LIMIT microseconds. -/
def execAgeingPromotion (s : State) : Out :=
  let x := s.survey s.ev.n
  if eligible s s.ev.n && (s.queue x.queue).limit ≠ 0 && micros (s.queue x.queue).limit ≤ elapsed s x.since then
    .next (s.setSurvey s.ev.n { x with age := x.age + 1, since := s.clock })
  else .next s

/-- The effective priority of a survey (R349). -/
def Survey.level (x : Survey) : Nat := min 7 (x.prio + x.age)

/-- The candidates in the order of R349: by level, and within one round-robin after the queue served last. -/
def bindOrder (s : State) : List Nat :=
  ((List.range 8).map (7 - ·)).flatMap fun lv =>
    ((List.range 64).map fun k => (tget 63 s.bindServed lv + 1 + k) % 64).filterMap fun q =>
      match (s.queue q).active with
      | some sid => if eligible s sid && (s.survey sid).level = lv then some sid else none
      | none => none

/-- Whether a core is free for a placement (R349, R372). -/
def coreFree (s : State) (need : BitVec 6) (c : Nat) : Bool :=
  hasFeat s need c && (tget {} s.opreq c).req != 0 && (List.range 16).all fun k => (tget {} s.plat (c * 16 + k)).st == .free

/-- The placement cores for n threads of a class (R8, R349), lowest cluster, unit and cores first. -/
def findPlacement (s : State) (need : BitVec 6) (cls n : Nat) : Option (List Nat) :=
  let size := unitCores cls
  let c := (n + 15) / 16
  (List.range (4096 / size)).findSome? fun u =>
    let free := ((List.range size).map (u * size + ·)).filter (coreFree s need)
    if c ≤ free.length then some (free.take c) else none

/-- The placement of a survey's next party, none while its seed block has not arrived (R343) or nothing is free. -/
def placementFor (s : State) (sid : Nat) : Option (List Nat) :=
  let x := s.survey sid
  match s.imageOf x.img with
  | none => none
  | some im =>
    if x.seedMode = 2 && (s.queue x.queue).fifo = [] then none else findPlacement s (x.req ||| im.reqf) x.cls x.nthr

/-- The survey that binds next with its placement (R349): a candidate that does not fit is passed over, and
one of level 7 keeps every lower level from binding. -/
def chooseBind (s : State) : Bool → List Nat → Option (Nat × List Nat)
  | _, [] => none
  | blocked, sid :: rest =>
    if blocked && (s.survey sid).level != 7 then none
    else match placementFor s sid with
      | some cores => some (sid, cores)
      | none => chooseBind s (blocked || (s.survey sid).level == 7) rest

/-- Whether a thread number is held: by a live or absent thread, or by a record of the plat (R10). -/
def rankUsed (s : State) (thr : Nat) : Bool :=
  (s.gazOf thr).st != .dead || s.plat.any fun x =>
    (x.2.st == .bind || x.2.st == .run || x.2.st == .stop) && x.2.rank.toNat % 65536 == thr

/-- The n lowest free thread numbers from one upwards; the fuel bounds the search (R10). -/
def freeRanks (s : State) : Nat → Nat → Nat → List Nat
  | _, _, 0 => []
  | 0, _, _ => []
  | fuel + 1, thr, n + 1 =>
    if rankUsed s thr then freeRanks s fuel (thr + 1) (n + 1) else thr :: freeRanks s fuel (thr + 1) n

/-- The plat records of a party (R350, R351): BIND for its threads, HELD for the slots left over (R8). -/
def bindRecords (s : State) (sid : Nat) (cores thrs : List Nat) (seed : List Word) : Table Plat :=
  let x := s.survey sid
  let im := (s.imageOf x.img).getD {}
  (List.range (cores.length * 16)).foldl (fun t i =>
    let place := cores.getD (i / 16) 0 * 16 + i % 16
    if x.nthr ≤ i then tput t place { st := .held }
    else
      let thr := thrs.getD i 0
      tput t place
        { st := .bind, gen := (s.gazOf thr).gen + 1, rank := BitVec.ofNat 24 (s.pkgNo.toNat * 65536 + thr)
          surv := sid, cls := x.cls, tidx := i, pidx := x.bound, nthr := x.nthr - 1, img := x.img
          pc := (im.vcores.map (·.entry)).getD i 0, seed := if i = 0 then seed else [] }) s.plat

/-- PARTY_BIND (R349, R350): the primary Surveyor binds one party of the candidate it chooses. -/
def execPartyBind (s : State) : Out :=
  match if bindsNow s then chooseBind s false (bindOrder s) else none with
  | none => .next s
  | some (sid, cores) =>
    let x := s.survey sid
    let q := s.queue x.queue
    let thrs := freeRanks s 65536 0 x.nthr
    if thrs.length < x.nthr then .next s
    else
      let seed := if x.seedMode = 1 then x.shared else if x.seedMode = 2 then q.fifo.headD [] else []
      let pid := sid * 2 ^ 32 + x.bound
      let s := { s with
        plat := bindRecords s sid cores thrs seed
        bindServed := tput s.bindServed x.level x.queue }
      let s := s.setParty pid
        { surv := sid, pidx := x.bound, nthr := x.nthr, cls := x.cls, cores := cores, boundAt := s.clock }
      let s := s.setQueue x.queue { q with
        fifo := if x.seedMode = 2 then q.fifo.drop 1 else q.fifo
        active := if x.nparty ≤ x.bound + 1 then none else q.active }
      .next (s.setSurvey sid { x with bound := x.bound + 1, since := s.clock })

/-- A ring of a receiving thread: the thread's index, where the ring begins, and its SIZE (R368). -/
structure Ring where
  tidx : Nat
  base : Nat
  size : Nat
  deriving DecidableEq, Repr

/-- The rings of the receiving threads of one core (R368): each after the one before, aligned to its size. -/
def ringLayout (chans : List Channel) : Nat → List Nat → List Ring
  | _, [] => []
  | off, i :: rest =>
    match chans.find? fun c => c.inbox && c.receiver == i with
    | none => ringLayout chans off rest
    | some c =>
      let size := 256 * 2 ^ c.field
      let base := (off + size - 1) / size * size
      ⟨i, base, c.field⟩ :: ringLayout chans (base + size) rest

/-- The threads of one placement core, by party-relative index (R9). -/
def coreIndexes (n j : Nat) : List Nat := (List.range 16).filterMap fun k => if 16 * j + k < n then some (16 * j + k) else none

/-- LMSPLIT of a placement core: the largest of its virtual cores (R368). -/
def coreSplit (im : Image) (n j : Nat) : Nat :=
  ((coreIndexes n j).map fun i => (im.vcores.map (·.lmsplit)).getD i 0).foldl max 0

/-- The rings of placement core j of an image. -/
def coreRings (im : Image) (n j : Nat) : List Ring := ringLayout im.channels (8 * im.channels.length) (coreIndexes n j)

/-- A thread as dispatch initialises it (R43). An entry offset of the image that is no multiple of 4 loses its two low
bits here (DESIGN CHOICE, log 87: R64 does not say what becomes of it). -/
def bindThread (s : State) (x : Survey) (im : Image) (place : Nat) (p : Plat) : Thread :=
  let seeded := (List.range 8).foldl (fun (t : Thread) k =>
    t.setReg (k + 1) { val := p.seed.getD k 0 }) { place := place, pid := p.surv * 2 ^ 32 + p.pidx }
  let seeded := seeded.setReg 9 { val := BitVec.ofNat 64 p.tidx }
  let ring := (coreRings im x.nthr (p.tidx / 16)).find? (·.tidx == p.tidx)
  { seeded with
    status := .running
    pc := addrField (BitVec.ofNat 64 p.pc)
    tvec := addrField (BitVec.ofNat 64 (((im.vcores.map (·.trapEntry)).getD p.tidx none).getD 0))
    reqf := im.reqf
    fidmax := BitVec.ofNat 2 x.fidmax
    rank := { gen := p.gen, pkg := BitVec.ofNat 8 (p.rank.toNat / 65536), thr := BitVec.ofNat 16 p.rank.toNat }
    party := { pidx := BitVec.ofNat 32 p.pidx, surv := BitVec.ofNat 12 p.surv,
               tidx := BitVec.ofNat 10 p.tidx, nthr := BitVec.ofNat 10 p.nthr }
    ctx := BitVec.ofNat 16 x.ctxid
    inbox := match ring with
      | some r => { en := true, size := BitVec.ofNat 4 r.size, base := BitVec.ofNat 17 r.base }
      | none => {}
    srvtab := Vector.ofFn fun i =>
      let b := im.selectors.getD i.val (false, 0)
      if b.1 then { v := true, img := BitVec.ofNat 16 x.img, sidx := BitVec.ofNat 4 b.2 } else {}
    pfloor := s.clock
    lfloor := s.clock }

/-- A placement core cleared for a new party (R43, R44, R380): scratchpad size and zeroes, pooling off, handle
tables and engine contexts, slot 15 as the slot that issued last. -/
def clearCore (s : State) (c split : Nat) : State :=
  let s := setGpool (setLmsplit s c (BitVec.ofNat 4 split)) c false
  let s := s.setCore c { s.core c with handles := [], ctxs := [] }
  { s with
    lastSlot := tput s.lastSlot c 15
    scratch := s.scratch.filter fun x => x.1 / 2 ^ 17 != c
    scratchPoison := s.scratchPoison.filter fun k => k * 8 / 2 ^ 17 != c }

/-- The binding of a channel (R368): a capability of its receiver, in the sender's core. -/
def placeChannel (s : State) (p : Party) (ch : Channel) (c : Nat) : State :=
  let r := s.threadAt (p.cores.getD (ch.receiver / 16) 0 * 16 + ch.receiver % 16)
  let cap := mintCap s r (if ch.inbox then 2 else 1) ch.field 1
  let key := scratchKey (p.cores.getD (ch.sender / 16) 0) (8 * c)
  { s with scratch := cputs s.scratch key (leBytes 8 cap.toNat) }

/-- The 16 launch seed tokens of a party (R319). -/
def seedBurst (seed : List Word) : List Token :=
  (List.range 16).map fun i =>
    let w := (seed.getD (i / 2) 0).toNat
    { data := BitVec.ofNat 32 (if i % 2 = 0 then w else w / 2 ^ 32), mark := if i = 15 then 3 else 0 }

/-- A graph region with SEEDIN asked for and offered its seed tokens (R319). -/
def seedRegion (s : State) (pid cl img ridx surv ctxid place : Nat) (words : List Word) (seed : List Word) : State :=
  if !(recGraph words && nbit (recWord words 0) 26) then s
  else
    let c := s.cluster cl
    let toks := seedBurst seed
    match regionFor c img ridx surv with
    | some k =>
      match tfind c.regions k with
      | some r => s.setCluster cl { c with regions := tput c.regions k (offerSeeds r [(pid, toks)]) }
      | none => s
    | none =>
      if c.reqs.any fun q => q.img == img && q.ridx == ridx && q.surv == surv then
        s.setCluster cl { c with reqs := c.reqs.map fun q =>
          if q.img = img && q.ridx = ridx && q.surv = surv then { q with seeds := q.seeds ++ [(pid, toks)] } else q }
      else s.setCluster cl (requestRegion c
        { img := img, ridx := ridx, surv := surv, owner := some pid, ctxid := ctxid, place := place, seeds := [(pid, toks)] })

/-- The places of a party's threads, in party-relative order, as dispatch lays them (R9). -/
def Party.places (p : Party) : List Nat := (List.range p.nthr).filterMap fun i => (p.cores[i / 16]?).map fun c => c * 16 + i % 16

/-- Whether every record of a party is written and committed (R351). -/
def partyCommitted (s : State) (pid : Nat) : Bool :=
  match tfind s.parties pid with
  | none => false
  | some p => p.cores != [] && !p.killed && p.places.all fun k => (tget {} s.plat k).st == .bind

/-- One thread starts: its record, its gazetteer entry VALID, its plat entry RUN (R351). -/
def startThread (x : Survey) (im : Image) (s : State) (place : Nat) : State :=
  let p : Plat := tget {} s.plat place
  let s := s.setThreadAt place (bindThread s x im place p)
  let s := s.setGaz (p.rank.toNat % 65536) { st := .valid, gen := p.gen, place := place }
  setPlat s place .run

/-- DISPATCH_START (R43, R351, R368, R319): party ev.n, whose records stand, is initialised and starts. -/
def execDispatchStart (s : State) : Out :=
  let pid := s.ev.n
  if !partyCommitted s pid then .next s
  else
    let p := s.party pid
    let x := s.survey p.surv
    let im := (s.imageOf x.img).getD {}
    let seed := (tget {} s.plat (p.places.headD 0)).seed
    let s := (List.range p.cores.length).foldl (fun s j => clearCore s (p.cores.getD j 0) (coreSplit im p.nthr j)) s
    let s := p.places.foldl (startThread x im) (s.setParty pid { p with started := true })
    let s := (List.range im.channels.length).foldl (fun s c =>
      match im.channels[c]? with
      | some ch => placeChannel s p ch c
      | none => s) s
    let cl := clusterOf (p.cores.headD 0)
    .next ((List.range im.regions.length).foldl (fun s k =>
      seedRegion s pid cl x.img k p.surv x.ctxid (p.places.headD 0) (im.regions.getD k []) seed) s)

/-- An image entry freed: its generation rises, wrapping from 15 to 1 (R358), and its cached records go,
but for those of regions still there (R316). -/
def freeImage (s : State) (idx : Nat) : State :=
  let im : Image := tget {} s.images idx
  let handle := im.gen * 4096 + idx
  { s with
    images := tput s.images idx { gen := if im.gen = 15 then 1 else im.gen + 1 }
    clusters := s.clusters.map fun c => (c.1, { c.2 with
      cfg := c.2.cfg.filter fun e => !(e.img == handle && !c.2.regions.any fun r => r.2.img == e.img && r.2.ridx == e.ridx) }) }

/-- Whether a live survey names an image handle (R358). -/
def imageInUse (s : State) (handle : Nat) : Bool := s.surveys.any fun x => x.2.img == handle && x.2.nparty != 0

/-- An image marked for removal goes when the last of its surveys has ended (R358). -/
def settleImage (s : State) (handle : Nat) : State :=
  match s.imageOf handle with
  | some im => if im.removing && !imageInUse s handle then freeImage s (handle % 4096) else s
  | none => s

/-- The place of a party's thread by index, while it holds one. -/
def placeOfIndex (s : State) (pid i : Nat) : Option Nat :=
  let p := s.party pid
  (p.cores.flatMap fun c => (List.range 16).map (c * 16 + ·)).find? fun k =>
    let t := s.threadAt k
    t.status != .free && t.pid == pid && t.party.tidx.toNat == i

/-- A thread of a killed party ends wherever it stands (R353): its serve call's result is discarded. -/
def killThread (pid : Nat) (s : State) (i : Nat) : State :=
  match placeOfIndex s pid i with
  | some k =>
    let t := s.threadAt k
    let s := { s with escal := s.escal.filter (·.place != k) }
    if t.status = .ended then s else endPlace (s.setThreadAt k { t with srvCall := none, late := [], migReq := false, moving := false }) k
  | none =>
    let p := s.party pid
    s.setParty pid { p with gone := sadd p.gone i }

/-- What a kill does to a command (R353): one that has not started is cancelled; a FAB command or a copy into a
scratchpad is abandoned; a PLANE or GATHER command and a copy into memory run to their end. -/
def killCommand (pid n k : Nat) (s : State) (c : Cmd) : State :=
  if c.pid ≠ pid || c.done || c.ended.isSome || c.code = 31 then s
  else if !c.started then endCommand s n k c { code := 7 }
  else if 12 ≤ k then
    let cl := clusterOf n
    let x := s.cluster cl
    let s := s.setCluster cl { x with regions := x.regions.map fun r =>
      (r.1, { r.2 with offers := r.2.offers.filter fun o => o.cmd != some (n, k, c.num) }) }
    endCommand s n k c { code := 7 }
  else if k < 4 && !c.landed && (c.dst ≠ 0 || inWindow (tget 0 c.regs 1).toNat) then endCommand s n k c { code := 7 }
  else s

/-- What a kill does to the commands of one core. -/
def killCommands (pid : Nat) (s : State) (n : Nat) : State :=
  (s.core n).ctxs.foldl (fun s x => x.2.queue.foldl (fun s c =>
    match s.cmd n x.1 c.num with
    | some c => killCommand pid n x.1 s c
    | none => s) s) s

/-- What a kill does to the regions of a party (R353): those it owns are asked to stop, from now on, and its requests
go, but for those that others have joined (R317). -/
def killRegions (s : State) (pid : Nat) : State :=
  { s with clusters := s.clusters.map fun c => (c.1, { c.2 with
      reqs := c.2.reqs.filterMap fun q => if q.owner = some pid then q.goesOn s c.1 (some pid) else some q
      regions := c.2.regions.map fun r => (r.1, if r.2.owner = some pid then { r.2 with asked := true, askedAt := s.clock } else r.2) }) }

/-- A party is killed (R272, R353): threads, commands, regions, a save area, and a stop under way (R289). -/
def killParty (s : State) (pid : Nat) (cancelled : Bool) : State :=
  let p := s.party pid
  let s := s.setParty pid { p with cancelled := p.cancelled || cancelled, killed := true }
  let s := match tfind s.savedAreas pid with
    | some a => { (a.thrs.filter (· < 65536)).foldl (fun (s : State) thr => s.setGaz thr (s.gazOf thr).ended) s with
        savedAreas := tdel s.savedAreas pid
        plat := a.restoring.foldl (fun t c => (List.range 16).foldl (fun t k => tdel t (c * 16 + k)) t) s.plat }
    | none => s
  let s := (List.range p.nthr).foldl (killThread pid) { s with stops := tdel s.stops pid }
  let s := p.places.foldl (fun s k => if (tget {} s.plat k).st = .bind then setPlat s k .stop else s) s
  let s := p.cores.foldl (killCommands pid) (killRegions s pid)
  settleParty s pid

/-- Whether regions of a killed survey's parties still stand (R353). -/
def killedRegions (s : State) (sid : Nat) : Bool :=
  s.clusters.any fun c => c.2.regions.any fun r =>
    r.2.asked && match r.2.owner with
      | some pid => pid / 2 ^ 32 == sid
      | none => false

/-- The surveys of a queue that the queue has given up and that have not ended. -/
def queueSurveys (s : State) (q : Nat) : List Nat := (s.surveys.filter fun x => x.2.queue == q).map (·.1)

/-- One survey killed (R353). -/
def killSurvey (s : State) (sid : Nat) : State :=
  let s := giveUp s sid 2
  let s := s.setSurvey sid { s.survey sid with killed := true }
  ((s.parties.filter fun p => p.2.surv == sid).map (·.1)).foldl (fun s pid => killParty s pid true) s

/-- A queue command (R352): 1 QSTOP, 2 QSTART, 3 QKILL, 4 QRESET; while a kill is in progress it waits. -/
def launchCmd (q : Nat) (s : State) (c : Nat) : State :=
  let x := s.queue q
  if x.killing then s.setQueue q { x with cmds := x.cmds ++ [c] }
  else if c = 1 then s.setQueue q { x with stopped := true }
  else if c = 2 then
    let s := s.setQueue q { x with stopped := false }
    match x.active with
    | some sid => s.setSurvey sid { s.survey sid with since := s.clock }
    | none => s
  else if c = 3 then
    let ks := queueSurveys s q
    ks.foldl killSurvey (s.setQueue q { x with stopped := true, killing := ks != [] })
  else if c = 4 then
    if x.stopped && x.active.isNone then
      s.setQueue q { x with fifo := [], overrun := false, ovcause := 0, nref := 0, code := 0, expect := 0
                            lost := false, unread := false }
    else s
  else s

/-- A queue's kill ends with the last of its killed surveys; the commands that waited follow (R352). -/
def finishKill (s : State) (q : Nat) : State :=
  let x := s.queue q
  if x.killing && !s.surveys.any fun v => v.2.queue == q && v.2.killed then
    x.cmds.foldl (launchCmd q) (s.setQueue q { x with killing := false, cmds := [] })
  else s

/-- Whether a survey is complete, cancelled or refused to its end (R12, R346, R353). -/
def surveyOver (s : State) (sid : Nat) : Bool :=
  match tfind s.surveys sid with
  | none => false
  | some x => decide (x.nparty ≤ x.ended) && (s.queue x.queue).active != some sid && !(x.killed && killedRegions s sid)

/-- SURVEY_COMPLETION (R346): survey ev.n is over: WORST is merged, then TRIG and VAL rise; its identifier,
its regions' claim on it, an image marked for removal and a kill of its queue are settled. -/
def execSurveyCompletion (s : State) : Out :=
  let sid := s.ev.n
  if !surveyOver s sid then .next s
  else
    let x := s.survey sid
    let c := s.counter x.cctr
    let s := { s.setCounter x.cctr { c with worst := max c.worst x.worst } with
      surveys := tdel s.surveys sid
      clusters := s.clusters.map fun k => (k.1, { k.2 with
        reqs := k.2.reqs.filter (·.surv != sid)
        regions := k.2.regions.map fun r => (r.1, if r.2.surv = sid then { r.2 with surv := 4096 } else r.2) }) }
    let s := raiseCounter s x.cctr x.cval x.cval
    .next (finishKill (settleImage s x.img) x.queue)

/-- QSTOP (R352) of queue ev.n. -/
def execQstop (s : State) : Out := .next (launchCmd s.ev.n s 1)

/-- QSTART (R352) of queue ev.n. -/
def execQstart (s : State) : Out := .next (launchCmd s.ev.n s 2)

/-- QKILL (R352, R353) of queue ev.n. -/
def execQkill (s : State) : Out := .next (launchCmd s.ev.n s 3)

/-- QRESET (R352) of queue ev.n. -/
def execQreset (s : State) : Out := .next (launchCmd s.ev.n s 4)

/-- KILL_REGION_TIMEOUT (R353): region ev.k of cluster ev.n, whose party was killed 100 µs ago, stops where it is. -/
def execKillRegionTimeout (s : State) : Out :=
  match s.region s.ev.n s.ev.k with
  | none => .next s
  | some r => .next (if r.asked && r.orphan s && micros 100 ≤ elapsed s r.askedAt then dropRegion s s.ev.n s.ev.k else s)

/-- LVAL_WRITE (R345): a host raises VAL of counter ev.k to ev.v. -/
def execLvalWrite (s : State) : Out := .next (raiseCounter s s.ev.k 0 (nbits s.ev.v.toNat 0 48))

/-- LTRIG_WRITE (R345): a host raises TRIG of counter ev.k to ev.v. -/
def execLtrigWrite (s : State) : Out := .next (raiseCounter s s.ev.k (nbits s.ev.v.toNat 0 48) 0)

/-- LSTAT_WRITE (R345): a host write clears WORST of counter ev.k, and the next trap is recorded anew. -/
def execLstatWrite (s : State) : Out :=
  .next (s.setCounter s.ev.k { s.counter s.ev.k with worst := 0, seen := false })

end Sys2Proof.Machine
end

