-- ==== Sys2Proof/Machine/Save.lean ====
section
/-!
DEFINITION. The save area (R278 to R282): the layout of its header, thread records, core sections, contour
section and fabric sections, as bytes written and as bytes read back.
-/

namespace Sys2Proof.Machine

/-- Words as little-endian bytes. -/
def wordsBytes (ws : List Nat) : List Byte := ws.flatMap (leBytes 8)

/-- A part padded with zero bytes to a size. -/
def padTo (n : Nat) (bs : List Byte) : List Byte := bs ++ List.replicate (n - bs.length) 0

/-- A size rounded up to the next 64-byte boundary (R278). -/
def round64 (n : Nat) : Nat := (n + 63) / 64 * 64

/-- Bytes taken from a part. -/
def cut (bs : List Byte) (off n : Nat) : List Byte := (bs.drop off).take n

/-- A word taken from a part. -/
def cutWord (bs : List Byte) (off : Nat) : Nat := leNat (cut bs off 8)

/-- The code of a scoreboard state (R26). -/
def Sb.code : Sb → Nat
  | .ready => 0 | .pending => 1 | .armed => 2 | .arrived => 3

/-- The scoreboard state of a code. -/
def Sb.ofCode (n : Nat) : Sb :=
  match n with
  | 0 => .ready | 1 => .pending | 2 => .armed | _ => .arrived

/-- The scoreboard byte of a register (R280). -/
def Reg.sbByte (r : Reg) : Nat :=
  r.sb.code + r.ra.toNat * 4 + r.pb.toNat * 8 + r.ex.toNat * 16 +
    (match r.aq with
     | none => 0
     | some sc => (sc.code + 1) * 32)

/-- A register from its value and its scoreboard byte; what a poisoned one reports is not in the record. -/
def Reg.ofSave (v b : Nat) (report : Word × Word) : Reg :=
  { val := BitVec.ofNat 64 v, sb := Sb.ofCode (b % 4), ra := nbit b 2, pb := nbit b 3, ex := nbit b 4
    aq := if b / 32 % 8 = 0 then none else Scope.ofCode (b / 32 % 8 - 1)
    pAddr := if nbit b 3 then report.1 else 0, pPc := if nbit b 3 then report.2 else 0 }

/-- Whether the instruction a thread is inside is a BAR. -/
def Thread.inBar (t : Thread) : Bool :=
  match t.held.map decode with
  | some (.ok .bar) => true
  | _ => false

/-- The WAIT word of a record and the thread whose pc is recorded (R277): an instruction that has done its work
is recorded as completed. -/
def Thread.waitRecord (t : Thread) (clock : Nat) : Thread × Nat :=
  match t.phase, t.wait with
  | .sent, _ => (t.complete, 2)
  | .resumed, _ => (t, 2)
  | .arrived _, _ => (t, 1)
  | .acquired, _ => (t, if t.inBar then 1 else 0)
  | _, .sleep d => (t, 3 + (d - clock) % 2 ^ 32 * 2 ^ 32)
  | _, _ => (t, 0)

/-- The words 0x2B8 and 0x2C0 of a record (R179, R280). -/
def Thread.sendWords (t : Thread) : List Nat :=
  match t.refused with
  | none => [t.sends % 65536, 0]
  | some r => [t.sends % 65536 + r.sub.toNat * 65536 + r.more.toNat * 2 ^ 24, r.cap.toNat]

/-- A vector register's 128 bytes. -/
def vecBytes (v : Vector W32 32) : List Byte := v.toList.flatMap fun w => leBytes 4 w.toNat

/-- A thread record, 0x800 bytes (R280). -/
def threadRecord (t0 : Thread) (clock : Nat) : List Byte :=
  let (t, wait) := t0.waitRecord clock
  let regs := t.regs.toList
  padTo 0x800 <| padTo 0x400
    (wordsBytes (regs.map fun r => r.val.toNat) ++ wordsBytes [t.z0.toNat, t.z1.toNat] ++
     padTo 64 (regs.map fun r => BitVec.ofNat 8 r.sbByte) ++
     wordsBytes [t.pc.toNat, t.stat.word.toNat, t.sstat.word.toNat, t.ecause.toNat, t.epc.toNat, t.eval1.toNat,
       t.eval2.toNat, t.tvec.toNat, t.hscr.toNat, t.reqf.toNat, t.ctx.toNat, t.inbox.word.toNat,
       t.wpos.toNat * 65536 + t.rpos.toNat, t.lcnt.toNat, t.lstart.toNat, t.lend.toNat, t.migcnt.toNat,
       t.rank.word.toNat, t.party.word.toNat, t.pfx.toNat + t.pfxShadow.toNat * 2 ^ 32, wait] ++
     wordsBytes t.sendWords ++
     wordsBytes [t.pfloor, t.lfloor,
       (match t.heldMsg with
        | some p => 2 ^ 63 + p % 65536
        | none => 0) + t.srvSeq.toNat * 65536] ++
     padTo 16 (t.q.toList.flatMap fun w => leBytes 4 w.toNat) ++
     padTo 16 (wordsBytes [t.sendBuf.length]) ++
     wordsBytes (t.srvtab.toList.map fun b => b.word.toNat) ++
     wordsBytes (t.sendBuf.flatMap fun m => [m.cap.toNat, m.off + m.len * 2 ^ 32])) ++
    t.v.toList.flatMap vecBytes

/-- What the poisoned registers of a thread report, by register (R116, log 46). -/
def Thread.poisonTable (t : Thread) : Table (Word × Word) :=
  (List.range 56).filterMap fun i => let r := t.reg i; if r.pb then some (i, r.pAddr, r.pPc) else none

/-- The registers of a record; a poisoned one that was not poisoned when it was saved reports free values (log 3). -/
def recordRegs (r : List Byte) (kept : Table (Word × Word)) (tick : Nat) : Vector Reg 56 :=
  Vector.ofFn fun i => Reg.ofSave (cutWord r (8 * i.val)) (leNat (cut r (0x1D0 + i.val) 1))
    ((tfind kept i.val).getD (Config.freeWord (tick + 2 * i.val), Config.freeWord (tick + 2 * i.val + 1)))

/-- A thread read back from its record (R280, R286): it resumes under R277 in an episode of the barrier, its
floors set by the acquire, under its survey's fidelity ceiling (R343). -/
def recordThread (r : List Byte) (kept : Table (Word × Word)) (fid place pid episode clock tick serial : Nat) : Thread :=
  let w := fun n => cutWord r (0x210 + 8 * n)
  let b := fun n => BitVec.ofNat 64 (w n)
  let rank := cutWord r 0x298
  let party := cutWord r 0x2A0
  let wait := cutWord r 0x2B0
  let snd := cutWord r 0x2B8
  let held := cutWord r 0x2D8
  { place := place, pid := pid, status := .running
    regs := recordRegs r kept tick, fidmax := BitVec.ofNat 2 fid
    z0 := BitVec.ofNat 64 (cutWord r 0x1C0), z1 := BitVec.ofNat 64 (cutWord r 0x1C8)
    v := Vector.ofFn fun i => Vector.ofFn fun l => BitVec.ofNat 32 (leNat (cut r (0x400 + 128 * i.val + 4 * l.val) 4))
    q := Vector.ofFn fun i => BitVec.ofNat 32 (leNat (cut r (0x2E0 + 4 * i.val) 4))
    pc := addrField (b 0), stat := Stat.ofWord (b 1), sstat := Stat.ofWord (b 2), ecause := BitVec.ofNat 8 (w 3)
    epc := addrField (b 4), eval1 := b 5, eval2 := b 6, tvec := addrField (b 7), hscr := b 8
    reqf := BitVec.ofNat 6 (w 9), ctx := BitVec.ofNat 16 (w 10), inbox := Inbox.ofWord (b 11)
    wpos := BitVec.ofNat 16 (w 12 / 65536), rpos := BitVec.ofNat 16 (w 12)
    lcnt := b 13, lstart := addrField (b 14), lend := addrField (b 15), migcnt := b 16
    rank := { gen := BitVec.ofNat 8 (rank / 2 ^ 24), pkg := BitVec.ofNat 8 (rank / 65536), thr := BitVec.ofNat 16 rank }
    party := { pidx := BitVec.ofNat 32 (party / 2 ^ 32), surv := BitVec.ofNat 12 (party / 2 ^ 20),
               tidx := BitVec.ofNat 10 (party / 1024), nthr := BitVec.ofNat 10 party }
    pfx := BitVec.ofNat 32 (cutWord r 0x2A8), pfxShadow := BitVec.ofNat 32 (cutWord r 0x2A8 / 2 ^ 32)
    sends := nbits snd 0 16
    refused := if nbits snd 16 8 = 0 then none
      else some ⟨BitVec.ofNat 64 (cutWord r 0x2C0), BitVec.ofNat 8 (snd / 65536), BitVec.ofNat 8 (snd / 2 ^ 24)⟩
    heldMsg := if nbit held 63 then some (nbits held 0 16) else none
    srvSeq := BitVec.ofNat 6 (held / 65536)
    srvtab := Vector.ofFn fun i => SrvBind.ofWord (BitVec.ofNat 64 (cutWord r (0x300 + 8 * i.val)))
    sendBuf := (List.range (nbits (cutWord r 0x2F0) 0 4)).map fun i =>
      { id := serial + i, cap := BitVec.ofNat 64 (cutWord r (0x380 + 16 * i))
        off := nbits (cutWord r (0x388 + 16 * i)) 0 17, len := nbits (cutWord r (0x388 + 16 * i)) 32 16 }
    pfloor := clock, lfloor := clock
    wait := match wait % 4 with
      | 1 => .barrier episode
      | 3 => .sleep (clock + wait / 2 ^ 32)
      | _ => .none
    phase := match wait % 4 with
      | 1 => .arrived episode
      | 2 => .resumed
      | _ => .fresh }

/-- A handle-table entry's two words (R281). -/
def Handle.words (h : Handle) : List Nat :=
  [h.size * 2 ^ 32 + h.off, h.discard * 2 ^ 32 + h.st.code * 65536 + h.gen]

/-- A handle-table entry read back. -/
def Handle.ofWords (a b : Nat) : Handle :=
  { st := match nbits b 16 2 with
      | 0 => .free | 1 => .filling | 2 => .full | _ => .draining
    gen := nbits b 0 11, off := nbits a 0 17, size := a / 2 ^ 32 % 2 ^ 32, discard := b / 2 ^ 32 % 2 ^ 32 }

/-- A queue entry of a context record, 0x110 bytes (R190, R281). -/
def cmdEntry (c : Cmd) : List Byte :=
  wordsBytes ([c.num, c.code + c.scope * 32 + c.src * 65536 + c.dst * 2 ^ 32] ++
    (List.range 32).map fun i => (tget 0 c.regs i).toNat)

/-- A context record, 0x1200 bytes (R281). -/
def ctxRecord (x : EngCtx) : List Byte :=
  padTo 0x1200 (wordsBytes ((List.range 32).map fun i => (x.read i).toNat) ++
    ((x.queue.filter fun c => !c.done).take 16).flatMap cmdEntry)

/-- Poison bits of a core's scratchpad words from word k, eight a byte. -/
def poisonByte (s : State) (c i : Nat) : Byte :=
  BitVec.ofNat 8 ((List.range 8).foldl (fun a j =>
    a + (s.scratchPoison.contains (scratchKey c 0 / 8 + 8 * i + j)).toNat * 2 ^ j) 0)

/-- A core section (R281). -/
def coreSection (s : State) (c : Nat) : List Byte :=
  let r := s.core c
  let n := r.lmsplit.toNat
  padTo 0x12400 (padTo 0x400 (padTo 64 (wordsBytes [0x12400 + n * 0x4100, n, r.gpool.toNat]) ++
      (List.range 32).flatMap fun e => wordsBytes (s.handle c e).words) ++
    (List.range 16).flatMap fun k => ctxRecord (s.ctx c (k / 4) (k % 4))) ++
  cgets s.scratch (scratchKey c 0) (n * 0x4000) ++ (List.range (n * 0x100)).map (poisonByte s c)

/-- A command read back from its entry: the fields a save has no place for come from what the Surveyor kept. -/
def entryCmd (bs : List Byte) (kept : EngCtx) : Option Cmd :=
  let num := cutWord bs 0
  let w := cutWord bs 8
  if num = 0 then none
  else
    let old := (kept.queue.find? (·.num == num)).getD { num := num, code := 0 }
    let regs : Table Word := (List.range 32).foldl (fun (t : Table Word) i =>
      let v := cutWord bs (16 + 8 * i)
      if v = 0 then t else tput t i (BitVec.ofNat 64 v)) (old.regs.filter fun p => decide (32 ≤ p.1))
    some { old with
      code := w % 32, scope := w / 32 % 8, src := nbits w 16 16, dst := nbits w 32 16, regs := regs }

/-- A command put into a queue in number order. -/
def insertCmd (c : Cmd) : List Cmd → List Cmd
  | [] => [c]
  | q :: qs => if q.num < c.num then q :: insertCmd c qs else c :: q :: qs

/-- A context read back from its record, with the commands that had completed before an earlier one: the counter is
still to pass them (R197). -/
def recordCtx (bs : List Byte) (kept : EngCtx) : EngCtx :=
  let w := fun n => cutWord bs (8 * n)
  let queue := (List.range 16).filterMap fun i => entryCmd (cut bs (0x100 + 0x110 * i) 0x110) kept
  { regs := (List.range 28).foldl (fun (t : Table Word) i => if w i = 0 then t else tput t i (BitVec.ofNat 64 (w i))) []
    count := w 31, nextn := w 29
    tlFirst := nbits (w 30) 24 40, tlFlags := BitVec.ofNat 5 (w 30 / 2 ^ 12), tlWorst := nbits (w 30) 0 12
    cstat := BitVec.ofNat 64 (w 28)
    queue := (kept.queue.filter (·.done)).foldl (fun l c => insertCmd c l) queue }

/-- A digit cell as it stands in its contour's bit string: two bits, select and sign. -/
def digitByte (b : PlaneBuf) (contour i : Nat) : Byte :=
  BitVec.ofNat 8 ((List.range 4).foldl (fun a j => a + tget 0 b.digits (contour * 32768 + 4 * i + j) % 4 * 4 ^ j) 0)

/-- A segment word (R282): the weight sum, and the exponent for float weights. -/
def segWord (b : PlaneBuf) (key : Nat) : Nat :=
  let sum := (tget 0 b.sums key % (2 : Int) ^ 24).toNat
  let e := if (fmtCode b.wfmt).isFloat then ((tget 0 b.exps key + 128) % 256).toNat else 0
  sum + e * 2 ^ 24

/-- A plane buffer image, 0x20000 bytes (R282). -/
def bufImage (b : PlaneBuf) : List Byte :=
  let tiles := (List.range 8).foldl (fun a t => a + (b.loaded.contains t).toNat * 2 ^ t) 0
  padTo 0x20000 (padTo 0x1000 (wordsBytes [b.wfmt + b.k * 16 + b.n * 2 ^ 14 + tiles * 2 ^ 21]) ++
    (List.range 11).flatMap (fun x => (List.range 0x2000).map (digitByte b x)) ++
    (List.range 0x2000).flatMap fun key => leBytes 4 (segWord b key))

/-- A plane buffer read back; what the image has no place for comes from what was kept. -/
def imageBuf (bs : List Byte) (kept : PlaneBuf) : PlaneBuf :=
  let h := cutWord bs 0
  let wf := nbits h 0 4
  let seg := fun key => leNat (cut bs (0x17000 + 4 * key) 4)
  { wfmt := wf, k := nbits h 4 10, n := nbits h 14 7
    loaded := (List.range 8).filter fun t => nbit h (21 + t)
    digits := (List.range (11 * 32768)).foldl (fun (t : Table Nat) key =>
      let d := leNat (cut bs (0x1000 + key / 4) 1) / 4 ^ (key % 4) % 4
      if d = 0 then t else tput t key d) []
    sums := (List.range 0x2000).foldl (fun (t : Table Int) key =>
      let v := sint 24 (seg key)
      if v = 0 then t else tput t key v) []
    exps := if (fmtCode wf).isFloat then (List.range 0x2000).foldl (fun (t : Table Int) key =>
      let e : Int := (seg key / 2 ^ 24 : Nat) - 128
      if e = 0 then t else tput t key e) [] else []
    nonfinite := kept.nonfinite, poisoned := kept.poisoned }

/-- A latch half's 32 KiB, as it lies (R329). -/
def halfImage (h : LatchHalf) : List Byte := cgets h.bytes 0 0x8000

/-- A latch half read back. -/
def imageHalf (bs : List Byte) (kept : LatchHalf) : LatchHalf := { kept with bytes := cputs [] 0 (bs.take 0x8000) }

/-- The contour section, 0x50040 bytes (R282). -/
def contourSection (k : Contour) : List Byte :=
  padTo 64 (wordsBytes [k.core * 4 + k.ctx]) ++ bufImage k.buf0 ++ bufImage k.buf1 ++ halfImage k.half0 ++ halfImage k.half1

/-- The contour section read back. -/
def sectionContour (bs : List Byte) (kept : Contour) : Contour :=
  let w := cutWord bs 0 % 256
  { core := w / 4, ctx := w % 4
    buf0 := imageBuf (cut bs 0x40 0x20000) kept.buf0, buf1 := imageBuf (cut bs 0x20040 0x20000) kept.buf1
    half0 := imageHalf (cut bs 0x40040 0x8000) kept.half0, half1 := imageHalf (cut bs 0x48040 0x8000) kept.half1 }

/-- A token as a word (R282). -/
def Token.word (t : Token) : Nat := t.data.toNat + t.mark % 4 * 2 ^ 32 + t.psn.toNat * 2 ^ 34 + t.tag.toNat * 2 ^ 35

/-- A token read back. -/
def Token.ofWord (w : Nat) : Token :=
  { data := BitVec.ofNat 32 w, mark := nbits w 32 2, psn := nbit w 34, tag := BitVec.ofNat 16 (w / 2 ^ 35) }

/-- An element state, 0xA0 bytes (R282). -/
def elemState (e : Elem) : List Byte :=
  let q := fun n => e.queues.getD n []
  padTo 0xA0 (wordsBytes ([e.s0.toNat + e.s1.toNat * 2 ^ 32,
      e.mismatch % 65536 + e.flags.toNat * 2 ^ 16 + e.sat.toNat * 2 ^ 21 + e.poisoned.toNat * 2 ^ 22 + e.ends % 65536 * 2 ^ 23,
      (List.range 4).foldl (fun a n => a + (q n).length % 8 * 8 ^ n) 0,
      (List.range 4).foldl (fun a n => a + (e.nest.getD []).getD n 0 % 65536 * 65536 ^ n) 0] ++
    (List.range 4).flatMap fun n => (List.range 4).map fun i => (((q n)[i]?).map Token.word).getD 0))

/-- An element read back over what was kept of it. -/
def stateElem (bs : List Byte) (kept : Elem) : Elem :=
  let w := fun n => cutWord bs (8 * n)
  { kept with
    s0 := BitVec.ofNat 32 (w 0), s1 := BitVec.ofNat 32 (w 0 / 2 ^ 32)
    mismatch := nbits (w 1) 0 16, flags := BitVec.ofNat 5 (w 1 / 2 ^ 16), sat := nbit (w 1) 21, poisoned := nbit (w 1) 22
    ends := nbits (w 1) 23 16
    nest := kept.nest.map fun l => (List.range l.length).map fun n => nbits (w 3) (16 * n) 16
    queues := (List.range 4).map fun n =>
      (List.range (nbits (w 2) (3 * n) 3)).map fun i => Token.ofWord (w (4 + 4 * n + i)) }

/-- The size of a fabric section, and of the part it takes up in the area. -/
def fabricSize (words : List Word) : Nat := 192 + 0xA0 * recNelem words

/-- A fabric section (R282). -/
def fabricSection (r : Region) : List Byte :=
  let n := recNelem r.words
  padTo (round64 (fabricSize r.words))
    (padTo 64 (wordsBytes [fabricSize r.words, r.img + r.ridx * 2 ^ 16 + r.length.toNat * 2 ^ 20 + r.edge.length * 2 ^ 21, n]) ++
     padTo 128 (wordsBytes (r.edge.map Token.word)) ++
     (List.range n).flatMap fun i =>
      let e := freshElem (recElem r.words i)
      elemState ((r.elem e.pos).getD e))

/-- A region read back over what was kept of it, its balances full (R286). -/
def sectionRegion (bs : List Byte) (kept : Region) (m : Meter) : Region :=
  let h := cutWord bs 8
  { kept with
    length := nbit h 20
    edge := (List.range (nbits h 21 5)).map fun i => Token.ofWord (cutWord bs (64 + 8 * i))
    elems := (List.range (recNelem kept.words)).foldl (fun t i =>
      let e := freshElem (recElem kept.words i)
      tput t e.pos (stateElem (cut bs (192 + 0xA0 * i) 0xA0) ((kept.elem e.pos).getD e))) []
    waits := []
    bal := (List.range 4).map fun g => (groupOfMeter m g).2.1 }

/-- The regions a party owns in its cluster (R275). -/
def ownedRegions (s : State) (cl pid : Nat) : List (Nat × Region) :=
  (s.cluster cl).regions.filter fun r => r.2.owner == some pid && !r.2.server

/-- The contour array's contents of a party: those of the array while it holds the claim (R278), else those that it
still has to bring back (R286). -/
def heldContour (s : State) (cl pid : Nat) : Option Contour :=
  let c := s.cluster cl
  match c.claim with
  | some k =>
    if k.pid = pid then
      some { core := (s.party pid).cores.idxOf k.core, ctx := k.ctx
             buf0 := c.buf0, buf1 := c.buf1, half0 := c.half0, half1 := c.half1 }
    else (s.party pid).contour
  | none => (s.party pid).contour

/-- The header of an area (R279) with VALID as given. -/
def areaHeader (s : State) (pid ctx valid cursor used : Nat) (contour : Bool) (regions : Nat) : List Byte :=
  let p := s.party pid
  let bits := fun (l : List Nat) => (List.range 128).map fun b =>
    BitVec.ofNat 8 ((List.range 8).foldl (fun a j => a + (l.contains (8 * b + j)).toNat * 2 ^ j) 0)
  padTo 512 (wordsBytes [valid, cursor, used, p.pidx * 2 ^ 32 + p.surv * 2 ^ 20,
      (p.nthr - 1) + p.cores.length * 2 ^ 10 + p.cls * 2 ^ 17 + p.triggered.toNat * 2 ^ 19 +
        contour.toNat * 2 ^ 20 + regions * 2 ^ 21,
      p.episode % 2 ^ 32, ctx, 0] ++
    bits p.arrived ++ padTo 64 (p.cores.map fun c => BitVec.ofNat 8 (c % 64)))

/-- The record of the thread with an index; one whose thread has ended is all zero. -/
def indexRecord (s : State) (pid i : Nat) : List Byte :=
  match placeOfIndex s pid i with
  | some k => threadRecord (s.threadAt k) s.clock
  | none => List.replicate 0x800 0

/-- Everything of an area but its header, in order (R278). -/
def areaBody (s : State) (pid : Nat) : List Byte :=
  let p := s.party pid
  let cl := clusterOf (p.cores.headD 0)
  (List.range p.nthr).flatMap (indexRecord s pid) ++ p.cores.flatMap (coreSection s) ++
  (match heldContour s cl pid with
   | some k => contourSection k
   | none => []) ++
  (ownedRegions s cl pid).flatMap fun r => fabricSection r.2

end Sys2Proof.Machine
end

