-- ==== Sys2Proof/Machine/Stops.lean ====
section
/-!
DEFINITION. Services and terminations (R271 to R273), the stop of a party (R275 to R277), its save and
restore (R283 to R286), and migration (R287 to R289, R376).
-/

namespace Sys2Proof.Machine

/-- The escalation of the thread at a place. -/
def escalOf (s : State) (place : Nat) : Option Escalation := s.escal.find? (·.place == place)

/-- The service code of an escalated TRAP, none when the record asks for no service (R271, R272). -/
def Escalation.service (e : Escalation) : Option Nat := if e.fatal then none else some e.e1.toNat

/-- The state without an escalation. -/
def dropEscal (s : State) (place : Nat) : State := { s with escal := s.escal.filter (·.place != place) }

/-- A service is answered: EVAL2 holds the result and the thread resumes after its TRAP (R271). -/
def answer (s : State) (place : Nat) (v : Word) : State :=
  let t := s.threadAt place
  (dropEscal s place).setThreadAt place { t with eval2 := v, wait := .none, pc := addrField (t.pc + 4) }

/-- SERVICE_RESOLVE (R271): the fault of the thread at place ev.p goes to the host that owns its survey, which is
then to answer; a code that names no service is answered with all ones. -/
def execServiceResolve (s : State) : Out :=
  let p := s.ev.p
  match if s.watchdog then none else (escalOf s p).bind Escalation.service with
  | some 1 =>
    .next { s with escal := s.escal.map fun (e : Escalation) => if e.place = p then { e with asked := true } else e }
  | some c => .next (if 1 ≤ c && c ≤ 4 then s else answer s p (BitVec.allOnes 64))
  | none => .next s

/-- RESOLVE_ANSWER (R271): the host answers: resolved when ev.yes, else refused; a hung Surveyor passes nothing on
(R375). -/
def execResolveAnswer (s : State) : Out :=
  match if s.watchdog then none else escalOf s s.ev.p with
  | some e => .next (if e.service = some 1 && e.asked then answer s s.ev.p (if s.ev.yes then 0 else 1) else s)
  | none => .next s

/-- SERVICE_TERM_THREAD (R271, R12, R16): the thread at place ev.p ends as trap-terminated with its ECAUSE. -/
def execServiceTermThread (s : State) : Out :=
  let p := s.ev.p
  match if s.watchdog then none else (escalOf s p).bind Escalation.service with
  | some 3 =>
    let t := s.threadAt p
    .next (endThread (recordTrap (dropEscal s p) t.pid t.rank.logical t.ecause) p)
  | _ => .next s

/-- A party is terminated for an escalation (R272). -/
def terminate (s : State) (e : Escalation) : State :=
  let t := s.threadAt e.place
  killParty (recordTrap s t.pid t.rank.logical e.cause.code) t.pid false

/-- SERVICE_TERM_PARTY (R271, R272): the party of the thread at place ev.p is terminated. -/
def execServiceTermParty (s : State) : Out :=
  match if s.watchdog then none else escalOf s s.ev.p with
  | some e => .next (if e.service = some 4 then terminate s e else s)
  | none => .next s

/-- PARTY_TERMINATION (R272, R37): an escalation of the thread at place ev.p that asks for no service. -/
def execPartyTermination (s : State) : Out :=
  match if s.watchdog then none else escalOf s s.ev.p with
  | some e => .next (if e.fatal then terminate s e else s)
  | none => .next s

/-- The places of the threads that a stop concerns: one, or every thread of the party that has not ended. -/
def movers (s : State) (pid : Nat) (st : Stop) : List Nat :=
  let is := match st.tidx with
    | some i => [i]
    | none => List.range (s.party pid).nthr
  (is.filterMap (placeOfIndex s pid)).filter fun k => (s.threadAt k).status == .running

/-- Whether a thread's vector instruction stands in its core's latch and a stopped tile does not accept it (R374). -/
def latchBlocked (s : State) (t : Thread) : Bool :=
  let c := coreOf t.place
  t.wait == .vector && (s.core c).vlatch == some t.place && tileStopped s (tileOf c)

/-- Whether a thread stands at its stopping point with everything returned (R275, R276, R287). -/
def atStop (s : State) (st : Stop) (t : Thread) : Bool :=
  t.loads.isEmpty && t.late.isEmpty && t.vload.isNone && t.srvCall.isNone &&
  (st.kind == .save || !t.stat.pp) &&
  match t.wait with
  | .vector => latchBlocked s t
  | .acquire _ _ => false
  | .acqLoad _ _ => false
  | .consume _ _ => false
  | .escalated => st.services.contains t.place
  | _ => true

/-- Whether a FAB command cannot go on because its region's injection is frozen: a SEED whose tokens are held outside
it, or an EVICT that waits for one (R224, R327). -/
def seedHeld (s : State) (c : Nat) (q : Cmd) : Bool :=
  match regionHeld (s.cluster (clusterOf c)) (fimgOf q).1 (fimgOf q).2 q.surv with
  | none => false
  | some (_, r) => (r.shut || r.stage == .stopped) &&
      (q.code == 3 || q.code == 2 && namedByFab s (clusterOf c) r fun x => x.code == 3 && x.started)

/-- Whether a command of a party that has begun has still to complete on a core before it stops, or, of a copy into a core
that moves, to be read and held (R275, R386). -/
def unitBusy (s : State) (pid : Nat) (kind : StopKind) (c : Nat) : Bool :=
  (s.core c).ctxs.any fun x => x.2.queue.any fun q =>
    q.pid == pid && q.started && !q.done && !(decide (12 ≤ x.1) && seedHeld s c q) &&
    !(kind == .migrate && copyHolds x.1 q && q.held.isSome)

/-- Whether a party's owned regions have all stopped, or at least frozen (R275, R327). -/
def regionsHeld (s : State) (pid : Nat) (p : Region → Bool) : Bool :=
  let cl := clusterOf ((s.party pid).cores.headD 0)
  (ownedRegions s cl pid).all (fun r => p r.2) && !(s.cluster cl).reqs.any (·.owner == some pid)

/-- The owned regions of a party asked to stop, or let go again. -/
def askRegions (s : State) (pid : Nat) (asked : Bool) : State :=
  let cl := clusterOf ((s.party pid).cores.headD 0)
  let c := s.cluster cl
  if (ownedRegions s cl pid).isEmpty then s
  else s.setCluster cl { c with regions := c.regions.map fun r =>
    (r.1, if r.2.owner = some pid && !r.2.server then
      { r.2 with asked := asked, frozen := asked && r.2.frozen
                 stage := if !asked && r.2.stage = .stopped then .resident else r.2.stage }
      else r.2) }

/-- The threads that a migration concerns are told of the request (R188), or that there is none. -/
def requestMove (s : State) (ks : List Nat) (yes : Bool) : State :=
  ks.foldl (fun s k => s.setThreadAt k { s.threadAt k with migReq := yes, moving := yes && (s.threadAt k).moving }) s

/-- The threads are told to stop (R276, R287): their entries go IN_TRANSIT, their plat entries STOP. -/
def beginStop (s : State) (pid : Nat) (st : Stop) : State :=
  let s := (movers s pid st).foldl (fun s k =>
    let t := s.threadAt k
    let thr := t.rank.thr.toNat
    let s := s.setGaz thr { s.gazOf thr with st := .inTransit }
    let s := s.setThreadAt k (if st.kind = .save then { t with halt := true } else { t with moving := true })
    setPlat s k .stop) s
  { s with stops := tput s.stops pid { st with begun := true } }

/-- Whether any thread of a party is stopped in an escalation but those whose service a stop answers (R273). -/
def partyEscalated (s : State) (pid : Nat) (services : List Nat) : Bool :=
  s.escal.any fun e => (s.threadAt e.place).pid == pid && !services.contains e.place

/-- A stop goes on to its next stage: a stop of the whole party waits first for its regions (R275), and one that no
escalation asks for does not begin while a thread is stopped in an escalation (R273). -/
def advanceStop (s : State) (pid : Nat) (st : Stop) : State :=
  if st.begun || (st.services.isEmpty && partyEscalated s pid []) then s
  else if st.tidx.isSome || regionsHeld s pid (fun r => r.frozen || r.stage == .stopped) then beginStop s pid st
  else s

/-- Whether everything that a stop concerns stands at its point (R275, R276). -/
def stopReady (s : State) (pid : Nat) (st : Stop) : Bool :=
  st.begun && ((movers s pid st).all fun k => atStop s st (s.threadAt k)) &&
  (st.tidx.isSome || (regionsHeld s pid (fun r => r.stage == .stopped) && !(s.party pid).cores.any (unitBusy s pid st.kind)))

/-- A stop noted (R276, R287): the regions of a whole party are asked to stop, and threads that are to move are told. -/
def noteStop (s : State) (pid : Nat) (st : Stop) : State :=
  let s := if st.tidx.isNone then askRegions s pid true else s
  let s := if st.kind = .migrate then requestMove s (movers s pid st) true else s
  advanceStop { s with stops := tput s.stops pid st } pid st

/-- A vector instruction that stays in the latch of a stopped tile gives it up (R276, R277, R374): one that addresses memory
has done nothing yet and will be executed again. -/
def unlatch (s : State) (k : Nat) : State :=
  let t := s.threadAt k
  let c := coreOf k
  if (s.core c).vlatch ≠ some k then s
  else
    let back := match t.vop with
      | some op => op.back.foldl (fun (t : Thread) (p : Nat × Reg) => t.setReg p.1 p.2) { t with held := none }
      | none => t
    (s.setCore c { s.core c with vlatch := none }).setThreadAt k { back with vop := none, wait := .none }

/-- Hold latches and loop captures discarded (R25, R40, R276). -/
def Thread.uncapture (t : Thread) : Thread := { t with latchA := none, latchB := none, loopBuf := [] }

/-- The messages of a thread that the network of this package still carries go back to its send buffer (R280); one that
Jenlink has taken stays sent, and its acknowledgement is awaited (R179, R364). -/
def recallMessages (s : State) (k : Nat) : State :=
  let t := s.threadAt k
  let mine := fun (m : Msg) => m.src == some t.rank.logical && m.entry.isSome
  let back := (s.flight ++ s.hold.flatMap (·.2)).filter mine
  let s := { s with
    flight := s.flight.filter fun m => !mine m
    hold := s.hold.map fun (h : Nat × List Msg) => (h.1, h.2.filter fun m => !mine m) }
  s.setThreadAt k { t with sendBuf := t.sendBuf.map fun (m : OutMsg) =>
    if (back.any fun x => x.entry == some m.id) then { m with sent := false } else m }

/-- PREEMPTION_STOP (R275, R276): party ev.n is stopped for a save into the area at ev.v of ev.k bytes: noted,
begun once its regions have frozen, and, once everything stands at its point, released at SYS scope. A save that
overflowed begins again with a new area (R285). -/
def execPreemptionStop (s : State) : Out :=
  let pid := s.ev.n
  let new : Stop := { kind := .save, area := s.ev.v.toNat, size := s.ev.k, seq := s.saveSeq + 1 }
  match tfind s.stops pid with
  | none =>
    let p := s.party pid
    if (tfind s.parties pid).isNone || p.killed || p.cores = [] || s.watchdog || partyEscalated s pid [] ||
      (movers s pid new).isEmpty || !p.cores.all (fun c => (tget {} s.plat (c * 16)).st != .bind) || new.area % 64 ≠ 0 then .next s
    else .next (noteStop { s with saveSeq := s.saveSeq + 1 } pid new)
  | some st =>
    if st.kind ≠ .save then .next s
    else if st.overflow then
      .next (beginStop { s with saveSeq := s.saveSeq + 1 } pid { new with begun := true, stopped := true })
    else if st.stopped then .next s
    else if !st.begun then .next (advanceStop s pid st)
    else if !stopReady s pid st then .next s
    else
      let ks := movers s pid st
      let s := (s.party pid).cores.foldl (fun s c => releaseAt s c .sys) s
      let s := ks.foldl unlatch s
      let s := ks.foldl (fun s k => s.setThreadAt k (s.threadAt k).uncapture) s
      let s := ks.foldl recallMessages s
      .next { s with stops := tput s.stops pid { st with stopped := true } }

/-- How far a save gets (R283 to R285). -/
inductive SaveRun where
  | all (s : State)
  | fault (s : State) (cursor : Nat)
  | full (s : State) (cursor : Nat)

/-- Granules written in ascending order from a cursor. -/
def writeGranules (ctx area size : Nat) : Nat → State → Nat → List Byte → SaveRun
  | 0, s, _, _ => .all s
  | n + 1, s, cur, bs =>
    if bs.isEmpty then .all s
    else if size < cur + 64 then .full s cur
    else match unitWrite (unitLookup s 0 ctx (area + cur)) 0 ctx true (area + cur) (bs.take 64) with
      | none => .fault s cur
      | some s => writeGranules ctx area size n s (cur + 64) (bs.drop 64)

/-- The host that owns a party's survey. -/
def ownerHost (s : State) (pid : Nat) : Nat := (s.survey (s.party pid).surv).queue / 32

/-- The CURSOR field of an area written (R279). -/
def writeCursor (s : State) (ctx area cur : Nat) : State := (unitWrite s 0 ctx true (area + 8) (leBytes 8 cur)).getD s

/-- Entries leave IN_TRANSIT with the party suspended in place (R285). -/
def overflowSave (s : State) (pid : Nat) (st : Stop) : State :=
  let s := (movers s pid st).foldl (fun s k =>
    let thr := (s.threadAt k).rank.thr.toNat
    mergeAcks (s.setGaz thr { s.gazOf thr with st := .valid }) thr k) s
  raiseCause { s with stops := tput s.stops pid { st with overflow := true } } (ownerHost s pid) 4

/-- The plat entry of a party's thread by index, running or ended (R350). -/
def platOfIndex (s : State) (p : Party) (i : Nat) : Plat :=
  let es := (p.cores.flatMap fun c => (List.range 16).map (c * 16 + ·)).map fun k => (tget {} s.plat k : Plat)
  (es.find? fun e => (e.st == .run || e.st == .stop) && e.tidx == i).getD {}

/-- A save is valid: what its threads were owed while it was written is entered, their entries go ABSENT, and
their places, cores, regions and claim are released (R283, R179). -/
def finishSave (s : State) (pid ctx used : Nat) (st : Stop) : State :=
  let p := s.party pid
  let cl := clusterOf (p.cores.headD 0)
  let thrs := (List.range p.nthr).map fun i =>
    if p.gone.contains i then 65536 else ((placeOfIndex s pid i).map fun k => (s.threadAt k).rank.thr.toNat).getD 65536
  let a : Saved :=
    { area := st.area, size := st.size, cls := p.cls, ctx := ctx, surv := p.surv, pidx := p.pidx, thrs := thrs
      plats := (List.range p.nthr).map (platOfIndex s p)
      cores := p.cores, ctxs := p.cores.map fun c => (s.core c).ctxs
      regions := (ownedRegions s cl pid).map (·.2), contour := heldContour s cl pid
      poisons := (List.range p.nthr).map fun i => ((placeOfIndex s pid i).map fun k => (s.threadAt k).poisonTable).getD [] }
  let s := (List.range p.nthr).foldl (fun s i =>
    match placeOfIndex s pid i with
    | none => s
    | some k =>
      let thr := (s.threadAt k).rank.thr.toNat
      if (s.threadAt k).status ≠ .running then s
      else
        let s := mergeAcks s thr k
        let s := a.write s (0x200 + 0x800 * i + 0x2B8) (wordsBytes (s.threadAt k).sendWords)
        s.setGaz thr { s.gazOf thr with st := .absent, place := 0, save := st.area }) s
  let s := a.write (writeCursor s ctx st.area used) 0 (leBytes 8 (st.seq * 2 ^ 32 + 65536 + 1))
  let s := p.cores.foldl (fun s c =>
    let s := clearCore s c (s.core c).lmsplit.toNat
    (List.range 16).foldl (fun s k => clearPlace s (c * 16 + k)) s) s
  let c := s.cluster cl
  let s := s.setCluster cl { c with
    regions := c.regions.filter fun r => !(r.2.owner == some pid && !r.2.server)
    claim := match c.claim with
      | some k => if k.pid = pid then none else some k
      | none => none }
  { s.setParty pid { p with cores := [], contour := none } with
    stops := tdel s.stops pid, savedAreas := tput s.savedAreas pid a }

/-- SAVE_WRITE (R283 to R285): the save engine writes the area of party ev.n from its cursor: VALID with V = 0
first, every granule in order, VALID with V = 1 last; a fault or the end of the area stops it. -/
def execSaveWrite (s : State) : Out :=
  let pid := s.ev.n
  match tfind s.stops pid with
  | none => .next s
  | some st =>
    if st.kind ≠ .save || !st.stopped || st.faulted || st.overflow then .next s
    else
      let p := s.party pid
      let cl := clusterOf (p.cores.headD 0)
      let ctx := (s.survey p.surv).ctxid
      let ver := st.seq * 2 ^ 32 + 65536
      let body := areaBody s pid
      let used := 512 + body.length
      let image := areaHeader s pid ctx ver 64 used (heldContour s cl pid).isSome (ownedRegions s cl pid).length ++ body
      let host := ownerHost s pid
      match unitAwaits s 0 ctx (spanVas st.area (min used st.size)) with
      | some s => .next s
      | none =>
      match if st.cursor = 0 then unitWrite s 0 ctx true st.area (leBytes 8 ver) else some s with
      | none => .next (raiseCause { s with stops := tput s.stops pid { st with faulted := true } } host 4)
      | some s =>
        match writeGranules ctx st.area st.size (used / 64 + 1) s st.cursor (image.drop st.cursor) with
        | .all s => .next (finishSave s pid ctx used st)
        | .fault s cur =>
          let s := writeCursor s ctx st.area cur
          .next (raiseCause { s with stops := tput s.stops pid { st with cursor := cur, faulted := true } } host 4)
        | .full s cur => .next (overflowSave (writeCursor s ctx st.area cur) pid st)

/-- SAVE_RESUME (R284): the page is mapped, and the engine of party ev.n goes on at its cursor. -/
def execSaveResume (s : State) : Out :=
  match tfind s.stops s.ev.n with
  | some st => .next (if st.faulted then { s with stops := tput s.stops s.ev.n { st with faulted := false } } else s)
  | none => .next s

/-- Whether a list of cores is a placement of a class for n threads in one unit, ascending (R8, R9). -/
def placementOk (cls n : Nat) (cores : List Nat) : Bool :=
  let u := unitCores cls
  cores.length == (n + 15) / 16 && (cores.all fun c => decide (c < 4096) && c / u == cores.headD 0 / u) &&
  (cores.zip (cores.drop 1)).all fun p => decide (p.1 < p.2)

/-- The features that the thread at a place needs of the core it moves to (R42, R271). -/
def needOf (s : State) (st : Stop) (k : Nat) : BitVec 6 :=
  let t := s.threadAt k
  t.reqf ||| if st.services.contains k then t.eval2.setWidth 6 else 0

/-- The features needed of placement core j by the threads that stand on it (R9, R42). -/
def coreNeed (s : State) (pid : Nat) (st : Stop) (j : Nat) : BitVec 6 :=
  ((movers s pid st).filter fun k => (s.threadAt k).party.tidx.toNat / 16 == j).foldl (fun r k => r ||| needOf s st k) 0

/-- The first cores of a list that hold a list of feature words in its order: the earliest fit for each. -/
def fitCores (s : State) : List Nat → List (BitVec 6) → Option (List Nat)
  | _, [] => some []
  | [], _ :: _ => none
  | c :: cs, n :: ns => if hasFeat s n c then (fitCores s cs ns).map (c :: ·) else fitCores s cs (n :: ns)

/-- The union of the REQF of the threads at some places. -/
def unionReqf (s : State) (places : List Nat) : BitVec 6 := places.foldl (fun r k => r ||| (s.threadAt k).reqf) 0

/-- A core section read onto a core (R286). -/
def restoreCore (s : State) (a : Saved) (off c : Nat) (kept : Table EngCtx) : State :=
  let split := a.word s (off + 8) % 16
  let s := clearCore s c split
  let s := s.setCore c { s.core c with
    gpool := nbit (a.word s (off + 16)) 0
    handles := (List.range 32).foldl (fun (t : Table Handle) e =>
      let h := Handle.ofWords (a.word s (off + 0x40 + 16 * e)) (a.word s (off + 0x48 + 16 * e))
      if h = {} then t else tput t e h) []
    ctxs := (List.range 16).foldl (fun (t : Table EngCtx) k =>
      let x := recordCtx (a.read s (off + 0x400 + 0x1200 * k) 0x1200) (tget {} kept k)
      if x = {} then t else tput t k x) [] }
  let bits := a.read s (off + 0x12400 + split * 0x4000) (split * 0x100)
  { s with
    scratch := cputs s.scratch (scratchKey c 0) (a.read s (off + 0x12400) (split * 0x4000))
    scratchPoison := (List.range (split * 0x800)).foldl (fun l k =>
      if nbit (leNat (cut bits (k / 8) 1)) (k % 8) then sadd l (scratchKey c 0 / 8 + k) else l) s.scratchPoison }

/-- The core that takes the place of one of a party's old cores; any other core stays. -/
def carryCore (old new : List Nat) (c : Nat) : Nat := if old.contains c then new.getD (old.idxOf c) 0 else c

/-- The place a thread of a saved party takes on new cores, from the place it had. -/
def newPlace (old new : List Nat) (place : Nat) : Nat := carryCore old new (place / 16) * 16 + place % 16

/-- The commands of a core's contexts carried to new cores. -/
def carryCmds (old new : List Nat) (x : Table EngCtx) : Table EngCtx :=
  x.map fun p => (p.1, { p.2 with queue := p.2.queue.map fun (c : Cmd) => { c with place := newPlace old new c.place } })

/-- Commands of offers carried to new cores; those of another party stay. -/
def carryOffers (old new : List Nat) (os : List Offer) : List Offer :=
  os.map fun o => { o with cmd := o.cmd.map fun d => (carryCore old new d.1, d.2.1, d.2.2) }

/-- A region whose held offers are carried to new cores. -/
def Region.carried (old new : List Nat) (r : Region) : Region := { r with offers := carryOffers old new r.offers }

/-- The requests that bring the regions of a saved party back, each with its fabric section read (R286, R317). -/
def restoreRequests (a : Saved) (s : State) (pid cl : Nat) (cores : List Nat) : Nat → List Region → List RegionReq
  | _, [] => []
  | off, r :: rest =>
    let x := sectionRegion (a.read s off (fabricSize r.words)) r ((s.cluster cl).meter r)
    { img := r.img, ridx := r.ridx, surv := r.surv, owner := some pid, ctxid := a.ctx
      place := newPlace a.cores cores r.place, back := some { x with offers := carryOffers a.cores cores x.offers } } ::
      restoreRequests a s pid cl cores (off + round64 (fabricSize r.words)) rest

/-- The messages of a restored send buffer that Jenlink still carries stay sent: the oldest of their binding (R180,
log 74). -/
def stillOut (out : Word → Bool) : List Word → List OutMsg → List OutMsg
  | _, [] => []
  | seen, m :: ms => { m with sent := out m.cap && !seen.contains m.cap } :: stillOut out (m.cap :: seen) ms

/-- One thread of a saved party back on a place (R286): read, VALID, its acquire at SYS scope made. -/
def restoreThread (a : Saved) (pid : Nat) (cores : List Nat) (s : State) (i : Nat) : State :=
  let place := cores.getD (i / 16) 0 * 16 + i % 16
  let p := s.party pid
  let thr := a.thrs.getD i 65536
  let plat : Plat := { a.plats.getD i {} with st := if p.gone.contains i then .stop else .run }
  if p.gone.contains i then { s with plat := tput s.plat place plat }
  else
    let ep := if p.arrived.contains i then p.episode else p.episode - 1
    let t := recordThread (a.read s (0x200 + 0x800 * i) 0x800) (a.poisons.getD i []) (s.survey p.surv).fidmax place pid ep s.clock s.tick s.serial
    let s := { s with tick := s.tick + 128, serial := s.serial + 8, plat := tput s.plat place plat }
    let out := fun (c : Word) => s.outbound.any fun x => x.src == some t.rank.logical && x.cap == c && x.entry.isSome
    let s := s.setThreadAt place { t with sendBuf := stillOut out [] t.sendBuf }
    s.setGaz thr { s.gazOf thr with st := .valid, place := place, save := 0 }

/-- The barrier's arrivals of an area (R279). -/
def arrivedOf (a : Saved) (s : State) : List Nat :=
  (List.range a.thrs.length).filter fun i => nbit (leNat (a.read s (0x40 + i / 8) 1)) (i % 8)

/-- The features that placement core j of a saved party must hold (R286): PLN or FABG where a queue of its holds a
command of that engine, and the REQF of every thread. -/
def savedNeed (a : Saved) (s : State) (j : Nat) : BitVec 6 :=
  let units := (a.ctxs.getD j []).foldl (fun f p => if p.2.queue.isEmpty || p.1 < 4 then f else f ||| engFeat (p.1 / 4)) 0
  (List.range a.thrs.length).foldl (fun r i => r ||| BitVec.ofNat 6 (a.word s (0x200 + 0x800 * i + 0x210 + 8 * 9))) units

/-- Where the contour section, or what follows it, begins in an area (R278). -/
def contourAt (a : Saved) (s : State) : Nat := sectionAt a s (a.ctxs.length)

/-- Whether an area has a contour section (R279). -/
def hasContour (a : Saved) (s : State) : Bool := nbit (a.word s 0x20) 20

/-- The placement cores ready for a saved party: core sections read and contour contents kept for its next claim. -/
def restoreParts (s : State) (pid : Nat) (a : Saved) (cores : List Nat) : State :=
  let offs := (List.range cores.length).map fun j => (j, sectionAt a s j)
  let kept := if hasContour a s then a.contour else none
  let held := kept.map (sectionContour (a.read s (contourAt a s) 0x50040))
  let s := offs.foldl (fun s p =>
    restoreCore s a p.2 (cores.getD p.1 0) (carryCmds a.cores cores (a.ctxs.getD p.1 []))) s
  s.setParty pid { s.party pid with contour := held }

/-- A restore begins (R286): its cores are taken, and its regions asked for in the cluster's order of requests (R317). -/
def beginRestore (s : State) (pid : Nat) (a : Saved) (cores : List Nat) : State :=
  let cl := clusterOf (cores.headD 0)
  let c := s.cluster cl
  let off := contourAt a s
  let qs := restoreRequests a s pid cl cores (if hasContour a s then off + 0x50040 else off) (a.regions.take (nbits (a.word s 0x20) 21 3))
  let s := s.setCluster cl { c with reqs := c.reqs ++ qs }
  { s with
    plat := (List.range (cores.length * 16)).foldl (fun t i => tput t (cores.getD (i / 16) 0 * 16 + i % 16) { st := .held }) s.plat
    savedAreas := tput s.savedAreas pid { a with restoring := cores } }

/-- Whether every region a restore asked for is back (R286). -/
def restoreReady (s : State) (pid : Nat) (cores : List Nat) : Bool :=
  let cl := clusterOf (cores.headD 0)
  !(s.cluster cl).reqs.any (·.owner == some pid) && (ownedRegions s cl pid).all (·.2.stage == .stopped)

/-- A restore ends (R286): threads, core sections and contour contents are back, and the regions go on with them. -/
def finishRestore (s : State) (pid : Nat) (a : Saved) (cores : List Nat) : State :=
  let ep := a.word s 0x28 % 2 ^ 32
  let s := restoreParts s pid a cores
  let s := s.setParty pid { s.party pid with cores := cores, episode := ep, arrived := arrivedOf a s }
  let s := (List.range a.thrs.length).foldl (restoreThread a pid cores) s
  let s := askRegions (a.write s 0 (leBytes 8 (a.word s 0 / 2 * 2))) pid false
  { s with savedAreas := tdel s.savedAreas pid }

/-- RESTORE (R286): saved party ev.n is restored onto the cores ev.nums, a placement of its class, free, each core with
the features it needs, from an area that is valid; one under way ends once its regions are back. -/
def execRestore (s : State) : Out :=
  let pid := s.ev.n
  let cores := s.ev.nums
  match tfind s.savedAreas pid with
  | none => .next s
  | some a =>
    if s.watchdog then .next s
    else match unitAwaits s 0 a.ctx (spanVas a.area a.size) with
    | some s => .next s
    | none =>
    if a.restoring ≠ [] then .next (if restoreReady s pid a.restoring then finishRestore s pid a a.restoring else s)
    else if !nbit (a.word s 0) 0 || !placementOk a.cls a.thrs.length cores ||
      !(List.range cores.length).all (fun j => coreFree s (savedNeed a s j) (cores.getD j 0)) then .next s
    else
      let s := beginRestore s pid a cores
      .next (if restoreReady s pid cores then finishRestore s pid a cores else s)

/-- A thread as a move leaves it (R277): a WFI is over, an instruction stalled or waiting is executed again, a
barrier, a send and a sleep go on. -/
def Thread.carried (t : Thread) (place : Nat) : Thread :=
  let keep := match t.phase, t.wait with
    | .arrived _, _ => true
    | .sent, _ => true
    | .acquired, _ => t.inBar
    | .resumed, _ => true
    | _, .sleep _ => true
    | _, .escalated => true
    | _, _ => false
  { t.uncapture with
    place := place, migReq := false, moving := false, halt := false, leftAt := 0, yields := []
    migcnt := if t.migcnt = BitVec.allOnes 64 then t.migcnt else t.migcnt + 1
    wait := if keep then t.wait else .none
    phase := if keep then t.phase else .fresh
    held := if keep then t.held else none
    walkFails := [] }

/-- A thread moved to a place (R287): its state, its plat record, its gazetteer entry VALID, its acquire at PARTY
scope on the new core. -/
def moveThread (s : State) (old new : Nat) (left : PState) : State :=
  let t := s.threadAt old
  let thr := t.rank.thr.toNat
  let rec0 : Plat := tget {} s.plat old
  let s := clearPlace s old
  let s := { s with plat := tput (tput s.plat old (if left = PState.free then {} else { st := left })) new { rec0 with st := .run } }
  let s := s.setThreadAt new (t.carried new)
  let s := s.setGaz thr { s.gazOf thr with st := .valid, place := new }
  let s := mergeAcks s thr new
  let s := { s with escal := s.escal.map fun (e : Escalation) => if e.place = old then { e with place := new } else e }
  let back := s.th.place
  (acquireAt (s.focus new) .party).focus back

/-- A core's share of a placement move (R287): size of the scratchpad, tables, contexts, scratchpad and poison. -/
def moveCore (old new : List Nat) (s : State) (p : Nat × Nat) : State :=
  let (a, b) := p
  let r := s.core a
  let image := cgets s.scratch (scratchKey a 0) (r.lmsplit.toNat * 0x4000)
  let bad := (s.scratchPoison.filter fun k => k * 8 / 2 ^ 17 == a).map fun k => k + scratchKey b 0 / 8 - scratchKey a 0 / 8
  let s := clearCore s b r.lmsplit.toNat
  let s := s.setCore b { s.core b with
    gpool := r.gpool, handles := r.handles, ctxs := carryCmds old new r.ctxs }
  let s := { s with
    scratch := cputs s.scratch (scratchKey b 0) image
    scratchPoison := bad.foldl sadd s.scratchPoison }
  clearCore s a r.lmsplit.toNat

/-- A whole placement moved to new cores of its cluster (R287, R288). -/
def moveParty (s : State) (pid : Nat) (new : List Nat) : State :=
  let p := s.party pid
  let old := p.cores
  let s := (old.zip new).foldl (moveCore old new) s
  let s := (old.zip new).foldl (fun s c => (List.range 16).foldl (fun s k =>
    let a := c.1 * 16 + k
    let b := c.2 * 16 + k
    if (s.threadAt a).status = .running && (s.threadAt a).pid = pid then moveThread s a b .free
    else
      let t := s.threadAt a
      let r : Plat := tget {} s.plat a
      let s := clearPlace s a
      let s := { s with plat := tput s.plat b r }
      if t.status = .free then s else s.setThreadAt b { t with place := b }) s) s
  let cl := clusterOf (old.headD 0)
  let c := s.cluster cl
  let s := s.setCluster cl { c with
    claim := c.claim.map fun k => if k.pid = pid then { k with core := carryCore old new k.core } else k
    reqs := c.reqs.map fun q => { q with
      place := if q.owner = some pid then newPlace old new q.place else q.place
      back := q.back.map (Region.carried old new) }
    regions := c.regions.map fun r =>
      (r.1, { r.2.carried old new with place := if r.2.owner = some pid then newPlace old new r.2.place else r.2.place }) }
  let s := { s with savedAreas := s.savedAreas.map fun (x : Nat × Saved) => (x.1, { x.2 with regions := x.2.regions.map (Region.carried old new) }) }
  askRegions (s.setParty pid { s.party pid with cores := new }) pid false

/-- Whether a move is one that R11 allows: a thread of a party of several to a slot left over in the placement,
or the party to a free placement of its class in its cluster; features by R42 and R271. -/
def moveOk (s : State) (pid : Nat) (st : Stop) : Bool :=
  let p := s.party pid
  match st.tidx with
  | some i =>
    match placeOfIndex s pid i with
    | none => false
    | some k =>
      decide (1 < p.nthr) && p.cores.contains (coreOf st.target) && (tget {} s.plat st.target).st == .held &&
      hasFeat s (needOf s st k) (coreOf st.target)
  | none =>
    placementOk p.cls p.nthr st.cores && clusterOf (st.cores.headD 0) == clusterOf (p.cores.headD 0) &&
    (List.range st.cores.length).all fun j => coreFree s (coreNeed s pid st j) (st.cores.getD j 0)

/-- The threads of the migrations that wait for a party know of the request (R188, R289). -/
def requestQueued (s : State) (pid : Nat) : State :=
  (s.moveQueue.filter (·.1 == pid)).foldl (fun s x => requestMove s (movers s pid x.2) true) s

/-- A migration noted (R273, R287): not one that R11 forbids now, nor of a party that stands in an escalation. While
the party moves already, it waits; while the party stops for a save, it is discarded (R289). -/
def noteMigration (s : State) (pid : Nat) (st : Stop) : State :=
  let p := s.party pid
  match tfind s.stops pid with
  | some old => if old.kind = .migrate then requestQueued { s with moveQueue := s.moveQueue ++ [(pid, st)] } pid else s
  | none =>
    if (tfind s.parties pid).isNone || p.killed || p.cores = [] || partyEscalated s pid st.services ||
      (movers s pid st).isEmpty || !moveOk s pid st then s
    else noteStop s pid st

/-- The migrations that wait for a party are tried, the one that waited longest first, until one is noted (R289); those
that R11 and R42 no longer allow are given up. The fuel bounds their number. -/
def tryMoves : Nat → State → Nat → State
  | 0, s, _ => s
  | fuel + 1, s, pid =>
    match s.moveQueue.find? (·.1 == pid) with
    | none => s
    | some x =>
      let s := noteMigration (requestMove { s with moveQueue := s.moveQueue.erase x } (movers s pid x.2) false) pid x.2
      if (tfind s.stops pid).isSome then s else tryMoves fuel s pid

/-- What waited for a party's migration that is over. -/
def nextMove (s : State) (pid : Nat) : State := requestQueued (tryMoves s.moveQueue.length s pid) pid

/-- MIGRATION_REQUEST (R287): the Surveyor is asked to move thread ev.k of party ev.n to place ev.p, or, when
ev.yes, the party to the cores ev.nums. -/
def execMigrationRequest (s : State) : Out :=
  let st : Stop := if s.ev.yes then { kind := .migrate, cores := s.ev.nums }
    else { kind := .migrate, tidx := some s.ev.k, target := s.ev.p }
  .next (noteMigration s s.ev.n st)

/-- A migration undone: its threads go on where they are. -/
def undoMove (s : State) (pid : Nat) (st : Stop) : State :=
  let ks := movers s pid st
  let s := ks.foldl (fun s k =>
    let thr := (s.threadAt k).rank.thr.toNat
    let s := if (s.gazOf thr).st = .inTransit then mergeAcks (s.setGaz thr { s.gazOf thr with st := .valid }) thr k else s
    setPlat s k .run) (requestMove s ks false)
  let s := if st.tidx.isNone then askRegions s pid false else s
  { s with stops := tdel s.stops pid }

/-- A migration given up because its target no longer meets R11 and R42: a MIGRATE service hears that no core is free
(R271). -/
def cancelMove (s : State) (pid : Nat) (st : Stop) : State :=
  nextMove (st.services.foldl (fun s k => answer s k 1) (undoMove s pid st)) pid

/-- MIGRATION_TRANSFER (R287, R288): once everything of the migration of party ev.n stands at its point, it is
released at PARTY scope and moves; MIGRATE services are answered (R271), by a Surveyor that does not hang (R375). A target
that R11 or R42 no longer allows ends the migration. -/
def execMigrationTransfer (s : State) : Out :=
  let pid := s.ev.n
  match tfind s.stops pid with
  | none => .next s
  | some st =>
    if st.kind ≠ .migrate || (s.watchdog && st.services ≠ []) then .next s
    else if !moveOk s pid st then .next (cancelMove s pid st)
    else if !st.begun then .next (advanceStop s pid st)
    else if !stopReady s pid st then .next s
    else
      let ks := movers s pid st
      let s := ks.foldl unlatch s
      let s := (ks.map coreOf).eraseDups.foldl (fun s c => releaseAt s c .party) s
      let s := { s with stops := tdel s.stops pid }
      let old := (s.party pid).cores
      let s := match st.tidx with
        | some _ => ks.foldl (fun s k => moveThread s k st.target .held) s
        | none => moveParty s pid st.cores
      let now := fun (k : Nat) => if st.tidx.isSome then st.target else newPlace old st.cores k
      .next (nextMove (st.services.foldl (fun s k => answer s (now k) 0) s) pid)

/-- A free slot of a placement whose core holds a feature word, lowest first (R271). -/
def freeSlot (s : State) (pid : Nat) (need : BitVec 6) : Option Nat :=
  ((s.party pid).cores.flatMap fun c => (List.range 16).map (c * 16 + ·)).find? fun k =>
    (tget {} s.plat k).st == .held && hasFeat s need (coreOf k)

/-- A free placement of a party's class in its cluster whose cores hold what its threads need (R11, R42, R271, R349). -/
def clusterPlacement (s : State) (pid : Nat) (st : Stop) : Option (List Nat) :=
  let p := s.party pid
  let size := unitCores p.cls
  let cl := clusterOf (p.cores.headD 0)
  (List.range (64 / size)).findSome? fun u =>
    fitCores s (((List.range size).map (cl * 64 + u * size + ·)).filter (coreFree s 0))
      ((List.range p.cores.length).map (coreNeed s pid st))

/-- Whether a move of the whole party takes a thread to a core that holds what it needs (R271). -/
def moveServes (s : State) (st : Stop) (k : Nat) : Bool :=
  st.tidx.isNone && hasFeat s (needOf s { st with services := [k] } k) (st.cores.getD ((s.threadAt k).party.tidx.toNat / 16) 0)

/-- The answer to a MIGRATE service of the thread at place k (R271): a free slot of the placement, else a move of the
whole party, else EVAL2 becomes 1. -/
def serveMigrate (s asked : State) (k : Nat) : State :=
  let t := s.threadAt k
  let st : Stop := { kind := .migrate, services := [k] }
  match if 1 < (s.party t.pid).nthr then freeSlot s t.pid (needOf s st k) else none with
  | some to_ => noteStop asked t.pid { st with tidx := some t.party.tidx.toNat, target := to_ }
  | none =>
    match clusterPlacement s t.pid st with
    | some cores => noteStop asked t.pid { st with cores := cores }
    | none => answer s k 1

/-- A MIGRATE service whose party moves already, by a migration that does not serve it (R271): that migration waits until
the service has had its answer, since it cannot go on while the thread is stopped in its escalation (R273). -/
def serveFirst (s asked : State) (k : Nat) (pid : Nat) (st : Stop) : State :=
  let put := fun (s : State) => { undoMove s pid st with moveQueue := (pid, st) :: s.moveQueue }
  let t := serveMigrate (put s) (put asked) k
  if (tfind t.stops pid).isSome then requestQueued t pid else answer s k 1

/-- SERVICE_MIGRATE (R271): the thread at place ev.p is to move to a core that holds REQF OR EVAL2[5:0]. While its party
moves already, its request is served by that move, if that takes it to such a core, after another thread's move that has
begun, or before the move that waits for it; one that falls while the party stops for a save is discarded (R289), so
EVAL2 becomes 1. -/
def execServiceMigrate (s : State) : Out :=
  let k := s.ev.p
  match if s.watchdog then none else escalOf s k with
  | none => .next s
  | some e =>
    if e.service ≠ some 2 || e.asked then .next s
    else
      let t := s.threadAt k
      let pid := t.pid
      let asked := { s with escal := s.escal.map fun (x : Escalation) => if x.place = k then { x with asked := true } else x }
      match tfind s.stops pid with
      | none => .next (serveMigrate s asked k)
      | some st =>
        if st.kind ≠ .migrate then .next (answer s k 1)
        else if st.begun && st.tidx.any (· != t.party.tidx.toNat) then .next s
        else if moveServes s st k then
          .next { asked with stops := tput s.stops pid { st with services := st.services ++ [k] } }
        else .next (serveFirst s asked k pid st)

/-- The reading of a tile's sensor. -/
def tempOf (s : State) (tile : Nat) : Nat := (tget {} s.tiles tile).temp

/-- The coolest core among candidates, ties to the lower number (R376). -/
def coolest (s : State) : List Nat → Option Nat
  | [] => none
  | c :: cs => some (cs.foldl (fun a b => if tempOf s (tileOf b) < tempOf s (tileOf a) then b else a) c)

/-- A core put into a list by the reading of its tile, coolest first, ties to the lower number (R376). -/
def insertCool (s : State) (c : Nat) : List Nat → List Nat
  | [] => [c]
  | x :: xs =>
    if tempOf s (tileOf c) < tempOf s (tileOf x) || (tempOf s (tileOf c) == tempOf s (tileOf x) && decide (c < x)) then c :: x :: xs
    else x :: insertCool s c xs

/-- Whether the first of two lists of cores, each coolest first, is the better target (R376). -/
def coolerList (s : State) : List Nat → List Nat → Bool
  | a :: as, b :: bs =>
    if a = b then coolerList s as bs
    else decide (tempOf s (tileOf a) < tempOf s (tileOf b)) || (tempOf s (tileOf a) == tempOf s (tileOf b) && decide (a < b))
  | _, _ => false

/-- The target of a whole party of several threads (R376): in each unit of its class the coolest cores that qualify, of
these the unit that has the coolest; in placement order. -/
def coolPlacement (s : State) (cl size n : Nat) (fit : Nat → Bool) : Option (List Nat) :=
  let units := (List.range (64 / size)).filterMap fun u =>
    let free := ((List.range size).map (cl * 64 + u * size + ·)).filter fit
    if n ≤ free.length then some ((free.foldl (fun l c => insertCool s c l) []).take n) else none
  match units with
  | [] => none
  | l :: ls =>
    let best := ls.foldl (fun a b => if coolerList s b a then b else a) l
    some (((List.range 64).map (cl * 64 + ·)).filter best.contains)

/-- A thermal migration noted, with the time it began on the tile (R376). -/
def noteThermal (s : State) (tile pid : Nat) (st : Stop) : State :=
  let s' := noteMigration s pid st
  if (tfind s.stops pid).isNone && (tfind s'.stops pid).isSome then
    { s' with tiles := tput s'.tiles tile { tget {} s'.tiles tile with migAt := some s.clock } }
  else s'

/-- Whether a tile asks for the migration of a party (R376): the policy is on, the tile too hot, no migration of
the tile began within a millisecond, and the party is persistent and stands on it. -/
def thermalDue (s : State) (tile pid : Nat) : Bool :=
  let m : TMig := tget {} s.tmig (tile / 16)
  let p := s.party pid
  m.en && decide (m.thresh < tempOf s tile) && !s.watchdog && p.cores.any (fun c => tileOf c == tile) &&
  decide (micros m.persist ≤ elapsed s p.boundAt) &&
  match (tget {} s.tiles tile : TilePower).migAt with
  | none => true
  | some at_ => decide (micros 1000 ≤ elapsed s at_)

/-- THERMAL_MIGRATION (R376): a persistent party ev.m that stands on hot tile ev.n is moved to the target that R376
gives: a single thread to a free core of its cluster; of a larger party, the thread ev.k of that tile to a free slot of
its placement, or, when ev.yes, the whole party to a free placement whose cores all qualify. -/
def execThermalMigration (s : State) : Out :=
  let tile := s.ev.n
  let pid := s.ev.m
  let cl := tile / 16
  let m : TMig := tget {} s.tmig cl
  let p := s.party pid
  let cool := fun c => decide (tempOf s (tileOf c) + 5 < m.thresh)
  if !thermalDue s tile pid then .next s
  else
    let whole : Stop := { kind := .migrate }
    let need := unionReqf s (movers s pid whole)
    if p.nthr ≤ 1 then
      match coolest s (((List.range 64).map (cl * 64 + ·)).filter fun c => cool c && coreFree s need c) with
      | some c => .next (noteThermal s tile pid { whole with cores := [c] })
      | none => .next s
    else if s.ev.yes then
      match coolPlacement s cl (unitCores p.cls) p.cores.length fun c => cool c && coreFree s need c with
      | some cores => .next (noteThermal s tile pid { whole with cores := cores })
      | none => .next s
    else if !(placeOfIndex s pid s.ev.k).any fun k => tileOf (coreOf k) == tile then .next s
    else
      let st : Stop := { kind := .migrate, tidx := some s.ev.k }
      let reqf := unionReqf s (movers s pid st)
      let slot := fun c => (List.range 16).find? fun k => (tget {} s.plat (c * 16 + k)).st == .held
      match coolest s (p.cores.filter fun c => cool c && hasFeat s reqf c && (slot c).isSome) with
      | some c => .next (noteThermal s tile pid { st with target := c * 16 + (slot c).getD 0 })
      | none => .next s

end Sys2Proof.Machine
end

