-- ==== Sys2Proof/Machine/Image.lean ====
section
/-!
DEFINITION. The loader (R320 to R322, R387), the Iceri image format (R367) and its translator (R368).
-/

namespace Sys2Proof.Machine

/-- A finding of the loader: row and column of the element it concerns, 0 when none applies (R320). -/
abbrev Finding := Option (Nat × Nat)

/-- A finding at an element. -/
def atElem (e : Elem) : Nat × Nat := (e.pos / 64, e.pos % 64)

/-- The element records of a region record, in order. -/
def recElems (r : List Word) : List Elem := (List.range (recNelem r)).map fun i => freshElem (recElem r i)

/-- A region record as the loader examines it. -/
def recRegion (r : List Word) : Region := { img := 0, ridx := 0, surv := 0, words := r, elems := loadElems r }

/-- The operations that need operand A alone, A and B, or all three (R234, R235, R240, R243). -/
def opsA : List Nat := [0x08, 0x1E, 0x20, 0x21, 0x25, 0x26, 0x27, 0x28, 0x2A, 0x39, 0x3A]
def opsAB : List Nat := [0x01, 0x02, 0x03, 0x04, 0x05, 0x06, 0x07, 0x09, 0x0A, 0x0B, 0x0C, 0x0D, 0x0E, 0x0F, 0x10, 0x11,
  0x18, 0x19, 0x1A, 0x1C, 0x1D, 0x22, 0x24, 0x2B]
def opsABC : List Nat := [0x12, 0x1B]

/-- Whether an element's operand sources are those its operation reads (R232). -/
def operandsOk (e : Elem) : Bool :=
  let a := e.sa != 0
  let b := e.sb != 0
  let c := e.sc != 0
  let op := e.op
  if opsA.contains op then a && !b && !c
  else if opsAB.contains op then a && b && !c
  else if opsABC.contains op then a && b && c
  else if op = 0x23 then c
  else if op = 0x29 then !b && !c && decide (e.sa ≤ 4)
  else if op = 0x38 then (a || b || c) && decide (e.sa ≤ 4) && decide (e.sb ≤ 4) && decide (e.sc ≤ 4)
  else !a && !b && !c

/-- Whether an operation code is listed, 0 standing for an empty position (R232, R233). -/
def opListed (op : Nat) : Bool :=
  decide (op ≤ 0x12) || (decide (0x18 ≤ op) && decide (op ≤ 0x1E)) || (decide (0x20 ≤ op) && decide (op ≤ 0x27)) ||
  (decide (0x28 ≤ op) && decide (op ≤ 0x2E)) || (decide (0x38 ≤ op) && decide (op ≤ 0x3A))

/-- Whether SUB holds what the operation gives it (R234, R235, R243). -/
def subOk (e : Elem) : Bool :=
  let op := e.op
  if op = 0x11 then decide (e.sub ≤ 5)
  else if op = 0x25 || op = 0x27 then decide (1 ≤ e.sub) && decide (e.sub ≤ 3)
  else if op = 0x39 then decide (e.sub ≤ 3)
  else e.sub == 0

/-- Whether the words from n on are zero. -/
def restZero (e : Elem) (n : Nat) : Bool := (e.conf.drop n).all (· == 0)

/-- Whether the levels of an AG keep R236. -/
def levelsOk (e : Elem) : Bool :=
  let cnt := fun l => nbits (e.word (4 + l)) 32 16
  cnt 0 != 0 && (List.range 3).all (fun l => cnt l != 0 || cnt (l + 1) == 0) &&
  (List.range 4).all fun l => decide (e.word (4 + l) < 2 ^ 50)

/-- Whether the extension words keep R236 to R240 (EXT's result halves and a CAI's band apart). -/
def extensionOk (e : Elem) : Bool :=
  let op := e.op
  let w := e.word 4
  if op = 0x29 then levelsOk e
  else if op = 0x2A || op = 0x2B then
    decide (w < 2 ^ 55) && nbits (e.word 5) 0 2 != 3 && (Scope.ofCode (nbits (e.word 5) 3 3)).isSome &&
      decide (e.word 5 < 2 ^ 8) && restZero e 6
  else if op = 0x28 then nbits w 0 16 != 0 && nbits w 16 2 != 0 && decide (w < 2 ^ 19) && restZero e 5
  else if op = 0x2E then
    decide (1 ≤ nbits w 22 6) && decide (nbits w 22 6 ≤ 48) && nbits w 28 2 != 0 && decide (w < 2 ^ 30) && restZero e 5
  else if op = 0x2C then
    nbits w 4 4 == 0 && decide (w < 2 ^ 40) && restZero e 5 &&
      (List.range 4).all fun n =>
        let h := nbits w (8 * n + 8) 8
        decide (h ≤ 7) && ((e.dest n).isNone || decide (h < 2 * (nbits w 0 2 + 1)))
  else if op = 0x2D then
    decide (w < 2 ^ 32) && restZero e 5 && (List.range 4).all fun n => nbits w (8 * n + 3) 4 == 0
  else restZero e 4

/-- Whether an element record keeps the rules of R232 to R240 that concern it alone. -/
def elementOk (e : Elem) : Bool :=
  let op := e.op
  opListed op && operandsOk e && subOk e && extensionOk e &&
  nbits (e.word 0) 12 8 == 0 && decide (nbits (e.word 0) 6 6 ≤ 47) &&
  (List.range 4).all (fun q => decide (e.qdepth q ≤ 4)) &&
  (List.range 4).all (fun n => !nbit (e.word 3) (16 * n)) &&
  (if op = 0x1E then
    (List.range 13).contains (nbits (e.word 0) 49 4) && nbits (e.word 0) 49 4 != 0 &&
      (List.range 13).contains (nbits (e.word 0) 45 4) && nbits (e.word 0) 45 4 != 0
   else nbits (e.word 0) 45 8 == 0) &&
  (op != 0x20 || e.dests.length == 1) && (op != 0x21 || decide (2 ≤ e.dests.length)) &&
  (op != 0x27 || e.c0 != 0)

/-- The band of a CAI stands wholly on accumulators (R240). -/
def bandOk (g : Region) (e : Elem) : Bool :=
  let w := e.word 4
  let bw := (nbits w 18 4 + 1) * 8
  e.op != 0x2E || (List.range (nbits w 22 6)).all fun i => (List.range bw).all fun j =>
    ((g.elem ((nbits w 6 6 + i) * 64 + nbits w 12 6 + j)).map (·.op)).getD 0 == 0x28 && decide (nbits w 12 6 + j < 64)

/-- A CAI whose band index an earlier record of the region has (R240). -/
def bandTaken (before : List Elem) (e : Elem) : Bool :=
  e.op == 0x2E && before.any fun x => x.op == 0x2E && nbits (x.word 4) 0 6 == nbits (e.word 4) 0 6

/-- The n_r of the servers that name an EXT (R240): one value each. -/
def namedNr (r : List Word) (g : Region) (pos : Nat) : List Nat :=
  (List.range (recNserv r)).filterMap fun i =>
    let v := recServer r i
    if nbits v 0 12 = pos then (g.elem (nbits v 12 12)).map fun e => nbits (e.word 4) 2 2 + 1 else none

/-- Whether an EXT is named as R240 asks, and its halves lie below 2 x n_r. -/
def extOk (r : List Word) (g : Region) (e : Elem) : Bool :=
  e.op != 0x2D ||
  match namedNr r g e.pos with
  | [] => false
  | n :: ns => ns.all (· == n) && e.extQueues.all fun q => decide (q.2 < 2 * n)

/-- Whether a queue of an element has at most one link (R226). -/
def singleLinks (g : Region) (e : Elem) : Bool :=
  (List.range 4).all fun q =>
    decide ((g.elems.flatMap fun x => x.2.dests.filter fun d => d.2.1 == e.pos && d.2.2 == q).length ≤ 1)

/-- Whether the header, the port table and the server table of a record keep R244. -/
def headerOk (r : List Word) (g : Region) : Bool :=
  let w := recWord r 0
  let graph := recGraph r
  decide (w < 2 ^ 33) && decide (recWord r 1 < 2 ^ 27) && (List.range 4).all (fun n => recWord r (4 + n) == 0) &&
  (if graph then nbits w 4 2 != 0 else nbits w 4 2 == 0) && nbits w 8 3 != 7 &&
  decide (1 ≤ recNelem r) && decide (recNelem r ≤ 3072) && decide (recNserv r ≤ 16) && (!graph || recNserv r == 0) &&
  (graph || !nbit w 26) && (nbit w 26 || nbits w 27 6 == 0) && (!nbit w 26 || (g.injectAt (nbits w 27 6)).isSome) &&
  (List.range 64).all (fun p => nbits (recPort r p) 12 3 == 0) &&
  (List.range (recNserv r)).all fun i =>
    let v := recServer r i
    decide (v < 2 ^ 24) && ((g.elem (nbits v 12 12)).map (·.op)).getD 0 == 0x2C && ((g.elem (nbits v 0 12)).map (·.op)).getD 0 == 0x2D

/-- The parts of a sufficiency entry (R244): position, qA, qB, n. -/
def suffPos (v : Nat) : Nat := nbits v 25 6 * 64 + nbits v 19 6
def suffA (v : Nat) : Nat := nbits v 17 2
def suffB (v : Nat) : Nat := nbits v 15 2

/-- Whether a sufficiency entry is a record of R244 and R321. -/
def suffOk (g : Region) (v : Nat) : Bool :=
  nbits v 8 7 == 0 &&
  if nbit v 31 then suffA v == 0 && suffB v == 0
  else match g.elem (suffPos v) with
    | some e => suffA v != suffB v && e.reads.contains (suffA v) && e.reads.contains (suffB v)
    | none => false

/-- The first sufficiency entry that fails a test, as a finding. -/
def firstSuff (r : List Word) (ok : Nat → Bool) : Finding :=
  (((List.range (recNsuff r)).map (recSuff r)).find? fun v => !ok v).map fun v => (nbits v 25 6, nbits v 19 6)

/-- The first element record that fails a test, as a finding. -/
def firstElem (es : List Elem) (ok : Elem → Bool) : Finding := (es.find? fun e => !ok e).map atElem

/-- The first element record that a test with the records before it refuses. -/
def firstAfter (bad : List Elem → Elem → Bool) : List Elem → List Elem → Finding
  | _, [] => none
  | before, e :: es => if bad before e then some (atElem e) else firstAfter bad (before ++ [e]) es

/-- The first answer of several checks. -/
def firstFinding : List Finding → Finding
  | [] => none
  | some x :: _ => some x
  | none :: rest => firstFinding rest

/-- Code 1, RECORD (R320). -/
def checkRecord (r : List Word) : Finding :=
  let g := recRegion r
  let es := recElems r
  firstFinding
    [if headerOk r g then none else some (0, 0),
     firstElem es fun e => elementOk e && bandOk g e && extOk r g e && singleLinks g e,
     firstAfter bandTaken [] es,
     firstSuff r (suffOk g)]

/-- The operations that stand at the edge alone (R315). -/
def edgeOp (op : Nat) : Bool := decide (0x29 ≤ op) && decide (op ≤ 0x2E)

/-- Code 2, POSITION (R315, R320). -/
def checkPosition (r : List Word) : Finding :=
  let g := recRegion r
  let es := recElems r
  let inside := fun (p : Nat) => decide (p % 64 < recWidth r) && decide (p / 64 ≤ 47)
  firstFinding
    [firstAfter (fun before e => before.any fun x => x.pos == e.pos) [] es,
     firstElem es fun e => inside e.pos && e.dests.all (fun d => inside d.2.1) &&
       (!(edgeOp e.op || (g.portOf e.pos).isSome) || e.pos / 64 == 0 || e.pos / 64 == 47)]

/-- The element whose link enters a queue. -/
def linkSource (g : Region) (p q : Nat) : Option Elem :=
  (g.elems.find? fun x => x.2.dests.any fun d => d.2.1 == p && d.2.2 == q).map (·.2)

/-- The path depth of a queue (R321), through PASS and FORK; the fuel bounds the elements on the path. -/
def pathDepth (g : Region) : Nat → Nat → Nat → Nat
  | 0, p, q => g.depth p q
  | fuel + 1, p, q =>
    g.depth p q + match linkSource g p q with
      | some e => match if e.op = 0x20 || e.op = 0x21 then queueOf e.sa else none with
        | some k => pathDepth g fuel e.pos k
        | none => 0
      | none => 0

/-- Links out of an element: destination and slots. -/
def linksOut (g : Region) (p : Nat) : List (Nat × Nat) :=
  ((g.elem p).map fun e => e.dests.map fun d => (d.2.1, g.depth d.2.1 d.2.2)).getD []

/-- Distances in slots improved along every link once. -/
def relax (g : Region) (dist : Table Nat) : Table Nat :=
  dist.foldl (fun t x => (linksOut g x.1).foldl (fun t l =>
    match tfind t l.1 with
    | some d => if x.2 + l.2 < d then tput t l.1 (x.2 + l.2) else t
    | none => tput t l.1 (x.2 + l.2)) t) dist

/-- Distances after n rounds. -/
def relaxN (g : Region) : Nat → Table Nat → Table Nat
  | 0, t => t
  | n + 1, t => relaxN g n (relax g t)

/-- The least slots of a directed cycle through a position (R321), none when there is no cycle. -/
def leastCycle (g : Region) (p : Nat) : Option Nat :=
  let start := (linksOut g p).foldl (fun (t : Table Nat) l => tput t l.1 (min l.2 ((tfind t l.1).getD l.2))) []
  tfind (relaxN g g.elems.length start) p

/-- Code 3, SUFFICIENCY (R321). -/
def checkSufficiency (r : List Word) : Finding :=
  let g := recRegion r
  firstSuff r fun v =>
    let n := nbits v 0 8
    n == 0 ||
    if nbit v 31 then
      match leastCycle g (suffPos v) with
      | some m => decide (n ≤ m)
      | none => false
    else decide (n ≤ pathDepth g g.elems.length (suffPos v) (suffA v))

/-- Code 4, ZERO_LOOP (R320): a cycle of links without slots. -/
def checkZeroLoop (r : List Word) : Finding :=
  let g := recRegion r
  firstElem (recElems r) fun e => leastCycle g e.pos != some 0

/-- Code 5, FAULT_EDGE (R242, R320, R387). -/
def checkFaultEdge (rs : List (List Word)) (r : List Word) : Finding :=
  let w := recWord r 0
  let frank := nbits w 11 3
  let ok := if recTarget r = 0x3F then frank == 7
    else match rs[recTarget r]? with
      | none => false
      | some h => decide (nbits w 8 3 < frank) && frank == nbits (recWord h 0) 8 3 && ((recRegion h).injectAt (recFport r)).isSome
  if ok then none else some (0, 0)

/-- Code 6, RATE (R243): MRGA, QOCC and TIME only in a NATIVE region of an image loaded with privilege. -/
def checkRate (priv : Bool) (r : List Word) : Finding :=
  let ok := priv && nbit (recWord r 0) 6 && !nbit (recWord r 0) 7
  firstElem (recElems r) fun e => ok || decide (e.op < 0x38)

/-- Code 7, PORTABLE (R322). -/
def checkPortable (r : List Word) : Finding :=
  let g := recRegion r
  if !nbit (recWord r 0) 7 then none
  else if nbit (recWord r 0) 6 then some (0, 0)
  else firstElem (recElems r) fun e => e.dests.all fun d => g.depth d.2.1 d.2.2 != 1

/-- The first region that a check refuses. -/
def firstRegion (check : List Word → Finding) (code : Nat) : Nat → List (List Word) → Option (Nat × Nat × Nat × Nat)
  | _, [] => none
  | k, r :: rs =>
    match check r with
    | some (row, col) => some (code, k, row, col)
    | none => firstRegion check code (k + 1) rs

/-- The region in which an image's servers pass 16 (R244). -/
def tooManyServers : List (List Word) → Nat → Nat → Option (Nat × Nat × Nat × Nat)
  | [], _, _ => none
  | r :: rs, k, n => if 16 < n + recNserv r then some (1, k, 0, 0) else tooManyServers rs (k + 1) (n + recNserv r)

/-- The first check of R320 that refuses an image's regions: code, region, row, column. -/
def loaderCheck (priv : Bool) (rs : List (List Word)) : Option (Nat × Nat × Nat × Nat) :=
  firstSome' [
    firstRegion checkRecord 1 0 rs, tooManyServers rs 0 0,
    firstRegion checkPosition 2 0 rs, firstRegion checkSufficiency 3 0 rs, firstRegion checkZeroLoop 4 0 rs,
    firstRegion (checkFaultEdge rs) 5 0 rs, firstRegion (checkRate priv) 6 0 rs, firstRegion checkPortable 7 0 rs]
where
  /-- The first refusal of a list. -/
  firstSome' : List (Option (Nat × Nat × Nat × Nat)) → Option (Nat × Nat × Nat × Nat)
    | [] => none
    | some x :: _ => some x
    | none :: xs => firstSome' xs

/-- Word n of an image's header (R367). -/
def imgWord (bs : List Byte) (n : Nat) : Nat := leNat (cut bs (8 * n) 8)

/-- Counts and flags of an image's header (R367). -/
def imgNvcore (bs : List Byte) : Nat := nbits (imgWord bs 3) 0 10 + 1
def imgNchan (bs : List Byte) : Nat := nbits (imgWord bs 3) 10 8
def imgNregion (bs : List Byte) : Nat := nbits (imgWord bs 3) 18 4
def imgPortable (bs : List Byte) : Bool := nbit (imgWord bs 2) 8
def imgSigned (bs : List Byte) : Bool := nbit (imgWord bs 2) 10

/-- Word n of the entry of a virtual core (R367). -/
def vcoreWord (bs : List Byte) (v n : Nat) : Nat := leNat (cut bs (imgWord bs 4 + 32 * v + 8 * n) 8)

/-- A region record's size in bytes, from its header (R244). -/
def recBytes (h : List Word) : Nat := 8 * (recElemAt h + 8 * recNelem h)

/-- The region records that stand one after another from an offset, n of them. -/
def cutRegions (bs : List Byte) : Nat → Nat → List (List Word)
  | 0, _ => []
  | n + 1, off =>
    let size := recBytes (wordList 8 (cut bs off 64))
    wordList (size / 8) (cut bs off size) :: cutRegions bs n (off + size)

/-- An image's region records. -/
def imgRegions (bs : List Byte) : List (List Word) := cutRegions bs (imgNregion bs) (imgWord bs 6)

/-- The size of the region records. -/
def regionsSize (bs : List Byte) : Nat := ((imgRegions bs).map fun r => recBytes r).foldl (· + ·) 0

/-- The tables of an image that hold anything: offset and length. -/
def imgTables (bs : List Byte) : List (Nat × Nat) :=
  [(0, 128), (imgWord bs 4, 32 * imgNvcore bs), (imgWord bs 5, 16 * imgNchan bs), (imgWord bs 6, regionsSize bs),
   (imgWord bs 7, if imgSigned bs then 3309 else 0), (imgWord bs 8, if imgWord bs 8 = 0 then 0 else 128)].filter (·.2 != 0)

/-- Whether no two of a list of spans overlap. -/
def apart : List (Nat × Nat) → Bool
  | [] => true
  | x :: xs => xs.all (fun y => decide (x.1 + x.2 ≤ y.1) || decide (y.1 + y.2 ≤ x.1)) && apart xs

/-- Whether a virtual core's entry is well formed (R367). -/
def vcoreOk (bs : List Byte) (v : Nat) : Bool :=
  let w := vcoreWord bs v
  let len := bs.length
  decide (nbits (w 0) 0 32 + nbits (w 0) 32 32 ≤ len) && decide (nbits (w 1) 0 32 < len) &&
  (nbits (w 1) 32 32 == 0xFFFFFFFF || decide (nbits (w 1) 32 32 < len)) &&
  decide (nbits (w 2) 0 32 + nbits (w 2) 32 32 ≤ len) && decide (w 3 ≤ 8)

/-- Whether a channel's entry is well formed (R367). -/
def channelOk (bs : List Byte) (c : Nat) : Bool :=
  let w := leNat (cut bs (imgWord bs 5 + 16 * c) 8)
  decide (w < 2 ^ 27) && leNat (cut bs (imgWord bs 5 + 16 * c + 8) 8) == 0 &&
  decide (nbits w 0 10 < imgNvcore bs) && decide (nbits w 10 10 < imgNvcore bs) &&
  if nbit w 20 then decide (nbits w 21 6 ≤ 8) else decide (nbits w 21 6 < 56)

/-- Whether a selector's entry is well formed (R367). -/
def selectorOk (bs : List Byte) (n : Nat) : Bool := nbits (leNat (cut bs (imgWord bs 8 + 8 * n) 8)) 4 59 == 0

/-- Code 9 of R367: fields that must be zero, counts and offsets inside the image, no two tables overlapping. -/
def imageFormed (bs : List Byte) : Bool :=
  decide (128 ≤ bs.length) && nbits (imgWord bs 0) 32 32 == 0x49434552 && decide (imgWord bs 1 < 2 ^ 16) &&
  nbits (imgWord bs 2) 6 2 == 0 && decide (imgWord bs 2 < 2 ^ 11) && decide (imgWord bs 3 < 2 ^ 22) &&
  (List.range 7).all (fun n => imgWord bs (9 + n) == 0) &&
  (imgTables bs).all (fun t => decide (t.1 + t.2 ≤ bs.length)) && apart (imgTables bs) &&
  (imgNregion bs == 0 || imgWord bs 6 % 64 == 0) &&
  (List.range (imgNvcore bs)).all (vcoreOk bs) && (List.range (imgNchan bs)).all (channelOk bs) &&
  (imgWord bs 8 == 0 || (List.range 16).all (selectorOk bs))

/-- Whether an image's signature verifies under one of the installed keys (R367, R378). -/
def signatureOk (s : State) (bs : List Byte) : Bool :=
  let body := bs.take (imgWord bs 7)
  s.firmware.keys.any fun k => k != [] && mldsaVerify k (digest body) (cut bs (imgWord bs 7) 3309)

/-- The channels of an image. -/
def imgChannels (bs : List Byte) : List Channel :=
  (List.range (imgNchan bs)).map fun c =>
    let w := leNat (cut bs (imgWord bs 5 + 16 * c) 8)
    { sender := nbits w 0 10, receiver := nbits w 10 10, inbox := nbit w 20, field := nbits w 21 (if nbit w 20 then 4 else 6) }

/-- The selectors of an image. -/
def imgSelectors (bs : List Byte) : List (Bool × Nat) :=
  if imgWord bs 8 = 0 then []
  else (List.range 16).map fun n => let w := leNat (cut bs (imgWord bs 8 + 8 * n) 8); (nbit w 63, nbits w 0 4)

/-- The image as the table holds it: addresses count from where the host has placed it in the survey's address
space, its region records lie from its physical address src on. -/
def readImage (bs : List Byte) (host gen base src : Nat) : Image :=
  { gen := gen, used := true, host := host, base := base
    reqf := BitVec.ofNat 6 (imgWord bs 2)
    vcores := (List.range (imgNvcore bs)).map fun v =>
      let e := vcoreWord bs v 1
      { entry := base + nbits e 0 32
        trapEntry := if nbits e 32 32 = 0xFFFFFFFF then none else some (base + nbits e 32 32)
        lmsplit := nbits (vcoreWord bs v 3) 0 4 }
    channels := imgChannels bs, selectors := imgSelectors bs, regions := imgRegions bs, recordsAt := src + imgWord bs 6 }

/-- A text word that a portable image may hold (R368). -/
def portableWord (bs : List Byte) (w : W32) : Bool :=
  match decode w with
  | .error _ => false
  | .ok i => match i with
    | .srv _ _ _ _ _ n => ((imgSelectors bs).getD n.toNat (false, 0)).1
    | .trap _ => true
    | _ => bits w 31 26 != 0x38

/-- The words of a virtual core's text. -/
def textWords (bs : List Byte) (v : Nat) : List W32 :=
  let w := vcoreWord bs v 0
  (List.range (nbits w 32 32 / 4)).map fun i => BitVec.ofNat 32 (leNat (cut bs (nbits w 0 32 + 4 * i) 4))

/-- Whether the bindings and rings of placement core j fit its scratchpad (R368). -/
def ringsFit (im : Image) (n j : Nat) : Bool :=
  let ring := (coreRings im n j).foldl (fun m x => max m (x.base + 256 * 2 ^ x.size)) 0
  let bound := (List.range im.channels.length).foldl (fun m c =>
    match im.channels[c]? with
    | some ch => if ch.sender / 16 = j then 8 * (c + 1) else m
    | none => m) 0
  decide (max ring bound ≤ coreSplit im n j * 16384)

/-- The translator accepts an image (R368). -/
def translatorOk (bs : List Byte) (im : Image) : Bool :=
  let n := imgNvcore bs
  (!imgPortable bs || (List.range n).all fun v => (textWords bs v).all (portableWord bs)) &&
  im.channels.all (fun c => !c.inbox || im.channels.all fun d => !d.inbox || d.receiver != c.receiver || d.field == c.field) &&
  (List.range ((n + 15) / 16)).all (ringsFit im n)

/-- The lowest free entry of the image table (R358). -/
def freeEntry (s : State) : Option Nat := (List.range' 1 4095).find? fun i => !(tget ({} : Image) s.images i).used

/-- What IMG_ADD finds in an image, in the order of R367: the image to enter and its entry, or a refusal code
with the place it concerns. -/
def imageCheck (s : State) (host base src : Nat) (priv : Bool) (bs : List Byte) : Except (Nat × Nat × Nat × Nat) (Nat × Image) :=
  match freeEntry s with
  | none => .error (13, 0, 0, 0)
  | some idx =>
    let im := readImage bs host (tget ({} : Image) s.images idx).gen base src
    if nbits (imgWord bs 0) 16 16 ≠ 1 then .error (8, 0, 0, 0)
    else if !imageFormed bs then .error (9, 0, 0, 0)
    else if s.firmware.require && !imgSigned bs then .error (11, 0, 0, 0)
    else if imgSigned bs && !signatureOk s bs then .error (10, 0, 0, 0)
    else match loaderCheck priv im.regions with
      | some f => .error f
      | none => if translatorOk bs im then .ok (idx, im) else .error (12, 0, 0, 0)

end Sys2Proof.Machine
end

