-- ==== Sys2Proof/Machine/Host.lean ====
section
/-!
DEFINITION. The host attachment (R354 to R360, R370): the mailbox and its commands, the registers that hosts
set, the state-survey service, interrupts, and the links to hosts and to other packages (R355, R362 to R366).
-/

namespace Sys2Proof.Machine

/-- A host's port record. -/
def State.host (s : State) (h : Nat) : HostPort := tget {} s.hosts h

/-- The state with a host's port record replaced. -/
def State.setHost (s : State) (h : Nat) (p : HostPort) : State := { s with hosts := tput s.hosts h p }

/-- Where a host's bus address lies (R354). -/
def hostPa (h a : Nat) : Nat := (0xF0 + h) * 2 ^ 44 + a

/-- Whether a span of a host's memory can be reached. -/
def hostSpan (s : State) (h a n : Nat) : Bool := (s.host h).linkUp && decide (a + n ≤ 2 ^ 44)

/-- Bytes of a host's memory, none on a host fault (R357). -/
def hostRead (s : State) (h a n : Nat) : Option (List Byte) :=
  if hostSpan s h a n then some (cgets s.mem (hostPa h a) n) else none

/-- Bytes written to a host's memory, none on a host fault (R357). -/
def hostWrite (s : State) (h a : Nat) (bs : List Byte) : Option State :=
  if hostSpan s h a bs.length then some { s with mem := cputs s.mem (hostPa h a) bs } else none

/-- The response statuses (R357). -/
inductive Status where
  | ok | badCommand | refused | hostFault
  deriving DecidableEq, Repr

/-- The code of a status (R357). -/
def Status.code : Status → Nat
  | .ok => 0 | .badCommand => 1 | .refused => 2 | .hostFault => 3

/-- Word n of a host's mailbox command. -/
def HostPort.cmd (p : HostPort) (n : Nat) : Nat := (p.cw.getD n 0).toNat

/-- A response (R357): the result words it gives, the others free, then RW0 with SEQ and STATUS; the MAILBOX
cause rises (R360). -/
def respond (s : State) (h : Nat) (st : Status) (rws : List Nat) : State :=
  let p := s.host h
  let rw0 : Word := BitVec.ofNat 64 (nbits (p.cmd 0) 48 16 * 2 ^ 48 + st.code)
  let rest : List Word := (List.range 7).map fun i =>
    match rws[i]? with
    | some v => BitVec.ofNat 64 v
    | none => Config.freeWord (s.tick + i)
  raiseCause ({ s with tick := s.tick + 7 }.setHost h { p with rw := rw0 :: rest, submitted := false }) h 3

/-- Whether host h's mailbox holds a submitted command of a code, and the Surveyor serves it (R375). -/
def mailboxHolds (s : State) (h code : Nat) : Bool :=
  (s.host h).submitted && !s.watchdog && nbits ((s.host h).cmd 0) 0 8 == code

/-- A mailbox command of host ev.n carried out: what it does, and its response. -/
def mailbox (s : State) (code : Nat) (act : Nat → HostPort → State → Status × List Nat × State) : Out :=
  let h := s.ev.n
  if !mailboxHolds s h code then .next s
  else
    let (st, rws, t) := act h (s.host h) s
    .next (respond t h st rws)

/-- IMG_ADD (R320, R358, R367, R368): the image at the host's address is checked, translated and entered; ev.v is
where its bytes lie in the address space of the surveys that name it, and ev.yes says that it is loaded with
privilege (R243). -/
def execImgAdd (s : State) : Out :=
  mailbox s 0x02 fun h p s =>
    match hostRead s h (p.cmd 1) (p.cmd 2) with
    | none => (.hostFault, [], s)
    | some bs =>
      match imageCheck s h s.ev.v.toNat (hostPa h (p.cmd 1)) s.ev.yes bs with
      | .ok (idx, im) => (.ok, [im.gen * 4096 + idx], { s with images := tput s.images idx im })
      | .error (code, k, row, col) =>
        (.refused, if code ≤ 7 then [code, (Config.loaderWhere k row col).toNat] else [code], s)

/-- IMG_REMOVE (R355, R358): a host removes an image it entered, at once or when its surveys have ended. -/
def execImgRemove (s : State) : Out :=
  mailbox s 0x03 fun h p s =>
    let handle := p.cmd 1
    match s.imageOf handle with
    | none => (.refused, [], s)
    | some im =>
      if im.host ≠ h || im.removing then (.refused, [], s)
      else if imageInUse s handle then
        (.ok, [], { s with images := tput s.images (handle % 4096) { im with removing := true } })
      else (.ok, [], freeImage s (handle % 4096))

/-- SET_DOMAIN (R357): package number and plane mask, before the first launch; every plane whose link is up can be used
again (R364). -/
def execSetDomain (s : State) : Out :=
  mailbox s 0x05 fun _ p s =>
    if s.launched || 191 < nbits (p.cmd 1) 0 8 then (.refused, [], s)
    else (.ok, [], { s with
      pkgNo := BitVec.ofNat 8 (p.cmd 1), planes := BitVec.ofNat 24 (p.cmd 2), domainSet := true
      ports := s.ports.map fun x => (x.1, { x.2 with lost := false }) })

/-- SETREG of a class (R357, R359): instance and register number must be listed; it returns the value now held. -/
def setreg (s : State) (cls : Nat) (listed : State → Nat → Nat → Bool)
    (act : Nat → Nat → Nat → Nat → State → Status × Nat × State) : Out :=
  let p := s.host s.ev.n
  if p.cmd 1 ≠ cls || !listed s (p.cmd 2) (p.cmd 3) then .next s
  else mailbox s 0x04 fun h p s =>
    let (st, v, t) := act h (p.cmd 2) (p.cmd 3) (p.cmd 4) s
    (st, [v], t)

/-- Whether a METER instance names a region of an image in the table (R359). -/
def meterListed (s : State) (inst : Nat) : Bool :=
  match s.imageOf (inst / 16) with
  | some im => decide (inst % 16 < im.regions.length)
  | none => false

/-- The region record a METER instance names. -/
def meterWords (s : State) (inst : Nat) : List Word :=
  ((s.imageOf (inst / 16)).map fun im => im.regions.getD (inst % 16) []).getD []

/-- The metering settings of a region (R323): every cluster holds them alike. -/
def meterOf (s : State) (inst : Nat) : Meter := tget {} (s.cluster 0).meters inst

/-- Whether a setting keeps R323: a group with EN has a DEPTH of at least the cost of each of its ports. -/
def meterOk (words : List Word) (m : Meter) : Bool :=
  (List.range 64).all fun p =>
    let g := groupOfMeter m (recGroup words p)
    !g.1 || decide (tget 0 m.costs p ≤ g.2.1)

/-- A setting put in every cluster; where the region is resident, its balances as they stand under the old setting are
cut to DEPTH (R323). -/
def putMeter (s : State) (inst : Nat) (m : Meter) : State :=
  (List.range 64).foldl (fun s cl =>
    let c := s.cluster cl
    s.setCluster cl { c with
      meters := tput c.meters inst m
      regions := c.regions.map fun r =>
        (r.1, if meterKey r.2.img r.2.ridx = inst then
          let bal := fun g => min (refilled (c.meter r.2) r.2 s.clock 0 g) (groupOfMeter m g).2.1
          { r.2 with bal := (List.range 4).map bal, balAt := s.clock } else r.2) }) s

/-- MGRP as a register (R323). -/
def mgrpWord (m : Meter) (g : Nat) : Nat :=
  let x := groupOfMeter m g
  x.1.toNat * 2 ^ 63 + x.2.1 * 2 ^ 32 + x.2.2

/-- MGRP_WRITE (R323): a metering group's EN, DEPTH and REFILL. -/
def execMgrpWrite (s : State) : Out :=
  setreg s 1 (fun s inst n => meterListed s inst && decide (n ≤ 3)) fun _ inst n v s =>
    let m := meterOf s inst
    let m' := { m with groups := (List.range 4).map fun g =>
      if g = n then (nbit v 63, nbits v 32 24, nbits v 0 16) else groupOfMeter m g }
    if meterOk (meterWords s inst) m' then (.ok, mgrpWord m' n, putMeter s inst m') else (.refused, mgrpWord m n, s)

/-- MCOST_WRITE (R323): the cost of one token at a port. -/
def execMcostWrite (s : State) : Out :=
  setreg s 1 (fun s inst n => meterListed s inst && decide (16 ≤ n) && decide (n ≤ 79)) fun _ inst n v s =>
    let m := meterOf s inst
    let m' := { m with costs := if nbits v 0 12 = 0 then tdel m.costs (n - 16) else tput m.costs (n - 16) (nbits v 0 12) }
    if meterOk (meterWords s inst) m' then (.ok, tget 0 m'.costs (n - 16), putMeter s inst m')
    else (.refused, tget 0 m.costs (n - 16), s)

/-- A rail under a floor (R334): one below it rises to the setting of the fidelity that the floor leaves. -/
def floorRail (floor : Nat) (r : Rail) : Rail :=
  if floor ≤ r.setpt then r
  else
    let f := achieved floor r.fapp
    { settling := r.settling || r.setpt != railVolt f, fapp := f, setpt := railVolt f }

/-- CFLOOR_WRITE (R334): the lowest setpoint that hosts permit in a cluster; only a write that raises it reaches the
rails. -/
def execCfloorWrite (s : State) : Out :=
  setreg s 2 (fun _ inst n => decide (inst < 64) && n == 0) fun _ inst _ v s =>
    let c := s.cluster inst
    let f := nbits v 0 10
    (.ok, f, s.setCluster inst { c with cfloor := f, rails := if f ≤ c.cfloor then c.rails else c.rails.map (floorRail f) })

/-- OPREQ as a register (R372). -/
def OpReq.word (o : OpReq) : Nat := o.hinten.toNat * 2 ^ 16 + o.floor * 2 ^ 8 + o.req

/-- The highest request of a tile's cores (R372). -/
def tileRequest (s : State) (tile : Nat) (eff : Nat → OpReq → Nat) : Nat :=
  (List.range 4).foldl (fun a k => max a (eff k (tget {} s.opreq (4 * tile + k)))) 0

/-- OPREQ_WRITE (R372): a core's request; FLOOR above REQ is refused, and so is REQ 0 on a core in use. -/
def execOpreqWrite (s : State) : Out :=
  setreg s 3 (fun _ inst n => decide (inst < 4096) && n == 0) fun _ inst _ v s =>
    let o : OpReq := { hinten := nbit v 16, floor := nbits v 8 3, req := nbits v 0 3 }
    let used := (List.range 16).any fun k => (tget {} s.plat (inst * 16 + k)).st != .free
    if o.req < o.floor || (o.req = 0 && used) then (.refused, (tget ({} : OpReq) s.opreq inst).word, s)
    else (.ok, o.word, { s with opreq := tput s.opreq inst o })

/-- TMIG as a register (R376). -/
def TMig.word (m : TMig) : Nat := m.en.toNat * 2 ^ 63 + m.thresh * 2 ^ 40 + m.persist

/-- TMIG_WRITE (R376): a cluster's thermal migration policy. -/
def execTmigWrite (s : State) : Out :=
  setreg s 4 (fun _ inst n => decide (inst < 64) && n == 0) fun _ inst _ v s =>
    let m : TMig := { en := nbit v 63, thresh := nbits v 40 8, persist := nbits v 0 32 }
    (.ok, m.word, { s with tmig := tput s.tmig inst m })

/-- CTBASE_WRITE (R306, R359): the context table's base and enable. -/
def execCtbaseWrite (s : State) : Out :=
  setreg s 5 (fun _ inst n => inst == 0 && n == 0) fun _ _ _ v s =>
    (.ok, (nbit v 63).toNat * 2 ^ 63 + nbits v 20 32 * 2 ^ 20,
      { s with ctbaseEn := nbit v 63, ctbase := nbits v 20 32 * 2 ^ 20 })

/-- The FW registers of R359 that act when written: FWSTAGE, FWACT, ATTOUT and the image keys. -/
def fwActs (n : Nat) : Bool := n == 2 || n == 3 || n == 5 || (decide (8 ≤ n) && decide (n ≤ 11))

/-- The firmware registers that only hold a value (R359): FWADDR, FWLEN, ATTNONCE and SIGPOLICY. -/
def fwPlain (n : Nat) : Bool := n == 0 || n == 1 || n == 4 || n == 12

/-- A write of a firmware register that only holds a value. -/
def setFwPlain (f : Firmware) (n : Nat) (v : Word) : Firmware :=
  if n = 0 then { f with fwaddr := v }
  else if n = 1 then { f with fwlen := v }
  else if n = 4 then { f with attnonce := v }
  else { f with require := v.getLsbD 0 }

/-- The MSI-X table entry written (R360): unmasked, it sends the message that its pending bit holds. -/
def HostPort.setVector (p : HostPort) (k : Nat) (v : Word) : HostPort :=
  let p := { p with vector := p.vector.set k v }
  if p.pending && !(p.vector.getD 1 0).getLsbD 32 then { p with pending := false }.message else p

/-- A write of BAR 0 by a host (R357, R360): CW0 to CW7, of which CW0 submits, IENABLE, and the MSI-X vector. -/
def writeBar0 (p : HostPort) (off : Nat) (v : Word) : HostPort :=
  if 0x100 ≤ off && off < 0x140 && off % 8 = 0 then
    let n := (off - 0x100) / 8
    { p with cw := p.cw.set n v, submitted := p.submitted || n == 0 }
  else if off = 0x208 then { p with ienable := v &&& 0x7E }
  else if off = 0x400 || off = 0x408 then p.setVector ((off - 0x400) / 8) v
  else p

/-- REGISTER_WRITE (R359): with ev.yes, the submitted SETREG of a firmware register that only holds a value; else
host ev.n writes ev.v at offset ev.k of BAR ev.m: BAR 0, or QAGE of one of its queues in BAR 2 (R340). -/
def execRegisterWrite (s : State) : Out :=
  if s.ev.yes then
    setreg s 6 (fun _ inst n => inst == 0 && fwPlain n) fun _ _ n v s =>
      (.ok, if n = 12 then v % 2 else v, { s with firmware := setFwPlain s.firmware n (BitVec.ofNat 64 v) })
  else if s.ev.m = 0 then .next (s.setHost s.ev.n (writeBar0 (s.host s.ev.n) s.ev.k s.ev.v))
  else if s.ev.m = 2 && s.ev.k < 0x20000 && s.ev.k % 0x1000 = 0x820 then
    let q := s.ev.n * 32 + s.ev.k / 0x1000
    .next (s.setQueue q { s.queue q with limit := nbits s.ev.v.toNat 0 32 })
  else .next s

/-- ISTATUS_WRITE (R360): host ev.n clears the causes whose bits it writes as 1. -/
def execIstatusWrite (s : State) : Out :=
  let p := s.host s.ev.n
  .next (s.setHost s.ev.n { p with istatus := p.istatus &&& ~~~s.ev.v })

/-- The version registers of R356: major 1, minor 0. -/
def versionWord : Nat := 2 ^ 16

/-- JLSTAT (R366). -/
def JPort.word (p : JPort) : Nat := p.up.toNat * 2 ^ 63 + p.major * 2 ^ 40 + p.minor * 2 ^ 32 + p.feat.toNat

/-- A register of BAR 0 as host h reads it (R354, R356, R357, R360, R366), 8-byte aligned; where nothing lies, 0. -/
def readBar0 (s : State) (h off : Nat) : Nat :=
  let p := s.host h
  if off ≤ 0x20 then versionWord
  else if 0x100 ≤ off && off < 0x140 then (p.cw.getD ((off - 0x100) / 8) 0).toNat
  else if 0x140 ≤ off && off < 0x180 then (p.rw.getD ((off - 0x140) / 8) 0).toNat
  else if off = 0x200 then p.istatus.toNat
  else if off = 0x208 then p.ienable.toNat
  else if off = 0x400 || off = 0x408 then (p.vector.getD ((off - 0x400) / 8) 0).toNat
  else if off = 0x500 then p.pending.toNat
  else if 0x1000 ≤ off && off < 0x10C0 then (s.port ((off - 0x1000) / 8)).word
  else 0

/-- Whether a SETREG names a listed register (R359). -/
def setregListed (s : State) (cls inst n : Nat) : Bool :=
  match cls with
  | 1 => meterListed s inst && (decide (n ≤ 3) || (decide (16 ≤ n) && decide (n ≤ 79)))
  | 2 => decide (inst < 64) && n == 0
  | 3 => decide (inst < 4096) && n == 0
  | 4 => decide (inst < 64) && n == 0
  | 5 => inst == 0 && n == 0
  | 6 => inst == 0 && (fwPlain n || fwActs n)
  | _ => false

/-- A plat entry's four words (R350); the seed store slot of thread 0 is the Surveyor's own number. -/
def Plat.words (p : Plat) (place : Nat) : List Nat :=
  let st := match p.st with | .free => 0 | .bind => 1 | .run => 2 | .held => 3 | .stop => 4
  let rank := p.gen.toNat * 2 ^ 48 + p.rank.toNat * 2 ^ 24
  if p.st = .free then [0, 0, 0, 0]
  else if p.st = .held then [2 ^ 63 + st * 2 ^ 60, 0, 0, 0]
  else
    [2 ^ 63 + st * 2 ^ 60 + rank + p.surv * 2 ^ 12 + p.cls * 2 ^ 10 + p.tidx,
     p.pidx * 2 ^ 32 + p.nthr * 2 ^ 22 + p.img * 2 ^ 6, p.pc,
     if p.tidx = 0 then (Config.seedSlot place).toNat else 0]

/-- The registers of a launch queue, in the order of their offsets (R340); QCMD is not read. -/
def Queue.words (q : Queue) : List Nat :=
  [64 - q.fifo.length,
   q.ovcause * 16 + q.active.isSome.toNat * 8 + q.killing.toNat * 4 + q.overrun.toNat * 2 + q.stopped.toNat,
   0, q.nref * 2 ^ 32 + q.code, q.limit]

/-- A register of BAR 2 as host h reads it (R340, R345), 8-byte aligned: those of its queues, then the counters. -/
def readBar2 (s : State) (h off : Nat) : Nat :=
  if off < 0x20000 then
    if 0x800 ≤ off % 0x1000 then (s.queue (h * 32 + off / 0x1000)).words.getD ((off % 0x1000 - 0x800) / 8) 0 else 0
  else (counterWord s off).getD 0

/-- A gazetteer entry's four words (R178). -/
def GazEntry.words (g : GazEntry) : List Nat :=
  let st := match g.st with | .dead => 0 | .valid => 1 | .inTransit => 2 | .absent => 3
  [st * 2 ^ 62 + g.gen.toNat * 2 ^ 48 + g.acks * 2 ^ 32 + g.place, if g.st = .absent then g.save else 0,
   (g.refused.map fun r => r.cap.toNat).getD 0, (g.refused.map fun r => r.sub.toNat + r.more.toNat * 256).getD 0]

/-- A delivery held for a rank (R176, R370): its capability and its value. -/
def Msg.heldWords : Msg → List Nat
  | .send c v _ _ _ => [c.toNat, v.toNat]
  | .chan c _ p _ _ => [c.toNat, p.length]
  | .ack _ _ _ _ _ => [0, 0]

/-- The code of a page size (R253). -/
def PageSize.code : PageSize → Nat
  | .k64 => 0 | .m2 => 1 | .m512 => 2 | .t4 => 3

/-- A TLB entry's two words (R253, R370). -/
def TlbEntry.words (e : TlbEntry) (level : Nat) (mark : Bool) : List Nat :=
  let va := e.page * 2 ^ e.size.bits
  [2 ^ 63 + e.size.code * 2 ^ 61 + e.ctx * 2 ^ 45 + nbits va 16 39,
   2 ^ 63 + level * 2 ^ 61 + e.size.code * 2 ^ 59 + mark.toNat * 2 ^ 58 + e.w.toNat * 2 ^ 57 + e.u.toNat * 2 ^ 56 +
     e.dev.toNat * 2 ^ 55 + nbits e.pa 16 36 * 65536]

/-- Entry n of a level's TLB of a unit, counted set by set and way by way (R370, log 55). -/
def tlbNth (s : State) (level unit n : Nat) : Option TlbEntry :=
  let es := match level with
    | 0 => tget [] s.utlb unit
    | 1 => tget [] s.ttlb unit
    | 2 => tget [] s.ctlb unit
    | _ => tget [] s.dtlb unit
  (es.filter fun e => tlbSet level e.page == n / tlbWays level)[n % tlbWays level]?

/-- The tile whose fault markers a level's entry reports. -/
def tlbTile (level unit : Nat) : Nat :=
  match level with
  | 0 => tileOf unit
  | 1 => unit
  | 2 => unit * 16
  | _ => unit * 256

/-- The level and unit of an instance of class 6 (R370): the sum level x 2^24 + unit x 2^16 + entry read as the highest
level that has such a unit. Where a lower level has one too, the sum names both (log 55). -/
def tlbUnit (inst : Nat) : Option (Nat × Nat) :=
  [(3, 4), (2, 64), (1, 1024), (0, 4096)].findSome? fun (p : Nat × Nat) =>
    let n := inst / 65536
    if p.1 * 256 ≤ n && n - p.1 * 256 < p.2 then some (p.1, n - p.1 * 256) else none

/-- Class 6 of the survey service (R370). -/
def surveyTlb (s : State) (level unit n : Nat) : List Byte :=
  match tlbNth s level unit n with
  | none => wordsBytes [0, 0]
  | some e =>
    let mark := (tget [] s.marks (tlbTile level unit)).any fun m => m.ctx == e.ctx && m.page == e.page * 2 ^ e.size.bits / 65536
    wordsBytes (e.words level mark)

/-- Class 7 of the survey service (R370). -/
def surveyMiss (s : State) (inst : Nat) : List Byte :=
  let slice := inst / 64 % 256
  match ((s.mshrOf (inst / 16384)).filter fun m => l2Slice m.line == slice)[inst % 64]? with
  | none => wordsBytes [0, 0]
  | some m => wordsBytes [2 ^ 63 + nbits (m.line * 64) 0 52, min 511 m.waiters.length]

/-- Class 9 of the survey service (R370). -/
def surveyMeter (c : Cluster) (clock : Nat) (r : Region) : List Byte :=
  let m := c.meter r
  wordsBytes ((List.range 4).map (mgrpWord m) ++ (List.range 64).map (fun p => tget 0 m.costs p) ++
    (List.range 4).map (refilled m r clock 0))

/-- CRAIL as a register (R333). -/
def Rail.word (r : Rail) : Nat := r.settling.toNat * 2 ^ 12 + r.fapp * 2 ^ 10 + r.setpt

/-- CVFUSE (R333). -/
def cvfuse : Nat := railVolt 3 * 2 ^ 30 + railVolt 2 * 2 ^ 20 + railVolt 1 * 2 ^ 10 + railVolt 0

/-- OPSTAT (R372). -/
def opstat (s : State) (t : TilePower) : Nat :=
  t.temp * 2 ^ 56 + t.trip.toNat * 2 ^ 50 + t.limit.toNat * 2 ^ 49 + s.clamp.toNat * 2 ^ 48 + t.point * 2 ^ 8 + t.fsafe

/-- The thread record of a rank (R370), from its place or from its save area. -/
def surveyThread (s : State) (rank : Nat) : List Byte :=
  if rank / 65536 ≠ s.pkgNo.toNat then []
  else
    let thr := rank % 65536
    let g := s.gazOf thr
    match g.st with
    | .dead => []
    | .absent => match savedOf s thr with
      | some (x, i) => x.read s (0x200 + 0x800 * i) 0x800
      | none => []
    | _ => threadRecord (s.threadAt g.place) s.clock

/-- The gazetteer entry of a rank, and the deliveries held for it (R370). -/
def surveyGaz (s : State) (rank : Nat) : List Byte :=
  let thr := rank % 65536
  wordsBytes ((s.gazOf thr).words ++
    ((tget [] s.hold (sliceOf thr)).filter fun m => m.dst.toNat % 65536 == thr).flatMap Msg.heldWords)

/-- The bytes that SURVEY_READ copies for a class and an instance (R370), none for a class or an instance that
is not listed. An object that is not there has no bytes. -/
def surveyBytes (s : State) (cls inst : Nat) : Option (List Byte) :=
  let region := s.region (inst / 4) (inst % 4)
  match cls with
  | 1 => some (surveyThread s inst)
  | 2 => if inst < 4096 then some (coreSection s inst) else none
  | 3 => if inst < 64 then
      some ((List.range 1024).flatMap fun k => wordsBytes ((tget {} s.plat (inst * 1024 + k)).words (inst * 1024 + k))) else none
  | 4 => if inst < 64 then some (wordsBytes (s.queue inst).words) else none
  | 5 => some (surveyGaz s inst)
  | 6 => (tlbUnit inst).map fun u => surveyTlb s u.1 u.2 (inst % 65536)
  | 7 => if inst < 65536 then some (surveyMiss s inst) else none
  | 8 => if inst < 256 then some ((region.map fabricSection).getD []) else none
  | 9 => if inst < 256 then some ((region.map (surveyMeter (s.cluster (inst / 4)) s.clock)).getD []) else none
  | 10 => if inst < 64 then
      some (wordsBytes ((s.cluster inst).ecnt ++ (s.cluster inst).rails.map Rail.word ++ [cvfuse, (s.cluster inst).cfloor])) else none
  | 11 => if inst < 1024 then
      some (wordsBytes (opstat s (tget {} s.tiles inst) :: (List.range 4).map fun k => (tget ({} : OpReq) s.opreq (4 * inst + k)).word))
      else none
  | 12 => if inst < 256 then
      some ((region.map fun r =>
        let l : FaultLog := tget {} (s.cluster (inst / 4)).logs (logKey r.img r.ridx r.surv)
        Config.faultLogLayout l.count l.absent (l.toks.map Token.word)).getD []) else none
  | _ => none

/-- SURVEY_READ (R357, R370): up to CW4 bytes of one object's state go to host memory. -/
def execSurveyRead (s : State) : Out :=
  mailbox s 0x01 fun h p s =>
    match surveyBytes s (p.cmd 1) (p.cmd 2) with
    | none => (.badCommand, [], s)
    | some bs =>
      let bs := bs.take (p.cmd 4)
      match hostWrite s h (p.cmd 3) bs with
      | some s => (.ok, [bs.length], s)
      | none => (.hostFault, [], s)

/-- Whether a mailbox command is unassigned, or a SETREG of an unlisted register (R357, R359). -/
def badCommand (s : State) (p : HostPort) : Bool :=
  let c := nbits (p.cmd 0) 0 8
  c == 0 || decide (5 < c) || (c == 4 && !setregListed s (p.cmd 1) (p.cmd 2) (p.cmd 3))

/-- MAILBOX_BAD_COMMAND (R357, R359): the command of host ev.n is answered BAD_COMMAND and changes nothing. -/
def execMailboxBadCommand (s : State) : Out :=
  let h := s.ev.n
  if !(s.host h).submitted || s.watchdog || !badCommand s (s.host h) then .next s
  else .next (respond s h .badCommand [])

/-- HOST_LINK_DOWN (R355): port ev.n loses its host; what R355 gives for its memory follows (State.reachable). -/
def execHostLinkDown (s : State) : Out := .next (s.setHost s.ev.n { s.host s.ev.n with linkUp := false })

/-- HOST_LINK_RETRAIN (R355): accesses to the host's memory resume. -/
def execHostLinkRetrain (s : State) : Out := .next (s.setHost s.ev.n { s.host s.ev.n with linkUp := true })

/-- JLSTAT.UP changes at a port: both hosts see the LINK cause (R360). -/
def setLink (s : State) (j : Nat) (p : JPort) : State :=
  let was := (s.port j).up
  let s := s.setPort j p
  if was = p.up then s else raiseCause (raiseCause s 0 6) 1 6

/-- A message received from another package enters the network (R176); an acknowledgement answers the oldest message
of its sender, binding and kind that waits for one, which leaves the send buffer (R179, R180). -/
def receiveMsg (s : State) (m : Msg) : State :=
  match m with
  | .ack dst _ _ cap buffered =>
    match s.outbound.findIdx? fun x => x.src == some dst && x.cap == cap && x.entry.isSome == buffered with
    | some i =>
      let s := if buffered then dropEntry s dst cap else s
      { s with outbound := s.outbound.eraseIdx i, flight := s.flight ++ [m] }
    | none => s
  | m => { s with flight := s.flight ++ [m] }

/-- A channel message that found no room on another package is in its sender's send buffer again (R182, log 74). -/
def receiveBack (s : State) (dst : BitVec 24) (cap : Word) : State :=
  match s.outbound.findIdx? fun x => x.src == some dst && x.cap == cap && x.entry.isSome with
  | some i => backTo { s with outbound := s.outbound.eraseIdx i } dst cap
  | none => s

/-- An operation on memory that another package asks for (R123, R124): its number in the order of R123's table, CAS
after FADD32 with the expected value below the new one (log 60). -/
def peerOp (code n old : Nat) (x : Nat) : Nat :=
  match code with
  | 0 => (old + x) % 2 ^ (8 * n)
  | 1 => old &&& x
  | 2 => old ||| x
  | 3 => old ^^^ x
  | 4 => pickSigned n false old x
  | 5 => pickSigned n true old x
  | 6 => min old x
  | 7 => max old x
  | 8 => x
  | 9 => (fp32add old x).1
  | _ => if old = x % 2 ^ (8 * n) then x / 2 ^ (8 * n) else old

/-- A response to another package, poison where the bytes' line is marked or they do not exist (R116, R362). -/
def answerPeer (s : State) (dst tag pa : Nat) (good : Bool) (bs : List Byte) : State :=
  match planeFor s (nbits pa 6 16) with
  | some j => transmit s j 2 dst (Config.flitPayload 6 tag pa (!good).toNat bs)
  | none => s

/-- Whether n bytes from an address are memory of this package (R298). -/
def ownSpan (s : State) (pa n : Nat) : Bool := physOk s (physOf s pa) && (physOf s pa + n) / 2 ^ 44 == 0

/-- Bytes from an address that another package has sent, entered in a load that waits for them; poison ends the wait
for every byte. -/
def Load.answer (l : Load) (pa : Nat) (good : Bool) (bs : List Byte) : Load :=
  { l with
    poisoned := l.poisoned || !good
    bytes := l.bytes.map fun p => if p.2.isSome then p else if !good then (p.1, some 0) else (p.1, if p.1 < pa then none else bs[p.1 - pa]?) }

/-- A change of every outstanding load of every thread. -/
def State.mapLoads (s : State) (f : Load → Load) : State :=
  let one := fun (t : Thread) => { t with loads := t.loads.map f }
  { s with th := one s.th, others := s.others.map fun p => (p.1, one p.2) }

/-- A request or response of another package for memory (R362), and its tag: a read or an atomic is carried out at the
home and answered, a store is written at its home. What answers a load of this package goes to it; what it read, and
what answers the read of a line, stands in the other's memory. -/
def peerMemory (src : Nat) (s : State) (x : Nat × Nat × Nat × Nat × List Byte) : State :=
  let (kind, tag, pa, val, bytes) := x
  let here := physOf s pa
  let poisoned := s.memPoison.contains (here / 64)
  match kind with
  | 4 => if ownSpan s pa val then answerPeer s src tag pa (!poisoned) (memBytes s here val) else answerPeer s src tag pa false []
  | 5 => if ownSpan s (pa / 64 * 64) 64 then homeWrite s (here / 64) ((setBits 64 val).zip bytes) else s
  | 6 =>
    if (peerOf pa).isNone || ownSpan s pa 0 then s
    else
      let s := if tag = 0 then s else s.mapLoads fun l => if l.id = (tag - 1) / 2 then l.answer pa (val = 0) bytes else l
      if tag ≠ 0 && tag % 2 = 0 then s
      else
        let s := { s with mem := cputs s.mem pa bytes }
        if val = 0 then s else { s with memPoison := sadd s.memPoison (pa / 64) }
  | 7 =>
    let n := val % 16
    if !ownSpan s pa n || poisoned then answerPeer s src tag pa false []
    else
      let old := memBytes s here n
      let new := leBytes n (peerOp (val / 16) n (leNat old) (leNat bytes))
      answerPeer (homeWrite s (here / 64) ((List.range n).map (here % 64 + ·) |>.zip new)) src tag pa true old
  | 8 => receiveBack s (BitVec.ofNat 24 tag) (BitVec.ofNat 64 pa)
  | _ => s

/-- JENLINK_FLIT_RECEIVE (R362): the 256 bytes ev.bytes reach port ev.n. A flit for this package whose CRC holds
delivers its messages once their last flit has come; one that fails is replayed by its sender and changes nothing.
With ev.yes, the far end asks for the flits from sequence number ev.k on again, and they are sent from the replay
buffer. -/
def execJenlinkFlitReceive (s : State) : Out :=
  let j := s.ev.n
  let p := s.port j
  let f := s.ev.bytes
  if !p.up then .next s
  else if s.ev.yes then .next (s.setPort j (resend p s.ev.k))
  else if !flitGood f then .next s
  else
    let src := leNat ((f.drop 1).take 1)
    let dst := leNat ((f.drop 2).take 1)
    let payload := (f.drop 16).take 232
    let cls := leNat (f.take 1)
    if dst ≠ s.pkgNo.toNat then .next (s.setPort j { p with rxSeq := p.rxSeq + 1 })
    else if cls = 3 then .next (s.setPort j { p with rxSeq := p.rxSeq + 1, received := p.received ++ [payload] })
    else
      let key := src * 4 + cls
      let (xs, rest) := Config.flitMessages (tget [] p.parts key ++ payload)
      let s := s.setPort j { p with rxSeq := p.rxSeq + 1, parts := if rest.isEmpty then tdel p.parts key else tput p.parts key rest }
      .next (xs.foldl (fun s x => match msgOfParts j x with
        | some m => receiveMsg s m
        | none => peerMemory src s x) s)

/-- A message that a port's loss catches is refused as STALE (R364). -/
def refuseLost (s : State) (m : Msg) : State := acknowledge s m (some 3) m.node

/-- Whether a load waits for a byte that the plane of a port should bring. -/
def Load.waitsOn (s : State) (j : Nat) (l : Load) : Bool :=
  l.bytes.any fun p => p.2.isNone && (peerOf p.1).isSome && planeOf s (nbits p.1 6 16) == some j

/-- The responses that a port's loss leaves outstanding are poison (R364, R116): those of L2 misses, and of the loads
and atomics that wait for another package. -/
def loseAnswers (s : State) (j : Nat) : State :=
  let lost := fun (m : Mshr) => (peerOf (m.line * 64)).isSome && planeOf s (nbits m.line 0 16) == some j
  let s := (List.range 4).foldl (fun s d => ((s.mshrOf d).filter lost).foldl (fun s m => l2Fill s d m.line) s) s
  s.mapLoads fun l => if !l.waitsOn s j then l else if l.dev then { l with poisoned := true } else l.answer 0 false []

/-- JENLINK_LINK_DOWN (R364): port ev.n loses its link; sends and channel messages that wait on it are refused as
STALE, what waits for a response gets poison, and accesses through it fail as State.reachable gives. -/
def execJenlinkLinkDown (s : State) : Out :=
  let j := s.ev.n
  if !(s.port j).up then .next s
  else
    let lost := s.outbound.filter fun m => planeOf s (m.dst.toNat % 65536) == some j
    let s := setLink { s with outbound := s.outbound.filter fun m => planeOf s (m.dst.toNat % 65536) != some j } j
      { s.port j with up := false, lost := true, replay := [], parts := [] }
    .next (loseAnswers (lost.foldl refuseLost s) j)

/-- JENLINK_TRAINING (R365, R366): the far end of port ev.n advertises the major versions ev.nums with the feature
bits ev.v, for major 1 the minor version ev.m; the link comes up at 1.0 with all five features, or stays down. -/
def execJenlinkTraining (s : State) : Out :=
  let j := s.ev.n
  let p := s.port j
  let feat : W32 := s.ev.v.setWidth 32 &&& 0x1F
  if !s.ev.nums.contains 1 then .next (setLink s j { p with up := false, major := 0, minor := 0, feat := 0 })
  else .next (setLink s j { p with up := feat == 0x1F, major := 1, minor := min 0 s.ev.m, feat := feat })

end Sys2Proof.Machine
end

