-- ==== Sys2Proof/Machine/Vector.lean ====
section
/-!
DEFINITION. Majors 0x20 to 0x27: the vector unit (R144 to R162, R56, R61, R62). An instruction that
addresses no memory, and a store, has its whole effect when it issues; the thread then waits for its
completion, which R145 times (log 21). A load keeps its place until VECTOR_COMPLETION writes its lanes.
-/

namespace Sys2Proof

/-- The format of an element type (R70). -/
def VType.fmt : VType → Machine.Fmt
  | .i32 => .i32 | .f32 => .fp32 | .i16 => .i16 | .f16 => .fp16 | .bf16 => .bf16 | .i8 => .i8 | .u8 => .u8

/-- Whether a type is a float type. -/
def VType.isFloat (ty : VType) : Bool := ty.fmt.isFloat

/-- The width of an element in bits (R149). -/
def VType.width (ty : VType) : Nat := ty.fmt.width

/-- Bytes of a gathered or scattered element: 4, 2 or 1 (R161). -/
def VType.bytes (ty : VType) : Nat := ty.width / 8

/-- Whether a gather sign-extends (R161). -/
def VType.signed (ty : VType) : Bool := ty == .i32 || ty == .i16 || ty == .i8

/-- log2 of the number of elements of a type. -/
def VType.levels (ty : VType) : Nat := if ty.width = 32 then 5 else if ty.width = 16 then 6 else 7

end Sys2Proof

namespace Sys2Proof.Machine

/-- A vector register: 32 lanes of 32 bits (R29). -/
abbrev VReg := Vector W32 32

/-- The elements of width w of a register (R45): element j lies in lane j × w / 32. -/
def elems (w : Nat) (v : VReg) : List Nat :=
  v.toList.flatMap fun x => (List.range (32 / w)).map fun k => nbits x.toNat (w * k) w

/-- The low bits of a list of elements, the first lowest. -/
def packElems (w : Nat) : List Nat → Nat
  | [] => 0
  | x :: xs => x % 2 ^ w + 2 ^ w * packElems w xs

/-- A register from its elements. -/
def ofElems (w : Nat) (es : List Nat) : VReg :=
  Vector.ofFn fun i => BitVec.ofNat 32 (packElems w ((es.drop (32 / w * i)).take (32 / w)))

/-- A vector register of a thread. -/
def Thread.vreg (t : Thread) (n : BitVec 3) : VReg := t.v[n.toNat]

/-- The thread with a vector register replaced. -/
def Thread.setVreg (t : Thread) (n : BitVec 3) (x : VReg) : Thread := { t with v := t.v.set n.toNat x }

/-- A mask register: q0 reads all ones (R29). -/
def Thread.mask (t : Thread) (n : BitVec 2) : W32 :=
  if h : n.toNat - 1 < 3 ∧ n ≠ 0 then t.q[n.toNat - 1]'h.1 else 0xFFFFFFFF

/-- The thread with a mask register replaced; a write of q0 is discarded (R29). -/
def Thread.setMask (t : Thread) (n : BitVec 2) (x : W32) : Thread :=
  if h : n.toNat - 1 < 3 ∧ n ≠ 0 then { t with q := t.q.set (n.toNat - 1) x h.1 } else t

/-- Whether element j of width w is active (R149). -/
def active (m : W32) (w j : Nat) : Bool := m.getLsbD (j * w / 32)

/-- One elementwise operation over the active elements: results and the OR of their flags (R56, R150). -/
def elementwise (w : Nat) (m : W32) (f : Nat → Nat → Nat → Nat × Flags) : Nat → List Nat → List Nat → List Nat →
    List Nat × Flags
  | j, x :: xs, y :: ys, d :: ds =>
    let (rs, fl) := elementwise w m f (j + 1) xs ys ds
    if active m w j then
      let (r, g) := f x y d
      (r :: rs, g ||| fl)
    else (d :: rs, fl)
  | _, _, _, _ => ([], 0)

/-- The row of R154 for arithmetic of a float type. -/
def ruleVector : PfxRule := { a := .zero, b := .zero, d := .zero }
/-- The row of R154 for VCVT; its destination field is judged apart. -/
def ruleVcvt : PfxRule := { a := .any, b := .zero, d := .any }

/-- The row of R154 for an arithmetic word of a type. -/
def ruleOf (ty : VType) : Option PfxRule := if ty.isFloat then some ruleVector else none

/-- The gate of a vector word: the core's request latch first (R144), then R74. -/
def vgate (i : Instr) (rule : Option PfxRule) (r : Srcs) (d : Dst) (s : State) (k : State → Out) : Out :=
  if (s.core s.here).vlatch.isSome then stall .vlatch s
  else match rule with
    | some p => withPrefix (encode i) 4 p s (issue (encode i) { feat := 4, pfx := true } r d s k)
    | none => issue (encode i) { feat := 4 } r d s k

/-- The core's request latch takes the word of the thread in focus (R144). -/
def fillLatch (s : State) : State :=
  s.setCore s.here { s.core s.here with vlatch := some s.th.place }

/-- A vector word has its effect and the thread waits for its completion (R145). -/
def vretire (r : Srcs) (s : State) (f : Thread → Thread) : Out :=
  let s := fillLatch (s.leave r)
  .next (s.withTh { (f (s.th.consume r)).complete with wait := .vector })

/-- Operands of an elementwise form: va, and vb or a scalar. -/
inductive VSrc where
  | reg (v : BitVec 3)
  | scalar (g : RegCode)

/-- The scalar registers a form reads. -/
def VSrc.srcs : VSrc → Srcs
  | .reg _ => {}
  | .scalar g => { more := [g] }

/-- The elements of the second operand (R149). -/
def VSrc.elems (t : Thread) (w : Nat) : VSrc → List Nat
  | .reg v => Machine.elems w (t.vreg v)
  | .scalar g => List.replicate (1024 / w) ((t.value g).toNat % 2 ^ w)

/-- An elementwise instruction (R150). -/
def vmap (i : Instr) (rule : Option PfxRule) (w : Nat) (vd va : BitVec 3) (y : VSrc) (q : BitVec 2) (s : State)
    (f : Rnd → Bool → Nat → Nat → Nat → Nat × Flags) : Out :=
  vgate i rule y.srcs .none s fun s =>
    let t := s.th
    let (res, fl) := elementwise w (t.mask q) (f t.rounding t.pfxFields.sat) 0
      (elems w (t.vreg va)) (y.elems t w) (elems w (t.vreg vd))
    vretire y.srcs s fun t => (t.setVreg vd (ofElems w res)).raise fl

/-- The values of two operands in a float format. -/
def vfloat (f : Fmt) (r : Rnd) (sat : Bool) (v : FVal × Flags) : Nat × Flags :=
  let (b, g) := fdeliver f r sat v.1
  (b, v.2 ||| g)

def vaddOp (ty : VType) (r : Rnd) (sat : Bool) (x y _d : Nat) : Nat × Flags :=
  if ty.isFloat then vfloat ty.fmt r sat (fadd r (fdecode ty.fmt x) (fdecode ty.fmt y)) else (x + y, 0)
def vsubOp (ty : VType) (r : Rnd) (sat : Bool) (x y _d : Nat) : Nat × Flags :=
  if ty.isFloat then vfloat ty.fmt r sat (fadd r (fdecode ty.fmt x) (fdecode ty.fmt y).neg)
  else (x + 2 ^ ty.width - y, 0)
def vmulOp (ty : VType) (r : Rnd) (sat : Bool) (x y _d : Nat) : Nat × Flags :=
  if ty.isFloat then vfloat ty.fmt r sat (fmul (fdecode ty.fmt x) (fdecode ty.fmt y)) else (x * y, 0)
def vmacOp (ty : VType) (r : Rnd) (sat : Bool) (x y d : Nat) : Nat × Flags :=
  if ty.isFloat then vfloat ty.fmt r sat (ffma r (fdecode ty.fmt d) (fdecode ty.fmt x) (fdecode ty.fmt y))
  else (d + x * y, 0)

/-- Whether integer x is at most y in a type: signed for types 0, 2 and 5, unsigned for 6 (R150). -/
def intLe (ty : VType) (uns : Bool) (x y : Nat) : Bool :=
  if uns || ty = .u8 then decide (x ≤ y) else decide (sint ty.width x ≤ sint ty.width y)

def vminOp (ty : VType) (r : Rnd) (sat : Bool) (x y _d : Nat) : Nat × Flags :=
  if ty.isFloat then fminmax false ty.fmt ty.fmt ty.fmt r sat x y else (if intLe ty false x y then x else y, 0)
def vmaxOp (ty : VType) (r : Rnd) (sat : Bool) (x y _d : Nat) : Nat × Flags :=
  if ty.isFloat then fminmax true ty.fmt ty.fmt ty.fmt r sat x y else (if intLe ty false x y then y else x, 0)
def vandOp (_ : Rnd) (_ : Bool) (x y _d : Nat) : Nat × Flags := (x &&& y, 0)
def vorOp (_ : Rnd) (_ : Bool) (x y _d : Nat) : Nat × Flags := (x ||| y, 0)
def vxorOp (_ : Rnd) (_ : Bool) (x y _d : Nat) : Nat × Flags := (x ^^^ y, 0)
def vshlOp (ty : VType) (_ : Rnd) (_ : Bool) (x y _d : Nat) : Nat × Flags := (x * 2 ^ (y % ty.width), 0)
def vshrOp (ty : VType) (_ : Rnd) (_ : Bool) (x y _d : Nat) : Nat × Flags := (x / 2 ^ (y % ty.width), 0)
/-- A UINT8 element has no sign to shift in. -/
def vsraOp (ty : VType) (_ : Rnd) (_ : Bool) (x y _d : Nat) : Nat × Flags :=
  if ty = .u8 then (x / 2 ^ (y % 8), 0)
  else ((sint ty.width x / (2 : Int) ^ (y % ty.width) % (2 : Int) ^ ty.width).toNat, 0)

/-- VDOT4 of one lane (R151). -/
def vdot4Op (ty : VType) (_ : Rnd) (_ : Bool) (x y d : Nat) : Nat × Flags :=
  let byte := fun v k => if ty = .u8 then ((nbits v (8 * k) 8 : Nat) : Int) else sint 8 (nbits v (8 * k) 8)
  let sum : Int := ((List.range 4).map fun k => byte x k * byte y k).foldl (· + ·) 0
  ((((d : Int) + sum) % (2 : Int) ^ 32).toNat, 0)

/-- VSEL and VSEL.VS write every lane (R152). -/
def vselect (i : Instr) (vd va : BitVec 3) (y : VSrc) (q : BitVec 2) (s : State) : Out :=
  vgate i none y.srcs .none s fun s =>
    let t := s.th
    let (res, _) := elementwise 32 (t.mask q) (fun x _ _ => (x, 0)) 0
      (elems 32 (t.vreg va)) (elems 32 (t.vreg va)) (y.elems t 32)
    vretire y.srcs s fun t => t.setVreg vd (ofElems 32 res)

/-- One comparison (R152). -/
def vcompare (cond : BitVec 3) (ty : VType) (x y : Nat) : Bool × Flags :=
  let fx := fdecode .fp32 x
  let fy := fdecode .fp32 y
  let flt := ty.isFloat
  match cond.toNat with
  | 0 => if flt then fcompare .eq fx fy else (x == y, 0)
  | 1 => if flt then (!(fcompare .eq fx fy).1, (fcompare .eq fx fy).2) else (x != y, 0)
  | 2 => if flt then fcompare .lt fx fy else (decide (sint 32 x < sint 32 y), 0)
  | 3 => if flt then fcompare .le fx fy else (decide (sint 32 x ≤ sint 32 y), 0)
  | 4 => (decide (x < y), 0)
  | _ => (decide (x ≤ y), 0)

/-- VCMP and VCMP.VS: the mask bits of the active lanes (R152). -/
def vcmpForm (i : Instr) (qd : BitVec 2) (va : BitVec 3) (y : VSrc) (q : BitVec 2) (ty : VType) (cond : BitVec 3)
    (s : State) : Out :=
  vgate i none y.srcs .none s fun s =>
    let t := s.th
    let f := fun a b (_ : Nat) => ((vcompare cond ty a b).1.toNat, (vcompare cond ty a b).2)
    let (res, fl) := elementwise 32 (t.mask q) f 0 (elems 32 (t.vreg va)) (y.elems t 32) (List.replicate 32 0)
    vretire y.srcs s fun t => (t.setMask qd (BitVec.ofNat 32 (packElems 1 res))).raise fl

/-- The bits a format takes in a vector register (R153). -/
def Fmt.slot : Fmt → Nat
  | .i6 => 32 | .i4 => 32 | .tern => 32 | f => f.width

/-- One conversion of VCVT: the source's low bits, the result extended in its slot (R153, R57). -/
def vconvert (src dst : Fmt) (r : Rnd) (sat : Bool) (x : Nat) : Nat × Flags :=
  let (b, fl) := fconvert src dst r sat (x % 2 ^ src.width)
  ((fextend dst b).toNat % 2 ^ dst.slot, fl)

/-- VCVT over the whole register (R153). -/
def vcvtAll (src dst : Fmt) (r : Rnd) (sat : Bool) (p : Nat) (m : W32) (va vd : VReg) : VReg × Flags :=
  let xs := elems src.slot va
  let ds := elems dst.slot vd
  let f := fun x (_ _ : Nat) => vconvert src dst r sat x
  if src.slot ≤ dst.slot then
    let xs := xs.drop (p * (1024 / dst.slot))
    let (res, fl) := elementwise dst.slot m f 0 xs xs ds
    (ofElems dst.slot res, fl)
  else
    let n := 1024 / src.slot
    let part := (ds.drop (p * n)).take n
    let (res, fl) := elementwise dst.slot m f (p * n) xs xs part
    (ofElems dst.slot (ds.take (p * n) ++ res ++ ds.drop (p * n + n)), fl)

/-- Lane i of a register, modulo 32. -/
def lane (v : VReg) (i : Nat) : Nat := (elems 32 v).getD (i % 32) 0

/-- A transfer over lanes: the active lanes take the given values (R155). -/
def vlanes (i : Instr) (r : Srcs) (vd : BitVec 3) (q : BitVec 2) (s : State) (f : Thread → Nat → Nat) : Out :=
  vgate i none r .none s fun s =>
    let t := s.th
    let xs := (List.range 32).map (f t)
    let (res, _) := elementwise 32 (t.mask q) (fun x _ _ => (x, 0)) 0 xs xs (elems 32 (t.vreg vd))
    vretire r s fun t => t.setVreg vd (ofElems 32 res)

/-- The lane that VSHUF gives lane i (R155). -/
def vshuffle (pattern : Nat) (va vb : VReg) (i : Nat) : Nat :=
  let h := i % 16
  match pattern with
  | 0 => if i % 2 = 0 then lane va (i / 2) else lane vb (i / 2)
  | 1 => if i % 2 = 0 then lane va (16 + i / 2) else lane vb (16 + i / 2)
  | 2 => if i < 16 then lane va (2 * h) else lane vb (2 * h)
  | _ => if i < 16 then lane va (2 * h + 1) else lane vb (2 * h + 1)

/-- The combine of VRED and VSCAN on elements of w bits (R156); integer sums wrap at n bits. -/
def redOp (op : BitVec 3) (ty : VType) (n : Nat) (r : Rnd) (sat : Bool) (x y : Nat) : Nat × Flags :=
  match op.toNat with
  | 0 => if ty.isFloat then vaddOp ty r sat x y 0 else ((x + y) % 2 ^ n, 0)
  | 1 => vminOp ty r sat x y 0
  | 2 => vmaxOp ty r sat x y 0
  | 3 => (if x ≤ y then x else y, 0)
  | 4 => (if x ≤ y then y else x, 0)
  | 5 => (x &&& y, 0)
  | 6 => (x ||| y, 0)
  | _ => (x ^^^ y, 0)

/-- The identity of an op in a type (R156), as an element. -/
def redIdentity (op : BitVec 3) (ty : VType) : Nat :=
  match op.toNat with
  | 1 => if ty.isFloat then ty.fmt.inf else ty.fmt.range.2.toNat
  | 2 => if ty.isFloat then withSign ty.fmt true ty.fmt.inf else intBits ty.fmt ty.fmt.range.1
  | 3 => 2 ^ ty.width - 1
  | 5 => 2 ^ ty.width - 1
  | _ => 0

/-- Combine with EMPTY (R61). -/
def combine (f : Nat → Nat → Nat × Flags) : Option Nat → Option Nat → Option Nat × Flags
  | none, y => (y, 0)
  | x, none => (x, 0)
  | some x, some y => (some (f x y).1, (f x y).2)

/-- One level of the tree of R61: neighbours are combined, the lower on the left. -/
def treeLevel (f : Nat → Nat → Nat × Flags) : List (Option Nat) → List (Option Nat) × Flags
  | x :: y :: rest =>
    let (c, fl) := combine f x y
    let (rs, gl) := treeLevel f rest
    (c :: rs, fl ||| gl)
  | l => (l, 0)

/-- The tree of R61 over n levels. -/
def tree (f : Nat → Nat → Nat × Flags) : Nat → List (Option Nat) → Option Nat × Flags
  | 0, l => ((l.head?).getD none, 0)
  | n + 1, l =>
    let (l, fl) := treeLevel f l
    let (x, gl) := tree f n l
    (x, fl ||| gl)

/-- The active elements of a register, numbered. -/
def present (m : W32) (w : Nat) (es : List Nat) : List (Option Nat) :=
  (es.zip (List.range es.length)).map fun p => if active m w p.2 then some p.1 else none

/-- One step of VSCAN at distance d (R62). -/
def scanStep (f : Nat → Nat → Nat × Flags) (d : Nat) (l : List (Option Nat)) : List (Option Nat) × Flags :=
  let prev := List.replicate d none ++ l
  let rs := List.zipWith (combine f) prev l
  (rs.map (·.1), (rs.map (·.2)).foldl (· ||| ·) 0)

/-- The steps of VSCAN at distances d, 2d, … (R62). -/
def scan (f : Nat → Nat → Nat × Flags) : Nat → Nat → List (Option Nat) → List (Option Nat) × Flags
  | 0, _, l => (l, 0)
  | n + 1, d, l =>
    let (l, fl) := scanStep f d l
    let (l, gl) := scan f n (2 * d) l
    (l, fl ||| gl)

/-- The row of R154 for a reduction or scan: only ADD of a float type takes a prefix. -/
def ruleRed (ty : VType) (op : BitVec 3) : Option PfxRule := if ty.isFloat && op = 0 then some ruleVector else none

/-- The scalar result of VRED in a type (R156). -/
def redWord (ty : VType) (op : BitVec 3) (v : Nat) : Word :=
  if op = 0 && !ty.isFloat then BitVec.ofNat 64 v else fextend ty.fmt v

/-- An element widened to 64 bits for the sum of VRED.ADD (R156). -/
def redWiden (ty : VType) (op : BitVec 3) (x : Nat) : Nat :=
  if op = 0 && !ty.isFloat then (fextend ty.fmt x).toNat else x

/-- A mask instruction (R157). -/
def maskOp (i : Instr) (qd : BitVec 2) (s : State) (f : Thread → W32) : Out :=
  vgate i none {} .none s fun s => vretire {} s fun t => t.setMask qd (f s.th)

/-- A mask instruction with a scalar result (R157). -/
def maskRead (i : Instr) (g : RegCode) (s : State) (f : Thread → Nat) : Out :=
  vgate i none {} (.sync g) s fun s => vretire {} s fun t => t.writeSync g (BitVec.ofNat 64 (f s.th))

/-- A lane of a memory form that is to be looked up: its number and address. -/
abbrev LaneAddr := Nat × Word

/-- What looking up the lanes found (R158): lanes with their places, pages to walk, the lowest fault. -/
structure Looked where
  lanes : List (Nat × Word × List Loc) := []
  walks : List (Nat × Nat) := []
  fault : Option (Nat × Cause × Word) := none

/-- Every active lane looked up, in ascending order (R158). -/
def lookLanes (k : Access) (n : Nat) : State → List LaneAddr → State × Looked
  | s, [] => (s, {})
  | s, (i, va) :: rest =>
    match locate s k va n with
    | .ok locs s' =>
      let (s, l) := lookLanes k n s' rest
      (s, { l with lanes := (i, va, locs) :: l.lanes })
    | .walk ctx page =>
      let (s, l) := lookLanes k n s rest
      (s, { l with walks := (ctx, page) :: l.walks })
    | .fault c a =>
      let (s, l) := lookLanes k n s rest
      (s, { l with fault := some (i, c, a) })

/-- EVAL2 of a vector memory fault (R158). -/
def laneEval (i n : Nat) : Word := BitVec.ofNat 64 (i * 256 + n)

/-- The lanes looked up and judged (R158): every walk first, then the lowest fault, then the access. -/
def withLanes (k : Access) (n : Nat) (addrs : List LaneAddr) (s : State)
    (f : State → List (Nat × Word × List Loc) → Out) : Out :=
  let (s', l) := lookLanes k n s addrs
  match l.walks with
  | (ctx, page) :: rest =>
    let s := ((ctx, page) :: rest).foldl (fun s p => walkRequest s (dieOf s.here) p.1 p.2 (.thread s.th.place)) s
    stall (.walk ctx page) s
  | [] =>
    match l.fault with
    | some (i, c, a) => trap c a (laneEval i n) s
    | none =>
      if (l.lanes.any fun x => anyDev x.2.2) && s.th.devStore then stall .devStore s else f s' l.lanes

/-- Lanes of an active mask with their addresses. -/
def activeLanes (m : W32) (f : Nat → Word) : List LaneAddr :=
  ((List.range 32).filter fun i => m.getLsbD i).map fun i => (i, f i)

/-- The bytes of a lane of device memory and its line there: a lane that reaches a device lies in it wholly
(R128). -/
def VLane.devLine (l : VLane) : Option Nat := if l.dev then (l.bytes.head?).map (·.1 / 64) else none

/-- The lanes that still wait for bytes of a line of ordinary memory are poisoned with it (R158). -/
def VLoad.poison (v : VLoad) (no : Nat) : VLoad :=
  { v with lanes := v.lanes.map fun (l : VLane) =>
      { l with poisoned := l.poisoned || (!l.dev && l.bytes.any fun b => b.2.isNone && b.1 / 64 == no) } }

/-- What a vector load asks for in the order in which it is sent (R159): each line of ordinary memory once, at its
lowest lane, and each lane of device memory by itself (R128). -/
def VLoad.asks (v : VLoad) : List (Nat × Option Nat) :=
  (v.lanes.flatMap fun l => match l.devLine with
    | some no => [(no, some l.lane)]
    | none => l.bytes.filterMap fun b => if b.2.isNone then some (b.1 / 64, none) else none).eraseDups

/-- One line or device lane of a vector load: ordinary memory from the cache portion, then the group pool, else a
request (R159, R292, R293). -/
def vecLine (t : Thread) (c : Nat) (p : State × VLoad) (ask : Nat × Option Nat) : State × VLoad :=
  let (s, v) := p
  let asked := fun (s : State) (v : VLoad) =>
    ({ s with serial := s.serial + 1 }, { v with reqs := v.reqs ++ [{ id := s.serial, line := ask.1, dev := ask.2 }] })
  if ask.2.isSome then asked s v
  else
    let v := if s.linePoisoned ask.1 then v.poison ask.1 else v
    match nearLine s c (s.floors t).1 (s.floors t).2 ask.1 (v.wants ask.1) with
    | .hit bytes s => (s, v.give ask.1 bytes)
    | .miss dirty => asked s (v.give ask.1 dirty)

/-- A request of a vector load marked as sent, with what an L2 hit answers at once. -/
def VLoad.sentReq (v : VLoad) (id : Nat) (got : Option Fill) (poisoned : Bool) : VLoad :=
  { v with reqs := v.reqs.map fun x => if x.id = id then { x with sent := true, got := got, poisoned := poisoned } else x }

/-- The next request of a thread's vector load is sent when a response slot is free (R159, R385), one for a device
after the previous one has returned (R128): an L2 hit answers with the line, from which the portion is filled, a
miss waits for the fill. -/
def sendVector (s : State) (place : Nat) : State :=
  let t := s.threadAt place
  match t.vload with
  | none => s
  | some v =>
    match v.reqs.find? (!·.sent) with
    | none => s
    | some r =>
      if 8 ≤ t.slotsHeld then s
      else if r.dev.isSome then
        if v.reqs.any fun x => x.dev.isSome && x.sent then s
        else s.setThreadAt place { t with vload := some (v.sentReq r.id none (!reachable s (r.line * 64))) }
      else
        let d := dieOf (coreOf place)
        let l2 := s.l2Line d r.line
        let usable := l2.usableL2 (s.l2Floor t)
        let hit := covers usable (v.wants r.line) && s.l2Open d r.line
        let got := if hit then some ({ line := r.line, bytes := usable, stamp := s.clock, home := l2.stamp } : Fill) else none
        let s := s.setThreadAt place { t with vload := some (v.sentReq r.id got (s.linePoisoned r.line)) }
        if hit then refill (l2Touch s d r.line) (coreOf place) (s.floors t).1 (s.floors t).2 r.line
        else l2Wait s d r.line (.vload place r.id)

/-- Requests sent while slots are free. -/
def sendVectors (s : State) (place : Nat) : State := (List.range 8).foldl (fun s _ => sendVector s place) s

/-- The lane of a load whose bytes are all located. -/
def vlaneOf (s : State) (x : VSpot) : VLane :=
  { lane := x.lane, va := x.va, bytes := scratchBytes s x.locs, dev := anyDev x.locs
    poisoned := x.locs.any fun l => match l with | .scratch k => scratchPoisoned s k | _ => false }

/-- A vector memory instruction issues into its core's latch, its sources consumed (R144, R146): what it does to memory
begins when the vector unit accepts it (R385). -/
def latchVop (r : Srcs) (s : State) (work : VWork) (spots : List VSpot) : Out :=
  let op : VOp := { work := work, spots := spots, back := r.more.map fun c => (c.toNat, s.th.reg c.toNat) }
  let s := fillLatch (s.leave r)
  .next (s.withTh { s.th.consume r with vop := some op, wait := .vector })

/-- Lanes that have been looked up. -/
def spotsOf (lanes : List (Nat × Word × List Loc)) : List VSpot := lanes.map fun x => { lane := x.1, va := x.2.1, locs := x.2.2 }

/-- A vector load of n bytes a lane (R158 to R161). -/
def vload (r : Srcs) (vd : BitVec 3) (sext : Bool) (n : Nat) (addrs : List LaneAddr) (s : State) : Out :=
  withLanes .load n addrs s fun s lanes => latchVop r s (.load { vd := vd, sext := sext, width := n, lanes := [] }) (spotsOf lanes)

/-- A vector store of n bytes a lane (R158). -/
def vstore (r : Srcs) (vd : BitVec 3) (n : Nat) (addrs : List LaneAddr) (s : State) : Out :=
  withLanes .store n addrs s fun s lanes =>
    latchVop r s (.store (lanes.map fun x => leBytes n (lane (s.th.vreg vd) x.1))) (spotsOf lanes)

/-- The lanes of the window a bit form reaches, or the lowest that faults (R160). -/
def lookBits (n : Nat) (k : Access) (s : State) : List (Nat × Word × Nat × Nat) →
    Except (Nat × Cause × Word × Nat) (List (Nat × Nat × List Loc))
  | [] => .ok []
  | (i, va, bit, span) :: rest =>
    match locateBits s k (byteAddrs va span) with
    | .ok locs _ =>
      match lookBits n k s rest with
      | .ok ls => .ok ((i, bit, locs) :: ls)
      | .error e => .error e
    | .fault c a => .error (i, c, a, span)
    | .walk _ _ => .error (i, .localRange, va, span)

/-- The fields of a bit form: lane, first byte, first bit, span (R160). -/
def bitLanes (m : W32) (base : Word) (pos n : Nat) : List (Nat × Word × Nat × Nat) :=
  ((List.range 32).filter fun i => m.getLsbD i).map fun i =>
    let p := pos + i * n
    (i, base + BitVec.ofNat 64 (p / 8), p % 8, (p % 8 + n + 7) / 8)

/-- Fields that have been looked up. -/
def fieldSpots (fields : List (Nat × Word × Nat × Nat)) (ls : List (Nat × Nat × List Loc)) : List VSpot :=
  ls.map fun x => { lane := x.1, va := ((fields.find? (·.1 == x.1)).map (·.2.1)).getD 0, bit := x.2.1, locs := x.2.2 }

/-- VLDBIT (R160). -/
def vldbitForm (i : Instr) (vd : BitVec 3) (q : BitVec 2) (g : RegCode) (sext : Bool) (n : Nat) (s : State) : Out :=
  let r : Srcs := { more := [g, g + 1] }
  vgate i none r .none s fun s =>
    let t := s.th
    let fields := bitLanes (t.mask q) (t.value g) (t.value (g + 1)).toNat n
    match lookBits n .load s fields with
    | .error (l, c, a, span) => trap c a (laneEval l span) s
    | .ok ls => latchVop r s (.loadBits vd sext n) (fieldSpots fields ls)

/-- VGATHER.P (R162): lanes that hit go out, the others set a fault bit or start a walk. Where rows of its table meet, a
translation found comes before a fault marker of its page; and an address with a bit of [63:55] set, which is looked up at
no level, sets its fault bit (DESIGN CHOICE, log 86: the table gives neither case). -/
def gatherLanes (n : Nat) : State → List LaneAddr → State × List (Nat × Word × List Loc) × List Nat
  | s, [] => (s, [], [])
  | s, (i, va) :: rest =>
    match locate s .load va n with
    | .ok locs s' =>
      let (s, ls, fs) := gatherLanes n s' rest
      (s, (i, va, locs) :: ls, fs)
    | .fault _ _ =>
      let (s, ls, fs) := gatherLanes n s rest
      (s, ls, i :: fs)
    | .walk ctx page =>
      let marked := (tget [] s.marks (tileOf s.here)).any fun m => m.ctx == ctx && m.page == page
      let s := if marked then s
        else walkRequest s (dieOf s.here) ctx page (.marker s.here s.th.stat.mode)
      let (s, ls, fs) := gatherLanes n s rest
      (s, ls, if marked then i :: fs else fs)

/-- A mask from lane numbers. -/
def laneMask (ls : List Nat) : W32 := BitVec.ofNat 32 ((ls.map fun i => 2 ^ i).foldl (· ||| ·) 0)

/-- The address of a gathered lane (R161). -/
def gatherAddr (base : Word) (idx : VReg) (ty : VType) (i : Nat) : Word :=
  base + (BitVec.ofNat 32 (lane idx i)).signExtend 64 * BitVec.ofNat 64 ty.bytes

/-- The value of a lane that a load has filled (R160, R161). -/
def VLane.value (l : VLane) (width : Nat) (sext : Bool) : Nat :=
  let v := leNat (l.bytes.map fun b => b.2.getD 0)
  if sext then (sint (8 * width) v % (2 : Int) ^ 32).toNat else v

/-- A register with the given lanes written. -/
def writeLanes (v : VReg) (ls : List (Nat × Nat)) : VReg :=
  let old := elems 32 v
  ofElems 32 ((List.range 32).map fun k => match ls.find? (·.1 == k) with
    | some p => p.2
    | none => old.getD k 0)

/-- A vector load's data are all there: its lanes are written, or the lowest poisoned lane traps, and a
VGATHER.P answers its masks instead (R145, R158, R162). Sources that were consumed when it issued (R146) stay
consumed when it takes POISON: log 70. -/
def finishVload (s : State) (v : VLoad) : State :=
  let t := s.th
  let good := v.lanes.filter (!·.poisoned)
  let vals := good.map fun l => (l.lane, l.value v.width v.sext)
  let t := { t with vload := none }
  match v.mask with
  | some (c, f) =>
    let bad := laneMask ((v.lanes.filter (·.poisoned)).map (·.lane))
    let t := t.setVreg v.vd (writeLanes (t.vreg v.vd) vals)
    let t := (t.setMask c (laneMask (good.map (·.lane)))).setMask (if c = 3 then 1 else c + 1) (f ||| bad)
    s.withTh t.complete
  | none =>
    match v.lanes.find? (·.poisoned) with
    | some l => takeTrap .poison l.va (laneEval l.lane v.width) (s.withTh t)
    | none => s.withTh (t.setVreg v.vd (writeLanes (t.vreg v.vd) vals)).complete

/-- VADD: R150. -/
def execVadd (vd va vb : BitVec 3) (q : BitVec 2) (ty : VType) (s : State) : Out :=
  vmap (.vadd vd va vb q ty) (ruleOf ty) ty.width vd va (.reg vb) q s (vaddOp ty)

/-- VADD_VS: R150. -/
def execVaddVs (vd va : BitVec 3) (q : BitVec 2) (ty : VType) (g : RegCode) (s : State) : Out :=
  vmap (.vaddVs vd va q ty g) (ruleOf ty) ty.width vd va (.scalar g) q s (vaddOp ty)

/-- VSUB: R150. -/
def execVsub (vd va vb : BitVec 3) (q : BitVec 2) (ty : VType) (s : State) : Out :=
  vmap (.vsub vd va vb q ty) (ruleOf ty) ty.width vd va (.reg vb) q s (vsubOp ty)

/-- VSUB_VS: R150. -/
def execVsubVs (vd va : BitVec 3) (q : BitVec 2) (ty : VType) (g : RegCode) (s : State) : Out :=
  vmap (.vsubVs vd va q ty g) (ruleOf ty) ty.width vd va (.scalar g) q s (vsubOp ty)

/-- VMUL: R150. -/
def execVmul (vd va vb : BitVec 3) (q : BitVec 2) (ty : VType) (s : State) : Out :=
  vmap (.vmul vd va vb q ty) (ruleOf ty) ty.width vd va (.reg vb) q s (vmulOp ty)

/-- VMUL_VS: R150. -/
def execVmulVs (vd va : BitVec 3) (q : BitVec 2) (ty : VType) (g : RegCode) (s : State) : Out :=
  vmap (.vmulVs vd va q ty g) (ruleOf ty) ty.width vd va (.scalar g) q s (vmulOp ty)

/-- VMIN: R150. -/
def execVmin (vd va vb : BitVec 3) (q : BitVec 2) (ty : VType) (s : State) : Out :=
  vmap (.vmin vd va vb q ty) none ty.width vd va (.reg vb) q s (vminOp ty)

/-- VMIN_VS: R150. -/
def execVminVs (vd va : BitVec 3) (q : BitVec 2) (ty : VType) (g : RegCode) (s : State) : Out :=
  vmap (.vminVs vd va q ty g) none ty.width vd va (.scalar g) q s (vminOp ty)

/-- VMAX: R150. -/
def execVmax (vd va vb : BitVec 3) (q : BitVec 2) (ty : VType) (s : State) : Out :=
  vmap (.vmax vd va vb q ty) none ty.width vd va (.reg vb) q s (vmaxOp ty)

/-- VMAX_VS: R150. -/
def execVmaxVs (vd va : BitVec 3) (q : BitVec 2) (ty : VType) (g : RegCode) (s : State) : Out :=
  vmap (.vmaxVs vd va q ty g) none ty.width vd va (.scalar g) q s (vmaxOp ty)

/-- VSHL: R150. -/
def execVshl (vd va vb : BitVec 3) (q : BitVec 2) (ty : VType) (s : State) : Out :=
  vmap (.vshl vd va vb q ty) none ty.width vd va (.reg vb) q s (vshlOp ty)

/-- VSHL_VS: R150. -/
def execVshlVs (vd va : BitVec 3) (q : BitVec 2) (ty : VType) (g : RegCode) (s : State) : Out :=
  vmap (.vshlVs vd va q ty g) none ty.width vd va (.scalar g) q s (vshlOp ty)

/-- VSHR: R150. -/
def execVshr (vd va vb : BitVec 3) (q : BitVec 2) (ty : VType) (s : State) : Out :=
  vmap (.vshr vd va vb q ty) none ty.width vd va (.reg vb) q s (vshrOp ty)

/-- VSHR_VS: R150. -/
def execVshrVs (vd va : BitVec 3) (q : BitVec 2) (ty : VType) (g : RegCode) (s : State) : Out :=
  vmap (.vshrVs vd va q ty g) none ty.width vd va (.scalar g) q s (vshrOp ty)

/-- VSRA: R150. -/
def execVsra (vd va vb : BitVec 3) (q : BitVec 2) (ty : VType) (s : State) : Out :=
  vmap (.vsra vd va vb q ty) none ty.width vd va (.reg vb) q s (vsraOp ty)

/-- VSRA_VS: R150. -/
def execVsraVs (vd va : BitVec 3) (q : BitVec 2) (ty : VType) (g : RegCode) (s : State) : Out :=
  vmap (.vsraVs vd va q ty g) none ty.width vd va (.scalar g) q s (vsraOp ty)

/-- VMAC: R150. -/
def execVmac (vd va vb : BitVec 3) (q : BitVec 2) (ty : VType) (s : State) : Out :=
  vmap (.vmac vd va vb q ty) (ruleOf ty) ty.width vd va (.reg vb) q s (vmacOp ty)

/-- VMAC_VS: R150. -/
def execVmacVs (vd va : BitVec 3) (q : BitVec 2) (ty : VType) (g : RegCode) (s : State) : Out :=
  vmap (.vmacVs vd va q ty g) (ruleOf ty) ty.width vd va (.scalar g) q s (vmacOp ty)

/-- VAND: R150. -/
def execVand (vd va vb : BitVec 3) (q : BitVec 2) (s : State) : Out :=
  vmap (.vand vd va vb q) none 32 vd va (.reg vb) q s vandOp

/-- VAND_VS: R150. -/
def execVandVs (vd va : BitVec 3) (q : BitVec 2) (g : RegCode) (s : State) : Out :=
  vmap (.vandVs vd va q g) none 32 vd va (.scalar g) q s vandOp

/-- VOR: R150. -/
def execVor (vd va vb : BitVec 3) (q : BitVec 2) (s : State) : Out :=
  vmap (.vor vd va vb q) none 32 vd va (.reg vb) q s vorOp

/-- VOR_VS: R150. -/
def execVorVs (vd va : BitVec 3) (q : BitVec 2) (g : RegCode) (s : State) : Out :=
  vmap (.vorVs vd va q g) none 32 vd va (.scalar g) q s vorOp

/-- VXOR: R150. -/
def execVxor (vd va vb : BitVec 3) (q : BitVec 2) (s : State) : Out :=
  vmap (.vxor vd va vb q) none 32 vd va (.reg vb) q s vxorOp

/-- VXOR_VS: R150. -/
def execVxorVs (vd va : BitVec 3) (q : BitVec 2) (g : RegCode) (s : State) : Out :=
  vmap (.vxorVs vd va q g) none 32 vd va (.scalar g) q s vxorOp

/-- VDOT4: R151. -/
def execVdot4 (vd va vb : BitVec 3) (q : BitVec 2) (ty : VType) (s : State) : Out :=
  vmap (.vdot4 vd va vb q ty) none 32 vd va (.reg vb) q s (vdot4Op ty)

/-- VSEL: R152. -/
def execVsel (vd va vb : BitVec 3) (q : BitVec 2) (s : State) : Out :=
  vselect (.vsel vd va vb q) vd va (.reg vb) q s

/-- VCMP: R152. -/
def execVcmp (qd : BitVec 2) (va vb : BitVec 3) (q : BitVec 2) (ty : VType) (cond : BitVec 3) (s : State) : Out :=
  vcmpForm (.vcmp qd va vb q ty cond) qd va (.reg vb) q ty cond s

/-- VDOT4_VS: R151. -/
def execVdot4Vs (vd va : BitVec 3) (q : BitVec 2) (ty : VType) (g : RegCode) (s : State) : Out :=
  vmap (.vdot4Vs vd va q ty g) none 32 vd va (.scalar g) q s (vdot4Op ty)

/-- VSEL_VS: R152. -/
def execVselVs (vd va : BitVec 3) (q : BitVec 2) (g : RegCode) (s : State) : Out :=
  vselect (.vselVs vd va q g) vd va (.scalar g) q s

/-- VCMP_VS: R152. -/
def execVcmpVs (qd : BitVec 2) (va : BitVec 3) (q : BitVec 2) (ty : VType) (g : RegCode) (cond : BitVec 3) (s : State) : Out :=
  vcmpForm (.vcmpVs qd va q ty g cond) qd va (.scalar g) q ty cond s

/-- VCVT: R153, R154. A prefix without a destination is refused at step 5 of R74; no prefix, or a part out of range, is its own ILLEGAL_INSTR. -/
def execVcvt (vd va part : BitVec 3) (q : BitVec 2) (ty : VType) (s : State) : Out :=
  let w := encode (.vcvt vd va part q ty)
  let p := s.th.pfxFields
  let ill := trap .illegalInstr (evalWord w) 0
  if (s.core s.here).vlatch.isNone && (s.core s.here).feat &&& 4 = 4 && s.th.stat.pp && p.fd = 0 then
    trap .illegalPrefix (evalWord w) (evalWord s.th.pfx) s
  else vgate (.vcvt vd va part q ty) (some ruleVcvt) {} .none s fun s =>
    if !s.th.stat.pp then ill s
    else
      let t := s.th
      let src := fmtOr ty.fmt p.fa
      let dst := fmtOr .fp32 p.fd
      if max src.slot dst.slot / min src.slot dst.slot ≤ part.toNat then ill s
      else
        let (res, fl) := vcvtAll src dst t.rounding p.sat part.toNat (t.mask q) (t.vreg va) (t.vreg vd)
        vretire {} s fun t => (t.setVreg vd res).raise fl

/-- VBCAST: R155. -/
def execVbcast (vd : BitVec 3) (q : BitVec 2) (ty : VType) (g : RegCode) (s : State) : Out :=
  vmap (.vbcast vd q ty g) none ty.width vd vd (.scalar g) q s fun _ _ _ y _ => (y, 0)

/-- VEXT: R155; it writes its scalar as a synchronous result (R146). -/
def execVext (va : BitVec 3) (lane : BitVec 5) (ty : VType) (g : RegCode) (s : State) : Out :=
  vgate (.vext va lane ty g) none {} (.sync g) s fun s =>
    vretire {} s fun t => t.writeSync g (fextend ty.fmt (Machine.lane (s.th.vreg va) lane.toNat))

/-- VPERM: R155. -/
def execVperm (vd va vb : BitVec 3) (q : BitVec 2) (s : State) : Out :=
  vlanes (.vperm vd va vb q) {} vd q s fun t i => lane (t.vreg va) (lane (t.vreg vb) i)

/-- VROT: R155. -/
def execVrot (vd va : BitVec 3) (q : BitVec 2) (g : RegCode) (s : State) : Out :=
  vlanes (.vrot vd va q g) { more := [g] } vd q s fun t i => lane (t.vreg va) (i + (t.value g).toNat % 32)

/-- VSHUF: R155. -/
def execVshuf (vd va vb : BitVec 3) (q : BitVec 2) (g : RegCode) (s : State) : Out :=
  vlanes (.vshuf vd va vb q g) { more := [g] } vd q s fun t i => vshuffle ((t.value g).toNat % 4) (t.vreg va) (t.vreg vb) i

/-- VRED: R156, R61. -/
def execVred (va : BitVec 3) (q : BitVec 2) (ty : VType) (g : RegCode) (op : BitVec 3) (s : State) : Out :=
  vgate (.vred va q ty g op) (ruleRed ty op) {} (.sync g) s fun s =>
    let t := s.th
    let f := redOp op ty 64 t.rounding t.pfxFields.sat
    let es := (elems ty.width (t.vreg va)).map (redWiden ty op)
    let (x, fl) := tree f ty.levels (present (t.mask q) ty.width es)
    vretire {} s fun t => (t.writeSync g (redWord ty op (x.getD (redIdentity op ty)))).raise fl

/-- VSCAN: R156, R62. -/
def execVscan (vd va : BitVec 3) (q : BitVec 2) (ty : VType) (op : BitVec 3) (s : State) : Out :=
  vgate (.vscan vd va q ty op) (ruleRed ty op) {} .none s fun s =>
    let t := s.th
    let f := redOp op ty ty.width t.rounding t.pfxFields.sat
    let (ys, fl) := scan f ty.levels 1 (present (t.mask q) ty.width (elems ty.width (t.vreg va)))
    let new := ys.map fun y => y.getD (redIdentity op ty)
    let (res, _) := elementwise ty.width (t.mask q) (fun x _ _ => (x, 0)) 0 new new (elems ty.width (t.vreg vd))
    vretire {} s fun t => (t.setVreg vd (ofElems ty.width res)).raise fl

/-- MAND: R157. -/
def execMand (qd qa qb : BitVec 2) (s : State) : Out :=
  maskOp (.mand qd qa qb) qd s fun t => t.mask qa &&& t.mask qb

/-- MOR: R157. -/
def execMor (qd qa qb : BitVec 2) (s : State) : Out :=
  maskOp (.mor qd qa qb) qd s fun t => t.mask qa ||| t.mask qb

/-- MXOR: R157. -/
def execMxor (qd qa qb : BitVec 2) (s : State) : Out :=
  maskOp (.mxor qd qa qb) qd s fun t => t.mask qa ^^^ t.mask qb

/-- MNOT: R157. -/
def execMnot (qd qa : BitVec 2) (s : State) : Out :=
  maskOp (.mnot qd qa) qd s fun t => ~~~(t.mask qa)

/-- MPOPC: R157. -/
def execMpopc (qa : BitVec 2) (g : RegCode) (s : State) : Out :=
  maskRead (.mpopc qa g) g s fun t => popcFrom (t.mask qa).toNat 32

/-- MFIRST: R157. -/
def execMfirst (qa : BitVec 2) (g : RegCode) (s : State) : Out :=
  maskRead (.mfirst qa g) g s fun t => ctzFrom (t.mask qa).toNat 32

/-- MRD: R157. -/
def execMrd (qa : BitVec 2) (g : RegCode) (s : State) : Out :=
  maskRead (.mrd qa g) g s fun t => (t.mask qa).toNat

/-- MMOV: R157. -/
def execMmov (qd : BitVec 2) (g : RegCode) (s : State) : Out :=
  vgate (.mmov qd g) none { more := [g] } .none s fun s =>
    vretire { more := [g] } s fun t => t.setMask qd ((s.th.value g).setWidth 32)

/-- VLD: R160. -/
def execVld (vd : BitVec 3) (q : BitVec 2) (g : RegCode) (s : State) : Out :=
  vgate (.vld vd q g) none { more := [g] } .none s fun s =>
    vload { more := [g] } vd false 4 (activeLanes (s.th.mask q) fun i => s.th.value g + BitVec.ofNat 64 (4 * i)) s

/-- VST: R160. -/
def execVst (vd : BitVec 3) (q : BitVec 2) (g : RegCode) (s : State) : Out :=
  vgate (.vst vd q g) none { more := [g] } .none s fun s =>
    vstore { more := [g] } vd 4 (activeLanes (s.th.mask q) fun i => s.th.value g + BitVec.ofNat 64 (4 * i)) s

/-- VLDS: R160. -/
def execVlds (vd : BitVec 3) (q : BitVec 2) (g : RegCode) (s : State) : Out :=
  vgate (.vlds vd q g) none { more := [g, g + 1] } .none s fun s =>
    vload { more := [g, g + 1] } vd false 4
      (activeLanes (s.th.mask q) fun i => s.th.value g + BitVec.ofNat 64 i * s.th.value (g + 1)) s

/-- VSTS: R160. -/
def execVsts (vd : BitVec 3) (q : BitVec 2) (g : RegCode) (s : State) : Out :=
  vgate (.vsts vd q g) none { more := [g, g + 1] } .none s fun s =>
    vstore { more := [g, g + 1] } vd 4
      (activeLanes (s.th.mask q) fun i => s.th.value g + BitVec.ofNat 64 i * s.th.value (g + 1)) s

/-- VGATHER: R161. -/
def execVgather (vd va : BitVec 3) (q : BitVec 2) (ty : VType) (g : RegCode) (s : State) : Out :=
  vgate (.vgather vd va q ty g) none { more := [g] } .none s fun s =>
    vload { more := [g] } vd ty.signed ty.bytes
      (activeLanes (s.th.mask q) (gatherAddr (s.th.value g) (s.th.vreg va) ty)) s

/-- VSCATTER: R161. -/
def execVscatter (vd va : BitVec 3) (q : BitVec 2) (ty : VType) (g : RegCode) (s : State) : Out :=
  vgate (.vscatter vd va q ty g) none { more := [g] } .none s fun s =>
    vstore { more := [g] } vd ty.bytes
      (activeLanes (s.th.mask q) (gatherAddr (s.th.value g) (s.th.vreg va) ty)) s

/-- VGATHER.P: R162. -/
def execVgatherP (vd va : BitVec 3) (c q : BitVec 2) (ty : VType) (g : RegCode) (s : State) : Out :=
  vgate (.vgatherP vd va c q ty g) none { more := [g] } .none s fun s =>
    let (s, lanes, faults) := gatherLanes ty.bytes s
      (activeLanes (s.th.mask q) (gatherAddr (s.th.value g) (s.th.vreg va) ty))
    if (lanes.any fun x => anyDev x.2.2) && s.th.devStore then stall .devStore s
    else latchVop { more := [g] } s
      (.load { vd := vd, sext := ty.signed, width := ty.bytes, lanes := [], mask := some (c, laneMask faults) }) (spotsOf lanes)

/-- VLDBIT, zero-extended: R160. -/
def execVldbitU (vd : BitVec 3) (q : BitVec 2) (g : RegCode) (n : BitVec 4) (s : State) : Out :=
  vldbitForm (.vldbitU vd q g n) vd q g false (n.toNat + 1) s

/-- VLDBIT, sign-extended: R160. -/
def execVldbitS (vd : BitVec 3) (q : BitVec 2) (g : RegCode) (n : BitVec 4) (s : State) : Out :=
  vldbitForm (.vldbitS vd q g n) vd q g true (n.toNat + 1) s

/-- VSTBIT: R160. -/
def execVstbit (vd : BitVec 3) (q : BitVec 2) (g : RegCode) (n : BitVec 4) (s : State) : Out :=
  let r : Srcs := { more := [g, g + 1] }
  vgate (.vstbit vd q g n) none r .none s fun s =>
    let t := s.th
    let n := n.toNat + 1
    let fields := bitLanes (t.mask q) (t.value g) (t.value (g + 1)).toNat n
    match lookBits n .store s fields with
    | .error (l, c, a, span) => trap c a (laneEval l span) s
    | .ok ls => latchVop r s (.storeBits n (ls.map fun x => lane (t.vreg vd) x.1)) (fieldSpots fields ls)

/-- An accepted vector load goes out (R159, R385): the lines and device lanes in order of their lowest lane, the first
requests sent. -/
def sendVload (s : State) (v : VLoad) (spots : List VSpot) : State :=
  let v := { v with lanes := spots.map (vlaneOf s) }
  let (s, v) := v.asks.foldl (vecLine s.th s.here) (s, v)
  sendVectors (s.withTh { s.th with vload := some v }) s.th.place

/-- The bytes of an accepted vector store, lane by lane in ascending order (R158). -/
def storeLanes (s : State) (spots : List VSpot) (data : List (List Byte)) : State :=
  (spots.zip data).foldl (fun s x => if anyDev x.1.locs then s else storeBytes s x.1.locs x.2) s

/-- The value of a VLDBIT field of n bits (R160). -/
def fieldValue (s : State) (sext : Bool) (n : Nat) (x : VSpot) : Nat :=
  let f := nbits (leNat (readHome s .core x.locs)) x.bit n
  if sext then (sint n f % (2 : Int) ^ 32).toNat else f

/-- A VSTBIT field of n bits written among the bits around it (R160). -/
def putField (n : Nat) (s : State) (x : VSpot × Nat) : State :=
  let old := leNat (readHome s .core x.1.locs)
  let new := old - nbits old x.1.bit n * 2 ^ x.1.bit + x.2 % 2 ^ n * 2 ^ x.1.bit
  storeScratch s x.1.locs (leBytes x.1.locs.length new)

/-- The thread in focus is done with its instruction but for its completion (R145). -/
def vdone (s : State) (f : Thread → Thread) : State := s.withTh { (f s.th).complete with wait := .vector }

/-- What the vector unit does with the memory instruction it has accepted from the thread in focus (R145, R158 to R162,
R385): a load sends its requests, a store writes its lanes; a VLDBIT that meets a poisoned word traps. -/
def acceptVop (s : State) : State :=
  match s.th.vop with
  | none => s
  | some op =>
    let s := s.withTh { s.th with vop := none }
    match op.work with
    | .load v => sendVload s v op.spots
    | .store data =>
      let dev := op.spots.any fun x => anyDev x.locs
      vdone (storeLanes s op.spots data) fun t => if dev then { t with devStore := true, devCtx := t.ctx } else t
    | .loadBits vd sext n =>
      match op.spots.find? fun x => poisonAt s x.locs with
      | some x => takeTrap .poison x.va (laneEval x.lane x.locs.length) s
      | none => vdone s fun t => t.setVreg vd (writeLanes (t.vreg vd) (op.spots.map fun x => (x.lane, fieldValue s sext n x)))
    | .storeBits n vals => vdone ((op.spots.zip vals).foldl (putField n) s) id

/-- VECTOR_LATCH_ACCEPT (R144): the vector unit of tile ev.n accepts one full latch, the first in ascending core order after the core it served last, which is core 3 after reset (log 71); a stopped tile accepts nothing (R371, R374). A memory instruction goes to work (R385). -/
def execVectorLatchAccept  (s : State) : Out :=
  let tile := s.ev.n
  let last := tget 3 s.lastServed tile
  if tileStopped s tile then .next s else
  match ((List.range 4).map fun k => (last + 1 + k) % 4).find? fun k => (s.core (tile * 4 + k)).vlatch.isSome with
  | none => .next s
  | some k =>
    let c := tile * 4 + k
    let place := ((s.core c).vlatch).getD 0
    let s := { s.setCore c { s.core c with vlatch := none } with lastServed := tput s.lastServed tile k }
    .next (if (s.threadAt place).vop.isSome then acceptVop (s.focus place) else s)

/-- The bytes of a device lane come: free values, but for registers that the spec defines (R345, log 3). -/
def VLoad.giveDevice (v : VLoad) (s : State) (k : Nat) : VLoad :=
  { v with lanes := v.lanes.map fun (l : VLane) =>
      if l.lane = k then { l with bytes := l.bytes.map fun b => (b.1, some (deviceByte s b.1)) } else l }

/-- VECTOR_RESPONSE_RETURN (R385, R159): the answered request ev.k of the vector load at place ev.p gives its bytes and frees its slot, and the next request is sent. A device lane's value is read when it returns. -/
def execVectorResponseReturn  (s : State) : Out :=
  let t := s.threadAt s.ev.p
  match t.vload with
  | none => .next s
  | some v =>
    let rest := v.reqs.eraseIdx s.ev.k
    match v.reqs[s.ev.k]? with
    | some ⟨_, no, none, _, some f, poisoned⟩ =>
      let v := if poisoned then v.poison no else v
      .next (sendVectors (s.setThreadAt s.ev.p { t with vload := some { v.give no f.bytes with reqs := rest } }) s.ev.p)
    | some ⟨_, _, some k, true, _, poisoned⟩ =>
      let v := v.giveDevice s k
      let lanes := v.lanes.map fun l => if l.lane = k then { l with poisoned := l.poisoned || poisoned } else l
      let s := spendDevice (s.setThreadAt s.ev.p { t with vload := some { v with lanes := lanes, reqs := rest } })
      .next (sendVectors s s.ev.p)
    | _ => .next s

/-- VECTOR_COMPLETION (R145): the accepted vector instruction of the thread at place ev.p completes, a load once every response has returned. -/
def execVectorCompletion  (s : State) : Out :=
  let t := s.threadAt s.ev.p
  if t.wait ≠ .vector || (s.core (coreOf s.ev.p)).vlatch = some s.ev.p then .next s
  else
    let s' := s.focus s.ev.p
    match t.vload with
    | none => .next (s'.withTh { s'.th with wait := .none })
    | some v => .next (if v.reqs.isEmpty then finishVload s' v else s)

end Sys2Proof.Machine
end

