-- ==== Sys2Proof/Machine/MemEvents.lean ====
section
/-!
DEFINITION. The events that end what a memory instruction began: returned data (R27, R109, R115), release
and acquire (R119, R299, R300), L2 fills (R296), page walks (R312, R313), prefetches (R127), device stores
(R128), and the waits that time ends (R187).
-/

namespace Sys2Proof.Machine

/-- The value a load's bytes give its register (R118). -/
def Load.value (l : Load) : Word :=
  let n := l.bytes.length
  let v := leNat (l.bytes.map fun b => b.2.getD 0)
  if l.sext then wordOfInt (sint (8 * n) v) else BitVec.ofNat 64 v

/-- Whether every byte of a load is known. -/
def Load.complete (l : Load) : Bool := l.dev || l.bytes.all (·.2.isSome)

/-- The wait of a thread once one of its loads has returned: an acquiring load goes on to its acquire
(R119), a device load is over (R128). -/
def waitAfterLoad (w : Wait) (l : Load) : Wait :=
  match w with
  | .acqLoad id sc => if id = l.id then .acquire sc true else w
  | .device => if l.dev then .none else w
  | _ => w

/-- LOAD_DATA_RETURN (R27): load ev.k of the thread at place ev.p returns: its register becomes READY with
the value, or keeps poison (R116). A device read
gives a register that the spec defines or a free value (R345, log 3). -/
def execLoadDataReturn (s : State) : Out :=
  let t := s.threadAt s.ev.p
  match t.loads[s.ev.k]? with
  | none => .next s
  | some l =>
    if !l.complete then .next s
    else
      let n := l.bytes.length
      let dev := leNat (l.bytes.map fun b => deviceByte s b.1)
      let v := if l.dev then (if l.sext then wordOfInt (sint (8 * n) dev) else BitVec.ofNat 64 dev) else l.value
      let s := if l.dev then spendDevice s else s
      let t := if l.poisoned then t.writePoison l.dst l.va l.pc else t.writeLate l.dst v
      let t := { t with loads := t.loads.eraseIdx s.ev.k, wait := waitAfterLoad t.wait l }
      .next (sendVectors (s.setThreadAt s.ev.p t) s.ev.p)

/-- Whether a store or write-back of a die waits behind a miss or in a slice's queue (R296). -/
def storesWaiting (s : State) (die : Nat) : Bool :=
  let store := fun (w : Waiter) => match w with
    | .store _ => true
    | _ => false
  ((s.mshrOf die).any fun m => m.waiters.any store) || s.ingress.any fun q => q.1 / 256 == die && q.2.any fun r => store r.2

/-- RELEASE_COMPLETE (R300): every acknowledgement has come, and the thread at place ev.p goes on with its
instruction. -/
def execReleaseComplete (s : State) : Out :=
  let t := s.threadAt s.ev.p
  if t.wait = .releaseAck && !storesWaiting s (dieOf (coreOf s.ev.p)) then
    .next (s.setThreadAt s.ev.p { t with phase := .released, wait := .none })
  else .next s

/-- ACQUIRE_COMPLETE (R299, R119, R177): the floors are set, and the thread at place ev.p goes on with its
instruction, after it, or to the consumption it was held for. -/
def execAcquireComplete (s : State) : Out :=
  let s := s.focus s.ev.p
  match s.th.wait with
  | .acquire sc after =>
    let s := acquireAt s sc
    .next (s.withTh { s.th with wait := .none, phase := if after then s.th.phase else .acquired })
  | .consume c sc =>
    let s := acquireAt s sc
    .next (s.withTh { s.th.setReg c.toNat { s.th.reg c.toNat with aq := none } with wait := .none })
  | _ => .next s

/-- L2_MISS_FILL (R296): line ev.k arrives at an L2 slice of die ev.n. -/
def execL2MissFill (s : State) : Out := .next (l2Fill s s.ev.n s.ev.k)

/-- A fault marker of a page added to or taken from a tile (R162). -/
def setMark (s : State) (tile ctx page : Nat) (on : Bool) : State :=
  let ms := (tget [] s.marks tile).filter fun m => !(m.ctx == ctx && m.page == page)
  { s with marks := tput s.marks tile (if on then tlbTrim 1 (tlbSet 1 page) FaultMark.page (⟨ctx, page⟩ :: ms) else ms) }

/-- A translation that a walk found installed at every level for a core (R310). -/
def installAll (s : State) (core : Nat) (e : TlbEntry) : State :=
  (List.range 4).foldl (fun s l => tlbInstall s core l e) s

/-- The same for a page that a requester of the core's tile may use: its fault marker goes (R162). -/
def installOver (s : State) (core ctx page : Nat) (e : TlbEntry) : State :=
  let s := installAll s core e
  if (tget [] s.marks (tileOf core)).any fun m => m.ctx == ctx && m.page == page then setMark s (tileOf core) ctx page false else s

/-- A thread that waited for a walk goes on and looks its address up again (R108, R312). -/
def wakeWalker (s : State) (place : Nat) (failed : Option (Nat × Nat)) : State :=
  let t := s.threadAt place
  match t.wait with
  | .walk _ _ =>
    s.setThreadAt place { t with
      wait := .none
      walkFails := match failed with
        | some p => t.walkFails ++ [p]
        | none => t.walkFails }
  | _ => s

/-- One requester of a walk that has ended is served (R312): by the entry, or by its own outcome of a
failure; after a stale walk it asks again (R313). -/
def serveWalk (die : Nat) (w : Walk) (e : Option TlbEntry) (s : State) (who : WalkFor) : State :=
  if w.stale then
    match who with
    | .thread place => wakeWalker s place none
    | _ => walkRequest s die w.ctx w.page who
  else
    match who with
    | .thread place =>
      match e with
      | some e => wakeWalker (installOver s (coreOf place) w.ctx w.page e) place none
      | none => wakeWalker s place (some (w.ctx, w.page))
    | .unit =>
      match e with
      | some e => tlbInstall s (die * 1024) 3 e
      | none => { s with walkFails := tput s.walkFails die (⟨w.ctx, w.page⟩ :: tget [] s.walkFails die) }
    | .marker core sup =>
      match e with
      | some e => setMark (installAll s core e) (tileOf core) w.ctx w.page (!(e.allows sup .load && physOk s (physOf s (e.phys (w.page * 65536)))))
      | none => setMark s (tileOf core) w.ctx w.page true
    | .pref core va portion sup =>
      match e with
      | some e =>
        let s := installOver s core w.ctx w.page e
        if e.allows sup .load && !e.dev && physOk s (physOf s (e.phys va)) then startPref s core (physOf s (e.phys va)) portion
        else s
      | none => s
    | .hint core va inval sc sup =>
      match e with
      | some e =>
        let s := installOver s core w.ctx w.page e
        if e.allows sup .load && !e.dev && physOk s (physOf s (e.phys va)) then lineHint s core (physOf s (e.phys va)) inval sc
        else s
      | none => s

/-- PAGE_WALK_COMPLETE (R312): walk ev.k of die ev.n ends, one of the 64 that walkers hold, the first in allocation
order; its entry is installed and its requesters are served, in the order in which they joined, VGATHER.P's last: the
marker that one leaves is not replaced by this walk (R162). -/
def execPageWalkComplete (s : State) : Out :=
  let ws := tget [] s.walks s.ev.n
  match if s.ev.k < 64 then ws[s.ev.k]? else none with
  | none => .next s
  | some w =>
    let die := s.ev.n
    let va := w.page * 65536
    let e := (walkTables s die w.ctx va).1
    let s := setWalks s die (ws.eraseIdx s.ev.k) (tget [] s.walkQueue die)
    let s := if w.stale then s else walkTrace s die w.ctx va
    let marks := fun (r : WalkFor) => match r with
      | .marker _ _ => true
      | _ => false
    .next ((w.reqs.filter (!marks ·) ++ w.reqs.filter marks).foldl (serveWalk die w e) s)

/-- PREF_FILL_RETURN (R127): the answered prefetch ev.k of core ev.n fills the line into the portion, with what its
slice holds of it when it returns, and frees its slot. -/
def execPrefFillReturn (s : State) : Out :=
  let n := s.ev.n
  let c := s.core n
  match c.prefs[s.ev.k]? with
  | some (no, true) =>
    let s := s.setCore n { c with prefs := c.prefs.eraseIdx s.ev.k }
    .next (if s.l2Open (dieOf n) no && reachable s (no * 64) then refill s n c.pf c.lf no else s)
  | _ => .next s

/-- DEVICE_STORE_ACCEPTED (R128): the target accepts the posted device store of the thread at place ev.p. -/
def execDeviceStoreAccepted (s : State) : Out :=
  .next (s.setThreadAt s.ev.p { s.threadAt s.ev.p with devStore := false })

/-- SLEEP_EXPIRY (R187): the count of a SLEEP has passed. -/
def execSleepExpiry (s : State) : Out :=
  let t := s.threadAt s.ev.p
  match t.wait with
  | .sleep dl => if dl ≤ s.clock then .next (s.setThreadAt s.ev.p { t with wait := .none }) else .next s
  | _ => .next s

/-- YIELD_EXPIRY (R187): the yielding slot at place ev.p is ready again. -/
def execYieldExpiry (s : State) : Out :=
  let t := s.threadAt s.ev.p
  if yielding s t then .next s else .next (s.setThreadAt s.ev.p { t with yields := [] })

end Sys2Proof.Machine
end

