-- ==== Sys2Proof/Machine/Power.lean ====
section
/-!
DEFINITION. Operating points and hardware limits (R371 to R375), firmware, attestation and keys (R377, R378), and
reset and debug (R379).
-/

namespace Sys2Proof.Machine

/-- A tile's operating record. -/
def State.tile (s : State) (t : Nat) : TilePower := tget {} s.tiles t

/-- The state with a tile's operating record replaced. -/
def State.setTile (s : State) (t : Nat) (p : TilePower) : State := { s with tiles := tput s.tiles t p }

/-- The effective request of a core (R372, R373): REQ, or with HINTEN any point from FLOOR to REQ that the
Surveyor picks. -/
def effective (pick : Nat) (o : OpReq) : Nat := if o.hinten && decide (o.floor ≤ pick) && decide (pick ≤ o.req) then pick else o.req

/-- OPERATING_POINT_CHANGE (R372, R373, R375): tile ev.n goes to the highest effective request of its cores, with the
Surveyor's picks ev.nums; while the watchdog has expired it holds its point. -/
def execOperatingPointChange (s : State) : Out :=
  let t := s.ev.n
  if s.watchdog then .next s
  else
    let p := tileRequest s t fun k o => effective (s.ev.nums.getD k o.req) o
    .next (s.setTile t { s.tile t with point := p })

/-- Bounds of R374: a thermal trip, its end, and a shutdown, in degrees Celsius. -/
def tripAt : Nat := 110
def tripEnd : Nat := 100
def shutdownAt : Nat := 125

/-- What outlives a reset or a loss of power: memory beyond the chip, fuses and identity, firmware slots and the rollback
counter, and the model's own fields. -/
def survives (s : State) : State :=
  let f := s.firmware
  { State.reset with
    mem := s.mem
    memPoison := s.memPoison
    cores := (s.cores.filter fun c => c.2.feat != 0x3F).map fun c => (c.1, { feat := c.2.feat })
    tiles := (s.tiles.filter fun t => t.2.fsafe != 7).map fun t => (t.1, { fsafe := t.2.fsafe })
    firmware := { identity := f.identity, slotA := f.slotA, slotB := f.slotB, rollback := f.rollback }
    agenda := s.agenda
    tick := s.tick
    serial := s.serial }

/-- Every clock and rail goes off, on-chip state is lost, and both hosts' links go down (R374). -/
def shutdown (s : State) : State :=
  { survives s with hosts := [(0, { linkUp := false }), (1, { linkUp := false })], shutDown := true }

/-- What a sensor reading does (R372, R374): a shutdown, a trip or its end, which both hosts are told, and the reading
kept. -/
def sense (s : State) (tile k : Nat) : State :=
  let k := min 255 k
  let t := s.tile tile
  let both := fun (s : State) => raiseCause (raiseCause s 0 2) 1 2
  if shutdownAt ≤ k then shutdown s
  else if tripAt ≤ k && !t.trip then both (s.setTile tile { t with temp := k, trip := true })
  else if k < tripEnd && t.trip then both (s.setTile tile { t with temp := k, trip := false })
  else s.setTile tile { t with temp := k }

/-- TEMP_REFRESH (R372, R374): the sensor of tile ev.n reads ev.k. -/
def execTempRefresh (s : State) : Out := .next (sense s s.ev.n s.ev.k)

/-- THERMAL_TRIP (R374): the sensor of tile ev.n reads ev.k, 110 or more: its cores stop issuing, and both hosts are
interrupted; from 125 on the package shuts down. -/
def execThermalTrip (s : State) : Out :=
  .next (if s.ev.k < tripAt || (s.tile s.ev.n).trip && decide (s.ev.k < shutdownAt) then s else sense s s.ev.n s.ev.k)

/-- THERMAL_TRIP_END (R374): the sensor of tile ev.n reads ev.k, below 100. -/
def execThermalTripEnd (s : State) : Out :=
  .next (if tripEnd ≤ s.ev.k || !(s.tile s.ev.n).trip then s else sense s s.ev.n s.ev.k)

/-- CURRENT_LIMIT (R374): tile ev.n is throttled, which only time shows. -/
def execCurrentLimit (s : State) : Out := .next (s.setTile s.ev.n { s.tile s.ev.n with limit := true })

/-- CURRENT_LIMIT_RELEASE (R374). -/
def execCurrentLimitRelease (s : State) : Out := .next (s.setTile s.ev.n { s.tile s.ev.n with limit := false })

/-- POWER_CLAMP (R374): every arithmetic clock of the package is stretched. -/
def execPowerClamp (s : State) : Out := .next { s with clamp := true }

/-- POWER_CLAMP_RELEASE (R374). -/
def execPowerClampRelease (s : State) : Out := .next { s with clamp := false }

/-- WATCHDOG_EXPIRY (R375): every tile holds its point, clamped to FSAFE, and both hosts are interrupted. -/
def execWatchdogExpiry (s : State) : Out :=
  let s := (List.range 1024).foldl (fun s t =>
    let p := s.tile t
    if p.fsafe < p.point then s.setTile t { p with point := p.fsafe } else s) { s with watchdog := true }
  .next (raiseCause (raiseCause s 0 1) 1 1)

/-- The Surveyors restart (R375): the active firmware slot is loaded and their tables stand again. -/
def restart (s : State) : State :=
  { s with
    watchdog := false
    firmware := { s.firmware with staged := false, restartAt := s.clock } }

/-- SURVEYOR_RESTART (R375): reset control restarts the Surveyors; no running party is disturbed. -/
def execSurveyorRestart (s : State) : Out := .next (restart s)

/-- The firmware slot that is not active, replaced. -/
def Firmware.setInactive (f : Firmware) (x : FwSlot) : Firmware := if f.activeB then { f with slotA := x } else { f with slotB := x }

/-- Whether a firmware image's signature verifies, by a key that has the fused digest (R377). -/
def firmwareOk (d : Identity) (bs : List Byte) : Bool :=
  let (image, key, sig) := Config.firmwareParts bs
  digest key == d.fusedDigest && mldsaVerify key (digest image) sig

/-- FWSTAGE (R359, R377): a write of 1 copies the image at FWADDR into the inactive slot and verifies it. -/
def execFwstage (s : State) : Out :=
  setreg s 6 (fun _ inst n => inst == 0 && n == 2) fun h _ _ v s =>
    let f := s.firmware
    if v ≠ 1 then (.ok, f.staged.toNat, s)
    else match hostRead s h f.fwaddr.toNat f.fwlen.toNat with
      | none => (.hostFault, f.staged.toNat, s)
      | some bs =>
        let good := firmwareOk f.identity bs && decide (f.rollback ≤ Config.firmwareVersion bs)
        let x : FwSlot := { version := Config.firmwareVersion bs, valid := good, image := bs }
        (if good then .ok else .refused, good.toNat, { s with firmware := { f.setInactive x with staged := good } })

/-- FWACT (R359, R377): a write of 1 activates the staged slot, and the Surveyors restart. -/
def execFwact (s : State) : Out :=
  setreg s 6 (fun _ inst n => inst == 0 && n == 3) fun _ _ _ v s =>
    let f := s.firmware
    if v ≠ 1 then (.ok, 0, s)
    else if !f.staged then (.refused, 0, s)
    else (.ok, 0, restart { s with firmware := { f with activeB := !f.activeB } })

/-- The parts of an attestation report (R378): part number and serial, nonce, slots, rollback counter, version registers,
fused values, and the digests of the image keys. -/
def reportParts (s : State) (nonce : List Byte) : List (List Byte) :=
  let f := s.firmware
  [wordsBytes [f.identity.part, f.identity.serial], nonce,
   wordsBytes [f.slotA.version, f.slotB.version, f.activeB.toNat, f.rollback],
   wordsBytes (List.replicate 5 versionWord), wordsBytes [cvfuse],
   (List.range 1024).map fun t => BitVec.ofNat 8 (s.tile t).fsafe] ++
  f.keys.map fun k => if k = [] then [] else digest k

/-- The attestation report with its signature by the attestation key (R378). -/
def attestation (s : State) (nonce : List Byte) : List Byte :=
  let body := Config.reportLayout (reportParts s nonce)
  body ++ Config.mldsaSign s.firmware.identity.attestKey body

/-- ATTOUT (R359, R378): the report goes to the host address written, and the response returns its length. -/
def execAttout (s : State) : Out :=
  setreg s 6 (fun _ inst n => inst == 0 && n == 5) fun h _ _ v s =>
    match hostRead s h s.firmware.attnonce.toNat 32 with
    | none => (.hostFault, 0, s)
    | some nonce =>
      let r := attestation s nonce
      match hostWrite s h v r with
      | none => (.hostFault, 0, s)
      | some t => (.ok, r.length, { t with firmware := { t.firmware with attout := BitVec.ofNat 64 v } })

/-- IMGKEY_WRITE (R359): installs the key found at a host address in a slot; 0 empties the slot. -/
def execImgkeyWrite (s : State) : Out :=
  setreg s 6 (fun _ inst n => inst == 0 && decide (8 ≤ n) && decide (n ≤ 11)) fun h _ n v s =>
    let f := s.firmware
    let put := fun (k : List Byte) =>
      { s with firmware := { f with keys := f.keys.set (n - 8) k, keyAddr := f.keyAddr.set (n - 8) (BitVec.ofNat 64 v) } }
    if v = 0 then (.ok, 0, put [])
    else match hostRead s h v 1952 with
      | none => (.hostFault, (f.keyAddr.getD (n - 8) 0).toNat, s)
      | some k => (.ok, v, put k)

/-- The version of the firmware that runs (R377). -/
def Firmware.running (f : Firmware) : Nat := if f.activeB then f.slotB.version else f.slotA.version

/-- ROLLBACK_ADVANCE (R377): new firmware has run for 10 s without a watchdog expiry. -/
def execRollbackAdvance (s : State) : Out :=
  let f := s.firmware
  if s.watchdog || elapsed s f.restartAt < micros 10000000 then .next s
  else .next { s with firmware := { f with rollback := max f.rollback f.running } }

/-- Whether the boot ROM accepts a slot (R377). -/
def slotOk (f : Firmware) (x : FwSlot) : Bool := x.valid && decide (f.rollback ≤ x.version)

/-- What the boot ROM boots (R377): the accepted slot of higher version; none when neither is accepted. -/
def bootSlot (f : Firmware) : Option Bool :=
  match slotOk f f.slotA, slotOk f f.slotB with
  | true, true => some (decide (f.slotA.version < f.slotB.version))
  | true, false => some false
  | false, true => some true
  | false, false => none

/-- The sensors' first readings of a reset, tile by tile (R379). -/
def firstReadings (s : State) (nums : List Nat) : State :=
  (List.range nums.length).foldl (fun s t => sense s t (nums.getD t 0)) s

/-- PACKAGE_RESET (R379): everything on the package is as reset leaves it, CYCLE counts from zero, and the boot ROM
boots a slot; ev.nums are the sensors' first readings. Without an accepted slot the boot fails, and the package
stays shut down (log 17). -/
def execPackageReset (s : State) : Out :=
  let t := firstReadings (survives s) s.ev.nums
  match bootSlot t.firmware with
  | some b => .next { t with firmware := { t.firmware with activeB := b } }
  | none => .next { t with shutDown := true }

/-- PACKAGE_SHUTDOWN (R374): a sensor reads ev.k, 125 or more. -/
def execPackageShutdown (s : State) : Out := .next (if s.ev.k < shutdownAt then s else shutdown s)

/-- DEBUG_UNLOCK (R379): the token ev.bytes opens internal state to the IEEE 1149.1 port and its BAR 4 bridge when it is
signed for this package's serial under the identity chain. With ev.yes the port asks for an object of internal state,
by the class ev.k and the place ev.n of R370's table, and has its bytes once a token has opened it (log 88). -/
def execDebugUnlock (s : State) : Out :=
  let f := s.firmware
  .next (if s.ev.yes then
      if f.unlocked then { s with firmware := { f with debugOut := (surveyBytes s s.ev.k s.ev.n).getD [] } } else s
    else if mldsaVerify f.identity.chainKey (Config.debugMessage f.identity.serial) s.ev.bytes then
      { s with firmware := { f with unlocked := true } }
    else s)

end Sys2Proof.Machine
end

