-- ==== Sys2Proof/Machine/ScalarFloat.lean ====
section
/-!
DEFINITION. Majors 0x18 to 0x1B: scalar floating point and the format prefix (R129 to R143).
-/

namespace Sys2Proof.Machine

/-- A row of R131 for the two-operand and fused instructions. -/
def ruleArith : PfxRule := { a := .float, b := .float, d := .float }
def ruleSqrt : PfxRule := { a := .float, b := .zero, d := .float }
def ruleRnd : PfxRule := { a := .float, b := .zero, d := .equalA, sat := false }
def ruleSign : PfxRule := { a := .float, b := .zero, d := .equalA, rnd := false, sat := false }
def ruleCps : PfxRule := { a := .float, b := .float, d := .equalA, rnd := false, sat := false }
def ruleCmp : PfxRule := { a := .float, b := .float, d := .zero, rnd := false, sat := false }
def ruleClass : PfxRule := { a := .float, b := .zero, d := .zero, rnd := false, sat := false }
def ruleCvt : PfxRule := { a := .any, b := .zero, d := .any }

/-- What a scalar float instruction computes with: its formats, rounding, saturation, and the operand
values a, b and d. -/
structure FArgs where
  fa : Fmt
  fb : Fmt
  fd : Fmt
  r : Rnd
  sat : Bool
  a : Word
  b : Word
  d : Word

/-- A scalar float instruction (R129 to R131): the result word and the flags it raises. -/
def fop (w : W32) (rule : PfxRule) (da dd : Fmt) (src : Srcs) (d : RegCode) (s : State)
    (f : FArgs → Word × Flags) : Out :=
  withPrefix w 2 rule s (issue w { feat := 2, pfx := true } src (.sync d) s fun s =>
    let t := s.th
    let p := t.pfxFields
    let x : FArgs :=
      { fa := fmtOr da p.fa, fb := fmtOr .fp32 p.fb, fd := fmtOr dd p.fd, r := t.rounding, sat := p.sat,
        a := t.readA (src.a.getD 58), b := t.readB (src.b.getD 58), d := t.value d }
    retire src s fun t => (t.writeSync d (f x).1).raise (f x).2)

/-- The value of operand a, b or d in its format. -/
def FArgs.va (x : FArgs) : FVal := fdecode x.fa (operandBits x.fa x.a)
def FArgs.vb (x : FArgs) : FVal := fdecode x.fb (operandBits x.fb x.b)
def FArgs.vd (x : FArgs) : FVal := fdecode x.fd (operandBits x.fd x.d)

/-- An exact value and its flags delivered in D (R133). -/
def FArgs.deliver (x : FArgs) (v : FVal × Flags) : Word × Flags :=
  let (bits, fl) := fdeliver x.fd x.r x.sat v.1
  (fextend x.fd bits, v.2 ||| fl)

/-- A converted or selected encoding in D. -/
def FArgs.asD (x : FArgs) (v : Nat × Flags) : Word × Flags := (fextend x.fd v.1, v.2)

/-- Bits [w−1:0] of a in format A with a new sign bit (R134). -/
def FArgs.signBit (x : FArgs) (neg : Bool) : Word × Flags :=
  let w := x.fa.width
  (BitVec.ofNat 64 (withSign x.fa neg (x.a.toNat % 2 ^ (w - 1))), 0)

/-- FADD: R133. -/
def execFadd (d a b : RegCode) (hA hB : Bool) (s : State) : Out :=
  fop (encode (.fadd d a b hA hB)) ruleArith .fp32 .fp32 { a := some a, b := some b, hA, hB } d s
    fun x => x.deliver (fadd x.r x.va x.vb)

/-- FSUB: R133. -/
def execFsub (d a b : RegCode) (hA hB : Bool) (s : State) : Out :=
  fop (encode (.fsub d a b hA hB)) ruleArith .fp32 .fp32 { a := some a, b := some b, hA, hB } d s
    fun x => x.deliver (fadd x.r x.va x.vb.neg)

/-- FMUL: R133. -/
def execFmul (d a b : RegCode) (hA hB : Bool) (s : State) : Out :=
  fop (encode (.fmul d a b hA hB)) ruleArith .fp32 .fp32 { a := some a, b := some b, hA, hB } d s
    fun x => x.deliver (fmul x.va x.vb)

/-- FDIV: R133. -/
def execFdiv (d a b : RegCode) (hA hB : Bool) (s : State) : Out :=
  fop (encode (.fdiv d a b hA hB)) ruleArith .fp32 .fp32 { a := some a, b := some b, hA, hB } d s
    fun x => x.deliver (fdiv x.va x.vb)

/-- FSQRT: R133. -/
def execFsqrt (d a : RegCode) (hA : Bool) (s : State) : Out :=
  fop (encode (.fsqrt d a hA)) ruleSqrt .fp32 .fp32 { a := some a, hA } d s
    fun x => x.deliver (fsqrt x.va)

/-- FMIN: R134. -/
def execFmin (d a b : RegCode) (hA hB : Bool) (s : State) : Out :=
  fop (encode (.fmin d a b hA hB)) ruleArith .fp32 .fp32 { a := some a, b := some b, hA, hB } d s
    fun x => x.asD (fminmax false x.fa x.fb x.fd x.r x.sat (operandBits x.fa x.a) (operandBits x.fb x.b))

/-- FMAX: R134. -/
def execFmax (d a b : RegCode) (hA hB : Bool) (s : State) : Out :=
  fop (encode (.fmax d a b hA hB)) ruleArith .fp32 .fp32 { a := some a, b := some b, hA, hB } d s
    fun x => x.asD (fminmax true x.fa x.fb x.fd x.r x.sat (operandBits x.fa x.a) (operandBits x.fb x.b))

/-- FABS: R134. -/
def execFabs (d a : RegCode) (hA : Bool) (s : State) : Out :=
  fop (encode (.fabs d a hA)) ruleSign .fp32 .fp32 { a := some a, hA } d s
    fun x => x.signBit false

/-- FNEG: R134. -/
def execFneg (d a : RegCode) (hA : Bool) (s : State) : Out :=
  fop (encode (.fneg d a hA)) ruleSign .fp32 .fp32 { a := some a, hA } d s
    fun x => x.signBit (!nbit x.a.toNat (x.fa.width - 1))

/-- FCPS: R134. -/
def execFcps (d a b : RegCode) (hA hB : Bool) (s : State) : Out :=
  fop (encode (.fcps d a b hA hB)) ruleCps .fp32 .fp32 { a := some a, b := some b, hA, hB } d s
    fun x => x.signBit (nbit x.b.toNat (x.fb.width - 1))

/-- FRND: R134. -/
def execFrnd (d a : RegCode) (hA : Bool) (s : State) : Out :=
  fop (encode (.frnd d a hA)) ruleRnd .fp32 .fp32 { a := some a, hA } d s
    fun x => (fextend x.fa (fintegralOp x.fa x.r (operandBits x.fa x.a)).1, (fintegralOp x.fa x.r (operandBits x.fa x.a)).2)

/-- FMAC: R135, d is the addend. -/
def execFmac (d a b : RegCode) (hA hB : Bool) (s : State) : Out :=
  fop (encode (.fmac d a b hA hB)) ruleArith .fp32 .fp32 { a := some a, b := some b, hA, hB, more := [d] } d s
    fun x => x.deliver (ffma x.r x.vd x.va x.vb)

/-- FMSC: R135. -/
def execFmsc (d a b : RegCode) (hA hB : Bool) (s : State) : Out :=
  fop (encode (.fmsc d a b hA hB)) ruleArith .fp32 .fp32 { a := some a, b := some b, hA, hB, more := [d] } d s
    fun x => x.deliver (ffma x.r x.vd x.va.neg x.vb)

/-- FNMAC: R135. -/
def execFnmac (d a b : RegCode) (hA hB : Bool) (s : State) : Out :=
  fop (encode (.fnmac d a b hA hB)) ruleArith .fp32 .fp32 { a := some a, b := some b, hA, hB, more := [d] } d s
    fun x => x.deliver (ffma x.r x.vd.neg x.va.neg x.vb)

/-- FEQ: R137. -/
def execFeq (d a b : RegCode) (hA hB : Bool) (s : State) : Out :=
  fop (encode (.feq d a b hA hB)) ruleCmp .fp32 .fp32 { a := some a, b := some b, hA, hB } d s
    fun x => (boolWord (fcompare .eq x.va x.vb).1, (fcompare .eq x.va x.vb).2)

/-- FLT: R137. -/
def execFlt (d a b : RegCode) (hA hB : Bool) (s : State) : Out :=
  fop (encode (.flt d a b hA hB)) ruleCmp .fp32 .fp32 { a := some a, b := some b, hA, hB } d s
    fun x => (boolWord (fcompare .lt x.va x.vb).1, (fcompare .lt x.va x.vb).2)

/-- FLE: R137. -/
def execFle (d a b : RegCode) (hA hB : Bool) (s : State) : Out :=
  fop (encode (.fle d a b hA hB)) ruleCmp .fp32 .fp32 { a := some a, b := some b, hA, hB } d s
    fun x => (boolWord (fcompare .le x.va x.vb).1, (fcompare .le x.va x.vb).2)

/-- FCLASS: R138. -/
def execFclass (d a : RegCode) (hA : Bool) (s : State) : Out :=
  fop (encode (.fclass d a hA)) ruleClass .fp32 .fp32 { a := some a, hA } d s
    fun x => (BitVec.ofNat 64 (fclassOp x.fa (operandBits x.fa x.a)), 0)

/-- FCVT: R139. -/
def execFcvt (d a : RegCode) (hA : Bool) (s : State) : Out :=
  fop (encode (.fcvt d a hA)) ruleCvt .fp32 .fp32 { a := some a, hA } d s
    fun x => x.asD (fconvert x.fa x.fd x.r x.sat (operandBits x.fa x.a))

/-- FCVTI: R139. -/
def execFcvti (d a : RegCode) (hA : Bool) (s : State) : Out :=
  fop (encode (.fcvti d a hA)) ruleCvt .fp32 .i32 { a := some a, hA } d s
    fun x => x.asD (fconvert x.fa x.fd x.r x.sat (operandBits x.fa x.a))

/-- FCVTF: R139. -/
def execFcvtf (d a : RegCode) (hA : Bool) (s : State) : Out :=
  fop (encode (.fcvtf d a hA)) ruleCvt .i32 .fp32 { a := some a, hA } d s
    fun x => x.asD (fconvert x.fa x.fd x.r x.sat (operandBits x.fa x.a))

/-- PFX: R140, R141; a reserved format or rounding code takes ILLEGAL_PREFIX (R71, R143). -/
def execPfx (fa fb fd : BitVec 4) (rnd : BitVec 3) (sat : Bool) (s : State) : Out :=
  let w := encode (.pfx fa fb fd rnd sat)
  issue w { feat := 2 } {} .none s fun s =>
    if 12 < fa.toNat || 12 < fb.toNat || 12 < fd.toNat || 4 < rnd.toNat then
      trap .illegalPrefix (evalWord w) 0 s
    else
      let s := s.leave {}
      let t := (s.th.consume {}).complete
      .next (s.withTh { t with pfx := w, stat := { t.stat with pp := true } })

end Sys2Proof.Machine
end

