-- ==== Sys2Proof/Machine/Dispatch.lean ====
section
/-!
DEFINITION. The dispatch of every row of the opcode table to its meaning.
-/

namespace Sys2Proof.Machine

/-- The meaning of an instruction or event (R64 to R389). -/
def exec (i : Instr) (s : State) : Host.Outcome State Fault Refusal :=
  match i with
  | .add d a b hA hB => Sys2Proof.Machine.execAdd d a b hA hB s
  | .sub d a b hA hB => Sys2Proof.Machine.execSub d a b hA hB s
  | .mul d a b hA hB => Sys2Proof.Machine.execMul d a b hA hB s
  | .mulh d a b hA hB => Sys2Proof.Machine.execMulh d a b hA hB s
  | .mulhu d a b hA hB => Sys2Proof.Machine.execMulhu d a b hA hB s
  | .div d a b hA hB => Sys2Proof.Machine.execDiv d a b hA hB s
  | .divu d a b hA hB => Sys2Proof.Machine.execDivu d a b hA hB s
  | .rem d a b hA hB => Sys2Proof.Machine.execRem d a b hA hB s
  | .remu d a b hA hB => Sys2Proof.Machine.execRemu d a b hA hB s
  | .and d a b hA hB => Sys2Proof.Machine.execAnd d a b hA hB s
  | .or d a b hA hB => Sys2Proof.Machine.execOr d a b hA hB s
  | .xor d a b hA hB => Sys2Proof.Machine.execXor d a b hA hB s
  | .andn d a b hA hB => Sys2Proof.Machine.execAndn d a b hA hB s
  | .sll d a b hA hB => Sys2Proof.Machine.execSll d a b hA hB s
  | .srl d a b hA hB => Sys2Proof.Machine.execSrl d a b hA hB s
  | .sra d a b hA hB => Sys2Proof.Machine.execSra d a b hA hB s
  | .rol d a b hA hB => Sys2Proof.Machine.execRol d a b hA hB s
  | .ror d a b hA hB => Sys2Proof.Machine.execRor d a b hA hB s
  | .min d a b hA hB => Sys2Proof.Machine.execMin d a b hA hB s
  | .max d a b hA hB => Sys2Proof.Machine.execMax d a b hA hB s
  | .minu d a b hA hB => Sys2Proof.Machine.execMinu d a b hA hB s
  | .maxu d a b hA hB => Sys2Proof.Machine.execMaxu d a b hA hB s
  | .slt d a b hA hB => Sys2Proof.Machine.execSlt d a b hA hB s
  | .sltu d a b hA hB => Sys2Proof.Machine.execSltu d a b hA hB s
  | .seq d a b hA hB => Sys2Proof.Machine.execSeq d a b hA hB s
  | .addw d a b hA hB => Sys2Proof.Machine.execAddw d a b hA hB s
  | .subw d a b hA hB => Sys2Proof.Machine.execSubw d a b hA hB s
  | .mulw d a b hA hB => Sys2Proof.Machine.execMulw d a b hA hB s
  | .divw d a b hA hB => Sys2Proof.Machine.execDivw d a b hA hB s
  | .divuw d a b hA hB => Sys2Proof.Machine.execDivuw d a b hA hB s
  | .remw d a b hA hB => Sys2Proof.Machine.execRemw d a b hA hB s
  | .remuw d a b hA hB => Sys2Proof.Machine.execRemuw d a b hA hB s
  | .sllw d a b hA hB => Sys2Proof.Machine.execSllw d a b hA hB s
  | .srlw d a b hA hB => Sys2Proof.Machine.execSrlw d a b hA hB s
  | .sraw d a b hA hB => Sys2Proof.Machine.execSraw d a b hA hB s
  | .rolw d a b hA hB => Sys2Proof.Machine.execRolw d a b hA hB s
  | .rorw d a b hA hB => Sys2Proof.Machine.execRorw d a b hA hB s
  | .addi d a imm => Sys2Proof.Machine.execAddi d a imm s
  | .addiw d a imm => Sys2Proof.Machine.execAddiw d a imm s
  | .andi d a imm => Sys2Proof.Machine.execAndi d a imm s
  | .ori d a imm => Sys2Proof.Machine.execOri d a imm s
  | .xori d a imm => Sys2Proof.Machine.execXori d a imm s
  | .slli d a sh => Sys2Proof.Machine.execSlli d a sh s
  | .slliw d a sh => Sys2Proof.Machine.execSlliw d a sh s
  | .srli d a sh => Sys2Proof.Machine.execSrli d a sh s
  | .srliw d a sh => Sys2Proof.Machine.execSrliw d a sh s
  | .srai d a sh => Sys2Proof.Machine.execSrai d a sh s
  | .sraiw d a sh => Sys2Proof.Machine.execSraiw d a sh s
  | .rori d a sh => Sys2Proof.Machine.execRori d a sh s
  | .roriw d a sh => Sys2Proof.Machine.execRoriw d a sh s
  | .slti d a imm => Sys2Proof.Machine.execSlti d a imm s
  | .sltiu d a imm => Sys2Proof.Machine.execSltiu d a imm s
  | .seqi d a imm => Sys2Proof.Machine.execSeqi d a imm s
  | .lih d imm => Sys2Proof.Machine.execLih d imm s
  | .addpc d imm => Sys2Proof.Machine.execAddpc d imm s
  | .brEq a b off => Sys2Proof.Machine.execBrEq a b off s
  | .brNe a b off => Sys2Proof.Machine.execBrNe a b off s
  | .brLt a b off => Sys2Proof.Machine.execBrLt a b off s
  | .brGe a b off => Sys2Proof.Machine.execBrGe a b off s
  | .brLtu a b off => Sys2Proof.Machine.execBrLtu a b off s
  | .brGeu a b off => Sys2Proof.Machine.execBrGeu a b off s
  | .bzEqz a off => Sys2Proof.Machine.execBzEqz a off s
  | .bzNez a off => Sys2Proof.Machine.execBzNez a off s
  | .bzLtz a off => Sys2Proof.Machine.execBzLtz a off s
  | .bzGez a off => Sys2Proof.Machine.execBzGez a off s
  | .jal d off => Sys2Proof.Machine.execJal d off s
  | .jalr d a imm => Sys2Proof.Machine.execJalr d a imm s
  | .loop a n => Sys2Proof.Machine.execLoop a n s
  | .sel d a b hA hB => Sys2Proof.Machine.execSel d a b hA hB s
  | .clz d a hA => Sys2Proof.Machine.execClz d a hA s
  | .ctz d a hA => Sys2Proof.Machine.execCtz d a hA s
  | .popc d a hA => Sys2Proof.Machine.execPopc d a hA s
  | .brev d a hA => Sys2Proof.Machine.execBrev d a hA s
  | .bswap d a hA => Sys2Proof.Machine.execBswap d a hA s
  | .bfx d a b hA hB => Sys2Proof.Machine.execBfx d a b hA hB s
  | .bfxu d a b hA hB => Sys2Proof.Machine.execBfxu d a b hA hB s
  | .bfi d a b hA hB => Sys2Proof.Machine.execBfi d a b hA hB s
  | .ld d a size uns off => Sys2Proof.Machine.execLd d a size uns off s
  | .st d a size off => Sys2Proof.Machine.execSt d a size off s
  | .ldx d a b hA hB size uns => Sys2Proof.Machine.execLdx d a b hA hB size uns s
  | .stx d a b hA hB size => Sys2Proof.Machine.execStx d a b hA hB size s
  | .ldxAcq d a b hA hB dbl sc => Sys2Proof.Machine.execLdxAcq d a b hA hB dbl sc s
  | .stxRel d a b hA hB dbl sc => Sys2Proof.Machine.execStxRel d a b hA hB dbl sc s
  | .ldbitU d a b hA hB n => Sys2Proof.Machine.execLdbitU d a b hA hB n s
  | .ldbitS d a b hA hB n => Sys2Proof.Machine.execLdbitS d a b hA hB n s
  | .stbit d a b hA hB n => Sys2Proof.Machine.execStbit d a b hA hB n s
  | .amoAdd d a sc ord dbl hA => Sys2Proof.Machine.execAmoAdd d a sc ord dbl hA s
  | .amoAnd d a sc ord dbl hA => Sys2Proof.Machine.execAmoAnd d a sc ord dbl hA s
  | .amoOr d a sc ord dbl hA => Sys2Proof.Machine.execAmoOr d a sc ord dbl hA s
  | .amoXor d a sc ord dbl hA => Sys2Proof.Machine.execAmoXor d a sc ord dbl hA s
  | .amoMin d a sc ord dbl hA => Sys2Proof.Machine.execAmoMin d a sc ord dbl hA s
  | .amoMax d a sc ord dbl hA => Sys2Proof.Machine.execAmoMax d a sc ord dbl hA s
  | .amoMinu d a sc ord dbl hA => Sys2Proof.Machine.execAmoMinu d a sc ord dbl hA s
  | .amoMaxu d a sc ord dbl hA => Sys2Proof.Machine.execAmoMaxu d a sc ord dbl hA s
  | .amoXchg d a sc ord dbl hA => Sys2Proof.Machine.execAmoXchg d a sc ord dbl hA s
  | .amoFadd32 d a sc ord hA => Sys2Proof.Machine.execAmoFadd32 d a sc ord hA s
  | .cas d a b hA hB sc ord dbl => Sys2Proof.Machine.execCas d a b hA hB sc ord dbl s
  | .fenceAcq sc => Sys2Proof.Machine.execFenceAcq sc s
  | .fenceRel sc => Sys2Proof.Machine.execFenceRel sc s
  | .fenceFull sc => Sys2Proof.Machine.execFenceFull sc s
  | .pref a off => Sys2Proof.Machine.execPref a off s
  | .prefL2 a off => Sys2Proof.Machine.execPrefL2 a off s
  | .clwb a sc off => Sys2Proof.Machine.execClwb a sc off s
  | .clinv a sc off => Sys2Proof.Machine.execClinv a sc off s
  | .fadd d a b hA hB => Sys2Proof.Machine.execFadd d a b hA hB s
  | .fsub d a b hA hB => Sys2Proof.Machine.execFsub d a b hA hB s
  | .fmul d a b hA hB => Sys2Proof.Machine.execFmul d a b hA hB s
  | .fdiv d a b hA hB => Sys2Proof.Machine.execFdiv d a b hA hB s
  | .fsqrt d a hA => Sys2Proof.Machine.execFsqrt d a hA s
  | .fmin d a b hA hB => Sys2Proof.Machine.execFmin d a b hA hB s
  | .fmax d a b hA hB => Sys2Proof.Machine.execFmax d a b hA hB s
  | .fabs d a hA => Sys2Proof.Machine.execFabs d a hA s
  | .fneg d a hA => Sys2Proof.Machine.execFneg d a hA s
  | .fcps d a b hA hB => Sys2Proof.Machine.execFcps d a b hA hB s
  | .frnd d a hA => Sys2Proof.Machine.execFrnd d a hA s
  | .fmac d a b hA hB => Sys2Proof.Machine.execFmac d a b hA hB s
  | .fmsc d a b hA hB => Sys2Proof.Machine.execFmsc d a b hA hB s
  | .fnmac d a b hA hB => Sys2Proof.Machine.execFnmac d a b hA hB s
  | .feq d a b hA hB => Sys2Proof.Machine.execFeq d a b hA hB s
  | .flt d a b hA hB => Sys2Proof.Machine.execFlt d a b hA hB s
  | .fle d a b hA hB => Sys2Proof.Machine.execFle d a b hA hB s
  | .fclass d a hA => Sys2Proof.Machine.execFclass d a hA s
  | .fcvt d a hA => Sys2Proof.Machine.execFcvt d a hA s
  | .fcvti d a hA => Sys2Proof.Machine.execFcvti d a hA s
  | .fcvtf d a hA => Sys2Proof.Machine.execFcvtf d a hA s
  | .pfx fa fb fd rnd sat => Sys2Proof.Machine.execPfx fa fb fd rnd sat s
  | .vadd vd va vb q ty => Sys2Proof.Machine.execVadd vd va vb q ty s
  | .vsub vd va vb q ty => Sys2Proof.Machine.execVsub vd va vb q ty s
  | .vmul vd va vb q ty => Sys2Proof.Machine.execVmul vd va vb q ty s
  | .vmin vd va vb q ty => Sys2Proof.Machine.execVmin vd va vb q ty s
  | .vmax vd va vb q ty => Sys2Proof.Machine.execVmax vd va vb q ty s
  | .vand vd va vb q => Sys2Proof.Machine.execVand vd va vb q s
  | .vor vd va vb q => Sys2Proof.Machine.execVor vd va vb q s
  | .vxor vd va vb q => Sys2Proof.Machine.execVxor vd va vb q s
  | .vshl vd va vb q ty => Sys2Proof.Machine.execVshl vd va vb q ty s
  | .vshr vd va vb q ty => Sys2Proof.Machine.execVshr vd va vb q ty s
  | .vsra vd va vb q ty => Sys2Proof.Machine.execVsra vd va vb q ty s
  | .vsel vd va vb q => Sys2Proof.Machine.execVsel vd va vb q s
  | .vcmp qd va vb q ty cond => Sys2Proof.Machine.execVcmp qd va vb q ty cond s
  | .vcvt vd va part q ty => Sys2Proof.Machine.execVcvt vd va part q ty s
  | .vaddVs vd va q ty g => Sys2Proof.Machine.execVaddVs vd va q ty g s
  | .vsubVs vd va q ty g => Sys2Proof.Machine.execVsubVs vd va q ty g s
  | .vmulVs vd va q ty g => Sys2Proof.Machine.execVmulVs vd va q ty g s
  | .vminVs vd va q ty g => Sys2Proof.Machine.execVminVs vd va q ty g s
  | .vmaxVs vd va q ty g => Sys2Proof.Machine.execVmaxVs vd va q ty g s
  | .vandVs vd va q g => Sys2Proof.Machine.execVandVs vd va q g s
  | .vorVs vd va q g => Sys2Proof.Machine.execVorVs vd va q g s
  | .vxorVs vd va q g => Sys2Proof.Machine.execVxorVs vd va q g s
  | .vshlVs vd va q ty g => Sys2Proof.Machine.execVshlVs vd va q ty g s
  | .vshrVs vd va q ty g => Sys2Proof.Machine.execVshrVs vd va q ty g s
  | .vsraVs vd va q ty g => Sys2Proof.Machine.execVsraVs vd va q ty g s
  | .vselVs vd va q g => Sys2Proof.Machine.execVselVs vd va q g s
  | .vcmpVs qd va q ty g cond => Sys2Proof.Machine.execVcmpVs qd va q ty g cond s
  | .vmac vd va vb q ty => Sys2Proof.Machine.execVmac vd va vb q ty s
  | .vmacVs vd va q ty g => Sys2Proof.Machine.execVmacVs vd va q ty g s
  | .vdot4 vd va vb q ty => Sys2Proof.Machine.execVdot4 vd va vb q ty s
  | .vdot4Vs vd va q ty g => Sys2Proof.Machine.execVdot4Vs vd va q ty g s
  | .vld vd q g => Sys2Proof.Machine.execVld vd q g s
  | .vst vd q g => Sys2Proof.Machine.execVst vd q g s
  | .vlds vd q g => Sys2Proof.Machine.execVlds vd q g s
  | .vsts vd q g => Sys2Proof.Machine.execVsts vd q g s
  | .vgather vd va q ty g => Sys2Proof.Machine.execVgather vd va q ty g s
  | .vgatherP vd va c q ty g => Sys2Proof.Machine.execVgatherP vd va c q ty g s
  | .vscatter vd va q ty g => Sys2Proof.Machine.execVscatter vd va q ty g s
  | .vldbitU vd q g n => Sys2Proof.Machine.execVldbitU vd q g n s
  | .vldbitS vd q g n => Sys2Proof.Machine.execVldbitS vd q g n s
  | .vstbit vd q g n => Sys2Proof.Machine.execVstbit vd q g n s
  | .vbcast vd q ty g => Sys2Proof.Machine.execVbcast vd q ty g s
  | .vext va lane ty g => Sys2Proof.Machine.execVext va lane ty g s
  | .vperm vd va vb q => Sys2Proof.Machine.execVperm vd va vb q s
  | .vshuf vd va vb q g => Sys2Proof.Machine.execVshuf vd va vb q g s
  | .vrot vd va q g => Sys2Proof.Machine.execVrot vd va q g s
  | .vred va q ty g op => Sys2Proof.Machine.execVred va q ty g op s
  | .vscan vd va q ty op => Sys2Proof.Machine.execVscan vd va q ty op s
  | .mand qd qa qb => Sys2Proof.Machine.execMand qd qa qb s
  | .mor qd qa qb => Sys2Proof.Machine.execMor qd qa qb s
  | .mxor qd qa qb => Sys2Proof.Machine.execMxor qd qa qb s
  | .mnot qd qa => Sys2Proof.Machine.execMnot qd qa s
  | .mpopc qa g => Sys2Proof.Machine.execMpopc qa g s
  | .mfirst qa g => Sys2Proof.Machine.execMfirst qa g s
  | .mmov qd g => Sys2Proof.Machine.execMmov qd g s
  | .mrd qa g => Sys2Proof.Machine.execMrd qa g s
  | .bar => Sys2Proof.Machine.execBar s
  | .trig => Sys2Proof.Machine.execTrig s
  | .exit => Sys2Proof.Machine.execExit s
  | .yield => Sys2Proof.Machine.execYield s
  | .sleep a hA => Sys2Proof.Machine.execSleep a hA s
  | .migpt => Sys2Proof.Machine.execMigpt s
  | .hint phase => Sys2Proof.Machine.execHint phase s
  | .arm d => Sys2Proof.Machine.execArm d s
  | .armAcq d sc => Sys2Proof.Machine.execArmAcq d sc s
  | .sendr a b hA hB => Sys2Proof.Machine.execSendr a b hA hB s
  | .sendrRel a b hA hB sc => Sys2Proof.Machine.execSendrRel a b hA hB sc s
  | .sendrW a b hA hB => Sys2Proof.Machine.execSendrW a b hA hB s
  | .sendrWRel a b hA hB sc => Sys2Proof.Machine.execSendrWRel a b hA hB sc s
  | .capr d b rights => Sys2Proof.Machine.execCapr d b rights s
  | .capchk d a hA => Sys2Proof.Machine.execCapchk d a hA s
  | .capi d => Sys2Proof.Machine.execCapi d s
  | .srv d a b nr na sel => Sys2Proof.Machine.execSrv d a b nr na sel s
  | .chsend d a b hA hB => Sys2Proof.Machine.execChsend d a b hA hB s
  | .chsendRel d a b hA hB sc => Sys2Proof.Machine.execChsendRel d a b hA hB sc s
  | .chsendBlk d a b hA hB => Sys2Proof.Machine.execChsendBlk d a b hA hB s
  | .chsendBlkRel d a b hA hB sc => Sys2Proof.Machine.execChsendBlkRel d a b hA hB sc s
  | .chrecv d => Sys2Proof.Machine.execChrecv d s
  | .chrecvAcq d sc => Sys2Proof.Machine.execChrecvAcq d sc s
  | .chpoll d => Sys2Proof.Machine.execChpoll d s
  | .chpollAcq d sc => Sys2Proof.Machine.execChpollAcq d sc s
  | .copyGo ctx a b sc => Sys2Proof.Machine.execCopyGo ctx a b sc s
  | .copyGather ctx a b sc => Sys2Proof.Machine.execCopyGather ctx a b sc s
  | .copyRed ctx a b sc => Sys2Proof.Machine.execCopyRed ctx a b sc s
  | .copyMcast ctx a b sc => Sys2Proof.Machine.execCopyMcast ctx a b sc s
  | .planeLdw ctx sc => Sys2Proof.Machine.execPlaneLdw ctx sc s
  | .planeRun ctx sc => Sys2Proof.Machine.execPlaneRun ctx sc s
  | .planeFid ctx sc => Sys2Proof.Machine.execPlaneFid ctx sc s
  | .planeCnt ctx sc => Sys2Proof.Machine.execPlaneCnt ctx sc s
  | .gatherRows ctx sc => Sys2Proof.Machine.execGatherRows ctx sc s
  | .fabLoad ctx sc => Sys2Proof.Machine.execFabLoad ctx sc s
  | .fabEvict ctx sc => Sys2Proof.Machine.execFabEvict ctx sc s
  | .fabSeed ctx sc => Sys2Proof.Machine.execFabSeed ctx sc s
  | .fabSnap ctx sc => Sys2Proof.Machine.execFabSnap ctx sc s
  | .cxw eng ctx src ereg => Sys2Proof.Machine.execCxw eng ctx src ereg s
  | .cxr eng ctx d ereg => Sys2Proof.Machine.execCxr eng ctx d ereg s
  | .hset d a b hA hB => Sys2Proof.Machine.execHset d a b hA hB s
  | .hfree a hA => Sys2Proof.Machine.execHfree a hA s
  | .hkill a hA => Sys2Proof.Machine.execHkill a hA s
  | .hwait a mask hA => Sys2Proof.Machine.execHwait a mask hA s
  | .hstat d a hA => Sys2Proof.Machine.execHstat d a hA s
  | .tlwait a sc hA eng ctx => Sys2Proof.Machine.execTlwait a sc hA eng ctx s
  | .tlread d eng ctx => Sys2Proof.Machine.execTlread d eng ctx s
  | .tladv d eng ctx => Sys2Proof.Machine.execTladv d eng ctx s
  | .trap code => Sys2Proof.Machine.execTrap code s
  | .eret => Sys2Proof.Machine.execEret s
  | .wfi => Sys2Proof.Machine.execWfi s
  | .ctlr d addr => Sys2Proof.Machine.execCtlr d addr s
  | .ctlw src addr => Sys2Proof.Machine.execCtlw src addr s
  | .ctlset src addr => Sys2Proof.Machine.execCtlset src addr s
  | .ctlclr src addr => Sys2Proof.Machine.execCtlclr src addr s
  | .tlbinv d a b hA hB => Sys2Proof.Machine.execTlbinv d a b hA hB s
  | .tlbprobe d a b hA hB => Sys2Proof.Machine.execTlbprobe d a b hA hB s
  | .cwb sc => Sys2Proof.Machine.execCwb sc s
  | .cinv sc => Sys2Proof.Machine.execCinv sc s
  | .vectorCompletion => Sys2Proof.Machine.execVectorCompletion s
  | .sleepExpiry => Sys2Proof.Machine.execSleepExpiry s
  | .tlstatWrite => Sys2Proof.Machine.execTlstatWrite s
  | .cxrValueReturn => Sys2Proof.Machine.execCxrValueReturn s
  | .tlreadValueReturn => Sys2Proof.Machine.execTlreadValueReturn s
  | .statWrite => Sys2Proof.Machine.execStatWrite s
  | .lmsplitWrite => Sys2Proof.Machine.execLmsplitWrite s
  | .inboxWrite => Sys2Proof.Machine.execInboxWrite s
  | .gpoolWrite => Sys2Proof.Machine.execGpoolWrite s
  | .srvtabWrite => Sys2Proof.Machine.execSrvtabWrite s
  | .tlbinvComplete => Sys2Proof.Machine.execTlbinvComplete s
  | .tlbprobeResult => Sys2Proof.Machine.execTlbprobeResult s
  | .instructionFetchFill => Sys2Proof.Machine.execInstructionFetchFill s
  | .loadDataReturn => Sys2Proof.Machine.execLoadDataReturn s
  | .releaseComplete => Sys2Proof.Machine.execReleaseComplete s
  | .acquireComplete => Sys2Proof.Machine.execAcquireComplete s
  | .l2MissFill => Sys2Proof.Machine.execL2MissFill s
  | .pageWalkComplete => Sys2Proof.Machine.execPageWalkComplete s
  | .srvResultWriteback => Sys2Proof.Machine.execSrvResultWriteback s
  | .sendDelivery => Sys2Proof.Machine.execSendDelivery s
  | .sendAcknowledgement => Sys2Proof.Machine.execSendAcknowledgement s
  | .channelTransmit => Sys2Proof.Machine.execChannelTransmit s
  | .inboxPlacement => Sys2Proof.Machine.execInboxPlacement s
  | .commandStart => Sys2Proof.Machine.execCommandStart s
  | .commandCompletion => Sys2Proof.Machine.execCommandCompletion s
  | .copyLastByte => Sys2Proof.Machine.execCopyLastByte s
  | .contourClaim => Sys2Proof.Machine.execContourClaim s
  | .railSettle => Sys2Proof.Machine.execRailSettle s
  | .elementFire => Sys2Proof.Machine.execElementFire s
  | .entAccept => Sys2Proof.Machine.execEntAccept s
  | .ldpEmit => Sys2Proof.Machine.execLdpEmit s
  | .stpPerformed => Sys2Proof.Machine.execStpPerformed s
  | .faultTokenDrain => Sys2Proof.Machine.execFaultTokenDrain s
  | .handlerAbsentTimeout => Sys2Proof.Machine.execHandlerAbsentTimeout s
  | .regionRequest => Sys2Proof.Machine.execRegionRequest s
  | .configCacheFetch => Sys2Proof.Machine.execConfigCacheFetch s
  | .configCompleteWave => Sys2Proof.Machine.execConfigCompleteWave s
  | .meteredInjection => Sys2Proof.Machine.execMeteredInjection s
  | .regionStop => Sys2Proof.Machine.execRegionStop s
  | .launchTokenWrite => Sys2Proof.Machine.execLaunchTokenWrite s
  | .headerConsume => Sys2Proof.Machine.execHeaderConsume s
  | .ageingPromotion => Sys2Proof.Machine.execAgeingPromotion s
  | .partyBind => Sys2Proof.Machine.execPartyBind s
  | .dispatchStart => Sys2Proof.Machine.execDispatchStart s
  | .surveyCompletion => Sys2Proof.Machine.execSurveyCompletion s
  | .qstop => Sys2Proof.Machine.execQstop s
  | .qstart => Sys2Proof.Machine.execQstart s
  | .qkill => Sys2Proof.Machine.execQkill s
  | .killRegionTimeout => Sys2Proof.Machine.execKillRegionTimeout s
  | .qreset => Sys2Proof.Machine.execQreset s
  | .lvalWrite => Sys2Proof.Machine.execLvalWrite s
  | .ltrigWrite => Sys2Proof.Machine.execLtrigWrite s
  | .lstatWrite => Sys2Proof.Machine.execLstatWrite s
  | .serviceResolve => Sys2Proof.Machine.execServiceResolve s
  | .resolveAnswer => Sys2Proof.Machine.execResolveAnswer s
  | .serviceMigrate => Sys2Proof.Machine.execServiceMigrate s
  | .serviceTermThread => Sys2Proof.Machine.execServiceTermThread s
  | .serviceTermParty => Sys2Proof.Machine.execServiceTermParty s
  | .partyTermination => Sys2Proof.Machine.execPartyTermination s
  | .preemptionStop => Sys2Proof.Machine.execPreemptionStop s
  | .saveWrite => Sys2Proof.Machine.execSaveWrite s
  | .saveResume => Sys2Proof.Machine.execSaveResume s
  | .restore => Sys2Proof.Machine.execRestore s
  | .migrationRequest => Sys2Proof.Machine.execMigrationRequest s
  | .migrationTransfer => Sys2Proof.Machine.execMigrationTransfer s
  | .thermalMigration => Sys2Proof.Machine.execThermalMigration s
  | .surveyRead => Sys2Proof.Machine.execSurveyRead s
  | .imgAdd => Sys2Proof.Machine.execImgAdd s
  | .imgRemove => Sys2Proof.Machine.execImgRemove s
  | .setDomain => Sys2Proof.Machine.execSetDomain s
  | .mgrpWrite => Sys2Proof.Machine.execMgrpWrite s
  | .mcostWrite => Sys2Proof.Machine.execMcostWrite s
  | .cfloorWrite => Sys2Proof.Machine.execCfloorWrite s
  | .opreqWrite => Sys2Proof.Machine.execOpreqWrite s
  | .tmigWrite => Sys2Proof.Machine.execTmigWrite s
  | .ctbaseWrite => Sys2Proof.Machine.execCtbaseWrite s
  | .fwstage => Sys2Proof.Machine.execFwstage s
  | .fwact => Sys2Proof.Machine.execFwact s
  | .attout => Sys2Proof.Machine.execAttout s
  | .imgkeyWrite => Sys2Proof.Machine.execImgkeyWrite s
  | .registerWrite => Sys2Proof.Machine.execRegisterWrite s
  | .istatusWrite => Sys2Proof.Machine.execIstatusWrite s
  | .hostLinkDown => Sys2Proof.Machine.execHostLinkDown s
  | .hostLinkRetrain => Sys2Proof.Machine.execHostLinkRetrain s
  | .jenlinkFlitReceive => Sys2Proof.Machine.execJenlinkFlitReceive s
  | .jenlinkLinkDown => Sys2Proof.Machine.execJenlinkLinkDown s
  | .jenlinkTraining => Sys2Proof.Machine.execJenlinkTraining s
  | .packageReset => Sys2Proof.Machine.execPackageReset s
  | .surveyorRestart => Sys2Proof.Machine.execSurveyorRestart s
  | .debugUnlock => Sys2Proof.Machine.execDebugUnlock s
  | .watchdogExpiry => Sys2Proof.Machine.execWatchdogExpiry s
  | .thermalTrip => Sys2Proof.Machine.execThermalTrip s
  | .thermalTripEnd => Sys2Proof.Machine.execThermalTripEnd s
  | .currentLimit => Sys2Proof.Machine.execCurrentLimit s
  | .powerClamp => Sys2Proof.Machine.execPowerClamp s
  | .packageShutdown => Sys2Proof.Machine.execPackageShutdown s
  | .tempRefresh => Sys2Proof.Machine.execTempRefresh s
  | .operatingPointChange => Sys2Proof.Machine.execOperatingPointChange s
  | .rollbackAdvance => Sys2Proof.Machine.execRollbackAdvance s
  | .vectorLatchAccept => Sys2Proof.Machine.execVectorLatchAccept s
  | .vectorResponseReturn => Sys2Proof.Machine.execVectorResponseReturn s
  | .prefFillReturn => Sys2Proof.Machine.execPrefFillReturn s
  | .deviceStoreAccepted => Sys2Proof.Machine.execDeviceStoreAccepted s
  | .yieldExpiry => Sys2Proof.Machine.execYieldExpiry s
  | .powerClampRelease => Sys2Proof.Machine.execPowerClampRelease s
  | .currentLimitRelease => Sys2Proof.Machine.execCurrentLimitRelease s
  | .mailboxBadCommand => Sys2Proof.Machine.execMailboxBadCommand s
  | .contourCounterClear => Sys2Proof.Machine.execContourCounterClear s

end Sys2Proof.Machine
end

