-- ==== Sys2Proof/Machine/Due.lean ====
section
/-!
DEFINITION. What may move next when the agenda is empty (log 4): the internal events that would change something,
and the core with the earliest ready slot.
-/

namespace Sys2Proof.Machine

/-- An internal event with what it concerns. -/
abbrev Due := Instr × EvArgs

/-- The messages in the network that may be examined (R176, R179, R182). -/
def dueNet (s : State) : List Due :=
  ((List.range s.flight.length).flatMap fun k =>
    [(.sendDelivery, { k := k }), (.inboxPlacement, { k := k }), (.sendAcknowledgement, { k := k })]) ++
  s.hold.flatMap fun h => (List.range h.2.length).flatMap fun k =>
    [(.sendDelivery, { k := k, n := h.1, yes := true }), (.inboxPlacement, { k := k, n := h.1, yes := true })]

/-- Misses, walks and prefetches that may return (R296, R312, R127). -/
def dueMemory (s : State) : List Due :=
  (s.mshrs.flatMap fun d => d.2.map fun m => (.l2MissFill, { n := d.1, k := m.line })) ++
  (s.walks.flatMap fun d => (List.range d.2.length).map fun k => (.pageWalkComplete, { n := d.1, k := k })) ++
  s.cores.flatMap fun c => (List.range c.2.prefs.length).map fun k => (.prefFillReturn, { n := c.1, k := k })

/-- The event that a late value comes by. -/
def LateKind.event : LateKind → Instr
  | .cxr => .cxrValueReturn
  | .tlread => .tlreadValueReturn
  | .tlbprobe => .tlbprobeResult

/-- The event that ends a thread's wait, when an event does. -/
def dueWait (t : Thread) : List Due :=
  let a : EvArgs := { p := t.place }
  match t.wait with
  | .fetch _ => [(.instructionFetchFill, a)]
  | .releaseAck => [(.releaseComplete, a)]
  | .acquire _ _ => [(.acquireComplete, a)]
  | .consume _ _ => [(.acquireComplete, a)]
  | .tlbinv _ _ => [(.tlbinvComplete, a)]
  | .sleep _ => [(.sleepExpiry, a)]
  | .vector => [(.vectorLatchAccept, { n := tileOf (coreOf t.place) }), (.vectorCompletion, a)]
  | _ => []

/-- What a thread's record has outstanding (R27, R128, R159, R180). -/
def dueThread (t : Thread) : List Due :=
  dueWait t ++
  ((List.range t.loads.length).map fun k => (.loadDataReturn, { p := t.place, k := k })) ++
  (t.late.map fun x => (x.kind.event, { p := t.place, reg := x.dst })) ++
  (match t.vload with
   | some v => (List.range v.reqs.length).map fun k => (.vectorResponseReturn, { p := t.place, k := k })
   | none => []) ++
  (if t.devStore then [(.deviceStoreAccepted, { p := t.place })] else []) ++
  (if t.sendBuf.any (!·.sent) then [(.channelTransmit, { p := t.place })] else []) ++
  if t.yields = [] then [] else [(.yieldExpiry, { p := t.place })]

/-- What a core's engine contexts have to do (R197, R211, R213). -/
def dueEngines (s : State) : List Due :=
  s.cores.flatMap fun c => c.2.ctxs.flatMap fun x => (.commandStart, { n := c.1, k := x.1 }) ::
    x.2.queue.flatMap fun q =>
      (if x.1 < 4 && q.started then [(.copyLastByte, { n := c.1, k := x.1, m := q.num })] else []) ++
      if q.ended.isSome && !q.done then [(.commandCompletion, { n := c.1, k := x.1, m := q.num })] else []

/-- What a resident region has to do (R227, R237, R238, R324, R242, R274, R327, R353). -/
def dueRegion (cl k : Nat) (r : Region) (packets : Bool) : List Due :=
  (if r.stage = .loading then [(.configCompleteWave, { n := cl, k := k })] else []) ++
  (if packets || r.offers != [] then [(.meteredInjection, { n := cl, k := k })] else []) ++
  (r.elems.flatMap fun e =>
    (.elementFire, { n := cl, k := k, e := e.1 }) ::
    if e.2.flight = [] then [] else [(.ldpEmit, { n := cl, k := k, e := e.1 }), (.stpPerformed, { n := cl, k := k, e := e.1 })]) ++
  (if r.edge = [] then [] else [(.faultTokenDrain, { n := cl, k := k })]) ++
  (if r.asked then [(.regionStop, { n := cl, k := k }), (.killRegionTimeout, { n := cl, k := k })] else []) ++
  if r.absentSince.isSome then [(.handlerAbsentTimeout, { n := cl, k := k })] else []

/-- What a cluster's fabric and contour array have to do (R213, R316, R317, R333, R166, R240). -/
def dueCluster (cl : Nat) (c : Cluster) : List Due :=
  (.contourClaim, { n := cl }) ::
  ((List.range c.rails.length).filter fun k => ((c.rails[k]?).map (·.settling)).getD false).map (fun k => (.railSettle, { n := cl, k := k })) ++
  (if c.reqs = [] then [] else [(.configCacheFetch, { n := cl }), (.regionRequest, { n := cl })]) ++
  ((List.range c.packets.length).map fun k => (.entAccept, { n := cl, k := k })) ++
  ((List.range c.backs.length).map fun k => (.srvResultWriteback, { n := cl, k := k })) ++
  c.regions.flatMap fun r => dueRegion cl r.1 r.2 (c.packets != [])

/-- What the Surveyor has to do for launches (R342, R346, R349, R351). -/
def dueLaunch (s : State) : List Due :=
  (s.surveys.map fun x => (.surveyCompletion, { n := x.1 })) ++
  (s.queues.map fun q => (.headerConsume, { n := q.1 })) ++
  (s.surveys.map fun x => (.ageingPromotion, { n := x.1 })) ++
  (s.parties.map fun p => (.dispatchStart, { n := p.1 })) ++
  if s.surveys = [] then [] else [(Instr.partyBind, ({} : EvArgs))]

/-- What the Surveyor has to do for escalations, stops and restores under way (R270 to R272, R276, R283, R286, R287). -/
def dueServices (s : State) : List Due :=
  (s.escal.flatMap fun e =>
    [(.partyTermination, { p := e.place }), (.serviceResolve, { p := e.place }), (.serviceMigrate, { p := e.place }),
     (.serviceTermThread, { p := e.place }), (.serviceTermParty, { p := e.place })]) ++
  (s.stops.flatMap fun x => match x.2.kind with
    | .save => if x.2.overflow || x.2.faulted then []
        else if x.2.stopped then [(.saveWrite, { n := x.1 })] else [(.preemptionStop, { n := x.1 })]
    | .migrate => [(.migrationTransfer, { n := x.1 })]) ++
  s.savedAreas.flatMap fun x => if x.2.restoring.isEmpty then [] else [(.restore, { n := x.1, nums := x.2.restoring })]

/-- The tiles whose operating point may change (R372). -/
def duePoints (s : State) : List Due :=
  ((s.opreq.map fun (o : Nat × OpReq) => o.1 / 4) ++ (s.tiles.map fun (t : Nat × TilePower) => t.1)).eraseDups.map fun t => (.operatingPointChange, { n := t })

/-- Every internal event that may have come to its time. -/
def dueAll (s : State) : List Due :=
  dueNet s ++ dueMemory s ++ s.threads.flatMap dueThread ++ dueEngines s ++
  (s.clusters.flatMap fun c => dueCluster c.1 c.2) ++ dueLaunch s ++ dueServices s ++ duePoints s

/-- Whether an event changes anything now. -/
def changes (s : State) (d : Due) : Bool :=
  match exec d.1 { s with ev := d.2 } with
  | .next t => { t with ev := s.ev } != s
  | _ => true

/-- The event that is due: each turn tries them from one place further on, so that none waits for ever (log 4). -/
def dueEvent (s : State) : Option Due :=
  let all := dueAll s
  let k := s.eventTurn / 2 % all.length
  (all.drop k ++ all.take k).find? (changes s)

/-- The cores that hold a thread record, each once. -/
def State.activeCores (s : State) : List Nat := (s.threads.map fun t => coreOf t.place).eraseDups

/-- The cores that may issue in the earliest cycle, ascending. -/
def freshRound (s : State) : List Nat :=
  let picks := s.activeCores.filterMap fun c => (pickThread s c).map fun p => (c, p.2)
  match (picks.map (·.2)).min? with
  | none => []
  | some now => (picks.filter (·.2 == now)).foldl (fun l p => sadd l p.1) []

/-- The first of some cores that may issue: the place, the cycle, and the cores after it. -/
def firstOf (s : State) : List Nat → Option (Nat × Nat × List Nat)
  | [] => none
  | c :: cs => match pickThread s c with
    | some (place, now) => some (place, now, cs)
    | none => firstOf s cs

/-- The place that issues next on the whole machine, the cycle, and the cores left in its round (R18). A round stands for
one cycle of the package: the cores that could issue when it began, in ascending order, so that their packets keep
R381's order (log 4). -/
def pickAny (s : State) : Option (Nat × Nat × List Nat) := (firstOf s s.round).or (firstOf s (freshRound s))

end Sys2Proof.Machine
end

