-- ==== Sys2Proof/Machine/Step.lean ====
section
/-!
DEFINITION. One step of the machine: the turn that the agenda names, else the event that is due, else the
next instruction of the thread that R18 chooses, else a cycle in which nothing issues (log 4).
-/

namespace Sys2Proof.Machine

/-- An event happens at the next clock value, with what it concerns. A row with a word is no event. -/
def stepEvent (i : Instr) (a : EvArgs) (s : State) : Out :=
  if encode i = 0 then exec i { s with ev := a, clock := s.clock + 1 } else .next { s with clock := s.clock + 1 }

/-- The thread at a place issues in a cycle: it becomes the focus and waits for nothing. -/
def turnOf (s : State) (place now : Nat) : State :=
  let s := s.focus place
  { s with clock := now, th := { s.th with wait := .none, yields := [] } }

/-- The focus thread's next word is fetched, decoded and executed (R74). -/
def issueWord (s : State) : Out :=
  match fetch s with
  | .out o => o
  | .word w s =>
    match decode w with
    | .ok i => exec i s
    | .error e => undecodable w e s

/-- The focus thread issues; one restored after a SENDR.W or CHSEND.BLK synchronises first (R277). -/
def issueNext (s : State) : Out :=
  if s.th.phase = .resumed then resumeSync s issueWord else issueWord s

/-- A cycle in which no slot is ready (R18). -/
def bubble (s : State) : Out := .next { s with clock := s.clock + 1 }

/-- A step without an agenda (log 4): an internal event that is due and the core that R18 names take turns. -/
def stepFree (s : State) : Out :=
  let next := s.eventTurn / 2 * 2 + 2
  match if s.eventTurn % 2 = 0 then dueEvent s else none with
  | some (i, a) => stepEvent i a { s with eventTurn := s.eventTurn + 1 }
  | none =>
    match pickAny s with
    | some (place, now, rest) => issueNext (turnOf { s with eventTurn := next, round := rest } place now)
    | none =>
      match dueEvent s with
      | some (i, a) => stepEvent i a { s with eventTurn := next }
      | none => bubble s

/-- One step. After a shutdown only a package reset happens (R374, R379). -/
def step (s : State) : Host.Outcome State Fault Refusal :=
  if s.shutDown && (match s.agenda with | .event .packageReset _ :: _ => false | _ => true) then .fault .shutDown
  else
    match s.agenda with
    | .event i a :: rest => stepEvent i a { s with agenda := rest }
    | .core c :: rest =>
      let s := { s with agenda := rest }
      match pickThread s c with
      | some (place, now) => issueNext (turnOf s place now)
      | none => bubble s
    | [] => stepFree s

/-- The state with an instruction word where the next step fetches: the focus thread's core issues next. -/
def State.withFetchWord (s : State) (nbits w : Nat) : State :=
  let s := placeWord s (BitVec.ofNat 32 (w % 2 ^ nbits))
  { s with agenda := [.core s.here] }

end Sys2Proof.Machine
end

