-- ==== Sys2Proof/Safety.lean ====
section
/-!
DEFINITION. What counts as a safe run, and the terms claims use: when an instruction may issue, what an
instruction that completes leaves as it was, and the invariant that every step keeps.
-/

namespace Sys2Proof

open Machine

/-- A run of k steps from a state ends in a state. -/
def SafeRun (k : Nat) (s : Machine.State) : Prop := ∃ t, core.run k s = .next t

/-- Every run from a state is safe. -/
def Safe (s : Machine.State) : Prop := ∀ k, SafeRun k s

/-- A register that nothing holds up: READY or ARRIVED, without poison and without an acquire pending on it
(R27, R116, R177). A code that names no g or k register always reads. -/
def Readable (t : Thread) (c : RegCode) : Prop :=
  c.toNat < 56 → (t.reg c.toNat).pb = false ∧
    ((t.reg c.toNat).sb = .ready ∨ (t.reg c.toNat).sb = .arrived ∧ (t.reg c.toNat).aq = none)

/-- A register that may be written: READY or ARRIVED (R27). -/
def Writable (t : Thread) (c : RegCode) : Prop :=
  c.toNat < 56 → (t.reg c.toNat).sb = .ready ∨ (t.reg c.toNat).sb = .arrived

/-- The focus thread may issue an instruction: its core has the features, every source that no latch serves
reads, and every destination may be written. -/
def Clear (s : State) (feat : BitVec 6) (r : Srcs) (ds : List RegCode) : Prop :=
  (s.core s.here).feat &&& feat = feat ∧ (∀ c ∈ r.unlatched s.th, Readable s.th c) ∧ ∀ d ∈ ds, Writable s.th d

/-- The same for an instruction that consumes no prefix: none is pending (R41, R141). -/
def MayIssue (s : State) (feat : BitVec 6) (r : Srcs) (ds : List RegCode) : Prop :=
  Clear s feat r ds ∧ s.th.stat.pp = false

/-- Nothing of the machine but the focus thread, the clock and the record of R18 has changed. -/
def OnlyThread (s t : State) : Prop := t = { s with th := t.th, clock := t.clock, lastSlot := t.lastSlot }

/-- The program counter and the loop registers of an instruction that did not transfer control (R102), of a loop whose
body the core can capture (R104); the instruction leaves no prefix pending, and rounding mode and mode are as they were. -/
def GoesOn (t u : Thread) : Prop :=
  u.stat.pp = false ∧ u.stat.rm = t.stat.rm ∧ u.stat.mode = t.stat.mode ∧
  u.lstart = t.lstart ∧ u.lend = t.lend ∧
  if t.stat.la = true ∧ (t.lstart.toNat ≤ t.lend.toNat ∧ t.lend.toNat - t.lstart.toNat + 4 ≤ 256) ∧ t.pc = t.lend then
    if t.lcnt.toNat ≤ 1 then u.pc = t.pc + 4 ∧ u.lcnt = 0 ∧ u.stat.la = false
    else u.pc = t.lstart ∧ u.lcnt = t.lcnt - 1 ∧ u.stat.la = true
  else u.pc = t.pc + 4 ∧ u.lcnt = t.lcnt ∧ u.stat.la = t.stat.la

/-- What a completing instruction leaves of a thread: all but its registers, latches, program counter, loop
state, STAT, and what the model keeps of the instruction in flight. -/
def KeepsThread (t u : Thread) : Prop :=
  u = { t with
    regs := u.regs, z0 := u.z0, z1 := u.z1, latchA := u.latchA, latchB := u.latchB, pc := u.pc, stat := u.stat
    lcnt := u.lcnt, loopBuf := u.loopBuf, leftAt := u.leftAt, phase := .fresh, held := none, wait := .none
    walkFails := [] }

/-- An instruction that writes a synchronous scalar result and flags, and nothing else (R22, R27, R56): z1 and
z0 move, the destination is READY with the value, the other registers are as after the sources were consumed,
the flags are merged, and the thread goes on. The code nil names no register, so then none is written. -/
def Computes (s t : State) (r : Srcs) (d : RegCode) (v : Word) (fl : BitVec 5) : Prop :=
  OnlyThread s t ∧ KeepsThread s.th t.th ∧ GoesOn s.th t.th ∧
  t.th.z0 = v ∧ t.th.z1 = s.th.z0 ∧
  (d.toNat < 56 → t.th.reg d.toNat = { val := v }) ∧
  (∀ n, n < 56 → n ≠ d.toNat → t.th.reg n = (s.th.consume r).reg n) ∧
  t.th.stat.flags = s.th.stat.flags ||| fl

/-- A completing instruction that writes no scalar result: the registers are as after the sources were
consumed, z0 and z1 and the flags as before, and the thread goes on. -/
def Passes (s t : State) (r : Srcs) : Prop :=
  KeepsThread s.th t.th ∧ GoesOn s.th t.th ∧ t.th.z0 = s.th.z0 ∧ t.th.z1 = s.th.z1 ∧
  (∀ n, n < 56 → t.th.reg n = (s.th.consume r).reg n) ∧ t.th.stat.flags = s.th.stat.flags

/-- A completing instruction with an effect of its own: the rest of the machine is as in u, and the thread is f
of the thread that has consumed its sources and gone on. -/
def Completes (s u t : State) (r : Srcs) (f : Thread → Thread) : Prop :=
  ∃ v, OnlyThread u t ∧ Passes s { s with th := v } r ∧ t.th = f v

/-- Cache lines in the form the model keeps: the offsets of a line's bytes rise, below 64. -/
def Tidy (ls : List Line) : Prop := ∀ l ∈ ls, tsorted l.bytes = true ∧ ∀ b ∈ l.bytes, b.1 < 64

/-- Nothing stands between a store of a core and the homes of its scopes: no request to its die's L2 waits, no line of it goes
to the group pool, and the lines that the store can meet are in their form. -/
def Undisturbed (s : State) (c : Nat) : Prop :=
  s.mshrOf (dieOf c) = [] ∧ s.ingress = [] ∧ (s.core c).gpool = false ∧ Tidy (s.portionOf c) ∧
  (∀ ls, ls = s.l2Lines (dieOf c) ∨ (∃ n, ls = tget [] s.llc n) → Tidy ls ∧ ∀ l ∈ ls, l.owner = 0)

/-- A completing control transfer (R100, R103): the next address is the target, the loop has ended with its
registers kept and its captured body discarded, and no prefix is pending. -/
def Transfers (s t : State) (target : Word) : Prop :=
  OnlyThread s t ∧ KeepsThread s.th t.th ∧ t.th.pc = target ∧
  t.th.stat = { s.th.stat with pp := false, la := false } ∧ t.th.lcnt = s.th.lcnt ∧
  (s.th.stat.la = true → t.th.loopBuf = []) ∧ (s.th.stat.la = false → t.th.loopBuf = s.th.loopBuf)

/-- A transfer that writes no register: the registers are as after the sources were consumed. -/
def Branches (s t : State) (r : Srcs) (target : Word) : Prop :=
  Transfers s t target ∧ t.th.z0 = s.th.z0 ∧ t.th.z1 = s.th.z1 ∧ ∀ n, n < 56 → t.th.reg n = (s.th.consume r).reg n

/-- A transfer that writes a link as a synchronous result (R99, R22). -/
def Links (s t : State) (r : Srcs) (d : RegCode) (link target : Word) : Prop :=
  Transfers s t target ∧ t.th.z0 = link ∧ t.th.z1 = s.th.z0 ∧
  (d.toNat < 56 → t.th.reg d.toNat = { val := link }) ∧
  ∀ n, n < 56 → n ≠ d.toNat → t.th.reg n = (s.th.consume r).reg n

/-- What a scalar float instruction computes with (R129): formats from the pending prefix or the defaults, the
effective rounding mode, the saturate bit, and its operands. -/
def floatArgs (t : Thread) (da dd : Fmt) (src : Srcs) (d : RegCode) : FArgs :=
  { fa := fmtOr da t.pfxFields.fa, fb := fmtOr .fp32 t.pfxFields.fb, fd := fmtOr dd t.pfxFields.fd, r := t.rounding
    sat := t.pfxFields.sat, a := t.readA (src.a.getD 58), b := t.readB (src.b.getD 58), d := t.value d }

/-- A vector instruction may issue (R144, R154): the core's request latch is empty, and a pending prefix is one that
its row accepts, or there is none. -/
def VClear (s : State) (rule : Option PfxRule) (r : Srcs) (ds : List RegCode) : Prop :=
  Clear s 4 r ds ∧ (s.core s.here).vlatch = none ∧
    match rule with
    | some p => p.accepts s.th.pfxFields = true
    | none => s.th.stat.pp = false

/-- Element j of width w of a vector register (R45, R149). -/
def laneElem (w : Nat) (v : VReg) (j : Nat) : Nat := (v.toList.getD (j * w / 32) 0).toNat / 2 ^ (j * w % 32) % 2 ^ w

/-- A vector instruction that has its effect when it issues: the request latch holds the thread, which waits for
the completion (R144, R145). -/
def VDoes (s t : State) (r : Srcs) (f : Thread → Thread) : Prop :=
  Completes s (fillLatch s) t r fun u => { f u with wait := .vector }

/-- A vector memory instruction issues into its core's request latch, its sources consumed, and the thread waits; u is the
state after its lanes have been looked up (R144, R146, R385). -/
def VLatches (s u t : State) (r : Srcs) (op : VOp) : Prop :=
  OnlyThread (fillLatch u) t ∧ op.back = r.more.map (fun c => (c.toNat, s.th.reg c.toNat)) ∧
  t.th = { s.th.consume r with vop := some op, wait := .vector, leftAt := t.th.leftAt }

/-- Core k of the tile that a VECTOR_LATCH_ACCEPT names is the only one whose latch is full, with a memory instruction of
the thread at a place of it (R144). -/
def Accepts (s : State) (k place : Nat) (op : VOp) : Prop :=
  tileStopped s s.ev.n = false ∧ k < 4 ∧ coreOf place = s.ev.n * 4 + k ∧
  (∀ j < 4, (s.core (s.ev.n * 4 + j)).vlatch = if j = k then some place else none) ∧
  (s.threadAt place).place = place ∧ (s.threadAt place).vop = some op

/-- The state in which the accepted instruction goes to work: its thread in focus, the latch empty. -/
def accepted (s : State) (k place : Nat) : State :=
  let c := s.ev.n * 4 + k
  let t := { s.setCore c { s.core c with vlatch := none } with lastServed := tput s.lastServed s.ev.n k }.focus place
  t.withTh { t.th with vop := none }

/-- A vector result: the elements chosen take the value given, modulo their width, with their flags merged, and the
others are as before (R149, R56). -/
def VWrites (s t : State) (r : Srcs) (vd : BitVec 3) (w : Nat) (act : Nat → Bool) (g : Nat → Nat × Flags) : Prop :=
  ∃ v, (∀ j < 1024 / w, laneElem w v j = if act j then (g j).1 % 2 ^ w else laneElem w (s.th.vreg vd) j) ∧
    VDoes s t r fun u => (u.setVreg vd v).raise
      ((List.range (1024 / w)).foldl (fun a j => if act j then a ||| (g j).2 else a) 0)

/-- A resident region of two elements: the one at p sends its results to Q0 of the one at q alone, where a slot is free, and
nothing waits that the firing would move besides. -/
def Feeds (r : Region) (p : Nat) (e : Elem) (q : Nat) (f : Elem) : Prop :=
  r.stage = .resident ∧ p < q ∧ r.elems = [(p, e), (q, f)] ∧ e.resync = none ∧ e.dest 0 = some (q, 0) ∧
  (∀ n, 0 < n → n < 4 → e.dest n = none) ∧ f.dests = [] ∧ f.qdepth 0 ≠ 0 ∧ f.queues.getD 0 [] = [] ∧
  r.caiHeld = [] ∧ r.edge.length < 16

/-- What a firing of such an element leaves in region k of cluster cl: its heads of some queues consumed, its own state
as in e, its tokens in the slots of the other, and fault tokens on the edge (R227, R228, R242). -/
def Fired (u : State) (cl k : Nat) (r : Region) (p : Nat) (e : Elem) (cons : List Nat) (q : Nat) (out faults : List Token) : Prop :=
  ∃ x z, u.region cl k = some x ∧ x.elem q = some z ∧ z.queues.getD 0 [] = out ∧
    x.elem p = some { e with queues := (List.range 4).map fun j =>
      if j ∈ cons then (e.queues.getD j []).drop 1 else e.queues.getD j [] } ∧
    x.edge = r.edge ++ faults.map fun t => { data := BitVec.ofNat 32 (k % 4 * 2 ^ 30 + t.data.toNat % 2 ^ 24), tag := t.tag }

/-- A poisoned token that an element makes, with its cause and its row and column (R225, R242), and its fault token where
FTRAP asks for one. -/
def poisonOf (e : Elem) (cause mark : Nat) (tag : BitVec 16) : Token :=
  { data := BitVec.ofNat 32 (cause * 65536 + e.pos / 64 * 256 + e.pos % 64), mark := mark, psn := true, tag := tag }
def trapOf (e : Elem) (t : Token) : List Token := if e.ftrap then [t] else []

/-- The integer and float operations of R234 on operands A, B and C, by code, with the flags they raise. -/
def fabricTable (e : Elem) (a b c : W32) : List (Nat × (W32 × Flags)) :=
  let clamp := fun (v : Int) => BitVec.ofInt 32 (max (-2147483648) (min 2147483647 v))
  let num := fun (x : W32) => fdecode .fp32 x.toNat
  let done := fun (v : FVal × Flags) => (BitVec.ofNat 32 (fdeliver .fp32 e.rm e.satBit v.1).1, v.2 ||| (fdeliver .fp32 e.rm e.satBit v.1).2)
  let pick := fun isMax => let v := fminmax isMax .fp32 .fp32 .fp32 e.rm e.satBit a.toNat b.toNat; (BitVec.ofNat 32 v.1, v.2)
  let conv := fconvert e.fmtA e.fmtD e.rm e.satBit (a.toNat % 2 ^ e.fmtA.width)
  let cond := if e.sub = 0 then a == b else if e.sub = 1 then a != b else if e.sub = 2 then a.slt b
    else if e.sub = 3 then !a.slt b else if e.sub = 4 then a.ult b else !a.ult b
  [(0x01, (if e.satBit then clamp (a.toInt + b.toInt) else a + b, 0)),
   (0x02, (if e.satBit then clamp (a.toInt - b.toInt) else a - b, 0)),
   (0x03, (a * b, 0)), (0x04, (BitVec.ofInt 32 (a.toInt * b.toInt / 2 ^ 32), 0)),
   (0x05, (a &&& b, 0)), (0x06, (a ||| b, 0)), (0x07, (a ^^^ b, 0)), (0x08, (~~~a, 0)),
   (0x09, (a <<< (b.toNat % 32), 0)), (0x0A, (a >>> (b.toNat % 32), 0)), (0x0B, (a.sshiftRight (b.toNat % 32), 0)),
   (0x0C, (a.rotateLeft (b.toNat % 32), 0)),
   (0x0D, (if b.slt a then b else a, 0)), (0x0E, (if a.slt b then b else a, 0)),
   (0x0F, (if b.ult a then b else a, 0)), (0x10, (if a.ult b then b else a, 0)),
   (0x11, (if cond then 1 else 0, 0)), (0x12, (if c ≠ 0 then a else b, 0)),
   (0x18, done (fadd e.rm (num a) (num b))), (0x19, done (fadd e.rm (num a) (num b).neg)),
   (0x1A, done (fmul (num a) (num b))), (0x1B, done (ffma e.rm (num c) (num a) (num b))),
   (0x1C, pick false), (0x1D, pick true),
   (0x1E, (if e.fmtD.isFloat ∨ e.fmtD = .u8 then BitVec.ofNat 32 (conv.1 % 2 ^ e.fmtD.width)
     else BitVec.ofInt 32 (sint e.fmtD.width conv.1), conv.2))]

/-- Every translation that an engine needs for addresses is at hand, and no request to its die's L2 waits: its lookups
leave v, in which only the answers of failed walks are spent (R296, R312). -/
def AtHand (g : Agent) (s v : State) (k : Access) (vas : List Nat) : Prop :=
  s.mshrOf (dieOf g.core) = [] ∧ g.awaits s (g.tried s k vas) = none ∧ v = g.visit s (g.reached s k vas) ∧
  v = { s with walkFails := v.walkFails }

/-- No source of an engine lies in another package's memory: it asks no link for it (R362). -/
def Asked (g : Agent) (v : State) (vas : List Nat) : Prop := (g.reached v .load vas).foldl g.askCopy v = v

/-- The invariant: memory and scratchpads stand in their one canonical form. -/
def Inv (s : State) : Prop := Memory.wf s.mem = true ∧ Memory.wf s.scratch = true

end Sys2Proof
end

