-- ==== Sys2Proof/Certificates/Slice0/Obligations.lean ====
section
/-!
DEFINITION. The statements for the provers, from the spec's numbered rules.
-/

open Sys2Proof Sys2Proof.Machine

/-- OPW instructions (R89): the low 32 bits of the operands, the operation at width 32, the result sign-extended. OP
instructions (R87, R88): the destination and z0 take the result of the row, for every operand value. -/
def Obligations.IntegerRegisterResults : Prop :=
  (∀ (s : State) (d a b : RegCode) (hA hB : Bool),
    MayIssue s 1 { a := some a, b := some b, hA, hB } [d] →
    ∀ p ∈ ([
      (.addw, fun x y => x + y), (.subw, fun x y => x - y), (.mulw, fun x y => x * y),
      (.divw, fun x y => if y = 0 then BitVec.allOnes 32 else x.sdiv y),
      (.divuw, fun x y => if y = 0 then BitVec.allOnes 32 else x / y),
      (.remw, fun x y => if y = 0 then x else x.srem y), (.remuw, fun x y => if y = 0 then x else x % y),
      (.sllw, fun x y => x <<< (y.toNat % 32)), (.srlw, fun x y => x >>> (y.toNat % 32)),
      (.sraw, fun x y => x.sshiftRight (y.toNat % 32)),
      (.rolw, fun x y => x.rotateLeft (y.toNat % 32)), (.rorw, fun x y => x.rotateRight (y.toNat % 32))] :
      List ((RegCode → RegCode → RegCode → Bool → Bool → Instr) × (W32 → W32 → W32))),
    ∃ t, exec (p.1 d a b hA hB) s = .next t ∧
      Computes s t { a := some a, b := some b, hA, hB } d
        ((p.2 ((s.th.readA a).setWidth 32) ((s.th.readB b).setWidth 32)).signExtend 64) 0) ∧
  ∀ (s : State) (d a b : RegCode) (hA hB : Bool),
    MayIssue s 1 { a := some a, b := some b, hA, hB } [d] →
    ∀ p ∈ ([
      (.add, fun x y => x + y), (.sub, fun x y => x - y), (.mul, fun x y => x * y),
      (.mulh, fun x y => BitVec.ofInt 64 (x.toInt * y.toInt / 2 ^ 64)),
      (.mulhu, fun x y => BitVec.ofNat 64 (x.toNat * y.toNat / 2 ^ 64)),
      (.div, fun x y => if y = 0 then BitVec.allOnes 64 else x.sdiv y),
      (.divu, fun x y => if y = 0 then BitVec.allOnes 64 else x / y),
      (.rem, fun x y => if y = 0 then x else x.srem y),
      (.remu, fun x y => if y = 0 then x else x % y),
      (.and, fun x y => x &&& y), (.or, fun x y => x ||| y), (.xor, fun x y => x ^^^ y), (.andn, fun x y => x &&& ~~~y),
      (.sll, fun x y => x <<< (y.toNat % 64)), (.srl, fun x y => x >>> (y.toNat % 64)),
      (.sra, fun x y => x.sshiftRight (y.toNat % 64)),
      (.rol, fun x y => x.rotateLeft (y.toNat % 64)), (.ror, fun x y => x.rotateRight (y.toNat % 64)),
      (.min, fun x y => if y.slt x then y else x), (.max, fun x y => if x.slt y then y else x),
      (.minu, fun x y => if y.ult x then y else x), (.maxu, fun x y => if x.ult y then y else x),
      (.slt, fun x y => if x.slt y then 1 else 0), (.sltu, fun x y => if x.ult y then 1 else 0),
      (.seq, fun x y => if x = y then 1 else 0)] :
      List ((RegCode → RegCode → RegCode → Bool → Bool → Instr) × (Word → Word → Word))),
    ∃ t, exec (p.1 d a b hA hB) s = .next t ∧
      Computes s t { a := some a, b := some b, hA, hB } d (p.2 (s.th.readA a) (s.th.readB b)) 0

/-- Division (R88): the two fixed cases, truncation towards zero, the remainder's identity; it never traps. -/
def Obligations.DivisionNeverTraps : Prop :=
  ∀ (s : State) (d a b : RegCode) (hA hB : Bool),
    MayIssue s 1 { a := some a, b := some b, hA, hB } [d] →
    let r : Srcs := { a := some a, b := some b, hA, hB }
    let x := s.th.readA a
    let y := s.th.readB b
    (∃ t, exec (.div d a b hA hB) s = .next t ∧ Computes s t r d
      (if y = 0 then 0xFFFFFFFFFFFFFFFF else if x = 0x8000000000000000 ∧ y = BitVec.allOnes 64 then x
       else BitVec.ofInt 64 (x.toInt.tdiv y.toInt)) 0) ∧
    (∃ t, exec (.divu d a b hA hB) s = .next t ∧ Computes s t r d
      (if y = 0 then 0xFFFFFFFFFFFFFFFF else BitVec.ofNat 64 (x.toNat / y.toNat)) 0) ∧
    (∃ t, exec (.rem d a b hA hB) s = .next t ∧ Computes s t r d
      (if y = 0 then x else if x = 0x8000000000000000 ∧ y = BitVec.allOnes 64 then 0
       else BitVec.ofInt 64 (x.toInt - y.toInt * x.toInt.tdiv y.toInt)) 0) ∧
    (∃ t, exec (.remu d a b hA hB) s = .next t ∧ Computes s t r d
      (if y = 0 then x else BitVec.ofNat 64 (x.toNat % y.toNat)) 0)

/-- Immediate forms (R90 to R94): the immediate sign-extended, a shift count as it stands, LIH and ADDPC with
the immediate at bit 14. -/
def Obligations.IntegerImmediateResults : Prop :=
  ∀ (s : State) (d a : RegCode) (i14 : BitVec 14) (i12 : BitVec 12) (n6 : BitVec 6) (n5 : BitVec 5) (i20 : BitVec 20),
    (MayIssue s 1 { a := some a } [d] →
      let x := s.th.readA a
      let y : Word := i12.signExtend 64
      let lo : W32 := x.setWidth 32
      ∀ p ∈ ([
        (.addi d a i14, x + i14.signExtend 64),
        (.addiw d a i14, (lo + (i14.signExtend 64).setWidth 32).signExtend 64),
        (.andi d a i12, x &&& y), (.ori d a i12, x ||| y), (.xori d a i12, x ^^^ y),
        (.slli d a n6, x <<< n6.toNat), (.srli d a n6, x >>> n6.toNat), (.srai d a n6, x.sshiftRight n6.toNat),
        (.rori d a n6, x.rotateRight n6.toNat),
        (.slliw d a n5, (lo <<< n5.toNat).signExtend 64), (.srliw d a n5, (lo >>> n5.toNat).signExtend 64),
        (.sraiw d a n5, (lo.sshiftRight n5.toNat).signExtend 64),
        (.roriw d a n5, (lo.rotateRight n5.toNat).signExtend 64),
        (.slti d a i12, if x.slt y then 1 else 0), (.sltiu d a i12, if x.ult y then 1 else 0),
        (.seqi d a i12, if x = y then 1 else 0)] : List (Instr × Word)),
      ∃ t, exec p.1 s = .next t ∧ Computes s t { a := some a } d p.2 0) ∧
    (MayIssue s 1 {} [d] →
      ∀ p ∈ ([(.lih d i20, i20.signExtend 64 <<< 14), (.addpc d i20, s.th.pc + i20.signExtend 64 <<< 14)] :
        List (Instr × Word)),
      ∃ t, exec p.1 s = .next t ∧ Computes s t {} d p.2 0)

/-- MISC instructions (R95): selection by z0, counts by what they count, bit and byte reversal bit by bit. -/
def Obligations.SelectCountReverseResults : Prop :=
  ∀ (s : State) (d a b : RegCode) (hA hB : Bool),
    (MayIssue s 1 { a := some a, b := some b, hA, hB } [d] →
      ∃ t, exec (.sel d a b hA hB) s = .next t ∧ Computes s t { a := some a, b := some b, hA, hB } d
        (if s.th.z0 ≠ 0 then s.th.readA a else s.th.readB b) 0) ∧
    (MayIssue s 1 { a := some a, hA } [d] →
      let x := s.th.readA a
      (∃ t, ∃ n : Nat, exec (.clz d a hA) s = .next t ∧ Computes s t { a := some a, hA } d (BitVec.ofNat 64 n) 0 ∧
        n ≤ 64 ∧ x.toNat < 2 ^ (64 - n) ∧ (n < 64 → 2 ^ (63 - n) ≤ x.toNat)) ∧
      (∃ t, ∃ n : Nat, exec (.ctz d a hA) s = .next t ∧ Computes s t { a := some a, hA } d (BitVec.ofNat 64 n) 0 ∧
        n ≤ 64 ∧ (∀ i < n, x.getLsbD i = false) ∧ (n < 64 → x.getLsbD n = true)) ∧
      (∃ t, exec (.popc d a hA) s = .next t ∧ Computes s t { a := some a, hA } d
        (BitVec.ofNat 64 ((List.range 64).filter fun i => x.getLsbD i).length) 0) ∧
      (∃ t v, exec (.brev d a hA) s = .next t ∧ Computes s t { a := some a, hA } d v 0 ∧
        ∀ i < 64, v.getLsbD i = x.getLsbD (63 - i)) ∧
      (∃ t v, exec (.bswap d a hA) s = .next t ∧ Computes s t { a := some a, hA } d v 0 ∧
        ∀ i < 64, v.getLsbD i = x.getLsbD ((7 - i / 8) * 8 + i % 8)))

/-- Bit fields (R96): bit by bit, with the field cut at bit 63. -/
def Obligations.BitFieldResults : Prop :=
  ∀ (s : State) (d a b : RegCode) (hA hB : Bool),
    MayIssue s 1 { a := some a, b := some b, hA, hB } [d] →
    let r : Srcs := { a := some a, b := some b, hA, hB }
    let x := s.th.readA a
    let y := s.th.readB b
    let pos := fun c : Word => c.toNat % 64
    let len := fun c : Word => min (c.toNat / 256 % 128) (64 - c.toNat % 64)
    (∃ t v, exec (.bfxu d a b hA hB) s = .next t ∧ Computes s t r d v 0 ∧
      ∀ i < 64, v.getLsbD i = (decide (i < len y) && x.getLsbD (pos y + i))) ∧
    (∃ t v, exec (.bfx d a b hA hB) s = .next t ∧ Computes s t r d v 0 ∧
      ∀ i < 64, v.getLsbD i = (decide (0 < len y) && x.getLsbD (pos y + min i (len y - 1)))) ∧
    (∃ t v, exec (.bfi d a b hA hB) s = .next t ∧ Computes s t r d v 0 ∧
      ∀ i < 64, v.getLsbD i =
        if pos s.th.z0 ≤ i ∧ i < pos s.th.z0 + len s.th.z0 then y.getLsbD (i - pos s.th.z0) else x.getLsbD i)

/-- Conditional branches (R97, R98, R103): taken, the program counter is PC + 4 x the sign-extended offset and the
loop ends; not taken, the branch is an ordinary instruction. Both ways nothing else of the machine changes. -/
def Obligations.BranchesTakenAndUntaken : Prop :=
  ∀ (s : State) (a b : RegCode) (o11 : BitVec 11) (o18 : BitVec 18),
    (MayIssue s 1 { a := some b, more := [a] } [] →
      let x := s.th.value a
      let y := s.th.readA b
      ∀ p ∈ ([(.brEq a b o11, x == y), (.brNe a b o11, x != y), (.brLt a b o11, x.slt y), (.brGe a b o11, !x.slt y),
        (.brLtu a b o11, x.ult y), (.brGeu a b o11, !x.ult y)] : List (Instr × Bool)),
      ∃ t, exec p.1 s = .next t ∧
        if p.2 then Branches s t { a := some b, more := [a] } (s.th.pc + 4 * o11.signExtend 64)
        else OnlyThread s t ∧ Passes s t { a := some b, more := [a] }) ∧
    (MayIssue s 1 { more := [a] } [] →
      let x := s.th.value a
      ∀ p ∈ ([(.bzEqz a o18, x == 0), (.bzNez a o18, x != 0), (.bzLtz a o18, x.slt 0), (.bzGez a o18, !x.slt 0)] :
        List (Instr × Bool)),
      ∃ t, exec p.1 s = .next t ∧
        if p.2 then Branches s t { more := [a] } (s.th.pc + 4 * o18.signExtend 64)
        else OnlyThread s t ∧ Passes s t { more := [a] })

/-- JAL and JALR (R99): the link, the target, and the trap of a JALR whose target has a bit of [63:55] set, which
writes no link. -/
def Obligations.JumpsLinkAndTransfer : Prop :=
  ∀ (s : State) (d a : RegCode) (off : BitVec 20) (imm : BitVec 14),
    (MayIssue s 1 {} [d] →
      ∃ t, exec (.jal d off) s = .next t ∧ Links s t {} d (s.th.pc + 4) (s.th.pc + 4 * off.signExtend 64)) ∧
    (MayIssue s 1 { a := some a } [d] →
      let x := s.th.readA a + imm.signExtend 64
      if x.toNat < 2 ^ 55 then
        ∃ t, exec (.jalr d a imm) s = .next t ∧ Links s t { a := some a } d (s.th.pc + 4) (x &&& ~~~3)
      else exec (.jalr d a imm) s = trap .pageFaultFetch x 4 s)

/-- LOOP (R38, R39, R101): a count of zero goes on after the n-th instruction, another sets the loop registers; with
a loop active the trap is LOOP_FAULT. -/
def Obligations.LoopStarts : Prop :=
  ∀ (s : State) (a : RegCode) (n : BitVec 6),
    MayIssue s 1 { a := some a } [] →
    if s.th.stat.la then exec (.loop a n) s = trap .loopFault s.th.lstart s.th.lend s
    else ∃ t, exec (.loop a n) s = .next t ∧ OnlyThread s t ∧
      t.th.z0 = s.th.z0 ∧ t.th.z1 = s.th.z1 ∧ (∀ k < 56, t.th.reg k = (s.th.consume { a := some a }).reg k) ∧
      if s.th.readA a = 0 then
        KeepsThread s.th t.th ∧ t.th.pc = s.th.pc + 4 * BitVec.ofNat 64 (n.toNat + 1) + 4 ∧
          t.th.stat = s.th.stat ∧ t.th.lcnt = s.th.lcnt
      else
        KeepsThread { s.th with lstart := t.th.lstart, lend := t.th.lend } t.th ∧ t.th.pc = s.th.pc + 4 ∧
          t.th.lcnt = s.th.readA a ∧ t.th.lstart = addrField (s.th.pc + 4) ∧
          t.th.lend = addrField (s.th.pc + 4 * BitVec.ofNat 64 (n.toNat + 1)) ∧
          t.th.stat = { s.th.stat with la := true }

/-- Scalar float instructions (R129 to R139): with a prefix its row of R131 accepts, or none, each writes its result
and merges its flags, and nothing else changes. The pending prefix is consumed. -/
def Obligations.ScalarFloatResults : Prop :=
  ∀ (s : State) (d a b : RegCode) (hA hB : Bool),
    let two : Srcs := { a := some a, b := some b, hA, hB }
    let one : Srcs := { a := some a, hA }
    let acc : Srcs := { a := some a, b := some b, hA, hB, more := [d] }
    let bit := fun (f : Fmt) (w : Word) (neg : Bool) =>
      (BitVec.ofNat 64 (w.toNat % 2 ^ (f.width - 1) + neg.toNat * 2 ^ (f.width - 1)), (0 : Flags))
    let cmp := fun (k : FCmp) (x : FArgs) =>
      ((if (fcompare k x.va x.vb).1 then 1 else 0 : Word), (fcompare k x.va x.vb).2)
    let conv := fun (x : FArgs) => x.asD (fconvert x.fa x.fd x.r x.sat (operandBits x.fa x.a))
    ∀ p ∈ ([
      (.fadd d a b hA hB, ruleArith, .fp32, .fp32, two, fun x => x.deliver (fadd x.r x.va x.vb)),
      (.fsub d a b hA hB, ruleArith, .fp32, .fp32, two, fun x => x.deliver (fadd x.r x.va x.vb.neg)),
      (.fmul d a b hA hB, ruleArith, .fp32, .fp32, two, fun x => x.deliver (fmul x.va x.vb)),
      (.fdiv d a b hA hB, ruleArith, .fp32, .fp32, two, fun x => x.deliver (fdiv x.va x.vb)),
      (.fsqrt d a hA, ruleSqrt, .fp32, .fp32, one, fun x => x.deliver (fsqrt x.va)),
      (.fmin d a b hA hB, ruleArith, .fp32, .fp32, two, fun x =>
        x.asD (fminmax false x.fa x.fb x.fd x.r x.sat (operandBits x.fa x.a) (operandBits x.fb x.b))),
      (.fmax d a b hA hB, ruleArith, .fp32, .fp32, two, fun x =>
        x.asD (fminmax true x.fa x.fb x.fd x.r x.sat (operandBits x.fa x.a) (operandBits x.fb x.b))),
      (.fabs d a hA, ruleSign, .fp32, .fp32, one, fun x => bit x.fa x.a false),
      (.fneg d a hA, ruleSign, .fp32, .fp32, one, fun x => bit x.fa x.a (!x.a.getLsbD (x.fa.width - 1))),
      (.fcps d a b hA hB, ruleCps, .fp32, .fp32, two, fun x => bit x.fa x.a (x.b.getLsbD (x.fb.width - 1))),
      (.frnd d a hA, ruleRnd, .fp32, .fp32, one, fun x =>
        (fextend x.fa (fintegralOp x.fa x.r (operandBits x.fa x.a)).1, (fintegralOp x.fa x.r (operandBits x.fa x.a)).2)),
      (.fmac d a b hA hB, ruleArith, .fp32, .fp32, acc, fun x => x.deliver (ffma x.r x.vd x.va x.vb)),
      (.fmsc d a b hA hB, ruleArith, .fp32, .fp32, acc, fun x => x.deliver (ffma x.r x.vd x.va.neg x.vb)),
      (.fnmac d a b hA hB, ruleArith, .fp32, .fp32, acc, fun x => x.deliver (ffma x.r x.vd.neg x.va.neg x.vb)),
      (.feq d a b hA hB, ruleCmp, .fp32, .fp32, two, cmp .eq), (.flt d a b hA hB, ruleCmp, .fp32, .fp32, two, cmp .lt),
      (.fle d a b hA hB, ruleCmp, .fp32, .fp32, two, cmp .le),
      (.fclass d a hA, ruleClass, .fp32, .fp32, one, fun x => (BitVec.ofNat 64 (fclassOp x.fa (operandBits x.fa x.a)), 0)),
      (.fcvt d a hA, ruleCvt, .fp32, .fp32, one, conv), (.fcvti d a hA, ruleCvt, .fp32, .i32, one, conv),
      (.fcvtf d a hA, ruleCvt, .i32, .fp32, one, conv)] :
      List (Instr × PfxRule × Fmt × Fmt × Srcs × (FArgs → Word × Flags))),
    let (i, rule, da, dd, src, f) := p
    Clear s 2 src [d] → rule.accepts s.th.pfxFields = true →
      ∃ t, exec i s = .next t ∧
        Computes s t src d (f (floatArgs s.th da dd src d)).1 (f (floatArgs s.th da dd src d)).2

/-- Rounding and float arithmetic (R51 to R57). Of a magnitude m x 2^e at 2^q with q above e, RNE gives a nearest multiple
and the even one of two, RTZ the multiple below in magnitude, RDN and RUP the multiple on their side; the answer is
exact only when nothing was cut off. Sums, products and fused sums of finite operands are exact; quotients and square
roots are exact, or lie strictly between two neighbours at the last bit of an odd k that no format holds. Delivery rounds once at
the quantum of the destination, overflows by its table and raises UF on tiny inexact results. NaN, infinity and zero
operands, comparisons, extrema and conversions follow their tables. -/
def Obligations.RoundingPicksTheNamedNeighbour : Prop :=
  let rat := fun (neg : Bool) (m : Nat) (e : Int) => (if neg then -1 else 1) * (m : ℚ) * (2 : ℚ) ^ e
  let place := fun (x : FVal) => match x with
    | .nan _ => (0 : EReal)
    | .inf neg => if neg then ⊥ else ⊤
    | .fin neg m e => (((rat neg m e : ℚ) : ℝ) : EReal)
  let nan := fun (x : FVal) => ∃ s, x = .nan s
  let zero := fun (x : FVal) (neg : Bool) => ∃ e, x = .fin neg 0 e
  let sig := fun (x y : FVal) => if x = .nan true ∨ y = .nan true then (16 : Flags) else 0
  let sign := fun (f : Fmt) (neg : Bool) => if neg then 2 ^ (f.width - 1) else 0
  (∀ (neg : Bool) (m k : Nat) (e : Int), 0 < k →
    let at_ := fun r => (roundAt r neg m e (e + k)).1
    let up := (m + 2 ^ k - 1) / 2 ^ k
    let down := m / 2 ^ k
    (2 * (at_ .rne * 2 ^ k) ≤ 2 * m + 2 ^ k ∧ 2 * m ≤ 2 * (at_ .rne * 2 ^ k) + 2 ^ k) ∧
    (2 * (m % 2 ^ k) = 2 ^ k → at_ .rne % 2 = 0) ∧
    at_ .rtz = down ∧ at_ .rdn = (if neg then up else down) ∧ at_ .rup = (if neg then down else up) ∧
    ∀ r, (roundAt r neg m e (e + k)).2 = decide (m % 2 ^ k ≠ 0)) ∧
  (∀ (r : Rnd) (neg : Bool) (m k : Nat) (q : Int), roundAt r neg m (q + k) q = (m * 2 ^ k, false)) ∧
  (∀ (r : Rnd) (a b d : Bool) (m n k : Nat) (e g h : Int),
    (∃ c l j, fadd r (.fin a m e) (.fin b n g) = (.fin c l j, 0) ∧ rat c l j = rat a m e + rat b n g ∧
      (l = 0 → c = if a = b then a else r == .rdn)) ∧
    (∃ l j, fmul (.fin a m e) (.fin b n g) = (.fin (a != b) l j, 0) ∧
      rat (a != b) l j = rat a m e * rat b n g) ∧
    (∃ c l j, ffma r (.fin d k h) (.fin a m e) (.fin b n g) = (.fin c l j, 0) ∧
      rat c l j = rat d k h + rat a m e * rat b n g ∧
      (l = 0 → c = if (a != b) = d then d else r == .rdn)) ∧
    (n ≠ 0 → ∃ l j, fdiv (.fin a m e) (.fin b n g) = (.fin (a != b) l j, 0) ∧
      let x := (m : ℚ) * 2 ^ e / (n * 2 ^ g)
      (l % 2 = 0 → (l : ℚ) * 2 ^ j = x) ∧
      (l % 2 = 1 → ((l : ℚ) - 1) * 2 ^ j < x ∧ x < ((l : ℚ) + 1) * 2 ^ j) ∧ (m ≠ 0 → n < 2 ^ 32 → 2 ^ 65 ≤ l)) ∧
    fdiv (.fin a m e) (.fin b 0 g) = (if m = 0 then (.nan false, 16) else (.inf (a != b), 8)) ∧
    (m ≠ 0 → m < 2 ^ 31 → ∃ l j, fsqrt (.fin false m e) = (.fin false l j, 0) ∧ 2 ^ 49 ≤ l ∧
      let x := (m : ℚ) * 2 ^ e
      (l % 2 = 0 → ((l : ℚ) * 2 ^ j) ^ 2 = x) ∧
      (l % 2 = 1 → (((l : ℚ) - 1) * 2 ^ j) ^ 2 < x ∧ x < (((l : ℚ) + 1) * 2 ^ j) ^ 2)) ∧
    (m ≠ 0 → fsqrt (.fin true m e) = (.nan false, 16)) ∧ (∃ j, fsqrt (.fin a 0 e) = (.fin a 0 j, 0)) ∧
    fsqrt (.inf a) = (if a then (.nan false, 16) else (.inf false, 0)) ∧
    fadd r (.inf a) (.inf b) = (if a = b then (.inf a, 0) else (.nan false, 16)) ∧
    fadd r (.inf a) (.fin b n g) = (.inf a, 0) ∧ fadd r (.fin a m e) (.inf b) = (.inf b, 0) ∧
    fmul (.inf a) (.inf b) = (.inf (a != b), 0) ∧
    fmul (.inf a) (.fin b n g) = (if n = 0 then (.nan false, 16) else (.inf (a != b), 0)) ∧
    fmul (.fin a m e) (.inf b) = (if m = 0 then (.nan false, 16) else (.inf (a != b), 0)) ∧
    fdiv (.inf a) (.inf b) = (.nan false, 16) ∧ fdiv (.inf a) (.fin b n g) = (.inf (a != b), 0) ∧
    (∃ j, fdiv (.fin a m e) (.inf b) = (.fin (a != b) 0 j, 0)) ∧
    (∀ x, ffma r x (.inf a) (.fin b 0 g) = (.nan false, 16) ∧ ffma r x (.fin a 0 e) (.inf b) = (.nan false, 16)) ∧
    ffma r (.inf d) (.inf a) (.inf b) = (if (a != b) = d then (.inf d, 0) else (.nan false, 16))) ∧
  (∀ (r : Rnd) (x y z : FVal),
    (nan x ∨ nan y → fadd r x y = (.nan false, sig x y) ∧ fmul x y = (.nan false, sig x y) ∧
      fdiv x y = (.nan false, sig x y)) ∧
    (nan x → fsqrt x = (.nan false, sig x x)) ∧ (nan x ∨ nan y ∨ nan z → (ffma r x y z).1 = .nan false) ∧
    (x = .nan true ∨ y = .nan true ∨ z = .nan true → (ffma r x y z).2 = 16) ∧
    (nan x ∨ nan y → ∀ c, fcompare c x y = (false, if c = .eq then sig x y else 16)) ∧
    (¬nan x → ¬nan y → (∀ c, (fcompare c x y).2 = 0) ∧ ((fcompare .eq x y).1 = true ↔ place x = place y) ∧
      ((fcompare .lt x y).1 = true ↔ place x < place y) ∧ ((fcompare .le x y).1 = true ↔ place x ≤ place y))) ∧
  (∀ (fa fb fd : Fmt) (r : Rnd) (sat isMax : Bool) (a b : Nat), fa.isFloat = true → fb.isFloat = true →
    let x := fdecode fa a
    let y := fdecode fb b
    let pick := fminmax isMax fa fb fd r sat a b
    let first := ((fconvert fa fd r sat a).1, sig x y ||| (fconvert fa fd r sat a).2)
    let second := ((fconvert fb fd r sat b).1, sig x y ||| (fconvert fb fd r sat b).2)
    let below := fun u v => place u < place v ∨ zero u true ∧ zero v false
    (nan x → nan y → pick = (fd.nan, sig x y)) ∧ (¬nan x → nan y → pick = first) ∧ (nan x → ¬nan y → pick = second) ∧
    (¬nan x → ¬nan y → ((if isMax then below x y else below y x) → pick = second) ∧
      ((if isMax then ¬below x y else ¬below y x) → pick = first))) ∧
  (∀ (f : Fmt) (r : Rnd) (sat neg : Bool) (m : Nat) (e lead : Int), f.isFloat = true →
    let M : Int := f.frac
    let emin : Int := 1 - f.bias
    let top : ℚ := match f with
      | .fp32 => (2 ^ 24 - 1) * 2 ^ 104
      | .fp16 => 65504
      | .bf16 => 255 * 2 ^ 120
      | .f8a => 448
      | _ => 57344
    let out := fdeliver f r sat
    let infinite := fun fl => (if f = .f8a then 0x7F else f.inf + sign f neg, fl)
    (∀ s, out (.nan s) = (f.nan, 0)) ∧ out (.fin neg 0 e) = (sign f neg, 0) ∧
    out (.inf neg) = (if f = .f8a then (if sat then (0x7E + sign f neg, 5) else (0x7F, 16)) else infinite 0) ∧
    ((2 : ℚ) ^ lead ≤ m * 2 ^ e → m * 2 ^ e < (2 : ℚ) ^ (lead + 1) →
      let q := max (lead - M) (emin - M)
      let t := roundAt r neg m e q
      let tiny := ((roundAt r neg m e (lead - M)).1 : ℚ) * 2 ^ (lead - M) < 2 ^ emin
      (t.1 * 2 ^ q ≤ top → ∃ k h, fdecode f (out (.fin neg m e)).1 = .fin neg k h ∧ (k : ℚ) * 2 ^ h = t.1 * 2 ^ q ∧
        (t.2 = false → (out (.fin neg m e)).2 = 0) ∧ (t.2 = true → tiny → (out (.fin neg m e)).2 = 3) ∧
        (t.2 = true → ¬tiny → (out (.fin neg m e)).2 = 1)) ∧
      (top < t.1 * 2 ^ q → out (.fin neg m e) =
        if sat = true ∨ r = .rtz ∨ r = .rdn ∧ neg = false ∨ r = .rup ∧ neg = true then (f.maxFinite + sign f neg, 5)
        else infinite (if f = .f8a then 21 else 5)))) ∧
  ∀ (src dst : Fmt) (r : Rnd) (sat : Bool) (bits : Nat),
    let x := fdecode src bits
    let out := fconvert src dst r sat bits
    let low := fun (v : Int) => (v % 2 ^ dst.width).toNat
    let limited := fun (v : Int) => max dst.range.1 (min dst.range.2 v)
    (src.isFloat = true → nan x → out = (if dst.isFloat = true then dst.nan else 0, if dst.isFloat = true then sig x x else 16)) ∧
    (src.isFloat = true → dst.isFloat = true → ¬nan x →
      out = if src = dst then (bits % 2 ^ src.width, 0) else fdeliver dst r sat x) ∧
    (src.isFloat = true → dst.isFloat = false → ∀ neg,
      (x = .inf neg → out = (low (if neg then dst.range.1 else dst.range.2), 16)) ∧
      ∀ m e, x = .fin neg m e →
        let t := roundAt r neg m e 0
        let v : Int := if neg then -(t.1 : Int) else t.1
        out = (low (limited v), if limited v ≠ v then 16 else if t.2 then 1 else 0)) ∧
    (src.isFloat = false →
      let code := bits % 4
      let v : Int := match src with
        | .tern => if code = 1 then 1 else if code = 3 then -1 else 0
        | .u8 => bits % 256
        | _ => sint src.width bits
      let odd : Flags := if src = .tern ∧ code = 2 then 16 else 0
      out = if dst.isFloat = true then
          ((fdeliver dst r sat (.fin (decide (v < 0)) v.natAbs 0)).1, odd ||| (fdeliver dst r sat (.fin (decide (v < 0)) v.natAbs 0)).2)
        else (if dst = .tern ∨ sat = true then low (limited v) else low v, odd))

/-- PFX (R140, R141): the word is held and STAT.PP set for the next instruction; a reserved format or rounding code
takes ILLEGAL_PREFIX (R143). Nothing else changes but the program counter. -/
def Obligations.PrefixIsHeld : Prop :=
  ∀ (s : State) (fa fb fd : BitVec 4) (rnd : BitVec 3) (sat : Bool),
    MayIssue s 2 {} [] →
    let i : Instr := .pfx fa fb fd rnd sat
    if fa.toNat ≤ 12 ∧ fb.toNat ≤ 12 ∧ fd.toNat ≤ 12 ∧ rnd.toNat ≤ 4 then
      ∃ t, exec i s = .next t ∧ OnlyThread s t ∧ t.th.stat.pp = true ∧ t.th.pfx = encode i ∧
        Passes s { t with th := { t.th with pfx := s.th.pfx, stat := { t.th.stat with pp := false } } } {}
    else exec i s = trap .illegalPrefix (evalWord (encode i)) 0 s

/-- Taking a trap (R37, R40, R249, R270): TRAP takes TRAP_INSTR with its code; every trap in user mode with a trap vector
enters the handler with the saved registers written; without a vector, or in supervisor mode, the Surveyor is asked.
The hold latches and a captured loop body go every time. -/
def Obligations.TrapEntersTheHandler : Prop :=
  (∀ (s : State) (code : BitVec 18), MayIssue s 1 {} [] →
    exec (.trap code) s = trap .trapInstr (code.setWidth 64) 0 s) ∧
  ∀ (s : State) (c : Cause) (e1 e2 : Word),
    ∃ t, trap c e1 e2 s = .next t ∧
      let stopped : Thread := { s.th with
        wait := .escalated, phase := .fresh, held := none, latchA := none, latchB := none, loopBuf := [], leftAt := s.clock }
      let saved : Thread := { stopped with
        sstat := s.th.stat, epc := s.th.pc &&& 0x007FFFFFFFFFFFFC, ecause := c.code, eval1 := e1, eval2 := e2, walkFails := [] }
      if s.th.stat.mode then
        t = { s with lastSlot := t.lastSlot, th := stopped,
                     escal := s.escal ++ [⟨s.th.place, c, s.th.pc, e1, e2, c != .trapInstr, false⟩] }
      else if s.th.tvec &&& 0x007FFFFFFFFFFFFC = 0 then
        t = { s with lastSlot := t.lastSlot, th := saved,
                     escal := s.escal ++ [⟨s.th.place, c, s.th.pc, e1, e2, true, false⟩] }
      else
        t = { s with lastSlot := t.lastSlot, th := { saved with
          wait := .none, stat := { s.th.stat with mode := true, pp := false, la := false }, pfxShadow := s.th.pfx
          pc := s.th.tvec &&& 0x007FFFFFFFFFFFFC } }

/-- ERET (R249, R104, R179): STAT but for FLAGS from SSTAT, the prefix, and the pc from EPC; a loop it could not
capture, and a refusal recorded, trap. -/
def Obligations.EretReturns : Prop :=
  ∀ (s : State), MayIssue s 1 {} [] → s.th.stat.mode = true → s.th.sends = 0 →
    let span := s.th.lend.toNat - s.th.lstart.toNat + 4
    if s.th.sstat.la = true ∧ (s.th.lend.toNat < s.th.lstart.toNat ∨ 256 < span) then
      exec .eret s = trap .loopFault s.th.lstart s.th.lend s
    else
      let back : Thread := { s.th with
        stat := { s.th.sstat with flags := s.th.stat.flags }, pfx := s.th.pfxShadow
        pc := s.th.epc &&& 0x007FFFFFFFFFFFFC, latchA := none, latchB := none, loopBuf := [], phase := .fresh
        held := none, wait := .none, walkFails := [], leftAt := s.clock }
      ∃ t, OnlyThread s t ∧
        match s.th.refused with
        | none => exec .eret s = .next t ∧ t.th = back
        | some x => t.th = { back with refused := none } ∧
          exec .eret s = .next (takeTrap .sendRefused x.cap (BitVec.ofNat 64 (x.more.toNat * 256 + x.sub.toNat)) t)

/-- CTLR (R247, R30 to R32): the register's fields at their places, reserved fields zero; an unassigned address takes
ILLEGAL_INSTR. The model's choices in it: logs 5 and 9. -/
def Obligations.ControlRegisterReads : Prop :=
  ∀ (s : State) (d : RegCode), MayIssue s 1 {} [d] →
    let t := s.th
    let c := s.core s.here
    let stat := fun (x : Stat) => (0#51 ++ x.flags ++ 0#2 ++ x.rm ++ 0#1 ++ BitVec.ofBool x.la ++ BitVec.ofBool x.pp ++
      BitVec.ofBool x.mode : Word)
    let regs : List (BitVec 12 × Word) := [
      (0x000, stat t.stat), (0x001, stat t.sstat), (0x002, 0#56 ++ t.ecause), (0x003, t.epc), (0x004, t.eval1),
      (0x005, t.eval2), (0x006, t.tvec), (0x007, t.hscr), (0x010, 0#58 ++ c.feat), (0x011, 0#58 ++ t.reqf),
      (0x012, 0#62 ++ t.fidmax), (0x020, 0#32 ++ t.rank.gen ++ t.rank.pkg ++ t.rank.thr),
      (0x021, t.party.pidx ++ t.party.surv ++ t.party.tidx ++ t.party.nthr), (0x022, t.migcnt), (0x023, 0#48 ++ t.ctx),
      (0x030, 0#60 ++ c.lmsplit), (0x031, 0#63 ++ BitVec.ofBool c.gpool),
      (0x032, BitVec.ofBool t.inbox.en ++ 0#27 ++ t.inbox.size ++ 0#15 ++ t.inbox.base), (0x033, 0#32 ++ t.wpos ++ t.rpos),
      (0x040, t.lcnt), (0x041, t.lstart), (0x042, t.lend)]
    let tab := fun (x : SrvBind) => (BitVec.ofBool x.v ++ 0#23 ++ x.img ++ 0#4 ++ x.sidx ++ 0#16 : Word)
    (∀ p ∈ regs, ∃ u, exec (.ctlr d p.1) s = .next u ∧ Computes s u {} d p.2 0) ∧
    (∀ n : Fin 16, ∃ u, exec (.ctlr d (0x060 + BitVec.ofNat 12 n)) s = .next u ∧ Computes s u {} d (tab t.srvtab[n]) 0) ∧
    (∃ u v, exec (.ctlr d 0x050) s = .next u ∧ Computes s u {} d v 0) ∧
    ∀ addr : BitVec 12, addr ∉ regs.map (·.1) → addr ≠ 0x050 → (addr < 0x060 ∨ 0x070 ≤ addr) →
      exec (.ctlr d addr) s = trap .illegalInstr (evalWord (encode (.ctlr d addr))) 0 s

/-- CTLW, CTLSET and CTLCLR of a thread's own registers (R247, R248, R31, R32): the writable fields take the new value
after the instruction's own completion, a register that the mode may not write takes PRIVILEGED, and an unassigned
address ILLEGAL_INSTR. The model's choices in it: log 9. -/
def Obligations.ControlRegisterWrites : Prop :=
  ∀ (s : State) (x : RegCode), MayIssue s 1 { more := [x] } [] →
    let v := s.th.value x
    let stat := fun (n : Word) => ({ flags := n.extractLsb' 8 5, rm := n.extractLsb' 4 2, la := n.getLsbD 2,
                                     pp := n.getLsbD 1, mode := n.getLsbD 0 } : Stat)
    let word := fun (n : Word) => n &&& 0x007FFFFFFFFFFFFC
    let tab := fun (n : Word) => ({ v := n.getLsbD 63, img := n.extractLsb' 24 16, sidx := n.extractLsb' 16 4 } : SrvBind)
    let sup : List (BitVec 12 × (Thread → Word → Thread)) := [
      (0x000, fun t n => { t with stat := stat n }), (0x001, fun t n => { t with sstat := stat n }),
      (0x002, fun t n => { t with ecause := n.setWidth 8 }), (0x003, fun t n => { t with epc := word n }),
      (0x004, fun t n => { t with eval1 := n }), (0x005, fun t n => { t with eval2 := n }),
      (0x006, fun t n => { t with tvec := word n }), (0x007, fun t n => { t with hscr := n }),
      (0x011, fun t n => { t with reqf := n.setWidth 6 }), (0x023, fun t n => { t with ctx := n.setWidth 16 }),
      (0x040, fun t n => { t with lcnt := n }), (0x041, fun t n => { t with lstart := word n }),
      (0x042, fun t n => { t with lend := word n })]
    let tables : List (BitVec 12 × (Thread → Word → Thread)) := (List.range 16).map fun k =>
      (0x060 + BitVec.ofNat 12 k, fun t n => { t with srvtab := t.srvtab.set! k (tab n) })
    let user := fun (t : Thread) (n : Word) => { t with stat := { t.stat with rm := n.extractLsb' 4 2, flags := n.extractLsb' 8 5 } }
    ∀ addr : BitVec 12, ∀ q ∈ ([(.ctlw x addr, fun _ => v), (.ctlset x addr, fun old => old ||| v),
        (.ctlclr x addr, fun old => old &&& ~~~v)] : List (Instr × (Word → Word))),
      let (i, f) := q
      match ctlRead s addr.toNat with
      | none => exec i s = trap .illegalInstr (evalWord (encode i)) 0 s
      | some old =>
        (s.th.stat.mode = true → ∀ p ∈ sup ++ tables, addr = p.1 →
          ∃ t, exec i s = .next t ∧ Completes s s t { more := [x] } fun u => p.2 u (f old)) ∧
        (s.th.stat.mode = false → addr = 0x000 →
          ∃ t, exec i s = .next t ∧ Completes s s t { more := [x] } fun u => user u (f old)) ∧
        ((s.th.stat.mode = false ∧ addr ∉ ([0x000, 0x030, 0x032] : List (BitVec 12)) ∨
          addr ∈ ([0x010, 0x012, 0x020, 0x021, 0x022, 0x033, 0x050] : List (BitVec 12))) →
          exec i s = trap .privileged (evalWord (encode i)) (addr.setWidth 64) s)

/-- CTLW, CTLSET and CTLCLR of LMSPLIT, INBOX and GPOOL (R33, R183, R247, R294): the new value is the source's, or the old
one with the source's bits set or cleared; its checks come before any change; an accepted INBOX write empties the
ring; an accepted LMSPLIT write sets the core's split and leaves no scratchpad byte beyond the smaller of the two
sizes. The model's choices in it: log 33. -/
def Obligations.InboxAndSplitWrites : Prop :=
  ∀ (s : State) (x : RegCode), MayIssue s 1 { more := [x] } [] →
    let src := s.th.value x
    let core := s.core s.here
    let box := s.th.inbox
    let inbox : Word := BitVec.ofBool box.en ++ 0#27 ++ box.size ++ 0#15 ++ box.base
    ∀ q ∈ ([(.ctlw x, fun _ => src), (.ctlset x, fun old => old ||| src), (.ctlclr x, fun old => old &&& ~~~src)] :
        List ((BitVec 12 → Instr) × (Word → Word))),
    let v := q.2 inbox
    let size := v.toNat / 2 ^ 32 % 16
    let base := v.toNat % 2 ^ 17 / (256 * 2 ^ size) * (256 * 2 ^ size)
    let w := q.2 (0#60 ++ core.lmsplit)
    let n := w.toNat
    let i := q.1 0x032
    let j := q.1 0x030
    let rings := (coreThreads s s.here).any fun t =>
      t.inbox.en && decide (n % 16 * 16384 < t.inbox.base.toNat + 256 * 2 ^ t.inbox.size.toNat)
    (if 8 < size then exec i s = trap .illegalInstr (evalWord (encode i)) 0 s
     else if v.getLsbD 63 = true ∧ core.lmsplit.toNat * 16384 < base + 256 * 2 ^ size then
       exec i s = trap .localRange v 0x032 s
     else ∃ t, exec i s = .next t ∧ Completes s s t { more := [x] } fun u =>
       { u with inbox := { en := v.getLsbD 63, size := BitVec.ofNat 4 size, base := BitVec.ofNat 17 base }
                wpos := 0, rpos := 0, heldMsg := none }) ∧
    (if 8 < n % 16 then exec j s = trap .illegalInstr (evalWord (encode j)) 0 s
     else if rings then exec j s = trap .localRange w 0x030 s
     else ∃ t, exec j s = .next t ∧ Passes s t { more := [x] } ∧ (t.core t.here).lmsplit = w.setWidth 4 ∧
       (Inv s → ∀ off < 2 ^ 17, let key := s.here * 2 ^ 17 + off
         tfind t.scratch key = if off < min core.lmsplit.toNat (n % 16) * 16384 then tfind s.scratch key else none)) ∧
    (s.th.stat.mode = true → ∃ t, exec (q.1 0x031) s = .next t ∧ Passes s t { more := [x] } ∧
      (t.core t.here).gpool = (q.2 (0#63 ++ BitVec.ofBool core.gpool)).getLsbD 0)

/-- Waits, advice and fences (R126, R179, R187, R188, R250, R373): each completes, or leaves the thread waiting for what
its rule names, and changes nothing else but what a release writes back and publishes; a fence waits for the thread's
sends and then takes a refusal recorded; SLEEP counts its source in cycles, none for zero. The model's choices in it: logs 5, 11 and 65. -/
def Obligations.WaitsAndFences : Prop :=
  (∀ (s : State) (a : RegCode) (hA : Bool),
    let r : Srcs := { a := some a, hA }
    MayIssue s 1 r [] →
      ∃ t, exec (.sleep a hA) s = .next t ∧
        if s.th.readA a = 0 then OnlyThread s t ∧ Passes s t r
        else Completes s s t r fun u => { u with wait := .sleep (t.clock + (s.th.readA a).toNat) }) ∧
  ∀ (s : State) (sc : Scope) (phase : BitVec 2), MayIssue s 1 {} [] →
    let passes := fun i => ∃ t, exec i s = .next t ∧ OnlyThread s t ∧ Passes s t {}
    let waits := fun i (u : State) w => exec i s = .next { u with th := { u.th with wait := w } }
    let settled := s.th.sends = 0 ∧ s.th.refused = none ∧ s.th.loads = []
    let devOver := sc = .sys → s.th.devStore = false
    passes (.hint phase) ∧
    (s.th.migReq = false → passes .migpt) ∧ (s.th.migReq = true → waits .migpt s .migpt) ∧
    (∃ t, exec .wfi s = .next t ∧ Completes s s t {} fun u => { u with wait := .wfi }) ∧
    (∃ t, exec .yield s = .next t ∧ Completes s s t {} fun u => { u with
      yields := (List.range 16).filter fun k => let other := s.threadAt (s.here * 16 + k)
        k != s.th.place % 16 && runnable s other && decide (readyAt other ≤ s.clock)
      yieldAt := s.clock }) ∧
    (s.th.phase = .fresh → ∀ i ∈ ([.fenceAcq sc, .fenceRel sc, .fenceFull sc] : List Instr),
      (s.th.sends ≠ 0 → waits i s .sends) ∧
      ∀ x, s.th.sends = 0 → s.th.refused = some x → exec i s =
        trap .sendRefused x.cap (BitVec.ofNat 64 (x.more.toNat * 256 + x.sub.toNat)) { s with th := { s.th with refused := none } }) ∧
    (s.th.phase = .fresh → settled →
      waits (.fenceAcq sc) s (.acquire sc false) ∧
      (hintsPending s s.here = false →
        (sc = .core → (∃ t, exec (.fenceRel sc) s = .next t ∧ OnlyThread (publish s sc) t ∧ Passes s t {}) ∧
          waits (.fenceFull sc) (publish s sc) (.acquire sc false)) ∧
        (sc ≠ .core → waits (.fenceRel sc) (releaseAt (publish s sc) s.here sc) .releaseAck ∧
          (devOver → waits (.fenceFull sc) (releaseAt (publish s sc) s.here sc) .releaseAck)))) ∧
    (s.th.phase = .released → passes (.fenceRel sc) ∧ (devOver → waits (.fenceFull sc) s (.acquire sc false))) ∧
    (s.th.phase = .acquired → s.th.loads = [] → passes (.fenceAcq sc) ∧ (devOver → passes (.fenceFull sc)))

/-- CWB and CINV (R254): after the write-back no byte of the core's own lines, in its portion or in the pool, and no
byte that its portion hosts is dirty; once it is acknowledged CWB completes, and CINV completes with every line of the
portion and every pool line of the core gone. At CORE scope both complete at once. Beyond L2 the write-back is stated
for a die with no L2 miss outstanding, since it first awaits those. The model's choices in it: log 31. -/
def Obligations.PortionWriteBack : Prop :=
  ∀ (s : State) (sc : Scope), MayIssue s 1 {} [] →
    let group := fun (t : State) (P : Nat → Line → Prop) =>
      ∀ h, groupOf h = groupOf s.here → ∀ l ∈ t.portionOf h, P h l
    (s.th.phase = .released ∨ sc = .core → ∃ t, exec (.cwb sc) s = .next t ∧ OnlyThread s t ∧ Passes s t {}) ∧
    (sc = .core → ∃ t, exec (.cinv sc) s = .next t ∧ OnlyThread s t ∧ Passes s t {}) ∧
    (sc ≠ .core → s.th.phase = .fresh → ∀ i ∈ ([.cwb sc, .cinv sc] : List Instr),
      ∃ t, exec i s = .next t ∧ t.th = { s.th with wait := .releaseAck, loads := t.th.loads, vload := t.th.vload } ∧
        (sc = .party ∨ sc = .die ∨ s.mshrOf (dieOf s.here) = [] ∧ s.ingress = [] → group t fun h l => h = s.here ∨ l.owner = s.here → l.dirtyBytes = [])) ∧
    (sc ≠ .core → s.th.phase = .released → ∃ t, exec (.cinv sc) s = .next t ∧
      Passes s { t with th := { t.th with loads := s.th.loads, vload := s.th.vload } } {} ∧
      t.portionOf s.here = [] ∧ group t fun _ l => l.owner ≠ s.here)

/-- TLBPROBE (R253): the destination is PENDING with the result on its way: zero for an address out of range or in the
window, else the fields of the first level that holds a translation, found without a walk. TLBINV (R251, R252): the range check, an empty range, the release, then every translation of the context that
overlaps the range is gone from every TLB, page-walk cache and marker, every walk of it is stale, and the thread waits
until the completion lets it go on. The model's choices in it: logs 6, 11, 61 and 65. -/
def Obligations.TlbInstructions : Prop :=
  (∀ (s : State) (d a b : RegCode) (hA hB : Bool),
    let r : Srcs := { a := some a, b := some b, hA, hB }
    MayIssue s 1 r [d] → (b ≠ 58 → s.th.stat.mode = true) →
    let va := (s.th.readA a).toNat
    let ctx := if b = 58 then s.th.ctx.toNat else (s.th.readB b).toNat % 2 ^ 16
    let mark := (tget [] s.marks (tileOf s.here)).any fun m => m.ctx == ctx && m.page == va / 65536
    let size := fun (x : PageSize) => match x with
      | .k64 => 0#2 | .m2 => 1#2 | .m512 => 2#2 | .t4 => 3#2
    ∃ t v, exec (.tlbprobe d a b hA hB) s = .next t ∧
      (Completes s s t r fun u => { u.pend d with late := u.late ++ [⟨.tlbprobe, d, v⟩] }) ∧
      if 2 ^ 55 ≤ va ∨ va / 2 ^ 32 = 0x7FFFFF then v = 0
      else match tlbFind s s.here ctx va with
        | none => v = 0#5 ++ BitVec.ofBool mark ++ 0#58
        | some (level, e) => v = 1#1 ++ BitVec.ofNat 2 level ++ size e.size ++ BitVec.ofBool mark ++ BitVec.ofBool e.w ++
            BitVec.ofBool e.u ++ BitVec.ofBool e.dev ++ 0#3 ++ BitVec.ofNat 36 (e.phys va / 2 ^ 16) ++ 0#16) ∧
  ∀ (s : State) (d a b : RegCode) (hA hB : Bool),
    let r : Srcs := { a := some a, b := some b, hA, hB, more := [d] }
    let i : Instr := .tlbinv d a b hA hB
    MayIssue s 1 r [] → s.th.stat.mode = true →
    let base := (s.th.readA a).toNat
    let len := (s.th.readB b).toNat
    let ctx := (s.th.value d).toNat % 2 ^ 16
    if 2 ^ 55 ≤ base ∨ 2 ^ 55 < base + len then exec i s = trap .tlbRange (s.th.readA a) (s.th.readB b) s
    else
      (len = 0 ∨ s.th.phase = .acquired → ∃ t, exec i s = .next t ∧ OnlyThread s t ∧ Passes s t r) ∧
      (len ≠ 0 → s.th.phase = .fresh → s.th.loads = [] → hintsPending s s.here = false →
        let u := releaseAt (publish s .sys) s.here .sys
        exec i s = .next { u with th := { u.th with wait := .releaseAck } }) ∧
      (len ≠ 0 → s.th.phase = .released → ∃ t, exec i s = .next t ∧ t.th = { s.th with wait := .tlbinv ctx s.serial } ∧
        t.mem = s.mem ∧
        (∀ tab ∈ [t.utlb, t.ttlb, t.ctlb, t.dtlb], ∀ p ∈ tab, ∀ e ∈ p.2,
          ¬(e.ctx = ctx ∧ e.page * 2 ^ e.size.bits < base + len ∧ base < (e.page + 1) * 2 ^ e.size.bits)) ∧
        (∀ p ∈ t.pwc, ∀ e ∈ p.2, e.ctx = ctx →
          let n := if e.level = 1 then 42 else 29
          base + len ≤ e.pfxNo * 2 ^ n ∨ (e.pfxNo + 1) * 2 ^ n ≤ base) ∧
        (∀ p ∈ t.marks, ∀ m ∈ p.2, m.ctx = ctx → base + len ≤ m.page * 65536 ∨ (m.page + 1) * 65536 ≤ base) ∧
        ∀ p ∈ t.walks, ∀ w ∈ p.2, w.ctx = ctx → w.stale = true)

/-- The checks of R74 that come before an instruction's own (R36, R41, R42): a feature that FEAT lacks, a pending prefix
before a word that consumes none, and a privileged word in user mode; a write of an assigned register that user mode may
not write traps whatever its source holds (R248). -/
def Obligations.IssueChecks : Prop :=
  ∀ (s : State) (i : Instr), i.isEvent = false → s.th.phase ≠ .sent → (s.core s.here).vlatch = none →
    let w := encode i
    let need := featOf w
    let major := (w.extractLsb' 26 6).toNat
    if (s.core s.here).feat &&& need ≠ need then exec i s = trap .featureAbsent (evalWord w) (need.setWidth 64) s
    else if s.th.stat.pp = true then
      (major < 0x18 ∨ 0x28 ≤ major ∨ ∃ fa fb fd rnd sat, i = .pfx fa fb fd rnd sat) →
        exec i s = trap .illegalPrefix (evalWord w) (evalWord s.th.pfx) s
    else s.th.stat.mode = false →
      ((i = .eret ∨ (∃ d a b hA hB, i = .tlbinv d a b hA hB) ∨ ∃ d a b hA hB, i = .tlbprobe d a b hA hB ∧ b ≠ 58) →
        exec i s = trap .privileged (evalWord w) 0 s) ∧
      ∀ (x : RegCode) (addr : BitVec 12), i ∈ ([.ctlw x addr, .ctlset x addr, .ctlclr x addr] : List Instr) →
        ctlRead s addr.toNat ≠ none → addr ∉ ([0x000, 0x030, 0x032] : List (BitVec 12)) →
        exec i s = trap .privileged (evalWord w) (addr.setWidth 64) s

/-- LD and LDX (R107 to R119, R128): a fault traps, an absent translation waits for its walk, and otherwise the load goes
out: the destination is PENDING, the load record holds the bytes that scratchpads gave, and nothing else changes but
what a fill of the core's portion moves: no byte of memory does where the portion holds no dirty byte to evict. The model's choices in it: logs 3 and 63. -/
def Obligations.LoadsGoOut : Prop :=
  ∀ (s : State) (d a b : RegCode) (hA hB uns : Bool) (size : BitVec 2) (off : BitVec 11),
    let n := 2 ^ size.toNat
    let one : Srcs := { a := some a }
    let two : Srcs := { a := some a, b := some b, hA, hB }
    ∀ p ∈ ([(.ld d a size uns off, one, s.th.readA a + off.signExtend 64 * BitVec.ofNat 64 n),
      (.ldx d a b hA hB size uns, two, s.th.readA a + s.th.readB b * BitVec.ofNat 64 n)] : List (Instr × Srcs × Word)),
    let (i, r, va) := p
    MayIssue s 1 r [d] →
    match locate s .load va n with
    | .fault c x => exec i s = trap c x (BitVec.ofNat 64 n) s
    | .walk ctx page => ∃ t, exec i s = .next t ∧
        t = { s with walks := t.walks, walkQueue := t.walkQueue, th := { s.th with wait := .walk ctx page } }
    | .ok locs u => s.th.slotsHeld < 8 →
      if anyDev locs then
        if s.th.devStore then exec i s = stall .devStore u
        else ∃ t ld, exec i s = .next t ∧ ld.dst = d ∧ ld.va = va ∧ ld.dev = true ∧
          Completes s { u with serial := t.serial } t r fun x => { x.pend d with loads := x.loads ++ [ld], wait := .device }
      else ∃ t ld, exec i s = .next t ∧ Completes s t t r (fun x => { x.pend d with loads := x.loads ++ [ld] }) ∧
        ld.dst = d ∧ ld.va = va ∧ ld.pc = s.th.pc ∧ ld.sext = !uns ∧ ld.bytes.length = n ∧
        (∀ j key : Nat, locs[j]? = some (.scratch key) → ld.bytes[j]? = some (0, some (cget s.scratch key))) ∧
        t.scratch = s.scratch ∧ t.parties = s.parties ∧ t.others = s.others ∧
        (allScratch locs = true → OnlyThread { u with serial := t.serial } t) ∧
        ((s.core s.here).gpool = false → (∀ l ∈ s.portionOf s.here, l.dirtyBytes = []) →
          ∀ x, memByte t x = memByte s x)

/-- ST and STX (R107 to R119, R128): the bytes of the data register's low end go where the access lies: into scratchpads at
once, into the core's own line of ordinary memory as dirty bytes (of two lines, where they lie in two sets); every other scratchpad byte is as before, and no
register is written. The model's choices in it: logs 27 and 63. -/
def Obligations.StoresWriteTheirBytes : Prop :=
  ∀ (s : State) (d a b : RegCode) (hA hB : Bool) (size : BitVec 2) (off : BitVec 11),
    let n := 2 ^ size.toNat
    let one : Srcs := { a := some a, more := [d] }
    let two : Srcs := { a := some a, b := some b, hA, hB, more := [d] }
    ∀ p ∈ ([(.st d a size off, one, s.th.readA a + off.signExtend 64 * BitVec.ofNat 64 n),
      (.stx d a b hA hB size, two, s.th.readA a + s.th.readB b * BitVec.ofNat 64 n)] : List (Instr × Srcs × Word)),
    let (i, r, va) := p
    MayIssue s 1 r [] → Inv s →
    match locate s .store va n with
    | .fault c x => exec i s = trap c x (BitVec.ofNat 64 n) s
    | .walk ctx page => ∃ t, exec i s = .next t ∧
        t = { s with walks := t.walks, walkQueue := t.walkQueue, th := { s.th with wait := .walk ctx page } }
    | .ok locs u =>
      if anyDev locs then
        if s.th.devStore then exec i s = stall .devStore u
        else ∃ t, exec i s = .next t ∧ Completes s (devLoss u locs) t r fun x => { x with devStore := true, devCtx := x.ctx }
      else ∃ t, exec i s = .next t ∧ Passes s t r ∧ t.parties = s.parties ∧ t.others = s.others ∧
        (∀ key, Loc.scratch key ∉ locs → cget t.scratch key = cget s.scratch key) ∧
        (locs.Nodup → ∀ j < n, let byte := ((s.th.value d).toNat / 256 ^ j) % 256
          match locs[j]? with
          | some (.scratch key) => (cget t.scratch key).toNat = byte
          | some (.mem pa) => waysOf s s.here ≠ 0 → (s.core s.here).gpool = false → reachable s (pa / 64 * 64) = true →
              (∀ x, Loc.mem x ∈ locs → x / 64 ≠ pa / 64 → x / 64 % 256 ≠ pa / 64 % 256) →
              ∃ l, findLine (t.portionOf s.here) (pa / 64) s.here = some l ∧
                tfind l.bytes (pa % 64) = some (BitVec.ofNat 8 byte, true)
          | _ => False)

/-- STX.REL (R119, R120, R265): the store's faults come before the release, which leaves nothing of the core's own lines
dirty beyond CORE scope; at CORE scope, and at a wider one once its release is acknowledged, it completes with its
bytes stored: in scratchpads as STX stores them, and those of ordinary memory at the home of its scope, where they are
read; a device store is sent (R128). The model's choices in it: logs 11, 23 and 65. -/
def Obligations.ReleasingStores : Prop :=
  ∀ (s : State) (d a b : RegCode) (hA hB dbl : Bool) (sc : Scope),
    let n := if dbl then 8 else 4
    let r : Srcs := { a := some a, b := some b, hA, hB, more := [d] }
    let i : Instr := .stxRel d a b hA hB dbl sc
    let va := s.th.readA a + s.th.readB b * BitVec.ofNat 64 n
    MayIssue s 1 r [] → Inv s →
    match locate s .store va n with
    | .fault c x => exec i s = trap c x (BitVec.ofNat 64 n) s
    | .walk ctx page => ∃ t, exec i s = .next t ∧ t.th = { s.th with wait := .walk ctx page }
    | .ok locs u =>
      (s.th.phase = .fresh → s.th.loads = [] → hintsPending s s.here = false → sc ≠ .core →
        let v := releaseAt (publish u sc) s.here sc
        exec i s = .next { v with th := { v.th with wait := .releaseAck } } ∧
        (sc = .party ∨ sc = .die ∨ s.mshrOf (dieOf s.here) = [] ∧ s.ingress = [] →
          ∀ h, groupOf h = groupOf s.here → ∀ l ∈ v.portionOf h, l.owner = s.here → l.dirtyBytes = [])) ∧
      ((s.th.phase = .released ∨ s.th.phase = .fresh ∧ sc = .core ∧ s.th.loads = [] ∧ hintsPending s s.here = false) →
        let base := if s.th.phase = .fresh then publish u .core else u
        if anyDev locs then s.th.devStore = false →
          ∃ t, exec i s = .next t ∧ Completes s (devLoss base locs) t r fun x => { x with devStore := true, devCtx := x.ctx }
        else ∃ t, exec i s = .next t ∧
          Passes s { t with th := { t.th with loads := s.th.loads, vload := s.th.vload } } r ∧
          (∀ key, Loc.scratch key ∉ locs → cget t.scratch key = cget s.scratch key) ∧
          (locs.Nodup → ∀ j < n, let byte := ((s.th.value d).toNat / 256 ^ j) % 256
            match locs[j]? with
            | some (.scratch key) => (cget t.scratch key).toNat = byte
            | some (.mem pa) => (waysOf s s.here ≠ 0 ∨ s.portionOf s.here = []) → Undisturbed s s.here →
                reachable s (pa / 64 * 64) = true →
                (∀ x, Loc.mem x ∈ locs → x / 64 ≠ pa / 64 → x / 64 % 256 ≠ pa / 64 % 256) →
                (homeByte t sc pa).toNat = byte
            | _ => False))

/-- LDBIT and STBIT (R121, R122): the field of N bits that begins at bit b of the bit string at a, in the local window
alone; STBIT leaves every other bit of the scratchpads. -/
def Obligations.BitAccess : Prop :=
  ∀ (s : State) (d a b : RegCode) (hA hB : Bool) (w : BitVec 4),
    let N := w.toNat + 1
    let y := (s.th.readB b).toNat
    let va := s.th.readA a + BitVec.ofNat 64 (y / 8)
    let span := (y % 8 + N + 7) / 8
    let bit := fun (t : State) (locs : List Loc) (k : Nat) => match locs[k / 8]? with
      | some (.scratch key) => (cget t.scratch key).getLsbD (k % 8)
      | _ => false
    (∀ sext : Bool, MayIssue s 1 { a := some a, b := some b, hA, hB } [d] →
      let i : Instr := if sext then .ldbitS d a b hA hB w else .ldbitU d a b hA hB w
      match locateBits s .load (byteAddrs va span) with
      | .fault c x => exec i s = trap c x (BitVec.ofNat 64 span) s
      | .walk _ _ => False
      | .ok locs u => u = s ∧ ∃ t ld, exec i s = .next t ∧
          Completes s { s with serial := t.serial } t { a := some a, b := some b, hA, hB }
            (fun x => { x.pend d with loads := x.loads ++ [ld] }) ∧
          ld.dst = d ∧ ld.sext = false ∧ ld.bytes.length = 8 ∧ (∀ p ∈ ld.bytes, p.2.isSome = true) ∧
          ∀ k < 64, (match ld.bytes[k / 8]? with
              | some (_, some x) => x.getLsbD (k % 8)
              | _ => false) =
            if k < N then bit s locs (y % 8 + k) else sext && bit s locs (y % 8 + N - 1)) ∧
    (MayIssue s 1 { a := some a, b := some b, hA, hB, more := [d] } [] → Inv s →
      let i : Instr := .stbit d a b hA hB w
      match locateBits s .store (byteAddrs va span) with
      | .fault c x => exec i s = trap c x (BitVec.ofNat 64 span) s
      | .walk _ _ => False
      | .ok locs _ => ∃ t, exec i s = .next t ∧
          Completes s { s with scratch := t.scratch } t { a := some a, b := some b, hA, hB, more := [d] } id ∧
          (∀ key, Loc.scratch key ∉ locs → cget t.scratch key = cget s.scratch key) ∧
          ∀ k < 8 * span, bit t locs k =
            if y % 8 ≤ k ∧ k < y % 8 + N then (s.th.value d).getLsbD (k - y % 8) else bit s locs k)

/-- LDX.ACQ (R119, R299, R301, R362): a load whose value is read at the home of the scope; bytes that another package's
LLC holds are asked for over Jenlink and awaited; the thread waits for the value and for the acquire. The model's
choices in it: logs 10, 24, 60 and 65. -/
def Obligations.AcquiringLoads : Prop :=
  ∀ (s : State) (d a b : RegCode) (hA hB dbl : Bool) (sc : Scope),
    let n := if dbl then 8 else 4
    let r : Srcs := { a := some a, b := some b, hA, hB }
    let i : Instr := .ldxAcq d a b hA hB dbl sc
    let va := s.th.readA a + s.th.readB b * BitVec.ofNat 64 n
    MayIssue s 1 r [d] → s.th.slotsHeld < 8 →
    match locate s .load va n with
    | .fault c x => exec i s = trap c x (BitVec.ofNat 64 n) s
    | .walk ctx page => ∃ t, exec i s = .next t ∧ t.th = { s.th with wait := .walk ctx page }
    | .ok locs u =>
      if anyDev locs then s.th.devStore = false → ∃ t ld, exec i s = .next t ∧ ld.dst = d ∧ ld.va = va ∧ ld.dev = true ∧
        Completes s { u with serial := t.serial } t r fun x =>
          { x.pend d with loads := x.loads ++ [ld], wait := .acqLoad ld.id sc }
      else
        let v := bringAll u sc locs
        ∃ t ld, exec i s = .next t ∧
        (Completes s { askAway v sc locs with serial := t.serial } { t with th := { t.th with loads := s.th.loads, vload := s.th.vload } } r
          fun x => { x.pend d with wait := .acqLoad ld.id sc }) ∧
        t.th.loads.getLast? = some ld ∧ ld.dst = d ∧ ld.va = va ∧ ld.sext = true ∧
        ld.bytes = (locs.zip (readHome v sc locs)).map fun p => match p.1 with
          | .mem pa => if peerHome v sc p.1 then (pa, none) else (0, some p.2)
          | _ => (0, some p.2)

/-- The atomics on scratchpads and on ordinary memory (R123 to R125, R119, R301): misalignment and faults trap, the release of
an ordering comes first, and then the old bytes at the scope's home are on their way to the destination and the new value is
written there in the same step. Where that home is another package, the operation with its operands goes there over Jenlink
and the old bytes are awaited (R362). The model's choices in it: logs 10, 24, 60 and 65. -/
def Obligations.AtomicsReadAndWrite : Prop :=
  ∀ (s : State) (d a b : RegCode) (hA hB dbl : Bool) (sc : Scope) (ord : BitVec 2),
    let n := if dbl then 8 else 4
    let one : Srcs := { a := some a, hA, more := [d] }
    let two : Srcs := { a := some a, b := some b, hA, hB, more := [d] }
    let low := fun (v : Word) => v.toNat % 256 ^ n
    let x := low (s.th.value d)
    let x32 := (s.th.value d).toNat % 2 ^ 32
    let new := low (s.th.readB b)
    let signed := fun (v : Nat) => if v < 256 ^ n / 2 then (v : Int) else (v : Int) - 256 ^ n
    ∀ p ∈ ([
      (.amoAdd d a sc ord dbl hA, one, n, true, true, 0, x, fun o => some ((o + x) % 256 ^ n)),
      (.amoAnd d a sc ord dbl hA, one, n, true, false, 1, x, fun o => some (o &&& x)),
      (.amoOr d a sc ord dbl hA, one, n, true, false, 2, x, fun o => some (o ||| x)),
      (.amoXor d a sc ord dbl hA, one, n, true, false, 3, x, fun o => some (o ^^^ x)),
      (.amoMin d a sc ord dbl hA, one, n, true, false, 4, x, fun o => some (if signed o ≤ signed x then o else x)),
      (.amoMax d a sc ord dbl hA, one, n, true, false, 5, x, fun o => some (if signed o ≤ signed x then x else o)),
      (.amoMinu d a sc ord dbl hA, one, n, true, false, 6, x, fun o => some (min o x)),
      (.amoMaxu d a sc ord dbl hA, one, n, true, false, 7, x, fun o => some (max o x)),
      (.amoXchg d a sc ord dbl hA, one, n, true, true, 8, x, fun _ => some x),
      (.amoFadd32 d a sc ord hA, one, 4, false, false, 9, x32, fun o => some ((fp32add o x32).1 % 2 ^ 32)),
      (.cas d a b hA hB sc ord dbl, two, n, true, true, 10, x + new * 256 ^ n, fun o => if o = x then some new else none)] :
      List (Instr × Srcs × Nat × Bool × Bool × Nat × Nat × (Nat → Option Nat))),
    let (i, r, m, sext, hostOk, code, arg, op) := p
    MayIssue s 1 r [d] → s.th.slotsHeld < 8 →
    let va := s.th.readA a
    if va.toNat % m ≠ 0 then exec i s = trap .misaligned va (BitVec.ofNat 64 m) s
    else match locate s .store va m with
    | .fault c y => exec i s = trap c y (BitVec.ofNat 64 m) s
    | .walk ctx page => ∃ t, exec i s = .next t ∧ t.th = { s.th with wait := .walk ctx page }
    | .ok locs u =>
      let host := locs.any fun l => match l with
        | .mem pa => isHost pa
        | _ => false
      let first := 2 ≤ ord.toNat ∧ s.th.phase = .fresh
      let ready := s.th.loads = [] ∧ hintsPending s s.here = false
      if anyDev locs || (!hostOk && host) then
        exec i s = trap .accessRights va (BitVec.ofNat 64 m) u
      else
        (first → s.th.loads ≠ [] → exec i s = stall .loads u) ∧
        (first → ready → sc ≠ .core → exec i s = stall .releaseAck (releaseAt (publish u sc) s.here sc)) ∧
        ((ord.toNat < 2 ∨ s.th.phase = .released ∨ first ∧ ready ∧ sc = .core) →
          let v := bringAll (if first then publish u .core else u) sc locs
          let old := readHome v sc locs
          let poisoned := poisonAt v locs
          let far := !poisoned && locs.any (peerHome v sc)
          ∃ t ld, exec i s = .next t ∧ t.th.loads.getLast? = some ld ∧ ld.dst = d ∧ ld.va = va ∧ ld.sext = sext ∧
            ld.bytes = ((locs.zip old).map fun q => match q.1 with
              | .mem pa => if far && peerHome v sc q.1 then (pa, none) else (0, some q.2)
              | _ => (0, some q.2)) ∧
            ld.poisoned = poisoned ∧
            (let done := if poisoned then v
               else if far then sendAtomic v locs m code arg (op (leNat old))
               else match op (leNat old) with
                 | some y => writeHome v sc locs (leBytes m y)
                 | none => v
             Completes s { done with serial := t.serial } { t with th := { t.th with loads := s.th.loads, vload := s.th.vload } } r
               fun y => { y.pend d with wait := if ord.toNat % 2 = 1 then .acqLoad ld.id sc else .none }) ∧
            (Inv s → allScratch locs = true → poisoned = false →
              readHome t sc locs = (match op (leNat old) with
                | some y => leBytes m y
                | none => old) ∧
              ∀ key, Loc.scratch key ∉ locs → cget t.scratch key = cget s.scratch key))

/-- Hints (R127): they complete on every address, never trap and write no register; one that names nothing they act on
changes nothing, CLWB leaves no dirty byte of the line in the core's portion, and CLINV beyond CORE no copy there.
The model's choices in it: log 38. -/
def Obligations.HintsComplete : Prop :=
  ∀ (s : State) (a : RegCode) (off : BitVec 8) (sc : Scope), MayIssue s 1 { a := some a } [] →
    let r : Srcs := { a := some a }
    let va := (s.th.readA a + off.signExtend 64 * 64) &&& ~~~63#64
    (∀ i ∈ ([.pref a off, .prefL2 a off, .clwb a sc off, .clinv a sc off] : List Instr),
      ∃ t, exec i s = .next t ∧ Passes s { t with th := { t.th with loads := s.th.loads, vload := s.th.vload } } r ∧
        (va.toNat / 2 ^ 32 = 0x7FFFFF → OnlyThread s t)) ∧
    ∀ pa u, va.toNat / 2 ^ 32 ≠ 0x7FFFFF → locateByte s .load va = .ok [.mem pa] u → sc ≠ .core →
      (∃ t, exec (.clwb a sc off) s = .next t ∧
        ∀ l ∈ t.portionOf s.here, l.no = pa / 64 → l.owner = s.here → l.dirtyBytes = []) ∧
      (∃ t, exec (.clinv a sc off) s = .next t ∧
        ∀ l ∈ t.portionOf s.here, ¬(l.no = pa / 64 ∧ l.owner = s.here)) ∧
      (waysOf s s.here ≠ 0 → (s.core s.here).prefs.length < 4 → ∃ t, exec (.pref a off) s = .next t ∧
        ∃ got, (pa / 64, got) ∈ (t.core s.here).prefs) ∧
      ∃ t, exec (.prefL2 a off) s = .next t ∧
        (s.ingress = [] → (s.mshrOf (dieOf s.here)).length < 64 →
          (∀ l, findLine (s.l2Lines (dieOf s.here)) (pa / 64) 0 = some l →
            covers (bytesOf l.bytes) (List.range 64) = false) →
          t.missing (dieOf s.here) (pa / 64) = true)

/-- Elementwise vector arithmetic (R149, R150, R151, R154): each active element takes the operation of its type on the
elements of va, of vb or the scalar, and of vd; flags of active elements are merged, and nothing else changes.
The model's choices in it: log 21. -/
def Obligations.VectorElementwiseResults : Prop :=
  ∀ (s : State) (vd va vb : BitVec 3) (q : BitVec 2) (ty : VType) (g : RegCode),
    let W := ty.width
    let r := s.th.rounding
    let sat := s.th.pfxFields.sat
    let float := fun (v : FVal × Flags) => ((fdeliver ty.fmt r sat v.1).1, v.2 ||| (fdeliver ty.fmt r sat v.1).2)
    let val := fun x => fdecode ty.fmt x
    let int := fun (x : Nat) => if x < 2 ^ (W - 1) ∨ ty = .u8 then (x : Int) else (x : Int) - 2 ^ W
    let byte := fun (x k : Nat) => let b := x / 256 ^ k % 256
      if b < 128 ∨ ty = .u8 then (b : Int) else (b : Int) - 256
    let fl := ruleOf ty
    ∀ p ∈ ([
      (.vadd vd va vb q ty, .vaddVs vd va q ty g, fl, W, fun x y _ =>
        if ty.isFloat then float (fadd r (val x) (val y)) else (x + y, 0)),
      (.vsub vd va vb q ty, .vsubVs vd va q ty g, fl, W, fun x y _ =>
        if ty.isFloat then float (fadd r (val x) (val y).neg) else (x + (2 ^ W - y), 0)),
      (.vmul vd va vb q ty, .vmulVs vd va q ty g, fl, W, fun x y _ =>
        if ty.isFloat then float (fmul (val x) (val y)) else (x * y, 0)),
      (.vmac vd va vb q ty, .vmacVs vd va q ty g, fl, W, fun x y d =>
        if ty.isFloat then float (ffma r (val d) (val x) (val y)) else (d + x * y, 0)),
      (.vmin vd va vb q ty, .vminVs vd va q ty g, none, W, fun x y _ =>
        if ty.isFloat then fminmax false ty.fmt ty.fmt ty.fmt r sat x y else (if int x ≤ int y then x else y, 0)),
      (.vmax vd va vb q ty, .vmaxVs vd va q ty g, none, W, fun x y _ =>
        if ty.isFloat then fminmax true ty.fmt ty.fmt ty.fmt r sat x y else (if int x ≤ int y then y else x, 0)),
      (.vshl vd va vb q ty, .vshlVs vd va q ty g, none, W, fun x y _ => (x * 2 ^ (y % W), 0)),
      (.vshr vd va vb q ty, .vshrVs vd va q ty g, none, W, fun x y _ => (x / 2 ^ (y % W), 0)),
      (.vsra vd va vb q ty, .vsraVs vd va q ty g, none, W, fun x y _ => ((int x / 2 ^ (y % W) % 2 ^ W).toNat, 0)),
      (.vand vd va vb q, .vandVs vd va q g, none, 32, fun x y _ => (x &&& y, 0)),
      (.vor vd va vb q, .vorVs vd va q g, none, 32, fun x y _ => (x ||| y, 0)),
      (.vxor vd va vb q, .vxorVs vd va q g, none, 32, fun x y _ => (x ^^^ y, 0)),
      (.vdot4 vd va vb q ty, .vdot4Vs vd va q ty g, none, 32, fun x y d =>
        (((d + (byte x 0 * byte y 0 + byte x 1 * byte y 1 + byte x 2 * byte y 2 + byte x 3 * byte y 3)) % 2 ^ 32 : Int).toNat,
          0))] : List (Instr × Instr × Option PfxRule × Nat × (Nat → Nat → Nat → Nat × Flags))),
    let (i, iVs, rule, w, f) := p
    let act := fun j => (s.th.mask q).getLsbD (j * w / 32)
    let x := laneElem w (s.th.vreg va)
    let d := laneElem w (s.th.vreg vd)
    (VClear s rule {} [] →
      ∃ t, exec i s = .next t ∧ VWrites s t {} vd w act fun j => f (x j) (laneElem w (s.th.vreg vb) j) (d j)) ∧
    (VClear s rule { more := [g] } [] →
      ∃ t, exec iVs s = .next t ∧ VWrites s t { more := [g] } vd w act fun j => f (x j) ((s.th.value g).toNat % 2 ^ w) (d j))

/-- VSEL and VCMP (R152): selection writes every lane by the mask; a comparison writes one mask bit for each active lane
and clears the others. The model's choices in it: log 21. -/
def Obligations.VectorSelectAndCompare : Prop :=
  ∀ (s : State) (vd va vb : BitVec 3) (q qd : BitVec 2) (ty : VType) (g : RegCode) (cond : BitVec 3),
    let m := s.th.mask q
    let x := laneElem 32 (s.th.vreg va)
    let int := fun (x : Nat) => if x < 2 ^ 31 then (x : Int) else (x : Int) - 2 ^ 32
    let cmp := fun (x y : Nat) =>
      let f := fun k => fcompare k (fdecode .fp32 x) (fdecode .fp32 y)
      if ty.isFloat ∧ cond.toNat < 4 then
        (if cond = 0 then f .eq else if cond = 1 then (!(f .eq).1, (f .eq).2) else if cond = 2 then f .lt else f .le)
      else
        (if cond = 0 then x == y else if cond = 1 then x != y else if cond = 2 then decide (int x < int y)
         else if cond = 3 then decide (int x ≤ int y) else if cond = 4 then decide (x < y) else decide (x ≤ y), 0)
    ∀ p ∈ ([(.vsel vd va vb q, .vcmp qd va vb q ty cond, {}, laneElem 32 (s.th.vreg vb)),
      (.vselVs vd va q g, .vcmpVs qd va q ty g cond, { more := [g] }, fun _ => (s.th.value g).toNat % 2 ^ 32)] :
      List (Instr × Instr × Srcs × (Nat → Nat))),
    let (sel, i, r, y) := p
    VClear s none r [] →
      (∃ t, exec sel s = .next t ∧ VWrites s t r vd 32 (fun _ => true) fun j => (if m.getLsbD j then x j else y j, 0)) ∧
      ∃ t b, exec i s = .next t ∧ (∀ j < 32, b.getLsbD j = (m.getLsbD j && (cmp (x j) (y j)).1)) ∧
        VDoes s t r fun u => (u.setMask qd b).raise
          ((List.range 32).foldl (fun a j => if m.getLsbD j then a ||| (cmp (x j) (y j)).2 else a) 0)

/-- VCVT (R153, R154): with a prefix that names a destination format and a part in range, the source elements of the
part are converted into the destination's slots; without them it takes ILLEGAL_PREFIX or ILLEGAL_INSTR.
The model's choices in it: log 21. -/
def Obligations.VectorConversion : Prop :=
  ∀ (s : State) (vd va part : BitVec 3) (q : BitVec 2) (ty : VType),
    let i : Instr := .vcvt vd va part q ty
    let p := s.th.pfxFields
    VClear s (some ruleVcvt) {} [] →
    if s.th.stat.pp = false then exec i s = trap .illegalInstr (evalWord (encode i)) 0 s
    else if p.fd = 0 then exec i s = trap .illegalPrefix (evalWord (encode i)) (evalWord s.th.pfx) s
    else
      let src := fmtOr ty.fmt p.fa
      let dst := fmtOr .fp32 p.fd
      let k := part.toNat
      let one := fun x => ((fextend dst (fconvert src dst s.th.rounding p.sat (x % 2 ^ src.width)).1).toNat % 2 ^ dst.slot,
        (fconvert src dst s.th.rounding p.sat (x % 2 ^ src.width)).2)
      let act := fun j => (s.th.mask q).getLsbD (j * dst.slot / 32)
      if src.slot ≤ dst.slot then
        if dst.slot / src.slot ≤ k then exec i s = trap .illegalInstr (evalWord (encode i)) 0 s
        else ∃ t, exec i s = .next t ∧ VWrites s t {} vd dst.slot act fun j =>
          one (laneElem src.slot (s.th.vreg va) (k * (1024 / dst.slot) + j))
      else
        let n := 1024 / src.slot
        if src.slot / dst.slot ≤ k then exec i s = trap .illegalInstr (evalWord (encode i)) 0 s
        else ∃ t, exec i s = .next t ∧
          VWrites s t {} vd dst.slot (fun j => decide (k * n ≤ j) && decide (j < k * n + n) && act j) fun j =>
            one (laneElem src.slot (s.th.vreg va) (j - k * n))

/-- Moves across lanes and between units (R155): broadcast, permutation, rotation and shuffles of active lanes, and the
extraction of one lane into a scalar register. The model's choices in it: log 21. -/
def Obligations.VectorLaneMoves : Prop :=
  ∀ (s : State) (vd va vb : BitVec 3) (q : BitVec 2) (ty : VType) (g : RegCode) (n : BitVec 5),
    let x := fun j => laneElem 32 (s.th.vreg va) (j % 32)
    let y := fun j => laneElem 32 (s.th.vreg vb) (j % 32)
    let c := (s.th.value g).toNat
    let act := fun j => (s.th.mask q).getLsbD j
    let shuf := fun j =>
      if c % 4 = 0 then (if j % 2 = 0 then x (j / 2) else y (j / 2))
      else if c % 4 = 1 then (if j % 2 = 0 then x (16 + j / 2) else y (16 + j / 2))
      else if c % 4 = 2 then (if j < 16 then x (2 * j) else y (2 * j))
      else (if j < 16 then x (2 * j + 1) else y (2 * j + 1))
    (VClear s none {} [] →
      ∃ t, exec (.vperm vd va vb q) s = .next t ∧ VWrites s t {} vd 32 act fun j => (x (y j), 0)) ∧
    (VClear s none { more := [g] } [] →
      (∃ t, exec (.vbcast vd q ty g) s = .next t ∧
        VWrites s t { more := [g] } vd ty.width (fun j => act (j * ty.width / 32)) fun _ => (c, 0)) ∧
      (∃ t, exec (.vrot vd va q g) s = .next t ∧ VWrites s t { more := [g] } vd 32 act fun j => (x (j + c), 0)) ∧
      (∃ t, exec (.vshuf vd va vb q g) s = .next t ∧ VWrites s t { more := [g] } vd 32 act fun j => (shuf j, 0))) ∧
    (VClear s none {} [g] →
      ∃ t, exec (.vext va n ty g) s = .next t ∧ VDoes s t {} fun u => u.writeSync g (fextend ty.fmt (x n.toNat)))

/-- Reductions and scans (R156, R61, R62): over the active elements; on integers the value is the fold of the operation
from its identity, sums wrap at 64 bits in VRED and at the element in VSCAN, and floats combine in the tree and in
the steps that R61 and R62 fix. The model's choices in it: log 21. -/
def Obligations.ReductionsAndScans : Prop :=
  ∀ (s : State) (vd va : BitVec 3) (q : BitVec 2) (ty : VType) (g : RegCode) (op : BitVec 3),
    let W := ty.width
    let m := s.th.mask q
    let elem := laneElem W (s.th.vreg va)
    let on := fun j => m.getLsbD (j * W / 32)
    let int := fun (x : Nat) => if x < 2 ^ (W - 1) ∨ ty = .u8 then (x : Int) else (x : Int) - 2 ^ W
    let pick := fun (le : Bool) (x y : Nat) => if le then x else y
    let f := fun (x y : Nat) =>
      if op = 1 then pick (decide (int x ≤ int y)) x y else if op = 2 then pick (decide (int x ≤ int y)) y x
      else if op = 3 then min x y else if op = 4 then max x y
      else if op = 5 then x &&& y else if op = 6 then x ||| y else x ^^^ y
    let fold := fun (n : Nat) => ((List.range n).filter on).foldl (fun a j => f a (elem j)) (redIdentity op ty)
    let sum := fun (n : Nat) => (((List.range n).filter on).map fun j => int (elem j)).sum
    let present := fun j => if on j then some (elem j) else none
    let bits := fun (r : Rnd) (sat : Bool) => redOp op ty W r sat
    (VClear s (ruleRed ty op) {} [g] →
      ∃ t v fl, exec (.vred va q ty g op) s = .next t ∧ VDoes s t {} (fun u => (u.writeSync g v).raise fl) ∧
        if ty.isFloat ∧ op.toNat < 3 then
          let x := tree (redOp op ty 64 s.th.rounding s.th.pfxFields.sat) ty.levels ((List.range (1024 / W)).map present)
          v = fextend ty.fmt (x.1.getD (redIdentity op ty)) ∧ fl = x.2
        else fl = 0 ∧ v = if op = 0 then BitVec.ofInt 64 (sum (1024 / W)) else fextend ty.fmt (fold (1024 / W))) ∧
    (VClear s (ruleRed ty op) {} [] →
      if ty.isFloat ∧ op.toNat < 3 then
        let x := scan (bits s.th.rounding s.th.pfxFields.sat) ty.levels 1 ((List.range (1024 / W)).map present)
        ∃ t v, exec (.vscan vd va q ty op) s = .next t ∧ VDoes s t {} (fun u => (u.setVreg vd v).raise x.2) ∧
          ∀ j < 1024 / W, laneElem W v j =
            if on j then ((x.1.getD j none).getD (redIdentity op ty)) % 2 ^ W else laneElem W (s.th.vreg vd) j
      else ∃ t, exec (.vscan vd va q ty op) s = .next t ∧ VWrites s t {} vd W on fun j =>
        (if op = 0 then (sum (j + 1) % 2 ^ W).toNat else fold (j + 1), 0))

/-- Mask registers (R157, R29): logic, counts, the first set bit, and the moves to and from a scalar register; q0 reads
all ones and ignores writes. The model's choices in it: log 21. -/
def Obligations.MaskInstructions : Prop :=
  ∀ (s : State) (qd qa qb : BitVec 2) (g : RegCode),
    let a := s.th.mask qa
    let b := s.th.mask qb
    s.th.mask 0 = BitVec.allOnes 32 ∧ s.th.setMask 0 a = s.th ∧
    (VClear s none {} [] → ∀ p ∈ ([(.mand qd qa qb, a &&& b), (.mor qd qa qb, a ||| b), (.mxor qd qa qb, a ^^^ b),
        (.mnot qd qa, ~~~a)] : List (Instr × W32)),
      ∃ t, exec p.1 s = .next t ∧ VDoes s t {} fun u => u.setMask qd p.2) ∧
    (VClear s none {} [g] →
      (∃ t, exec (.mpopc qa g) s = .next t ∧ VDoes s t {} fun u =>
        u.writeSync g (BitVec.ofNat 64 ((List.range 32).filter fun j => a.getLsbD j).length)) ∧
      (∃ t, ∃ n : Nat, exec (.mfirst qa g) s = .next t ∧ VDoes s t {} (fun u => u.writeSync g (BitVec.ofNat 64 n)) ∧
        n ≤ 32 ∧ (∀ j < n, a.getLsbD j = false) ∧ (n < 32 → a.getLsbD n = true)) ∧
      ∃ t, exec (.mrd qa g) s = .next t ∧ VDoes s t {} fun u => u.writeSync g (a.setWidth 64)) ∧
    (VClear s none { more := [g] } [] →
      ∃ t, exec (.mmov qd g) s = .next t ∧ VDoes s t { more := [g] } fun u => u.setMask qd ((s.th.value g).setWidth 32))

/-- Vector stores (R144, R145, R158 to R161, R385): walks come first, then the lowest fault; else the active lanes with their
bytes stand in the latch, and once the vector unit accepts them they are written in ascending lane order: each byte of a
scratchpad, and of ordinary memory as a dirty byte of the core's portion, is that of the highest lane that reaches
it, and no other byte of a scratchpad changes.
The model's choices in it: logs 21, 27 and 63. -/
def Obligations.VectorStores : Prop :=
  (∀ (s : State) (vd va : BitVec 3) (q : BitVec 2) (ty : VType) (g : RegCode),
    let one : Srcs := { more := [g] }
    let two : Srcs := { more := [g, g + 1] }
    let base := s.th.value g
    let on := (List.range 32).filter fun j => (s.th.mask q).getLsbD j
    let idx := fun (j : Nat) => (BitVec.ofNat 32 (laneElem 32 (s.th.vreg va) j)).signExtend 64
    ∀ p ∈ ([(.vst vd q g, one, 4, fun j => base + BitVec.ofNat 64 (4 * j)),
      (.vsts vd q g, two, 4, fun j => base + BitVec.ofNat 64 j * s.th.value (g + 1)),
      (.vscatter vd va q ty g, one, ty.width / 8, fun j => base + idx j * BitVec.ofNat 64 (ty.width / 8))] :
      List (Instr × Srcs × Nat × (Nat → Word))),
    let (i, r, n, addr) := p
    VClear s none r [] →
    let L := lookLanes .store n s (on.map fun j => (j, addr j))
    let dev := L.2.lanes.any fun x => anyDev x.2.2
    (∀ w ws, L.2.walks = w :: ws → ∃ t, exec i s = .next t ∧
      t = { s with walks := t.walks, walkQueue := t.walkQueue, th := { s.th with wait := .walk w.1 w.2 } }) ∧
    (L.2.walks = [] → ∀ k c x, L.2.fault = some (k, c, x) → exec i s = trap c x (BitVec.ofNat 64 (k * 256 + n)) s) ∧
    (L.2.walks = [] → L.2.fault = none → (dev = true → s.th.devStore = false) →
      L.2.lanes.map (fun x => (x.1, x.2.1)) = on.map (fun j => (j, addr j)) ∧
      ∃ t op, exec i s = .next t ∧ VLatches s L.1 t r op ∧
        op.spots = L.2.lanes.map (fun x => { lane := x.1, va := x.2.1, locs := x.2.2 }) ∧
        op.work = .store (L.2.lanes.map fun x => leBytes n (laneElem 32 (s.th.vreg vd) x.1)))) ∧
  ∀ (s : State) (k place : Nat) (op : VOp) (data : List (List Byte)), Accepts s k place op → op.work = .store data → Inv s →
    data.length = op.spots.length → (∀ p ∈ op.spots.zip data, p.1.locs.length = p.2.length) →
    let c := s.ev.n * 4 + k
    let from_ := accepted s k place
    let dev := op.spots.any fun x => anyDev x.locs
    ∃ t x, exec .vectorLatchAccept s = .next t ∧ Passes from_ { from_ with th := x } {} ∧
      t.th = { x with wait := .vector, devStore := from_.th.devStore || dev, devCtx := if dev then from_.th.ctx else from_.th.devCtx } ∧
      t.others = from_.others ∧ t.parties = s.parties ∧
      (∀ key, (∀ y ∈ op.spots, Loc.scratch key ∉ y.locs) → cget t.scratch key = cget s.scratch key) ∧
      ∀ (i : Nat) (y : VSpot) (bs : List Byte) (j : Nat) (l : Loc) (b : Byte), op.spots[i]? = some y → data[i]? = some bs → y.locs[j]? = some l → bs[j]? = some b → anyDev y.locs = false →
        (∀ j' > j, y.locs[j']? ≠ some l) → (∀ i' > i, ∀ z : VSpot, op.spots[i']? = some z → l ∉ z.locs) →
        match l with
        | .scratch key => cget t.scratch key = b
        | .mem pa => waysOf s c ≠ 0 → (s.core c).gpool = false → reachable s (pa / 64 * 64) = true →
            (∀ z ∈ op.spots, ∀ o, Loc.mem o ∈ z.locs → o / 64 ≠ pa / 64 → o / 64 % 256 ≠ pa / 64 % 256) →
            ∃ line, findLine (t.portionOf c) (pa / 64) c = some line ∧ tfind line.bytes (pa % 64) = some (b, true)
        | .dev _ => False

/-- Vector loads (R144, R145, R158 to R162, R385): the lanes stand in the latch; once the vector unit accepts them the thread
waits with the lanes to come, scratchpad bytes are known at once, and no register changes yet, nor a byte of memory
where the portion holds no dirty byte to evict. The model's choices in it: logs 3 and 86. -/
def Obligations.VectorLoadsGoOut : Prop :=
  (∀ (s : State) (vd va : BitVec 3) (q c : BitVec 2) (ty : VType) (g : RegCode),
    let one : Srcs := { more := [g] }
    let two : Srcs := { more := [g, g + 1] }
    let base := s.th.value g
    let on := (List.range 32).filter fun j => (s.th.mask q).getLsbD j
    let idx := fun (j : Nat) => (BitVec.ofNat 32 (laneElem 32 (s.th.vreg va) j)).signExtend 64
    let bytes := ty.width / 8
    let signed := decide (ty = .i32 ∨ ty = .i16 ∨ ty = .i8)
    let gat := fun j => base + idx j * BitVec.ofNat 64 bytes
    let spots := fun (lanes : List (Nat × Word × List Loc)) =>
      lanes.map fun x => ({ lane := x.1, va := x.2.1, locs := x.2.2 } : VSpot)
    (∀ p ∈ ([(.vld vd q g, one, 4, false, fun j => base + BitVec.ofNat 64 (4 * j)),
      (.vlds vd q g, two, 4, false, fun j => base + BitVec.ofNat 64 j * s.th.value (g + 1)),
      (.vgather vd va q ty g, one, bytes, signed, gat)] : List (Instr × Srcs × Nat × Bool × (Nat → Word))),
      let (i, r, n, sext, addr) := p
      VClear s none r [] →
      let L := lookLanes .load n s (on.map fun j => (j, addr j))
      (∀ w ws, L.2.walks = w :: ws → ∃ t, exec i s = .next t ∧
        t = { s with walks := t.walks, walkQueue := t.walkQueue, th := { s.th with wait := .walk w.1 w.2 } }) ∧
      (L.2.walks = [] → ∀ k c x, L.2.fault = some (k, c, x) → exec i s = trap c x (BitVec.ofNat 64 (k * 256 + n)) s) ∧
      (L.2.walks = [] → L.2.fault = none → ((L.2.lanes.any fun x => anyDev x.2.2) = true → s.th.devStore = false) →
        ∃ t op, exec i s = .next t ∧ VLatches s L.1 t r op ∧ op.spots = spots L.2.lanes ∧
          op.work = .load { vd := vd, sext := sext, width := n, lanes := [] })) ∧
    (VClear s none one [] →
      let L := gatherLanes bytes s (on.map fun j => (j, gat j))
      ((L.2.1.any fun x => anyDev x.2.2) = true → s.th.devStore = false) →
      ∃ t op m, exec (.vgatherP vd va c q ty g) s = .next t ∧ VLatches s L.1 t one op ∧ op.spots = spots L.2.1 ∧
        op.work = .load { vd := vd, sext := signed, width := bytes, lanes := [], mask := some (c, m) } ∧
        ∀ j < 32, m.getLsbD j = decide (j ∈ L.2.2))) ∧
  ∀ (s : State) (k place : Nat) (op : VOp) (v : VLoad), Accepts s k place op → op.work = .load v →
    let c := s.ev.n * 4 + k
    let from_ := accepted s k place
    ∃ t w, exec .vectorLatchAccept s = .next t ∧ t.th = { from_.th with vload := some w } ∧
      w.vd = v.vd ∧ w.sext = v.sext ∧ w.width = v.width ∧ w.mask = v.mask ∧
      t.scratch = s.scratch ∧ t.others = from_.others ∧
      ((s.core c).gpool = false → (∀ l ∈ s.portionOf c, l.dirtyBytes = []) → ∀ x, memByte t x = memByte s x) ∧
      w.lanes.length = op.spots.length ∧
      ∀ (n : Nat) (x : VSpot), op.spots[n]? = some x → ∃ l : VLane, w.lanes[n]? = some l ∧ l.lane = x.lane ∧ l.va = x.va ∧
        l.bytes.length = x.locs.length ∧
        ∀ j key : Nat, x.locs[j]? = some (.scratch key) → l.bytes[j]? = some (0, some (cget s.scratch key))

/-- VLDBIT and VSTBIT (R160, R158): lane k's field of N bits begins k x N bits after the position, in the local window alone;
the lowest faulting lane traps. Once the vector unit accepts them (R385), VLDBIT gives each active lane its field, zero- or
sign-extended, or the lowest lane that reads a poisoned word takes POISON, and VSTBIT writes the bits of its fields and
no others. The model's choices in it: logs 21 and 63. -/
def Obligations.VectorBitAccess : Prop :=
  let bit := fun (t : State) (locs : List Loc) (k : Nat) => match locs[k / 8]? with
    | some (.scratch key) => (cget t.scratch key).getLsbD (k % 8)
    | _ => false
  (∀ (s : State) (vd : BitVec 3) (q : BitVec 2) (g : RegCode) (w : BitVec 4),
    let N := w.toNat + 1
    let r : Srcs := { more := [g, g + 1] }
    let m := s.th.mask q
    let first := fun (k : Nat) => (s.th.value (g + 1)).toNat + k * N
    let span := fun k => (first k % 8 + N + 7) / 8
    let start := fun k => s.th.value g + BitVec.ofNat 64 (first k / 8)
    let places := fun (k : Nat) (acc : Access) => locateBits s acc (byteAddrs (start k) (span k))
    let spots := fun acc => ((List.range 32).filter fun k => m.getLsbD k).map fun k => ({ lane := k, va := start k, bit := first k % 8, locs := match places k acc with | .ok locs _ => locs | _ => [] } : VSpot)
    VClear s none r [] →
    ∀ p ∈ ([(.vldbitU vd q g w, .load, .loadBits vd false N), (.vldbitS vd q g w, .load, .loadBits vd true N),
      (.vstbit vd q g w, .store, .storeBits N ((spots .store).map fun x => laneElem 32 (s.th.vreg vd) x.lane))] :
      List (Instr × Access × VWork)),
    let (i, acc, work) := p
    (∀ k < 32, m.getLsbD k = true → ∀ c x, places k acc = .fault c x →
      (∀ j < k, m.getLsbD j = true → ∃ locs u, places j acc = .ok locs u) →
        exec i s = trap c x (BitVec.ofNat 64 (k * 256 + span k)) s) ∧
    ((∀ k < 32, m.getLsbD k = true → ∃ locs, places k acc = .ok locs s) →
      ∃ t op, exec i s = .next t ∧ VLatches s s t r op ∧ op.work = work ∧ op.spots = spots acc)) ∧
  ∀ (s : State) (k place : Nat) (op : VOp), Accepts s k place op → Inv s →
    (∀ x ∈ op.spots, allScratch x.locs = true ∧ x.locs.Nodup) →
    let from_ := accepted s k place
    let ended := fun (t : State) (f : Thread → Thread) => ∃ x, Passes from_ { from_ with th := x } {} ∧ t.th = { f x with wait := .vector }
    (∀ vd sext n, op.work = .loadBits vd sext n → 0 < n → n ≤ 16 →
      (∀ (i : Nat) (x : VSpot), op.spots[i]? = some x → poisonAt s x.locs = true → (∀ j < i, ∀ y : VSpot, op.spots[j]? = some y → poisonAt s y.locs = false) →
        exec .vectorLatchAccept s = .next (takeTrap .poison x.va (BitVec.ofNat 64 (x.lane * 256 + x.locs.length)) from_)) ∧
      ((∀ x ∈ op.spots, poisonAt s x.locs = false) → ∃ t v, exec .vectorLatchAccept s = .next t ∧
        OnlyThread from_ t ∧ ended t (fun x => x.setVreg vd v) ∧
        ∀ k < 32, ∀ j < 32, (v.toList.getD k 0).getLsbD j = match op.spots.find? (fun x => x.lane == k) with
          | some x => if j < n then bit s x.locs (x.bit + j) else sext && bit s x.locs (x.bit + n - 1)
          | none => ((from_.th.vreg vd).toList.getD k 0).getLsbD j)) ∧
    ∀ n vals, op.work = .storeBits n vals → vals.length = op.spots.length → (∀ x ∈ op.spots, x.bit + n ≤ 8 * x.locs.length) →
      let at_ := fun (x : VSpot) (j key b : Nat) => x.locs[(x.bit + j) / 8]? = some (.scratch key) ∧ (x.bit + j) % 8 = b
      ∃ t, exec .vectorLatchAccept s = .next t ∧ ended t id ∧ OnlyThread { from_ with scratch := t.scratch } t ∧
        (∀ key b, b < 8 → (∀ x ∈ op.spots, ∀ j < n, ¬at_ x j key b) →
          (cget t.scratch key).getLsbD b = (cget s.scratch key).getLsbD b) ∧
        ∀ (i : Nat) (x : VSpot) (v j key b : Nat), op.spots[i]? = some x → vals[i]? = some v → j < n → at_ x j key b →
          (∀ i' > i, ∀ y : VSpot, op.spots[i']? = some y → ∀ j' < n, ¬at_ y j' key b) →
          (cget t.scratch key).getLsbD b = v.testBit j

/-- ARM, ARM.ACQ, CAPR, CAPI and CAPCHK (R174, R170 to R173): arming waits for a PENDING register alone; capabilities carry
the rank, the register or ring size, the generation and the rights at their places, with the check of their key, and
CAPCHK numbers the first defect. -/
def Obligations.ArmingAndCapabilities : Prop :=
  ∀ (s : State) (d a b : RegCode) (hA : Bool) (sc : Scope) (rights : BitVec 2),
    let t := s.th
    let key := s.keyOf t.party.surv.toNat
    let x := t.reg d.toNat
    (MayIssue s 1 {} [] → ∀ p ∈ ([(.arm d, none), (.armAcq d sc, some sc)] : List (Instr × Option Scope)),
      if x.sb = .pending then exec p.1 s = stall (.reg d) s
      else ∃ t, exec p.1 s = .next t ∧ Completes s s t {} fun u =>
        u.setReg d.toNat { x with
          sb := if x.sb = .ready then .armed else x.sb, ra := x.sb != .ready && x.ra, ex := true, aq := p.2 }) ∧
    (MayIssue s 1 {} [d] →
      let minted := fun (c v : Word) => v = c ||| (capCheck key c).setWidth 64 ∧ c.setWidth 16 = 0#16
      (∃ u v, exec (.capr d b rights) s = .next u ∧ Computes s u {} d v 0 ∧
        minted (1#2 ++ t.rank.pkg ++ t.rank.thr ++ b ++ t.rank.gen ++ rights ++ 0#22) v) ∧
      ∃ u v, exec (.capi d) s = .next u ∧ Computes s u {} d v 0 ∧
        minted (2#2 ++ t.rank.pkg ++ t.rank.thr ++ 0#2 ++ t.inbox.size ++ t.rank.gen ++ 1#2 ++ 0#22) v) ∧
    (MayIssue s 1 { a := some a, hA } [d] →
      let c := t.readA a
      let kind := c.extractLsb' 62 2
      ∃ u, exec (.capchk d a hA) s = .next u ∧ Computes s u { a := some a, hA } d
        (if kind ≠ 1 ∧ kind ≠ 2 then 1
         else if c.extractLsb' 22 2 = 0 ∨ kind = 2 ∧ c.extractLsb' 22 2 ≠ 1 then 2
         else if c.extractLsb' 16 6 ≠ 0 ∨ kind = 2 ∧ c.extractLsb' 36 2 ≠ 0 ∨ kind = 1 ∧ 55 < (c.extractLsb' 32 6).toNat then 3
         else if capCheck key c = c.setWidth 16 then 0 else 4) 0)

/-- SENDR in its four forms (R175, R179): a malformed capability traps; the message leaves for its target and one more send
is outstanding; the blocking forms then wait at the instruction for their synchronising step. A releasing form is shown
at CORE scope, and at a wider one once its release is acknowledged. The model's choices in it: log 65. -/
def Obligations.RegisterSends : Prop :=
  ∀ (s : State) (a b : RegCode) (hA hB : Bool) (sc : Scope),
    let r : Srcs := { a := some a, b := some b, hA, hB }
    let c := s.th.readA a
    let free := s.th.phase = .released ∨ s.th.phase = .fresh ∧ sc = .core ∧ s.th.loads = [] ∧ hintsPending s s.here = false
    ∀ p ∈ ([(.sendr a b hA hB, false, false), (.sendrRel a b hA hB sc, true, false), (.sendrW a b hA hB, false, true),
      (.sendrWRel a b hA hB sc, true, true)] : List (Instr × Bool × Bool)),
    let (i, rel, blk) := p
    let base := if rel ∧ s.th.phase = .fresh then publish s .core else s
    let sent : State := { base with
      flight := s.flight ++ [.send c (s.th.readB b) (s.th.rank.pkg ++ s.th.rank.thr) none s.here] }
    (s.th.phase ≠ .sent → MayIssue s 1 r [] →
      let bad := if capKind c ≠ 1 then 1 else if capRights c = 0 then 2
        else if nbits c.toNat 16 6 ≠ 0 ∨ 55 < capReg c then 3 else 0
      if bad ≠ 0 then exec i s = trap .capability c (BitVec.ofNat 64 bad) s
      else (rel = false ∨ free) →
        ∃ t, exec i s = .next t ∧
          if blk then OnlyThread sent t ∧ t.th = { s.th.consume r with
            sends := s.th.sends + 1, phase := .sent, wait := .sends, leftAt := t.th.leftAt }
          else Completes s sent t r fun u => { u with sends := u.sends + 1 }) ∧
    (s.th.phase = .sent → blk = true →
      if s.th.sends ≠ 0 then exec i s = stall .sends s
      else match s.th.refused with
        | none => ∃ t, exec i s = .next t ∧ OnlyThread s t ∧ Passes s t {}
        | some x => exec i s = trap .sendRefused x.cap (x.more.setWidth 64 <<< 8 ||| x.sub.setWidth 64)
            { s with th := { s.th with refused := none } })

/-- CHSEND in its four forms (R180): the capability, the size and the source range are judged; a full send buffer waits;
the message is entered in the buffer and counts as outstanding. The model's choices in it: logs 30 and 65. -/
def Obligations.ChannelSends : Prop :=
  ∀ (s : State) (d a b : RegCode) (hA hB : Bool) (sc : Scope),
    let r : Srcs := { a := some a, b := some b, hA, hB, more := [d] }
    let c := s.th.readA a
    let n := (s.th.value d).toNat
    let va := s.th.readB b
    let L := 8 + 8 * ((n + 7) / 8)
    let free := s.th.phase = .released ∨ s.th.phase = .fresh ∧ sc = .core ∧ s.th.loads = [] ∧ hintsPending s s.here = false
    let size := (s.core s.here).lmsplit.toNat * 16384
    let off := va.toNat % 2 ^ 17
    s.th.phase ≠ .sent → MayIssue s 1 r [] →
    ∀ p ∈ ([(.chsend d a b hA hB, false, false), (.chsendRel d a b hA hB sc, true, false),
      (.chsendBlk d a b hA hB, false, true), (.chsendBlkRel d a b hA hB sc, true, true)] : List (Instr × Bool × Bool)),
    let (i, rel, blk) := p
    if capDefect c ≠ 0 then exec i s = trap .capability c (BitVec.ofNat 64 (capDefect c)) s
    else if capKind c = 1 ∧ n ≠ 8 ∨ capKind c = 2 ∧ (65528 < n ∨ 256 * 2 ^ capSize c - 8 < L) then
      exec i s = trap .msgTooLarge c (BitVec.ofNat 64 n) s
    else if n ≠ 0 ∧ ¬(inWindow va.toNat = true ∧ windowKey s va.toNat = some (s.here * 2 ^ 17 + off)) then
      exec i s = trap .localRange va (BitVec.ofNat 64 n) s
    else if n ≠ 0 ∧ size < off + n then
      exec i s = trap .localRange (va + BitVec.ofNat 64 (size - off)) (BitVec.ofNat 64 n) s
    else
      if 8 ≤ s.th.sendBuf.length then exec i s = stall .sendBuf s
      else (rel = false ∨ free) →
        let m : OutMsg := { id := s.serial, cap := c, off := if n = 0 then 0 else off, len := n }
        let base := if rel ∧ s.th.phase = .fresh then publish s .core else s
        let u : State := { base with serial := s.serial + 1 }
        ∃ t, exec i s = .next t ∧
          if blk then OnlyThread u t ∧ t.th = { s.th.consume r with
            sends := s.th.sends + 1, sendBuf := s.th.sendBuf ++ [m], phase := .sent, wait := .sends, leftAt := t.th.leftAt }
          else Completes s u t r fun u => { u with sends := u.sends + 1, sendBuf := u.sendBuf ++ [m] }

/-- CHRECV and CHPOLL (R181, R183): without a ring LOCAL_RANGE; the held message is freed and a skip followed; an empty
ring is reset, and then CHPOLL answers 0 and CHRECV waits; else the message is held and its descriptor is the result.
The model's choices in it: log 20. -/
def Obligations.ChannelReceives : Prop :=
  ∀ (s : State) (d : RegCode) (sc : Scope), MayIssue s 1 {} [d] →
    let t := s.th
    let ring := 256 * 2 ^ t.inbox.size.toNat
    let head := fun (pos : Nat) => leNat (cgets s.scratch (s.here * 2 ^ 17 + (t.inbox.base.toNat + pos)) 8)
    let at0 := t.heldMsg.getD t.rpos.toNat
    let skip := fun pos => if pos = t.wpos.toNat then pos else if head pos % 256 = 2 then 0 else pos
    let pos := skip (skip at0)
    let h := head pos
    let len := h / 2 ^ 16 % 2 ^ 16
    let next := (pos + (8 + 8 * ((len + 7) / 8))) % ring
    ∀ p ∈ ([(.chrecv d, false, none), (.chrecvAcq d sc, false, some sc), (.chpoll d, true, none),
      (.chpollAcq d sc, true, some sc)] : List (Instr × Bool × Option Scope)),
    let (i, poll, aq) := p
    if t.inbox.en = false then exec i s = trap .localRange 0 0 s
    else if pos = t.wpos.toNat then
      let reset : Thread := { t with heldMsg := none, wpos := 0, rpos := 0 }
      if poll then ∃ u, exec i s = .next u ∧ Completes { s with th := reset } s u {} fun u => u.writeSync d 0
      else exec i s = .next { s with th := { reset with wait := .ring } }
    else pos < 2 ^ 16 →
      ∃ u v, exec i s = .next u ∧
        (Completes { s with th := { t with heldMsg := some next, rpos := BitVec.ofNat 16 pos } } s u {} fun u =>
          { u.writeSync d v with wait := match aq with
              | some sc => .acquire sc true
              | none => .none }) ∧
        v = BitVec.ofNat 64 (h / 2 ^ 40 % 2 ^ 24 * 2 ^ 40 + len * 2 ^ 24 + (t.inbox.base.toNat + pos + 8))

/-- TRIG and EXIT (R185, R186, R16, R12): the release at SYS scope comes first, and EXIT's before it the thread's sends
and a refusal recorded; then TRIG marks the party triggered, once; EXIT ends the thread, trap-terminated in supervisor
mode, and with the last thread and no command left the party. BAR (R184, R179): misuse in supervisor mode, the
synchronising step and the release, one arrival in the party's episode, which opens with the last, and completion
after the acquire. The model's choices in it: logs 11 and 65. -/
def Obligations.BarrierTriggerExit : Prop :=
  (∀ (s : State), MayIssue s 1 {} [] → s.th.phase = .fresh →
    let t := s.th
    let waits := fun i (u : State) w => exec i s = .next { u with th := { u.th with wait := w } }
    (t.loads ≠ [] → waits .trig s .loads) ∧
    (∀ i : Instr, i = .exit ∨ i = .bar ∧ t.stat.mode = false → (t.sends ≠ 0 → waits i s .sends) ∧
      ∀ x, t.sends = 0 → t.refused = some x → exec i s =
        trap .sendRefused x.cap (BitVec.ofNat 64 (x.more.toNat * 256 + x.sub.toNat)) { s with th := { t with refused := none } }) ∧
    (t.loads = [] → hintsPending s s.here = false →
      waits .trig (releaseAt (publish s .sys) s.here .sys) .releaseAck ∧
      (t.sends = 0 → t.refused = none → waits .exit (releaseAt (publish s .sys) s.here .sys) .releaseAck)) ∧
    (t.sends = 0 → t.refused = none → t.loads ≠ [] → waits .exit s .loads)) ∧
  (∀ (s : State), MayIssue s 1 {} [] → s.th.phase = .released →
    let t := s.th
    let p := s.party t.pid
    let me := t.party.tidx.toNat
    (∃ u, exec .trig s = .next u ∧ Passes s u {} ∧ (u.party t.pid).triggered = true ∧
      (p.triggered = true → OnlyThread s u) ∧ u.mem = s.mem ∧ u.scratch = s.scratch) ∧
    ((tfind s.parties t.pid).isSome = true →
      let others := (List.range p.nthr).filter fun k => k != me && !p.gone.contains k
      ∃ u, exec .exit s = .next u ∧
        (others ≠ [] → u.th.status = .ended ∧ (u.gazOf t.rank.thr.toNat).st = .dead ∧ (u.party t.pid).gone = sadd p.gone me ∧
          (u.party t.pid).trapped = (p.trapped || t.stat.mode) ∧ u.mem = s.mem ∧ u.scratch = s.scratch ∧ u.others = s.others) ∧
        (others = [] → (p.cores.any (commandsOpen s t.pid)) = false → u.parties = tdel s.parties t.pid))) ∧
  ∀ (s : State), MayIssue s 1 {} [] →
    let t := s.th
    let p := s.party t.pid
    let me := t.party.tidx.toNat
    (t.stat.mode = true → exec .bar s = trap .barrierMisuse (evalWord (encode .bar)) 0 s) ∧
    (t.stat.mode = false →
      (t.phase = .fresh → t.sends = 0 → t.refused = none → t.loads = [] → hintsPending s s.here = false →
        exec .bar s = .next { releaseAt (publish s .party) s.here .party with th := { t with wait := .releaseAck } }) ∧
      (t.phase = .released →
        ∃ u, exec .bar s = .next u ∧
          u = { s with parties := u.parties, th := { t with phase := .arrived p.episode, wait := .barrier p.episode } } ∧
          (∀ n, n ≠ t.pid → u.party n = s.party n) ∧
          if (List.range p.nthr).all fun k => k == me || p.arrived.contains k || p.gone.contains k then
            u.party t.pid = { p with episode := p.episode + 1, arrived := [] }
          else u.party t.pid = { p with arrived := sadd p.arrived me }) ∧
      (∀ ep, t.phase = .arrived ep →
        exec .bar s = if ep < p.episode then stall (.acquire .party false) s else stall (.barrier ep) s) ∧
      (t.phase = .acquired → ∃ u, exec .bar s = .next u ∧ OnlyThread s u ∧ Passes s u {}))

/-- SRV (R165 to R167): an unbound selector takes SERVE_POISON; otherwise the call is made: the result registers are
PENDING, the packet with the argument words stands in the cluster for the server's entry port, a request for its
region is there unless the region is, and the thread leaves the rotation at the instruction. The call has a
release at CORE scope. The model's choices in it: log 65. -/
def Obligations.ServeCalls : Prop :=
  ∀ (s : State) (d a b : RegCode) (nr na : BitVec 2) (sel : BitVec 4),
    let i : Instr := .srv d a b nr na sel
    let rest : List RegCode := if na = 0 ∨ na = 1 then [] else if na = 2 then [a + 1] else [a + 1, b + 1]
    let r : Srcs := { a := some a, b := if na = 0 then none else some b, more := rest }
    let res := (List.range (nr.toNat + 1)).map fun k => d + BitVec.ofNat 6 k
    let bind := s.th.srvtab[sel.toNat]
    let server := if bind.v then serverOf s bind.img.toNat bind.sidx.toNat else none
    MayIssue s 8 r [] →
    (server = none → exec i s = trap .servePoison 0xFFFF 0xFF s) ∧
    (server ≠ none → (∀ c ∈ res, Writable s.th c) → s.th.phase = .fresh → s.th.loads = [] → hintsPending s s.here = false →
      let seq := s.th.srvSeq + 1
      let tag := (s.here % 64 * 16 + s.th.place % 16) * 64 + seq.toNat
      let cl := clusterOf s.here
      ∃ t pk, exec i s = .next t ∧
        t = { publish s .core with
              clusters := t.clusters, th := t.th, serial := s.serial + 1, clock := t.clock, lastSlot := t.lastSlot } ∧
        (∀ n, n ≠ cl → t.cluster n = s.cluster n) ∧
        t.th.pc = s.th.pc ∧ t.th.wait = .srv ∧ t.th.srvSeq = seq ∧ t.th.z0 = s.th.z0 ∧ t.th.z1 = s.th.z1 ∧
        (∀ c ∈ res, c.toNat < 56 → t.th.reg c.toNat = { val := (s.th.reg c.toNat).val, sb := .pending }) ∧
        (∃ call, t.th.srvCall = some call ∧ call.tag = tag ∧ call.id = s.serial ∧ call.d = d ∧ call.nr = nr.toNat + 1) ∧
        (t.cluster cl).packets = (s.cluster cl).packets ++ [pk] ∧ pk.img = bind.img.toNat ∧
        server = some (pk.ridx, pk.ent) ∧ pk.pkt.tag.toNat = tag ∧ pk.pkt.nr = nr.toNat + 1 ∧
        pk.pkt.args = ([a, b, a + 1, b + 1].take (na.toNat + 1)).map (fun c =>
          if c = a then s.th.readA a else if c = b then s.th.readB b else s.th.value c) ∧
        pk.pkt.caller.place = s.th.place ∧ pk.pkt.caller.id = s.serial ∧
        ((regionFor (s.cluster cl) bind.img.toNat pk.ridx s.th.party.surv.toNat).isSome = true ∨
          ∃ q ∈ (t.cluster cl).reqs, q.img = bind.img.toNat ∧ q.ridx = pk.ridx ∧ q.surv = s.th.party.surv.toNat))

/-- The commands of the plane, gather and fabric engines (R190, R205, R214, R215, R223, R224): a snapshot that breaks
one of its checks takes ENGINE_FAULT, a window range outside the scratchpads LOCAL_RANGE, a full context makes
the thread wait; else the release comes first, and once it is acknowledged the command is queued with the next number
and a copy of the engine registers. The model's choices in it: logs 30, 40 and 65. -/
def Obligations.EngineCommands : Prop :=
  ∀ (s : State) (ctx : BitVec 2) (sc : Scope),
    let tiles := fun f => if f = 12 then 8 else if f = 10 ∨ f = 4 ∨ f = 5 then 2
      else if f = 9 ∨ f = 8 ∨ f = 3 ∨ f = 2 then 1 else 0
    let bytes := fun f => if f = 8 ∨ f = 11 ∨ f = 4 ∨ f = 5 then 1 else if f = 3 ∨ f = 2 then 2 else 0
    let settled := s.th.phase = .fresh ∧ s.th.loads = [] ∧ hintsPending s s.here = false
    ∀ p ∈ ([(.planeLdw ctx sc, 1, 1), (.planeRun ctx sc, 1, 2), (.planeFid ctx sc, 1, 3), (.planeCnt ctx sc, 1, 4),
      (.gatherRows ctx sc, 2, 1), (.fabLoad ctx sc, 3, 1), (.fabEvict ctx sc, 3, 2), (.fabSeed ctx sc, 3, 3),
      (.fabSnap ctx sc, 3, 4)] : List (Instr × Nat × Nat)),
    let (i, eng, code) := p
    let x := s.ctx s.here eng ctx.toNat
    let g := fun n => (tget 0 x.regs n).toNat
    let legal :=
      (eng = 1 → code ≤ 3 → g 1 < 2 ^ 25 ∧ tiles (g 1 % 16) ≠ 0 ∧ g 1 / 2 ^ 4 % 2 ^ 10 ≠ 0 ∧ g 1 / 2 ^ 4 % 2 ^ 10 ≤ 512 ∧
        g 1 / 2 ^ 14 % 2 ^ 7 ≠ 0 ∧ g 1 / 2 ^ 14 % 2 ^ 7 ≤ 64) ∧
      (eng = 1 → code = 1 → g 1 / 2 ^ 21 % 8 < tiles (g 1 % 16) ∧ g 2 < 2 ^ 32) ∧
      (eng = 1 → code = 2 → g 3 < 2 ^ 21 ∧ bytes (g 3 % 16) ≠ 0 ∧ g 3 / 2 ^ 4 % 2 ^ 7 ≠ 0 ∧
        g 3 / 2 ^ 4 % 2 ^ 7 ≤ 64 / bytes (g 3 % 16) ∧ g 3 / 2 ^ 13 % 2 ^ 8 ≠ 0 ∧ g 3 / 2 ^ 13 % 2 ^ 8 < 2 ^ tiles (g 1 % 16)) ∧
      (eng = 1 → code = 2 ∨ code = 3 → g 5 < 4) ∧
      (eng = 2 → g 1 < 2 ^ 22 ∧ bytes (g 1 % 16) ≠ 0 ∧ g 1 / 2 ^ 4 % 2 ^ 10 ≠ 0 ∧ g 1 / 2 ^ 4 % 2 ^ 10 ≤ 512 ∧
        g 1 / 2 ^ 14 % 2 ^ 7 ≠ 0 ∧ g 1 / 2 ^ 14 % 2 ^ 7 ≤ 64 / bytes (g 1 % 16)) ∧
      (eng = 3 → g 0 < 2 ^ 40 ∧ g 0 / 2 ^ 20 % 16 = 0 ∧ g 0 % 2 ^ 16 = 0) ∧
      (eng = 3 → code = 3 ∨ code = 4 → g 2 < 2 ^ 24) ∧ (eng = 3 → code = 3 → g 2 % 2 ^ 12 ≠ 0)
    let ranges := if eng = 1 ∧ code = 1 then weightRanges x.regs else if eng = 2 then [(g 0, 4 * (g 1 / 2 ^ 14 % 2 ^ 7))]
      else if eng = 3 ∧ code = 3 then [(g 1, 8 * (g 2 % 2 ^ 12))] else if eng = 3 ∧ code = 4 then [(g 1, 8)] else []
    MayIssue s (if eng = 3 then 32 else 16) {} [] →
    (¬legal → ∃ n < 6, exec i s = trap .engineFault (BitVec.ofNat 64 (eng * 256 + n)) (BitVec.ofNat 64 ((encode i).toNat % 256)) s) ∧
    (legal → match firstBreach s ranges with
      | some (va, n) => exec i s = trap .localRange (BitVec.ofNat 64 va) (BitVec.ofNat 64 n) s
      | none =>
        if 16 ≤ (x.queue.filter (!·.done)).length then exec i s = stall (.room eng ctx.toNat) s
        else (settled → exec i s =
            stall .releaseAck (releaseAt (publish s sc) s.here (if sc = .core then .party else sc))) ∧
          (s.th.phase = .released → ∃ t, exec i s = .next t ∧
          let cmd : Cmd := { num := x.nextn, code := code, scope := sc.code, regs := x.regs, sup := s.th.stat.mode,
                             place := s.th.place, pid := s.th.pid, ctxid := s.th.ctx.toNat, surv := s.th.party.surv.toNat,
                             fidmax := s.th.fidmax.toNat, order := s.serial }
          Completes s { s.setCtx s.here eng ctx.toNat { x with nextn := x.nextn + 1, queue := x.queue ++ [cmd] } with
            serial := s.serial + 1 } t {} id))

/-- COPY commands (R190, R201, R204, R205, R209, R212): handles are checked first, then the snapshot and the window
ranges, those of an armed follow-on too; then the command, once its release is acknowledged, takes the next number of
its context and after it the follow-on that of its own, the destination handle is FILLING and the source handle
DRAINING. A full context or a handle in another state makes the thread wait. The model's choices in it: logs 30, 40, 65
and 76. -/
def Obligations.CopyCommands : Prop :=
  (∀ (r : Table Word) (dst : Nat), (tget 0 r 3 = 0) → (tget 0 r 10 = 0) →
    (copyBreaks 1 r false dst = [] ↔ 0 < (tget 0 r 2).toNat ∧ (tget 0 r 2).toNat ≤ 2 ^ 32)) ∧
  ∀ (s : State) (ctx : BitVec 2) (a b : RegCode) (sc : Scope),
    let r : Srcs := { a := some a, b := some b }
    let vs := s.th.readA a
    let vd := s.th.readB b
    let hs := vs.toNat / 2 ^ 11
    let hd := vd.toNat / 2 ^ 11
    let live := fun (h : Word) => h = 0 ∨ h.toNat < 2 ^ 16 ∧ (s.handle s.here (h.toNat / 2 ^ 11)).gen = h.toNat % 2 ^ 11
    let x := s.ctx s.here 0 ctx.toNat
    let g := fun n => (tget 0 x.regs n).toNat
    let dst := if vd = 0 then g 1 else (s.handle s.here hd).off
    let window := fun (off : Nat) =>
      0x7FFFFF * 2 ^ 32 + (tget {} s.parties s.th.pid).cores.idxOf s.here * 2 ^ 17 + off
    let settled := fun (h : Word) (n : Nat) => BitVec.ofNat 64
      (if h ≠ 0 then window (s.handle s.here (h.toNat / 2 ^ 11)).off
       else if g n / 2 ^ 32 = 0x7FFFFF ∧ g n / 2 ^ 17 % 128 = 0x7F then window (g n % 2 ^ 17) else g n)
    let full := fun (x : EngCtx) => 16 ≤ (x.queue.filter (!·.done)).length
    let follows := 2 ^ 63 ≤ g 10
    let fe := g 10 / 2 ^ 60 % 8
    let fn := g 10 / 2 ^ 58 % 4
    let fc := g 10 / 2 ^ 50 % 32
    let y := s.ctx s.here fe fn
    let make := fun (x : EngCtx) (regs : Table Word) (code order : Nat) => ({
      num := x.nextn, code := code, scope := sc.code, regs := regs, sup := s.th.stat.mode, place := s.th.place
      pid := s.th.pid, ctxid := s.th.ctx.toNat, surv := s.th.party.surv.toNat, fidmax := s.th.fidmax.toNat
      order := order } : Cmd)
    MayIssue s 1 r [] →
    ∀ p ∈ ([(.copyGo ctx a b sc, 1), (.copyGather ctx a b sc, 2), (.copyRed ctx a b sc, 3), (.copyMcast ctx a b sc, 4)] :
      List (Instr × Nat)),
    let (i, code) := p
    let own := copyBreaks code x.regs (vd ≠ 0) dst
    let ranges := copyRanges s code x.regs vs.toNat vd.toNat
    let legal := live vs ∧ live vd ∧ own = [] ∧ handleBreaks s code x.regs vs.toNat vd.toNat = [] ∧
      firstBreach s ranges = none ∧ (follows → (s.core s.here).feat &&& 16 = 16 ∧ commandBreaks fe fc y.regs = [] ∧
        firstBreach s (commandRanges fe fc y.regs) = none)
    let room := ¬full x ∧ (follows → ¬full y)
    (¬live vs → exec i s = trap .staleHandle vs 0 s) ∧
    (live vs → ¬live vd → exec i s = trap .staleHandle vd 0 s) ∧
    (live vs → live vd → ∀ n ns, own = n :: ns →
      exec i s = trap .engineFault (BitVec.ofNat 64 n) (BitVec.ofNat 64 ((encode i).toNat % 256)) s) ∧
    (live vs → live vd → own = [] → handleBreaks s code x.regs vs.toNat vd.toNat = [] →
      ∀ va n, firstBreach s ranges = some (va, n) →
        exec i s = trap .localRange (BitVec.ofNat 64 va) (BitVec.ofNat 64 n) s) ∧
    (legal → full x → exec i s = stall (.room 0 ctx.toNat) s) ∧
    (legal → room → vd ≠ 0 → (s.handle s.here hd).st ≠ .free → ∃ w, exec i s = stall w s ∧
      (vs = 0 → w = .handle hd (vd.toNat % 2 ^ 11) 1) ∧
      (vs ≠ 0 → w = .handles hd (vd.toNat % 2 ^ 11) 1 hs (vs.toNat % 2 ^ 11))) ∧
    (legal → room → (vd ≠ 0 → (s.handle s.here hd).st = .free) → (vs ≠ 0 → (s.handle s.here hs).st = .full) →
      s.th.phase = .fresh → s.th.loads = [] → hintsPending s s.here = false →
        exec i s = stall .releaseAck (releaseAt (publish s sc) s.here (if sc = .core then .party else sc))) ∧
    (legal → room → (vd ≠ 0 → (s.handle s.here hd).st = .free) → (vs ≠ 0 → (s.handle s.here hs).st = .full) →
      s.th.phase = .released →
      ∃ t, exec i s = .next t ∧ Passes s t r ∧
        t = { s with cores := t.cores, others := t.others, th := t.th, serial := t.serial, clock := t.clock
                     lastSlot := t.lastSlot } ∧
        (t.ctx s.here 0 ctx.toNat = { x with
          nextn := x.nextn + 1
          queue := x.queue ++ [{ make x (tput (tput x.regs 0 (settled vs 0)) 1 (settled vd 1)) code s.serial with
            src := vs.toNat, dst := vd.toNat }] }) ∧
        (follows → t.ctx s.here fe fn = { y with
          nextn := y.nextn + 1
          queue := y.queue ++ [{ make y y.regs fc (s.serial + 1) with after := some (ctx.toNat, x.nextn) }] }) ∧
        (vd ≠ 0 → t.handle s.here hd = { s.handle s.here hd with st := .filling }) ∧
        (vs ≠ 0 → t.handle s.here hs = { s.handle s.here hs with st := .draining }) ∧
        ∀ k, (vd ≠ 0 → k ≠ hd) → (vs ≠ 0 → k ≠ hs) → t.handle s.here k = s.handle s.here k)

/-- CXW, CXR, TLREAD, TLADV and TLWAIT (R191, R194, R196 to R199): CXW writes a writable engine register and clears
TLSTAT; CXR and TLREAD make their destination PENDING with the value read at issue on its way; TLADV takes the
next number; TLWAIT waits for the counter and then acquires. The model's choices in it: log 50. -/
def Obligations.EngineRegistersAndTimelines : Prop :=
  ∀ (s : State) (ctx : BitVec 2) (d : RegCode),
    let n := ctx.toNat
    (∀ (eng : BitVec 4) (src : RegCode) (ereg : BitVec 5),
      let i : Instr := .cxw eng ctx src ereg
      let j : Instr := .cxr eng ctx d ereg
      let e := eng.toNat
      let feat : BitVec 6 := if e = 0 then 1 else if e = 3 then 32 else 16
      let x := s.ctx s.here e n
      (4 ≤ e → MayIssue s 1 {} [] →
        exec i s = trap .engineFault (BitVec.ofNat 64 (e * 256 + 255)) 0 s ∧
        exec j s = trap .engineFault (BitVec.ofNat 64 (e * 256 + 255)) 0 s) ∧
      (e < 4 → MayIssue s feat { a := some src } [] →
        if ereg = 30 then ∃ t, exec i s = .next t ∧
          Completes s (s.setCtx s.here e n { x with tlFirst := 0, tlFlags := 0, tlWorst := 0 }) t { a := some src } id
        else if ereg.toNat ≤ [10, 5, 1, 2].getD e 0 then ∃ t, exec i s = .next t ∧
          Completes s (s.setCtx s.here e n { x with regs := tput x.regs ereg.toNat (s.th.readA src) }) t
            { a := some src } id
        else exec i s = trap .engineFault (BitVec.ofNat 64 (e * 256 + ereg.toNat)) 0 s) ∧
      (e < 4 → MayIssue s feat {} [d] →
        let v : Word :=
          if ereg = 31 then BitVec.ofNat 64 x.count else if ereg = 29 then BitVec.ofNat 64 x.nextn
          else if ereg = 28 then x.cstat
          else if ereg = 30 then BitVec.ofNat 64 (x.tlFirst % 2 ^ 40 * 2 ^ 24 + x.tlFlags.toNat * 2 ^ 12 + x.tlWorst)
          else tget 0 x.regs ereg.toNat
        ∃ t, exec j s = .next t ∧ Completes s s t {} fun u => { u.pend d with late := u.late ++ [⟨.cxr, d, v⟩] })) ∧
    ∀ eng : BitVec 2,
      let e := eng.toNat
      let x := s.ctx s.here e n
      (MayIssue s 1 {} [d] → ∃ t, exec (.tlread d eng ctx) s = .next t ∧
        Completes s s t {} fun u => { u.pend d with late := u.late ++ [⟨.tlread, d, BitVec.ofNat 64 x.count⟩] }) ∧
      (MayIssue s 1 {} [d] →
        if 16 ≤ (x.queue.filter (!·.done)).length then exec (.tladv d eng ctx) s = stall (.room e n) s
        else ∃ t, exec (.tladv d eng ctx) s = .next t ∧
          Completes s t t {} (fun u => u.writeSync d (BitVec.ofNat 64 x.nextn)) ∧
          (t.ctx s.here e n).nextn = x.nextn + 1 ∧ t.mem = s.mem ∧ t.scratch = s.scratch ∧
          (x.queue = [] → (t.ctx s.here e n).queue = [] ∧ (t.ctx s.here e n).count = x.nextn) ∧
          (∀ q qs, x.queue = q :: qs → q.done = false → q.code ≠ 31 →
            (t.ctx s.here e n).count = x.count ∧ ∃ c, (t.ctx s.here e n).queue = x.queue ++ [c] ∧ c.code = 31 ∧
              c.num = x.nextn ∧ t.others = s.others)) ∧
      ∀ (a : RegCode) (hA : Bool) (sc : Scope), MayIssue s 1 { a := some a, hA } [] →
        let i : Instr := .tlwait a sc hA eng ctx
        if s.th.phase = .acquired then ∃ t, exec i s = .next t ∧ OnlyThread s t ∧ Passes s t { a := some a, hA }
        else if x.count < (s.th.readA a).toNat then exec i s = stall (.timeline e n (s.th.readA a).toNat) s
        else exec i s = stall (.acquire sc false) s

/-- HSET, HFREE, HKILL, HWAIT and HSTAT (R200 to R203): the checks in the order of the rules, the transitions of the
handle's state, the generation after an HSET or HKILL (2,047 wraps to 1), and the waits. -/
def Obligations.HandleInstructions : Prop :=
  ∀ (s : State) (d a b : RegCode) (hA hB : Bool) (mask : BitVec 4),
    let u := s.th.readA a
    let r : Srcs := { a := some a, hA }
    let next := fun g => if g = 2047 then 1 else g + 1
    (MayIssue s 1 { a := some a, b := some b, hA, hB } [d] →
      let i : Instr := .hset d a b hA hB
      let v := s.th.readB b
      let off := v.toNat % 2 ^ 17
      let size := v.toNat / 2 ^ 32
      let h := s.handle s.here u.toNat
      if 32 ≤ u.toNat then exec i s = trap .handleState u 0 s
      else if h.st ≠ .free then exec i s = trap .handleState u (BitVec.ofNat 64 h.st.code) s
      else if v.toNat / 2 ^ 17 % 2 ^ 15 ≠ 0 ∨ size = 0 ∨ (s.core s.here).lmsplit.toNat * 16384 < off + size then
        exec i s = trap .localRange v 0 s
      else ∃ t, exec i s = .next t ∧
        Completes s (s.setHandle s.here u.toNat { st := .free, gen := next h.gen, off := off, size := size, discard := 0 }) t
          { a := some a, b := some b, hA, hB } fun w => w.writeSync d (BitVec.ofNat 64 (u.toNat * 2048 + next h.gen))) ∧
    (MayIssue s 1 r [d] →
      let h := s.handle s.here (u.toNat / 2 ^ 11 % 32)
      ∃ t, exec (.hstat d a hA) s = .next t ∧ Computes s t r d
        (BitVec.ofNat 64 (h.discard * 2 ^ 32 + h.st.code * 2 ^ 16 + u.toNat / 2 ^ 11 % 32 * 2048 + h.gen)) 0) ∧
    (MayIssue s 1 r [] →
      let n := u.toNat / 2 ^ 11
      let h := s.handle s.here n
      let wait := exec (.hwait a mask hA) s
      (s.th.phase = .acquired → ∃ t, wait = .next t ∧ OnlyThread s t ∧ Passes s t r) ∧
      if 2 ^ 16 ≤ u.toNat ∨ h.gen ≠ u.toNat % 2 ^ 11 then
        (∀ i ∈ ([.hfree a hA, .hkill a hA] : List Instr), exec i s = trap .staleHandle u 0 s) ∧
        (s.th.phase ≠ .acquired → wait = trap .staleHandle u 0 s)
      else
        let into := fun (t : State) (h' : Handle) => Passes s t r ∧ t.handle s.here n = h' ∧
          (∀ k, k ≠ n → t.handle s.here k = s.handle s.here k) ∧
          t = { s with cores := t.cores, others := t.others, th := t.th, clock := t.clock, lastSlot := t.lastSlot }
        (∃ t, exec (.hkill a hA) s = .next t ∧ into t { h with st := .free, gen := next h.gen }) ∧
        (h.st = .full → ∃ t, exec (.hfree a hA) s = .next t ∧ into t { h with st := .free }) ∧
        (h.st = .filling → exec (.hfree a hA) s = stall (.handle n h.gen 4) s) ∧
        (h.st = .free ∨ h.st = .draining → exec (.hfree a hA) s = trap .handleState u (BitVec.ofNat 64 h.st.code) s) ∧
        (s.th.phase ≠ .acquired → wait = if mask.getLsbD h.st.code then stall (.acquire .core false) s
          else stall (.handle n h.gen mask) s))

/-- The events that end what a thread waits for, and what changes a thread's own registers from outside its
instructions (R27, R31 to R35, R116, R119, R128, R145, R177, R187, R252, R299, R300): a returned load or late value
makes its register READY, z0 and z1 as before; a release, an acquire, a TLBINV, a SLEEP and a vector instruction
let their thread go on, a vector load with its lanes written, or the lowest poisoned one trapped, or VGATHER.P's masks
answered (R158, R162); each event changes that thread alone, but for the fills and write-backs it brings. The model's
choices in it: logs 4, 5, 32 (STAT_WRITE, SRVTAB_WRITE and INBOX_WRITE as events of their own), 65, 70 and 73. -/
def Obligations.ThreadEvents : Prop :=
  ∀ s : State,
    let p := s.ev.p
    let t := s.threadAt p
    let only := fun (u : State) => u = s.setThreadAt p (u.threadAt p)
    (∀ l, t.loads[s.ev.k]? = some l → l.dev = true ∨ (∀ b ∈ l.bytes, b.2.isSome = true) →
      ∃ u, exec .loadDataReturn s = .next u ∧
        let x := u.threadAt p
        let n := leNat (l.bytes.map fun b => b.2.getD 0)
        x.z0 = t.z0 ∧ x.z1 = t.z1 ∧ x.pc = t.pc ∧ x.stat = t.stat ∧ x.loads = t.loads.eraseIdx s.ev.k ∧
        (∀ r, r < 56 → r ≠ l.dst.toNat → x.reg r = t.reg r) ∧
        (l.dst.toNat < 56 → (x.reg l.dst.toNat).sb = .ready ∧ (x.reg l.dst.toNat).pb = l.poisoned ∧
          (l.poisoned = true → (x.reg l.dst.toNat).val = (t.reg l.dst.toNat).val ∧
            (x.reg l.dst.toNat).pAddr = l.va ∧ (x.reg l.dst.toNat).pPc = l.pc) ∧
          (l.poisoned = false → l.dev = false → (x.reg l.dst.toNat).val =
            if l.sext ∧ 2 ^ (8 * l.bytes.length - 1) ≤ n then BitVec.ofInt 64 (n - (2 : Int) ^ (8 * l.bytes.length))
            else BitVec.ofNat 64 n))) ∧
    (∀ q ∈ ([(.cxrValueReturn, .cxr), (.tlreadValueReturn, .tlread), (.tlbprobeResult, .tlbprobe)] :
        List (Instr × LateKind)),
      match t.late.find? fun x => x.kind == q.2 && x.dst == s.ev.reg with
      | none => exec q.1 s = .next s
      | some x => ∃ u, exec q.1 s = .next u ∧ only u ∧ u.threadAt p = { t with
          regs := (u.threadAt p).regs, late := t.late.erase x } ∧
          ∀ r, r < 56 → (u.threadAt p).reg r = if r = s.ev.reg.toNat then { val := x.val } else t.reg r) ∧
    (t.wait = .releaseAck → storesWaiting s (dieOf (coreOf p)) = false →
      exec .releaseComplete s = .next (s.setThreadAt p { t with phase := .released, wait := .none })) ∧
    (∀ ctx mark, t.wait = .tlbinv ctx mark → (∀ w ∈ s.walks, ∀ x ∈ w.2, x.ctx = ctx → x.stale = false) →
      (∀ y ∈ s.threads, accessBefore ctx mark y = false) →
      ∃ u, exec .tlbinvComplete s = .next u ∧ u.scratch = s.scratch ∧
        { u.threadAt p with loads := t.loads, vload := t.vload } = { t with phase := .acquired, wait := .none }) ∧
    (∀ dl, t.wait = .sleep dl →
      exec .sleepExpiry s = if dl ≤ s.clock then .next (s.setThreadAt p { t with wait := .none }) else .next s) ∧
    (exec .yieldExpiry s = if yielding s t then .next s else .next (s.setThreadAt p { t with yields := [] })) ∧
    (exec .deviceStoreAccepted s = .next (s.setThreadAt p { t with devStore := false })) ∧
    (let floors := fun (sc : Scope) (x : Thread) => { x with
      pfloor := if sc = .core then t.pfloor else s.clock
      lfloor := if sc = .pkg ∨ sc = .sys then s.clock else t.lfloor }
     (∀ sc after, t.wait = .acquire sc after → ∃ u, exec .acquireComplete s = .next u ∧
        { u.th with loads := t.loads, vload := t.vload } =
          floors sc { t with wait := .none, phase := if after then t.phase else .acquired }) ∧
     ∀ sc c, t.wait = .consume c sc → ∃ u, exec .acquireComplete s = .next u ∧
        { u.th with loads := t.loads, vload := t.vload } =
          floors sc { t.setReg c.toNat { t.reg c.toNat with aq := none } with wait := .none }) ∧
    (t.place = p → t.wait = .vector → (s.core (coreOf p)).vlatch ≠ some p →
      (t.vload = none → ∃ u, exec .vectorCompletion s = .next u ∧ u.th = { t with wait := .none }) ∧
      ∀ v, t.vload = some v → v.reqs = [] →
        let focus := s.focus p
        let value := fun (l : VLane) =>
          let n := leNat (l.bytes.map fun b => b.2.getD 0)
          if v.sext then (sint (8 * v.width) n % (2 : Int) ^ 32).toNat else n % 2 ^ 32
        let good := v.lanes.filter (!·.poisoned)
        let delivered := fun (u : State) => u.th.vload = none ∧ u.th.wait = .none ∧ GoesOn t u.th ∧ u.th.regs = t.regs ∧
          (∀ r, r ≠ v.vd → u.th.vreg r = t.vreg r) ∧
          ∀ k < 32, laneElem 32 (u.th.vreg v.vd) k = match good.find? (fun l => l.lane == k) with
            | some l => value l
            | none => laneElem 32 (t.vreg v.vd) k
        (v.mask = none → (∀ l ∈ v.lanes, l.poisoned = false) →
          ∃ u, exec .vectorCompletion s = .next u ∧ delivered u ∧ u.th.q = t.q) ∧
        (∀ l, v.mask = none → v.lanes.find? (·.poisoned) = some l → exec .vectorCompletion s = .next
          (takeTrap .poison l.va (BitVec.ofNat 64 (l.lane * 256 + v.width)) { focus with th := { focus.th with vload := none } })) ∧
        ∀ c m, v.mask = some (c, m) → ∃ u, exec .vectorCompletion s = .next u ∧ delivered u ∧
          let other := if c = 3 then 1 else c + 1
          (∀ q, q ≠ c → q ≠ other → u.th.mask q = t.mask q) ∧
          ∀ k < 32, ((u.th.mask other).getLsbD k = true ↔ m.getLsbD k = true ∨ ∃ l ∈ v.lanes, l.lane = k ∧ l.poisoned = true) ∧
            (c ≠ 0 → ((u.th.mask c).getLsbD k = true ↔ ∃ l ∈ v.lanes, l.lane = k ∧ l.poisoned = false))) ∧
    (∃ u, exec .statWrite s = .next u ∧ u = { s with th := { s.th with stat := u.th.stat } } ∧
      u.th.stat.rm = s.ev.v.extractLsb' 4 2 ∧ u.th.stat.flags = s.ev.v.extractLsb' 8 5 ∧
      if s.th.stat.mode then u.th.stat.mode = s.ev.v.getLsbD 0 ∧ u.th.stat.pp = s.ev.v.getLsbD 1 ∧ u.th.stat.la = s.ev.v.getLsbD 2
      else u.th.stat.mode = false ∧ u.th.stat.pp = s.th.stat.pp ∧ u.th.stat.la = s.th.stat.la) ∧
    (∀ k : Fin 16, s.ev.n = k → ∃ u, exec .srvtabWrite s = .next u ∧
      u = { s with th := { s.th with srvtab := s.th.srvtab.set k {
        v := s.ev.v.getLsbD 63, img := s.ev.v.extractLsb' 24 16, sidx := s.ev.v.extractLsb' 16 4 } } }) ∧
    (let size := s.ev.v.toNat / 2 ^ 32 % 16
     let base := s.ev.v.toNat % 2 ^ 17 / (256 * 2 ^ size) * (256 * 2 ^ size)
     exec .inboxWrite s = .next (
      if 8 < size ∨ s.ev.v.getLsbD 63 = true ∧ (s.core s.here).lmsplit.toNat * 16384 < base + 256 * 2 ^ size then s
      else { s with th := { s.th with
        inbox := { en := s.ev.v.getLsbD 63, size := BitVec.ofNat 4 size, base := BitVec.ofNat 17 base }
        wpos := 0, rpos := 0, heldMsg := none } }))

/-- The memory system's own events (R33, R116, R127, R144, R158, R159, R196, R294, R296, R307, R310, R312, R385, R388): an L2
miss brings its line into L2 and serves its waiters, a walk ends with its translation installed or its requester told of
the failure, a prefetch puts its line into the portion and a fetch into the instruction cache, a vector response gives its
bytes to the lanes that wait for them, the vector unit accepts one request latch, and the writes of LMSPLIT, GPOOL and
TLSTAT take effect. What a fill brings is stated where its slice and its LLC bank have room for the line. The model's
choices in it: logs 3, 6, 10, 32, 66 and 67. -/
def Obligations.MemoryEvents : Prop :=
  ∀ s : State,
    let p := s.ev.p
    let t := s.threadAt p
    let c := coreOf p
    let roomFor := fun (die no : Nat) => (s.l2Lines die).length < 16 ∧ (tget [] s.llc (llcBank no)).length < 16
    (∀ m, (s.mshrOf s.ev.n).find? (fun x => x.line == s.ev.k) = some m →
      s.ingressOf s.ev.n (l2Slice s.ev.k) = [] →
      ∃ u, exec .l2MissFill s = .next u ∧ u.missing s.ev.n s.ev.k = false ∧ u.scratch = s.scratch ∧
        (reachable s (s.ev.k * 64) = true → findLine (s.l2Lines s.ev.n) s.ev.k 0 = none → roomFor s.ev.n s.ev.k →
          ∀ q id l, m.waiters = [.load q id] → (s.threadAt q).loads = [l] → l.id = id →
            ∃ x, (u.threadAt q).loads = [x] ∧ x.id = id ∧ x.poisoned = (l.poisoned || s.memPoison.contains s.ev.k) ∧
              x.bytes = l.bytes.map fun b =>
                if b.2 = none ∧ b.1 / 64 = s.ev.k then (b.1, some (memByte s b.1)) else b) ∧
        (reachable s (s.ev.k * 64) = true → findLine (s.l2Lines s.ev.n) s.ev.k 0 = none → roomFor s.ev.n s.ev.k →
          let holds := fun (new : Table Byte) => ∃ l, findLine (u.l2Lines s.ev.n) s.ev.k 0 = some l ∧ ∀ o < 64,
            tfind l.bytes o = some (match tfind new o with
              | some b => (b, true)
              | none => (memByte s (s.ev.k * 64 + o), false))
          (m.waiters = [.none] → holds []) ∧
          (∀ bytes, m.waiters = [.store bytes] → tsorted bytes = true → holds bytes) ∧
          (∀ n, m.waiters = [.pref n] → holds [] ∧ (u.core n).prefs = (s.core n).prefs.map fun p =>
            if p.1 = s.ev.k then (s.ev.k, true) else p) ∧
          ∀ q id v, m.waiters = [.vload q id] → (s.threadAt q).vload = some v →
            (u.threadAt q).vload = some { v with reqs := v.reqs.map fun r => if r.id = id then { r with
              got := some { line := s.ev.k, bytes := (List.range 64).map fun o => (o, memByte s (s.ev.k * 64 + o)), stamp := s.clock }
              poisoned := s.memPoison.contains s.ev.k } else r })) ∧
    (∀ w q ctx page, (tget [] s.walks s.ev.n)[s.ev.k]? = some w → s.ev.k < 64 → tget [] s.walkQueue s.ev.n = [] →
      w.stale = false → w.reqs = [.thread q] →
      (s.threadAt q).wait = .walk ctx page →
      ∃ u, exec .pageWalkComplete s = .next u ∧ tget [] u.walks s.ev.n = (tget [] s.walks s.ev.n).eraseIdx s.ev.k ∧
        u.mem = s.mem ∧ u.scratch = s.scratch ∧
        match (walkTables s s.ev.n w.ctx (w.page * 65536)).1 with
        | some e => u.threadAt q = { s.threadAt q with wait := .none } ∧
          ∀ level < 4, (tlbOf u (coreOf q) level).head? = some e
        | none => u.threadAt q = { s.threadAt q with
          wait := .none, walkFails := (s.threadAt q).walkFails ++ [(w.ctx, w.page)] }) ∧
    (∀ no, t.wait = .fetch no → ∃ u l, exec .instructionFetchFill s = .next u ∧ (u.threadAt p).wait = .none ∧
      (u.core c).icache.head? = some l ∧ l.no = no ∧ l.stamp = s.clock ∧ l.words.length = 16 ∧
      (findLine (s.l2Lines (dieOf c)) no 0 = none → s.mshrOf (dieOf c) = [] → s.ingress = [] → roomFor (dieOf c) no →
        s.l2Floor t ≤ s.clock → reachable s (no * 64) = true →
        ∀ k < 16, (l.words.getD k 0).toNat = leNat (memBytes s (no * 64 + 4 * k) 4))) ∧
    (∀ no, (s.core s.ev.n).prefs[s.ev.k]? = some (no, true) → ∃ u, exec .prefFillReturn s = .next u ∧
      ((u.core s.ev.n).prefs = (s.core s.ev.n).prefs.eraseIdx s.ev.k) ∧ u.th = s.th ∧ u.others = s.others ∧
      u.scratch = s.scratch ∧
      ∀ l, findLine (s.l2Lines (dieOf s.ev.n)) no 0 = some l → tsorted l.bytes = true → s.l2Open (dieOf s.ev.n) no = true →
        reachable s (no * 64) = true → waysOf s s.ev.n ≠ 0 → (s.core s.ev.n).gpool = false →
        findLine (s.portionOf s.ev.n) no s.ev.n = none → poolDirty s no s.ev.n = [] →
        ∃ x, findLine (u.portionOf s.ev.n) no s.ev.n = some x ∧
          ∀ o, tfind x.bytes o = (tfind l.bytes o).map fun b => (b.1, false)) ∧
    (∀ v r, t.vload = some v → v.reqs[s.ev.k]? = some r →
      (r.dev = none ∧ r.got ≠ none ∨ r.dev ≠ none ∧ r.sent = true) →
      ∃ u w, exec .vectorResponseReturn s = .next u ∧ (u.threadAt p).vload = some w ∧
        w.reqs.map (·.id) = (v.reqs.eraseIdx s.ev.k).map (·.id) ∧ w.vd = v.vd ∧ w.width = v.width ∧
        (∀ f, r.dev = none → r.got = some f → w.lanes = v.lanes.map fun l =>
          let due := fun (b : Nat × Option Byte) => b.2.isNone && b.1 / 64 == r.line
          if l.dev then l else { l with
            poisoned := l.poisoned || r.poisoned && l.bytes.any due
            bytes := l.bytes.map fun b => if due b then (b.1, tfind f.bytes (b.1 % 64)) else b }) ∧
        (∀ k, r.dev = some k → w.lanes = v.lanes.map fun l => if l.lane = k then { l with
          poisoned := l.poisoned || r.poisoned, bytes := l.bytes.map fun b => (b.1, some (deviceByte s b.1)) } else l) ∧
        u.threadAt p = { t with vload := some w } ∧ u.scratch = s.scratch) ∧
    (tileStopped s s.ev.n = false → ∀ k < 4, (s.core (s.ev.n * 4 + k)).vlatch ≠ none →
      (∀ j < 4, j ≠ k → (s.core (s.ev.n * 4 + j)).vlatch = none) →
      (∀ q, (s.core (s.ev.n * 4 + k)).vlatch = some q → (s.threadAt q).vop = none) →
      ∃ u, exec .vectorLatchAccept s = .next u ∧ tget 3 u.lastServed s.ev.n = k ∧
        u = { s.setCore (s.ev.n * 4 + k) { s.core (s.ev.n * 4 + k) with vlatch := none } with lastServed := u.lastServed }) ∧
    (let n := s.ev.v.toNat % 16
     let rings := (coreThreads s s.here).any fun t =>
      t.inbox.en && decide (n * 16384 < t.inbox.base.toNat + 256 * 2 ^ t.inbox.size.toNat)
     if 8 < n ∨ rings = true then exec .lmsplitWrite s = .next s
     else ∃ u, exec .lmsplitWrite s = .next u ∧ u.th = s.th ∧ (u.core u.here).lmsplit = s.ev.v.setWidth 4 ∧
      (Inv s → ∀ off < 2 ^ 17, tfind u.scratch (s.here * 2 ^ 17 + off) =
        if off < min (s.core s.here).lmsplit.toNat n * 16384 then tfind s.scratch (s.here * 2 ^ 17 + off) else none)) ∧
    (∃ u, exec .gpoolWrite s = .next u ∧ (u.core s.here).gpool = s.ev.v.getLsbD 0 ∧ u.th = s.th ∧ u.scratch = s.scratch) ∧
    (let e := s.ev.k / 4
     let n := s.ev.k % 4
     exec .tlstatWrite s = .next (s.setCtx s.ev.n e n
      { s.ctx s.ev.n e n with tlFirst := 0, tlFlags := 0, tlWorst := 0 }))

/-- A cluster's fabric moves (R166 to R168, R226 to R228, R234 to R242, R274, R316 to R318, R323 to R327, R387): requests are
served, records fetched, regions loaded; elements fire on the heads of their queues, each operation with its result, an
AG with the next offset of its nest; LDPs take addresses and give what they loaded, STPs store and complete; tokens enter,
paid for where their group is metered; serve calls enter and return; fault tokens drain, and a region asked to stop
freezes and stops. Firings are stated for an element that feeds one other. The model's choices in it: logs 44, 45, 48,
83, 85 and 93. -/
def Obligations.FabricEvents : Prop :=
  ∀ s : State,
    let cl := s.ev.n
    let k := s.ev.k
    let c := s.cluster cl
    let calm := fun (u : State) => u.mem = s.mem ∧ u.scratch = s.scratch ∧ u.th = s.th ∧ u.others = s.others
    (∀ q rest, c.reqs = q :: rest →
      ((regionFor c q.img q.ridx q.surv).isSome = true → q.back = none → q.seeds = [] →
        exec .regionRequest s = .next (s.setCluster cl { c with reqs := rest })) ∧
      (∀ x base n, regionFor c q.img q.ridx q.surv = none → (s.imageOf q.img).isSome = true →
        c.cached q.img q.ridx = some x → (∀ r ∈ c.regions, r.2.stage ≠ .loading) →
        findBase c (recWidth x.words) = some (base, n) →
        ∃ u r, exec .regionRequest s = .next u ∧ calm u ∧ (u.cluster cl).reqs = rest ∧ u.region cl n = some r ∧
          r.img = q.img ∧ r.ridx = q.ridx ∧ r.surv = q.surv ∧ r.owner = q.owner ∧ r.stage = .loading ∧ r.base = base ∧
          r.words = x.words ∧ ∀ j, j ≠ n → u.region cl j = s.region cl j) ∧
      ∀ im words, s.imageOf q.img = some im → c.cached q.img q.ridx = none → im.record s q.ridx = some words →
        c.cfg.length < 16 → exec .configCacheFetch s = .next (s.setCluster cl { c with
          cfg := c.cfg ++ [⟨q.img, q.ridx, words, s.clock⟩] })) ∧
    (∀ r, s.region cl k = some r →
      (r.stage = .loading → r.frozen = false → fabCommands s cl (fun _ => true) = [] → ∃ u x, exec .configCompleteWave s = .next u ∧ calm u ∧
        u.region cl (waveIndex c k) = some x ∧ x.stage = .resident ∧ x.served = s.clock ∧
        x.elems.map (fun e => (e.1, e.2.conf, e.2.s0, e.2.s1, e.2.queues)) =
          r.elems.map fun e => (e.1, e.2.conf, e.2.s0, e.2.s1, e.2.queues)) ∧
      (r.stage ≠ .resident → exec .elementFire s = .next s) ∧
      (∀ e f q mark tag, Feeds r s.ev.e e q f → e.reads ≠ [] →
        (∀ j ∈ e.reads, ∃ t ts, e.queues.getD j [] = t :: ts ∧ t.psn = false ∧ t.mark = mark ∧ t.tag = tag) →
        let value := fun (src : Nat) => if src = 5 then e.c0 else if src = 6 then e.c1 else if src = 7 then e.s0
          else if src = 0 then 0 else ((e.queues.getD (src - 1) []).headD {}).data
        ∀ row ∈ fabricTable e (value e.sa) (value e.sb) (value e.sc), e.op = row.1 →
          let bad := e.fxt = true ∧ row.2.2.getLsbD 4 = true
          let poison := poisonOf e 0x09 mark tag
          ∃ u, exec .elementFire s = .next u ∧ calm u ∧ Fired u cl k r s.ev.e { e with flags := e.flags ||| row.2.2 } e.reads q
            [if bad then poison else { data := row.2.1, mark := mark, tag := tag }] (if bad then trapOf e poison else [])) ∧
      (∀ e f q (t : Token) (ts : List Token), Feeds r s.ev.e e q f → e.sa = 1 → e.queues.getD 0 [] = t :: ts →
        let with_ := fun (v : W32) => if t.psn then t else { t with data := v }
        let n := e.s0 + 1
        let w := e.word 4
        let isEnd := w / 2 ^ 16 % 4 ≤ t.mark
        let last := isEnd ∧ w % 2 ^ 16 ≤ e.ends + 1
        let exact := e.s0.toInt + t.data.toInt
        let clamped := max (-2147483648) (min 2147483647 exact)
        let sum := if w / 2 ^ 18 % 2 = 1 then BitVec.ofNat 32 (fp32add e.s0.toNat t.data.toNat).1 else BitVec.ofInt 32 clamped
        let flags := if w / 2 ^ 18 % 2 = 1 then e.flags ||| (fp32add e.s0.toNat t.data.toNat).2 else e.flags
        ∀ row ∈ ([(0x20, [t], e), (0x21, [t], e), (0x38, [t], e), (0x26, [with_ e.c0], e),
          (0x39, [with_ (BitVec.ofNat 32 (e.queues.getD (e.sub % 4) []).length)], e),
          (0x3A, [with_ (BitVec.ofNat 32 (Config.cycleOf s.clock))], e),
          (0x25, if e.sub ≤ t.mark then [with_ n] else [], { e with s0 := if e.sub ≤ t.mark then 0 else n }),
          (0x27, [if n = e.c0 then { t with mark := max t.mark e.sub } else t], { e with s0 := if n = e.c0 then 0 else n })] :
          List (Nat × List Token × Elem)),
        (e.op = row.1 → ∃ u, exec .elementFire s = .next u ∧ calm u ∧ Fired u cl k r s.ev.e row.2.2 [0] q row.2.1 []) ∧
        (e.op = 0x28 → t.psn = false → e.poisoned = false → ∃ u, exec .elementFire s = .next u ∧ calm u ∧
          Fired u cl k r s.ev.e (if last then { e with s0 := 0, s1 := 0, sat := false, origin := 0, ends := 0, flags := flags }
            else { e with s0 := sum, s1 := if e.s1.toNat < 65535 then e.s1 + 1 else e.s1, origin := 0, flags := flags
                          sat := e.sat || (decide (w / 2 ^ 18 % 2 = 0) && decide (clamped ≠ exact))
                          ends := if isEnd then e.ends + 1 else e.ends }) [0] q
            (if last then [{ data := sum, mark := t.mark, tag := t.tag }] else []) [])) ∧
      (∀ e f q (a b : Token) (as bs : List Token), Feeds r s.ev.e e q f → e.sa = 1 → e.sb = 2 → e.queues.getD 0 [] = a :: as →
        e.queues.getD 1 [] = b :: bs → a.psn = false → b.psn = false → a.mark = b.mark → a.tag = b.tag →
        let none_ := poisonOf e 0x08 a.mark a.tag
        ∀ row ∈ ([(0x24, if b.data ≠ 0 then [a] else if a.mark = 0 then [] else [{ data := e.c0, mark := a.mark, tag := a.tag }], []),
          (0x22, if b.data.toNat % 4 = 0 then [a] else [none_], if b.data.toNat % 4 = 0 then [] else trapOf e none_)] :
          List (Nat × List Token × List Token)),
        e.op = row.1 → ∃ u, exec .elementFire s = .next u ∧ calm u ∧ Fired u cl k r s.ev.e e [0, 1] q row.2.1 row.2.2) ∧
      (∀ e f q (t : Token) (ts : List Token), Feeds r s.ev.e e q f → e.op = 0x23 → e.sc = 1 → e.sa = 2 → e.sb = 3 →
        e.queues.getD 0 [] = t :: ts → t.psn = false →
        let j := t.data.toNat % 4
        let none_ := poisonOf e 0x08 t.mark t.tag
        (∀ x xs, j = 1 ∨ j = 2 → e.queues.getD j [] = x :: xs → x.psn = false → x.tag = t.tag →
          ∃ u, exec .elementFire s = .next u ∧ calm u ∧ Fired u cl k r s.ev.e e [0, j] q [x] []) ∧
        (j = 3 → ∃ u, exec .elementFire s = .next u ∧ calm u ∧ Fired u cl k r s.ev.e e [0] q [none_] (trapOf e none_))) ∧
      (∀ e f q idx (a : Token) cons, Feeds r s.ev.e e q f → e.op = 0x29 → e.sa = 1 → a.psn = false →
        let L : List (Int × Nat × Nat) := ((List.range 4).map fun l => e.word (4 + l)).filterMap fun w =>
          if w / 2 ^ 32 % 2 ^ 16 = 0 then none else some (sint 32 w, w / 2 ^ 32 % 2 ^ 16, w / 2 ^ 48 % 4)
        let count := fun i => (L.getD i (0, 0, 0)).2.1
        let place := fun (is : List Nat) => (is.zip L).foldr (fun p n => p.1 + p.2.2.1 * n) 0
        let ended := fun i => (List.range (i + 1)).all fun j => idx.getD j 0 + 1 == count j
        let mark := (List.range L.length).foldl (fun m i => if ended i then max m (L.getD i (0, 0, 0)).2.2 else m) 0
        L ≠ [] → idx.length = L.length → (∀ i < L.length, idx.getD i 0 < count i) →
        (e.nest = some idx ∧ a = e.nestTok ∧ cons = [] ∨
          e.nest = none ∧ (∃ as, e.queues.getD 0 [] = a :: as) ∧ idx = L.map (fun _ => 0) ∧ cons = [0]) →
        let last := ended (L.length - 1)
        ∃ u next, exec .elementFire s = .next u ∧ calm u ∧
          Fired u cl k r s.ev.e { e with nest := next, nestTok := a, nestBegun := true, nestMark := if last then max mark a.mark else mark }
            cons q [{ data := a.data + e.c0 + BitVec.ofInt 32 ((idx.zip L).map fun p => (p.1 : Int) * p.2.1).sum
                      mark := if last then max mark a.mark else mark, tag := a.tag }] [] ∧
          match next with
          | none => last = true
          | some is => last = false ∧ is.length = L.length ∧ (∀ i < L.length, is.getD i 0 < count i) ∧ place is = place idx + 1) ∧
      (∀ e caller tag, r.stage = .resident → r.elems = [(s.ev.e, e)] → e.op = 0x2D → e.resync = none → e.dests = [] →
        e.extQueues ≠ [] → r.tags = [(tag, caller)] → r.caiHeld = [] →
        (∀ j ∈ e.extQueues, ∃ t ts, e.queues.getD j.1 [] = t :: ts ∧ t.psn = false ∧ t.mark = 0 ∧ t.tag = tag) →
        ∃ u b, exec .elementFire s = .next u ∧ calm u ∧ (u.cluster cl).backs = c.backs ++ [b] ∧ b.tag = tag ∧ b.id = caller.id ∧
          b.poison = none ∧ b.words.length = 4 ∧ ∀ h < 8, (b.words.getD (h / 2) 0).toNat / 2 ^ (32 * (h % 2)) % 2 ^ 32 =
            match e.extQueues.find? (·.2 == h) with
            | some j => ((e.queues.getD j.1 []).headD {}).data.toNat
            | none => 0) ∧
      (∀ e (t : Token) (ts : List Token), r.stage = .resident → r.elems = [(s.ev.e, e)] → e.dests = [] → r.caiHeld = [] →
        e.flight = t :: ts → t.psn = true →
        ∀ i ∈ ([(.ldpEmit, 0x2A), (.stpPerformed, 0x2B)] : List (Instr × Nat)), e.op = i.2 →
          ∃ u x y, exec i.1 s = .next u ∧ calm u ∧ u.region cl k = some x ∧ x.elem s.ev.e = some y ∧ y.flight = ts) ∧
      (∀ e f q (a : Token) (rest : List Token), Feeds r s.ev.e e q f → e.op = 0x2A → e.flight = a :: rest → a.psn = false →
        let g := portAgent s cl r a.tag
        let va := e.word 4 % 2 ^ 55 + a.data.toNat
        let n := 2 ^ (e.word 5 % 4)
        let places := g.portPlaces s .load va n
        g.awaits s (spanVas va n) = none → s.mshrOf (dieOf g.core) = [] → s.ingress = [] →
        let gives := fun (t : Token) faults => ∃ u, exec .ldpEmit s = .next u ∧ calm u ∧
          Fired u cl k r s.ev.e { e with flight := rest } [] q [t] faults
        (∀ l, places.find? (fun l => l == .page || l == .rights || l == .range) = some l →
          let t := poisonOf e (if l = .page then 0x01 else if l = .rights then 0x03 else 0x0A) a.mark a.tag
          gives t (trapOf e t)) ∧
        ((∀ l ∈ places, l ≠ .page ∧ l ≠ .rights ∧ l ≠ .range) →
          let bytes := places.map (g.byteAt s)
          let v := leNat ((places.zip bytes).map fun x => if r.server then callerByte s g.core x.1 x.2.1 else x.2.1)
          let t := poisonOf e 0x04 a.mark a.tag
          ((∃ x ∈ bytes, x.2 = true) → gives t (trapOf e t)) ∧
          ((∀ x ∈ bytes, x.2 = false) →
            gives { a with data := if (e.word 5).testBit 2 then BitVec.ofInt 32 (sint (8 * n) v) else BitVec.ofNat 32 v } []))) ∧
      (∀ e f q (a : Token) (as : List Token), Feeds r s.ev.e e q f → e.op = 0x2A → e.sa = 1 → e.queues.getD 0 [] = a :: as →
        e.flight.length < 16 → ∃ u, exec .elementFire s = .next u ∧ calm u ∧
          Fired u cl k r s.ev.e { e with flight := e.flight ++ [a] } [0] q [] []) ∧
      (∀ e f q (t : Token) (ts : List Token), Feeds r s.ev.e e q f → e.op = 0x2B → e.flight = t :: ts →
        ∃ u, exec .stpPerformed s = .next u ∧ calm u ∧ Fired u cl k r s.ev.e { e with flight := ts } [] q [t] []) ∧
      (∀ e f q (a b : Token) (as bs : List Token), Feeds r s.ev.e e q f → e.op = 0x2B → e.sa = 1 → e.sb = 2 →
        e.queues.getD 0 [] = a :: as → e.queues.getD 1 [] = b :: bs → a.psn = false → b.psn = false → a.mark = b.mark →
        a.tag = b.tag → e.flight.length < 16 → Inv s →
        let g := portAgent s cl r a.tag
        let va := e.word 4 % 2 ^ 55 + a.data.toNat
        let n := 2 ^ (e.word 5 % 4)
        let places := g.portPlaces s .store va n
        let fires := fun (u : State) (t : Token) faults => exec .elementFire s = .next u ∧ u.th = s.th ∧ u.others = s.others ∧
          Fired u cl k r s.ev.e { e with flight := e.flight ++ [t] } [0, 1] q [] faults
        g.awaits s (spanVas va n) = none →
        (∀ l, places.find? (fun l => l == .page || l == .rights || l == .range) = some l →
          let t := poisonOf e (if l = .page then 0x02 else if l = .rights then 0x03 else 0x0A) a.mark a.tag
          ∃ u, calm u ∧ fires u t (trapOf e t)) ∧
        (∀ keys : List Nat, places = keys.map UnitLoc.scratch → keys.Nodup →
          ∃ u, fires u { mark := a.mark, tag := a.tag } [] ∧ u.mem = s.mem ∧
            (∀ key, key ∉ keys → cget u.scratch key = cget s.scratch key) ∧
            ∀ j key, keys[j]? = some key → (cget u.scratch key).toNat = b.data.toNat / 256 ^ j % 256) ∧
        (∀ pas : List Nat, places = pas.map UnitLoc.mem → pas.Nodup → r.server = false → e.word 5 / 8 % 8 = 1 ∨ e.word 5 / 8 % 8 = 2 →
          s.mshrOf (dieOf g.core) = [] → s.ingress = [] → (∀ l ∈ s.l2Lines (dieOf g.core), l.owner = 0) →
          ∃ u, fires u { mark := a.mark, tag := a.tag } [] ∧ u.scratch = s.scratch ∧
            ∀ j pa, pas[j]? = some pa → (streamByte u (dieOf g.core) pa).toNat = b.data.toNat / 256 ^ j % 256)) ∧
      (∀ port pos owner (t : Token) ts depth refill, r.stage = .resident → r.shut = false →
        r.offers = [⟨port, t :: ts, 0, none, owner⟩] → c.packets = [] →
        let g := recGroup r.words port
        groupOfMeter (c.meter r) g = (true, depth, refill) → r.injectAt port = some pos → r.count pos 0 < r.depth pos 0 →
        let cost := tget 0 (c.meter r).costs port
        let len := ts.length + 1
        let n := if cost ≠ 0 ∧ depth < len * cost then max 1 (depth / cost) else len
        let bal := min depth (r.bal.getD g 0 + refill * max 1 (s.clock - r.balAt))
        ∃ u x, exec .meteredInjection s = .next u ∧ calm u ∧ u.region cl k = some x ∧ x.balAt = s.clock ∧
          (n * cost ≤ bal → x.bal.getD g 0 = bal - n * cost ∧ x.count pos 0 = r.count pos 0 + 1 ∧
            tget 4 x.lastMark port = t.mark ∧ x.offers = if ts = [] then [] else [⟨port, ts, n - 1, none, owner⟩]) ∧
          (bal < n * cost → x.bal.getD g 0 = bal ∧ x.elems = r.elems ∧ x.offers = r.offers ∧
            tfind x.waits port = some ((tfind r.waits port).getD s.clock))) ∧
      (∀ port pos owner (t : Token), r.stage = .resident → r.shut = false → r.offers = [⟨port, [t], 0, none, owner⟩] →
        c.packets = [] →
        (∀ g, (groupOfMeter (c.meter r) g).1 = false) → r.injectAt port = some pos → r.count pos 0 < r.depth pos 0 →
        ∃ u x, exec .meteredInjection s = .next u ∧ calm u ∧ u.region cl k = some x ∧ x.offers = [] ∧
          tget 4 x.lastMark port = t.mark ∧ x.count pos 0 = r.count pos 0 + 1) ∧
      (∀ (t : Token) (ts : List Token), r.edge = t :: ts → r.caiHeld = [] →
        (∀ h y pos, recTarget r.words ≠ 0x3F → regionFor c r.img (recTarget r.words) r.surv = some h → h ≠ k →
          s.region cl h = some y → y.stage = .resident → y.injectAt (recFport r.words) = some pos →
          y.count pos 0 < y.depth pos 0 → ∃ u x z, exec .faultTokenDrain s = .next u ∧ calm u ∧ u.region cl k = some x ∧
            x.edge = ts ∧ u.region cl h = some z ∧ z.elems = (y.inject pos t).elems) ∧
        (recTarget r.words = 0x3F → s.watchdog = false → ∃ u x, exec .faultTokenDrain s = .next u ∧ calm u ∧ u.region cl k = some x ∧ x.edge = ts ∧
          let key := logKey r.img r.ridx r.surv
          (tget {} (u.cluster cl).logs key).count = min (2 ^ 32 - 1) ((tget {} c.logs key).count + 1))) ∧
      (∀ t0, r.absentSince = some t0 → s.watchdog = false → micros 100 ≤ elapsed s t0 → recTarget r.words ≠ 0x3F →
        regionFor c r.img (recTarget r.words) r.surv = none → handlerBlocked s cl r = true → r.caiHeld = [] →
        ∃ u x, exec .handlerAbsentTimeout s = .next u ∧ calm u ∧ u.region cl k = some x ∧ x.edge = [] ∧
          (r.edge ≠ [] → (tget {} (u.cluster cl).logs (logKey r.img r.ridx r.surv)).absent = true)) ∧
      (r.asked = true → r.stage = .resident →
        (r.frozen = false → r.atBoundary = true →
          exec .regionStop s = .next (s.setRegion cl k { r with frozen := true })) ∧
        (r.frozen = true → r.quiet = true → r.orphan s = false →
          exec .regionStop s = .next (s.setRegion cl k { r with stage := .stopped })))) ∧
    (∀ n r pk e q f, c.regions = [(n, r)] → c.packets = [pk] → k = 0 → r.serves pk.img pk.ridx pk.surv = true →
      r.portOf pk.ent = none → e.op = 0x2C →
      let w := e.word 4
      let fits := pk.pkt.args.length = w % 4 + 1 ∧ pk.pkt.nr = w / 4 % 4 + 1
      let h := w / 2 ^ 8 % 8
      let half := BitVec.ofNat 32 ((pk.pkt.args.getD (h / 2) 0).toNat / 2 ^ (32 * (h % 2)))
      let bad := poisonOf e 0x06 0 pk.pkt.tag
      let took := fun (u : State) => calm u ∧ (u.cluster cl).packets = [] ∧ ∃ x, u.region cl n = some x ∧
        x.tags = r.tags ++ [(pk.pkt.tag, pk.pkt.caller)] ∧ x.served = s.clock
      (r.stage = .resident → r.elems = [(pk.ent, e)] → e.dests = [] → fits → ∃ u, exec .entAccept s = .next u ∧ took u) ∧
      (Feeds r pk.ent e q f → ∃ u, exec .entAccept s = .next u ∧ took u ∧ Fired u cl n r pk.ent e [] q
        [if fits then { data := half, tag := pk.pkt.tag } else bad] (if fits then [] else trapOf e bad))) ∧
    ∀ b call, c.backs[k]? = some b →
      let place := cl * 1024 + b.tag.toNat / 64
      let t := s.threadAt place
      t.srvCall = some call → t.wait = .srv → call.tag = b.tag.toNat → call.id = b.id → call.nr ≤ 4 →
      (∀ x ∈ c.regions, (x.2.tags.any fun y => y.1 == b.tag && y.2.id == b.id) = true → x.2.accessDue b.tag = false) →
      let gets := fun (v : Thread) (ws : List Word) => v.z0 = t.z0 ∧ v.z1 = t.z1 ∧ v.srvCall = none ∧
        ∀ r, r < 56 → v.reg r = match (List.range call.nr).find? fun j => (call.d + BitVec.ofNat 6 j).toNat == r with
          | some j => { val := ws.getD j 0 }
          | none => t.reg r
      ∃ u, exec .srvResultWriteback s = .next u ∧
        match b.poison with
        | none => (u.cluster cl).backs = c.backs.eraseIdx k ∧ u.mem = s.mem ∧ u.scratch = s.scratch ∧ gets u.th b.words ∧
          GoesOn t u.th
        | some w => ∃ v : State, v.mem = s.mem ∧ v.scratch = s.scratch ∧ gets v.th call.old ∧ v.th.pc = t.pc ∧
          u = takeTrap .servePoison (BitVec.ofNat 64 (w.toNat % 2 ^ 16)) (BitVec.ofNat 64 (w.toNat / 2 ^ 16 % 256)) v

/-- Messages and engine work reach their ends (R176, R179 to R182, R195 to R197, R201, R204, R206 to R220, R223, R224, R333,
R337): a send is examined at its register and acknowledged, a message enters the ring or goes back without room, an
acknowledgement reaches its sender, an interface transmits; a command starts, and LDW, RUN, FID, CNT, ROWS, LOAD, EVICT,
SEED and SNAP have their effects; a copy of each kind lands whose translations are at hand and whose places are in
scratchpads; a command of a party that goes on completes and the counter passes it, the contour array is claimed, a rail
settles and an error counter is cleared. The model's choices in it: logs 15, 35, 36, 42, 44, 45, 60, 74, 77, 90 and 94. -/
def Obligations.MessagesAndEngineWork : Prop :=
  ∀ s : State,
    let n := s.ev.n
    let k := s.ev.k
    (∀ c v src node, s.ev.yes = false → k = 0 → s.flight = [.send c v src none node] → s.hold = [] →
      capPkg c = s.pkgNo.toNat → capReg c < 56 →
      let g := s.gazOf (capThr c)
      let t := s.threadAt g.place
      let r := t.reg (capReg c)
      let refused := fun (at_ : Nat) (sub : BitVec 8) =>
        exec .sendDelivery s = .next { s with flight := [.ack src (some (c, sub)) at_ c false] }
      let core := coreOf g.place
      if g.st = .dead then refused (4096 + capThr c / 16384) 3
      else g.st = .valid →
        if capCheck (s.keyOf t.party.surv.toNat) c ≠ c.setWidth 16 then refused core 4
        else if g.gen ≠ capGen c then refused core 3
        else if r.sb = .arrived then refused core 1
        else if r.sb ≠ .armed ∨ capRights c = 2 ∧ r.ex = false then refused core 2
        else ∃ u, exec .sendDelivery s = .next u ∧
          u = { s.setThreadAt g.place (u.threadAt g.place) with flight := [.ack src none core c false] } ∧
          u.threadAt g.place = { t with regs := (u.threadAt g.place).regs, wait := (u.threadAt g.place).wait } ∧
          (u.threadAt g.place).wait = (match t.wait with | .sleep _ => .none | .wfi => .none | w => w) ∧
          ∀ j, j < 56 → (u.threadAt g.place).reg j = if j = capReg c then
            { r with val := v, sb := .arrived, ex := false, ra := capRights c == 3, pb := false } else t.reg j) ∧
    (∀ c src payload e node, s.ev.yes = false → k = 0 → s.flight = [.chan c src payload e node] → s.hold = [] →
      capPkg c = s.pkgNo.toNat →
      let g := s.gazOf (capThr c)
      let t := s.threadAt g.place
      let L := 8 + 8 * ((payload.length + 7) / 8)
      let at0 := coreOf g.place * 2 ^ 17 + t.inbox.base.toNat
      let sender := (s.gazOf (src.toNat % 65536)).place
      g.st = .valid → capCheck (s.keyOf t.party.surv.toNat) c = c.setWidth 16 → g.gen = capGen c →
      src.toNat / 65536 = s.pkgNo.toNat → (s.gazOf (src.toNat % 65536)).st = .valid →
      (t.inbox.en = false → ∃ u, exec .inboxPlacement s = .next u ∧ u.flight = [] ∧ u.mem = s.mem ∧ u.scratch = s.scratch ∧
        u.threadAt sender = { s.threadAt sender with sendBuf := (s.threadAt sender).sendBuf.map fun x =>
          if x.sent = true ∧ x.cap = c then { x with sent := false, tried := true } else x }) ∧
      (t.inbox.en = true →
      t.wpos = 0 → t.rpos = 0 → L ≤ 256 * 2 ^ t.inbox.size.toNat - 8 → t.inbox.size.toNat ≤ 8 → Memory.wf s.scratch = true →
      ∃ u, exec .inboxPlacement s = .next u ∧ u.flight = [.ack src none (coreOf g.place) c true] ∧ u.mem = s.mem ∧
        (u.threadAt sender).sendBuf = (s.threadAt sender).sendBuf.eraseP (fun x => x.sent && x.cap == c) ∧
        (u.threadAt g.place).wpos = BitVec.ofNat 16 L ∧ (u.threadAt g.place).rpos = 0 ∧
        leNat (cgets u.scratch at0 8) = src.toNat * 2 ^ 40 + payload.length * 2 ^ 16 + 1 ∧
        cgets u.scratch (at0 + 8) payload.length = payload ∧
        ∀ a, a < at0 ∨ at0 + L ≤ a → cget u.scratch a = cget s.scratch a)) ∧
    (∀ dst refused node cap buffered, k = 0 → s.flight[k]? = some (.ack dst refused node cap buffered) →
      dst.toNat / 2 ^ 16 = s.pkgNo.toNat →
      let g := s.gazOf (dst.toNat % 2 ^ 16)
      let t := s.threadAt g.place
      let rest := s.flight.eraseIdx k
      (g.st = .dead → exec .sendAcknowledgement s = .next { s with flight := rest }) ∧
      (g.st = .valid → ∃ u, exec .sendAcknowledgement s = .next u ∧
        u = { s.setThreadAt g.place { t with sends := t.sends - 1, refused := (u.threadAt g.place).refused } with flight := rest } ∧
        (u.threadAt g.place).refused = match refused, t.refused with
          | none, x => x
          | some (c, sub), none => some ⟨c, sub, 0⟩
          | some _, some x => some { x with more := if x.more = 255 then 255 else x.more + 1 })) ∧
    (let t := s.threadAt s.ev.p
     ∀ m rest, t.halt = false → t.sendBuf = m :: rest → m.sent = false → m.tried = false → (∀ x ∈ rest, x.id ≠ m.id) →
      let bytes := cgets s.scratch (coreOf s.ev.p * 2 ^ 17 + m.off) m.len
      let src := t.rank.pkg ++ t.rank.thr
      exec .channelTransmit s = .next { s.setThreadAt s.ev.p { t with sendBuf := { m with sent := true } :: rest } with
        flight := s.flight ++ [if capKind m.cap = 1 then .send m.cap (BitVec.ofNat 64 (leNat bytes)) src (some m.id) (coreOf s.ev.p)
          else .chan m.cap src bytes m.id (coreOf s.ev.p)] }) ∧
    (let x := s.ctx n (k / 4) (k % 4)
     let cl := clusterOf n
     let y := s.cluster cl
     ∀ c, x.queue = [c] → c.after = none → c.started = false → c.code ≠ 31 → tfind s.stops c.pid = none →
      let w := (tget 0 c.regs 1).toNat
      let g : Agent := cmdAgent s n c
      let into := fun (c' : Cmd) => exec .commandStart s = .next (s.setCtx n (k / 4) (k % 4) { x with queue := [c'] })
      let ended := fun (e : CmdEnd) => { c with started := true, landed := true, ended := some e }
      let reaches := fun (u : State) (c' : Cmd) => exec .commandStart s = .next u ∧ u.mem = s.mem ∧ u.th = s.th ∧
        u.others = s.others ∧ (u.ctx n (k / 4) (k % 4)).queue = [c']
      let holds := (∃ h, y.claim = some h ∧ h.core = n ∧ h.ctx = k % 4) ∧ (s.ctx n (3 - k / 4) (k % 4)).queue = []
      (k < 4 → (tget 0 c.regs 3) = 0 → into { c with started := true }) ∧
      (4 ≤ k → k < 12 → y.claim = none → exec .commandStart s = .next s) ∧
      (k / 4 = 1 → holds →
        (c.code = 1 → ∀ v rows,
          let wf := geoFmt w
          let bytes := (wgeoN w * (fmtCode wf).width + 7) / 8
          let base := (tget 0 c.regs 0).toNat
          let pitch := sint 32 (tget 0 c.regs 2).toNat
          let vas := (List.range (wgeoK w)).flatMap fun j => spanVas (((base : Int) + pitch * j) % (2 : Int) ^ 64).toNat bytes
          AtHand g s v .load vas → Asked g v vas → readRows g v base pitch bytes (List.range (wgeoK w)) = .ok rows →
          let bad := rows.any fun r => r.any (·.2)
          let b := loadTile (y.buf (wgeoBuf w)) wf (wgeoK w) (wgeoN w) (wgeoSlot w) rows
          (wf = 12 ∧ reservedTern rows (wgeoN w) = true → ∃ u, reaches u (ended { code := 5, detail := 2 }) ∧ u.scratch = s.scratch) ∧
          (¬ (wf = 12 ∧ reservedTern rows (wgeoN w) = true) → ∃ u, reaches u (ended { code := if bad then 4 else 0 }) ∧
            u.scratch = s.scratch ∧ (u.cluster cl).buf (!wgeoBuf w) = y.buf (!wgeoBuf w) ∧
            (u.cluster cl).buf (wgeoBuf w) = if bad then { b with poisoned := sadd b.poisoned (wgeoSlot w) } else b)) ∧
        (c.code = 2 → ∀ bands,
          let r := (tget 0 c.regs 3).toNat
          let accb := (tget 0 c.regs 4).toNat
          let wf := geoFmt w
          let af := geoFmt r
          let f := (appliedFid y c).1
          let clamped := (appliedFid y c).2
          let tiles := (List.range 8).filter fun t => nbit (rgeoMask r) t
          let buf := y.buf (rgeoBuf r)
          let half := y.half (rgeoHalf r)
          bandStopped y accb tiles = false →
          (runBands y accb (rgeoM r) tiles = none → into (ended { code := 5, detail := 4, fapp := f, clamped := clamped })) ∧
          (runBands y accb (rgeoM r) tiles = some bands → railsReady y wf f = false → s.watchdog = false →
            exec .commandStart s = .next (s.setCluster cl (sendRails y false wf f))) ∧
          (runBands y accb (rgeoM r) tiles = some bands → railsReady y wf f = true → y.cerrs = [] → y.ecnt.length = 8 →
            (∀ e ∈ y.ecnt, e < 2 ^ 48) →
            let segs := fun (m : Nat) => (List.range 16).map fun i => actSegment half af m i
            let sum := fun (t m j : Nat) => contribution buf wf af t j (segs m) fun _ => []
            let spoilt := fun (t m : Nat) => (latchParts (actBytes af) m).any half.poisoned.contains || buf.poisoned.contains t
            let toks := (List.range (rgeoM r)).flatMap fun m => bands.flatMap fun b => (List.range 64).map fun j =>
              (b.1, 64 * m + j, ({ data := BitVec.ofNat 32 (if spoilt b.1 m then 4 * 65536 + b.2.2.pos / 64 * 256 + b.2.2.pos % 64
                else (sum b.1 m j).1), mark := bandRank b.2.2, psn := spoilt b.1 m } : Token))
            let flags := (List.range (rgeoM r)).foldl (fun a m => bands.foldl (fun a b => (List.range 64).foldl
              (fun a j => a ||| (sum b.1 m j).2) a) a) 0
            let code := if toks.any (fun z => z.2.2.psn) then 4 else if clamped then 1 else 0
            ∃ u, reaches u (ended { code := code, flags := flags, fapp := f, clamped := clamped }) ∧
              u.scratch = s.scratch ∧ (u.cluster cl).run = some (n, k, c.num) ∧ (u.cluster cl).ecnt = y.ecnt ∧
              tget 0 (u.ctx n 1 (k % 4)).regs 6 = 0 ∧
              (u.cluster cl).regions = (sendContributions { y with runs := y.runs + 1 } bands toks).regions)) ∧
        (c.code = 3 → y.rails.length = 8 → s.watchdog = false →
          let f := (appliedFid y c).1
          let clamped := (appliedFid y c).2
          ∃ u, reaches u (ended { code := if clamped then 1 else 0, fapp := f, clamped := clamped }) ∧ u.scratch = s.scratch ∧
            ∀ j < 8, ∀ old, y.rails[j]? = some old →
              let low := j ∈ loweredContours (geoFmt w) f
              let volt := if low then railVolt f else railVolt 0
              (u.cluster cl).rails[j]? = some { settling := old.settling || old.setpt != volt, fapp := if low then f else 0, setpt := volt }) ∧
        (c.code = 4 → y.ecnt.length = 8 → ∃ u, reaches u (ended {}) ∧ u.scratch = s.scratch ∧
          ∀ j < 8, tget 0 (u.ctx n 1 (k % 4)).regs (8 + j) = BitVec.ofNat 64 (y.ecnt.getD j 0))) ∧
      (k / 4 = 2 → holds → ∀ v bs,
        let m := wgeoN w
        let a := actBytes (geoFmt w)
        let base := (tget 0 c.regs 0).toNat
        AtHand g s v .load (spanVas base (4 * m)) → g.read v base (4 * m) = .ok bs → (∀ z ∈ bs, z.2 = false) →
        ∀ cells bad fault, gatherLatch g v a (wgeoK w * a) 0 ((quads m bs).map fun q => leNat (q.map (·.1))) [] [] = (cells, bad, fault) →
          ∃ u, reaches u (ended (fault.getD { code := if bad = [] then 0 else 4 })) ∧ u.scratch = s.scratch ∧
            (u.cluster cl).half (!ggeoHalf w) = y.half (!ggeoHalf w) ∧
            (u.cluster cl).half (ggeoHalf w) = { afmt := geoFmt w, m := m, bytes := cells, poisoned := bad } ∧
            (fault = none → wgeoK w ≤ 512 → ∀ i q, (quads m bs)[i]? = some q → ∀ p, rowPlace (leNat (q.map (·.1))) = some p →
              match p with
              | none => ∀ j < 512 * a, cget cells (512 * a * i + j) = 0
              | some va => ∃ row, g.read v va (wgeoK w * a) = .ok row ∧ cgets cells (512 * a * i) (wgeoK w * a) = row.map (·.1))) ∧
      (12 ≤ k → fabNames s c = false → into (ended { code := 5, detail := 4 })) ∧
      (12 ≤ k → fabNames s c = true →
        let img := (fimgOf c).1
        let ridx := (fimgOf c).2
        let asked := y.reqs.any fun q => q.img == img && q.ridx == ridx && q.surv == c.surv
        let desc := (tget 0 c.regs 2).toNat
        match regionHeld y img ridx c.surv with
        | none =>
          (c.code = 1 → asked = false → ∃ u, reaches u { c with started := true } ∧ u.scratch = s.scratch ∧ (u.cluster cl).reqs = y.reqs ++
            [{ img := img, ridx := ridx, surv := c.surv, owner := some c.pid, ctxid := c.ctxid, place := c.place }]) ∧
          (c.code = 2 → into (ended {})) ∧
          (c.code = 3 ∨ c.code = 4 → asked = false → into (ended { code := 5, detail := 4 }))
        | some (i, r) =>
          (c.code = 1 → r.stage = .loading → into { c with started := true }) ∧
          (c.code = 1 → r.stage = .resident → into (ended {})) ∧
          (c.code = 2 → s.region cl i = some r → r.stage ≠ .loading → evictReady s cl r = true →
            ∃ u, reaches u (ended {}) ∧ u.scratch = s.scratch ∧ (u.cluster cl).regions = tdel y.regions i) ∧
          (c.code = 3 → r.stage = .resident → ∀ p, r.injectAt (nbits desc 12 6) = some p → ∀ v bs,
            let cnt := nbits desc 0 12
            AtHand g s v .load (spanVas w (8 * cnt)) → g.read v w (8 * cnt) = .ok bs →
            let toks := (seedTokens (octets cnt bs)).1
            let e := (seedTokens (octets cnt bs)).2
            ((∀ b ∈ octets cnt bs, (∀ z ∈ b, z.2 = false) ∧ leNat (b.map (·.1)) < 2 ^ 35) → e = {} ∧
              toks = (octets cnt bs).map fun b => let z := leNat (b.map (·.1))
                { data := BitVec.ofNat 32 z, mark := nbits z 32 2, psn := nbit z 34 }) ∧
            (toks = [] → ∃ u, reaches u (ended e) ∧ u.scratch = s.scratch) ∧
            (toks ≠ [] → ∃ u, reaches u { c with started := true, regs := tput c.regs 40 (BitVec.ofNat 64 (e.code * 16 + e.detail)) } ∧
              u.scratch = s.scratch ∧ u.region cl i = some { r with offers := r.offers ++
                [{ port := nbits desc 12 6, toks := toks, cmd := some (n, k, c.num), owner := none }] })) ∧
          (c.code = 4 → r.stage = .resident → ∀ z, r.cai (nbits desc 18 6) = some z → ∀ v key,
            let ps := (List.range (bandSize z)).map (bandPos z)
            let bytes := ps.flatMap fun p => leBytes 8 (((r.elem p).map snapRecord).getD 0)
            tfind r.caiHeld (nbits desc 18 6) = none → (∀ p ∈ ps, r.count p 0 = 0) → AtHand g s v .store (spanVas w bytes.length) →
            g.locateAll v .store w bytes.length = (List.range bytes.length).map (fun i => .scratch (key + i)) →
            Memory.wf s.scratch = true →
            ∃ u, reaches u (ended {}) ∧ cgets u.scratch key bytes.length = bytes ∧
              ∀ a, a < key ∨ key + bytes.length ≤ a → cget u.scratch a = cget s.scratch a))) ∧
    (let x := s.ctx n 0 k
     ∀ c (v v2 : State) (rows : List CopyRow) fl (keys : List Nat), k < 4 → x.queue = [c] → c.num = s.ev.m → c.code ≠ 31 → c.started = true → c.landed = false → c.after = none →
      c.src = 0 → c.dst = 0 → c.held = none → coresMove s c.pid = false →
      let g : Agent := cmdAgent s n c
      let r := c.regs
      let ctl := (tget 0 r 3).toNat
      let len := (tget 0 r 2).toNat
      let rop := ctlRop ctl
      let tensor := tensorOf (recordWords r)
      let out := fmtOr .fp32 (dstCode r tensor)
      let bits := (fmtOr .fp32 tensor.fmt).width
      let dsts := copyTargets c
      AtHand g s v .load (sourceVas g s c) → Asked g v (sourceVas g v c) → copySource g v c = .ok (rows, fl) →
      AtHand g (spendDevice v) v2 .store (targetVas rows dsts) →
      (dsts.flatMap fun b => rows.flatMap fun w => g.locateAll v2 .store (b + w.off) w.size) = keys.map UnitLoc.scratch →
      keys.Nodup → Memory.wf s.scratch = true →
      (c.code = 4 → dsts = ((List.range 64).filter fun j => nbit (tget 0 r 9).toNat j).map fun j =>
        windowAddr j ((tget 0 r 1).toNat % 2 ^ 17)) ∧
      (c.code ≠ 4 → dsts = [(tget 0 r 1).toNat]) ∧
      (ctlTens ctl = false → rop = 0 → ∀ bs, g.read v (tget 0 r 0).toNat len = .ok bs →
        rows = [⟨0, 8, bs.map fun b => if b.2 then none else some b.1.toNat⟩]) ∧
      (ctlTens ctl = true → c.code ≠ 2 → ∃ xs, rows = [⟨0, out.width, xs⟩] ∧
        ∀ (j : Nat) (p : List Int), (tileCoords (originsOf r) (tget 0 r 7).toNat)[j]? = some p →
          (tensor.inside p = false → xs[j]? = some (some (tensor.fill % 2 ^ out.width))) ∧
          (tensor.inside p = true → ∀ bs, let z := tensor.bit bits p
            g.read v (z / 8) ((z % 8 + bits + 7) / 8) = .ok bs → xs[j]? = some (if bs.any (·.2) then none else
              some (fconvert (fmtOr .fp32 tensor.fmt) out (rndOfCode (ctlRnd ctl)) (ctlSat ctl)
                (leNat (bs.map (·.1)) / 2 ^ (z % 8) % 2 ^ bits)).1))) ∧
      (ctlTens ctl = true → c.code = 2 → ∀ i w, rows[i]? = some w →
        w.off = i * (if ctlGacc ctl then 0 else (extentOf (tget 0 r 7).toNat 0 * out.width + 7) / 8) ∧ w.width = out.width) ∧
      ∃ u, exec .copyLastByte s = .next u ∧ u.mem = s.mem ∧ u.th = s.th ∧ (∀ a, a ∉ keys → cget u.scratch a = cget s.scratch a) ∧
        (∀ b ∈ dsts, ∀ w ∈ rows,
          let ls := g.locateAll v2 .store (b + w.off) w.size
          (rop = 0 → (∀ e ∈ w.elems, e ≠ none) → ∀ (j a : Nat) last, ls[j]? = some (.scratch a) → ls.getLast? = some (.scratch last) →
            some (some (cget u.scratch a)) = (w.bytes (cget s.scratch last))[j]?) ∧
          (rop ≠ 0 → (∀ e ∈ w.elems, e ≠ none) → ∀ (j : Nat) e (ps : List Nat), w.elems[j]? = some (some e) →
            (ls.drop (4 * j)).take 4 = ps.map UnitLoc.scratch → ps.length = 4 →
            leNat (ps.map fun a => cget u.scratch a) = (mergeOp rop (leNat (ps.map fun a => cget s.scratch a)) e).1 % 2 ^ 32)) ∧
        ∃ e, (u.ctx n 0 k).queue.map (·.ended) = [some e] ∧ (rop = 0 → e.flags = fl) ∧
          e.code = if rows.any (fun w => w.elems.any Option.isNone) then 4 else 0) ∧
    (let x := s.ctx n (k / 4) (k % 4)
     let cl := clusterOf n
     ∀ c e p i, x.queue = [c] → c.num = s.ev.m → c.ended = some e → c.done = false → tfind s.parties c.pid = some p →
      i < p.nthr → i ∉ p.gone →
      let mine := (s.cluster cl).run = some (n, k, c.num)
      (mine → nodesDone (s.cluster cl) = false → exec .commandCompletion s = .next s) ∧
      (mine ∧ nodesDone (s.cluster cl) = true ∨ ¬ mine ∧ (k / 4 = 1 → c.code = 3 → ∀ z ∈ (s.cluster cl).rails, z.settling = false) →
      ∃ u, exec .commandCompletion s = .next u ∧ u.mem = s.mem ∧ u.scratch = s.scratch ∧ u.parties = s.parties ∧
        let y := u.ctx n (k / 4) (k % 4)
        let sat := if mine then (s.cluster cl).runSat else e.sat
        let code := if e.code ≤ 1 ∧ (e.flags &&& 0x1C ≠ 0 ∨ sat = true) then 2 else e.code
        (mine → (u.cluster cl).run = none) ∧
        y.queue = [] ∧ y.count = c.num ∧ y.nextn = x.nextn ∧ y.regs = x.regs ∧ y.tlFlags = x.tlFlags ||| e.flags ∧
        y.tlWorst = (if x.tlFirst = 0 ∨ x.tlWorst < code then code else x.tlWorst) ∧
        (code < 256 → e.detail < 16 → y.cstat = BitVec.ofNat 64 (c.num % 2 ^ 40 * 2 ^ 24 + e.clamped.toNat * 2 ^ 20 +
          e.fapp % 4 * 2 ^ 18 + sat.toNat * 2 ^ 17 + e.flags.toNat * 2 ^ 12 + e.detail * 2 ^ 8 + code)))) ∧
    (let x := s.cluster n
     ∀ core ctx c, x.claim = none → waitingClients s n = [(core, ctx, c)] → (s.party c.pid).contour = none →
      exec .contourClaim s = .next (s.setCluster n (if x.lastPid = some c.pid then { x with claim := some ⟨core, ctx, c.pid⟩ }
        else { x with claim := some ⟨core, ctx, c.pid⟩, lastPid := some c.pid, buf0 := {}, buf1 := {}, half0 := {}, half1 := {} }))) ∧
    (let x := s.cluster n
     (∃ u, exec .railSettle s = .next u ∧ u = s.setCluster n { x with rails := (u.cluster n).rails } ∧
      ∀ j : Nat, (u.cluster n).rails[j]? = (x.rails[j]?).map fun r => if j = k then { r with settling := false } else r) ∧
     ∃ u, exec .contourCounterClear s = .next u ∧ u = s.setCluster n { x with ecnt := (u.cluster n).ecnt } ∧
      ∀ j : Nat, (u.cluster n).ecnt[j]? = (x.ecnt[j]?).map fun e => if j = k then 0 else e)

/-- The launch path (R10, R43, R341 to R353, R368): token writes fill a queue or overrun it, a header is refused with
its code or becomes the queue's survey, a party is bound with the lowest free thread numbers and started with its initial
state, a survey that is over raises its counter, lets its image go and ends its queue's kill, a QKILL gives its survey's
parties up, a region of a killed party goes once 100 µs have passed since it was asked to stop, and queue commands and
counter writes act as they name. The model's choices in it: logs 5, 51 and 87. -/
def Obligations.LaunchEvents : Prop :=
  ∀ s : State,
    let n := s.ev.n
    let k := s.ev.k
    let q := s.queue n
    let x := s.survey n
    (let len := s.ev.bytes.length
     let spill := fun (cause : Nat) => ∃ u, exec .launchTokenWrite s = .next u ∧ (u.queue n).overrun = true ∧
      (u.queue n).ovcause = cause ∧ (u.queue n).fifo = q.fifo ∧ u.mem = s.mem ∧ u.th = s.th
     q.overrun = false → q.active = none →
      (k % 64 = 0 → len = 64 → k + 64 ≤ 0x800 → q.unread = false →
        if 64 ≤ q.fifo.length then spill 1
        else exec .launchTokenWrite s = .next (s.setQueue n { q with
          fifo := q.fifo ++ [(List.range 8).map fun j => BitVec.ofNat 64 (leNat ((s.ev.bytes.drop (8 * j)).take 8))]
          expect := if q.expect = 0 then headerSeeds ((List.range 8).map fun j =>
            BitVec.ofNat 64 (leNat ((s.ev.bytes.drop (8 * j)).take 8))) else q.expect - 1 })) ∧
      (len % 64 ≠ 0 → len ≠ 8 → spill 2)) ∧
    (∀ h rest sid, q.fifo = h :: rest → freeSurvey s = some sid → q.stopped = false → q.killing = false →
      q.active = none → q.lost = false → s.watchdog = false → s.firmware.staged = false → headerSeeds h = 0 →
      let code := headerCode s h
      (code ≠ 0 → ∃ u, exec .headerConsume s = .next u ∧ (u.queue n).fifo = rest ∧ (u.queue n).active = none ∧
        (u.queue n).nref = min (2 ^ 32 - 1) (q.nref + 1) ∧ (u.queue n).code = code ∧ u.mem = s.mem ∧ u.th = s.th ∧
        ∃ r, (u.survey r).nparty = 0 ∧ (u.survey r).worst = 3 ∧ (u.survey r).cctr = nbits (recWord h 2) 6 12) ∧
      (code = 0 → (∀ i < 4, (h.getD (4 + i) 0).toNat < 2 ^ 62) → ∃ u, exec .headerConsume s = .next u ∧
        (u.queue n).fifo = rest ∧ (u.queue n).active = some sid ∧ u.launched = true ∧ u.mem = s.mem ∧ u.th = s.th ∧
        (u.survey sid).img = nbits (recWord h 0) 20 16 ∧ (u.survey sid).nthr = nbits (recWord h 0) 36 10 + 1 ∧
        (u.survey sid).cls = nbits (recWord h 0) 11 2 ∧ (u.survey sid).prio = nbits (recWord h 0) 13 3 ∧
        (u.survey sid).nparty = nbits (recWord h 1) 0 32 + 1 ∧ (u.survey sid).ctxid = nbits (recWord h 2) 18 16 ∧
        (u.survey sid).cctr = nbits (recWord h 2) 6 12 ∧ (u.survey sid).cval = nbits (recWord h 3) 0 48 ∧
        (u.survey sid).queue = n ∧ (u.survey sid).bound = 0)) ∧
    (exec .ageingPromotion s = .next (
      if eligible s n = true ∧ (s.queue x.queue).limit ≠ 0 ∧
          1300 * (s.queue x.queue).limit ≤ Config.cycleOf s.clock - Config.cycleOf x.since then
        s.setSurvey n { x with age := x.age + 1, since := s.clock }
      else s)) ∧
    (∀ sid cores, s.watchdog = false → s.firmware.staged = false → chooseBind s false (bindOrder s) = some (sid, cores) →
      let y := s.survey sid
      let thrs := freeRanks s 65536 0 y.nthr
      thrs.length = y.nthr → cores = [cores.headD 0] → 0 < y.nthr → y.nthr ≤ 16 → y.seedMode = 0 →
      ∃ u, exec .partyBind s = .next u ∧ u.mem = s.mem ∧ u.th = s.th ∧ (u.survey sid).bound = y.bound + 1 ∧
        (u.party (sid * 2 ^ 32 + y.bound)).cores = cores ∧ (u.party (sid * 2 ^ 32 + y.bound)).nthr = y.nthr ∧
        (y.nparty ≤ y.bound + 1 → (u.queue y.queue).active = none) ∧
        ∀ i < 16, let p : Plat := tget {} u.plat (cores.headD 0 * 16 + i)
          if i < y.nthr then p.st = .bind ∧ p.surv = sid ∧ p.tidx = i ∧ p.pidx = y.bound ∧ p.nthr = y.nthr - 1 ∧
            p.gen = (s.gazOf (thrs.getD i 0)).gen + 1 ∧ p.rank = BitVec.ofNat 24 (s.pkgNo.toNat * 65536 + thrs.getD i 0)
          else p.st = .held) ∧
    (∀ c im, let p := s.party n
      let y := s.survey p.surv
      let r : Plat := tget {} s.plat (c * 16)
      tfind s.parties n = some p → p.killed = false → p.nthr = 1 → p.cores = [c] → r.st = .bind → s.imageOf y.img = some im →
      im.channels = [] → im.regions = [] → r.tidx = 0 →
      ∃ u t, exec .dispatchStart s = .next u ∧ u.threadAt (c * 16) = t ∧ t.status = .running ∧ t.place = c * 16 ∧
        t.pc = BitVec.ofNat 64 r.pc &&& 0x007FFFFFFFFFFFFC ∧ t.fidmax = BitVec.ofNat 2 y.fidmax ∧ t.stat = {} ∧ t.wait = .none ∧ t.z0 = 0 ∧ t.z1 = 0 ∧ t.reqf = im.reqf ∧
        t.rank.gen = r.gen ∧ t.rank.pkg ++ t.rank.thr = r.rank ∧ t.ctx = BitVec.ofNat 16 y.ctxid ∧ t.inbox = {} ∧
        (∀ j, j < 56 → t.reg j = { val := if 1 ≤ j ∧ j ≤ 8 then r.seed.getD (j - 1) 0 else 0 }) ∧
        u.gazOf (r.rank.toNat % 2 ^ 16) = { st := .valid, gen := r.gen, place := c * 16 } ∧
        (tget {} u.plat (c * 16)).st = .run ∧ (u.core c).lmsplit = BitVec.ofNat 4 (coreSplit im 1 0) ∧
        (u.core c).handles = [] ∧ (u.core c).ctxs = [] ∧ (u.core c).gpool = false) ∧
    (∀ im, s.surveys = [(n, x)] → x.nparty ≤ x.ended → (s.queue x.queue).active ≠ some n → s.imageOf x.img = some im →
      (x.killed = true → killedRegions s n = false) →
      let c := s.counter x.cctr
      ∃ u, exec .surveyCompletion s = .next u ∧ u.surveys = [] ∧ u.mem = s.mem ∧ u.th = s.th ∧
        u.counter x.cctr = { c with worst := max c.worst x.worst, trig := max c.trig x.cval, val := max c.val x.cval } ∧
        (if im.removing = true then u.imageOf x.img = none else u.images = s.images) ∧
        ((s.queue x.queue).cmds = [] → (u.queue x.queue).killing = false)) ∧
    (∀ m y, q.killing = false → s.surveys = [(m, y)] → y.queue = n →
      (s.parties = [] → ∃ u, exec .qkill s = .next u ∧ (u.queue n).stopped = true ∧ (u.queue n).killing = true ∧
        (u.queue n).active = (if q.active = some m then none else q.active) ∧ u.mem = s.mem ∧ u.th = s.th ∧ u.others = s.others ∧
        u.survey m = { y with nparty := y.bound, worst := max y.worst 2, killed := true, dropped := y.dropped || decide (y.bound < y.nparty) }) ∧
      (∀ pid p c, let t := s.threadAt (c * 16)
        s.parties = [(pid, p)] → p.surv = m → p.nthr = 1 → p.cores = [c] → s.savedAreas = [] → t.status = .running →
        t.pid = pid → t.party.tidx = 0 → t.place = c * 16 → (s.core c).ctxs = [] →
        ∃ u, exec .qkill s = .next u ∧ u.parties = [] ∧ (u.gazOf t.rank.thr.toNat).st = .dead ∧ (u.queue n).stopped = true ∧
          (u.queue n).killing = true ∧ (u.survey m).ended = y.ended + 1 ∧ (u.survey m).worst = max y.worst 2 ∧
          (u.survey m).killed = true)) ∧
    (q.killing = false →
      exec .qstop s = .next (s.setQueue n { q with stopped := true }) ∧
      (q.active = none → exec .qstart s = .next (s.setQueue n { q with stopped := false })) ∧
      ((∀ v ∈ s.surveys, v.2.queue ≠ n) → exec .qkill s = .next (s.setQueue n { q with stopped := true })) ∧
      exec .qreset s = .next (if q.stopped = true ∧ q.active = none then s.setQueue n { q with
          fifo := [], overrun := false, ovcause := 0, nref := 0, code := 0, expect := 0, lost := false, unread := false }
        else s)) ∧
    (∀ r, s.region n k = some r → ∃ u, exec .killRegionTimeout s = .next u ∧
      if r.asked = true ∧ r.orphan s = true ∧ 130000 ≤ Config.cycleOf s.clock - Config.cycleOf r.askedAt then (u.cluster n).regions = tdel (s.cluster n).regions k else u = s) ∧
    (let c := s.counter k
     let v := s.ev.v.toNat % 2 ^ 48
     (∃ u, exec .lvalWrite s = .next u ∧ u.counter k = { c with val := max c.val v } ∧ u.mem = s.mem ∧ u.th = s.th) ∧
     (∃ u, exec .ltrigWrite s = .next u ∧ u.counter k = { c with trig := max c.trig v } ∧ u.mem = s.mem ∧ u.th = s.th) ∧
     exec .lstatWrite s = .next (s.setCounter k { c with worst := 0, seen := false }))

/-- Services, terminations, stops and moves (R271 to R276, R283 to R287, R289, R376): a service is asked or answered in EVAL2 and
its thread resumes after the TRAP; a termination ends its thread or party; a stop is noted and its threads told; a save
that writes its whole area leaves its party absent, one that meets a fault stops at its cursor; a restored party is on
its new cores, at once when it has no region to bring back; a moved thread is at its new place with its registers; a
second migration waits for the first. The model's choices in it: logs 46, 52, 53 and 80. -/
def Obligations.ServicesStopsAndMoves : Prop :=
  ∀ s : State, s.watchdog = false →
    let p := s.ev.p
    let n := s.ev.n
    (∀ e, escalOf s p = some e →
      let t := s.threadAt p
      let answered := fun (v : Word) => ({ s with escal := s.escal.filter (·.place != p) }.setThreadAt p
        { t with eval2 := v, wait := .none, pc := (t.pc + 4) &&& 0x007FFFFFFFFFFFFC } : State)
      (e.fatal = false → e.e1 = 1 → exec .serviceResolve s = .next { s with
        escal := s.escal.map fun e => if e.place = p then { e with asked := true } else e }) ∧
      (e.fatal = false → e.e1 = 0 ∨ 4 < e.e1.toNat → exec .serviceResolve s = .next (answered (BitVec.allOnes 64))) ∧
      (e.fatal = false → e.e1 = 1 → e.asked = true →
        exec .resolveAnswer s = .next (answered (if s.ev.yes then 0 else 1))) ∧
      (let want : Stop := { kind := .migrate, services := [p] }
       e.fatal = false → e.e1 = 2 → e.asked = false → tfind s.stops t.pid = none → (s.party t.pid).nthr = 1 →
       (clusterPlacement s t.pid want = none → exec .serviceMigrate s = .next (answered 1)) ∧
       ∀ cores, clusterPlacement s t.pid want = some cores → ∃ u st, exec .serviceMigrate s = .next u ∧
         tfind u.stops t.pid = some st ∧ st.kind = .migrate ∧ st.cores = cores ∧ st.services = [p] ∧ u.mem = s.mem ∧
         u.scratch = s.scratch ∧ (u.escal = s.escal.map fun e => if e.place = p then { e with asked := true } else e) ∧
         ∀ k ∈ movers s t.pid want, (u.threadAt k).migReq = true) ∧
      (∀ st, e.fatal = false → e.e1 = 2 → e.asked = false → tfind s.stops t.pid = some st → st.kind = .save →
        exec .serviceMigrate s = .next (answered 1)) ∧
      (let q := s.party t.pid
       e.fatal = false → e.e1 = 3 → e.place = p → (tfind s.parties t.pid).isSome = true →
       (∃ i < q.nthr, i ≠ t.party.tidx.toNat ∧ q.gone.contains i = false) →
       ∃ u, exec .serviceTermThread s = .next u ∧ (u.threadAt p).status = .ended ∧ (u.gazOf t.rank.thr.toNat).st = .dead ∧
         (u.party t.pid).trapped = true ∧ (u.party t.pid).gone = sadd q.gone t.party.tidx.toNat ∧ u.mem = s.mem ∧ u.scratch = s.scratch) ∧
      (∀ c, let q := s.party t.pid
        let x := s.survey q.surv
        e.place = p → p = c * 16 → tfind s.parties t.pid = some q → q.nthr = 1 → q.cores = [c] → t.place = p →
        t.status = .running → t.party.tidx = 0 → (s.core c).ctxs = [] → (s.counter x.cctr).seen = false →
        ∀ i ∈ ([(.partyTermination, e.fatal), (.serviceTermParty, !e.fatal && e.e1 == 4)] : List (Instr × Bool)), i.2 = true →
          ∃ u, exec i.1 s = .next u ∧ u.parties = tdel s.parties t.pid ∧ u.escal = s.escal.filter (·.place != p) ∧
            (u.counter x.cctr).tcause = e.cause.code ∧ (u.counter x.cctr).trank = t.rank.pkg ++ t.rank.thr)) ∧
    (let q := s.party n
     let new : Stop := { kind := .save, area := s.ev.v.toNat, size := s.ev.k, seq := s.saveSeq + 1 }
     tfind s.stops n = none → tfind s.parties n = some q → q.killed = false → q.cores ≠ [] → partyEscalated s n [] = false →
     movers s n new ≠ [] → (∀ c ∈ q.cores, (tget {} s.plat (c * 16)).st ≠ .bind) → s.ev.v.toNat % 64 = 0 →
     ownedRegions s (clusterOf (q.cores.headD 0)) n = [] → (s.cluster (clusterOf (q.cores.headD 0))).reqs = [] →
     ∃ u, exec .preemptionStop s = .next u ∧ tfind u.stops n = some { new with begun := true } ∧ u.saveSeq = s.saveSeq + 1 ∧
       u.mem = s.mem ∧ u.scratch = s.scratch ∧ ∀ k ∈ movers s n new, (u.threadAt k).halt = true) ∧
    (∀ st, tfind s.stops n = some st → st.kind = .save → st.overflow = false →
      (st.stopped = false → st.begun = true → stopReady s n st = true →
        ∃ u, exec .preemptionStop s = .next u ∧ tfind u.stops n = some { st with stopped := true }) ∧
      (st.faulted = true → exec .saveResume s = .next { s with stops := tput s.stops n { st with faulted := false } }) ∧
      (st.stopped = true → st.faulted = false →
        let q := s.party n
        let cl := clusterOf (q.cores.headD 0)
        let ctx := (s.survey q.surv).ctxid
        let ver := st.seq * 2 ^ 32 + 65536
        let used := 512 + (areaBody s n).length
        let image := areaHeader s n ctx ver 64 used (heldContour s cl n).isSome (ownedRegions s cl n).length ++ areaBody s n
        unitAwaits s 0 ctx (spanVas st.area (min used st.size)) = none →
        match if st.cursor = 0 then unitWrite s 0 ctx true st.area (leBytes 8 ver) else some s with
        | none => ∃ u, exec .saveWrite s = .next u ∧ tfind u.stops n = some { st with faulted := true } ∧ u.mem = s.mem ∧
          nbit (tget {} u.hosts (ownerHost s n)).istatus.toNat 4 = true
        | some v =>
          match writeGranules ctx st.area st.size (used / 64 + 1) v st.cursor (image.drop st.cursor) with
          | .all _ => ∃ u a, exec .saveWrite s = .next u ∧ u.stops = tdel s.stops n ∧ (u.party n).cores = [] ∧
            tfind u.savedAreas n = some a ∧ a.area = st.area ∧ a.size = st.size ∧ a.cls = q.cls ∧ a.ctx = ctx ∧
            a.thrs.length = q.nthr
          | .fault _ cur => ∃ u, exec .saveWrite s = .next u ∧ tfind u.stops n = some { st with cursor := cur, faulted := true }
          | .full _ _ => ∃ u, exec .saveWrite s = .next u ∧ tfind u.stops n = some { st with overflow := true })) ∧
    (∀ a, tfind s.savedAreas n = some a → unitAwaits s 0 a.ctx (spanVas a.area a.size) = none →
      let back := fun (cores : List Nat) => ∃ u, exec .restore s = .next u ∧ (u.party n).cores = cores ∧
        (u.party n).episode = a.word s 0x28 % 2 ^ 32 ∧ u.savedAreas = tdel s.savedAreas n
      let cl := clusterOf (s.ev.nums.headD 0)
      (a.restoring = [] → nbit (a.word s 0) 0 = true → placementOk a.cls a.thrs.length s.ev.nums = true →
        (∀ j, j < s.ev.nums.length → coreFree s (savedNeed a s j) (s.ev.nums.getD j 0) = true) → a.regions = [] →
        (s.cluster cl).reqs = [] → ownedRegions s cl n = [] → back s.ev.nums) ∧
      (a.restoring ≠ [] → restoreReady s n a.restoring = true → back a.restoring)) ∧
    (let st : Stop := if s.ev.yes then { kind := .migrate, cores := s.ev.nums }
        else { kind := .migrate, tidx := some s.ev.k, target := s.ev.p }
     (tfind s.stops n = none → (tfind s.parties n).isSome = true → (s.party n).killed = false → (s.party n).cores ≠ [] →
      partyEscalated s n [] = false → movers s n st ≠ [] → moveOk s n st = true → s.ev.yes = false →
      ∃ u, exec .migrationRequest s = .next u ∧ tfind u.stops n = some { st with begun := true } ∧ u.mem = s.mem ∧
        ∀ k ∈ movers s n st, (u.threadAt k).migReq = true) ∧
     ∀ old, tfind s.stops n = some old →
       (old.kind = .save → exec .migrationRequest s = .next s) ∧
       (old.kind = .migrate → ∃ u, exec .migrationRequest s = .next u ∧ u.moveQueue = s.moveQueue ++ [(n, st)] ∧
         u.stops = s.stops ∧ u.mem = s.mem ∧ u.scratch = s.scratch ∧ ∀ k ∈ movers s n st, (u.threadAt k).migReq = true)) ∧
    (∀ st i k, tfind s.stops n = some st → st.kind = .migrate → st.begun = true → st.tidx = some i → st.services = [] →
      moveOk s n st = true → (∀ x ∈ s.moveQueue, x.1 ≠ n) → stopReady s n st = true → movers s n st = [k] → k ≠ st.target →
      (s.core (coreOf k)).vlatch ≠ some k →
      let t := s.threadAt k
      ∃ u, exec .migrationTransfer s = .next u ∧ u.stops = tdel s.stops n ∧
        let w := u.threadAt st.target
        w.place = st.target ∧ w.regs = t.regs ∧ w.z0 = t.z0 ∧ w.z1 = t.z1 ∧ w.pc = t.pc ∧ w.stat = t.stat ∧ w.pid = t.pid ∧
        w.rank = t.rank ∧ w.v = t.v ∧ w.q = t.q ∧ w.migReq = false ∧ (u.gazOf t.rank.thr.toNat).st = .valid ∧
        (u.gazOf t.rank.thr.toNat).place = st.target ∧ (tget {} u.plat k).st = .held) ∧
    (let pid := s.ev.m
     let q := s.party pid
     let m : TMig := tget {} s.tmig (n / 16)
     let cool := fun c => decide ((tget {} s.tiles (tileOf c)).temp + 5 < m.thresh)
     let whole : Stop := { kind := .migrate }
     let fit := fun c => cool c && coreFree s (unionReqf s (movers s pid whole)) c
     let noted := fun (st : Stop) => partyEscalated s pid [] = false → movers s pid st ≠ [] → moveOk s pid st = true →
       ∃ u x, exec .thermalMigration s = .next u ∧ tfind u.stops pid = some x ∧ x.kind = .migrate ∧ x.cores = st.cores ∧
         x.tidx = st.tidx ∧ x.target = st.target ∧ (tget {} u.tiles n).migAt = some s.clock
     (thermalDue s n pid = false → exec .thermalMigration s = .next s) ∧
     (thermalDue s n pid = true → tfind s.stops pid = none → (tfind s.parties pid).isSome = true → q.killed = false → q.cores ≠ [] →
      (∀ c, q.nthr ≤ 1 → coolest s (((List.range 64).map (n / 16 * 64 + ·)).filter fit) = some c → noted { whole with cores := [c] }) ∧
      (∀ cores, 1 < q.nthr → s.ev.yes = true → coolPlacement s (n / 16) (unitCores q.cls) q.cores.length fit = some cores →
        noted { whole with cores := cores }) ∧
      ∀ c at_ j, 1 < q.nthr → s.ev.yes = false → placeOfIndex s pid s.ev.k = some at_ → tileOf (coreOf at_) = n → j < 16 →
        (∀ i < j, (tget {} s.plat (c * 16 + i)).st ≠ .held) → (tget {} s.plat (c * 16 + j)).st = .held →
        coolest s (q.cores.filter fun c => cool c && hasFeat s (unionReqf s (movers s pid { whole with tidx := some s.ev.k })) c &&
          (List.range 16).any fun i => (tget {} s.plat (c * 16 + i)).st == .held) = some c →
        noted { whole with tidx := some s.ev.k, target := c * 16 + j }))

/-- Mailbox commands and registers that hosts write (R306, R323, R334, R340, R354, R357 to R360, R370, R372, R376 to R378): while the
watchdog has not expired, a submitted command is carried out, refused or answered with a host fault, and RW0 holds SEQ and
STATUS, RW1 the result named; the mailbox is free again and its cause rises.
The model's choices in it: logs 16, 17, 18, 29, 55 and 56. -/
def Obligations.MailboxCommands : Prop :=
  ∀ s : State, s.watchdog = false →
    let h := s.ev.n
    let p := s.host h
    let w := fun n => (p.cw.getD n 0).toNat
    let answers := fun (u : State) (st : Nat) (r : Option Nat) => (u.host h).submitted = false ∧
      (u.host h).rw.getD 0 0 = BitVec.ofNat 64 (w 0 / 2 ^ 48 * 2 ^ 48 + st) ∧ nbit (u.host h).istatus.toNat 3 = true ∧
      (∀ v, r = some v → (u.host h).rw.getD 1 0 = BitVec.ofNat 64 v) ∧ u.th = s.th ∧ u.others = s.others ∧ u.scratch = s.scratch
    let reads := fun (a n : Nat) => if p.linkUp = true ∧ a + n ≤ 2 ^ 44 then some (cgets s.mem ((0xF0 + h) * 2 ^ 44 + a) n) else none
    p.submitted = true →
    (w 0 % 256 = 1 → match surveyBytes s (w 1) (w 2) with
      | none => ∃ u, exec .surveyRead s = .next u ∧ answers u 1 none ∧ u.mem = s.mem
      | some bs => let b := bs.take (w 4)
        if p.linkUp = true ∧ w 3 + b.length ≤ 2 ^ 44 then ∃ u, exec .surveyRead s = .next u ∧ answers u 0 (some b.length) ∧
          u.mem = cputs s.mem ((0xF0 + h) * 2 ^ 44 + w 3) b
        else ∃ u, exec .surveyRead s = .next u ∧ answers u 3 none ∧ u.mem = s.mem) ∧
    (w 0 % 256 = 2 → match reads (w 1) (w 2) with
      | none => ∃ u, exec .imgAdd s = .next u ∧ answers u 3 none ∧ u.images = s.images
      | some bs => match imageCheck s h s.ev.v.toNat (hostPa h (w 1)) s.ev.yes bs with
        | .ok (idx, im) => ∃ u, exec .imgAdd s = .next u ∧ answers u 0 (some (im.gen * 4096 + idx)) ∧ u.images = tput s.images idx im
        | .error (code, _) => ∃ u, exec .imgAdd s = .next u ∧ answers u 2 (some code) ∧ u.images = s.images) ∧
    (w 0 % 256 = 3 → match s.imageOf (w 1) with
      | none => ∃ u, exec .imgRemove s = .next u ∧ answers u 2 none ∧ u.images = s.images
      | some im =>
        let live := s.surveys.any (fun x => x.2.img == w 1 && x.2.nparty != 0)
        if im.host ≠ h ∨ im.removing = true then ∃ u, exec .imgRemove s = .next u ∧ answers u 2 none ∧ u.images = s.images
        else ∃ u, exec .imgRemove s = .next u ∧ answers u 0 none ∧ tget {} u.images (w 1 % 4096) =
          (if live = true then { im with removing := true } else { gen := if im.gen = 15 then 1 else im.gen + 1 })) ∧
    (w 0 % 256 = 5 → if s.launched = true ∨ 191 < w 1 % 256 then
        ∃ u, exec .setDomain s = .next u ∧ answers u 2 none ∧ u.pkgNo = s.pkgNo ∧ u.planes = s.planes
      else ∃ u, exec .setDomain s = .next u ∧ answers u 0 none ∧ u.pkgNo = BitVec.ofNat 8 (w 1) ∧
        u.planes = BitVec.ofNat 24 (w 2) ∧ u.domainSet = true) ∧
    (badCommand s p = true → ∃ u, exec .mailboxBadCommand s = .next u ∧ answers u 1 none ∧
      u = { s with hosts := u.hosts, tick := u.tick }) ∧
    (w 0 % 256 = 4 →
      (w 1 = 1 → meterListed s (w 2) = true →
        let m : Meter := tget {} (s.cluster 0).meters (w 2)
        (w 3 ≤ 3 →
          let new := { m with groups := (List.range 4).map fun g =>
            if g = (w 3) then (nbit (w 4) 63, w 4 / 2 ^ 32 % 2 ^ 24, w 4 % 2 ^ 16) else (groupOfMeter m g) }
          if meterOk (meterWords s (w 2)) new = true then ∃ u, exec .mgrpWrite s = .next u ∧ answers u 0 none ∧
            ∀ cl < 64, tget {} (u.cluster cl).meters (w 2) = new
          else ∃ u, exec .mgrpWrite s = .next u ∧ answers u 2 none ∧ u.clusters = s.clusters) ∧
        (16 ≤ w 3 → w 3 ≤ 79 →
          let v := w 4 % 2 ^ 12
          let new := { m with costs := if v = 0 then tdel m.costs (w 3 - 16) else tput m.costs (w 3 - 16) v }
          if meterOk (meterWords s (w 2)) new = true then ∃ u, exec .mcostWrite s = .next u ∧ answers u 0 none ∧
            ∀ cl < 64, tget {} (u.cluster cl).meters (w 2) = new
          else ∃ u, exec .mcostWrite s = .next u ∧ answers u 2 none ∧ u.clusters = s.clusters)) ∧
      (w 1 = 2 → w 2 < 64 → w 3 = 0 → ∃ u, exec .cfloorWrite s = .next u ∧ answers u 0 (some (w 4 % 2 ^ 10)) ∧
        let old := s.cluster (w 2)
        let new := u.cluster (w 2)
        new = { old with cfloor := w 4 % 2 ^ 10, rails := new.rails } ∧ (w 4 % 2 ^ 10 ≤ old.cfloor → new.rails = old.rails) ∧
        (old.cfloor < w 4 % 2 ^ 10 → ∀ r ∈ new.rails, w 4 % 2 ^ 10 ≤ r.setpt ∨ r.setpt = 750)) ∧
      (w 1 = 3 → w 2 < 4096 → w 3 = 0 →
        let o : OpReq := { hinten := nbit (w 4) 16, floor := w 4 / 2 ^ 8 % 8, req := w 4 % 8 }
        let used := (List.range 16).any fun k => (tget {} s.plat (w 2 * 16 + k)).st != .free
        if o.req < o.floor ∨ o.req = 0 ∧ used = true then ∃ u, exec .opreqWrite s = .next u ∧ answers u 2 none ∧ u.opreq = s.opreq
        else ∃ u, exec .opreqWrite s = .next u ∧ answers u 0 none ∧ u.opreq = tput s.opreq (w 2) o) ∧
      (w 1 = 4 → w 2 < 64 → w 3 = 0 → ∃ u, exec .tmigWrite s = .next u ∧ answers u 0 none ∧
        u.tmig = tput s.tmig (w 2) { en := nbit (w 4) 63, thresh := w 4 / 2 ^ 40 % 2 ^ 8, persist := w 4 % 2 ^ 32 }) ∧
      (w 1 = 5 → w 2 = 0 → w 3 = 0 → ∃ u, exec .ctbaseWrite s = .next u ∧ answers u 0 none ∧
        u.ctbaseEn = nbit (w 4) 63 ∧ u.ctbase = w 4 / 2 ^ 20 % 2 ^ 32 * 2 ^ 20) ∧
      (w 1 = 6 → w 2 = 0 →
        let f := s.firmware
        (s.ev.yes = true → ∀ q ∈ ([(0, { f with fwaddr := BitVec.ofNat 64 (w 4) }), (1, { f with fwlen := BitVec.ofNat 64 (w 4) }),
            (4, { f with attnonce := BitVec.ofNat 64 (w 4) }), (12, { f with require := nbit (w 4) 0 })] : List (Nat × Firmware)),
          w 3 = q.1 → ∃ u, exec .registerWrite s = .next u ∧ answers u 0 none ∧ u.firmware = q.2) ∧
        (w 3 = 2 → w 4 = 1 → match reads f.fwaddr.toNat f.fwlen.toNat with
          | none => ∃ u, exec .fwstage s = .next u ∧ answers u 3 none ∧ u.firmware = f
          | some bs => let good := firmwareOk f.identity bs && decide (f.rollback ≤ Config.firmwareVersion bs)
            ∃ u, exec .fwstage s = .next u ∧ answers u (if good then 0 else 2) none ∧ u.firmware.staged = good ∧
              u.firmware.activeB = f.activeB ∧ u.firmware.rollback = f.rollback ∧
              (if f.activeB then u.firmware.slotA else u.firmware.slotB) =
                { version := Config.firmwareVersion bs, valid := good, image := bs }) ∧
        (w 3 = 3 → w 4 = 1 → if f.staged then ∃ u, exec .fwact s = .next u ∧ answers u 0 none ∧ u.firmware.activeB = !f.activeB ∧
            u.firmware.staged = false
          else ∃ u, exec .fwact s = .next u ∧ answers u 2 none ∧ u.firmware = f) ∧
        (w 3 = 5 → p.linkUp = false → ∃ u, exec .attout s = .next u ∧ answers u 3 none ∧ u.mem = s.mem) ∧
        (w 3 = 5 → ∀ nonce, reads f.attnonce.toNat 32 = some nonce → let r := attestation s nonce
          if w 4 + r.length ≤ 2 ^ 44 then ∃ u, exec .attout s = .next u ∧ answers u 0 (some r.length) ∧
            u.mem = cputs s.mem ((0xF0 + h) * 2 ^ 44 + w 4) r ∧ u.firmware.attout = BitVec.ofNat 64 (w 4)
          else ∃ u, exec .attout s = .next u ∧ answers u 3 none ∧ u.mem = s.mem) ∧
        (8 ≤ w 3 → w 3 ≤ 11 → f.keys.length = 4 →
          (w 4 = 0 → ∃ u, exec .imgkeyWrite s = .next u ∧ answers u 0 (some 0) ∧ u.firmware.keys.getD (w 3 - 8) [] = []) ∧
          ∀ k, w 4 ≠ 0 → reads (w 4) 1952 = some k → ∃ u, exec .imgkeyWrite s = .next u ∧ answers u 0 (some (w 4)) ∧
            u.firmware.keys.getD (w 3 - 8) [] = k)))

/-- Links, plain register writes, what a host reads in its BARs, limits and resets (R340, R345, R355 to R357, R360, R362,
R364 to R366, R372, R374, R375, R377, R379).
The model's choices in it: logs 5, 16, 17, 56, 58, 59, 60 and 88. -/
def Obligations.LinksPowerAndReset : Prop :=
  ∀ s : State,
    let n := s.ev.n
    let k := s.ev.k
    let p := s.host n
    let j := s.port n
    let t := s.tile n
    let both := fun (u : State) (bit : Nat) => ∀ h < 2, nbit (u.host h).istatus.toNat bit = true
    (s.ev.yes = false → s.ev.m = 0 → p.cw.length = 8 → ∀ c < 8, k = 0x100 + 8 * c →
      exec .registerWrite s = .next (s.setHost n { p with cw := p.cw.set c s.ev.v, submitted := p.submitted || c == 0 })) ∧
    (s.ev.yes = false → s.ev.m = 2 → ∀ c < 32, k = 0x1000 * c + 0x820 →
      exec .registerWrite s = .next (s.setQueue (n * 32 + c) { s.queue (n * 32 + c) with limit := s.ev.v.toNat % 2 ^ 32 })) ∧
    exec .istatusWrite s = .next (s.setHost n { p with istatus := p.istatus &&& ~~~s.ev.v }) ∧
    exec .hostLinkDown s = .next (s.setHost n { p with linkUp := false }) ∧
    exec .hostLinkRetrain s = .next (s.setHost n { p with linkUp := true }) ∧
    (j.up = false ∨ s.ev.yes = false ∧ flitGood s.ev.bytes = false → exec .jenlinkFlitReceive s = .next s) ∧
    (j.up = true → s.ev.yes = true → exec .jenlinkFlitReceive s = .next (s.setPort n { j with
      wire := j.wire ++ j.replay.filter fun f => decide (k ≤ leNat ((f.drop 4).take 4)) })) ∧
    (j.up = true → s.ev.yes = false → flitGood s.ev.bytes = true →
      let went := { j with rxSeq := j.rxSeq + 1 }
      ((s.ev.bytes.getD 2 0).toNat ≠ s.pkgNo.toNat → exec .jenlinkFlitReceive s = .next (s.setPort n went)) ∧
      ((s.ev.bytes.getD 2 0).toNat = s.pkgNo.toNat → (s.ev.bytes.getD 0 0).toNat = 3 → exec .jenlinkFlitReceive s =
        .next (s.setPort n { went with received := j.received ++ [(s.ev.bytes.drop 16).take 232] }))) ∧
    (let spoil := fun (l : Load) =>
       if l.bytes.any (fun b => b.2.isNone && (peerOf b.1).isSome && planeOf s (b.1 / 64 % 2 ^ 16) == some n) then
         (if l.dev then { l with poisoned := true }
           else { l with poisoned := true, bytes := l.bytes.map fun b => if b.2.isSome then b else (b.1, some 0) })
       else l
     j.up = true → s.outbound = [] → s.mshrs = [] → ∃ u, exec .jenlinkLinkDown s = .next u ∧
      u.port n = { j with up := false, lost := true, replay := [], parts := [] } ∧
      (∀ key, planeOf s key = some n → ∀ v, planeFor (u.setPort n { u.port n with up := v }) key = none) ∧
      both u 6 ∧ u.mem = s.mem ∧ u.th = { s.th with loads := s.th.loads.map spoil }) ∧
    (let feat : W32 := s.ev.v.setWidth 32 &&& 0x1F
     ∃ u, exec .jenlinkTraining s = .next u ∧ u.th = s.th ∧ u.port n = if s.ev.nums.contains 1 then
        { j with up := feat == 0x1F, major := 1, minor := 0, feat := feat } else { j with up := false, major := 0, minor := 0, feat := 0 }) ∧
    (∀ h, (∀ o ∈ [0x00, 0x08, 0x10, 0x18, 0x20], readBar0 s h o = 0x10000) ∧
      readBar0 s h 0x200 = (s.host h).istatus.toNat ∧ readBar0 s h 0x208 = (s.host h).ienable.toNat ∧
      (∀ c < 24, s.port c = { s.port c with up := true, major := 1, minor := 0, feat := 0x1F } →
        readBar0 s h (0x1000 + 8 * c) = 0x800001000000001F) ∧
      ∀ c < 4096, readBar2 s h (0x20000 + 32 * c) = (s.counter c).val ∧
        readBar2 s h (0x20008 + 32 * c) = (s.counter c).trig ∧ readBar2 s h (0x20010 + 32 * c) % 256 = (s.counter c).worst % 256) ∧
    (let trips := fun i => t.trip = false → 110 ≤ k → k < 125 → ∃ u, exec i s = .next u ∧
       u.tile n = { t with temp := k, trip := true } ∧ both u 2 ∧ u.th = s.th ∧ u.mem = s.mem
     let ends := fun i => t.trip = true → k < 100 → ∃ u, exec i s = .next u ∧
       u.tile n = { t with temp := k, trip := false } ∧ both u 2 ∧ u.th = s.th ∧ u.mem = s.mem
     let stops := fun i => 125 ≤ k → ∃ u, exec i s = .next u ∧ u.shutDown = true ∧ (u.host 0).linkUp = false ∧
       (u.host 1).linkUp = false ∧ u.th = State.reset.th ∧ u.llc = [] ∧ u.mem = s.mem
     trips .thermalTrip ∧ trips .tempRefresh ∧ ends .thermalTripEnd ∧ ends .tempRefresh ∧
     stops .packageShutdown ∧ stops .thermalTrip ∧ stops .tempRefresh ∧
     (k < 125 → (t.trip = true → 100 ≤ k) → (t.trip = false → k < 110) →
       exec .tempRefresh s = .next (s.setTile n { t with temp := k }))) ∧
    exec .currentLimit s = .next (s.setTile n { t with limit := true }) ∧
    exec .currentLimitRelease s = .next (s.setTile n { t with limit := false }) ∧
    exec .powerClamp s = .next { s with clamp := true } ∧ exec .powerClampRelease s = .next { s with clamp := false } ∧
    (let req := fun c => (tget ({} : OpReq) s.opreq (4 * n + c)).req
     (∀ c < 4, (tget ({} : OpReq) s.opreq (4 * n + c)).hinten = false) → s.watchdog = false →
      let m := max (max (req 0) (req 1)) (max (req 2) (req 3))
      exec .operatingPointChange s = .next (s.setTile n { t with point := m })) ∧
    (∃ u, exec .watchdogExpiry s = .next u ∧ u.watchdog = true ∧ both u 1 ∧ u.th = s.th ∧ u.mem = s.mem ∧
      ∀ c < 1024, u.tile c = { s.tile c with point := min (s.tile c).point (s.tile c).fsafe }) ∧
    exec .surveyorRestart s = .next { s with
      watchdog := false, firmware := { s.firmware with staged := false, restartAt := s.clock } } ∧
    (let f := s.firmware
     let ran := Config.cycleOf s.clock - Config.cycleOf f.restartAt
     exec .rollbackAdvance s = .next (if s.watchdog = true ∨ ran < 13000000000 then s else
      { s with firmware := { f with rollback := max f.rollback (if f.activeB then f.slotB.version else f.slotA.version) } })) ∧
    (∃ u, exec .packageReset s = .next u ∧ u.th = State.reset.th ∧ u.others = [] ∧ u.parties = [] ∧ u.clusters = [] ∧
      u.scratch = [] ∧ u.l2 = [] ∧ u.llc = [] ∧ u.mem = s.mem ∧ u.clock = 0 ∧ u.watchdog = false ∧ u.launched = false ∧ u.ctbaseEn = false ∧
      u.firmware.rollback = s.firmware.rollback ∧
      let fine := fun (x : FwSlot) => x.valid = true ∧ s.firmware.rollback ≤ x.version
      (u.shutDown = true ↔ (∃ x ∈ s.ev.nums, 125 ≤ x) ∨ ¬fine s.firmware.slotA ∧ ¬fine s.firmware.slotB)) ∧
    (let f := s.firmware
     let signed := mldsaVerify f.identity.chainKey (Config.debugMessage f.identity.serial) s.ev.bytes
     (s.ev.yes = false → exec .debugUnlock s = .next (if signed = true then { s with firmware := { f with unlocked := true } } else s)) ∧
     (s.ev.yes = true → f.unlocked = false → exec .debugUnlock s = .next s) ∧
     (s.ev.yes = true → f.unlocked = true → exec .debugUnlock s = .next { s with firmware := { f with
       debugOut := (surveyBytes s k n).getD [] } }))

/-- Encoding and decoding (R64 to R73): the word of every well-formed instruction decodes to it, with the bytes that
follow left over; and a word that decodes is the word of that instruction, which is well formed: no two words are one
instruction, and no bit of a word is dropped. -/
def Obligations.DecodeEncodeAgree : Prop :=
  (∀ (i : Instr) (rest : List Byte), i.wf = true →
    decode (encode i) = .ok i ∧ decodeBytes (bytesOfWord (encode i) ++ rest) = .ok (i, rest) ∧
      decodeTableWord 32 (encode i).toNat = some i) ∧
  ∀ (w : W32) (i : Instr), decode w = .ok i → encode i = w ∧ i.wf = true

/-- Words that the spec writes out decode to the instructions it says they are, and reserved ones to none. -/
def Obligations.WorkedWords : Prop :=
  (∀ p ∈ ([(0x20548D16, .lih 5 0x48D16), (0x0C516789, .addi 5 5 0x2789), (0x2810A7FD, .brLtu 1 2 0x7FD),
      (0x2FA40001, .bzNez 58 1), (0x3801C002, .loop 7 2), (0x4C310515, .ldbitS 3 4 5 false false 5),
      (0x5800000A, .fenceAcq .party), (0x4861FA3B, .stxRel 6 7 58 false false true .pkg),
      (0x64604200, .fmac 6 1 2 false false), (0x6C451400, .pfx 1 1 4 2 true), (0x8CA48101, .vgatherP 1 2 2 1 .i32 4),
      (0x9C800186, .mmov 1 6), (0xA4A0000B, .armAcq 10 .pkg), (0xA9410553, .srv 20 4 5 1 1 3),
      (0xC4615200, .cxw 1 2 5 9)] : List (W32 × Instr)), decode p.1 = .ok p.2) ∧
  ∀ w ∈ ([0, 0xFFFFFFFF, 0x70000000] : List W32), decode w = .error .reservedMajor

/-- A step (R18, R38, R73, R74, R388): the core that the agenda names runs the instruction that its word decodes to, or
takes the trap of a word that decodes to none; the word comes from the loop buffer or the instruction cache, at the
translated program counter; a word put there by withFetchWord after reset runs as the first instruction. An event that
the agenda names happens; after a shutdown only a package reset does. The agenda is the model's (log 4). -/
def Obligations.StepRunsTheDecodedWord : Prop :=
  (∀ (s : State) (c place now : Nat) (rest : List Turn), s.shutDown = false → s.agenda = .core c :: rest →
    pickThread { s with agenda := rest } c = some (place, now) →
    let u := turnOf { s with agenda := rest } place now
    u.th.phase ≠ .resumed →
      u = { s.focus place with agenda := rest, clock := now, th := { s.threadAt place with wait := .none, yields := [] } } ∧
      (∀ w v, fetch u = .word w v → (∀ i, decode w = .ok i → step s = exec i v) ∧
        ∀ e, decode w = .error e →
          let reserved := w.toNat / 2 ^ 26
          (reserved ∈ [0, 0x1C, 0x3F] → step s = trap .illegalInstr (evalWord w) 0 v) ∧
          (e ≠ .reservedMajor → e ≠ .reservedEngine → (v.core v.here).feat = 0x3F →
            step s = trap .illegalInstr (evalWord w) 0 v) ∧
          (e = .reservedEngine → (v.core v.here).feat = 0x3F → v.th.stat.pp = false →
            step s = trap .engineFault (BitVec.ofNat 64 (w.toNat / 2 ^ 22 % 16 * 256 + 0xFF)) (BitVec.ofNat 64 (w.toNat % 256)) v)) ∧
      ∀ o, fetch u = .out o → step s = o) ∧
  (∀ (s : State), s.th.held = none →
    (∀ w, s.th.inBody = true → tfind s.th.loopBuf s.th.pc.toNat = some w →
      fetch s = .word w { s with th := { s.th with held := some w } }) ∧
    (s.th.inBody = false → match locateByte s .fetch s.th.pc with
      | .fault c a => fetch s = .out (trap c a 4 s)
      | .walk ctx page => ∃ u, fetch s = .out (.next u) ∧ u = { s with
          walks := u.walks, walkQueue := u.walkQueue, th := { s.th with wait := .walk ctx page } }
      | .ok [.mem pa] u => match findILine (u.core u.here).icache (pa / 64) (u.floors s.th).1 (u.floors s.th).2 with
        | none => fetch s = .out (stall (.fetch (pa / 64)) u)
        | some l => ∃ v, fetch s = .word (l.words.getD (pa % 64 / 4) 0) v ∧
          v = { u with cores := v.cores, th := { s.th with held := some (l.words.getD (pa % 64 / 4) 0) } }
      | .ok _ u => ∃ w v, fetch s = .word w v ∧ v = { u with tick := u.tick + 1, th := { s.th with held := some w } })) ∧
  (∀ i : Instr, i.wf = true → ∃ v, step (State.reset.withFetchWord 32 (encode i).toNat) = exec i v ∧ v.th.pc = 0 ∧
    v.th.regs = State.reset.th.regs ∧ v.th.stat = {} ∧ v.clock = 1) ∧
  ∀ (s : State) (i : Instr) (a : EvArgs) (rest : List Turn), s.agenda = .event i a :: rest →
    (s.shutDown = true → i ≠ .packageReset → step s = .fault .shutDown) ∧
    (s.shutDown = false ∨ i = .packageReset → encode i = 0 →
      step s = exec i { s with agenda := rest, ev := a, clock := s.clock + 1 })

/-- The rotation of a core (R18): the slot chosen holds a runnable thread whose last instruction left issue 8 or more cycles
before; the cycle is the first in which some slot is ready, and among the slots ready in it the choice is the first after
the slot that issued last, wrapping from 15 to 0. None is chosen only when no slot holds a runnable thread.
The model's choices in it: log 5. -/
def Obligations.RotationPicksTheFirstReadySlot : Prop :=
  ∀ (s : State) (c : Nat),
    let at_ := fun k => s.threadAt (c * 16 + k)
    let after := fun k => (k + 15 * (tget 15 s.lastSlot c + 1)) % 16
    match pickThread s c with
    | none => ∀ k < 16, runnable s (at_ k) = false
    | some (place, now) => ∃ k < 16, (at_ k).place = place ∧ runnable s (at_ k) = true ∧ s.clock < now ∧
        ((at_ k).leftAt ≠ 0 → (at_ k).leftAt + 8 ≤ now) ∧
        ∀ j < 16, runnable s (at_ j) = true →
          (now = s.clock + 1 ∨ (at_ j).leftAt ≠ 0 ∧ now ≤ (at_ j).leftAt + 8) ∧
          ((at_ j).leftAt = 0 ∨ (at_ j).leftAt + 8 ≤ now → after k ≤ after j)

/-- What reset leaves (R379, and R26, R28, R31, R33, R345, R350, R372, R357, R359 for the parts named): every SRAM, cache and TLB
empty, no messages, queues empty, counters zero, plat entries FREE, every point 7, no package number or plane; and the
memory is in its canonical form. That every FEAT is complete and that registers of unbound slots are zero is the model's
choice (log 2, log 13). -/
def Obligations.ResetState : Prop :=
  let r := State.reset
  Inv r ∧ r.scratch = [] ∧ r.scratchPoison = [] ∧ r.l2 = [] ∧ r.llc = [] ∧ r.mshrs = [] ∧ r.ingress = [] ∧
    r.walks = [] ∧ r.walkQueue = [] ∧ r.ctxRoots = [] ∧ r.pwc = [] ∧ r.utlb = [] ∧
    r.ttlb = [] ∧ r.ctlb = [] ∧ r.dtlb = [] ∧ r.marks = [] ∧ r.flight = [] ∧ r.hold = [] ∧ r.parties = [] ∧
    r.pkgNo = 0 ∧ r.planes = 0 ∧ r.domainSet = false ∧ r.launched = false ∧ r.clock = 0 ∧ r.shutDown = false ∧
    (∀ c, r.core c = { feat := 0x3F }) ∧ (∀ q, (r.queue q).fifo = [] ∧ r.queue q = {}) ∧
    (∀ n, let x := r.counter n; x.val = 0 ∧ x.trig = 0 ∧ x.worst = 0 ∧ x.tcause = 0 ∧ x.trank = 0) ∧
    (∀ place, (tget {} r.plat place).st = .free ∧ (r.threadAt place).status = .free) ∧
    (∀ t, (r.tile t).point = 7 ∧ (r.tile t).trip = false) ∧
    (∀ c, let o : OpReq := tget {} r.opreq c; o.hinten = false ∧ o.floor = 7 ∧ o.req = 7) ∧
    (∀ h, let p := r.host h; p.istatus = 0 ∧ p.ienable = 0 ∧ p.submitted = false) ∧
    (∀ place n, n < 56 → let x := (r.threadAt place).reg n; x.val = 0 ∧ x.sb = .ready ∧ x.pb = false) ∧
    ∀ place, let t := r.threadAt place
      t.z0 = 0 ∧ t.z1 = 0 ∧ t.stat.mode = false ∧ t.stat.pp = false ∧ t.stat.la = false ∧ t.stat.flags = 0 ∧
        t.latchA = none ∧ t.latchB = none

/-- Every step keeps memory and scratchpads in their one canonical form: addresses strictly rising, no zero byte
listed. The model's choices in it: log 1. -/
def Obligations.StepKeepsInv : Prop := ∀ s t : State, Inv s → step s = .next t → Inv t
end

