-- ==== Sys2Proof/Laws/Dispatch.lean ====
section
/-!
SUPPORT. The dispatch, one equation for each row, so that no proof unfolds exec.
-/

namespace Sys2Proof.Machine

@[simp] theorem exec_add (d a b : RegCode) (hA hB : Bool) (s : State) : exec (.add d a b hA hB) s = execAdd d a b hA hB s := rfl
@[simp] theorem exec_sub (d a b : RegCode) (hA hB : Bool) (s : State) : exec (.sub d a b hA hB) s = execSub d a b hA hB s := rfl
@[simp] theorem exec_mul (d a b : RegCode) (hA hB : Bool) (s : State) : exec (.mul d a b hA hB) s = execMul d a b hA hB s := rfl
@[simp] theorem exec_mulh (d a b : RegCode) (hA hB : Bool) (s : State) : exec (.mulh d a b hA hB) s = execMulh d a b hA hB s := rfl
@[simp] theorem exec_mulhu (d a b : RegCode) (hA hB : Bool) (s : State) : exec (.mulhu d a b hA hB) s = execMulhu d a b hA hB s := rfl
@[simp] theorem exec_div (d a b : RegCode) (hA hB : Bool) (s : State) : exec (.div d a b hA hB) s = execDiv d a b hA hB s := rfl
@[simp] theorem exec_divu (d a b : RegCode) (hA hB : Bool) (s : State) : exec (.divu d a b hA hB) s = execDivu d a b hA hB s := rfl
@[simp] theorem exec_rem (d a b : RegCode) (hA hB : Bool) (s : State) : exec (.rem d a b hA hB) s = execRem d a b hA hB s := rfl
@[simp] theorem exec_remu (d a b : RegCode) (hA hB : Bool) (s : State) : exec (.remu d a b hA hB) s = execRemu d a b hA hB s := rfl
@[simp] theorem exec_and (d a b : RegCode) (hA hB : Bool) (s : State) : exec (.and d a b hA hB) s = execAnd d a b hA hB s := rfl
@[simp] theorem exec_or (d a b : RegCode) (hA hB : Bool) (s : State) : exec (.or d a b hA hB) s = execOr d a b hA hB s := rfl
@[simp] theorem exec_xor (d a b : RegCode) (hA hB : Bool) (s : State) : exec (.xor d a b hA hB) s = execXor d a b hA hB s := rfl
@[simp] theorem exec_andn (d a b : RegCode) (hA hB : Bool) (s : State) : exec (.andn d a b hA hB) s = execAndn d a b hA hB s := rfl
@[simp] theorem exec_sll (d a b : RegCode) (hA hB : Bool) (s : State) : exec (.sll d a b hA hB) s = execSll d a b hA hB s := rfl
@[simp] theorem exec_srl (d a b : RegCode) (hA hB : Bool) (s : State) : exec (.srl d a b hA hB) s = execSrl d a b hA hB s := rfl
@[simp] theorem exec_sra (d a b : RegCode) (hA hB : Bool) (s : State) : exec (.sra d a b hA hB) s = execSra d a b hA hB s := rfl
@[simp] theorem exec_rol (d a b : RegCode) (hA hB : Bool) (s : State) : exec (.rol d a b hA hB) s = execRol d a b hA hB s := rfl
@[simp] theorem exec_ror (d a b : RegCode) (hA hB : Bool) (s : State) : exec (.ror d a b hA hB) s = execRor d a b hA hB s := rfl
@[simp] theorem exec_min (d a b : RegCode) (hA hB : Bool) (s : State) : exec (.min d a b hA hB) s = execMin d a b hA hB s := rfl
@[simp] theorem exec_max (d a b : RegCode) (hA hB : Bool) (s : State) : exec (.max d a b hA hB) s = execMax d a b hA hB s := rfl
@[simp] theorem exec_minu (d a b : RegCode) (hA hB : Bool) (s : State) : exec (.minu d a b hA hB) s = execMinu d a b hA hB s := rfl
@[simp] theorem exec_maxu (d a b : RegCode) (hA hB : Bool) (s : State) : exec (.maxu d a b hA hB) s = execMaxu d a b hA hB s := rfl
@[simp] theorem exec_slt (d a b : RegCode) (hA hB : Bool) (s : State) : exec (.slt d a b hA hB) s = execSlt d a b hA hB s := rfl
@[simp] theorem exec_sltu (d a b : RegCode) (hA hB : Bool) (s : State) : exec (.sltu d a b hA hB) s = execSltu d a b hA hB s := rfl
@[simp] theorem exec_seq (d a b : RegCode) (hA hB : Bool) (s : State) : exec (.seq d a b hA hB) s = execSeq d a b hA hB s := rfl
@[simp] theorem exec_addw (d a b : RegCode) (hA hB : Bool) (s : State) : exec (.addw d a b hA hB) s = execAddw d a b hA hB s := rfl
@[simp] theorem exec_subw (d a b : RegCode) (hA hB : Bool) (s : State) : exec (.subw d a b hA hB) s = execSubw d a b hA hB s := rfl
@[simp] theorem exec_mulw (d a b : RegCode) (hA hB : Bool) (s : State) : exec (.mulw d a b hA hB) s = execMulw d a b hA hB s := rfl
@[simp] theorem exec_divw (d a b : RegCode) (hA hB : Bool) (s : State) : exec (.divw d a b hA hB) s = execDivw d a b hA hB s := rfl
@[simp] theorem exec_divuw (d a b : RegCode) (hA hB : Bool) (s : State) : exec (.divuw d a b hA hB) s = execDivuw d a b hA hB s := rfl
@[simp] theorem exec_remw (d a b : RegCode) (hA hB : Bool) (s : State) : exec (.remw d a b hA hB) s = execRemw d a b hA hB s := rfl
@[simp] theorem exec_remuw (d a b : RegCode) (hA hB : Bool) (s : State) : exec (.remuw d a b hA hB) s = execRemuw d a b hA hB s := rfl
@[simp] theorem exec_sllw (d a b : RegCode) (hA hB : Bool) (s : State) : exec (.sllw d a b hA hB) s = execSllw d a b hA hB s := rfl
@[simp] theorem exec_srlw (d a b : RegCode) (hA hB : Bool) (s : State) : exec (.srlw d a b hA hB) s = execSrlw d a b hA hB s := rfl
@[simp] theorem exec_sraw (d a b : RegCode) (hA hB : Bool) (s : State) : exec (.sraw d a b hA hB) s = execSraw d a b hA hB s := rfl
@[simp] theorem exec_rolw (d a b : RegCode) (hA hB : Bool) (s : State) : exec (.rolw d a b hA hB) s = execRolw d a b hA hB s := rfl
@[simp] theorem exec_rorw (d a b : RegCode) (hA hB : Bool) (s : State) : exec (.rorw d a b hA hB) s = execRorw d a b hA hB s := rfl
@[simp] theorem exec_addi (d a : RegCode) (imm : BitVec 14) (s : State) : exec (.addi d a imm) s = execAddi d a imm s := rfl
@[simp] theorem exec_addiw (d a : RegCode) (imm : BitVec 14) (s : State) : exec (.addiw d a imm) s = execAddiw d a imm s := rfl
@[simp] theorem exec_andi (d a : RegCode) (imm : BitVec 12) (s : State) : exec (.andi d a imm) s = execAndi d a imm s := rfl
@[simp] theorem exec_ori (d a : RegCode) (imm : BitVec 12) (s : State) : exec (.ori d a imm) s = execOri d a imm s := rfl
@[simp] theorem exec_xori (d a : RegCode) (imm : BitVec 12) (s : State) : exec (.xori d a imm) s = execXori d a imm s := rfl
@[simp] theorem exec_slli (d a : RegCode) (sh : BitVec 6) (s : State) : exec (.slli d a sh) s = execSlli d a sh s := rfl
@[simp] theorem exec_slliw (d a : RegCode) (sh : BitVec 5) (s : State) : exec (.slliw d a sh) s = execSlliw d a sh s := rfl
@[simp] theorem exec_srli (d a : RegCode) (sh : BitVec 6) (s : State) : exec (.srli d a sh) s = execSrli d a sh s := rfl
@[simp] theorem exec_srliw (d a : RegCode) (sh : BitVec 5) (s : State) : exec (.srliw d a sh) s = execSrliw d a sh s := rfl
@[simp] theorem exec_srai (d a : RegCode) (sh : BitVec 6) (s : State) : exec (.srai d a sh) s = execSrai d a sh s := rfl
@[simp] theorem exec_sraiw (d a : RegCode) (sh : BitVec 5) (s : State) : exec (.sraiw d a sh) s = execSraiw d a sh s := rfl
@[simp] theorem exec_rori (d a : RegCode) (sh : BitVec 6) (s : State) : exec (.rori d a sh) s = execRori d a sh s := rfl
@[simp] theorem exec_roriw (d a : RegCode) (sh : BitVec 5) (s : State) : exec (.roriw d a sh) s = execRoriw d a sh s := rfl
@[simp] theorem exec_slti (d a : RegCode) (imm : BitVec 12) (s : State) : exec (.slti d a imm) s = execSlti d a imm s := rfl
@[simp] theorem exec_sltiu (d a : RegCode) (imm : BitVec 12) (s : State) : exec (.sltiu d a imm) s = execSltiu d a imm s := rfl
@[simp] theorem exec_seqi (d a : RegCode) (imm : BitVec 12) (s : State) : exec (.seqi d a imm) s = execSeqi d a imm s := rfl
@[simp] theorem exec_lih (d : RegCode) (imm : BitVec 20) (s : State) : exec (.lih d imm) s = execLih d imm s := rfl
@[simp] theorem exec_addpc (d : RegCode) (imm : BitVec 20) (s : State) : exec (.addpc d imm) s = execAddpc d imm s := rfl
@[simp] theorem exec_brEq (a b : RegCode) (off : BitVec 11) (s : State) : exec (.brEq a b off) s = execBrEq a b off s := rfl
@[simp] theorem exec_brNe (a b : RegCode) (off : BitVec 11) (s : State) : exec (.brNe a b off) s = execBrNe a b off s := rfl
@[simp] theorem exec_brLt (a b : RegCode) (off : BitVec 11) (s : State) : exec (.brLt a b off) s = execBrLt a b off s := rfl
@[simp] theorem exec_brGe (a b : RegCode) (off : BitVec 11) (s : State) : exec (.brGe a b off) s = execBrGe a b off s := rfl
@[simp] theorem exec_brLtu (a b : RegCode) (off : BitVec 11) (s : State) : exec (.brLtu a b off) s = execBrLtu a b off s := rfl
@[simp] theorem exec_brGeu (a b : RegCode) (off : BitVec 11) (s : State) : exec (.brGeu a b off) s = execBrGeu a b off s := rfl
@[simp] theorem exec_bzEqz (a : RegCode) (off : BitVec 18) (s : State) : exec (.bzEqz a off) s = execBzEqz a off s := rfl
@[simp] theorem exec_bzNez (a : RegCode) (off : BitVec 18) (s : State) : exec (.bzNez a off) s = execBzNez a off s := rfl
@[simp] theorem exec_bzLtz (a : RegCode) (off : BitVec 18) (s : State) : exec (.bzLtz a off) s = execBzLtz a off s := rfl
@[simp] theorem exec_bzGez (a : RegCode) (off : BitVec 18) (s : State) : exec (.bzGez a off) s = execBzGez a off s := rfl
@[simp] theorem exec_jal (d : RegCode) (off : BitVec 20) (s : State) : exec (.jal d off) s = execJal d off s := rfl
@[simp] theorem exec_jalr (d a : RegCode) (imm : BitVec 14) (s : State) : exec (.jalr d a imm) s = execJalr d a imm s := rfl
@[simp] theorem exec_loop (a : RegCode) (n : BitVec 6) (s : State) : exec (.loop a n) s = execLoop a n s := rfl
@[simp] theorem exec_sel (d a b : RegCode) (hA hB : Bool) (s : State) : exec (.sel d a b hA hB) s = execSel d a b hA hB s := rfl
@[simp] theorem exec_clz (d a : RegCode) (hA : Bool) (s : State) : exec (.clz d a hA) s = execClz d a hA s := rfl
@[simp] theorem exec_ctz (d a : RegCode) (hA : Bool) (s : State) : exec (.ctz d a hA) s = execCtz d a hA s := rfl
@[simp] theorem exec_popc (d a : RegCode) (hA : Bool) (s : State) : exec (.popc d a hA) s = execPopc d a hA s := rfl
@[simp] theorem exec_brev (d a : RegCode) (hA : Bool) (s : State) : exec (.brev d a hA) s = execBrev d a hA s := rfl
@[simp] theorem exec_bswap (d a : RegCode) (hA : Bool) (s : State) : exec (.bswap d a hA) s = execBswap d a hA s := rfl
@[simp] theorem exec_bfx (d a b : RegCode) (hA hB : Bool) (s : State) : exec (.bfx d a b hA hB) s = execBfx d a b hA hB s := rfl
@[simp] theorem exec_bfxu (d a b : RegCode) (hA hB : Bool) (s : State) : exec (.bfxu d a b hA hB) s = execBfxu d a b hA hB s := rfl
@[simp] theorem exec_bfi (d a b : RegCode) (hA hB : Bool) (s : State) : exec (.bfi d a b hA hB) s = execBfi d a b hA hB s := rfl
@[simp] theorem exec_ld (d a : RegCode) (size : BitVec 2) (uns : Bool) (off : BitVec 11) (s : State) : exec (.ld d a size uns off) s = execLd d a size uns off s := rfl
@[simp] theorem exec_st (d a : RegCode) (size : BitVec 2) (off : BitVec 11) (s : State) : exec (.st d a size off) s = execSt d a size off s := rfl
@[simp] theorem exec_ldx (d a b : RegCode) (hA hB : Bool) (size : BitVec 2) (uns : Bool) (s : State) : exec (.ldx d a b hA hB size uns) s = execLdx d a b hA hB size uns s := rfl
@[simp] theorem exec_stx (d a b : RegCode) (hA hB : Bool) (size : BitVec 2) (s : State) : exec (.stx d a b hA hB size) s = execStx d a b hA hB size s := rfl
@[simp] theorem exec_ldxAcq (d a b : RegCode) (hA hB dbl : Bool) (sc : Scope) (s : State) : exec (.ldxAcq d a b hA hB dbl sc) s = execLdxAcq d a b hA hB dbl sc s := rfl
@[simp] theorem exec_stxRel (d a b : RegCode) (hA hB dbl : Bool) (sc : Scope) (s : State) : exec (.stxRel d a b hA hB dbl sc) s = execStxRel d a b hA hB dbl sc s := rfl
@[simp] theorem exec_ldbitU (d a b : RegCode) (hA hB : Bool) (n : BitVec 4) (s : State) : exec (.ldbitU d a b hA hB n) s = execLdbitU d a b hA hB n s := rfl
@[simp] theorem exec_ldbitS (d a b : RegCode) (hA hB : Bool) (n : BitVec 4) (s : State) : exec (.ldbitS d a b hA hB n) s = execLdbitS d a b hA hB n s := rfl
@[simp] theorem exec_stbit (d a b : RegCode) (hA hB : Bool) (n : BitVec 4) (s : State) : exec (.stbit d a b hA hB n) s = execStbit d a b hA hB n s := rfl
@[simp] theorem exec_amoAdd (d a : RegCode) (sc : Scope) (ord : BitVec 2) (dbl hA : Bool) (s : State) : exec (.amoAdd d a sc ord dbl hA) s = execAmoAdd d a sc ord dbl hA s := rfl
@[simp] theorem exec_amoAnd (d a : RegCode) (sc : Scope) (ord : BitVec 2) (dbl hA : Bool) (s : State) : exec (.amoAnd d a sc ord dbl hA) s = execAmoAnd d a sc ord dbl hA s := rfl
@[simp] theorem exec_amoOr (d a : RegCode) (sc : Scope) (ord : BitVec 2) (dbl hA : Bool) (s : State) : exec (.amoOr d a sc ord dbl hA) s = execAmoOr d a sc ord dbl hA s := rfl
@[simp] theorem exec_amoXor (d a : RegCode) (sc : Scope) (ord : BitVec 2) (dbl hA : Bool) (s : State) : exec (.amoXor d a sc ord dbl hA) s = execAmoXor d a sc ord dbl hA s := rfl
@[simp] theorem exec_amoMin (d a : RegCode) (sc : Scope) (ord : BitVec 2) (dbl hA : Bool) (s : State) : exec (.amoMin d a sc ord dbl hA) s = execAmoMin d a sc ord dbl hA s := rfl
@[simp] theorem exec_amoMax (d a : RegCode) (sc : Scope) (ord : BitVec 2) (dbl hA : Bool) (s : State) : exec (.amoMax d a sc ord dbl hA) s = execAmoMax d a sc ord dbl hA s := rfl
@[simp] theorem exec_amoMinu (d a : RegCode) (sc : Scope) (ord : BitVec 2) (dbl hA : Bool) (s : State) : exec (.amoMinu d a sc ord dbl hA) s = execAmoMinu d a sc ord dbl hA s := rfl
@[simp] theorem exec_amoMaxu (d a : RegCode) (sc : Scope) (ord : BitVec 2) (dbl hA : Bool) (s : State) : exec (.amoMaxu d a sc ord dbl hA) s = execAmoMaxu d a sc ord dbl hA s := rfl
@[simp] theorem exec_amoXchg (d a : RegCode) (sc : Scope) (ord : BitVec 2) (dbl hA : Bool) (s : State) : exec (.amoXchg d a sc ord dbl hA) s = execAmoXchg d a sc ord dbl hA s := rfl
@[simp] theorem exec_amoFadd32 (d a : RegCode) (sc : Scope) (ord : BitVec 2) (hA : Bool) (s : State) : exec (.amoFadd32 d a sc ord hA) s = execAmoFadd32 d a sc ord hA s := rfl
@[simp] theorem exec_cas (d a b : RegCode) (hA hB : Bool) (sc : Scope) (ord : BitVec 2) (dbl : Bool) (s : State) : exec (.cas d a b hA hB sc ord dbl) s = execCas d a b hA hB sc ord dbl s := rfl
@[simp] theorem exec_fenceAcq (sc : Scope) (s : State) : exec (.fenceAcq sc) s = execFenceAcq sc s := rfl
@[simp] theorem exec_fenceRel (sc : Scope) (s : State) : exec (.fenceRel sc) s = execFenceRel sc s := rfl
@[simp] theorem exec_fenceFull (sc : Scope) (s : State) : exec (.fenceFull sc) s = execFenceFull sc s := rfl
@[simp] theorem exec_pref (a : RegCode) (off : BitVec 8) (s : State) : exec (.pref a off) s = execPref a off s := rfl
@[simp] theorem exec_prefL2 (a : RegCode) (off : BitVec 8) (s : State) : exec (.prefL2 a off) s = execPrefL2 a off s := rfl
@[simp] theorem exec_clwb (a : RegCode) (sc : Scope) (off : BitVec 8) (s : State) : exec (.clwb a sc off) s = execClwb a sc off s := rfl
@[simp] theorem exec_clinv (a : RegCode) (sc : Scope) (off : BitVec 8) (s : State) : exec (.clinv a sc off) s = execClinv a sc off s := rfl
@[simp] theorem exec_fadd (d a b : RegCode) (hA hB : Bool) (s : State) : exec (.fadd d a b hA hB) s = execFadd d a b hA hB s := rfl
@[simp] theorem exec_fsub (d a b : RegCode) (hA hB : Bool) (s : State) : exec (.fsub d a b hA hB) s = execFsub d a b hA hB s := rfl
@[simp] theorem exec_fmul (d a b : RegCode) (hA hB : Bool) (s : State) : exec (.fmul d a b hA hB) s = execFmul d a b hA hB s := rfl
@[simp] theorem exec_fdiv (d a b : RegCode) (hA hB : Bool) (s : State) : exec (.fdiv d a b hA hB) s = execFdiv d a b hA hB s := rfl
@[simp] theorem exec_fsqrt (d a : RegCode) (hA : Bool) (s : State) : exec (.fsqrt d a hA) s = execFsqrt d a hA s := rfl
@[simp] theorem exec_fmin (d a b : RegCode) (hA hB : Bool) (s : State) : exec (.fmin d a b hA hB) s = execFmin d a b hA hB s := rfl
@[simp] theorem exec_fmax (d a b : RegCode) (hA hB : Bool) (s : State) : exec (.fmax d a b hA hB) s = execFmax d a b hA hB s := rfl
@[simp] theorem exec_fabs (d a : RegCode) (hA : Bool) (s : State) : exec (.fabs d a hA) s = execFabs d a hA s := rfl
@[simp] theorem exec_fneg (d a : RegCode) (hA : Bool) (s : State) : exec (.fneg d a hA) s = execFneg d a hA s := rfl
@[simp] theorem exec_fcps (d a b : RegCode) (hA hB : Bool) (s : State) : exec (.fcps d a b hA hB) s = execFcps d a b hA hB s := rfl
@[simp] theorem exec_frnd (d a : RegCode) (hA : Bool) (s : State) : exec (.frnd d a hA) s = execFrnd d a hA s := rfl
@[simp] theorem exec_fmac (d a b : RegCode) (hA hB : Bool) (s : State) : exec (.fmac d a b hA hB) s = execFmac d a b hA hB s := rfl
@[simp] theorem exec_fmsc (d a b : RegCode) (hA hB : Bool) (s : State) : exec (.fmsc d a b hA hB) s = execFmsc d a b hA hB s := rfl
@[simp] theorem exec_fnmac (d a b : RegCode) (hA hB : Bool) (s : State) : exec (.fnmac d a b hA hB) s = execFnmac d a b hA hB s := rfl
@[simp] theorem exec_feq (d a b : RegCode) (hA hB : Bool) (s : State) : exec (.feq d a b hA hB) s = execFeq d a b hA hB s := rfl
@[simp] theorem exec_flt (d a b : RegCode) (hA hB : Bool) (s : State) : exec (.flt d a b hA hB) s = execFlt d a b hA hB s := rfl
@[simp] theorem exec_fle (d a b : RegCode) (hA hB : Bool) (s : State) : exec (.fle d a b hA hB) s = execFle d a b hA hB s := rfl
@[simp] theorem exec_fclass (d a : RegCode) (hA : Bool) (s : State) : exec (.fclass d a hA) s = execFclass d a hA s := rfl
@[simp] theorem exec_fcvt (d a : RegCode) (hA : Bool) (s : State) : exec (.fcvt d a hA) s = execFcvt d a hA s := rfl
@[simp] theorem exec_fcvti (d a : RegCode) (hA : Bool) (s : State) : exec (.fcvti d a hA) s = execFcvti d a hA s := rfl
@[simp] theorem exec_fcvtf (d a : RegCode) (hA : Bool) (s : State) : exec (.fcvtf d a hA) s = execFcvtf d a hA s := rfl
@[simp] theorem exec_pfx (fa fb fd : BitVec 4) (rnd : BitVec 3) (sat : Bool) (s : State) : exec (.pfx fa fb fd rnd sat) s = execPfx fa fb fd rnd sat s := rfl
@[simp] theorem exec_vadd (vd va vb : BitVec 3) (q : BitVec 2) (ty : VType) (s : State) : exec (.vadd vd va vb q ty) s = execVadd vd va vb q ty s := rfl
@[simp] theorem exec_vsub (vd va vb : BitVec 3) (q : BitVec 2) (ty : VType) (s : State) : exec (.vsub vd va vb q ty) s = execVsub vd va vb q ty s := rfl
@[simp] theorem exec_vmul (vd va vb : BitVec 3) (q : BitVec 2) (ty : VType) (s : State) : exec (.vmul vd va vb q ty) s = execVmul vd va vb q ty s := rfl
@[simp] theorem exec_vmin (vd va vb : BitVec 3) (q : BitVec 2) (ty : VType) (s : State) : exec (.vmin vd va vb q ty) s = execVmin vd va vb q ty s := rfl
@[simp] theorem exec_vmax (vd va vb : BitVec 3) (q : BitVec 2) (ty : VType) (s : State) : exec (.vmax vd va vb q ty) s = execVmax vd va vb q ty s := rfl
@[simp] theorem exec_vand (vd va vb : BitVec 3) (q : BitVec 2) (s : State) : exec (.vand vd va vb q) s = execVand vd va vb q s := rfl
@[simp] theorem exec_vor (vd va vb : BitVec 3) (q : BitVec 2) (s : State) : exec (.vor vd va vb q) s = execVor vd va vb q s := rfl
@[simp] theorem exec_vxor (vd va vb : BitVec 3) (q : BitVec 2) (s : State) : exec (.vxor vd va vb q) s = execVxor vd va vb q s := rfl
@[simp] theorem exec_vshl (vd va vb : BitVec 3) (q : BitVec 2) (ty : VType) (s : State) : exec (.vshl vd va vb q ty) s = execVshl vd va vb q ty s := rfl
@[simp] theorem exec_vshr (vd va vb : BitVec 3) (q : BitVec 2) (ty : VType) (s : State) : exec (.vshr vd va vb q ty) s = execVshr vd va vb q ty s := rfl
@[simp] theorem exec_vsra (vd va vb : BitVec 3) (q : BitVec 2) (ty : VType) (s : State) : exec (.vsra vd va vb q ty) s = execVsra vd va vb q ty s := rfl
@[simp] theorem exec_vsel (vd va vb : BitVec 3) (q : BitVec 2) (s : State) : exec (.vsel vd va vb q) s = execVsel vd va vb q s := rfl
@[simp] theorem exec_vcmp (qd : BitVec 2) (va vb : BitVec 3) (q : BitVec 2) (ty : VType) (cond : BitVec 3) (s : State) : exec (.vcmp qd va vb q ty cond) s = execVcmp qd va vb q ty cond s := rfl
@[simp] theorem exec_vcvt (vd va part : BitVec 3) (q : BitVec 2) (ty : VType) (s : State) : exec (.vcvt vd va part q ty) s = execVcvt vd va part q ty s := rfl
@[simp] theorem exec_vaddVs (vd va : BitVec 3) (q : BitVec 2) (ty : VType) (g : RegCode) (s : State) : exec (.vaddVs vd va q ty g) s = execVaddVs vd va q ty g s := rfl
@[simp] theorem exec_vsubVs (vd va : BitVec 3) (q : BitVec 2) (ty : VType) (g : RegCode) (s : State) : exec (.vsubVs vd va q ty g) s = execVsubVs vd va q ty g s := rfl
@[simp] theorem exec_vmulVs (vd va : BitVec 3) (q : BitVec 2) (ty : VType) (g : RegCode) (s : State) : exec (.vmulVs vd va q ty g) s = execVmulVs vd va q ty g s := rfl
@[simp] theorem exec_vminVs (vd va : BitVec 3) (q : BitVec 2) (ty : VType) (g : RegCode) (s : State) : exec (.vminVs vd va q ty g) s = execVminVs vd va q ty g s := rfl
@[simp] theorem exec_vmaxVs (vd va : BitVec 3) (q : BitVec 2) (ty : VType) (g : RegCode) (s : State) : exec (.vmaxVs vd va q ty g) s = execVmaxVs vd va q ty g s := rfl
@[simp] theorem exec_vandVs (vd va : BitVec 3) (q : BitVec 2) (g : RegCode) (s : State) : exec (.vandVs vd va q g) s = execVandVs vd va q g s := rfl
@[simp] theorem exec_vorVs (vd va : BitVec 3) (q : BitVec 2) (g : RegCode) (s : State) : exec (.vorVs vd va q g) s = execVorVs vd va q g s := rfl
@[simp] theorem exec_vxorVs (vd va : BitVec 3) (q : BitVec 2) (g : RegCode) (s : State) : exec (.vxorVs vd va q g) s = execVxorVs vd va q g s := rfl
@[simp] theorem exec_vshlVs (vd va : BitVec 3) (q : BitVec 2) (ty : VType) (g : RegCode) (s : State) : exec (.vshlVs vd va q ty g) s = execVshlVs vd va q ty g s := rfl
@[simp] theorem exec_vshrVs (vd va : BitVec 3) (q : BitVec 2) (ty : VType) (g : RegCode) (s : State) : exec (.vshrVs vd va q ty g) s = execVshrVs vd va q ty g s := rfl
@[simp] theorem exec_vsraVs (vd va : BitVec 3) (q : BitVec 2) (ty : VType) (g : RegCode) (s : State) : exec (.vsraVs vd va q ty g) s = execVsraVs vd va q ty g s := rfl
@[simp] theorem exec_vselVs (vd va : BitVec 3) (q : BitVec 2) (g : RegCode) (s : State) : exec (.vselVs vd va q g) s = execVselVs vd va q g s := rfl
@[simp] theorem exec_vcmpVs (qd : BitVec 2) (va : BitVec 3) (q : BitVec 2) (ty : VType) (g : RegCode) (cond : BitVec 3) (s : State) : exec (.vcmpVs qd va q ty g cond) s = execVcmpVs qd va q ty g cond s := rfl
@[simp] theorem exec_vmac (vd va vb : BitVec 3) (q : BitVec 2) (ty : VType) (s : State) : exec (.vmac vd va vb q ty) s = execVmac vd va vb q ty s := rfl
@[simp] theorem exec_vmacVs (vd va : BitVec 3) (q : BitVec 2) (ty : VType) (g : RegCode) (s : State) : exec (.vmacVs vd va q ty g) s = execVmacVs vd va q ty g s := rfl
@[simp] theorem exec_vdot4 (vd va vb : BitVec 3) (q : BitVec 2) (ty : VType) (s : State) : exec (.vdot4 vd va vb q ty) s = execVdot4 vd va vb q ty s := rfl
@[simp] theorem exec_vdot4Vs (vd va : BitVec 3) (q : BitVec 2) (ty : VType) (g : RegCode) (s : State) : exec (.vdot4Vs vd va q ty g) s = execVdot4Vs vd va q ty g s := rfl
@[simp] theorem exec_vld (vd : BitVec 3) (q : BitVec 2) (g : RegCode) (s : State) : exec (.vld vd q g) s = execVld vd q g s := rfl
@[simp] theorem exec_vst (vd : BitVec 3) (q : BitVec 2) (g : RegCode) (s : State) : exec (.vst vd q g) s = execVst vd q g s := rfl
@[simp] theorem exec_vlds (vd : BitVec 3) (q : BitVec 2) (g : RegCode) (s : State) : exec (.vlds vd q g) s = execVlds vd q g s := rfl
@[simp] theorem exec_vsts (vd : BitVec 3) (q : BitVec 2) (g : RegCode) (s : State) : exec (.vsts vd q g) s = execVsts vd q g s := rfl
@[simp] theorem exec_vgather (vd va : BitVec 3) (q : BitVec 2) (ty : VType) (g : RegCode) (s : State) : exec (.vgather vd va q ty g) s = execVgather vd va q ty g s := rfl
@[simp] theorem exec_vgatherP (vd va : BitVec 3) (c q : BitVec 2) (ty : VType) (g : RegCode) (s : State) : exec (.vgatherP vd va c q ty g) s = execVgatherP vd va c q ty g s := rfl
@[simp] theorem exec_vscatter (vd va : BitVec 3) (q : BitVec 2) (ty : VType) (g : RegCode) (s : State) : exec (.vscatter vd va q ty g) s = execVscatter vd va q ty g s := rfl
@[simp] theorem exec_vldbitU (vd : BitVec 3) (q : BitVec 2) (g : RegCode) (n : BitVec 4) (s : State) : exec (.vldbitU vd q g n) s = execVldbitU vd q g n s := rfl
@[simp] theorem exec_vldbitS (vd : BitVec 3) (q : BitVec 2) (g : RegCode) (n : BitVec 4) (s : State) : exec (.vldbitS vd q g n) s = execVldbitS vd q g n s := rfl
@[simp] theorem exec_vstbit (vd : BitVec 3) (q : BitVec 2) (g : RegCode) (n : BitVec 4) (s : State) : exec (.vstbit vd q g n) s = execVstbit vd q g n s := rfl
@[simp] theorem exec_vbcast (vd : BitVec 3) (q : BitVec 2) (ty : VType) (g : RegCode) (s : State) : exec (.vbcast vd q ty g) s = execVbcast vd q ty g s := rfl
@[simp] theorem exec_vext (va : BitVec 3) (lane : BitVec 5) (ty : VType) (g : RegCode) (s : State) : exec (.vext va lane ty g) s = execVext va lane ty g s := rfl
@[simp] theorem exec_vperm (vd va vb : BitVec 3) (q : BitVec 2) (s : State) : exec (.vperm vd va vb q) s = execVperm vd va vb q s := rfl
@[simp] theorem exec_vshuf (vd va vb : BitVec 3) (q : BitVec 2) (g : RegCode) (s : State) : exec (.vshuf vd va vb q g) s = execVshuf vd va vb q g s := rfl
@[simp] theorem exec_vrot (vd va : BitVec 3) (q : BitVec 2) (g : RegCode) (s : State) : exec (.vrot vd va q g) s = execVrot vd va q g s := rfl
@[simp] theorem exec_vred (va : BitVec 3) (q : BitVec 2) (ty : VType) (g : RegCode) (op : BitVec 3) (s : State) : exec (.vred va q ty g op) s = execVred va q ty g op s := rfl
@[simp] theorem exec_vscan (vd va : BitVec 3) (q : BitVec 2) (ty : VType) (op : BitVec 3) (s : State) : exec (.vscan vd va q ty op) s = execVscan vd va q ty op s := rfl
@[simp] theorem exec_mand (qd qa qb : BitVec 2) (s : State) : exec (.mand qd qa qb) s = execMand qd qa qb s := rfl
@[simp] theorem exec_mor (qd qa qb : BitVec 2) (s : State) : exec (.mor qd qa qb) s = execMor qd qa qb s := rfl
@[simp] theorem exec_mxor (qd qa qb : BitVec 2) (s : State) : exec (.mxor qd qa qb) s = execMxor qd qa qb s := rfl
@[simp] theorem exec_mnot (qd qa : BitVec 2) (s : State) : exec (.mnot qd qa) s = execMnot qd qa s := rfl
@[simp] theorem exec_mpopc (qa : BitVec 2) (g : RegCode) (s : State) : exec (.mpopc qa g) s = execMpopc qa g s := rfl
@[simp] theorem exec_mfirst (qa : BitVec 2) (g : RegCode) (s : State) : exec (.mfirst qa g) s = execMfirst qa g s := rfl
@[simp] theorem exec_mmov (qd : BitVec 2) (g : RegCode) (s : State) : exec (.mmov qd g) s = execMmov qd g s := rfl
@[simp] theorem exec_mrd (qa : BitVec 2) (g : RegCode) (s : State) : exec (.mrd qa g) s = execMrd qa g s := rfl
@[simp] theorem exec_bar (s : State) : exec .bar s = execBar s := rfl
@[simp] theorem exec_trig (s : State) : exec .trig s = execTrig s := rfl
@[simp] theorem exec_exit (s : State) : exec .exit s = execExit s := rfl
@[simp] theorem exec_yield (s : State) : exec .yield s = execYield s := rfl
@[simp] theorem exec_sleep (a : RegCode) (hA : Bool) (s : State) : exec (.sleep a hA) s = execSleep a hA s := rfl
@[simp] theorem exec_migpt (s : State) : exec .migpt s = execMigpt s := rfl
@[simp] theorem exec_hint (phase : BitVec 2) (s : State) : exec (.hint phase) s = execHint phase s := rfl
@[simp] theorem exec_arm (d : RegCode) (s : State) : exec (.arm d) s = execArm d s := rfl
@[simp] theorem exec_armAcq (d : RegCode) (sc : Scope) (s : State) : exec (.armAcq d sc) s = execArmAcq d sc s := rfl
@[simp] theorem exec_sendr (a b : RegCode) (hA hB : Bool) (s : State) : exec (.sendr a b hA hB) s = execSendr a b hA hB s := rfl
@[simp] theorem exec_sendrRel (a b : RegCode) (hA hB : Bool) (sc : Scope) (s : State) : exec (.sendrRel a b hA hB sc) s = execSendrRel a b hA hB sc s := rfl
@[simp] theorem exec_sendrW (a b : RegCode) (hA hB : Bool) (s : State) : exec (.sendrW a b hA hB) s = execSendrW a b hA hB s := rfl
@[simp] theorem exec_sendrWRel (a b : RegCode) (hA hB : Bool) (sc : Scope) (s : State) : exec (.sendrWRel a b hA hB sc) s = execSendrWRel a b hA hB sc s := rfl
@[simp] theorem exec_capr (d b : RegCode) (rights : BitVec 2) (s : State) : exec (.capr d b rights) s = execCapr d b rights s := rfl
@[simp] theorem exec_capchk (d a : RegCode) (hA : Bool) (s : State) : exec (.capchk d a hA) s = execCapchk d a hA s := rfl
@[simp] theorem exec_capi (d : RegCode) (s : State) : exec (.capi d) s = execCapi d s := rfl
@[simp] theorem exec_srv (d a b : RegCode) (nr na : BitVec 2) (sel : BitVec 4) (s : State) : exec (.srv d a b nr na sel) s = execSrv d a b nr na sel s := rfl
@[simp] theorem exec_chsend (d a b : RegCode) (hA hB : Bool) (s : State) : exec (.chsend d a b hA hB) s = execChsend d a b hA hB s := rfl
@[simp] theorem exec_chsendRel (d a b : RegCode) (hA hB : Bool) (sc : Scope) (s : State) : exec (.chsendRel d a b hA hB sc) s = execChsendRel d a b hA hB sc s := rfl
@[simp] theorem exec_chsendBlk (d a b : RegCode) (hA hB : Bool) (s : State) : exec (.chsendBlk d a b hA hB) s = execChsendBlk d a b hA hB s := rfl
@[simp] theorem exec_chsendBlkRel (d a b : RegCode) (hA hB : Bool) (sc : Scope) (s : State) : exec (.chsendBlkRel d a b hA hB sc) s = execChsendBlkRel d a b hA hB sc s := rfl
@[simp] theorem exec_chrecv (d : RegCode) (s : State) : exec (.chrecv d) s = execChrecv d s := rfl
@[simp] theorem exec_chrecvAcq (d : RegCode) (sc : Scope) (s : State) : exec (.chrecvAcq d sc) s = execChrecvAcq d sc s := rfl
@[simp] theorem exec_chpoll (d : RegCode) (s : State) : exec (.chpoll d) s = execChpoll d s := rfl
@[simp] theorem exec_chpollAcq (d : RegCode) (sc : Scope) (s : State) : exec (.chpollAcq d sc) s = execChpollAcq d sc s := rfl
@[simp] theorem exec_copyGo (ctx : BitVec 2) (a b : RegCode) (sc : Scope) (s : State) : exec (.copyGo ctx a b sc) s = execCopyGo ctx a b sc s := rfl
@[simp] theorem exec_copyGather (ctx : BitVec 2) (a b : RegCode) (sc : Scope) (s : State) : exec (.copyGather ctx a b sc) s = execCopyGather ctx a b sc s := rfl
@[simp] theorem exec_copyRed (ctx : BitVec 2) (a b : RegCode) (sc : Scope) (s : State) : exec (.copyRed ctx a b sc) s = execCopyRed ctx a b sc s := rfl
@[simp] theorem exec_copyMcast (ctx : BitVec 2) (a b : RegCode) (sc : Scope) (s : State) : exec (.copyMcast ctx a b sc) s = execCopyMcast ctx a b sc s := rfl
@[simp] theorem exec_planeLdw (ctx : BitVec 2) (sc : Scope) (s : State) : exec (.planeLdw ctx sc) s = execPlaneLdw ctx sc s := rfl
@[simp] theorem exec_planeRun (ctx : BitVec 2) (sc : Scope) (s : State) : exec (.planeRun ctx sc) s = execPlaneRun ctx sc s := rfl
@[simp] theorem exec_planeFid (ctx : BitVec 2) (sc : Scope) (s : State) : exec (.planeFid ctx sc) s = execPlaneFid ctx sc s := rfl
@[simp] theorem exec_planeCnt (ctx : BitVec 2) (sc : Scope) (s : State) : exec (.planeCnt ctx sc) s = execPlaneCnt ctx sc s := rfl
@[simp] theorem exec_gatherRows (ctx : BitVec 2) (sc : Scope) (s : State) : exec (.gatherRows ctx sc) s = execGatherRows ctx sc s := rfl
@[simp] theorem exec_fabLoad (ctx : BitVec 2) (sc : Scope) (s : State) : exec (.fabLoad ctx sc) s = execFabLoad ctx sc s := rfl
@[simp] theorem exec_fabEvict (ctx : BitVec 2) (sc : Scope) (s : State) : exec (.fabEvict ctx sc) s = execFabEvict ctx sc s := rfl
@[simp] theorem exec_fabSeed (ctx : BitVec 2) (sc : Scope) (s : State) : exec (.fabSeed ctx sc) s = execFabSeed ctx sc s := rfl
@[simp] theorem exec_fabSnap (ctx : BitVec 2) (sc : Scope) (s : State) : exec (.fabSnap ctx sc) s = execFabSnap ctx sc s := rfl
@[simp] theorem exec_cxw (eng : BitVec 4) (ctx : BitVec 2) (src : RegCode) (ereg : BitVec 5) (s : State) : exec (.cxw eng ctx src ereg) s = execCxw eng ctx src ereg s := rfl
@[simp] theorem exec_cxr (eng : BitVec 4) (ctx : BitVec 2) (d : RegCode) (ereg : BitVec 5) (s : State) : exec (.cxr eng ctx d ereg) s = execCxr eng ctx d ereg s := rfl
@[simp] theorem exec_hset (d a b : RegCode) (hA hB : Bool) (s : State) : exec (.hset d a b hA hB) s = execHset d a b hA hB s := rfl
@[simp] theorem exec_hfree (a : RegCode) (hA : Bool) (s : State) : exec (.hfree a hA) s = execHfree a hA s := rfl
@[simp] theorem exec_hkill (a : RegCode) (hA : Bool) (s : State) : exec (.hkill a hA) s = execHkill a hA s := rfl
@[simp] theorem exec_hwait (a : RegCode) (mask : BitVec 4) (hA : Bool) (s : State) : exec (.hwait a mask hA) s = execHwait a mask hA s := rfl
@[simp] theorem exec_hstat (d a : RegCode) (hA : Bool) (s : State) : exec (.hstat d a hA) s = execHstat d a hA s := rfl
@[simp] theorem exec_tlwait (a : RegCode) (sc : Scope) (hA : Bool) (eng ctx : BitVec 2) (s : State) : exec (.tlwait a sc hA eng ctx) s = execTlwait a sc hA eng ctx s := rfl
@[simp] theorem exec_tlread (d : RegCode) (eng ctx : BitVec 2) (s : State) : exec (.tlread d eng ctx) s = execTlread d eng ctx s := rfl
@[simp] theorem exec_tladv (d : RegCode) (eng ctx : BitVec 2) (s : State) : exec (.tladv d eng ctx) s = execTladv d eng ctx s := rfl
@[simp] theorem exec_trap (code : BitVec 18) (s : State) : exec (.trap code) s = execTrap code s := rfl
@[simp] theorem exec_eret (s : State) : exec .eret s = execEret s := rfl
@[simp] theorem exec_wfi (s : State) : exec .wfi s = execWfi s := rfl
@[simp] theorem exec_ctlr (d : RegCode) (addr : BitVec 12) (s : State) : exec (.ctlr d addr) s = execCtlr d addr s := rfl
@[simp] theorem exec_ctlw (src : RegCode) (addr : BitVec 12) (s : State) : exec (.ctlw src addr) s = execCtlw src addr s := rfl
@[simp] theorem exec_ctlset (src : RegCode) (addr : BitVec 12) (s : State) : exec (.ctlset src addr) s = execCtlset src addr s := rfl
@[simp] theorem exec_ctlclr (src : RegCode) (addr : BitVec 12) (s : State) : exec (.ctlclr src addr) s = execCtlclr src addr s := rfl
@[simp] theorem exec_tlbinv (d a b : RegCode) (hA hB : Bool) (s : State) : exec (.tlbinv d a b hA hB) s = execTlbinv d a b hA hB s := rfl
@[simp] theorem exec_tlbprobe (d a b : RegCode) (hA hB : Bool) (s : State) : exec (.tlbprobe d a b hA hB) s = execTlbprobe d a b hA hB s := rfl
@[simp] theorem exec_cwb (sc : Scope) (s : State) : exec (.cwb sc) s = execCwb sc s := rfl
@[simp] theorem exec_cinv (sc : Scope) (s : State) : exec (.cinv sc) s = execCinv sc s := rfl
@[simp] theorem exec_vectorCompletion (s : State) : exec .vectorCompletion s = execVectorCompletion s := rfl
@[simp] theorem exec_sleepExpiry (s : State) : exec .sleepExpiry s = execSleepExpiry s := rfl
@[simp] theorem exec_tlstatWrite (s : State) : exec .tlstatWrite s = execTlstatWrite s := rfl
@[simp] theorem exec_cxrValueReturn (s : State) : exec .cxrValueReturn s = execCxrValueReturn s := rfl
@[simp] theorem exec_tlreadValueReturn (s : State) : exec .tlreadValueReturn s = execTlreadValueReturn s := rfl
@[simp] theorem exec_statWrite (s : State) : exec .statWrite s = execStatWrite s := rfl
@[simp] theorem exec_lmsplitWrite (s : State) : exec .lmsplitWrite s = execLmsplitWrite s := rfl
@[simp] theorem exec_inboxWrite (s : State) : exec .inboxWrite s = execInboxWrite s := rfl
@[simp] theorem exec_gpoolWrite (s : State) : exec .gpoolWrite s = execGpoolWrite s := rfl
@[simp] theorem exec_srvtabWrite (s : State) : exec .srvtabWrite s = execSrvtabWrite s := rfl
@[simp] theorem exec_tlbinvComplete (s : State) : exec .tlbinvComplete s = execTlbinvComplete s := rfl
@[simp] theorem exec_tlbprobeResult (s : State) : exec .tlbprobeResult s = execTlbprobeResult s := rfl
@[simp] theorem exec_instructionFetchFill (s : State) : exec .instructionFetchFill s = execInstructionFetchFill s := rfl
@[simp] theorem exec_loadDataReturn (s : State) : exec .loadDataReturn s = execLoadDataReturn s := rfl
@[simp] theorem exec_releaseComplete (s : State) : exec .releaseComplete s = execReleaseComplete s := rfl
@[simp] theorem exec_acquireComplete (s : State) : exec .acquireComplete s = execAcquireComplete s := rfl
@[simp] theorem exec_l2MissFill (s : State) : exec .l2MissFill s = execL2MissFill s := rfl
@[simp] theorem exec_pageWalkComplete (s : State) : exec .pageWalkComplete s = execPageWalkComplete s := rfl
@[simp] theorem exec_srvResultWriteback (s : State) : exec .srvResultWriteback s = execSrvResultWriteback s := rfl
@[simp] theorem exec_sendDelivery (s : State) : exec .sendDelivery s = execSendDelivery s := rfl
@[simp] theorem exec_sendAcknowledgement (s : State) : exec .sendAcknowledgement s = execSendAcknowledgement s := rfl
@[simp] theorem exec_channelTransmit (s : State) : exec .channelTransmit s = execChannelTransmit s := rfl
@[simp] theorem exec_inboxPlacement (s : State) : exec .inboxPlacement s = execInboxPlacement s := rfl
@[simp] theorem exec_commandStart (s : State) : exec .commandStart s = execCommandStart s := rfl
@[simp] theorem exec_commandCompletion (s : State) : exec .commandCompletion s = execCommandCompletion s := rfl
@[simp] theorem exec_copyLastByte (s : State) : exec .copyLastByte s = execCopyLastByte s := rfl
@[simp] theorem exec_contourClaim (s : State) : exec .contourClaim s = execContourClaim s := rfl
@[simp] theorem exec_railSettle (s : State) : exec .railSettle s = execRailSettle s := rfl
@[simp] theorem exec_elementFire (s : State) : exec .elementFire s = execElementFire s := rfl
@[simp] theorem exec_entAccept (s : State) : exec .entAccept s = execEntAccept s := rfl
@[simp] theorem exec_ldpEmit (s : State) : exec .ldpEmit s = execLdpEmit s := rfl
@[simp] theorem exec_stpPerformed (s : State) : exec .stpPerformed s = execStpPerformed s := rfl
@[simp] theorem exec_faultTokenDrain (s : State) : exec .faultTokenDrain s = execFaultTokenDrain s := rfl
@[simp] theorem exec_handlerAbsentTimeout (s : State) : exec .handlerAbsentTimeout s = execHandlerAbsentTimeout s := rfl
@[simp] theorem exec_regionRequest (s : State) : exec .regionRequest s = execRegionRequest s := rfl
@[simp] theorem exec_configCacheFetch (s : State) : exec .configCacheFetch s = execConfigCacheFetch s := rfl
@[simp] theorem exec_configCompleteWave (s : State) : exec .configCompleteWave s = execConfigCompleteWave s := rfl
@[simp] theorem exec_meteredInjection (s : State) : exec .meteredInjection s = execMeteredInjection s := rfl
@[simp] theorem exec_regionStop (s : State) : exec .regionStop s = execRegionStop s := rfl
@[simp] theorem exec_launchTokenWrite (s : State) : exec .launchTokenWrite s = execLaunchTokenWrite s := rfl
@[simp] theorem exec_headerConsume (s : State) : exec .headerConsume s = execHeaderConsume s := rfl
@[simp] theorem exec_ageingPromotion (s : State) : exec .ageingPromotion s = execAgeingPromotion s := rfl
@[simp] theorem exec_partyBind (s : State) : exec .partyBind s = execPartyBind s := rfl
@[simp] theorem exec_dispatchStart (s : State) : exec .dispatchStart s = execDispatchStart s := rfl
@[simp] theorem exec_surveyCompletion (s : State) : exec .surveyCompletion s = execSurveyCompletion s := rfl
@[simp] theorem exec_qstop (s : State) : exec .qstop s = execQstop s := rfl
@[simp] theorem exec_qstart (s : State) : exec .qstart s = execQstart s := rfl
@[simp] theorem exec_qkill (s : State) : exec .qkill s = execQkill s := rfl
@[simp] theorem exec_killRegionTimeout (s : State) : exec .killRegionTimeout s = execKillRegionTimeout s := rfl
@[simp] theorem exec_qreset (s : State) : exec .qreset s = execQreset s := rfl
@[simp] theorem exec_lvalWrite (s : State) : exec .lvalWrite s = execLvalWrite s := rfl
@[simp] theorem exec_ltrigWrite (s : State) : exec .ltrigWrite s = execLtrigWrite s := rfl
@[simp] theorem exec_lstatWrite (s : State) : exec .lstatWrite s = execLstatWrite s := rfl
@[simp] theorem exec_serviceResolve (s : State) : exec .serviceResolve s = execServiceResolve s := rfl
@[simp] theorem exec_resolveAnswer (s : State) : exec .resolveAnswer s = execResolveAnswer s := rfl
@[simp] theorem exec_serviceMigrate (s : State) : exec .serviceMigrate s = execServiceMigrate s := rfl
@[simp] theorem exec_serviceTermThread (s : State) : exec .serviceTermThread s = execServiceTermThread s := rfl
@[simp] theorem exec_serviceTermParty (s : State) : exec .serviceTermParty s = execServiceTermParty s := rfl
@[simp] theorem exec_partyTermination (s : State) : exec .partyTermination s = execPartyTermination s := rfl
@[simp] theorem exec_preemptionStop (s : State) : exec .preemptionStop s = execPreemptionStop s := rfl
@[simp] theorem exec_saveWrite (s : State) : exec .saveWrite s = execSaveWrite s := rfl
@[simp] theorem exec_saveResume (s : State) : exec .saveResume s = execSaveResume s := rfl
@[simp] theorem exec_restore (s : State) : exec .restore s = execRestore s := rfl
@[simp] theorem exec_migrationRequest (s : State) : exec .migrationRequest s = execMigrationRequest s := rfl
@[simp] theorem exec_migrationTransfer (s : State) : exec .migrationTransfer s = execMigrationTransfer s := rfl
@[simp] theorem exec_thermalMigration (s : State) : exec .thermalMigration s = execThermalMigration s := rfl
@[simp] theorem exec_surveyRead (s : State) : exec .surveyRead s = execSurveyRead s := rfl
@[simp] theorem exec_imgAdd (s : State) : exec .imgAdd s = execImgAdd s := rfl
@[simp] theorem exec_imgRemove (s : State) : exec .imgRemove s = execImgRemove s := rfl
@[simp] theorem exec_setDomain (s : State) : exec .setDomain s = execSetDomain s := rfl
@[simp] theorem exec_mgrpWrite (s : State) : exec .mgrpWrite s = execMgrpWrite s := rfl
@[simp] theorem exec_mcostWrite (s : State) : exec .mcostWrite s = execMcostWrite s := rfl
@[simp] theorem exec_cfloorWrite (s : State) : exec .cfloorWrite s = execCfloorWrite s := rfl
@[simp] theorem exec_opreqWrite (s : State) : exec .opreqWrite s = execOpreqWrite s := rfl
@[simp] theorem exec_tmigWrite (s : State) : exec .tmigWrite s = execTmigWrite s := rfl
@[simp] theorem exec_ctbaseWrite (s : State) : exec .ctbaseWrite s = execCtbaseWrite s := rfl
@[simp] theorem exec_fwstage (s : State) : exec .fwstage s = execFwstage s := rfl
@[simp] theorem exec_fwact (s : State) : exec .fwact s = execFwact s := rfl
@[simp] theorem exec_attout (s : State) : exec .attout s = execAttout s := rfl
@[simp] theorem exec_imgkeyWrite (s : State) : exec .imgkeyWrite s = execImgkeyWrite s := rfl
@[simp] theorem exec_registerWrite (s : State) : exec .registerWrite s = execRegisterWrite s := rfl
@[simp] theorem exec_istatusWrite (s : State) : exec .istatusWrite s = execIstatusWrite s := rfl
@[simp] theorem exec_hostLinkDown (s : State) : exec .hostLinkDown s = execHostLinkDown s := rfl
@[simp] theorem exec_hostLinkRetrain (s : State) : exec .hostLinkRetrain s = execHostLinkRetrain s := rfl
@[simp] theorem exec_jenlinkFlitReceive (s : State) : exec .jenlinkFlitReceive s = execJenlinkFlitReceive s := rfl
@[simp] theorem exec_jenlinkLinkDown (s : State) : exec .jenlinkLinkDown s = execJenlinkLinkDown s := rfl
@[simp] theorem exec_jenlinkTraining (s : State) : exec .jenlinkTraining s = execJenlinkTraining s := rfl
@[simp] theorem exec_packageReset (s : State) : exec .packageReset s = execPackageReset s := rfl
@[simp] theorem exec_surveyorRestart (s : State) : exec .surveyorRestart s = execSurveyorRestart s := rfl
@[simp] theorem exec_debugUnlock (s : State) : exec .debugUnlock s = execDebugUnlock s := rfl
@[simp] theorem exec_watchdogExpiry (s : State) : exec .watchdogExpiry s = execWatchdogExpiry s := rfl
@[simp] theorem exec_thermalTrip (s : State) : exec .thermalTrip s = execThermalTrip s := rfl
@[simp] theorem exec_thermalTripEnd (s : State) : exec .thermalTripEnd s = execThermalTripEnd s := rfl
@[simp] theorem exec_currentLimit (s : State) : exec .currentLimit s = execCurrentLimit s := rfl
@[simp] theorem exec_powerClamp (s : State) : exec .powerClamp s = execPowerClamp s := rfl
@[simp] theorem exec_packageShutdown (s : State) : exec .packageShutdown s = execPackageShutdown s := rfl
@[simp] theorem exec_tempRefresh (s : State) : exec .tempRefresh s = execTempRefresh s := rfl
@[simp] theorem exec_operatingPointChange (s : State) : exec .operatingPointChange s = execOperatingPointChange s := rfl
@[simp] theorem exec_rollbackAdvance (s : State) : exec .rollbackAdvance s = execRollbackAdvance s := rfl
@[simp] theorem exec_vectorLatchAccept (s : State) : exec .vectorLatchAccept s = execVectorLatchAccept s := rfl
@[simp] theorem exec_vectorResponseReturn (s : State) : exec .vectorResponseReturn s = execVectorResponseReturn s := rfl
@[simp] theorem exec_prefFillReturn (s : State) : exec .prefFillReturn s = execPrefFillReturn s := rfl
@[simp] theorem exec_deviceStoreAccepted (s : State) : exec .deviceStoreAccepted s = execDeviceStoreAccepted s := rfl
@[simp] theorem exec_yieldExpiry (s : State) : exec .yieldExpiry s = execYieldExpiry s := rfl
@[simp] theorem exec_powerClampRelease (s : State) : exec .powerClampRelease s = execPowerClampRelease s := rfl
@[simp] theorem exec_currentLimitRelease (s : State) : exec .currentLimitRelease s = execCurrentLimitRelease s := rfl
@[simp] theorem exec_mailboxBadCommand (s : State) : exec .mailboxBadCommand s = execMailboxBadCommand s := rfl
@[simp] theorem exec_contourCounterClear (s : State) : exec .contourCounterClear s = execContourCounterClear s := rfl

end Sys2Proof.Machine
end

