-- ==== Sys2Proof/Laws/Table.lean ====
section
/-!
SUPPORT. What the table and memory operations do: reading after a write, and the canonical form they keep.
-/

namespace Sys2Proof.Machine

@[simp] theorem tfind_tput_same {α : Type} (t : Table α) (n : Nat) (x : α) : tfind (tput t n x) n = some x := by
  induction t with
  | nil => simp [tput, tfind]
  | cons c t ih =>
    obtain ⟨k, v⟩ := c
    unfold tput
    split
    · simp [tfind]
    · split
      · simp [tfind]
      · rename_i h1 h2
        simp [tfind, ih, Ne.symm h2, h1]

theorem tfind_tput_other {α : Type} (t : Table α) (n m : Nat) (x : α) (h : m ≠ n) :
    tfind (tput t n x) m = tfind t m := by
  induction t with
  | nil => simp [tput, tfind, Ne.symm h]
  | cons c t ih =>
    obtain ⟨k, v⟩ := c
    unfold tput
    split
    · simp only [tfind, if_neg (Ne.symm h)]
      split
      · rw [if_neg (by omega), if_pos (by omega)]
      · rfl
    · split
      · subst_vars; simp [tfind, Ne.symm h]
      · simp [tfind, ih]

@[simp] theorem tget_tput_same {α : Type} (d : α) (t : Table α) (n : Nat) (x : α) : tget d (tput t n x) n = x := by
  simp [tget]

theorem tget_tput_other {α : Type} (d : α) (t : Table α) (n m : Nat) (x : α) (h : m ≠ n) :
    tget d (tput t n x) m = tget d t m := by
  simp [tget, tfind_tput_other t n m x h]

theorem tsortedFrom_mono {α : Type} (t : Table α) (a b : Nat) (h : a ≤ b) (hs : tsortedFrom b t = true) :
    tsortedFrom a t = true := by
  cases t with
  | nil => rfl
  | cons c t => simp only [tsortedFrom, Bool.and_eq_true, decide_eq_true_eq] at *; exact ⟨by omega, hs.2⟩

theorem tsortedFrom_tput {α : Type} (t : Table α) (lo n : Nat) (x : α) (h : lo ≤ n) (hs : tsortedFrom lo t = true) :
    tsortedFrom lo (tput t n x) = true := by
  induction t generalizing lo with
  | nil => simp [tput, tsortedFrom, h]
  | cons c t ih =>
    obtain ⟨k, v⟩ := c
    simp only [tsortedFrom, Bool.and_eq_true, decide_eq_true_eq] at hs
    unfold tput
    split
    · simp only [tsortedFrom, Bool.and_eq_true, decide_eq_true_eq]; exact ⟨h, by omega, hs.2⟩
    · split
      · subst_vars; simp only [tsortedFrom, Bool.and_eq_true, decide_eq_true_eq]; exact hs
      · simp only [tsortedFrom, Bool.and_eq_true, decide_eq_true_eq]; exact ⟨hs.1, ih (k + 1) (by omega) hs.2⟩

/-- A write keeps a table's keys rising. -/
theorem tsorted_tput {α : Type} (t : Table α) (n : Nat) (x : α) (h : tsorted t = true) : tsorted (tput t n x) = true :=
  tsortedFrom_tput t 0 n x (Nat.zero_le n) h

theorem tsortedFrom_tdel {α : Type} (t : Table α) (lo n : Nat) (hs : tsortedFrom lo t = true) :
    tsortedFrom lo (tdel t n) = true := by
  induction t generalizing lo with
  | nil => rfl
  | cons c t ih =>
    obtain ⟨k, v⟩ := c
    simp only [tsortedFrom, Bool.and_eq_true, decide_eq_true_eq] at hs
    unfold tdel
    split
    · simp only [tsortedFrom, Bool.and_eq_true, decide_eq_true_eq]; exact hs
    · split
      · exact tsortedFrom_mono t lo (k + 1) (by omega) hs.2
      · simp only [tsortedFrom, Bool.and_eq_true, decide_eq_true_eq]; exact ⟨hs.1, ih (k + 1) hs.2⟩

theorem tsorted_tdel {α : Type} (t : Table α) (n : Nat) (h : tsorted t = true) : tsorted (tdel t n) = true :=
  tsortedFrom_tdel t 0 n h

theorem tfind_below {α : Type} (t : Table α) (lo n : Nat) (hs : tsortedFrom lo t = true) (h : n < lo) : tfind t n = none := by
  cases t with
  | nil => rfl
  | cons c t =>
    simp only [tsortedFrom, Bool.and_eq_true, decide_eq_true_eq] at hs
    simp only [tfind]; rw [if_neg (by omega), if_pos (by omega)]

theorem tfind_tdel_from {α : Type} (t : Table α) (lo n m : Nat) (hs : tsortedFrom lo t = true) :
    tfind (tdel t n) m = if m = n then none else tfind t m := by
  induction t generalizing lo with
  | nil => simp [tdel, tfind]
  | cons c t ih =>
    obtain ⟨k, v⟩ := c
    simp only [tsortedFrom, Bool.and_eq_true, decide_eq_true_eq] at hs
    by_cases h1 : n < k
    · have : tdel ((k, v) :: t) n = (k, v) :: t := by simp [tdel, h1]
      rw [this]
      split
      · subst_vars; simp only [tfind]; rw [if_neg (by omega), if_pos h1]
      · rfl
    · by_cases h2 : n = k
      · have : tdel ((k, v) :: t) n = t := by simp [tdel, h2]
        subst h2; rw [this]
        by_cases hmn : m = n
        · rw [if_pos hmn, hmn]; exact tfind_below t _ _ hs.2 (Nat.lt_succ_self _)
        · rw [if_neg hmn]; simp only [tfind]; rw [if_neg (Ne.symm hmn)]
          split
          · exact tfind_below t (n + 1) m hs.2 (by omega)
          · rfl
      · have : tdel ((k, v) :: t) n = (k, v) :: tdel t n := by simp [tdel, h1, h2]
        rw [this]; simp only [tfind, ih (k + 1) hs.2]
        by_cases hmn : m = n
        · subst hmn; simp only [if_true]; rw [if_neg (by omega), if_neg (by omega)]
        · simp only [if_neg hmn]

/-- A deleted key is not listed; the others stand as they were. -/
theorem tfind_tdel {α : Type} (t : Table α) (n m : Nat) (hs : tsorted t = true) :
    tfind (tdel t n) m = if m = n then none else tfind t m := tfind_tdel_from t 0 n m hs

theorem all_tput {α : Type} (p : Nat × α → Bool) (t : Table α) (n : Nat) (x : α) (h : t.all p = true) (hx : p (n, x) = true) :
    (tput t n x).all p = true := by
  induction t with
  | nil => simp [tput, hx]
  | cons c t ih =>
    obtain ⟨k, v⟩ := c
    simp only [List.all_cons, Bool.and_eq_true] at h
    unfold tput
    split
    · simp [hx, h.1, h.2]
    · split <;> simp [hx, h.1, h.2, ih]

theorem all_tdel {α : Type} (p : Nat × α → Bool) (t : Table α) (n : Nat) (h : t.all p = true) : (tdel t n).all p = true := by
  induction t with
  | nil => rfl
  | cons c t ih =>
    obtain ⟨k, v⟩ := c
    simp only [List.all_cons, Bool.and_eq_true] at h
    unfold tdel
    split
    · simp [h.1, h.2]
    · split
      · exact h.2
      · simp [h.1, ih h.2]

/-- A byte write keeps the canonical form of memory. -/
theorem wf_cput (m : List Host.Cell) (a : Nat) (b : Byte) (h : Memory.wf m = true) : Memory.wf (cput m a b) = true := by
  simp only [Memory.wf, Bool.and_eq_true] at *
  unfold cput
  split
  · exact ⟨tsorted_tdel m a h.1, all_tdel _ m a h.2⟩
  · rename_i hb
    exact ⟨tsorted_tput m a b h.1, all_tput _ m a b h.2 (by simpa using hb)⟩

/-- Byte writes keep the canonical form of memory. -/
theorem wf_cputs (m : List Host.Cell) (a : Nat) (bs : List Byte) (h : Memory.wf m = true) :
    Memory.wf (cputs m a bs) = true := by
  induction bs generalizing m a with
  | nil => exact h
  | cons b bs ih => exact ih _ _ (wf_cput m a b h)

/-- Reading after a byte write (R45). -/
theorem cget_cput (m : List Host.Cell) (a c : Nat) (b : Byte) (h : Memory.wf m = true) :
    cget (cput m a b) c = if c = a then b else cget m c := by
  simp only [Memory.wf, Bool.and_eq_true] at h
  unfold cput cget tget
  split
  · rename_i hb
    rw [tfind_tdel m a c h.1]; split <;> simp [hb]
  · split
    · subst_vars; simp
    · rename_i hc; rw [tfind_tput_other m a c b hc]

/-- Reading outside the bytes written. -/
theorem cget_cputs_other (m : List Host.Cell) (a c : Nat) (bs : List Byte) (h : Memory.wf m = true)
    (hc : c < a ∨ a + bs.length ≤ c) : cget (cputs m a bs) c = cget m c := by
  induction bs generalizing m a with
  | nil => rfl
  | cons b bs ih =>
    simp only [List.length_cons] at hc
    show cget (cputs (cput m a b) (a + 1) bs) c = _
    rw [ih (cput m a b) (a + 1) (wf_cput m a b h) (by omega), cget_cput m a c b h, if_neg (by omega)]

/-- Reading the bytes just written. -/
theorem cgets_cputs (m : List Host.Cell) (a : Nat) (bs : List Byte) (h : Memory.wf m = true) :
    cgets (cputs m a bs) a bs.length = bs := by
  induction bs generalizing m a with
  | nil => rfl
  | cons b bs ih =>
    show cget (cputs (cput m a b) (a + 1) bs) a :: cgets (cputs (cput m a b) (a + 1) bs) (a + 1) bs.length = _
    rw [ih (cput m a b) (a + 1) (wf_cput m a b h),
      cget_cputs_other (cput m a b) (a + 1) a bs (wf_cput m a b h) (by omega), cget_cput m a a b h, if_pos rfl]

/-- The value of the bytes of a value (R45). -/
theorem leNat_leBytes (n v : Nat) : leNat (leBytes n v) = v % 256 ^ n := by
  induction n generalizing v with
  | zero => simp [leBytes, leNat, Nat.mod_one]
  | succ n ih =>
    show (BitVec.ofNat 8 v).toNat + 256 * leNat (leBytes n (v / 256)) = _
    rw [ih, BitVec.toNat_ofNat, show (256 : Nat) ^ (n + 1) = 256 * 256 ^ n from Nat.pow_succ' , Nat.mod_mul]

@[simp] theorem leBytes_length (n v : Nat) : (leBytes n v).length = n := by
  induction n generalizing v with
  | zero => rfl
  | succ n ih => simp [leBytes, ih]

end Sys2Proof.Machine
end

