-- ==== Sys2Proof/Laws/State.lean ====
section
/-!
SUPPORT. What each named update of the state leaves: one lemma per field, and the reading of what was written.
-/

namespace Sys2Proof.Machine

section
variable (s : State) (n : Nat) (x : Core)

@[simp] theorem setCore_th : (s.setCore n x).th = s.th := rfl
@[simp] theorem setCore_others : (s.setCore n x).others = s.others := rfl
@[simp] theorem setCore_cores : (s.setCore n x).cores = tput s.cores n x := rfl
@[simp] theorem setCore_lastSlot : (s.setCore n x).lastSlot = s.lastSlot := rfl
@[simp] theorem setCore_parties : (s.setCore n x).parties = s.parties := rfl
@[simp] theorem setCore_mem : (s.setCore n x).mem = s.mem := rfl
@[simp] theorem setCore_llc : (s.setCore n x).llc = s.llc := rfl
@[simp] theorem setCore_memPoison : (s.setCore n x).memPoison = s.memPoison := rfl
@[simp] theorem setCore_scratch : (s.setCore n x).scratch = s.scratch := rfl
@[simp] theorem setCore_scratchPoison : (s.setCore n x).scratchPoison = s.scratchPoison := rfl
@[simp] theorem setCore_l2 : (s.setCore n x).l2 = s.l2 := rfl
@[simp] theorem setCore_mshrs : (s.setCore n x).mshrs = s.mshrs := rfl
@[simp] theorem setCore_ingress : (s.setCore n x).ingress = s.ingress := rfl
@[simp] theorem setCore_dieLf : (s.setCore n x).dieLf = s.dieLf := rfl
@[simp] theorem setCore_walks : (s.setCore n x).walks = s.walks := rfl
@[simp] theorem setCore_walkQueue : (s.setCore n x).walkQueue = s.walkQueue := rfl
@[simp] theorem setCore_walkFails : (s.setCore n x).walkFails = s.walkFails := rfl
@[simp] theorem setCore_pwc : (s.setCore n x).pwc = s.pwc := rfl
@[simp] theorem setCore_ctxRoots : (s.setCore n x).ctxRoots = s.ctxRoots := rfl
@[simp] theorem setCore_utlb : (s.setCore n x).utlb = s.utlb := rfl
@[simp] theorem setCore_ttlb : (s.setCore n x).ttlb = s.ttlb := rfl
@[simp] theorem setCore_ctlb : (s.setCore n x).ctlb = s.ctlb := rfl
@[simp] theorem setCore_dtlb : (s.setCore n x).dtlb = s.dtlb := rfl
@[simp] theorem setCore_marks : (s.setCore n x).marks = s.marks := rfl
@[simp] theorem setCore_gaz : (s.setCore n x).gaz = s.gaz := rfl
@[simp] theorem setCore_hold : (s.setCore n x).hold = s.hold := rfl
@[simp] theorem setCore_flight : (s.setCore n x).flight = s.flight := rfl
@[simp] theorem setCore_escal : (s.setCore n x).escal = s.escal := rfl
@[simp] theorem setCore_ctbaseEn : (s.setCore n x).ctbaseEn = s.ctbaseEn := rfl
@[simp] theorem setCore_ctbase : (s.setCore n x).ctbase = s.ctbase := rfl
@[simp] theorem setCore_clusters : (s.setCore n x).clusters = s.clusters := rfl
@[simp] theorem setCore_queues : (s.setCore n x).queues = s.queues := rfl
@[simp] theorem setCore_surveys : (s.setCore n x).surveys = s.surveys := rfl
@[simp] theorem setCore_counters : (s.setCore n x).counters = s.counters := rfl
@[simp] theorem setCore_plat : (s.setCore n x).plat = s.plat := rfl
@[simp] theorem setCore_images : (s.setCore n x).images = s.images := rfl
@[simp] theorem setCore_lastServed : (s.setCore n x).lastServed = s.lastServed := rfl
@[simp] theorem setCore_bindServed : (s.setCore n x).bindServed = s.bindServed := rfl
@[simp] theorem setCore_launched : (s.setCore n x).launched = s.launched := rfl
@[simp] theorem setCore_stops : (s.setCore n x).stops = s.stops := rfl
@[simp] theorem setCore_moveQueue : (s.setCore n x).moveQueue = s.moveQueue := rfl
@[simp] theorem setCore_savedAreas : (s.setCore n x).savedAreas = s.savedAreas := rfl
@[simp] theorem setCore_saveSeq : (s.setCore n x).saveSeq = s.saveSeq := rfl
@[simp] theorem setCore_hosts : (s.setCore n x).hosts = s.hosts := rfl
@[simp] theorem setCore_ports : (s.setCore n x).ports = s.ports := rfl
@[simp] theorem setCore_pkgNo : (s.setCore n x).pkgNo = s.pkgNo := rfl
@[simp] theorem setCore_planes : (s.setCore n x).planes = s.planes := rfl
@[simp] theorem setCore_domainSet : (s.setCore n x).domainSet = s.domainSet := rfl
@[simp] theorem setCore_outbound : (s.setCore n x).outbound = s.outbound := rfl
@[simp] theorem setCore_opreq : (s.setCore n x).opreq = s.opreq := rfl
@[simp] theorem setCore_tiles : (s.setCore n x).tiles = s.tiles := rfl
@[simp] theorem setCore_tmig : (s.setCore n x).tmig = s.tmig := rfl
@[simp] theorem setCore_clamp : (s.setCore n x).clamp = s.clamp := rfl
@[simp] theorem setCore_watchdog : (s.setCore n x).watchdog = s.watchdog := rfl
@[simp] theorem setCore_firmware : (s.setCore n x).firmware = s.firmware := rfl
@[simp] theorem setCore_shutDown : (s.setCore n x).shutDown = s.shutDown := rfl
@[simp] theorem setCore_ev : (s.setCore n x).ev = s.ev := rfl
@[simp] theorem setCore_agenda : (s.setCore n x).agenda = s.agenda := rfl
@[simp] theorem setCore_eventTurn : (s.setCore n x).eventTurn = s.eventTurn := rfl
@[simp] theorem setCore_round : (s.setCore n x).round = s.round := rfl
@[simp] theorem setCore_clock : (s.setCore n x).clock = s.clock := rfl
@[simp] theorem setCore_tick : (s.setCore n x).tick = s.tick := rfl
@[simp] theorem setCore_serial : (s.setCore n x).serial = s.serial := rfl
@[simp] theorem core_setCore : (s.setCore n x).core n = x := tget_tput_same _ _ _ _
theorem core_setCore_other (m : Nat) (h : m ≠ n) : (s.setCore n x).core m = s.core m := tget_tput_other _ _ _ _ _ h

end

section
variable (s : State) (n : Nat) (x : Party)

@[simp] theorem setParty_th : (s.setParty n x).th = s.th := rfl
@[simp] theorem setParty_others : (s.setParty n x).others = s.others := rfl
@[simp] theorem setParty_cores : (s.setParty n x).cores = s.cores := rfl
@[simp] theorem setParty_lastSlot : (s.setParty n x).lastSlot = s.lastSlot := rfl
@[simp] theorem setParty_parties : (s.setParty n x).parties = tput s.parties n x := rfl
@[simp] theorem setParty_mem : (s.setParty n x).mem = s.mem := rfl
@[simp] theorem setParty_llc : (s.setParty n x).llc = s.llc := rfl
@[simp] theorem setParty_memPoison : (s.setParty n x).memPoison = s.memPoison := rfl
@[simp] theorem setParty_scratch : (s.setParty n x).scratch = s.scratch := rfl
@[simp] theorem setParty_scratchPoison : (s.setParty n x).scratchPoison = s.scratchPoison := rfl
@[simp] theorem setParty_l2 : (s.setParty n x).l2 = s.l2 := rfl
@[simp] theorem setParty_mshrs : (s.setParty n x).mshrs = s.mshrs := rfl
@[simp] theorem setParty_ingress : (s.setParty n x).ingress = s.ingress := rfl
@[simp] theorem setParty_dieLf : (s.setParty n x).dieLf = s.dieLf := rfl
@[simp] theorem setParty_walks : (s.setParty n x).walks = s.walks := rfl
@[simp] theorem setParty_walkQueue : (s.setParty n x).walkQueue = s.walkQueue := rfl
@[simp] theorem setParty_walkFails : (s.setParty n x).walkFails = s.walkFails := rfl
@[simp] theorem setParty_pwc : (s.setParty n x).pwc = s.pwc := rfl
@[simp] theorem setParty_ctxRoots : (s.setParty n x).ctxRoots = s.ctxRoots := rfl
@[simp] theorem setParty_utlb : (s.setParty n x).utlb = s.utlb := rfl
@[simp] theorem setParty_ttlb : (s.setParty n x).ttlb = s.ttlb := rfl
@[simp] theorem setParty_ctlb : (s.setParty n x).ctlb = s.ctlb := rfl
@[simp] theorem setParty_dtlb : (s.setParty n x).dtlb = s.dtlb := rfl
@[simp] theorem setParty_marks : (s.setParty n x).marks = s.marks := rfl
@[simp] theorem setParty_gaz : (s.setParty n x).gaz = s.gaz := rfl
@[simp] theorem setParty_hold : (s.setParty n x).hold = s.hold := rfl
@[simp] theorem setParty_flight : (s.setParty n x).flight = s.flight := rfl
@[simp] theorem setParty_escal : (s.setParty n x).escal = s.escal := rfl
@[simp] theorem setParty_ctbaseEn : (s.setParty n x).ctbaseEn = s.ctbaseEn := rfl
@[simp] theorem setParty_ctbase : (s.setParty n x).ctbase = s.ctbase := rfl
@[simp] theorem setParty_clusters : (s.setParty n x).clusters = s.clusters := rfl
@[simp] theorem setParty_queues : (s.setParty n x).queues = s.queues := rfl
@[simp] theorem setParty_surveys : (s.setParty n x).surveys = s.surveys := rfl
@[simp] theorem setParty_counters : (s.setParty n x).counters = s.counters := rfl
@[simp] theorem setParty_plat : (s.setParty n x).plat = s.plat := rfl
@[simp] theorem setParty_images : (s.setParty n x).images = s.images := rfl
@[simp] theorem setParty_lastServed : (s.setParty n x).lastServed = s.lastServed := rfl
@[simp] theorem setParty_bindServed : (s.setParty n x).bindServed = s.bindServed := rfl
@[simp] theorem setParty_launched : (s.setParty n x).launched = s.launched := rfl
@[simp] theorem setParty_stops : (s.setParty n x).stops = s.stops := rfl
@[simp] theorem setParty_moveQueue : (s.setParty n x).moveQueue = s.moveQueue := rfl
@[simp] theorem setParty_savedAreas : (s.setParty n x).savedAreas = s.savedAreas := rfl
@[simp] theorem setParty_saveSeq : (s.setParty n x).saveSeq = s.saveSeq := rfl
@[simp] theorem setParty_hosts : (s.setParty n x).hosts = s.hosts := rfl
@[simp] theorem setParty_ports : (s.setParty n x).ports = s.ports := rfl
@[simp] theorem setParty_pkgNo : (s.setParty n x).pkgNo = s.pkgNo := rfl
@[simp] theorem setParty_planes : (s.setParty n x).planes = s.planes := rfl
@[simp] theorem setParty_domainSet : (s.setParty n x).domainSet = s.domainSet := rfl
@[simp] theorem setParty_outbound : (s.setParty n x).outbound = s.outbound := rfl
@[simp] theorem setParty_opreq : (s.setParty n x).opreq = s.opreq := rfl
@[simp] theorem setParty_tiles : (s.setParty n x).tiles = s.tiles := rfl
@[simp] theorem setParty_tmig : (s.setParty n x).tmig = s.tmig := rfl
@[simp] theorem setParty_clamp : (s.setParty n x).clamp = s.clamp := rfl
@[simp] theorem setParty_watchdog : (s.setParty n x).watchdog = s.watchdog := rfl
@[simp] theorem setParty_firmware : (s.setParty n x).firmware = s.firmware := rfl
@[simp] theorem setParty_shutDown : (s.setParty n x).shutDown = s.shutDown := rfl
@[simp] theorem setParty_ev : (s.setParty n x).ev = s.ev := rfl
@[simp] theorem setParty_agenda : (s.setParty n x).agenda = s.agenda := rfl
@[simp] theorem setParty_eventTurn : (s.setParty n x).eventTurn = s.eventTurn := rfl
@[simp] theorem setParty_round : (s.setParty n x).round = s.round := rfl
@[simp] theorem setParty_clock : (s.setParty n x).clock = s.clock := rfl
@[simp] theorem setParty_tick : (s.setParty n x).tick = s.tick := rfl
@[simp] theorem setParty_serial : (s.setParty n x).serial = s.serial := rfl
@[simp] theorem party_setParty : (s.setParty n x).party n = x := tget_tput_same _ _ _ _
theorem party_setParty_other (m : Nat) (h : m ≠ n) : (s.setParty n x).party m = s.party m := tget_tput_other _ _ _ _ _ h

end

section
variable (s : State) (n : Nat) (x : Survey)

@[simp] theorem setSurvey_th : (s.setSurvey n x).th = s.th := rfl
@[simp] theorem setSurvey_others : (s.setSurvey n x).others = s.others := rfl
@[simp] theorem setSurvey_cores : (s.setSurvey n x).cores = s.cores := rfl
@[simp] theorem setSurvey_lastSlot : (s.setSurvey n x).lastSlot = s.lastSlot := rfl
@[simp] theorem setSurvey_parties : (s.setSurvey n x).parties = s.parties := rfl
@[simp] theorem setSurvey_mem : (s.setSurvey n x).mem = s.mem := rfl
@[simp] theorem setSurvey_llc : (s.setSurvey n x).llc = s.llc := rfl
@[simp] theorem setSurvey_memPoison : (s.setSurvey n x).memPoison = s.memPoison := rfl
@[simp] theorem setSurvey_scratch : (s.setSurvey n x).scratch = s.scratch := rfl
@[simp] theorem setSurvey_scratchPoison : (s.setSurvey n x).scratchPoison = s.scratchPoison := rfl
@[simp] theorem setSurvey_l2 : (s.setSurvey n x).l2 = s.l2 := rfl
@[simp] theorem setSurvey_mshrs : (s.setSurvey n x).mshrs = s.mshrs := rfl
@[simp] theorem setSurvey_ingress : (s.setSurvey n x).ingress = s.ingress := rfl
@[simp] theorem setSurvey_dieLf : (s.setSurvey n x).dieLf = s.dieLf := rfl
@[simp] theorem setSurvey_walks : (s.setSurvey n x).walks = s.walks := rfl
@[simp] theorem setSurvey_walkQueue : (s.setSurvey n x).walkQueue = s.walkQueue := rfl
@[simp] theorem setSurvey_walkFails : (s.setSurvey n x).walkFails = s.walkFails := rfl
@[simp] theorem setSurvey_pwc : (s.setSurvey n x).pwc = s.pwc := rfl
@[simp] theorem setSurvey_ctxRoots : (s.setSurvey n x).ctxRoots = s.ctxRoots := rfl
@[simp] theorem setSurvey_utlb : (s.setSurvey n x).utlb = s.utlb := rfl
@[simp] theorem setSurvey_ttlb : (s.setSurvey n x).ttlb = s.ttlb := rfl
@[simp] theorem setSurvey_ctlb : (s.setSurvey n x).ctlb = s.ctlb := rfl
@[simp] theorem setSurvey_dtlb : (s.setSurvey n x).dtlb = s.dtlb := rfl
@[simp] theorem setSurvey_marks : (s.setSurvey n x).marks = s.marks := rfl
@[simp] theorem setSurvey_gaz : (s.setSurvey n x).gaz = s.gaz := rfl
@[simp] theorem setSurvey_hold : (s.setSurvey n x).hold = s.hold := rfl
@[simp] theorem setSurvey_flight : (s.setSurvey n x).flight = s.flight := rfl
@[simp] theorem setSurvey_escal : (s.setSurvey n x).escal = s.escal := rfl
@[simp] theorem setSurvey_ctbaseEn : (s.setSurvey n x).ctbaseEn = s.ctbaseEn := rfl
@[simp] theorem setSurvey_ctbase : (s.setSurvey n x).ctbase = s.ctbase := rfl
@[simp] theorem setSurvey_clusters : (s.setSurvey n x).clusters = s.clusters := rfl
@[simp] theorem setSurvey_queues : (s.setSurvey n x).queues = s.queues := rfl
@[simp] theorem setSurvey_surveys : (s.setSurvey n x).surveys = tput s.surveys n x := rfl
@[simp] theorem setSurvey_counters : (s.setSurvey n x).counters = s.counters := rfl
@[simp] theorem setSurvey_plat : (s.setSurvey n x).plat = s.plat := rfl
@[simp] theorem setSurvey_images : (s.setSurvey n x).images = s.images := rfl
@[simp] theorem setSurvey_lastServed : (s.setSurvey n x).lastServed = s.lastServed := rfl
@[simp] theorem setSurvey_bindServed : (s.setSurvey n x).bindServed = s.bindServed := rfl
@[simp] theorem setSurvey_launched : (s.setSurvey n x).launched = s.launched := rfl
@[simp] theorem setSurvey_stops : (s.setSurvey n x).stops = s.stops := rfl
@[simp] theorem setSurvey_moveQueue : (s.setSurvey n x).moveQueue = s.moveQueue := rfl
@[simp] theorem setSurvey_savedAreas : (s.setSurvey n x).savedAreas = s.savedAreas := rfl
@[simp] theorem setSurvey_saveSeq : (s.setSurvey n x).saveSeq = s.saveSeq := rfl
@[simp] theorem setSurvey_hosts : (s.setSurvey n x).hosts = s.hosts := rfl
@[simp] theorem setSurvey_ports : (s.setSurvey n x).ports = s.ports := rfl
@[simp] theorem setSurvey_pkgNo : (s.setSurvey n x).pkgNo = s.pkgNo := rfl
@[simp] theorem setSurvey_planes : (s.setSurvey n x).planes = s.planes := rfl
@[simp] theorem setSurvey_domainSet : (s.setSurvey n x).domainSet = s.domainSet := rfl
@[simp] theorem setSurvey_outbound : (s.setSurvey n x).outbound = s.outbound := rfl
@[simp] theorem setSurvey_opreq : (s.setSurvey n x).opreq = s.opreq := rfl
@[simp] theorem setSurvey_tiles : (s.setSurvey n x).tiles = s.tiles := rfl
@[simp] theorem setSurvey_tmig : (s.setSurvey n x).tmig = s.tmig := rfl
@[simp] theorem setSurvey_clamp : (s.setSurvey n x).clamp = s.clamp := rfl
@[simp] theorem setSurvey_watchdog : (s.setSurvey n x).watchdog = s.watchdog := rfl
@[simp] theorem setSurvey_firmware : (s.setSurvey n x).firmware = s.firmware := rfl
@[simp] theorem setSurvey_shutDown : (s.setSurvey n x).shutDown = s.shutDown := rfl
@[simp] theorem setSurvey_ev : (s.setSurvey n x).ev = s.ev := rfl
@[simp] theorem setSurvey_agenda : (s.setSurvey n x).agenda = s.agenda := rfl
@[simp] theorem setSurvey_eventTurn : (s.setSurvey n x).eventTurn = s.eventTurn := rfl
@[simp] theorem setSurvey_round : (s.setSurvey n x).round = s.round := rfl
@[simp] theorem setSurvey_clock : (s.setSurvey n x).clock = s.clock := rfl
@[simp] theorem setSurvey_tick : (s.setSurvey n x).tick = s.tick := rfl
@[simp] theorem setSurvey_serial : (s.setSurvey n x).serial = s.serial := rfl
@[simp] theorem survey_setSurvey : (s.setSurvey n x).survey n = x := tget_tput_same _ _ _ _
theorem survey_setSurvey_other (m : Nat) (h : m ≠ n) : (s.setSurvey n x).survey m = s.survey m := tget_tput_other _ _ _ _ _ h

end

section
variable (s : State) (n : Nat) (x : Counter)

@[simp] theorem setCounter_th : (s.setCounter n x).th = s.th := rfl
@[simp] theorem setCounter_others : (s.setCounter n x).others = s.others := rfl
@[simp] theorem setCounter_cores : (s.setCounter n x).cores = s.cores := rfl
@[simp] theorem setCounter_lastSlot : (s.setCounter n x).lastSlot = s.lastSlot := rfl
@[simp] theorem setCounter_parties : (s.setCounter n x).parties = s.parties := rfl
@[simp] theorem setCounter_mem : (s.setCounter n x).mem = s.mem := rfl
@[simp] theorem setCounter_llc : (s.setCounter n x).llc = s.llc := rfl
@[simp] theorem setCounter_memPoison : (s.setCounter n x).memPoison = s.memPoison := rfl
@[simp] theorem setCounter_scratch : (s.setCounter n x).scratch = s.scratch := rfl
@[simp] theorem setCounter_scratchPoison : (s.setCounter n x).scratchPoison = s.scratchPoison := rfl
@[simp] theorem setCounter_l2 : (s.setCounter n x).l2 = s.l2 := rfl
@[simp] theorem setCounter_mshrs : (s.setCounter n x).mshrs = s.mshrs := rfl
@[simp] theorem setCounter_ingress : (s.setCounter n x).ingress = s.ingress := rfl
@[simp] theorem setCounter_dieLf : (s.setCounter n x).dieLf = s.dieLf := rfl
@[simp] theorem setCounter_walks : (s.setCounter n x).walks = s.walks := rfl
@[simp] theorem setCounter_walkQueue : (s.setCounter n x).walkQueue = s.walkQueue := rfl
@[simp] theorem setCounter_walkFails : (s.setCounter n x).walkFails = s.walkFails := rfl
@[simp] theorem setCounter_pwc : (s.setCounter n x).pwc = s.pwc := rfl
@[simp] theorem setCounter_ctxRoots : (s.setCounter n x).ctxRoots = s.ctxRoots := rfl
@[simp] theorem setCounter_utlb : (s.setCounter n x).utlb = s.utlb := rfl
@[simp] theorem setCounter_ttlb : (s.setCounter n x).ttlb = s.ttlb := rfl
@[simp] theorem setCounter_ctlb : (s.setCounter n x).ctlb = s.ctlb := rfl
@[simp] theorem setCounter_dtlb : (s.setCounter n x).dtlb = s.dtlb := rfl
@[simp] theorem setCounter_marks : (s.setCounter n x).marks = s.marks := rfl
@[simp] theorem setCounter_gaz : (s.setCounter n x).gaz = s.gaz := rfl
@[simp] theorem setCounter_hold : (s.setCounter n x).hold = s.hold := rfl
@[simp] theorem setCounter_flight : (s.setCounter n x).flight = s.flight := rfl
@[simp] theorem setCounter_escal : (s.setCounter n x).escal = s.escal := rfl
@[simp] theorem setCounter_ctbaseEn : (s.setCounter n x).ctbaseEn = s.ctbaseEn := rfl
@[simp] theorem setCounter_ctbase : (s.setCounter n x).ctbase = s.ctbase := rfl
@[simp] theorem setCounter_clusters : (s.setCounter n x).clusters = s.clusters := rfl
@[simp] theorem setCounter_queues : (s.setCounter n x).queues = s.queues := rfl
@[simp] theorem setCounter_surveys : (s.setCounter n x).surveys = s.surveys := rfl
@[simp] theorem setCounter_counters : (s.setCounter n x).counters = tput s.counters n x := rfl
@[simp] theorem setCounter_plat : (s.setCounter n x).plat = s.plat := rfl
@[simp] theorem setCounter_images : (s.setCounter n x).images = s.images := rfl
@[simp] theorem setCounter_lastServed : (s.setCounter n x).lastServed = s.lastServed := rfl
@[simp] theorem setCounter_bindServed : (s.setCounter n x).bindServed = s.bindServed := rfl
@[simp] theorem setCounter_launched : (s.setCounter n x).launched = s.launched := rfl
@[simp] theorem setCounter_stops : (s.setCounter n x).stops = s.stops := rfl
@[simp] theorem setCounter_moveQueue : (s.setCounter n x).moveQueue = s.moveQueue := rfl
@[simp] theorem setCounter_savedAreas : (s.setCounter n x).savedAreas = s.savedAreas := rfl
@[simp] theorem setCounter_saveSeq : (s.setCounter n x).saveSeq = s.saveSeq := rfl
@[simp] theorem setCounter_hosts : (s.setCounter n x).hosts = s.hosts := rfl
@[simp] theorem setCounter_ports : (s.setCounter n x).ports = s.ports := rfl
@[simp] theorem setCounter_pkgNo : (s.setCounter n x).pkgNo = s.pkgNo := rfl
@[simp] theorem setCounter_planes : (s.setCounter n x).planes = s.planes := rfl
@[simp] theorem setCounter_domainSet : (s.setCounter n x).domainSet = s.domainSet := rfl
@[simp] theorem setCounter_outbound : (s.setCounter n x).outbound = s.outbound := rfl
@[simp] theorem setCounter_opreq : (s.setCounter n x).opreq = s.opreq := rfl
@[simp] theorem setCounter_tiles : (s.setCounter n x).tiles = s.tiles := rfl
@[simp] theorem setCounter_tmig : (s.setCounter n x).tmig = s.tmig := rfl
@[simp] theorem setCounter_clamp : (s.setCounter n x).clamp = s.clamp := rfl
@[simp] theorem setCounter_watchdog : (s.setCounter n x).watchdog = s.watchdog := rfl
@[simp] theorem setCounter_firmware : (s.setCounter n x).firmware = s.firmware := rfl
@[simp] theorem setCounter_shutDown : (s.setCounter n x).shutDown = s.shutDown := rfl
@[simp] theorem setCounter_ev : (s.setCounter n x).ev = s.ev := rfl
@[simp] theorem setCounter_agenda : (s.setCounter n x).agenda = s.agenda := rfl
@[simp] theorem setCounter_eventTurn : (s.setCounter n x).eventTurn = s.eventTurn := rfl
@[simp] theorem setCounter_round : (s.setCounter n x).round = s.round := rfl
@[simp] theorem setCounter_clock : (s.setCounter n x).clock = s.clock := rfl
@[simp] theorem setCounter_tick : (s.setCounter n x).tick = s.tick := rfl
@[simp] theorem setCounter_serial : (s.setCounter n x).serial = s.serial := rfl
@[simp] theorem counter_setCounter : (s.setCounter n x).counter n = x := tget_tput_same _ _ _ _
theorem counter_setCounter_other (m : Nat) (h : m ≠ n) : (s.setCounter n x).counter m = s.counter m := tget_tput_other _ _ _ _ _ h

end

section
variable (s : State) (n : Nat) (x : Queue)

@[simp] theorem setQueue_th : (s.setQueue n x).th = s.th := rfl
@[simp] theorem setQueue_others : (s.setQueue n x).others = s.others := rfl
@[simp] theorem setQueue_cores : (s.setQueue n x).cores = s.cores := rfl
@[simp] theorem setQueue_lastSlot : (s.setQueue n x).lastSlot = s.lastSlot := rfl
@[simp] theorem setQueue_parties : (s.setQueue n x).parties = s.parties := rfl
@[simp] theorem setQueue_mem : (s.setQueue n x).mem = s.mem := rfl
@[simp] theorem setQueue_llc : (s.setQueue n x).llc = s.llc := rfl
@[simp] theorem setQueue_memPoison : (s.setQueue n x).memPoison = s.memPoison := rfl
@[simp] theorem setQueue_scratch : (s.setQueue n x).scratch = s.scratch := rfl
@[simp] theorem setQueue_scratchPoison : (s.setQueue n x).scratchPoison = s.scratchPoison := rfl
@[simp] theorem setQueue_l2 : (s.setQueue n x).l2 = s.l2 := rfl
@[simp] theorem setQueue_mshrs : (s.setQueue n x).mshrs = s.mshrs := rfl
@[simp] theorem setQueue_ingress : (s.setQueue n x).ingress = s.ingress := rfl
@[simp] theorem setQueue_dieLf : (s.setQueue n x).dieLf = s.dieLf := rfl
@[simp] theorem setQueue_walks : (s.setQueue n x).walks = s.walks := rfl
@[simp] theorem setQueue_walkQueue : (s.setQueue n x).walkQueue = s.walkQueue := rfl
@[simp] theorem setQueue_walkFails : (s.setQueue n x).walkFails = s.walkFails := rfl
@[simp] theorem setQueue_pwc : (s.setQueue n x).pwc = s.pwc := rfl
@[simp] theorem setQueue_ctxRoots : (s.setQueue n x).ctxRoots = s.ctxRoots := rfl
@[simp] theorem setQueue_utlb : (s.setQueue n x).utlb = s.utlb := rfl
@[simp] theorem setQueue_ttlb : (s.setQueue n x).ttlb = s.ttlb := rfl
@[simp] theorem setQueue_ctlb : (s.setQueue n x).ctlb = s.ctlb := rfl
@[simp] theorem setQueue_dtlb : (s.setQueue n x).dtlb = s.dtlb := rfl
@[simp] theorem setQueue_marks : (s.setQueue n x).marks = s.marks := rfl
@[simp] theorem setQueue_gaz : (s.setQueue n x).gaz = s.gaz := rfl
@[simp] theorem setQueue_hold : (s.setQueue n x).hold = s.hold := rfl
@[simp] theorem setQueue_flight : (s.setQueue n x).flight = s.flight := rfl
@[simp] theorem setQueue_escal : (s.setQueue n x).escal = s.escal := rfl
@[simp] theorem setQueue_ctbaseEn : (s.setQueue n x).ctbaseEn = s.ctbaseEn := rfl
@[simp] theorem setQueue_ctbase : (s.setQueue n x).ctbase = s.ctbase := rfl
@[simp] theorem setQueue_clusters : (s.setQueue n x).clusters = s.clusters := rfl
@[simp] theorem setQueue_queues : (s.setQueue n x).queues = tput s.queues n x := rfl
@[simp] theorem setQueue_surveys : (s.setQueue n x).surveys = s.surveys := rfl
@[simp] theorem setQueue_counters : (s.setQueue n x).counters = s.counters := rfl
@[simp] theorem setQueue_plat : (s.setQueue n x).plat = s.plat := rfl
@[simp] theorem setQueue_images : (s.setQueue n x).images = s.images := rfl
@[simp] theorem setQueue_lastServed : (s.setQueue n x).lastServed = s.lastServed := rfl
@[simp] theorem setQueue_bindServed : (s.setQueue n x).bindServed = s.bindServed := rfl
@[simp] theorem setQueue_launched : (s.setQueue n x).launched = s.launched := rfl
@[simp] theorem setQueue_stops : (s.setQueue n x).stops = s.stops := rfl
@[simp] theorem setQueue_moveQueue : (s.setQueue n x).moveQueue = s.moveQueue := rfl
@[simp] theorem setQueue_savedAreas : (s.setQueue n x).savedAreas = s.savedAreas := rfl
@[simp] theorem setQueue_saveSeq : (s.setQueue n x).saveSeq = s.saveSeq := rfl
@[simp] theorem setQueue_hosts : (s.setQueue n x).hosts = s.hosts := rfl
@[simp] theorem setQueue_ports : (s.setQueue n x).ports = s.ports := rfl
@[simp] theorem setQueue_pkgNo : (s.setQueue n x).pkgNo = s.pkgNo := rfl
@[simp] theorem setQueue_planes : (s.setQueue n x).planes = s.planes := rfl
@[simp] theorem setQueue_domainSet : (s.setQueue n x).domainSet = s.domainSet := rfl
@[simp] theorem setQueue_outbound : (s.setQueue n x).outbound = s.outbound := rfl
@[simp] theorem setQueue_opreq : (s.setQueue n x).opreq = s.opreq := rfl
@[simp] theorem setQueue_tiles : (s.setQueue n x).tiles = s.tiles := rfl
@[simp] theorem setQueue_tmig : (s.setQueue n x).tmig = s.tmig := rfl
@[simp] theorem setQueue_clamp : (s.setQueue n x).clamp = s.clamp := rfl
@[simp] theorem setQueue_watchdog : (s.setQueue n x).watchdog = s.watchdog := rfl
@[simp] theorem setQueue_firmware : (s.setQueue n x).firmware = s.firmware := rfl
@[simp] theorem setQueue_shutDown : (s.setQueue n x).shutDown = s.shutDown := rfl
@[simp] theorem setQueue_ev : (s.setQueue n x).ev = s.ev := rfl
@[simp] theorem setQueue_agenda : (s.setQueue n x).agenda = s.agenda := rfl
@[simp] theorem setQueue_eventTurn : (s.setQueue n x).eventTurn = s.eventTurn := rfl
@[simp] theorem setQueue_round : (s.setQueue n x).round = s.round := rfl
@[simp] theorem setQueue_clock : (s.setQueue n x).clock = s.clock := rfl
@[simp] theorem setQueue_tick : (s.setQueue n x).tick = s.tick := rfl
@[simp] theorem setQueue_serial : (s.setQueue n x).serial = s.serial := rfl
@[simp] theorem queue_setQueue : (s.setQueue n x).queue n = x := tget_tput_same _ _ _ _
theorem queue_setQueue_other (m : Nat) (h : m ≠ n) : (s.setQueue n x).queue m = s.queue m := tget_tput_other _ _ _ _ _ h

end

section
variable (s : State) (n : Nat) (x : GazEntry)

@[simp] theorem setGaz_th : (s.setGaz n x).th = s.th := rfl
@[simp] theorem setGaz_others : (s.setGaz n x).others = s.others := rfl
@[simp] theorem setGaz_cores : (s.setGaz n x).cores = s.cores := rfl
@[simp] theorem setGaz_lastSlot : (s.setGaz n x).lastSlot = s.lastSlot := rfl
@[simp] theorem setGaz_parties : (s.setGaz n x).parties = s.parties := rfl
@[simp] theorem setGaz_mem : (s.setGaz n x).mem = s.mem := rfl
@[simp] theorem setGaz_llc : (s.setGaz n x).llc = s.llc := rfl
@[simp] theorem setGaz_memPoison : (s.setGaz n x).memPoison = s.memPoison := rfl
@[simp] theorem setGaz_scratch : (s.setGaz n x).scratch = s.scratch := rfl
@[simp] theorem setGaz_scratchPoison : (s.setGaz n x).scratchPoison = s.scratchPoison := rfl
@[simp] theorem setGaz_l2 : (s.setGaz n x).l2 = s.l2 := rfl
@[simp] theorem setGaz_mshrs : (s.setGaz n x).mshrs = s.mshrs := rfl
@[simp] theorem setGaz_ingress : (s.setGaz n x).ingress = s.ingress := rfl
@[simp] theorem setGaz_dieLf : (s.setGaz n x).dieLf = s.dieLf := rfl
@[simp] theorem setGaz_walks : (s.setGaz n x).walks = s.walks := rfl
@[simp] theorem setGaz_walkQueue : (s.setGaz n x).walkQueue = s.walkQueue := rfl
@[simp] theorem setGaz_walkFails : (s.setGaz n x).walkFails = s.walkFails := rfl
@[simp] theorem setGaz_pwc : (s.setGaz n x).pwc = s.pwc := rfl
@[simp] theorem setGaz_ctxRoots : (s.setGaz n x).ctxRoots = s.ctxRoots := rfl
@[simp] theorem setGaz_utlb : (s.setGaz n x).utlb = s.utlb := rfl
@[simp] theorem setGaz_ttlb : (s.setGaz n x).ttlb = s.ttlb := rfl
@[simp] theorem setGaz_ctlb : (s.setGaz n x).ctlb = s.ctlb := rfl
@[simp] theorem setGaz_dtlb : (s.setGaz n x).dtlb = s.dtlb := rfl
@[simp] theorem setGaz_marks : (s.setGaz n x).marks = s.marks := rfl
@[simp] theorem setGaz_gaz : (s.setGaz n x).gaz = tput s.gaz n x := rfl
@[simp] theorem setGaz_hold : (s.setGaz n x).hold = s.hold := rfl
@[simp] theorem setGaz_flight : (s.setGaz n x).flight = s.flight := rfl
@[simp] theorem setGaz_escal : (s.setGaz n x).escal = s.escal := rfl
@[simp] theorem setGaz_ctbaseEn : (s.setGaz n x).ctbaseEn = s.ctbaseEn := rfl
@[simp] theorem setGaz_ctbase : (s.setGaz n x).ctbase = s.ctbase := rfl
@[simp] theorem setGaz_clusters : (s.setGaz n x).clusters = s.clusters := rfl
@[simp] theorem setGaz_queues : (s.setGaz n x).queues = s.queues := rfl
@[simp] theorem setGaz_surveys : (s.setGaz n x).surveys = s.surveys := rfl
@[simp] theorem setGaz_counters : (s.setGaz n x).counters = s.counters := rfl
@[simp] theorem setGaz_plat : (s.setGaz n x).plat = s.plat := rfl
@[simp] theorem setGaz_images : (s.setGaz n x).images = s.images := rfl
@[simp] theorem setGaz_lastServed : (s.setGaz n x).lastServed = s.lastServed := rfl
@[simp] theorem setGaz_bindServed : (s.setGaz n x).bindServed = s.bindServed := rfl
@[simp] theorem setGaz_launched : (s.setGaz n x).launched = s.launched := rfl
@[simp] theorem setGaz_stops : (s.setGaz n x).stops = s.stops := rfl
@[simp] theorem setGaz_moveQueue : (s.setGaz n x).moveQueue = s.moveQueue := rfl
@[simp] theorem setGaz_savedAreas : (s.setGaz n x).savedAreas = s.savedAreas := rfl
@[simp] theorem setGaz_saveSeq : (s.setGaz n x).saveSeq = s.saveSeq := rfl
@[simp] theorem setGaz_hosts : (s.setGaz n x).hosts = s.hosts := rfl
@[simp] theorem setGaz_ports : (s.setGaz n x).ports = s.ports := rfl
@[simp] theorem setGaz_pkgNo : (s.setGaz n x).pkgNo = s.pkgNo := rfl
@[simp] theorem setGaz_planes : (s.setGaz n x).planes = s.planes := rfl
@[simp] theorem setGaz_domainSet : (s.setGaz n x).domainSet = s.domainSet := rfl
@[simp] theorem setGaz_outbound : (s.setGaz n x).outbound = s.outbound := rfl
@[simp] theorem setGaz_opreq : (s.setGaz n x).opreq = s.opreq := rfl
@[simp] theorem setGaz_tiles : (s.setGaz n x).tiles = s.tiles := rfl
@[simp] theorem setGaz_tmig : (s.setGaz n x).tmig = s.tmig := rfl
@[simp] theorem setGaz_clamp : (s.setGaz n x).clamp = s.clamp := rfl
@[simp] theorem setGaz_watchdog : (s.setGaz n x).watchdog = s.watchdog := rfl
@[simp] theorem setGaz_firmware : (s.setGaz n x).firmware = s.firmware := rfl
@[simp] theorem setGaz_shutDown : (s.setGaz n x).shutDown = s.shutDown := rfl
@[simp] theorem setGaz_ev : (s.setGaz n x).ev = s.ev := rfl
@[simp] theorem setGaz_agenda : (s.setGaz n x).agenda = s.agenda := rfl
@[simp] theorem setGaz_eventTurn : (s.setGaz n x).eventTurn = s.eventTurn := rfl
@[simp] theorem setGaz_round : (s.setGaz n x).round = s.round := rfl
@[simp] theorem setGaz_clock : (s.setGaz n x).clock = s.clock := rfl
@[simp] theorem setGaz_tick : (s.setGaz n x).tick = s.tick := rfl
@[simp] theorem setGaz_serial : (s.setGaz n x).serial = s.serial := rfl
@[simp] theorem gazOf_setGaz : (s.setGaz n x).gazOf n = x := tget_tput_same _ _ _ _
theorem gazOf_setGaz_other (m : Nat) (h : m ≠ n) : (s.setGaz n x).gazOf m = s.gazOf m := tget_tput_other _ _ _ _ _ h

end

section
variable (s : State) (n : Nat) (x : HostPort)

@[simp] theorem setHost_th : (s.setHost n x).th = s.th := rfl
@[simp] theorem setHost_others : (s.setHost n x).others = s.others := rfl
@[simp] theorem setHost_cores : (s.setHost n x).cores = s.cores := rfl
@[simp] theorem setHost_lastSlot : (s.setHost n x).lastSlot = s.lastSlot := rfl
@[simp] theorem setHost_parties : (s.setHost n x).parties = s.parties := rfl
@[simp] theorem setHost_mem : (s.setHost n x).mem = s.mem := rfl
@[simp] theorem setHost_llc : (s.setHost n x).llc = s.llc := rfl
@[simp] theorem setHost_memPoison : (s.setHost n x).memPoison = s.memPoison := rfl
@[simp] theorem setHost_scratch : (s.setHost n x).scratch = s.scratch := rfl
@[simp] theorem setHost_scratchPoison : (s.setHost n x).scratchPoison = s.scratchPoison := rfl
@[simp] theorem setHost_l2 : (s.setHost n x).l2 = s.l2 := rfl
@[simp] theorem setHost_mshrs : (s.setHost n x).mshrs = s.mshrs := rfl
@[simp] theorem setHost_ingress : (s.setHost n x).ingress = s.ingress := rfl
@[simp] theorem setHost_dieLf : (s.setHost n x).dieLf = s.dieLf := rfl
@[simp] theorem setHost_walks : (s.setHost n x).walks = s.walks := rfl
@[simp] theorem setHost_walkQueue : (s.setHost n x).walkQueue = s.walkQueue := rfl
@[simp] theorem setHost_walkFails : (s.setHost n x).walkFails = s.walkFails := rfl
@[simp] theorem setHost_pwc : (s.setHost n x).pwc = s.pwc := rfl
@[simp] theorem setHost_ctxRoots : (s.setHost n x).ctxRoots = s.ctxRoots := rfl
@[simp] theorem setHost_utlb : (s.setHost n x).utlb = s.utlb := rfl
@[simp] theorem setHost_ttlb : (s.setHost n x).ttlb = s.ttlb := rfl
@[simp] theorem setHost_ctlb : (s.setHost n x).ctlb = s.ctlb := rfl
@[simp] theorem setHost_dtlb : (s.setHost n x).dtlb = s.dtlb := rfl
@[simp] theorem setHost_marks : (s.setHost n x).marks = s.marks := rfl
@[simp] theorem setHost_gaz : (s.setHost n x).gaz = s.gaz := rfl
@[simp] theorem setHost_hold : (s.setHost n x).hold = s.hold := rfl
@[simp] theorem setHost_flight : (s.setHost n x).flight = s.flight := rfl
@[simp] theorem setHost_escal : (s.setHost n x).escal = s.escal := rfl
@[simp] theorem setHost_ctbaseEn : (s.setHost n x).ctbaseEn = s.ctbaseEn := rfl
@[simp] theorem setHost_ctbase : (s.setHost n x).ctbase = s.ctbase := rfl
@[simp] theorem setHost_clusters : (s.setHost n x).clusters = s.clusters := rfl
@[simp] theorem setHost_queues : (s.setHost n x).queues = s.queues := rfl
@[simp] theorem setHost_surveys : (s.setHost n x).surveys = s.surveys := rfl
@[simp] theorem setHost_counters : (s.setHost n x).counters = s.counters := rfl
@[simp] theorem setHost_plat : (s.setHost n x).plat = s.plat := rfl
@[simp] theorem setHost_images : (s.setHost n x).images = s.images := rfl
@[simp] theorem setHost_lastServed : (s.setHost n x).lastServed = s.lastServed := rfl
@[simp] theorem setHost_bindServed : (s.setHost n x).bindServed = s.bindServed := rfl
@[simp] theorem setHost_launched : (s.setHost n x).launched = s.launched := rfl
@[simp] theorem setHost_stops : (s.setHost n x).stops = s.stops := rfl
@[simp] theorem setHost_moveQueue : (s.setHost n x).moveQueue = s.moveQueue := rfl
@[simp] theorem setHost_savedAreas : (s.setHost n x).savedAreas = s.savedAreas := rfl
@[simp] theorem setHost_saveSeq : (s.setHost n x).saveSeq = s.saveSeq := rfl
@[simp] theorem setHost_hosts : (s.setHost n x).hosts = tput s.hosts n x := rfl
@[simp] theorem setHost_ports : (s.setHost n x).ports = s.ports := rfl
@[simp] theorem setHost_pkgNo : (s.setHost n x).pkgNo = s.pkgNo := rfl
@[simp] theorem setHost_planes : (s.setHost n x).planes = s.planes := rfl
@[simp] theorem setHost_domainSet : (s.setHost n x).domainSet = s.domainSet := rfl
@[simp] theorem setHost_outbound : (s.setHost n x).outbound = s.outbound := rfl
@[simp] theorem setHost_opreq : (s.setHost n x).opreq = s.opreq := rfl
@[simp] theorem setHost_tiles : (s.setHost n x).tiles = s.tiles := rfl
@[simp] theorem setHost_tmig : (s.setHost n x).tmig = s.tmig := rfl
@[simp] theorem setHost_clamp : (s.setHost n x).clamp = s.clamp := rfl
@[simp] theorem setHost_watchdog : (s.setHost n x).watchdog = s.watchdog := rfl
@[simp] theorem setHost_firmware : (s.setHost n x).firmware = s.firmware := rfl
@[simp] theorem setHost_shutDown : (s.setHost n x).shutDown = s.shutDown := rfl
@[simp] theorem setHost_ev : (s.setHost n x).ev = s.ev := rfl
@[simp] theorem setHost_agenda : (s.setHost n x).agenda = s.agenda := rfl
@[simp] theorem setHost_eventTurn : (s.setHost n x).eventTurn = s.eventTurn := rfl
@[simp] theorem setHost_round : (s.setHost n x).round = s.round := rfl
@[simp] theorem setHost_clock : (s.setHost n x).clock = s.clock := rfl
@[simp] theorem setHost_tick : (s.setHost n x).tick = s.tick := rfl
@[simp] theorem setHost_serial : (s.setHost n x).serial = s.serial := rfl
@[simp] theorem host_setHost : (s.setHost n x).host n = x := tget_tput_same _ _ _ _
theorem host_setHost_other (m : Nat) (h : m ≠ n) : (s.setHost n x).host m = s.host m := tget_tput_other _ _ _ _ _ h

end

section
variable (s : State) (n : Nat) (x : JPort)

@[simp] theorem setPort_th : (s.setPort n x).th = s.th := rfl
@[simp] theorem setPort_others : (s.setPort n x).others = s.others := rfl
@[simp] theorem setPort_cores : (s.setPort n x).cores = s.cores := rfl
@[simp] theorem setPort_lastSlot : (s.setPort n x).lastSlot = s.lastSlot := rfl
@[simp] theorem setPort_parties : (s.setPort n x).parties = s.parties := rfl
@[simp] theorem setPort_mem : (s.setPort n x).mem = s.mem := rfl
@[simp] theorem setPort_llc : (s.setPort n x).llc = s.llc := rfl
@[simp] theorem setPort_memPoison : (s.setPort n x).memPoison = s.memPoison := rfl
@[simp] theorem setPort_scratch : (s.setPort n x).scratch = s.scratch := rfl
@[simp] theorem setPort_scratchPoison : (s.setPort n x).scratchPoison = s.scratchPoison := rfl
@[simp] theorem setPort_l2 : (s.setPort n x).l2 = s.l2 := rfl
@[simp] theorem setPort_mshrs : (s.setPort n x).mshrs = s.mshrs := rfl
@[simp] theorem setPort_ingress : (s.setPort n x).ingress = s.ingress := rfl
@[simp] theorem setPort_dieLf : (s.setPort n x).dieLf = s.dieLf := rfl
@[simp] theorem setPort_walks : (s.setPort n x).walks = s.walks := rfl
@[simp] theorem setPort_walkQueue : (s.setPort n x).walkQueue = s.walkQueue := rfl
@[simp] theorem setPort_walkFails : (s.setPort n x).walkFails = s.walkFails := rfl
@[simp] theorem setPort_pwc : (s.setPort n x).pwc = s.pwc := rfl
@[simp] theorem setPort_ctxRoots : (s.setPort n x).ctxRoots = s.ctxRoots := rfl
@[simp] theorem setPort_utlb : (s.setPort n x).utlb = s.utlb := rfl
@[simp] theorem setPort_ttlb : (s.setPort n x).ttlb = s.ttlb := rfl
@[simp] theorem setPort_ctlb : (s.setPort n x).ctlb = s.ctlb := rfl
@[simp] theorem setPort_dtlb : (s.setPort n x).dtlb = s.dtlb := rfl
@[simp] theorem setPort_marks : (s.setPort n x).marks = s.marks := rfl
@[simp] theorem setPort_gaz : (s.setPort n x).gaz = s.gaz := rfl
@[simp] theorem setPort_hold : (s.setPort n x).hold = s.hold := rfl
@[simp] theorem setPort_flight : (s.setPort n x).flight = s.flight := rfl
@[simp] theorem setPort_escal : (s.setPort n x).escal = s.escal := rfl
@[simp] theorem setPort_ctbaseEn : (s.setPort n x).ctbaseEn = s.ctbaseEn := rfl
@[simp] theorem setPort_ctbase : (s.setPort n x).ctbase = s.ctbase := rfl
@[simp] theorem setPort_clusters : (s.setPort n x).clusters = s.clusters := rfl
@[simp] theorem setPort_queues : (s.setPort n x).queues = s.queues := rfl
@[simp] theorem setPort_surveys : (s.setPort n x).surveys = s.surveys := rfl
@[simp] theorem setPort_counters : (s.setPort n x).counters = s.counters := rfl
@[simp] theorem setPort_plat : (s.setPort n x).plat = s.plat := rfl
@[simp] theorem setPort_images : (s.setPort n x).images = s.images := rfl
@[simp] theorem setPort_lastServed : (s.setPort n x).lastServed = s.lastServed := rfl
@[simp] theorem setPort_bindServed : (s.setPort n x).bindServed = s.bindServed := rfl
@[simp] theorem setPort_launched : (s.setPort n x).launched = s.launched := rfl
@[simp] theorem setPort_stops : (s.setPort n x).stops = s.stops := rfl
@[simp] theorem setPort_moveQueue : (s.setPort n x).moveQueue = s.moveQueue := rfl
@[simp] theorem setPort_savedAreas : (s.setPort n x).savedAreas = s.savedAreas := rfl
@[simp] theorem setPort_saveSeq : (s.setPort n x).saveSeq = s.saveSeq := rfl
@[simp] theorem setPort_hosts : (s.setPort n x).hosts = s.hosts := rfl
@[simp] theorem setPort_ports : (s.setPort n x).ports = tput s.ports n x := rfl
@[simp] theorem setPort_pkgNo : (s.setPort n x).pkgNo = s.pkgNo := rfl
@[simp] theorem setPort_planes : (s.setPort n x).planes = s.planes := rfl
@[simp] theorem setPort_domainSet : (s.setPort n x).domainSet = s.domainSet := rfl
@[simp] theorem setPort_outbound : (s.setPort n x).outbound = s.outbound := rfl
@[simp] theorem setPort_opreq : (s.setPort n x).opreq = s.opreq := rfl
@[simp] theorem setPort_tiles : (s.setPort n x).tiles = s.tiles := rfl
@[simp] theorem setPort_tmig : (s.setPort n x).tmig = s.tmig := rfl
@[simp] theorem setPort_clamp : (s.setPort n x).clamp = s.clamp := rfl
@[simp] theorem setPort_watchdog : (s.setPort n x).watchdog = s.watchdog := rfl
@[simp] theorem setPort_firmware : (s.setPort n x).firmware = s.firmware := rfl
@[simp] theorem setPort_shutDown : (s.setPort n x).shutDown = s.shutDown := rfl
@[simp] theorem setPort_ev : (s.setPort n x).ev = s.ev := rfl
@[simp] theorem setPort_agenda : (s.setPort n x).agenda = s.agenda := rfl
@[simp] theorem setPort_eventTurn : (s.setPort n x).eventTurn = s.eventTurn := rfl
@[simp] theorem setPort_round : (s.setPort n x).round = s.round := rfl
@[simp] theorem setPort_clock : (s.setPort n x).clock = s.clock := rfl
@[simp] theorem setPort_tick : (s.setPort n x).tick = s.tick := rfl
@[simp] theorem setPort_serial : (s.setPort n x).serial = s.serial := rfl
@[simp] theorem port_setPort : (s.setPort n x).port n = x := tget_tput_same _ _ _ _
theorem port_setPort_other (m : Nat) (h : m ≠ n) : (s.setPort n x).port m = s.port m := tget_tput_other _ _ _ _ _ h

end

section
variable (s : State) (n : Nat) (x : TilePower)

@[simp] theorem setTile_th : (s.setTile n x).th = s.th := rfl
@[simp] theorem setTile_others : (s.setTile n x).others = s.others := rfl
@[simp] theorem setTile_cores : (s.setTile n x).cores = s.cores := rfl
@[simp] theorem setTile_lastSlot : (s.setTile n x).lastSlot = s.lastSlot := rfl
@[simp] theorem setTile_parties : (s.setTile n x).parties = s.parties := rfl
@[simp] theorem setTile_mem : (s.setTile n x).mem = s.mem := rfl
@[simp] theorem setTile_llc : (s.setTile n x).llc = s.llc := rfl
@[simp] theorem setTile_memPoison : (s.setTile n x).memPoison = s.memPoison := rfl
@[simp] theorem setTile_scratch : (s.setTile n x).scratch = s.scratch := rfl
@[simp] theorem setTile_scratchPoison : (s.setTile n x).scratchPoison = s.scratchPoison := rfl
@[simp] theorem setTile_l2 : (s.setTile n x).l2 = s.l2 := rfl
@[simp] theorem setTile_mshrs : (s.setTile n x).mshrs = s.mshrs := rfl
@[simp] theorem setTile_ingress : (s.setTile n x).ingress = s.ingress := rfl
@[simp] theorem setTile_dieLf : (s.setTile n x).dieLf = s.dieLf := rfl
@[simp] theorem setTile_walks : (s.setTile n x).walks = s.walks := rfl
@[simp] theorem setTile_walkQueue : (s.setTile n x).walkQueue = s.walkQueue := rfl
@[simp] theorem setTile_walkFails : (s.setTile n x).walkFails = s.walkFails := rfl
@[simp] theorem setTile_pwc : (s.setTile n x).pwc = s.pwc := rfl
@[simp] theorem setTile_ctxRoots : (s.setTile n x).ctxRoots = s.ctxRoots := rfl
@[simp] theorem setTile_utlb : (s.setTile n x).utlb = s.utlb := rfl
@[simp] theorem setTile_ttlb : (s.setTile n x).ttlb = s.ttlb := rfl
@[simp] theorem setTile_ctlb : (s.setTile n x).ctlb = s.ctlb := rfl
@[simp] theorem setTile_dtlb : (s.setTile n x).dtlb = s.dtlb := rfl
@[simp] theorem setTile_marks : (s.setTile n x).marks = s.marks := rfl
@[simp] theorem setTile_gaz : (s.setTile n x).gaz = s.gaz := rfl
@[simp] theorem setTile_hold : (s.setTile n x).hold = s.hold := rfl
@[simp] theorem setTile_flight : (s.setTile n x).flight = s.flight := rfl
@[simp] theorem setTile_escal : (s.setTile n x).escal = s.escal := rfl
@[simp] theorem setTile_ctbaseEn : (s.setTile n x).ctbaseEn = s.ctbaseEn := rfl
@[simp] theorem setTile_ctbase : (s.setTile n x).ctbase = s.ctbase := rfl
@[simp] theorem setTile_clusters : (s.setTile n x).clusters = s.clusters := rfl
@[simp] theorem setTile_queues : (s.setTile n x).queues = s.queues := rfl
@[simp] theorem setTile_surveys : (s.setTile n x).surveys = s.surveys := rfl
@[simp] theorem setTile_counters : (s.setTile n x).counters = s.counters := rfl
@[simp] theorem setTile_plat : (s.setTile n x).plat = s.plat := rfl
@[simp] theorem setTile_images : (s.setTile n x).images = s.images := rfl
@[simp] theorem setTile_lastServed : (s.setTile n x).lastServed = s.lastServed := rfl
@[simp] theorem setTile_bindServed : (s.setTile n x).bindServed = s.bindServed := rfl
@[simp] theorem setTile_launched : (s.setTile n x).launched = s.launched := rfl
@[simp] theorem setTile_stops : (s.setTile n x).stops = s.stops := rfl
@[simp] theorem setTile_moveQueue : (s.setTile n x).moveQueue = s.moveQueue := rfl
@[simp] theorem setTile_savedAreas : (s.setTile n x).savedAreas = s.savedAreas := rfl
@[simp] theorem setTile_saveSeq : (s.setTile n x).saveSeq = s.saveSeq := rfl
@[simp] theorem setTile_hosts : (s.setTile n x).hosts = s.hosts := rfl
@[simp] theorem setTile_ports : (s.setTile n x).ports = s.ports := rfl
@[simp] theorem setTile_pkgNo : (s.setTile n x).pkgNo = s.pkgNo := rfl
@[simp] theorem setTile_planes : (s.setTile n x).planes = s.planes := rfl
@[simp] theorem setTile_domainSet : (s.setTile n x).domainSet = s.domainSet := rfl
@[simp] theorem setTile_outbound : (s.setTile n x).outbound = s.outbound := rfl
@[simp] theorem setTile_opreq : (s.setTile n x).opreq = s.opreq := rfl
@[simp] theorem setTile_tiles : (s.setTile n x).tiles = tput s.tiles n x := rfl
@[simp] theorem setTile_tmig : (s.setTile n x).tmig = s.tmig := rfl
@[simp] theorem setTile_clamp : (s.setTile n x).clamp = s.clamp := rfl
@[simp] theorem setTile_watchdog : (s.setTile n x).watchdog = s.watchdog := rfl
@[simp] theorem setTile_firmware : (s.setTile n x).firmware = s.firmware := rfl
@[simp] theorem setTile_shutDown : (s.setTile n x).shutDown = s.shutDown := rfl
@[simp] theorem setTile_ev : (s.setTile n x).ev = s.ev := rfl
@[simp] theorem setTile_agenda : (s.setTile n x).agenda = s.agenda := rfl
@[simp] theorem setTile_eventTurn : (s.setTile n x).eventTurn = s.eventTurn := rfl
@[simp] theorem setTile_round : (s.setTile n x).round = s.round := rfl
@[simp] theorem setTile_clock : (s.setTile n x).clock = s.clock := rfl
@[simp] theorem setTile_tick : (s.setTile n x).tick = s.tick := rfl
@[simp] theorem setTile_serial : (s.setTile n x).serial = s.serial := rfl
@[simp] theorem tile_setTile : (s.setTile n x).tile n = x := tget_tput_same _ _ _ _
theorem tile_setTile_other (m : Nat) (h : m ≠ n) : (s.setTile n x).tile m = s.tile m := tget_tput_other _ _ _ _ _ h

end

section
variable (s : State) (n : Nat) (x : Cluster)

@[simp] theorem setCluster_th : (s.setCluster n x).th = s.th := rfl
@[simp] theorem setCluster_others : (s.setCluster n x).others = s.others := rfl
@[simp] theorem setCluster_cores : (s.setCluster n x).cores = s.cores := rfl
@[simp] theorem setCluster_lastSlot : (s.setCluster n x).lastSlot = s.lastSlot := rfl
@[simp] theorem setCluster_parties : (s.setCluster n x).parties = s.parties := rfl
@[simp] theorem setCluster_mem : (s.setCluster n x).mem = s.mem := rfl
@[simp] theorem setCluster_llc : (s.setCluster n x).llc = s.llc := rfl
@[simp] theorem setCluster_memPoison : (s.setCluster n x).memPoison = s.memPoison := rfl
@[simp] theorem setCluster_scratch : (s.setCluster n x).scratch = s.scratch := rfl
@[simp] theorem setCluster_scratchPoison : (s.setCluster n x).scratchPoison = s.scratchPoison := rfl
@[simp] theorem setCluster_l2 : (s.setCluster n x).l2 = s.l2 := rfl
@[simp] theorem setCluster_mshrs : (s.setCluster n x).mshrs = s.mshrs := rfl
@[simp] theorem setCluster_ingress : (s.setCluster n x).ingress = s.ingress := rfl
@[simp] theorem setCluster_dieLf : (s.setCluster n x).dieLf = s.dieLf := rfl
@[simp] theorem setCluster_walks : (s.setCluster n x).walks = s.walks := rfl
@[simp] theorem setCluster_walkQueue : (s.setCluster n x).walkQueue = s.walkQueue := rfl
@[simp] theorem setCluster_walkFails : (s.setCluster n x).walkFails = s.walkFails := rfl
@[simp] theorem setCluster_pwc : (s.setCluster n x).pwc = s.pwc := rfl
@[simp] theorem setCluster_ctxRoots : (s.setCluster n x).ctxRoots = s.ctxRoots := rfl
@[simp] theorem setCluster_utlb : (s.setCluster n x).utlb = s.utlb := rfl
@[simp] theorem setCluster_ttlb : (s.setCluster n x).ttlb = s.ttlb := rfl
@[simp] theorem setCluster_ctlb : (s.setCluster n x).ctlb = s.ctlb := rfl
@[simp] theorem setCluster_dtlb : (s.setCluster n x).dtlb = s.dtlb := rfl
@[simp] theorem setCluster_marks : (s.setCluster n x).marks = s.marks := rfl
@[simp] theorem setCluster_gaz : (s.setCluster n x).gaz = s.gaz := rfl
@[simp] theorem setCluster_hold : (s.setCluster n x).hold = s.hold := rfl
@[simp] theorem setCluster_flight : (s.setCluster n x).flight = s.flight := rfl
@[simp] theorem setCluster_escal : (s.setCluster n x).escal = s.escal := rfl
@[simp] theorem setCluster_ctbaseEn : (s.setCluster n x).ctbaseEn = s.ctbaseEn := rfl
@[simp] theorem setCluster_ctbase : (s.setCluster n x).ctbase = s.ctbase := rfl
@[simp] theorem setCluster_clusters : (s.setCluster n x).clusters = tput s.clusters n x := rfl
@[simp] theorem setCluster_queues : (s.setCluster n x).queues = s.queues := rfl
@[simp] theorem setCluster_surveys : (s.setCluster n x).surveys = s.surveys := rfl
@[simp] theorem setCluster_counters : (s.setCluster n x).counters = s.counters := rfl
@[simp] theorem setCluster_plat : (s.setCluster n x).plat = s.plat := rfl
@[simp] theorem setCluster_images : (s.setCluster n x).images = s.images := rfl
@[simp] theorem setCluster_lastServed : (s.setCluster n x).lastServed = s.lastServed := rfl
@[simp] theorem setCluster_bindServed : (s.setCluster n x).bindServed = s.bindServed := rfl
@[simp] theorem setCluster_launched : (s.setCluster n x).launched = s.launched := rfl
@[simp] theorem setCluster_stops : (s.setCluster n x).stops = s.stops := rfl
@[simp] theorem setCluster_moveQueue : (s.setCluster n x).moveQueue = s.moveQueue := rfl
@[simp] theorem setCluster_savedAreas : (s.setCluster n x).savedAreas = s.savedAreas := rfl
@[simp] theorem setCluster_saveSeq : (s.setCluster n x).saveSeq = s.saveSeq := rfl
@[simp] theorem setCluster_hosts : (s.setCluster n x).hosts = s.hosts := rfl
@[simp] theorem setCluster_ports : (s.setCluster n x).ports = s.ports := rfl
@[simp] theorem setCluster_pkgNo : (s.setCluster n x).pkgNo = s.pkgNo := rfl
@[simp] theorem setCluster_planes : (s.setCluster n x).planes = s.planes := rfl
@[simp] theorem setCluster_domainSet : (s.setCluster n x).domainSet = s.domainSet := rfl
@[simp] theorem setCluster_outbound : (s.setCluster n x).outbound = s.outbound := rfl
@[simp] theorem setCluster_opreq : (s.setCluster n x).opreq = s.opreq := rfl
@[simp] theorem setCluster_tiles : (s.setCluster n x).tiles = s.tiles := rfl
@[simp] theorem setCluster_tmig : (s.setCluster n x).tmig = s.tmig := rfl
@[simp] theorem setCluster_clamp : (s.setCluster n x).clamp = s.clamp := rfl
@[simp] theorem setCluster_watchdog : (s.setCluster n x).watchdog = s.watchdog := rfl
@[simp] theorem setCluster_firmware : (s.setCluster n x).firmware = s.firmware := rfl
@[simp] theorem setCluster_shutDown : (s.setCluster n x).shutDown = s.shutDown := rfl
@[simp] theorem setCluster_ev : (s.setCluster n x).ev = s.ev := rfl
@[simp] theorem setCluster_agenda : (s.setCluster n x).agenda = s.agenda := rfl
@[simp] theorem setCluster_eventTurn : (s.setCluster n x).eventTurn = s.eventTurn := rfl
@[simp] theorem setCluster_round : (s.setCluster n x).round = s.round := rfl
@[simp] theorem setCluster_clock : (s.setCluster n x).clock = s.clock := rfl
@[simp] theorem setCluster_tick : (s.setCluster n x).tick = s.tick := rfl
@[simp] theorem setCluster_serial : (s.setCluster n x).serial = s.serial := rfl
@[simp] theorem cluster_setCluster : (s.setCluster n x).cluster n = x := tget_tput_same _ _ _ _
theorem cluster_setCluster_other (m : Nat) (h : m ≠ n) : (s.setCluster n x).cluster m = s.cluster m := tget_tput_other _ _ _ _ _ h

end

section
variable (s : State) (t : Thread) (n : Nat)

@[simp] theorem withTh_th : (s.withTh t).th = t := rfl
@[simp] theorem withTh_others : (s.withTh t).others = s.others := rfl
@[simp] theorem withTh_cores : (s.withTh t).cores = s.cores := rfl
@[simp] theorem withTh_lastSlot : (s.withTh t).lastSlot = s.lastSlot := rfl
@[simp] theorem withTh_parties : (s.withTh t).parties = s.parties := rfl
@[simp] theorem withTh_mem : (s.withTh t).mem = s.mem := rfl
@[simp] theorem withTh_llc : (s.withTh t).llc = s.llc := rfl
@[simp] theorem withTh_memPoison : (s.withTh t).memPoison = s.memPoison := rfl
@[simp] theorem withTh_scratch : (s.withTh t).scratch = s.scratch := rfl
@[simp] theorem withTh_scratchPoison : (s.withTh t).scratchPoison = s.scratchPoison := rfl
@[simp] theorem withTh_l2 : (s.withTh t).l2 = s.l2 := rfl
@[simp] theorem withTh_mshrs : (s.withTh t).mshrs = s.mshrs := rfl
@[simp] theorem withTh_ingress : (s.withTh t).ingress = s.ingress := rfl
@[simp] theorem withTh_dieLf : (s.withTh t).dieLf = s.dieLf := rfl
@[simp] theorem withTh_walks : (s.withTh t).walks = s.walks := rfl
@[simp] theorem withTh_walkQueue : (s.withTh t).walkQueue = s.walkQueue := rfl
@[simp] theorem withTh_walkFails : (s.withTh t).walkFails = s.walkFails := rfl
@[simp] theorem withTh_pwc : (s.withTh t).pwc = s.pwc := rfl
@[simp] theorem withTh_ctxRoots : (s.withTh t).ctxRoots = s.ctxRoots := rfl
@[simp] theorem withTh_utlb : (s.withTh t).utlb = s.utlb := rfl
@[simp] theorem withTh_ttlb : (s.withTh t).ttlb = s.ttlb := rfl
@[simp] theorem withTh_ctlb : (s.withTh t).ctlb = s.ctlb := rfl
@[simp] theorem withTh_dtlb : (s.withTh t).dtlb = s.dtlb := rfl
@[simp] theorem withTh_marks : (s.withTh t).marks = s.marks := rfl
@[simp] theorem withTh_gaz : (s.withTh t).gaz = s.gaz := rfl
@[simp] theorem withTh_hold : (s.withTh t).hold = s.hold := rfl
@[simp] theorem withTh_flight : (s.withTh t).flight = s.flight := rfl
@[simp] theorem withTh_escal : (s.withTh t).escal = s.escal := rfl
@[simp] theorem withTh_ctbaseEn : (s.withTh t).ctbaseEn = s.ctbaseEn := rfl
@[simp] theorem withTh_ctbase : (s.withTh t).ctbase = s.ctbase := rfl
@[simp] theorem withTh_clusters : (s.withTh t).clusters = s.clusters := rfl
@[simp] theorem withTh_queues : (s.withTh t).queues = s.queues := rfl
@[simp] theorem withTh_surveys : (s.withTh t).surveys = s.surveys := rfl
@[simp] theorem withTh_counters : (s.withTh t).counters = s.counters := rfl
@[simp] theorem withTh_plat : (s.withTh t).plat = s.plat := rfl
@[simp] theorem withTh_images : (s.withTh t).images = s.images := rfl
@[simp] theorem withTh_lastServed : (s.withTh t).lastServed = s.lastServed := rfl
@[simp] theorem withTh_bindServed : (s.withTh t).bindServed = s.bindServed := rfl
@[simp] theorem withTh_launched : (s.withTh t).launched = s.launched := rfl
@[simp] theorem withTh_stops : (s.withTh t).stops = s.stops := rfl
@[simp] theorem withTh_moveQueue : (s.withTh t).moveQueue = s.moveQueue := rfl
@[simp] theorem withTh_savedAreas : (s.withTh t).savedAreas = s.savedAreas := rfl
@[simp] theorem withTh_saveSeq : (s.withTh t).saveSeq = s.saveSeq := rfl
@[simp] theorem withTh_hosts : (s.withTh t).hosts = s.hosts := rfl
@[simp] theorem withTh_ports : (s.withTh t).ports = s.ports := rfl
@[simp] theorem withTh_pkgNo : (s.withTh t).pkgNo = s.pkgNo := rfl
@[simp] theorem withTh_planes : (s.withTh t).planes = s.planes := rfl
@[simp] theorem withTh_domainSet : (s.withTh t).domainSet = s.domainSet := rfl
@[simp] theorem withTh_outbound : (s.withTh t).outbound = s.outbound := rfl
@[simp] theorem withTh_opreq : (s.withTh t).opreq = s.opreq := rfl
@[simp] theorem withTh_tiles : (s.withTh t).tiles = s.tiles := rfl
@[simp] theorem withTh_tmig : (s.withTh t).tmig = s.tmig := rfl
@[simp] theorem withTh_clamp : (s.withTh t).clamp = s.clamp := rfl
@[simp] theorem withTh_watchdog : (s.withTh t).watchdog = s.watchdog := rfl
@[simp] theorem withTh_firmware : (s.withTh t).firmware = s.firmware := rfl
@[simp] theorem withTh_shutDown : (s.withTh t).shutDown = s.shutDown := rfl
@[simp] theorem withTh_ev : (s.withTh t).ev = s.ev := rfl
@[simp] theorem withTh_agenda : (s.withTh t).agenda = s.agenda := rfl
@[simp] theorem withTh_eventTurn : (s.withTh t).eventTurn = s.eventTurn := rfl
@[simp] theorem withTh_round : (s.withTh t).round = s.round := rfl
@[simp] theorem withTh_clock : (s.withTh t).clock = s.clock := rfl
@[simp] theorem withTh_tick : (s.withTh t).tick = s.tick := rfl
@[simp] theorem withTh_serial : (s.withTh t).serial = s.serial := rfl
@[simp] theorem setThreadAt_cores : (s.setThreadAt n t).cores = s.cores := by unfold State.setThreadAt; split <;> rfl
@[simp] theorem setThreadAt_lastSlot : (s.setThreadAt n t).lastSlot = s.lastSlot := by unfold State.setThreadAt; split <;> rfl
@[simp] theorem setThreadAt_parties : (s.setThreadAt n t).parties = s.parties := by unfold State.setThreadAt; split <;> rfl
@[simp] theorem setThreadAt_mem : (s.setThreadAt n t).mem = s.mem := by unfold State.setThreadAt; split <;> rfl
@[simp] theorem setThreadAt_llc : (s.setThreadAt n t).llc = s.llc := by unfold State.setThreadAt; split <;> rfl
@[simp] theorem setThreadAt_memPoison : (s.setThreadAt n t).memPoison = s.memPoison := by unfold State.setThreadAt; split <;> rfl
@[simp] theorem setThreadAt_scratch : (s.setThreadAt n t).scratch = s.scratch := by unfold State.setThreadAt; split <;> rfl
@[simp] theorem setThreadAt_scratchPoison : (s.setThreadAt n t).scratchPoison = s.scratchPoison := by unfold State.setThreadAt; split <;> rfl
@[simp] theorem setThreadAt_l2 : (s.setThreadAt n t).l2 = s.l2 := by unfold State.setThreadAt; split <;> rfl
@[simp] theorem setThreadAt_mshrs : (s.setThreadAt n t).mshrs = s.mshrs := by unfold State.setThreadAt; split <;> rfl
@[simp] theorem setThreadAt_ingress : (s.setThreadAt n t).ingress = s.ingress := by unfold State.setThreadAt; split <;> rfl
@[simp] theorem setThreadAt_dieLf : (s.setThreadAt n t).dieLf = s.dieLf := by unfold State.setThreadAt; split <;> rfl
@[simp] theorem setThreadAt_walks : (s.setThreadAt n t).walks = s.walks := by unfold State.setThreadAt; split <;> rfl
@[simp] theorem setThreadAt_walkQueue : (s.setThreadAt n t).walkQueue = s.walkQueue := by unfold State.setThreadAt; split <;> rfl
@[simp] theorem setThreadAt_walkFails : (s.setThreadAt n t).walkFails = s.walkFails := by unfold State.setThreadAt; split <;> rfl
@[simp] theorem setThreadAt_pwc : (s.setThreadAt n t).pwc = s.pwc := by unfold State.setThreadAt; split <;> rfl
@[simp] theorem setThreadAt_ctxRoots : (s.setThreadAt n t).ctxRoots = s.ctxRoots := by unfold State.setThreadAt; split <;> rfl
@[simp] theorem setThreadAt_utlb : (s.setThreadAt n t).utlb = s.utlb := by unfold State.setThreadAt; split <;> rfl
@[simp] theorem setThreadAt_ttlb : (s.setThreadAt n t).ttlb = s.ttlb := by unfold State.setThreadAt; split <;> rfl
@[simp] theorem setThreadAt_ctlb : (s.setThreadAt n t).ctlb = s.ctlb := by unfold State.setThreadAt; split <;> rfl
@[simp] theorem setThreadAt_dtlb : (s.setThreadAt n t).dtlb = s.dtlb := by unfold State.setThreadAt; split <;> rfl
@[simp] theorem setThreadAt_marks : (s.setThreadAt n t).marks = s.marks := by unfold State.setThreadAt; split <;> rfl
@[simp] theorem setThreadAt_gaz : (s.setThreadAt n t).gaz = s.gaz := by unfold State.setThreadAt; split <;> rfl
@[simp] theorem setThreadAt_hold : (s.setThreadAt n t).hold = s.hold := by unfold State.setThreadAt; split <;> rfl
@[simp] theorem setThreadAt_flight : (s.setThreadAt n t).flight = s.flight := by unfold State.setThreadAt; split <;> rfl
@[simp] theorem setThreadAt_escal : (s.setThreadAt n t).escal = s.escal := by unfold State.setThreadAt; split <;> rfl
@[simp] theorem setThreadAt_ctbaseEn : (s.setThreadAt n t).ctbaseEn = s.ctbaseEn := by unfold State.setThreadAt; split <;> rfl
@[simp] theorem setThreadAt_ctbase : (s.setThreadAt n t).ctbase = s.ctbase := by unfold State.setThreadAt; split <;> rfl
@[simp] theorem setThreadAt_clusters : (s.setThreadAt n t).clusters = s.clusters := by unfold State.setThreadAt; split <;> rfl
@[simp] theorem setThreadAt_queues : (s.setThreadAt n t).queues = s.queues := by unfold State.setThreadAt; split <;> rfl
@[simp] theorem setThreadAt_surveys : (s.setThreadAt n t).surveys = s.surveys := by unfold State.setThreadAt; split <;> rfl
@[simp] theorem setThreadAt_counters : (s.setThreadAt n t).counters = s.counters := by unfold State.setThreadAt; split <;> rfl
@[simp] theorem setThreadAt_plat : (s.setThreadAt n t).plat = s.plat := by unfold State.setThreadAt; split <;> rfl
@[simp] theorem setThreadAt_images : (s.setThreadAt n t).images = s.images := by unfold State.setThreadAt; split <;> rfl
@[simp] theorem setThreadAt_lastServed : (s.setThreadAt n t).lastServed = s.lastServed := by unfold State.setThreadAt; split <;> rfl
@[simp] theorem setThreadAt_bindServed : (s.setThreadAt n t).bindServed = s.bindServed := by unfold State.setThreadAt; split <;> rfl
@[simp] theorem setThreadAt_launched : (s.setThreadAt n t).launched = s.launched := by unfold State.setThreadAt; split <;> rfl
@[simp] theorem setThreadAt_stops : (s.setThreadAt n t).stops = s.stops := by unfold State.setThreadAt; split <;> rfl
@[simp] theorem setThreadAt_moveQueue : (s.setThreadAt n t).moveQueue = s.moveQueue := by unfold State.setThreadAt; split <;> rfl
@[simp] theorem setThreadAt_savedAreas : (s.setThreadAt n t).savedAreas = s.savedAreas := by unfold State.setThreadAt; split <;> rfl
@[simp] theorem setThreadAt_saveSeq : (s.setThreadAt n t).saveSeq = s.saveSeq := by unfold State.setThreadAt; split <;> rfl
@[simp] theorem setThreadAt_hosts : (s.setThreadAt n t).hosts = s.hosts := by unfold State.setThreadAt; split <;> rfl
@[simp] theorem setThreadAt_ports : (s.setThreadAt n t).ports = s.ports := by unfold State.setThreadAt; split <;> rfl
@[simp] theorem setThreadAt_pkgNo : (s.setThreadAt n t).pkgNo = s.pkgNo := by unfold State.setThreadAt; split <;> rfl
@[simp] theorem setThreadAt_planes : (s.setThreadAt n t).planes = s.planes := by unfold State.setThreadAt; split <;> rfl
@[simp] theorem setThreadAt_domainSet : (s.setThreadAt n t).domainSet = s.domainSet := by unfold State.setThreadAt; split <;> rfl
@[simp] theorem setThreadAt_outbound : (s.setThreadAt n t).outbound = s.outbound := by unfold State.setThreadAt; split <;> rfl
@[simp] theorem setThreadAt_opreq : (s.setThreadAt n t).opreq = s.opreq := by unfold State.setThreadAt; split <;> rfl
@[simp] theorem setThreadAt_tiles : (s.setThreadAt n t).tiles = s.tiles := by unfold State.setThreadAt; split <;> rfl
@[simp] theorem setThreadAt_tmig : (s.setThreadAt n t).tmig = s.tmig := by unfold State.setThreadAt; split <;> rfl
@[simp] theorem setThreadAt_clamp : (s.setThreadAt n t).clamp = s.clamp := by unfold State.setThreadAt; split <;> rfl
@[simp] theorem setThreadAt_watchdog : (s.setThreadAt n t).watchdog = s.watchdog := by unfold State.setThreadAt; split <;> rfl
@[simp] theorem setThreadAt_firmware : (s.setThreadAt n t).firmware = s.firmware := by unfold State.setThreadAt; split <;> rfl
@[simp] theorem setThreadAt_shutDown : (s.setThreadAt n t).shutDown = s.shutDown := by unfold State.setThreadAt; split <;> rfl
@[simp] theorem setThreadAt_ev : (s.setThreadAt n t).ev = s.ev := by unfold State.setThreadAt; split <;> rfl
@[simp] theorem setThreadAt_agenda : (s.setThreadAt n t).agenda = s.agenda := by unfold State.setThreadAt; split <;> rfl
@[simp] theorem setThreadAt_eventTurn : (s.setThreadAt n t).eventTurn = s.eventTurn := by unfold State.setThreadAt; split <;> rfl
@[simp] theorem setThreadAt_round : (s.setThreadAt n t).round = s.round := by unfold State.setThreadAt; split <;> rfl
@[simp] theorem setThreadAt_clock : (s.setThreadAt n t).clock = s.clock := by unfold State.setThreadAt; split <;> rfl
@[simp] theorem setThreadAt_tick : (s.setThreadAt n t).tick = s.tick := by unfold State.setThreadAt; split <;> rfl
@[simp] theorem setThreadAt_serial : (s.setThreadAt n t).serial = s.serial := by unfold State.setThreadAt; split <;> rfl
@[simp] theorem focus_cores : (s.focus n).cores = s.cores := by unfold State.focus; split <;> rfl
@[simp] theorem focus_lastSlot : (s.focus n).lastSlot = s.lastSlot := by unfold State.focus; split <;> rfl
@[simp] theorem focus_parties : (s.focus n).parties = s.parties := by unfold State.focus; split <;> rfl
@[simp] theorem focus_mem : (s.focus n).mem = s.mem := by unfold State.focus; split <;> rfl
@[simp] theorem focus_llc : (s.focus n).llc = s.llc := by unfold State.focus; split <;> rfl
@[simp] theorem focus_memPoison : (s.focus n).memPoison = s.memPoison := by unfold State.focus; split <;> rfl
@[simp] theorem focus_scratch : (s.focus n).scratch = s.scratch := by unfold State.focus; split <;> rfl
@[simp] theorem focus_scratchPoison : (s.focus n).scratchPoison = s.scratchPoison := by unfold State.focus; split <;> rfl
@[simp] theorem focus_l2 : (s.focus n).l2 = s.l2 := by unfold State.focus; split <;> rfl
@[simp] theorem focus_mshrs : (s.focus n).mshrs = s.mshrs := by unfold State.focus; split <;> rfl
@[simp] theorem focus_ingress : (s.focus n).ingress = s.ingress := by unfold State.focus; split <;> rfl
@[simp] theorem focus_dieLf : (s.focus n).dieLf = s.dieLf := by unfold State.focus; split <;> rfl
@[simp] theorem focus_walks : (s.focus n).walks = s.walks := by unfold State.focus; split <;> rfl
@[simp] theorem focus_walkQueue : (s.focus n).walkQueue = s.walkQueue := by unfold State.focus; split <;> rfl
@[simp] theorem focus_walkFails : (s.focus n).walkFails = s.walkFails := by unfold State.focus; split <;> rfl
@[simp] theorem focus_pwc : (s.focus n).pwc = s.pwc := by unfold State.focus; split <;> rfl
@[simp] theorem focus_ctxRoots : (s.focus n).ctxRoots = s.ctxRoots := by unfold State.focus; split <;> rfl
@[simp] theorem focus_utlb : (s.focus n).utlb = s.utlb := by unfold State.focus; split <;> rfl
@[simp] theorem focus_ttlb : (s.focus n).ttlb = s.ttlb := by unfold State.focus; split <;> rfl
@[simp] theorem focus_ctlb : (s.focus n).ctlb = s.ctlb := by unfold State.focus; split <;> rfl
@[simp] theorem focus_dtlb : (s.focus n).dtlb = s.dtlb := by unfold State.focus; split <;> rfl
@[simp] theorem focus_marks : (s.focus n).marks = s.marks := by unfold State.focus; split <;> rfl
@[simp] theorem focus_gaz : (s.focus n).gaz = s.gaz := by unfold State.focus; split <;> rfl
@[simp] theorem focus_hold : (s.focus n).hold = s.hold := by unfold State.focus; split <;> rfl
@[simp] theorem focus_flight : (s.focus n).flight = s.flight := by unfold State.focus; split <;> rfl
@[simp] theorem focus_escal : (s.focus n).escal = s.escal := by unfold State.focus; split <;> rfl
@[simp] theorem focus_ctbaseEn : (s.focus n).ctbaseEn = s.ctbaseEn := by unfold State.focus; split <;> rfl
@[simp] theorem focus_ctbase : (s.focus n).ctbase = s.ctbase := by unfold State.focus; split <;> rfl
@[simp] theorem focus_clusters : (s.focus n).clusters = s.clusters := by unfold State.focus; split <;> rfl
@[simp] theorem focus_queues : (s.focus n).queues = s.queues := by unfold State.focus; split <;> rfl
@[simp] theorem focus_surveys : (s.focus n).surveys = s.surveys := by unfold State.focus; split <;> rfl
@[simp] theorem focus_counters : (s.focus n).counters = s.counters := by unfold State.focus; split <;> rfl
@[simp] theorem focus_plat : (s.focus n).plat = s.plat := by unfold State.focus; split <;> rfl
@[simp] theorem focus_images : (s.focus n).images = s.images := by unfold State.focus; split <;> rfl
@[simp] theorem focus_lastServed : (s.focus n).lastServed = s.lastServed := by unfold State.focus; split <;> rfl
@[simp] theorem focus_bindServed : (s.focus n).bindServed = s.bindServed := by unfold State.focus; split <;> rfl
@[simp] theorem focus_launched : (s.focus n).launched = s.launched := by unfold State.focus; split <;> rfl
@[simp] theorem focus_stops : (s.focus n).stops = s.stops := by unfold State.focus; split <;> rfl
@[simp] theorem focus_moveQueue : (s.focus n).moveQueue = s.moveQueue := by unfold State.focus; split <;> rfl
@[simp] theorem focus_savedAreas : (s.focus n).savedAreas = s.savedAreas := by unfold State.focus; split <;> rfl
@[simp] theorem focus_saveSeq : (s.focus n).saveSeq = s.saveSeq := by unfold State.focus; split <;> rfl
@[simp] theorem focus_hosts : (s.focus n).hosts = s.hosts := by unfold State.focus; split <;> rfl
@[simp] theorem focus_ports : (s.focus n).ports = s.ports := by unfold State.focus; split <;> rfl
@[simp] theorem focus_pkgNo : (s.focus n).pkgNo = s.pkgNo := by unfold State.focus; split <;> rfl
@[simp] theorem focus_planes : (s.focus n).planes = s.planes := by unfold State.focus; split <;> rfl
@[simp] theorem focus_domainSet : (s.focus n).domainSet = s.domainSet := by unfold State.focus; split <;> rfl
@[simp] theorem focus_outbound : (s.focus n).outbound = s.outbound := by unfold State.focus; split <;> rfl
@[simp] theorem focus_opreq : (s.focus n).opreq = s.opreq := by unfold State.focus; split <;> rfl
@[simp] theorem focus_tiles : (s.focus n).tiles = s.tiles := by unfold State.focus; split <;> rfl
@[simp] theorem focus_tmig : (s.focus n).tmig = s.tmig := by unfold State.focus; split <;> rfl
@[simp] theorem focus_clamp : (s.focus n).clamp = s.clamp := by unfold State.focus; split <;> rfl
@[simp] theorem focus_watchdog : (s.focus n).watchdog = s.watchdog := by unfold State.focus; split <;> rfl
@[simp] theorem focus_firmware : (s.focus n).firmware = s.firmware := by unfold State.focus; split <;> rfl
@[simp] theorem focus_shutDown : (s.focus n).shutDown = s.shutDown := by unfold State.focus; split <;> rfl
@[simp] theorem focus_ev : (s.focus n).ev = s.ev := by unfold State.focus; split <;> rfl
@[simp] theorem focus_agenda : (s.focus n).agenda = s.agenda := by unfold State.focus; split <;> rfl
@[simp] theorem focus_eventTurn : (s.focus n).eventTurn = s.eventTurn := by unfold State.focus; split <;> rfl
@[simp] theorem focus_round : (s.focus n).round = s.round := by unfold State.focus; split <;> rfl
@[simp] theorem focus_clock : (s.focus n).clock = s.clock := by unfold State.focus; split <;> rfl
@[simp] theorem focus_tick : (s.focus n).tick = s.tick := by unfold State.focus; split <;> rfl
@[simp] theorem focus_serial : (s.focus n).serial = s.serial := by unfold State.focus; split <;> rfl

@[simp] theorem setThreadAt_threadAt : (s.setThreadAt n { t with place := n }).threadAt n = { t with place := n } := by
  unfold State.setThreadAt State.threadAt
  split
  · simp
  · simp

theorem setThreadAt_threadAt_other (m : Nat) (h : m ≠ n) (ht : t.place = n) : (s.setThreadAt n t).threadAt m = s.threadAt m := by
  unfold State.setThreadAt State.threadAt
  split
  · rename_i h1; simp [ht, h1, Ne.symm h]
  · split
    · rfl
    · simp [tget_tput_other _ _ _ _ _ h]

end

section
variable (t : Thread) (n : BitVec 3) (x : VReg)

@[simp] theorem setVreg_place : (t.setVreg n x).place = t.place := rfl
@[simp] theorem setVreg_pid : (t.setVreg n x).pid = t.pid := rfl
@[simp] theorem setVreg_status : (t.setVreg n x).status = t.status := rfl
@[simp] theorem setVreg_regs : (t.setVreg n x).regs = t.regs := rfl
@[simp] theorem setVreg_z0 : (t.setVreg n x).z0 = t.z0 := rfl
@[simp] theorem setVreg_z1 : (t.setVreg n x).z1 = t.z1 := rfl
@[simp] theorem setVreg_v : (t.setVreg n x).v = t.v.set n.toNat x := rfl
@[simp] theorem setVreg_q : (t.setVreg n x).q = t.q := rfl
@[simp] theorem setVreg_pc : (t.setVreg n x).pc = t.pc := rfl
@[simp] theorem setVreg_stat : (t.setVreg n x).stat = t.stat := rfl
@[simp] theorem setVreg_sstat : (t.setVreg n x).sstat = t.sstat := rfl
@[simp] theorem setVreg_ecause : (t.setVreg n x).ecause = t.ecause := rfl
@[simp] theorem setVreg_epc : (t.setVreg n x).epc = t.epc := rfl
@[simp] theorem setVreg_eval1 : (t.setVreg n x).eval1 = t.eval1 := rfl
@[simp] theorem setVreg_eval2 : (t.setVreg n x).eval2 = t.eval2 := rfl
@[simp] theorem setVreg_tvec : (t.setVreg n x).tvec = t.tvec := rfl
@[simp] theorem setVreg_hscr : (t.setVreg n x).hscr = t.hscr := rfl
@[simp] theorem setVreg_reqf : (t.setVreg n x).reqf = t.reqf := rfl
@[simp] theorem setVreg_fidmax : (t.setVreg n x).fidmax = t.fidmax := rfl
@[simp] theorem setVreg_rank : (t.setVreg n x).rank = t.rank := rfl
@[simp] theorem setVreg_party : (t.setVreg n x).party = t.party := rfl
@[simp] theorem setVreg_migcnt : (t.setVreg n x).migcnt = t.migcnt := rfl
@[simp] theorem setVreg_ctx : (t.setVreg n x).ctx = t.ctx := rfl
@[simp] theorem setVreg_inbox : (t.setVreg n x).inbox = t.inbox := rfl
@[simp] theorem setVreg_wpos : (t.setVreg n x).wpos = t.wpos := rfl
@[simp] theorem setVreg_rpos : (t.setVreg n x).rpos = t.rpos := rfl
@[simp] theorem setVreg_heldMsg : (t.setVreg n x).heldMsg = t.heldMsg := rfl
@[simp] theorem setVreg_lcnt : (t.setVreg n x).lcnt = t.lcnt := rfl
@[simp] theorem setVreg_lstart : (t.setVreg n x).lstart = t.lstart := rfl
@[simp] theorem setVreg_lend : (t.setVreg n x).lend = t.lend := rfl
@[simp] theorem setVreg_srvtab : (t.setVreg n x).srvtab = t.srvtab := rfl
@[simp] theorem setVreg_latchA : (t.setVreg n x).latchA = t.latchA := rfl
@[simp] theorem setVreg_latchB : (t.setVreg n x).latchB = t.latchB := rfl
@[simp] theorem setVreg_loopBuf : (t.setVreg n x).loopBuf = t.loopBuf := rfl
@[simp] theorem setVreg_pfx : (t.setVreg n x).pfx = t.pfx := rfl
@[simp] theorem setVreg_pfxShadow : (t.setVreg n x).pfxShadow = t.pfxShadow := rfl
@[simp] theorem setVreg_sends : (t.setVreg n x).sends = t.sends := rfl
@[simp] theorem setVreg_refused : (t.setVreg n x).refused = t.refused := rfl
@[simp] theorem setVreg_sendBuf : (t.setVreg n x).sendBuf = t.sendBuf := rfl
@[simp] theorem setVreg_srvSeq : (t.setVreg n x).srvSeq = t.srvSeq := rfl
@[simp] theorem setVreg_srvCall : (t.setVreg n x).srvCall = t.srvCall := rfl
@[simp] theorem setVreg_loads : (t.setVreg n x).loads = t.loads := rfl
@[simp] theorem setVreg_late : (t.setVreg n x).late = t.late := rfl
@[simp] theorem setVreg_vop : (t.setVreg n x).vop = t.vop := rfl
@[simp] theorem setVreg_vload : (t.setVreg n x).vload = t.vload := rfl
@[simp] theorem setVreg_devStore : (t.setVreg n x).devStore = t.devStore := rfl
@[simp] theorem setVreg_devCtx : (t.setVreg n x).devCtx = t.devCtx := rfl
@[simp] theorem setVreg_pfloor : (t.setVreg n x).pfloor = t.pfloor := rfl
@[simp] theorem setVreg_lfloor : (t.setVreg n x).lfloor = t.lfloor := rfl
@[simp] theorem setVreg_wait : (t.setVreg n x).wait = t.wait := rfl
@[simp] theorem setVreg_phase : (t.setVreg n x).phase = t.phase := rfl
@[simp] theorem setVreg_held : (t.setVreg n x).held = t.held := rfl
@[simp] theorem setVreg_walkFails : (t.setVreg n x).walkFails = t.walkFails := rfl
@[simp] theorem setVreg_leftAt : (t.setVreg n x).leftAt = t.leftAt := rfl
@[simp] theorem setVreg_yields : (t.setVreg n x).yields = t.yields := rfl
@[simp] theorem setVreg_yieldAt : (t.setVreg n x).yieldAt = t.yieldAt := rfl
@[simp] theorem setVreg_migReq : (t.setVreg n x).migReq = t.migReq := rfl
@[simp] theorem setVreg_moving : (t.setVreg n x).moving = t.moving := rfl
@[simp] theorem setVreg_halt : (t.setVreg n x).halt = t.halt := rfl

end

section
variable (t : Thread) (n : Nat) (x : Reg)

@[simp] theorem setReg_place : (t.setReg n x).place = t.place := by unfold Thread.setReg; split <;> rfl
@[simp] theorem setReg_pid : (t.setReg n x).pid = t.pid := by unfold Thread.setReg; split <;> rfl
@[simp] theorem setReg_status : (t.setReg n x).status = t.status := by unfold Thread.setReg; split <;> rfl
@[simp] theorem setReg_z0 : (t.setReg n x).z0 = t.z0 := by unfold Thread.setReg; split <;> rfl
@[simp] theorem setReg_z1 : (t.setReg n x).z1 = t.z1 := by unfold Thread.setReg; split <;> rfl
@[simp] theorem setReg_v : (t.setReg n x).v = t.v := by unfold Thread.setReg; split <;> rfl
@[simp] theorem setReg_q : (t.setReg n x).q = t.q := by unfold Thread.setReg; split <;> rfl
@[simp] theorem setReg_pc : (t.setReg n x).pc = t.pc := by unfold Thread.setReg; split <;> rfl
@[simp] theorem setReg_stat : (t.setReg n x).stat = t.stat := by unfold Thread.setReg; split <;> rfl
@[simp] theorem setReg_sstat : (t.setReg n x).sstat = t.sstat := by unfold Thread.setReg; split <;> rfl
@[simp] theorem setReg_ecause : (t.setReg n x).ecause = t.ecause := by unfold Thread.setReg; split <;> rfl
@[simp] theorem setReg_epc : (t.setReg n x).epc = t.epc := by unfold Thread.setReg; split <;> rfl
@[simp] theorem setReg_eval1 : (t.setReg n x).eval1 = t.eval1 := by unfold Thread.setReg; split <;> rfl
@[simp] theorem setReg_eval2 : (t.setReg n x).eval2 = t.eval2 := by unfold Thread.setReg; split <;> rfl
@[simp] theorem setReg_tvec : (t.setReg n x).tvec = t.tvec := by unfold Thread.setReg; split <;> rfl
@[simp] theorem setReg_hscr : (t.setReg n x).hscr = t.hscr := by unfold Thread.setReg; split <;> rfl
@[simp] theorem setReg_reqf : (t.setReg n x).reqf = t.reqf := by unfold Thread.setReg; split <;> rfl
@[simp] theorem setReg_fidmax : (t.setReg n x).fidmax = t.fidmax := by unfold Thread.setReg; split <;> rfl
@[simp] theorem setReg_rank : (t.setReg n x).rank = t.rank := by unfold Thread.setReg; split <;> rfl
@[simp] theorem setReg_party : (t.setReg n x).party = t.party := by unfold Thread.setReg; split <;> rfl
@[simp] theorem setReg_migcnt : (t.setReg n x).migcnt = t.migcnt := by unfold Thread.setReg; split <;> rfl
@[simp] theorem setReg_ctx : (t.setReg n x).ctx = t.ctx := by unfold Thread.setReg; split <;> rfl
@[simp] theorem setReg_inbox : (t.setReg n x).inbox = t.inbox := by unfold Thread.setReg; split <;> rfl
@[simp] theorem setReg_wpos : (t.setReg n x).wpos = t.wpos := by unfold Thread.setReg; split <;> rfl
@[simp] theorem setReg_rpos : (t.setReg n x).rpos = t.rpos := by unfold Thread.setReg; split <;> rfl
@[simp] theorem setReg_heldMsg : (t.setReg n x).heldMsg = t.heldMsg := by unfold Thread.setReg; split <;> rfl
@[simp] theorem setReg_lcnt : (t.setReg n x).lcnt = t.lcnt := by unfold Thread.setReg; split <;> rfl
@[simp] theorem setReg_lstart : (t.setReg n x).lstart = t.lstart := by unfold Thread.setReg; split <;> rfl
@[simp] theorem setReg_lend : (t.setReg n x).lend = t.lend := by unfold Thread.setReg; split <;> rfl
@[simp] theorem setReg_srvtab : (t.setReg n x).srvtab = t.srvtab := by unfold Thread.setReg; split <;> rfl
@[simp] theorem setReg_latchA : (t.setReg n x).latchA = t.latchA := by unfold Thread.setReg; split <;> rfl
@[simp] theorem setReg_latchB : (t.setReg n x).latchB = t.latchB := by unfold Thread.setReg; split <;> rfl
@[simp] theorem setReg_loopBuf : (t.setReg n x).loopBuf = t.loopBuf := by unfold Thread.setReg; split <;> rfl
@[simp] theorem setReg_pfx : (t.setReg n x).pfx = t.pfx := by unfold Thread.setReg; split <;> rfl
@[simp] theorem setReg_pfxShadow : (t.setReg n x).pfxShadow = t.pfxShadow := by unfold Thread.setReg; split <;> rfl
@[simp] theorem setReg_sends : (t.setReg n x).sends = t.sends := by unfold Thread.setReg; split <;> rfl
@[simp] theorem setReg_refused : (t.setReg n x).refused = t.refused := by unfold Thread.setReg; split <;> rfl
@[simp] theorem setReg_sendBuf : (t.setReg n x).sendBuf = t.sendBuf := by unfold Thread.setReg; split <;> rfl
@[simp] theorem setReg_srvSeq : (t.setReg n x).srvSeq = t.srvSeq := by unfold Thread.setReg; split <;> rfl
@[simp] theorem setReg_srvCall : (t.setReg n x).srvCall = t.srvCall := by unfold Thread.setReg; split <;> rfl
@[simp] theorem setReg_loads : (t.setReg n x).loads = t.loads := by unfold Thread.setReg; split <;> rfl
@[simp] theorem setReg_late : (t.setReg n x).late = t.late := by unfold Thread.setReg; split <;> rfl
@[simp] theorem setReg_vop : (t.setReg n x).vop = t.vop := by unfold Thread.setReg; split <;> rfl
@[simp] theorem setReg_vload : (t.setReg n x).vload = t.vload := by unfold Thread.setReg; split <;> rfl
@[simp] theorem setReg_devStore : (t.setReg n x).devStore = t.devStore := by unfold Thread.setReg; split <;> rfl
@[simp] theorem setReg_devCtx : (t.setReg n x).devCtx = t.devCtx := by unfold Thread.setReg; split <;> rfl
@[simp] theorem setReg_pfloor : (t.setReg n x).pfloor = t.pfloor := by unfold Thread.setReg; split <;> rfl
@[simp] theorem setReg_lfloor : (t.setReg n x).lfloor = t.lfloor := by unfold Thread.setReg; split <;> rfl
@[simp] theorem setReg_wait : (t.setReg n x).wait = t.wait := by unfold Thread.setReg; split <;> rfl
@[simp] theorem setReg_phase : (t.setReg n x).phase = t.phase := by unfold Thread.setReg; split <;> rfl
@[simp] theorem setReg_held : (t.setReg n x).held = t.held := by unfold Thread.setReg; split <;> rfl
@[simp] theorem setReg_walkFails : (t.setReg n x).walkFails = t.walkFails := by unfold Thread.setReg; split <;> rfl
@[simp] theorem setReg_leftAt : (t.setReg n x).leftAt = t.leftAt := by unfold Thread.setReg; split <;> rfl
@[simp] theorem setReg_yields : (t.setReg n x).yields = t.yields := by unfold Thread.setReg; split <;> rfl
@[simp] theorem setReg_yieldAt : (t.setReg n x).yieldAt = t.yieldAt := by unfold Thread.setReg; split <;> rfl
@[simp] theorem setReg_migReq : (t.setReg n x).migReq = t.migReq := by unfold Thread.setReg; split <;> rfl
@[simp] theorem setReg_moving : (t.setReg n x).moving = t.moving := by unfold Thread.setReg; split <;> rfl
@[simp] theorem setReg_halt : (t.setReg n x).halt = t.halt := by unfold Thread.setReg; split <;> rfl

end

section
variable (t : Thread) (n : BitVec 2) (x : W32)

@[simp] theorem setMask_place : (t.setMask n x).place = t.place := by unfold Thread.setMask; split <;> rfl
@[simp] theorem setMask_pid : (t.setMask n x).pid = t.pid := by unfold Thread.setMask; split <;> rfl
@[simp] theorem setMask_status : (t.setMask n x).status = t.status := by unfold Thread.setMask; split <;> rfl
@[simp] theorem setMask_regs : (t.setMask n x).regs = t.regs := by unfold Thread.setMask; split <;> rfl
@[simp] theorem setMask_z0 : (t.setMask n x).z0 = t.z0 := by unfold Thread.setMask; split <;> rfl
@[simp] theorem setMask_z1 : (t.setMask n x).z1 = t.z1 := by unfold Thread.setMask; split <;> rfl
@[simp] theorem setMask_v : (t.setMask n x).v = t.v := by unfold Thread.setMask; split <;> rfl
@[simp] theorem setMask_pc : (t.setMask n x).pc = t.pc := by unfold Thread.setMask; split <;> rfl
@[simp] theorem setMask_stat : (t.setMask n x).stat = t.stat := by unfold Thread.setMask; split <;> rfl
@[simp] theorem setMask_sstat : (t.setMask n x).sstat = t.sstat := by unfold Thread.setMask; split <;> rfl
@[simp] theorem setMask_ecause : (t.setMask n x).ecause = t.ecause := by unfold Thread.setMask; split <;> rfl
@[simp] theorem setMask_epc : (t.setMask n x).epc = t.epc := by unfold Thread.setMask; split <;> rfl
@[simp] theorem setMask_eval1 : (t.setMask n x).eval1 = t.eval1 := by unfold Thread.setMask; split <;> rfl
@[simp] theorem setMask_eval2 : (t.setMask n x).eval2 = t.eval2 := by unfold Thread.setMask; split <;> rfl
@[simp] theorem setMask_tvec : (t.setMask n x).tvec = t.tvec := by unfold Thread.setMask; split <;> rfl
@[simp] theorem setMask_hscr : (t.setMask n x).hscr = t.hscr := by unfold Thread.setMask; split <;> rfl
@[simp] theorem setMask_reqf : (t.setMask n x).reqf = t.reqf := by unfold Thread.setMask; split <;> rfl
@[simp] theorem setMask_fidmax : (t.setMask n x).fidmax = t.fidmax := by unfold Thread.setMask; split <;> rfl
@[simp] theorem setMask_rank : (t.setMask n x).rank = t.rank := by unfold Thread.setMask; split <;> rfl
@[simp] theorem setMask_party : (t.setMask n x).party = t.party := by unfold Thread.setMask; split <;> rfl
@[simp] theorem setMask_migcnt : (t.setMask n x).migcnt = t.migcnt := by unfold Thread.setMask; split <;> rfl
@[simp] theorem setMask_ctx : (t.setMask n x).ctx = t.ctx := by unfold Thread.setMask; split <;> rfl
@[simp] theorem setMask_inbox : (t.setMask n x).inbox = t.inbox := by unfold Thread.setMask; split <;> rfl
@[simp] theorem setMask_wpos : (t.setMask n x).wpos = t.wpos := by unfold Thread.setMask; split <;> rfl
@[simp] theorem setMask_rpos : (t.setMask n x).rpos = t.rpos := by unfold Thread.setMask; split <;> rfl
@[simp] theorem setMask_heldMsg : (t.setMask n x).heldMsg = t.heldMsg := by unfold Thread.setMask; split <;> rfl
@[simp] theorem setMask_lcnt : (t.setMask n x).lcnt = t.lcnt := by unfold Thread.setMask; split <;> rfl
@[simp] theorem setMask_lstart : (t.setMask n x).lstart = t.lstart := by unfold Thread.setMask; split <;> rfl
@[simp] theorem setMask_lend : (t.setMask n x).lend = t.lend := by unfold Thread.setMask; split <;> rfl
@[simp] theorem setMask_srvtab : (t.setMask n x).srvtab = t.srvtab := by unfold Thread.setMask; split <;> rfl
@[simp] theorem setMask_latchA : (t.setMask n x).latchA = t.latchA := by unfold Thread.setMask; split <;> rfl
@[simp] theorem setMask_latchB : (t.setMask n x).latchB = t.latchB := by unfold Thread.setMask; split <;> rfl
@[simp] theorem setMask_loopBuf : (t.setMask n x).loopBuf = t.loopBuf := by unfold Thread.setMask; split <;> rfl
@[simp] theorem setMask_pfx : (t.setMask n x).pfx = t.pfx := by unfold Thread.setMask; split <;> rfl
@[simp] theorem setMask_pfxShadow : (t.setMask n x).pfxShadow = t.pfxShadow := by unfold Thread.setMask; split <;> rfl
@[simp] theorem setMask_sends : (t.setMask n x).sends = t.sends := by unfold Thread.setMask; split <;> rfl
@[simp] theorem setMask_refused : (t.setMask n x).refused = t.refused := by unfold Thread.setMask; split <;> rfl
@[simp] theorem setMask_sendBuf : (t.setMask n x).sendBuf = t.sendBuf := by unfold Thread.setMask; split <;> rfl
@[simp] theorem setMask_srvSeq : (t.setMask n x).srvSeq = t.srvSeq := by unfold Thread.setMask; split <;> rfl
@[simp] theorem setMask_srvCall : (t.setMask n x).srvCall = t.srvCall := by unfold Thread.setMask; split <;> rfl
@[simp] theorem setMask_loads : (t.setMask n x).loads = t.loads := by unfold Thread.setMask; split <;> rfl
@[simp] theorem setMask_late : (t.setMask n x).late = t.late := by unfold Thread.setMask; split <;> rfl
@[simp] theorem setMask_vop : (t.setMask n x).vop = t.vop := by unfold Thread.setMask; split <;> rfl
@[simp] theorem setMask_vload : (t.setMask n x).vload = t.vload := by unfold Thread.setMask; split <;> rfl
@[simp] theorem setMask_devStore : (t.setMask n x).devStore = t.devStore := by unfold Thread.setMask; split <;> rfl
@[simp] theorem setMask_devCtx : (t.setMask n x).devCtx = t.devCtx := by unfold Thread.setMask; split <;> rfl
@[simp] theorem setMask_pfloor : (t.setMask n x).pfloor = t.pfloor := by unfold Thread.setMask; split <;> rfl
@[simp] theorem setMask_lfloor : (t.setMask n x).lfloor = t.lfloor := by unfold Thread.setMask; split <;> rfl
@[simp] theorem setMask_wait : (t.setMask n x).wait = t.wait := by unfold Thread.setMask; split <;> rfl
@[simp] theorem setMask_phase : (t.setMask n x).phase = t.phase := by unfold Thread.setMask; split <;> rfl
@[simp] theorem setMask_held : (t.setMask n x).held = t.held := by unfold Thread.setMask; split <;> rfl
@[simp] theorem setMask_walkFails : (t.setMask n x).walkFails = t.walkFails := by unfold Thread.setMask; split <;> rfl
@[simp] theorem setMask_leftAt : (t.setMask n x).leftAt = t.leftAt := by unfold Thread.setMask; split <;> rfl
@[simp] theorem setMask_yields : (t.setMask n x).yields = t.yields := by unfold Thread.setMask; split <;> rfl
@[simp] theorem setMask_yieldAt : (t.setMask n x).yieldAt = t.yieldAt := by unfold Thread.setMask; split <;> rfl
@[simp] theorem setMask_migReq : (t.setMask n x).migReq = t.migReq := by unfold Thread.setMask; split <;> rfl
@[simp] theorem setMask_moving : (t.setMask n x).moving = t.moving := by unfold Thread.setMask; split <;> rfl
@[simp] theorem setMask_halt : (t.setMask n x).halt = t.halt := by unfold Thread.setMask; split <;> rfl

end

end Sys2Proof.Machine
end

