-- ==== Sys2Proof/Laws/Memory.lean ====
section
/-!
SUPPORT. Every memory operation keeps the canonical form of memory and scratchpads, and what it leaves as it was.
-/

namespace Sys2Proof.Machine

open Sys2Proof (Inv)

/-- Entries taken out of a memory leave it canonical. -/
theorem tsortedFrom_filter {α : Type} (p : Nat × α → Bool) (t : Table α) (lo : Nat) (h : tsortedFrom lo t = true) :
    tsortedFrom lo (t.filter p) = true := by
  induction t generalizing lo with
  | nil => rfl
  | cons c t ih =>
    obtain ⟨k, v⟩ := c
    simp only [tsortedFrom, Bool.and_eq_true, decide_eq_true_eq] at h
    rw [List.filter_cons]
    split
    · simp only [tsortedFrom, Bool.and_eq_true, decide_eq_true_eq]; exact ⟨h.1, ih (k + 1) h.2⟩
    · exact tsortedFrom_mono _ lo (k + 1) (by omega) (ih (k + 1) h.2)

theorem wf_filter (p : Host.Cell → Bool) (m : List Host.Cell) (h : Memory.wf m = true) : Memory.wf (m.filter p) = true := by
  simp only [Memory.wf, Bool.and_eq_true, List.all_eq_true] at *
  exact ⟨tsortedFrom_filter p m 0 h.1, fun x hx => h.2 x (List.mem_filter.mp hx).1⟩

/-- Byte writes at places that a list gives keep the canonical form. -/
theorem wf_foldl_cput {α : Type} (f : α → Nat) (g : α → Byte) (l : List α) (m : List Host.Cell) (h : Memory.wf m = true) :
    Memory.wf (l.foldl (fun m p => cput m (f p) (g p)) m) = true := by
  induction l generalizing m with
  | nil => exact h
  | cons p l ih => exact ih _ (wf_cput m _ _ h)

/-- A fold of operations each of which keeps the invariant keeps it. -/
theorem Inv_foldl {α : Type} (f : State → α → State) (l : List α) (s : State)
    (hf : ∀ s x, Inv s → Inv (f s x)) (h : Inv s) : Inv (l.foldl f s) := by
  induction l generalizing s with
  | nil => exact h
  | cons x l ih => exact ih _ (hf s x h)

/-- What leaves memory and scratchpads alone keeps the invariant. -/
theorem Inv_of_same {s t : State} (hm : t.mem = s.mem) (hs : t.scratch = s.scratch) (h : Inv s) : Inv t := by
  unfold Inv; rw [hm, hs]; exact h

theorem Inv_setCore (s : State) (c : Nat) (x : Core) (h : Inv s) : Inv (s.setCore c x) := h
theorem Inv_setPortion (s : State) (c : Nat) (x : List Line) (h : Inv s) : Inv (s.setPortion c x) := h
theorem Inv_withTh (s : State) (t : Thread) (h : Inv s) : Inv (s.withTh t) := h
theorem Inv_setThreadAt (s : State) (n : Nat) (t : Thread) (h : Inv s) : Inv (s.setThreadAt n t) :=
  Inv_of_same (by simp) (by simp) h
theorem Inv_focus (s : State) (n : Nat) (h : Inv s) : Inv (s.focus n) := Inv_of_same (by simp) (by simp) h
theorem Inv_setCluster (s : State) (n : Nat) (x : Cluster) (h : Inv s) : Inv (s.setCluster n x) := h
/-- A port replaced keeps memory and scratchpads. -/
theorem Inv_setPort (s : State) (j : Nat) (x : JPort) (h : Inv s) : Inv (s.setPort j x) := h

theorem Inv_countLoss (s : State) (pa : Nat) (h : Inv s) : Inv (countLoss s pa) := by
  unfold countLoss
  split
  · exact h
  · exact h

/-- What a port sends changes ports alone (R362). -/
theorem transmit_eq (s : State) (j cls dst : Nat) (payload : List Byte) :
    transmit s j cls dst payload = { s with ports := (transmit s j cls dst payload).ports } := by
  unfold transmit
  generalize cutPayload _ payload = l
  induction l generalizing s with
  | nil => rfl
  | cons f l ih =>
    rw [List.foldl_cons, ih (sendFlit j cls dst s f)]
    rfl

theorem peerSend_eq (s : State) (kind tag pa val : Nat) (bytes : List Byte) :
    peerSend s kind tag pa val bytes = { s with ports := (peerSend s kind tag pa val bytes).ports } := by
  unfold peerSend
  split
  · exact transmit_eq s _ _ _ _
  · rfl

theorem Inv_peerSend (s : State) (kind tag pa val : Nat) (bytes : List Byte) (h : Inv s) : Inv (peerSend s kind tag pa val bytes) := by
  rw [peerSend_eq]; exact h

theorem peerSend_scratch (s : State) (kind tag pa val : Nat) (bytes : List Byte) : (peerSend s kind tag pa val bytes).scratch = s.scratch := by
  rw [peerSend_eq]

/-- Bytes put into main memory keep the invariant. -/
theorem Inv_memPut (s : State) (no : Nat) (bytes : Table Byte) (h : Inv s) : Inv (memPut s no bytes) :=
  ⟨wf_foldl_cput _ _ bytes s.mem h.1, h.2⟩

/-- A use of an LLC bank keeps the invariant: at most it writes a line back (R297). -/
theorem Inv_llcUse (s : State) (no : Nat) (bytes : Table Byte) (h : Inv s) : Inv (llcUse s no bytes) := by
  unfold llcUse
  simp only
  split
  · exact Inv_memPut _ _ _ h
  · exact h

theorem llcUse_scratch (s : State) (no : Nat) (bytes : Table Byte) : (llcUse s no bytes).scratch = s.scratch := by
  unfold llcUse
  simp only
  split <;> rfl

/-- A write at the home keeps the invariant (R297). -/
theorem Inv_homeWrite (s : State) (no : Nat) (bytes : Table Byte) (h : Inv s) : Inv (homeWrite s no bytes) := by
  unfold homeWrite
  repeat' split
  · exact h
  · exact Inv_countLoss s _ h
  · exact Inv_llcUse s no bytes h
  · exact Inv_memPut _ _ _ (Inv_peerSend _ _ _ _ _ _ h)

/-- Nothing that reaches an L2 slice or a home touches a scratchpad. -/
theorem homeWrite_scratch (s : State) (no : Nat) (bytes : Table Byte) : (homeWrite s no bytes).scratch = s.scratch := by
  unfold homeWrite
  repeat' split
  · rfl
  · unfold countLoss; split <;> rfl
  · exact llcUse_scratch s no bytes
  · exact peerSend_scratch _ _ _ _ _ _

theorem Inv_homePut (s : State) (pa : Nat) (b : Byte) (h : Inv s) : Inv (homePut s pa b) := Inv_homeWrite _ _ _ h

theorem Inv_l2Put (s : State) (die : Nat) (l : Line) (h : Inv s) : Inv (l2Put s die l) := by
  unfold l2Put
  simp only
  split
  · exact Inv_homeWrite _ _ _ h
  · exact h

theorem Inv_l2Merge (s : State) (die no : Nat) (bytes : Table Byte) (h : Inv s) : Inv (l2Merge s die no bytes) := by
  unfold l2Merge
  split
  · exact h
  · exact Inv_l2Put _ _ _ h

/-- A request admitted keeps the invariant (R296). -/
theorem Inv_l2Admit (s t : State) (die no : Nat) (w : Waiter) (h : Inv s) (ht : l2Admit s die no w = some t) : Inv t := by
  unfold l2Admit at ht
  simp only at ht
  split at ht
  · split at ht
    · cases ht; exact h
    · cases ht
  · split at ht
    · cases ht; exact Inv_peerSend s _ _ _ _ _ h
    · cases ht

theorem Inv_l2Wait (s : State) (die no : Nat) (w : Waiter) (h : Inv s) : Inv (l2Wait s die no w) := by
  unfold l2Wait
  simp only
  split
  · exact h
  · cases ha : l2Admit s die no w with
    | none => exact h
    | some t => exact Inv_l2Admit s t die no w h ha

theorem Inv_l2Write (s : State) (die no : Nat) (bytes : Table Byte) (h : Inv s) : Inv (l2Write s die no bytes) := by
  unfold l2Write
  repeat' split
  · exact h
  · exact Inv_l2Merge _ _ _ _ h
  · exact Inv_l2Wait _ _ _ _ h

/-- Notes of what a core wrote, and copies dropped from portions, touch neither memory nor scratchpads. -/
theorem Inv_noteWrote (s : State) (c no : Nat) (bytes : Table Byte) (h : Inv s) : Inv (noteWrote s c no bytes) := h

theorem Inv_dropBytes (s : State) (cores : List Nat) (no owner : Nat) (bytes : Table Byte) (h : Inv s) :
    Inv (dropBytes s cores no owner bytes) := by
  apply Inv_foldl _ _ _ _ h
  intro s x hs
  split <;> exact hs

theorem Inv_dirtyOut (s : State) (no owner : Nat) (bytes : Table Byte) (h : Inv s) : Inv (dirtyOut s no owner bytes) := by
  unfold dirtyOut
  split
  · exact h
  · exact Inv_l2Write s (dieOf owner) no bytes h

theorem Inv_poolOut (s : State) (no owner : Nat) (h : Inv s) : Inv (poolOut s no owner) := by
  apply Inv_foldl _ _ _ _ h
  intro s x hs
  split
  · exact Inv_dirtyOut _ _ _ _ hs
  · exact hs

theorem Inv_poolDrop (s : State) (no owner : Nat) (h : Inv s) : Inv (poolDrop s no owner) :=
  Inv_foldl _ _ _ (fun _ _ hs => hs) (Inv_poolOut s no owner h)

theorem Inv_ownOut (s : State) (no owner : Nat) (bytes : Table Byte) (h : Inv s) : Inv (ownOut s no owner bytes) := by
  unfold ownOut
  split
  · exact h
  · exact Inv_dirtyOut _ _ _ _ (Inv_dropBytes _ _ _ _ _ (Inv_poolOut _ _ _ h))

theorem Inv_writeBack (s : State) (l : Line) (h : Inv s) : Inv (writeBack s l) := Inv_ownOut _ _ _ _ h

theorem Inv_portionPut (fuel : Nat) (s : State) (c : Nat) (l : Line) (h : Inv s) : Inv (portionPut fuel s c l) := by
  induction fuel generalizing s c l with
  | zero => exact Inv_writeBack s l h
  | succ fuel ih =>
    unfold portionPut
    simp only
    split
    · exact h
    · split
      · exact Inv_writeBack _ _ h
      · split
        · exact Inv_writeBack _ _ h
        · split
          · exact Inv_writeBack _ _ h
          · split
            · exact ih _ _ _ h
            · exact ih _ _ _ (Inv_poolDrop _ _ _ h)

theorem Inv_portionFill (s : State) (c pf lf : Nat) (f : Fill) (h : Inv s) : Inv (portionFill s c pf lf f) := by
  unfold portionFill
  simp only
  split
  · exact h
  · exact Inv_portionPut _ _ _ _ h

theorem Inv_refill (s : State) (c pf lf no : Nat) (h : Inv s) : Inv (refill s c pf lf no) := Inv_portionFill _ _ _ _ _ h

theorem Inv_portionStore (s : State) (c slot no : Nat) (bytes : Table Byte) (h : Inv s) :
    Inv (portionStore s c slot no bytes) := by
  unfold portionStore
  split
  · exact h
  · exact Inv_portionPut _ _ _ _ h

theorem Inv_poolTouch (s : State) (c no : Nat) (h : Inv s) : Inv (poolTouch s c no) :=
  Inv_foldl _ _ _ (fun _ _ hs => hs) h

theorem Inv_serveWaiter (die no : Nat) (s : State) (w : Waiter) (h : Inv s) : Inv (serveWaiter die no s w) := by
  unfold serveWaiter
  cases w with
  | load place id => exact Inv_setThreadAt _ _ _ h
  | vload place id => exact Inv_setThreadAt _ _ _ h
  | pref c => exact h
  | none => exact h
  | store new => exact Inv_l2Merge _ _ _ _ h

theorem Inv_refillFor (no : Nat) (s : State) (w : Waiter) (h : Inv s) : Inv (refillFor no s w) := by
  have hf : ∀ place, Inv (if reachable s (no * 64) then
      refill s (coreOf place) (s.floors (s.threadAt place)).1 (s.floors (s.threadAt place)).2 no else s) := by
    intro place
    split
    · exact Inv_refill _ _ _ _ _ h
    · exact h
  cases w with
  | load place id => exact hf place
  | vload place id => exact hf place
  | pref c => exact h
  | none => exact h
  | store new => exact h

/-- Looking a slice's queue at again keeps the invariant (R296). -/
theorem Inv_drainGo (die : Nat) (q kept : List (Nat × Waiter)) (s : State) (h : Inv s) : Inv (drainGo die s kept q).1 := by
  induction q generalizing kept s with
  | nil => exact h
  | cons x q ih =>
    obtain ⟨no, w⟩ := x
    unfold drainGo
    split
    · exact ih _ _ h
    · split
      · have hs := Inv_serveWaiter die no s w h
        simp only
        split
        · exact ih _ _ hs
        · exact ih _ _ (Inv_refillFor no _ w hs)
      · cases ha : l2Admit s die no w with
        | none => exact ih _ _ h
        | some t => exact ih _ _ (Inv_l2Admit s t die no w h ha)

theorem Inv_l2Drain (s : State) (die slice : Nat) (h : Inv s) : Inv (l2Drain s die slice) := by
  unfold l2Drain
  split
  · exact h
  · have hd := Inv_drainGo die (s.ingressOf die slice) [] { s with ingress := tdel s.ingress (die * 256 + slice) } h
    simp only
    split <;> exact hd

theorem Inv_l2Fetch (s : State) (die no : Nat) (h : Inv s) : Inv (l2Fetch s die no) := by
  unfold l2Fetch
  split
  · exact h
  · apply Inv_l2Put
    split
    · exact Inv_llcUse _ _ _ h
    · exact h

/-- The fill of a miss keeps the invariant (R296). -/
theorem Inv_l2Fill (s : State) (die no : Nat) (h : Inv s) : Inv (l2Fill s die no) := by
  unfold l2Fill
  split
  · exact h
  · rename_i m _
    apply Inv_l2Drain
    have hu := Inv_foldl (serveWaiter die no) m.waiters _ (fun s x => Inv_serveWaiter die no s x)
      (Inv_l2Fetch { s with mshrs := tput s.mshrs die ((s.mshrOf die).filter (·.line != no)) } die no h)
    split
    · exact hu
    · exact Inv_foldl _ _ _ (fun s x => Inv_refillFor no s x) hu

theorem Inv_l2FillAll (s : State) (die : Nat) (h : Inv s) : Inv (l2FillAll s die) := by
  apply Inv_foldl _ _ _ _ h
  intro s _ hs
  split
  · exact Inv_l2Fill _ _ _ hs
  · exact hs

theorem Inv_l2Settle (s : State) (die no : Nat) (h : Inv s) : Inv (l2Settle s die no) := by
  unfold l2Settle
  split
  · exact Inv_l2FillAll _ _ h
  · exact Inv_l2Fill _ _ _ h

theorem Inv_l2Ensure (s : State) (die no floor : Nat) (offs : List Nat) (h : Inv s) : Inv (l2Ensure s die no floor offs) := by
  have hf := Inv_l2Settle s die no h
  unfold l2Ensure
  simp only
  split
  · exact hf
  · exact Inv_l2Fetch _ _ _ (Inv_peerSend _ _ _ _ _ _ hf)

theorem Inv_flushLines (s : State) (c : Nat) (sel : Nat → Bool) (h : Inv s) : Inv (flushLines s c sel) := by
  apply Inv_foldl _ _ _ _ h
  intro s x hs
  simp only
  split
  · exact hs
  · refine Inv_foldl _ _ _ (fun s l hs => ?_) hs
    split
    · exact Inv_ownOut _ _ _ _ hs
    · exact Inv_dirtyOut _ _ _ _ hs

theorem Inv_flushL2 (s : State) (die : Nat) (sel : Nat → Bool) (h : Inv s) : Inv (flushL2 s die sel) :=
  Inv_foldl _ _ _ (fun s _ hs => Inv_homeWrite s _ _ hs) (Inv_l2FillAll s die h)

/-- The release steps keep the invariant (R300). -/
theorem Inv_releaseLines (s : State) (c : Nat) (sc : Scope) (sel : Nat → Bool) (h : Inv s) : Inv (releaseLines s c sc sel) := by
  have hf := Inv_flushLines s c sel h
  have h2 := Inv_flushL2 (flushLines s c sel) (dieOf c) sel hf
  cases sc <;> simp only [releaseLines]
  · exact h
  · exact hf
  · exact hf
  · exact h2
  · exact h2

theorem Inv_releaseAt (s : State) (c : Nat) (sc : Scope) (h : Inv s) : Inv (releaseAt s c sc) := Inv_releaseLines s c sc _ h

/-- What a release publishes keeps the invariant (R119). -/
theorem Inv_publish (s : State) (sc : Scope) (h : Inv s) : Inv (publish s sc) := by
  unfold publish
  simp only
  split <;> exact h

/-- An acquire keeps the invariant (R299). -/
theorem Inv_acquireAt (s : State) (sc : Scope) (h : Inv s) : Inv (acquireAt s sc) := by
  have hr := Inv_releaseAt s s.here sc h
  unfold acquireAt
  generalize releaseAt s s.here sc = u at hr ⊢
  cases sc <;> exact ⟨hr.1, hr.2⟩

/-- Bytes stored into scratchpads keep the invariant; memory is as it was (R111). -/
theorem Inv_storeScratch (s : State) (locs : List Loc) (data : List Byte) (h : Inv s) : Inv (storeScratch s locs data) := by
  have key : ∀ (l : List (Loc × Byte)) (m : List Host.Cell), Memory.wf m = true →
      Memory.wf (l.foldl (fun m p => match p.1 with
        | .scratch k => cput m k p.2
        | _ => m) m) = true := by
    intro l
    induction l with
    | nil => exact fun m hm => hm
    | cons p l ih =>
      obtain ⟨loc, b⟩ := p
      cases loc with
      | scratch k => exact fun m hm => ih _ (wf_cput m k b hm)
      | mem k => exact fun m hm => ih _ hm
      | dev k => exact fun m hm => ih _ hm
  exact ⟨h.1, key _ _ h.2⟩

/-- A store keeps the invariant (R292). -/
theorem Inv_storeBytes (s : State) (locs : List Loc) (data : List Byte) (h : Inv s) : Inv (storeBytes s locs data) :=
  Inv_foldl _ _ _ (fun s _ hs => Inv_portionStore s _ _ _ _ hs) (Inv_storeScratch s locs data h)

/-- A core's own stale copies dropped: memory and scratchpads stay. -/
theorem Inv_forget (s : State) (c no : Nat) (beyond : Bool) (bytes : Table Byte) (h : Inv s) : Inv (forget s c no beyond bytes) := by
  have hf := Inv_noteWrote _ c no bytes (Inv_dropBytes s (c :: poolHolders s no c) no c bytes h)
  unfold forget
  simp only
  split <;> exact hf

/-- A store at the CORE home keeps the invariant (R301). -/
theorem Inv_coreStore (s : State) (c slot no : Nat) (bytes : Table Byte) (h : Inv s) : Inv (coreStore s c slot no bytes) := by
  unfold coreStore
  split
  · exact Inv_l2Merge _ _ _ _ (Inv_forget _ _ _ _ _ h)
  · exact Inv_portionStore _ _ _ _ _ h

theorem Inv_homeStore (s : State) (sc : Scope) (no : Nat) (bytes : Table Byte) (h : Inv s) : Inv (homeStore s sc no bytes) := by
  have hf := fun b => Inv_forget s s.here no b bytes h
  cases sc with
  | core => exact Inv_coreStore _ _ _ _ _ h
  | party => exact Inv_l2Merge _ _ _ _ (hf false)
  | die => exact Inv_l2Merge _ _ _ _ (hf false)
  | pkg => exact Inv_homeWrite _ _ _ (hf true)
  | sys => exact Inv_homeWrite _ _ _ (hf true)

/-- A lookup near a core keeps the invariant (R292, R293). -/
theorem Inv_nearLine (s t : State) (c pf lf no : Nat) (offs : List Nat) (bs : Table Byte) (h : Inv s)
    (ht : nearLine s c pf lf no offs = .hit bs t) : Inv t := by
  unfold nearLine at ht
  simp only at ht
  split at ht
  · cases ht; exact h
  · generalize (if (s.core c).gpool = true then poolFill s c pf lf no else _ : Fill) = pool at ht
    split at ht
    · cases ht; exact Inv_portionFill _ _ _ _ _ (Inv_poolTouch _ _ _ h)
    · cases ht

theorem Inv_bringHome (s : State) (sc : Scope) (no : Nat) (offs : List Nat) (h : Inv s) : Inv (bringHome s sc no offs) := by
  have hr := fun sc => Inv_releaseLines s s.here sc (· == no) h
  have hp := fun sc => Inv_l2Ensure _ (dieOf s.here) no (s.l2Floor s.th) offs (hr sc)
  unfold bringHome
  cases sc
  · simp only
    split
    · exact hp .party
    · cases hn : nearLine s s.here (s.floors s.th).1 (s.floors s.th).2 no offs with
      | hit bs t => exact Inv_nearLine s t _ _ _ _ _ bs h hn
      | miss d => exact Inv_refill _ _ _ _ _ (Inv_l2Ensure _ _ _ _ _ h)
  · exact hp .party
  · exact hp .die
  · exact hr .pkg
  · exact hr .sys

theorem Inv_bringAll (s : State) (sc : Scope) (locs : List Loc) (h : Inv s) : Inv (bringAll s sc locs) :=
  Inv_foldl _ _ _ (fun s no hs => Inv_bringHome s sc no _ hs) h

/-- A write at the home of a scope keeps the invariant (R125). -/
theorem Inv_writeHome (s : State) (sc : Scope) (locs : List Loc) (data : List Byte) (h : Inv s) :
    Inv (writeHome s sc locs data) :=
  Inv_foldl _ _ _ (fun s no hs => Inv_homeStore s sc no _ hs) (Inv_storeScratch s locs data h)

theorem Inv_loadLine (s : State) (t : Thread) (c : Nat) (ld : Load) (no : Nat) (offs : List Nat) (h : Inv s) :
    Inv (loadLine s t c ld no offs).1 := by
  unfold loadLine
  simp only
  cases hn : nearLine s c (s.floors t).1 (s.floors t).2 no offs with
  | hit bs u => exact Inv_nearLine s u _ _ _ _ _ bs h hn
  | miss d =>
    simp only
    split
    · exact Inv_refill _ _ _ _ _ h
    · exact Inv_l2Wait _ _ _ _ h

/-- Looking a load's lines up keeps the invariant (R109). -/
theorem Inv_makeLoad (s : State) (dst : RegCode) (sext : Bool) (va : Word) (locs : List Loc) (h : Inv s) :
    Inv (makeLoad s dst sext va locs).1 := by
  unfold makeLoad
  simp only
  generalize (linesOf locs) = l
  have : ∀ (p : State × Load), Inv p.1 →
      Inv (l.foldl (fun p no => loadLine p.1 s.th s.here p.2 no (offsIn locs no)) p).1 := by
    induction l with
    | nil => exact fun p hp => hp
    | cons x l ih => exact fun p hp => ih _ (Inv_loadLine _ _ _ _ _ _ hp)
  exact this _ h

theorem Inv_startPref (s : State) (c pa : Nat) (portion : Bool) (h : Inv s) : Inv (startPref s c pa portion) := by
  unfold startPref
  simp only
  repeat' split
  all_goals first
    | exact h
    | exact Inv_l2Wait _ _ _ _ h

theorem Inv_dropPooled (s : State) (c no : Nat) (h : Inv s) : Inv (dropPooled s c no) := by
  apply Inv_foldl _ _ _ _ h
  intro s x hs
  exact Inv_foldl _ _ _ (fun s l hs => Inv_writeBack _ l hs) hs

theorem Inv_lineHint (s : State) (c pa : Nat) (inval : Bool) (sc : Scope) (h : Inv s) : Inv (lineHint s c pa inval sc) := by
  have hr := Inv_releaseLines s c sc (· == pa / 64) h
  have hd := Inv_releaseLines _ c sc (· == pa / 64) (Inv_dropPooled s c (pa / 64) h)
  unfold lineHint
  simp only
  split
  · exact hr
  · generalize releaseLines (dropPooled _ c (pa / 64)) _ _ _ = u at hd ⊢
    cases sc <;> exact ⟨hd.1, hd.2⟩

/-- A change of LMSPLIT keeps the invariant (R33). -/
theorem Inv_setLmsplit (s : State) (c : Nat) (new : BitVec 4) (h : Inv s) : Inv (setLmsplit s c new) := by
  unfold setLmsplit
  simp only
  have hg := Inv_foldl writeBack ((s.portionOf c).filter fun l => decide (l.way < new.toNat)) _ (fun s l => Inv_writeBack s l)
    (Inv_setCore s c { s.core c with
      lmsplit := new, portion := (s.portionOf c).filter fun l => !decide (l.way < new.toNat) } h)
  exact ⟨hg.1, wf_filter _ _ hg.2⟩

/-- What a unit writes at the SYS home keeps the invariant (R283). -/
theorem Inv_unitWrite (bs : List Byte) (s t : State) (die ctx : Nat) (sup : Bool) (va : Nat) (h : Inv s)
    (ht : unitWrite s die ctx sup va bs = some t) : Inv t := by
  induction bs generalizing s va with
  | nil => cases ht; exact h
  | cons b bs ih =>
    unfold unitWrite at ht
    split at ht
    · cases ht
    · exact ih _ _ (Inv_homePut _ _ _ h) ht

theorem Inv_savedWrite (x : Saved) (s : State) (off : Nat) (bs : List Byte) (h : Inv s) : Inv (x.write s off bs) := by
  unfold Saved.write
  cases ht : unitWrite s 0 x.ctx true (x.area + off) bs with
  | none => exact h
  | some t => exact Inv_unitWrite bs s t _ _ _ _ h ht

/-- What an engine writes keeps the invariant (R208, R211). -/
theorem Inv_streamPut (s : State) (die scope no : Nat) (bytes : Table Byte) (h : Inv s) : Inv (streamPut s die scope no bytes) := by
  have hf := Inv_l2Settle s die no h
  unfold streamPut
  simp only
  split
  · exact Inv_l2Merge _ _ _ _ hf
  · have hw := Inv_homeWrite _ no bytes hf
    split <;> exact hw

theorem Inv_writePlace (s : State) (p : UnitLoc × Option Byte) (h : Inv s) : Inv (writePlace s p) := by
  obtain ⟨l, b⟩ := p
  cases b with
  | none => cases l <;> exact h
  | some b => cases l with
    | scratch k => exact ⟨h.1, wf_cput _ _ _ h.2⟩
    | _ => exact h

theorem Inv_writeAll (g : Agent) (s : State) (scope : Nat) (ps : List (UnitLoc × Option Byte)) (h : Inv s) :
    Inv (g.writeAll s scope ps) :=
  Inv_foldl _ _ _ (fun s _ hs => Inv_streamPut s _ _ _ _ hs) (Inv_foldl _ _ _ Inv_writePlace h)

/-- A host's window written by the Surveyor keeps the invariant (R357). -/
theorem Inv_hostWrite (s t : State) (h a : Nat) (bs : List Byte) (hi : Inv s) (ht : hostWrite s h a bs = some t) : Inv t := by
  unfold hostWrite at ht
  split at ht
  · cases ht; exact ⟨wf_cputs _ _ _ hi.1, hi.2⟩
  · cases ht

/-- Placing a word keeps the invariant. -/
theorem Inv_placeWord (s : State) (w : W32) (h : Inv s) : Inv (placeWord s w) := by
  unfold placeWord
  simp only
  have hp := Inv_foldl (fun t (p : Nat × Byte) => homePut t ((addrField s.th.pc).toNat % 65536 + p.1) p.2)
    ((List.range 4).zip (bytesOfWord w)) s (fun t _ ht => Inv_homePut t _ _ ht) h
  generalize List.foldl _ s _ = u at hp ⊢
  exact ⟨hp.1, hp.2⟩

/-- The state after reset is canonical (R379). -/
theorem Inv_reset : Inv State.reset := ⟨rfl, rfl⟩

end Sys2Proof.Machine
end

