-- ==== Sys2Proof/Laws/Ops.lean ====
section
/-!
SUPPORT. What the issue gate, completion and a synchronous result do, said once.
-/

namespace Sys2Proof.Machine

theorem Thread.reg_setReg (t : Thread) (n m : Nat) (r : Reg) :
    (t.setReg n r).reg m = if m = n ∧ n < 56 then r else t.reg m := by
  unfold Thread.setReg Thread.reg
  by_cases hn : n < 56
  · simp only [hn, dif_pos, and_true]
    by_cases hm : m < 56
    · simp only [hm, dif_pos, Vector.getElem_set]
      by_cases h : n = m
      · subst h; simp
      · simp [h, Ne.symm h]
    · have : m ≠ n := by omega
      simp [hm, this]
  · simp [hn]

/-- What a source that reads meets. -/
theorem Thread.readOne_ok {t : Thread} {c : RegCode} (h : Readable t c) : t.readOne c = .ok := by
  unfold Thread.readOne
  by_cases hc : c.toNat < 56
  · obtain ⟨hp, hr⟩ := h hc
    rw [if_neg (by omega)]
    rcases hr with h | ⟨h, ha⟩ <;> simp [h, hp]
    simp [ha]
  · rw [if_pos (by omega)]

theorem Thread.readAll_ok {t : Thread} {cs : List RegCode} (h : ∀ c ∈ cs, Readable t c) : t.readAll cs = .ok := by
  have hm : cs.map t.readOne = List.replicate cs.length .ok := by
    induction cs with
    | nil => rfl
    | cons c cs ih =>
      simp only [List.map_cons, List.length_cons, List.replicate_succ]
      rw [readOne_ok (h c (by simp)), ih fun x hx => h x (by simp [hx])]
  unfold Thread.readAll
  rw [hm]
  induction cs.length with
  | zero => rfl
  | succ n ih => simpa [List.replicate_succ, List.find?_cons] using ih

/-- A destination list that may be written holds nothing up. -/
theorem Thread.dstWait_sync {t : Thread} {d : RegCode} (h : Writable t d) : t.dstWait (.sync d) = none := by
  unfold Thread.dstWait
  by_cases hd : d.toNat < 56
  · rcases h hd with h | h <;> simp [h]
  · simp [hd]

theorem Thread.dstWait_late {t : Thread} {ds : List RegCode} (h : ∀ d ∈ ds, Writable t d) :
    t.dstWait (.late ds) = none := by
  unfold Thread.dstWait
  simp only [List.find?_eq_none, Bool.and_eq_true, decide_eq_true_eq, Bool.or_eq_true, beq_iff_eq, not_and]
  intro d hd h56
  rcases h d hd h56 with h | h <;> simp [h]

/-- The gate lets an instruction through: features present, no prefix or one that is consumed, the mode, the
sources and the destinations. -/
theorem issue_ok {w : W32} {nd : Need} {r : Srcs} {d : Dst} {s : State} {k : State → Out}
    (hf : (s.core s.here).feat &&& nd.feat = nd.feat) (hp : s.th.stat.pp = true → nd.pfx = true)
    (hm : nd.priv = true → s.th.stat.mode = true) (hr : ∀ c ∈ r.unlatched s.th, Readable s.th c)
    (hd : s.th.dstWait d = none) : issue w nd r d s k = k s := by
  unfold issue
  rw [if_neg (by simp [hf])]
  have h1 : (s.th.stat.pp && !nd.pfx) = false := by
    cases h : s.th.stat.pp <;> simp [h] at hp ⊢; exact hp
  have h2 : (nd.priv && !s.th.stat.mode) = false := by
    cases h : nd.priv <;> simp [h] at hm ⊢; exact hm
  rw [h1, h2, Thread.readAll_ok hr, hd]
  rfl

theorem issue_sync {w : W32} {r : Srcs} {d : RegCode} {s : State} {k : State → Out} {f : BitVec 6}
    (h : MayIssue s f r [d]) : issue w { feat := f } r (.sync d) s k = k s :=
  issue_ok h.1.1 (by simp [h.2]) (by simp) h.1.2.1 (Thread.dstWait_sync (h.1.2.2 d (by simp)))

theorem issue_late {w : W32} {r : Srcs} {ds : List RegCode} {s : State} {k : State → Out} {f : BitVec 6}
    (h : MayIssue s f r ds) : issue w { feat := f } r (.late ds) s k = k s :=
  issue_ok h.1.1 (by simp [h.2]) (by simp) h.1.2.1 (Thread.dstWait_late h.1.2.2)

theorem issue_none {w : W32} {r : Srcs} {s : State} {k : State → Out} {f : BitVec 6} {ds : List RegCode}
    (h : MayIssue s f r ds) : issue w { feat := f } r .none s k = k s :=
  issue_ok h.1.1 (by simp [h.2]) (by simp) h.1.2.1 rfl

/-- What completion does to a thread. -/
theorem Thread.complete_goesOn (t : Thread) : GoesOn t t.complete := by
  have hle : (t.lcnt ≤ 1) ↔ t.lcnt.toNat ≤ 1 := BitVec.le_def
  have h1 : (t.looping && t.pc == t.lend) = true ↔
      t.stat.la = true ∧ (t.lstart.toNat ≤ t.lend.toNat ∧ t.lend.toNat - t.lstart.toNat + 4 ≤ 256) ∧ t.pc = t.lend := by
    simp [Thread.looping, Thread.loopTooBig, and_assoc]
  unfold GoesOn Thread.complete Thread.advance
  by_cases h : t.stat.la = true ∧ (t.lstart.toNat ≤ t.lend.toNat ∧ t.lend.toNat - t.lstart.toNat + 4 ≤ 256) ∧ t.pc = t.lend
  · rw [if_pos (h1.2 h), if_pos h]
    by_cases hc : t.lcnt ≤ 1
    · rw [if_pos hc, if_pos (hle.1 hc)]; exact ⟨rfl, rfl, rfl, rfl, rfl, rfl, rfl, rfl⟩
    · rw [if_neg hc, if_neg (mt hle.2 hc)]; exact ⟨rfl, rfl, rfl, rfl, rfl, rfl, rfl, h.1⟩
  · rw [if_neg (mt h1.1 h), if_neg h]; exact ⟨rfl, rfl, rfl, rfl, rfl, rfl, rfl, rfl⟩

theorem Thread.complete_regs (t : Thread) : t.complete.regs = t.regs := by
  unfold Thread.complete Thread.advance; split <;> [split; skip] <;> rfl

@[simp] theorem Thread.complete_reg (t : Thread) (n : Nat) : t.complete.reg n = t.reg n := by
  unfold Thread.reg; rw [complete_regs]

theorem Thread.complete_keeps (t : Thread) : KeepsThread t t.complete := by
  unfold KeepsThread Thread.complete Thread.advance; split <;> [split; skip] <;> rfl

@[simp] theorem Thread.complete_z0 (t : Thread) : t.complete.z0 = t.z0 := by
  unfold Thread.complete Thread.advance; split <;> [split; skip] <;> rfl

@[simp] theorem Thread.complete_z1 (t : Thread) : t.complete.z1 = t.z1 := by
  unfold Thread.complete Thread.advance; split <;> [split; skip] <;> rfl

@[simp] theorem Thread.complete_flags (t : Thread) : t.complete.stat.flags = t.stat.flags := by
  unfold Thread.complete Thread.advance; split <;> [split; skip] <;> rfl

/-- Consuming one source changes a scoreboard record only. -/
theorem Thread.consumeOne_eq (t : Thread) (c : RegCode) : t.consumeOne c = { t with regs := (t.consumeOne c).regs } := by
  unfold Thread.consumeOne Thread.setReg
  dsimp only
  split <;> [split; skip] <;> rfl

theorem Thread.consumeAll_eq (cs : List RegCode) (t : Thread) :
    cs.foldl Thread.consumeOne t = { t with regs := (cs.foldl Thread.consumeOne t).regs } := by
  induction cs generalizing t with
  | nil => rfl
  | cons c cs ih =>
    rw [List.foldl_cons, ih, Thread.consumeOne_eq]

/-- Consuming the sources changes scoreboard records and latches only. -/
theorem Thread.consume_eq (t : Thread) (r : Srcs) :
    t.consume r = { t with regs := (t.consume r).regs, latchA := (t.consume r).latchA, latchB := (t.consume r).latchB } := by
  unfold Thread.consume
  dsimp only
  generalize hu : (r.unlatched t).foldl Thread.consumeOne t = u
  have h : u = { t with regs := u.regs } := by rw [← hu]; exact Thread.consumeAll_eq _ t
  rw [h]

/-- A register read looks at the register file alone. -/
theorem Thread.reg_congr {t u : Thread} (h : t.regs = u.regs) (n : Nat) : t.reg n = u.reg n := by
  unfold Thread.reg; rw [h]

/-- A synchronous result changes the destination's record, z0, z1 and latches only. -/
theorem Thread.writeSync_eq (t : Thread) (d : RegCode) (v : Word) :
    t.writeSync d v = { t with
      regs := (t.writeSync d v).regs, z0 := v, z1 := t.z0
      latchA := (t.writeSync d v).latchA, latchB := (t.writeSync d v).latchB } := by
  unfold Thread.writeSync Thread.setReg
  dsimp only
  split <;> rfl

theorem Thread.writeSync_reg (t : Thread) (d : RegCode) (v : Word) (n : Nat) :
    (t.writeSync d v).reg n = if n = d.toNat ∧ d.toNat < 56 then { val := v } else t.reg n := by
  unfold Thread.writeSync
  by_cases h : d.toNat < 56
  · have := Thread.reg_setReg { t with z1 := t.z0, z0 := v, latchA := dropResult t.latchA d, latchB := dropResult t.latchB d }
      d.toNat n { val := v }
    dsimp only
    rw [if_pos h]
    exact this.trans rfl
  · dsimp only
    rw [if_neg h, if_neg (fun hh => h hh.2)]; rfl

/-- What every completing instruction does apart from its own effect on the thread. -/
theorem retire_eq (r : Srcs) (s : State) (f : Thread → Thread) :
    retire r s f = .next ((s.leave r).withTh (f ((s.leave r).th.consume r)).complete) := rfl

/-- The consumed thread of a state that has left issue differs in leftAt alone. -/
theorem leave_unlatched (r : Srcs) (s : State) : r.unlatched (s.leave r).th = r.unlatched s.th := rfl

theorem consume_leave (r : Srcs) (s : State) :
    (s.leave r).th.consume r = { s.th.consume r with leftAt := (s.leave r).th.leftAt } := by
  have h : ∀ (cs : List RegCode) (t : Thread) k, cs.foldl Thread.consumeOne { t with leftAt := k } =
      { cs.foldl Thread.consumeOne t with leftAt := k } := by
    intro cs
    induction cs with
    | nil => intro t k; rfl
    | cons c cs ih =>
      intro t k
      have h1 : Thread.consumeOne { t with leftAt := k } c = { t.consumeOne c with leftAt := k } := by
        have hr : ({ t with leftAt := k } : Thread).reg c.toNat = t.reg c.toNat := rfl
        unfold Thread.consumeOne Thread.setReg
        dsimp only
        rw [hr]
        split <;> [split; skip] <;> rfl
      rw [List.foldl_cons, List.foldl_cons, h1, ih]
  unfold Thread.consume State.leave
  dsimp only
  rw [show r.unlatched { s.th with leftAt := _ } = r.unlatched s.th from rfl, h]
  rfl

/-- A retiring instruction whose effect is a synchronous result and flags. -/
theorem retire_computes (r : Srcs) (s : State) (d : RegCode) (v : Word) (fl : BitVec 5) (f : Thread → Thread)
    (hf : ∀ u : Thread, f u = { u.writeSync d v with stat := { u.stat with flags := u.stat.flags ||| fl } }) :
    ∃ t, retire r s f = .next t ∧ Computes s t r d v fl := by
  refine ⟨_, retire_eq r s f, ?_⟩
  rw [hf, consume_leave]
  generalize hk : (s.leave r).th.leftAt = k
  generalize hu : s.th.consume r = u
  have hue := Thread.consume_eq s.th r
  rw [hu] at hue
  generalize hw : ({ ({ u with leftAt := k } : Thread).writeSync d v with
    stat := { u.stat with flags := u.stat.flags ||| fl } } : Thread) = w
  have hwe := Thread.writeSync_eq { u with leftAt := k } d v
  have hreg : ∀ n, w.reg n = if n = d.toNat ∧ d.toNat < 56 then { val := v } else u.reg n := by
    intro n
    rw [← hw]
    refine Eq.trans (Thread.reg_congr rfl n) ((Thread.writeSync_reg { u with leftAt := k } d v n).trans ?_)
    rfl
  have hg := Thread.complete_goesOn w
  have hkeep := Thread.complete_keeps w
  have hz0 : w.z0 = v := by rw [← hw, hwe]
  have hz1 : w.z1 = s.th.z0 := by rw [← hw, hwe]; show u.z0 = _; rw [hue]
  have hst : w.stat = { s.th.stat with flags := s.th.stat.flags ||| fl } := by rw [← hw]; show _ = _; rw [hue]
  have hbase : w = { s.th with regs := w.regs, z0 := w.z0, z1 := w.z1, latchA := w.latchA, latchB := w.latchB
                               stat := w.stat, leftAt := w.leftAt } := by
    rw [← hw, hwe, hue]
  refine ⟨rfl, ?_, ?_, (Thread.complete_z0 w).trans hz0, (Thread.complete_z1 w).trans hz1, ?_, ?_, ?_⟩
  · show KeepsThread s.th w.complete
    unfold KeepsThread at hkeep ⊢
    generalize w.complete = x at hkeep ⊢
    rw [hkeep, hbase]
  · show GoesOn s.th w.complete
    unfold GoesOn at hg ⊢
    generalize w.complete = x at hg ⊢
    rw [hst] at hg
    have e1 : w.pc = s.th.pc := by rw [hbase]
    have e2 : w.lcnt = s.th.lcnt := by rw [hbase]
    have e3 : w.lstart = s.th.lstart := by rw [hbase]
    have e4 : w.lend = s.th.lend := by rw [hbase]
    rw [e1, e2, e3, e4] at hg
    exact hg
  · intro hd
    show w.complete.reg _ = _
    rw [Thread.complete_reg, hreg, if_pos ⟨rfl, hd⟩]
  · intro n _ hn
    show w.complete.reg _ = _
    rw [Thread.complete_reg, hreg, if_neg (fun h => hn h.1), hu]
  · show w.complete.stat.flags = _
    rw [Thread.complete_flags, hst]

/-- An instruction that only computes a synchronous result does so whenever it may issue. -/
theorem alu_computes {w : W32} {r : Srcs} {d : RegCode} {s : State} {v : Thread → Word} (x : Word)
    (h : MayIssue s 1 r [d]) (e : v s.th = x) :
    ∃ t, alu w {} r d s v = .next t ∧ Computes s t r d x 0 := by
  subst e
  unfold alu
  rw [issue_sync h]
  exact retire_computes r s d (v s.th) 0 _ (fun u => by simp; rw [Thread.writeSync_eq])

/-- A retiring instruction without an effect of its own only consumes its sources and goes on. -/
theorem retire_passes (r : Srcs) (s : State) : ∃ t, retire r s id = .next t ∧ OnlyThread s t ∧ Passes s t r := by
  refine ⟨_, retire_eq r s id, rfl, ?_⟩
  rw [consume_leave]
  generalize hk : (s.leave r).th.leftAt = k
  generalize hu : s.th.consume r = u
  have hue := Thread.consume_eq s.th r
  rw [hu] at hue
  generalize hw : ({ u with leftAt := k } : Thread) = w
  have hreg : ∀ n, w.reg n = u.reg n := fun n => by rw [← hw]; rfl
  have hg := Thread.complete_goesOn w
  have hkeep := Thread.complete_keeps w
  have hbase : w = { s.th with regs := w.regs, latchA := w.latchA, latchB := w.latchB, leftAt := w.leftAt } := by
    rw [← hw, hue]
  refine ⟨?_, ?_, ?_, ?_, ?_, ?_⟩
  · show KeepsThread s.th w.complete
    unfold KeepsThread at hkeep ⊢
    generalize w.complete = x at hkeep ⊢
    rw [hkeep, hbase]
  · show GoesOn s.th w.complete
    unfold GoesOn at hg ⊢
    generalize w.complete = x at hg ⊢
    have e0 : w.stat = s.th.stat := by rw [hbase]
    have e1 : w.pc = s.th.pc := by rw [hbase]
    have e2 : w.lcnt = s.th.lcnt := by rw [hbase]
    have e3 : w.lstart = s.th.lstart := by rw [hbase]
    have e4 : w.lend = s.th.lend := by rw [hbase]
    rw [e0, e1, e2, e3, e4] at hg
    exact hg
  · exact (Thread.complete_z0 w).trans (by rw [hbase])
  · exact (Thread.complete_z1 w).trans (by rw [hbase])
  · intro n _
    exact (Thread.complete_reg w n).trans ((hreg n).trans (by rw [hu]))
  · exact (Thread.complete_flags w).trans (by rw [hbase])

/-- An instruction that leaves issue from a state with the same focus thread, completes, and then has an effect on
its thread. -/
theorem leave_completes (r : Srcs) (s u : State) (g : Thread → Thread) (hu : u.th = s.th) :
    Completes s u ((u.leave r).withTh (g ((u.leave r).th.consume r).complete)) r g := by
  refine ⟨((u.leave r).th.consume r).complete, rfl, ?_, rfl⟩
  obtain ⟨t, ht, -, hp⟩ := retire_passes r u
  rw [retire_eq] at ht
  cases ht
  unfold Passes at hp ⊢
  rw [hu] at hp
  exact hp

/-- The same of a retiring instruction whose effect commutes with completion. -/
theorem retire_completes (r : Srcs) (s u : State) (f g : Thread → Thread) (hu : u.th = s.th)
    (h : ∀ x : Thread, (f x).complete = g x.complete) :
    ∃ t, retire r u f = .next t ∧ Completes s u t r g := by
  refine ⟨_, retire_eq r u f, ?_⟩
  rw [h]
  exact leave_completes r s u g hu

/-- A control transfer without a link. -/
theorem jump_branches (r : Srcs) (s : State) (target : Word) :
    Branches s ((s.leave r).withTh (((s.leave r).th.consume r).jump target)) r target := by
  rw [consume_leave]
  generalize (s.leave r).th.leftAt = k
  generalize hu : s.th.consume r = u
  have hue := Thread.consume_eq s.th r
  rw [hu] at hue
  refine ⟨⟨rfl, ?_, rfl, ?_, ?_, ?_, ?_⟩, ?_, ?_, fun n _ => by rw [hu]; rfl⟩
  · show KeepsThread s.th _
    unfold KeepsThread
    rw [hue]; rfl
  · show _ = _
    rw [hue]; rfl
  · show _ = _
    rw [hue]; rfl
  · intro h
    show (if u.stat.la then [] else u.loopBuf) = _
    rw [hue]; dsimp only; rw [h, if_pos rfl]
  · intro h
    show (if u.stat.la then [] else u.loopBuf) = _
    rw [hue]; dsimp only; rw [h, if_neg (by decide)]
  · show u.z0 = _
    rw [hue]
  · show u.z1 = _
    rw [hue]

/-- A control transfer with a link. -/
theorem jump_links (r : Srcs) (s : State) (d : RegCode) (link target : Word) :
    Links s ((s.leave r).withTh ((((s.leave r).th.consume r).writeSync d link).jump target)) r d link target := by
  rw [consume_leave]
  generalize (s.leave r).th.leftAt = k
  generalize hu : s.th.consume r = u
  have hue := Thread.consume_eq s.th r
  rw [hu] at hue
  have hw := Thread.writeSync_eq { u with leftAt := k } d link
  have hreg := Thread.writeSync_reg { u with leftAt := k } d link
  refine ⟨⟨rfl, ?_, rfl, ?_, ?_, ?_, ?_⟩, ?_, ?_, fun h => ?_, fun n _ hn => ?_⟩
  · show KeepsThread s.th _
    unfold KeepsThread
    rw [hw, hue]; rfl
  · show _ = _
    rw [hw, hue]; rfl
  · show _ = _
    rw [hw, hue]; rfl
  · intro h
    show (if (Thread.writeSync { u with leftAt := k } d link).stat.la then [] else (Thread.writeSync { u with leftAt := k } d link).loopBuf) = _
    rw [hw, hue]; dsimp only; rw [h, if_pos rfl]
  · intro h
    show (if (Thread.writeSync { u with leftAt := k } d link).stat.la then [] else (Thread.writeSync { u with leftAt := k } d link).loopBuf) = _
    rw [hw, hue]; dsimp only; rw [h, if_neg (by decide)]
  · show (Thread.writeSync { u with leftAt := k } d link).z0 = _
    rw [hw]
  · show (Thread.writeSync { u with leftAt := k } d link).z1 = _
    rw [hw, hue]
  · exact (hreg d.toNat).trans (by rw [if_pos ⟨rfl, h⟩])
  · exact (hreg n).trans (by rw [if_neg (fun h => hn h.1), hu]; rfl)

end Sys2Proof.Machine
end

