-- ==== Sys2Proof/Laws/Pack.lean ====
section
/-!
SUPPORT. Extraction of fields from a word that is a sum of fields at their places (R64, R65).
-/

namespace Sys2Proof.Laws

/-- A field of a word: its place, width and value. -/
structure Field where
  lo : Nat
  n : Nat
  v : Nat
  h : v < 2 ^ n

/-- A bit-vector field, a flag, a scope and an element type at a place. -/
abbrev bv (lo : Nat) {n : Nat} (x : BitVec n) : Field := ⟨lo, n, x.toNat, x.isLt⟩
abbrev bo (lo : Nat) (b : Bool) : Field := ⟨lo, 1, b.toNat, by cases b <;> decide⟩
abbrev scp (lo : Nat) (sc : Scope) : Field := ⟨lo, 3, sc.code, by cases sc <;> decide⟩
abbrev typ (lo : Nat) (ty : VType) : Field := ⟨lo, 3, ty.code, by cases ty <;> decide⟩

/-- A field's value at its place. -/
def Field.up (f : Field) : Nat :=
  match f.lo with
  | 0 => f.v
  | n + 1 => f.v * 2 ^ (n + 1)

theorem Field.up_eq (f : Field) : f.up = f.v * 2 ^ f.lo := by
  unfold Field.up; split
  · next h => rw [h]; simp
  · next h => rw [h]

/-- The sum of a constant and fields at their places. -/
def psum (k : Nat) : List Field → Nat
  | [] => k
  | f :: l => psum (k + f.up) l

/-- The most that the fields below a place can add up to. -/
def lowMax (lo : Nat) : List Field → Nat
  | [] => 0
  | f :: l => (if f.lo < lo then (2 ^ f.n - 1) * 2 ^ f.lo else 0) + lowMax lo l

/-- Every field lies wholly above or below a window. -/
def apart (lo n : Nat) (l : List Field) : Bool := l.all fun f => decide (lo + n ≤ f.lo) || decide (f.lo < lo)

theorem psum_add (l : List Field) : ∀ j k, psum (j + k) l = j + psum k l := by
  induction l with
  | nil => intro j k; rfl
  | cons f l ih => intro j k; simp only [psum, Nat.add_assoc, ih]

theorem psum_split (lo n : Nat) (l : List Field) (h : apart lo n l = true) :
    ∃ hi low, psum 0 l = hi * 2 ^ (lo + n) + low ∧ low ≤ lowMax lo l := by
  induction l with
  | nil => exact ⟨0, 0, by simp [psum], by simp [lowMax]⟩
  | cons f l ih =>
    simp only [apart, List.all_cons, Bool.and_eq_true, Bool.or_eq_true, decide_eq_true_eq] at h
    obtain ⟨hi, low, e, hl⟩ := ih (by simpa [apart] using h.2)
    have e2 : psum 0 (f :: l) = f.v * 2 ^ f.lo + psum 0 l := by
      show psum (0 + f.up) l = _
      rw [Field.up_eq]
      rw [Nat.zero_add, ← psum_add l (f.v * 2 ^ f.lo) 0, Nat.add_zero]
    by_cases hf : f.lo < lo
    · refine ⟨hi, f.v * 2 ^ f.lo + low, by rw [e2, e]; omega, ?_⟩
      simp only [lowMax, hf, if_true]
      exact Nat.add_le_add (Nat.mul_le_mul_right _ (Nat.le_sub_one_of_lt f.h)) hl
    · have hge : lo + n ≤ f.lo := h.1.resolve_right hf
      refine ⟨f.v * 2 ^ (f.lo - (lo + n)) + hi, low, ?_, by simpa [lowMax, hf] using hl⟩
      rw [e2, e, Nat.add_mul, Nat.mul_assoc, ← Nat.pow_add, Nat.sub_add_cancel hge, Nat.add_assoc]

/-- A window that no field touches holds the constant's bits. -/
theorem psum_const (k lo n : Nat) (l : List Field)
    (h : (apart lo n l && decide (k % 2 ^ lo + lowMax lo l < 2 ^ lo)) = true) :
    psum k l / 2 ^ lo % 2 ^ n = k / 2 ^ lo % 2 ^ n := by
  simp only [Bool.and_eq_true, decide_eq_true_eq] at h
  obtain ⟨hi, low, e, hl⟩ := psum_split lo n l h.1
  have e1 : psum k l = 2 ^ lo * (2 ^ n * hi + k / 2 ^ lo) + (k % 2 ^ lo + low) := by
    have := psum_add l k 0
    rw [Nat.add_zero] at this
    rw [this, e, Nat.pow_add, Nat.mul_add]
    have := Nat.div_add_mod k (2 ^ lo)
    have e3 : hi * (2 ^ lo * 2 ^ n) = 2 ^ lo * (2 ^ n * hi) := by ring
    omega
  have hlt : k % 2 ^ lo + low < 2 ^ lo := Nat.lt_of_le_of_lt (Nat.add_le_add_left hl _) h.2
  rw [e1, Nat.mul_add_div (Nat.two_pow_pos lo), Nat.div_eq_of_lt hlt, Nat.add_zero, Nat.mul_add_mod]

/-- A field's window holds its value, when the constant and the other fields leave it free. -/
theorem psum_field (k : Nat) (f : Field) (l r : List Field)
    (h : (apart f.lo f.n (l ++ r) && decide (k % 2 ^ f.lo + lowMax f.lo (l ++ r) < 2 ^ f.lo) &&
      decide (k / 2 ^ f.lo % 2 ^ f.n = 0)) = true) :
    psum k (l ++ f :: r) / 2 ^ f.lo % 2 ^ f.n = f.v := by
  simp only [Bool.and_eq_true, decide_eq_true_eq] at h
  have hm : ∀ (l : List Field) k, psum k (l ++ f :: r) = psum (k + f.v * 2 ^ f.lo) (l ++ r) := by
    intro l
    induction l with
    | nil => intro k; show psum (k + f.up) r = _; rw [Field.up_eq]; rfl
    | cons g l ih =>
      intro k
      show psum (k + g.up) (l ++ f :: r) = psum (k + f.v * 2 ^ f.lo + g.up) (l ++ r)
      rw [ih]; congr 1; omega
  have hp := Nat.two_pow_pos f.lo
  rw [hm, psum_const _ _ _ _ (by
    simp only [Bool.and_eq_true, decide_eq_true_eq, Nat.add_mul_mod_self_right]; exact h.1)]
  rw [Nat.add_mul_div_right _ _ hp, Nat.add_mod, h.2, Nat.zero_add, Nat.mod_mod, Nat.mod_eq_of_lt f.h]

theorem mod_word (m lo n : Nat) (h : lo + n ≤ 32) : m % 2 ^ 32 / 2 ^ lo % 2 ^ n = m / 2 ^ lo % 2 ^ n := by
  obtain ⟨c, hc⟩ := Nat.exists_eq_add_of_le h
  rw [hc, Nat.add_assoc, Nat.pow_add, Nat.mod_mul_right_div_self, Nat.pow_add, Nat.mod_mul_right_mod]

/-- Place and width of each field. -/
def shape (l : List Field) : List (Nat × Nat) := l.map fun f => (f.lo, f.n)

/-- lowMax and apart as functions of the shape. -/
def lowMaxS (lo : Nat) : List (Nat × Nat) → Nat
  | [] => 0
  | f :: l => (if f.1 < lo then (2 ^ f.2 - 1) * 2 ^ f.1 else 0) + lowMaxS lo l
def apartS (lo n : Nat) (l : List (Nat × Nat)) : Bool := l.all fun f => decide (lo + n ≤ f.1) || decide (f.1 < lo)

theorem lowMax_shape (lo : Nat) (l : List Field) : lowMax lo l = lowMaxS lo (shape l) := by
  induction l with
  | nil => rfl
  | cons f l ih => simp [lowMax, lowMaxS, shape, ih]

theorem apart_shape (lo n : Nat) (l : List Field) : apart lo n l = apartS lo n (shape l) := by
  simp [apart, apartS, shape, List.all_map, Function.comp_def]

/-- Whether a word of a shape leaves a window to its constant. -/
def fixed (k lo n : Nat) (s : List (Nat × Nat)) : Bool :=
  decide (lo + n ≤ 32) && (apartS lo n s && decide (k % 2 ^ lo + lowMaxS lo s < 2 ^ lo))

/-- Whether a word of a shape leaves every field's window to it. -/
def allFree (k : Nat) (s : List (Nat × Nat)) : Bool :=
  (List.range s.length).all fun i => match s[i]? with
    | some f => fixed k f.1 f.2 (s.eraseIdx i) && decide (k / 2 ^ f.1 % 2 ^ f.2 = 0)
    | none => true

theorem allFree_get {k : Nat} {s t : List (Nat × Nat)} {lo n : Nat} (h : allFree k s = true) (i : Nat)
    (hi : s[i]? = some (lo, n)) (ht : s.eraseIdx i = t) :
    (fixed k lo n t && decide (k / 2 ^ lo % 2 ^ n = 0)) = true := by
  have hl : i < s.length := by
    by_contra hn
    rw [List.getElem?_eq_none (Nat.le_of_not_lt hn)] at hi; cases hi
  have := List.all_eq_true.1 h i (List.mem_range.2 hl)
  rw [hi] at this
  rw [← ht]; exact this

/-- A word's bits where only its constant stands. -/
theorem bits_psum {k v : Nat} {l : List Field} {hi lo : Nat} (s : List (Nat × Nat)) (hs : shape l = s)
    (h : (fixed k lo (hi - lo + 1) s && decide (k / 2 ^ lo % 2 ^ (hi - lo + 1) = v)) = true) :
    bits (BitVec.ofNat 32 (psum k l)) hi lo = v := by
  subst hs
  rw [fixed, Bool.and_eq_true, Bool.and_eq_true, decide_eq_true_eq, decide_eq_true_eq, ← lowMax_shape, ← apart_shape] at h
  unfold bits
  rw [BitVec.toNat_ofNat, mod_word _ _ _ h.1.1, psum_const _ _ _ _ h.1.2, h.2]

theorem window_psum (k : Nat) (f : Field) (l r : List Field)
    (h : (fixed k f.lo f.n (shape (l ++ r)) && decide (k / 2 ^ f.lo % 2 ^ f.n = 0)) = true) :
    (BitVec.ofNat 32 (psum k (l ++ f :: r))).toNat / 2 ^ f.lo % 2 ^ f.n = f.v := by
  rw [fixed, Bool.and_eq_true, Bool.and_eq_true, decide_eq_true_eq, decide_eq_true_eq, ← lowMax_shape, ← apart_shape] at h
  rw [BitVec.toNat_ofNat, mod_word _ _ _ h.1.1, psum_field _ _ _ _ (by
    rw [Bool.and_eq_true]; exact ⟨h.1.2, decide_eq_true h.2⟩)]

theorem fld_psum {k lo n : Nat} {x : BitVec n} (l r : List Field) (s : List (Nat × Nat)) (hs : shape (l ++ r) = s)
    (h : (fixed k lo n s && decide (k / 2 ^ lo % 2 ^ n = 0)) = true) :
    fld n (BitVec.ofNat 32 (psum k (l ++ bv lo x :: r))) lo = x := by
  subst hs
  apply BitVec.eq_of_toNat_eq
  rw [fld, BitVec.toNat_ofNat, window_psum k (bv lo x) l r h]

theorem flag_psum {k lo : Nat} {b : Bool} (l r : List Field) (s : List (Nat × Nat)) (hs : shape (l ++ r) = s)
    (h : (fixed k lo 1 s && decide (k / 2 ^ lo % 2 ^ 1 = 0)) = true) :
    flag (BitVec.ofNat 32 (psum k (l ++ bo lo b :: r))) lo = b := by
  subst hs
  have := window_psum k (bo lo b) l r h
  simp only [Nat.pow_one] at this
  rw [flag, this]; cases b <;> rfl

theorem scope_psum {k hi lo : Nat} {sc : Scope} (l r : List Field) {f : Scope → Instr} (s : List (Nat × Nat))
    (hs : shape (l ++ r) = s)
    (h : (fixed k lo 3 s && decide (k / 2 ^ lo % 2 ^ 3 = 0)) = true) (hh : hi - lo + 1 = 3) :
    withScope (bits (BitVec.ofNat 32 (psum k (l ++ scp lo sc :: r))) hi lo) f = .ok (f sc) := by
  subst hs
  have := window_psum k (scp lo sc) l r h
  rw [bits, hh, this]; cases sc <;> rfl

theorem type_psum {k hi lo : Nat} {ty : VType} (l r : List Field) {f : VType → Instr} (s : List (Nat × Nat))
    (hs : shape (l ++ r) = s)
    (h : (fixed k lo 3 s && decide (k / 2 ^ lo % 2 ^ 3 = 0)) = true) (hh : hi - lo + 1 = 3) :
    withType (bits (BitVec.ofNat 32 (psum k (l ++ typ lo ty :: r))) hi lo) f = .ok (f ty) := by
  subst hs
  have := window_psum k (typ lo ty) l r h
  rw [bits, hh, this]; cases ty <;> rfl

end Sys2Proof.Laws
end

