-- ==== Sys2Proof/Laws/PerInstr.lean ====
section
/-!
SUPPORT. For every row with a word: the row's parser reads the fields of an encoded term back (R64 to R73).
-/

namespace Sys2Proof.Laws

theorem major1 {w : W32} (h : bits w 31 26 = 1) : rawParse w = parse01 w := by
  unfold rawParse; rw [h]; rfl
theorem major2 {w : W32} (h : bits w 31 26 = 2) : rawParse w = parse02 w := by
  unfold rawParse; rw [h]; rfl
theorem major3 {w : W32} (h : bits w 31 26 = 3) : rawParse w = parse03 w := by
  unfold rawParse; rw [h]; rfl
theorem major4 {w : W32} (h : bits w 31 26 = 4) : rawParse w = parse04 w := by
  unfold rawParse; rw [h]; rfl
theorem major5 {w : W32} (h : bits w 31 26 = 5) : rawParse w = parse05 w := by
  unfold rawParse; rw [h]; rfl
theorem major6 {w : W32} (h : bits w 31 26 = 6) : rawParse w = parse06 w := by
  unfold rawParse; rw [h]; rfl
theorem major7 {w : W32} (h : bits w 31 26 = 7) : rawParse w = parse07 w := by
  unfold rawParse; rw [h]; rfl
theorem major8 {w : W32} (h : bits w 31 26 = 8) : rawParse w = parse08 w := by
  unfold rawParse; rw [h]; rfl
theorem major9 {w : W32} (h : bits w 31 26 = 9) : rawParse w = parse09 w := by
  unfold rawParse; rw [h]; rfl
theorem major10 {w : W32} (h : bits w 31 26 = 10) : rawParse w = parse0A w := by
  unfold rawParse; rw [h]; rfl
theorem major11 {w : W32} (h : bits w 31 26 = 11) : rawParse w = parse0B w := by
  unfold rawParse; rw [h]; rfl
theorem major12 {w : W32} (h : bits w 31 26 = 12) : rawParse w = parse0C w := by
  unfold rawParse; rw [h]; rfl
theorem major13 {w : W32} (h : bits w 31 26 = 13) : rawParse w = parse0D w := by
  unfold rawParse; rw [h]; rfl
theorem major14 {w : W32} (h : bits w 31 26 = 14) : rawParse w = parse0E w := by
  unfold rawParse; rw [h]; rfl
theorem major15 {w : W32} (h : bits w 31 26 = 15) : rawParse w = parse0F w := by
  unfold rawParse; rw [h]; rfl
theorem major16 {w : W32} (h : bits w 31 26 = 16) : rawParse w = parse10 w := by
  unfold rawParse; rw [h]; rfl
theorem major17 {w : W32} (h : bits w 31 26 = 17) : rawParse w = parse11 w := by
  unfold rawParse; rw [h]; rfl
theorem major18 {w : W32} (h : bits w 31 26 = 18) : rawParse w = parse12 w := by
  unfold rawParse; rw [h]; rfl
theorem major19 {w : W32} (h : bits w 31 26 = 19) : rawParse w = parse13 w := by
  unfold rawParse; rw [h]; rfl
theorem major20 {w : W32} (h : bits w 31 26 = 20) : rawParse w = parse14 w := by
  unfold rawParse; rw [h]; rfl
theorem major21 {w : W32} (h : bits w 31 26 = 21) : rawParse w = parse15 w := by
  unfold rawParse; rw [h]; rfl
theorem major22 {w : W32} (h : bits w 31 26 = 22) : rawParse w = parse16 w := by
  unfold rawParse; rw [h]; rfl
theorem major23 {w : W32} (h : bits w 31 26 = 23) : rawParse w = parse17 w := by
  unfold rawParse; rw [h]; rfl
theorem major24 {w : W32} (h : bits w 31 26 = 24) : rawParse w = parse18 w := by
  unfold rawParse; rw [h]; rfl
theorem major25 {w : W32} (h : bits w 31 26 = 25) : rawParse w = parse19 w := by
  unfold rawParse; rw [h]; rfl
theorem major26 {w : W32} (h : bits w 31 26 = 26) : rawParse w = parse1A w := by
  unfold rawParse; rw [h]; rfl
theorem major27 {w : W32} (h : bits w 31 26 = 27) : rawParse w = parse1B w := by
  unfold rawParse; rw [h]; rfl
theorem major32 {w : W32} (h : bits w 31 26 = 32) : rawParse w = parse20 w := by
  unfold rawParse; rw [h]; rfl
theorem major33 {w : W32} (h : bits w 31 26 = 33) : rawParse w = parse21 w := by
  unfold rawParse; rw [h]; rfl
theorem major34 {w : W32} (h : bits w 31 26 = 34) : rawParse w = parse22 w := by
  unfold rawParse; rw [h]; rfl
theorem major35 {w : W32} (h : bits w 31 26 = 35) : rawParse w = parse23 w := by
  unfold rawParse; rw [h]; rfl
theorem major36 {w : W32} (h : bits w 31 26 = 36) : rawParse w = parse24 w := by
  unfold rawParse; rw [h]; rfl
theorem major37 {w : W32} (h : bits w 31 26 = 37) : rawParse w = parse25 w := by
  unfold rawParse; rw [h]; rfl
theorem major38 {w : W32} (h : bits w 31 26 = 38) : rawParse w = parse26 w := by
  unfold rawParse; rw [h]; rfl
theorem major39 {w : W32} (h : bits w 31 26 = 39) : rawParse w = parse27 w := by
  unfold rawParse; rw [h]; rfl
theorem major40 {w : W32} (h : bits w 31 26 = 40) : rawParse w = parse28 w := by
  unfold rawParse; rw [h]; rfl
theorem major41 {w : W32} (h : bits w 31 26 = 41) : rawParse w = parse29 w := by
  unfold rawParse; rw [h]; rfl
theorem major42 {w : W32} (h : bits w 31 26 = 42) : rawParse w = parse2A w := by
  unfold rawParse; rw [h]; rfl
theorem major43 {w : W32} (h : bits w 31 26 = 43) : rawParse w = parse2B w := by
  unfold rawParse; rw [h]; rfl
theorem major48 {w : W32} (h : bits w 31 26 = 48) : rawParse w = parse30 w := by
  unfold rawParse; rw [h]; rfl
theorem major49 {w : W32} (h : bits w 31 26 = 49) : rawParse w = parse31 w := by
  unfold rawParse; rw [h]; rfl
theorem major50 {w : W32} (h : bits w 31 26 = 50) : rawParse w = parse32 w := by
  unfold rawParse; rw [h]; rfl
theorem major51 {w : W32} (h : bits w 31 26 = 51) : rawParse w = parse33 w := by
  unfold rawParse; rw [h]; rfl
theorem major52 {w : W32} (h : bits w 31 26 = 52) : rawParse w = parse34 w := by
  unfold rawParse; rw [h]; rfl
theorem major56 {w : W32} (h : bits w 31 26 = 56) : rawParse w = parse38 w := by
  unfold rawParse; rw [h]; rfl

theorem layout0 (k : Nat) (x0 : RegCode) (x1 : RegCode) (x2 : RegCode) (x3 : Bool) (x4 : Bool) (h : allFree k [(20, 6), (14, 6), (8, 6), (7, 1), (6, 1)] = true) :
    fld 6 (BitVec.ofNat 32 (psum k [bv 20 x0, bv 14 x1, bv 8 x2, bo 7 x3, bo 6 x4])) 20 = x0 ∧
    fld 6 (BitVec.ofNat 32 (psum k [bv 20 x0, bv 14 x1, bv 8 x2, bo 7 x3, bo 6 x4])) 14 = x1 ∧
    fld 6 (BitVec.ofNat 32 (psum k [bv 20 x0, bv 14 x1, bv 8 x2, bo 7 x3, bo 6 x4])) 8 = x2 ∧
    flag (BitVec.ofNat 32 (psum k [bv 20 x0, bv 14 x1, bv 8 x2, bo 7 x3, bo 6 x4])) 7 = x3 ∧
    flag (BitVec.ofNat 32 (psum k [bv 20 x0, bv 14 x1, bv 8 x2, bo 7 x3, bo 6 x4])) 6 = x4 :=
  ⟨fld_psum (x := x0) [] [bv 14 x1, bv 8 x2, bo 7 x3, bo 6 x4] _ rfl (allFree_get h 0 rfl rfl),
   fld_psum (x := x1) [bv 20 x0] [bv 8 x2, bo 7 x3, bo 6 x4] _ rfl (allFree_get h 1 rfl rfl),
   fld_psum (x := x2) [bv 20 x0, bv 14 x1] [bo 7 x3, bo 6 x4] _ rfl (allFree_get h 2 rfl rfl),
   flag_psum (b := x3) [bv 20 x0, bv 14 x1, bv 8 x2] [bo 6 x4] _ rfl (allFree_get h 3 rfl rfl),
   flag_psum (b := x4) [bv 20 x0, bv 14 x1, bv 8 x2, bo 7 x3] [] _ rfl (allFree_get h 4 rfl rfl)⟩

theorem layout1 (k : Nat) (x0 : RegCode) (x1 : RegCode) (x2 : BitVec 14) (h : allFree k [(20, 6), (14, 6), (0, 14)] = true) :
    fld 6 (BitVec.ofNat 32 (psum k [bv 20 x0, bv 14 x1, bv 0 x2])) 20 = x0 ∧
    fld 6 (BitVec.ofNat 32 (psum k [bv 20 x0, bv 14 x1, bv 0 x2])) 14 = x1 ∧
    fld 14 (BitVec.ofNat 32 (psum k [bv 20 x0, bv 14 x1, bv 0 x2])) 0 = x2 :=
  ⟨fld_psum (x := x0) [] [bv 14 x1, bv 0 x2] _ rfl (allFree_get h 0 rfl rfl),
   fld_psum (x := x1) [bv 20 x0] [bv 0 x2] _ rfl (allFree_get h 1 rfl rfl),
   fld_psum (x := x2) [bv 20 x0, bv 14 x1] [] _ rfl (allFree_get h 2 rfl rfl)⟩

theorem layout2 (k : Nat) (x0 : RegCode) (x1 : RegCode) (x2 : BitVec 12) (h : allFree k [(20, 6), (14, 6), (0, 12)] = true) :
    fld 6 (BitVec.ofNat 32 (psum k [bv 20 x0, bv 14 x1, bv 0 x2])) 20 = x0 ∧
    fld 6 (BitVec.ofNat 32 (psum k [bv 20 x0, bv 14 x1, bv 0 x2])) 14 = x1 ∧
    fld 12 (BitVec.ofNat 32 (psum k [bv 20 x0, bv 14 x1, bv 0 x2])) 0 = x2 :=
  ⟨fld_psum (x := x0) [] [bv 14 x1, bv 0 x2] _ rfl (allFree_get h 0 rfl rfl),
   fld_psum (x := x1) [bv 20 x0] [bv 0 x2] _ rfl (allFree_get h 1 rfl rfl),
   fld_psum (x := x2) [bv 20 x0, bv 14 x1] [] _ rfl (allFree_get h 2 rfl rfl)⟩

theorem layout3 (k : Nat) (x0 : RegCode) (x1 : RegCode) (x2 : BitVec 6) (h : allFree k [(20, 6), (14, 6), (0, 6)] = true) :
    fld 6 (BitVec.ofNat 32 (psum k [bv 20 x0, bv 14 x1, bv 0 x2])) 20 = x0 ∧
    fld 6 (BitVec.ofNat 32 (psum k [bv 20 x0, bv 14 x1, bv 0 x2])) 14 = x1 ∧
    fld 6 (BitVec.ofNat 32 (psum k [bv 20 x0, bv 14 x1, bv 0 x2])) 0 = x2 :=
  ⟨fld_psum (x := x0) [] [bv 14 x1, bv 0 x2] _ rfl (allFree_get h 0 rfl rfl),
   fld_psum (x := x1) [bv 20 x0] [bv 0 x2] _ rfl (allFree_get h 1 rfl rfl),
   fld_psum (x := x2) [bv 20 x0, bv 14 x1] [] _ rfl (allFree_get h 2 rfl rfl)⟩

theorem layout4 (k : Nat) (x0 : RegCode) (x1 : RegCode) (x2 : BitVec 5) (h : allFree k [(20, 6), (14, 6), (0, 5)] = true) :
    fld 6 (BitVec.ofNat 32 (psum k [bv 20 x0, bv 14 x1, bv 0 x2])) 20 = x0 ∧
    fld 6 (BitVec.ofNat 32 (psum k [bv 20 x0, bv 14 x1, bv 0 x2])) 14 = x1 ∧
    fld 5 (BitVec.ofNat 32 (psum k [bv 20 x0, bv 14 x1, bv 0 x2])) 0 = x2 :=
  ⟨fld_psum (x := x0) [] [bv 14 x1, bv 0 x2] _ rfl (allFree_get h 0 rfl rfl),
   fld_psum (x := x1) [bv 20 x0] [bv 0 x2] _ rfl (allFree_get h 1 rfl rfl),
   fld_psum (x := x2) [bv 20 x0, bv 14 x1] [] _ rfl (allFree_get h 2 rfl rfl)⟩

theorem layout5 (k : Nat) (x0 : RegCode) (x1 : BitVec 20) (h : allFree k [(20, 6), (0, 20)] = true) :
    fld 6 (BitVec.ofNat 32 (psum k [bv 20 x0, bv 0 x1])) 20 = x0 ∧
    fld 20 (BitVec.ofNat 32 (psum k [bv 20 x0, bv 0 x1])) 0 = x1 :=
  ⟨fld_psum (x := x0) [] [bv 0 x1] _ rfl (allFree_get h 0 rfl rfl),
   fld_psum (x := x1) [bv 20 x0] [] _ rfl (allFree_get h 1 rfl rfl)⟩

theorem layout6 (k : Nat) (x0 : RegCode) (x1 : RegCode) (x2 : BitVec 11) (h : allFree k [(20, 6), (14, 6), (0, 11)] = true) :
    fld 6 (BitVec.ofNat 32 (psum k [bv 20 x0, bv 14 x1, bv 0 x2])) 20 = x0 ∧
    fld 6 (BitVec.ofNat 32 (psum k [bv 20 x0, bv 14 x1, bv 0 x2])) 14 = x1 ∧
    fld 11 (BitVec.ofNat 32 (psum k [bv 20 x0, bv 14 x1, bv 0 x2])) 0 = x2 :=
  ⟨fld_psum (x := x0) [] [bv 14 x1, bv 0 x2] _ rfl (allFree_get h 0 rfl rfl),
   fld_psum (x := x1) [bv 20 x0] [bv 0 x2] _ rfl (allFree_get h 1 rfl rfl),
   fld_psum (x := x2) [bv 20 x0, bv 14 x1] [] _ rfl (allFree_get h 2 rfl rfl)⟩

theorem layout7 (k : Nat) (x0 : RegCode) (x1 : BitVec 18) (h : allFree k [(20, 6), (0, 18)] = true) :
    fld 6 (BitVec.ofNat 32 (psum k [bv 20 x0, bv 0 x1])) 20 = x0 ∧
    fld 18 (BitVec.ofNat 32 (psum k [bv 20 x0, bv 0 x1])) 0 = x1 :=
  ⟨fld_psum (x := x0) [] [bv 0 x1] _ rfl (allFree_get h 0 rfl rfl),
   fld_psum (x := x1) [bv 20 x0] [] _ rfl (allFree_get h 1 rfl rfl)⟩

theorem layout8 (k : Nat) (x0 : RegCode) (x1 : BitVec 6) (h : allFree k [(14, 6), (0, 6)] = true) :
    fld 6 (BitVec.ofNat 32 (psum k [bv 14 x0, bv 0 x1])) 14 = x0 ∧
    fld 6 (BitVec.ofNat 32 (psum k [bv 14 x0, bv 0 x1])) 0 = x1 :=
  ⟨fld_psum (x := x0) [] [bv 0 x1] _ rfl (allFree_get h 0 rfl rfl),
   fld_psum (x := x1) [bv 14 x0] [] _ rfl (allFree_get h 1 rfl rfl)⟩

theorem layout9 (k : Nat) (x0 : RegCode) (x1 : RegCode) (x2 : Bool) (h : allFree k [(20, 6), (14, 6), (7, 1)] = true) :
    fld 6 (BitVec.ofNat 32 (psum k [bv 20 x0, bv 14 x1, bo 7 x2])) 20 = x0 ∧
    fld 6 (BitVec.ofNat 32 (psum k [bv 20 x0, bv 14 x1, bo 7 x2])) 14 = x1 ∧
    flag (BitVec.ofNat 32 (psum k [bv 20 x0, bv 14 x1, bo 7 x2])) 7 = x2 :=
  ⟨fld_psum (x := x0) [] [bv 14 x1, bo 7 x2] _ rfl (allFree_get h 0 rfl rfl),
   fld_psum (x := x1) [bv 20 x0] [bo 7 x2] _ rfl (allFree_get h 1 rfl rfl),
   flag_psum (b := x2) [bv 20 x0, bv 14 x1] [] _ rfl (allFree_get h 2 rfl rfl)⟩

theorem layout10 (k : Nat) (x0 : RegCode) (x1 : RegCode) (x2 : BitVec 2) (x3 : Bool) (x4 : BitVec 11) (h : allFree k [(20, 6), (14, 6), (12, 2), (11, 1), (0, 11)] = true) :
    fld 6 (BitVec.ofNat 32 (psum k [bv 20 x0, bv 14 x1, bv 12 x2, bo 11 x3, bv 0 x4])) 20 = x0 ∧
    fld 6 (BitVec.ofNat 32 (psum k [bv 20 x0, bv 14 x1, bv 12 x2, bo 11 x3, bv 0 x4])) 14 = x1 ∧
    fld 2 (BitVec.ofNat 32 (psum k [bv 20 x0, bv 14 x1, bv 12 x2, bo 11 x3, bv 0 x4])) 12 = x2 ∧
    flag (BitVec.ofNat 32 (psum k [bv 20 x0, bv 14 x1, bv 12 x2, bo 11 x3, bv 0 x4])) 11 = x3 ∧
    fld 11 (BitVec.ofNat 32 (psum k [bv 20 x0, bv 14 x1, bv 12 x2, bo 11 x3, bv 0 x4])) 0 = x4 :=
  ⟨fld_psum (x := x0) [] [bv 14 x1, bv 12 x2, bo 11 x3, bv 0 x4] _ rfl (allFree_get h 0 rfl rfl),
   fld_psum (x := x1) [bv 20 x0] [bv 12 x2, bo 11 x3, bv 0 x4] _ rfl (allFree_get h 1 rfl rfl),
   fld_psum (x := x2) [bv 20 x0, bv 14 x1] [bo 11 x3, bv 0 x4] _ rfl (allFree_get h 2 rfl rfl),
   flag_psum (b := x3) [bv 20 x0, bv 14 x1, bv 12 x2] [bv 0 x4] _ rfl (allFree_get h 3 rfl rfl),
   fld_psum (x := x4) [bv 20 x0, bv 14 x1, bv 12 x2, bo 11 x3] [] _ rfl (allFree_get h 4 rfl rfl)⟩

theorem layout11 (k : Nat) (x0 : RegCode) (x1 : RegCode) (x2 : BitVec 2) (x3 : BitVec 11) (h : allFree k [(20, 6), (14, 6), (12, 2), (0, 11)] = true) :
    fld 6 (BitVec.ofNat 32 (psum k [bv 20 x0, bv 14 x1, bv 12 x2, bv 0 x3])) 20 = x0 ∧
    fld 6 (BitVec.ofNat 32 (psum k [bv 20 x0, bv 14 x1, bv 12 x2, bv 0 x3])) 14 = x1 ∧
    fld 2 (BitVec.ofNat 32 (psum k [bv 20 x0, bv 14 x1, bv 12 x2, bv 0 x3])) 12 = x2 ∧
    fld 11 (BitVec.ofNat 32 (psum k [bv 20 x0, bv 14 x1, bv 12 x2, bv 0 x3])) 0 = x3 :=
  ⟨fld_psum (x := x0) [] [bv 14 x1, bv 12 x2, bv 0 x3] _ rfl (allFree_get h 0 rfl rfl),
   fld_psum (x := x1) [bv 20 x0] [bv 12 x2, bv 0 x3] _ rfl (allFree_get h 1 rfl rfl),
   fld_psum (x := x2) [bv 20 x0, bv 14 x1] [bv 0 x3] _ rfl (allFree_get h 2 rfl rfl),
   fld_psum (x := x3) [bv 20 x0, bv 14 x1, bv 12 x2] [] _ rfl (allFree_get h 3 rfl rfl)⟩

theorem layout12 (k : Nat) (x0 : RegCode) (x1 : RegCode) (x2 : RegCode) (x3 : Bool) (x4 : Bool) (x5 : BitVec 2) (x6 : Bool) (h : allFree k [(20, 6), (14, 6), (8, 6), (7, 1), (6, 1), (2, 2), (1, 1)] = true) :
    fld 6 (BitVec.ofNat 32 (psum k [bv 20 x0, bv 14 x1, bv 8 x2, bo 7 x3, bo 6 x4, bv 2 x5, bo 1 x6])) 20 = x0 ∧
    fld 6 (BitVec.ofNat 32 (psum k [bv 20 x0, bv 14 x1, bv 8 x2, bo 7 x3, bo 6 x4, bv 2 x5, bo 1 x6])) 14 = x1 ∧
    fld 6 (BitVec.ofNat 32 (psum k [bv 20 x0, bv 14 x1, bv 8 x2, bo 7 x3, bo 6 x4, bv 2 x5, bo 1 x6])) 8 = x2 ∧
    flag (BitVec.ofNat 32 (psum k [bv 20 x0, bv 14 x1, bv 8 x2, bo 7 x3, bo 6 x4, bv 2 x5, bo 1 x6])) 7 = x3 ∧
    flag (BitVec.ofNat 32 (psum k [bv 20 x0, bv 14 x1, bv 8 x2, bo 7 x3, bo 6 x4, bv 2 x5, bo 1 x6])) 6 = x4 ∧
    fld 2 (BitVec.ofNat 32 (psum k [bv 20 x0, bv 14 x1, bv 8 x2, bo 7 x3, bo 6 x4, bv 2 x5, bo 1 x6])) 2 = x5 ∧
    flag (BitVec.ofNat 32 (psum k [bv 20 x0, bv 14 x1, bv 8 x2, bo 7 x3, bo 6 x4, bv 2 x5, bo 1 x6])) 1 = x6 :=
  ⟨fld_psum (x := x0) [] [bv 14 x1, bv 8 x2, bo 7 x3, bo 6 x4, bv 2 x5, bo 1 x6] _ rfl (allFree_get h 0 rfl rfl),
   fld_psum (x := x1) [bv 20 x0] [bv 8 x2, bo 7 x3, bo 6 x4, bv 2 x5, bo 1 x6] _ rfl (allFree_get h 1 rfl rfl),
   fld_psum (x := x2) [bv 20 x0, bv 14 x1] [bo 7 x3, bo 6 x4, bv 2 x5, bo 1 x6] _ rfl (allFree_get h 2 rfl rfl),
   flag_psum (b := x3) [bv 20 x0, bv 14 x1, bv 8 x2] [bo 6 x4, bv 2 x5, bo 1 x6] _ rfl (allFree_get h 3 rfl rfl),
   flag_psum (b := x4) [bv 20 x0, bv 14 x1, bv 8 x2, bo 7 x3] [bv 2 x5, bo 1 x6] _ rfl (allFree_get h 4 rfl rfl),
   fld_psum (x := x5) [bv 20 x0, bv 14 x1, bv 8 x2, bo 7 x3, bo 6 x4] [bo 1 x6] _ rfl (allFree_get h 5 rfl rfl),
   flag_psum (b := x6) [bv 20 x0, bv 14 x1, bv 8 x2, bo 7 x3, bo 6 x4, bv 2 x5] [] _ rfl (allFree_get h 6 rfl rfl)⟩

theorem layout13 (k : Nat) (x0 : RegCode) (x1 : RegCode) (x2 : RegCode) (x3 : Bool) (x4 : Bool) (x5 : BitVec 2) (h : allFree k [(20, 6), (14, 6), (8, 6), (7, 1), (6, 1), (2, 2)] = true) :
    fld 6 (BitVec.ofNat 32 (psum k [bv 20 x0, bv 14 x1, bv 8 x2, bo 7 x3, bo 6 x4, bv 2 x5])) 20 = x0 ∧
    fld 6 (BitVec.ofNat 32 (psum k [bv 20 x0, bv 14 x1, bv 8 x2, bo 7 x3, bo 6 x4, bv 2 x5])) 14 = x1 ∧
    fld 6 (BitVec.ofNat 32 (psum k [bv 20 x0, bv 14 x1, bv 8 x2, bo 7 x3, bo 6 x4, bv 2 x5])) 8 = x2 ∧
    flag (BitVec.ofNat 32 (psum k [bv 20 x0, bv 14 x1, bv 8 x2, bo 7 x3, bo 6 x4, bv 2 x5])) 7 = x3 ∧
    flag (BitVec.ofNat 32 (psum k [bv 20 x0, bv 14 x1, bv 8 x2, bo 7 x3, bo 6 x4, bv 2 x5])) 6 = x4 ∧
    fld 2 (BitVec.ofNat 32 (psum k [bv 20 x0, bv 14 x1, bv 8 x2, bo 7 x3, bo 6 x4, bv 2 x5])) 2 = x5 :=
  ⟨fld_psum (x := x0) [] [bv 14 x1, bv 8 x2, bo 7 x3, bo 6 x4, bv 2 x5] _ rfl (allFree_get h 0 rfl rfl),
   fld_psum (x := x1) [bv 20 x0] [bv 8 x2, bo 7 x3, bo 6 x4, bv 2 x5] _ rfl (allFree_get h 1 rfl rfl),
   fld_psum (x := x2) [bv 20 x0, bv 14 x1] [bo 7 x3, bo 6 x4, bv 2 x5] _ rfl (allFree_get h 2 rfl rfl),
   flag_psum (b := x3) [bv 20 x0, bv 14 x1, bv 8 x2] [bo 6 x4, bv 2 x5] _ rfl (allFree_get h 3 rfl rfl),
   flag_psum (b := x4) [bv 20 x0, bv 14 x1, bv 8 x2, bo 7 x3] [bv 2 x5] _ rfl (allFree_get h 4 rfl rfl),
   fld_psum (x := x5) [bv 20 x0, bv 14 x1, bv 8 x2, bo 7 x3, bo 6 x4] [] _ rfl (allFree_get h 5 rfl rfl)⟩

theorem layout14 (k : Nat) (x0 : RegCode) (x1 : RegCode) (x2 : RegCode) (x3 : Bool) (x4 : Bool) (x5 : Bool) (x6 : Scope) (h : allFree k [(20, 6), (14, 6), (8, 6), (7, 1), (6, 1), (3, 1), (0, 3)] = true) :
    fld 6 (BitVec.ofNat 32 (psum k [bv 20 x0, bv 14 x1, bv 8 x2, bo 7 x3, bo 6 x4, bo 3 x5, scp 0 x6])) 20 = x0 ∧
    fld 6 (BitVec.ofNat 32 (psum k [bv 20 x0, bv 14 x1, bv 8 x2, bo 7 x3, bo 6 x4, bo 3 x5, scp 0 x6])) 14 = x1 ∧
    fld 6 (BitVec.ofNat 32 (psum k [bv 20 x0, bv 14 x1, bv 8 x2, bo 7 x3, bo 6 x4, bo 3 x5, scp 0 x6])) 8 = x2 ∧
    flag (BitVec.ofNat 32 (psum k [bv 20 x0, bv 14 x1, bv 8 x2, bo 7 x3, bo 6 x4, bo 3 x5, scp 0 x6])) 7 = x3 ∧
    flag (BitVec.ofNat 32 (psum k [bv 20 x0, bv 14 x1, bv 8 x2, bo 7 x3, bo 6 x4, bo 3 x5, scp 0 x6])) 6 = x4 ∧
    flag (BitVec.ofNat 32 (psum k [bv 20 x0, bv 14 x1, bv 8 x2, bo 7 x3, bo 6 x4, bo 3 x5, scp 0 x6])) 3 = x5 ∧
    (∀ f, withScope (bits (BitVec.ofNat 32 (psum k [bv 20 x0, bv 14 x1, bv 8 x2, bo 7 x3, bo 6 x4, bo 3 x5, scp 0 x6])) 2 0) f = .ok (f x6)) :=
  ⟨fld_psum (x := x0) [] [bv 14 x1, bv 8 x2, bo 7 x3, bo 6 x4, bo 3 x5, scp 0 x6] _ rfl (allFree_get h 0 rfl rfl),
   fld_psum (x := x1) [bv 20 x0] [bv 8 x2, bo 7 x3, bo 6 x4, bo 3 x5, scp 0 x6] _ rfl (allFree_get h 1 rfl rfl),
   fld_psum (x := x2) [bv 20 x0, bv 14 x1] [bo 7 x3, bo 6 x4, bo 3 x5, scp 0 x6] _ rfl (allFree_get h 2 rfl rfl),
   flag_psum (b := x3) [bv 20 x0, bv 14 x1, bv 8 x2] [bo 6 x4, bo 3 x5, scp 0 x6] _ rfl (allFree_get h 3 rfl rfl),
   flag_psum (b := x4) [bv 20 x0, bv 14 x1, bv 8 x2, bo 7 x3] [bo 3 x5, scp 0 x6] _ rfl (allFree_get h 4 rfl rfl),
   flag_psum (b := x5) [bv 20 x0, bv 14 x1, bv 8 x2, bo 7 x3, bo 6 x4] [scp 0 x6] _ rfl (allFree_get h 5 rfl rfl),
   fun _ => scope_psum (sc := x6) [bv 20 x0, bv 14 x1, bv 8 x2, bo 7 x3, bo 6 x4, bo 3 x5] [] _ rfl (allFree_get h 6 rfl rfl) rfl⟩

theorem layout15 (k : Nat) (x0 : RegCode) (x1 : RegCode) (x2 : RegCode) (x3 : Bool) (x4 : Bool) (x5 : BitVec 4) (h : allFree k [(20, 6), (14, 6), (8, 6), (7, 1), (6, 1), (0, 4)] = true) :
    fld 6 (BitVec.ofNat 32 (psum k [bv 20 x0, bv 14 x1, bv 8 x2, bo 7 x3, bo 6 x4, bv 0 x5])) 20 = x0 ∧
    fld 6 (BitVec.ofNat 32 (psum k [bv 20 x0, bv 14 x1, bv 8 x2, bo 7 x3, bo 6 x4, bv 0 x5])) 14 = x1 ∧
    fld 6 (BitVec.ofNat 32 (psum k [bv 20 x0, bv 14 x1, bv 8 x2, bo 7 x3, bo 6 x4, bv 0 x5])) 8 = x2 ∧
    flag (BitVec.ofNat 32 (psum k [bv 20 x0, bv 14 x1, bv 8 x2, bo 7 x3, bo 6 x4, bv 0 x5])) 7 = x3 ∧
    flag (BitVec.ofNat 32 (psum k [bv 20 x0, bv 14 x1, bv 8 x2, bo 7 x3, bo 6 x4, bv 0 x5])) 6 = x4 ∧
    fld 4 (BitVec.ofNat 32 (psum k [bv 20 x0, bv 14 x1, bv 8 x2, bo 7 x3, bo 6 x4, bv 0 x5])) 0 = x5 :=
  ⟨fld_psum (x := x0) [] [bv 14 x1, bv 8 x2, bo 7 x3, bo 6 x4, bv 0 x5] _ rfl (allFree_get h 0 rfl rfl),
   fld_psum (x := x1) [bv 20 x0] [bv 8 x2, bo 7 x3, bo 6 x4, bv 0 x5] _ rfl (allFree_get h 1 rfl rfl),
   fld_psum (x := x2) [bv 20 x0, bv 14 x1] [bo 7 x3, bo 6 x4, bv 0 x5] _ rfl (allFree_get h 2 rfl rfl),
   flag_psum (b := x3) [bv 20 x0, bv 14 x1, bv 8 x2] [bo 6 x4, bv 0 x5] _ rfl (allFree_get h 3 rfl rfl),
   flag_psum (b := x4) [bv 20 x0, bv 14 x1, bv 8 x2, bo 7 x3] [bv 0 x5] _ rfl (allFree_get h 4 rfl rfl),
   fld_psum (x := x5) [bv 20 x0, bv 14 x1, bv 8 x2, bo 7 x3, bo 6 x4] [] _ rfl (allFree_get h 5 rfl rfl)⟩

theorem layout16 (k : Nat) (x0 : RegCode) (x1 : RegCode) (x2 : Scope) (x3 : BitVec 2) (x4 : Bool) (x5 : Bool) (h : allFree k [(20, 6), (14, 6), (11, 3), (9, 2), (8, 1), (7, 1)] = true) :
    fld 6 (BitVec.ofNat 32 (psum k [bv 20 x0, bv 14 x1, scp 11 x2, bv 9 x3, bo 8 x4, bo 7 x5])) 20 = x0 ∧
    fld 6 (BitVec.ofNat 32 (psum k [bv 20 x0, bv 14 x1, scp 11 x2, bv 9 x3, bo 8 x4, bo 7 x5])) 14 = x1 ∧
    (∀ f, withScope (bits (BitVec.ofNat 32 (psum k [bv 20 x0, bv 14 x1, scp 11 x2, bv 9 x3, bo 8 x4, bo 7 x5])) 13 11) f = .ok (f x2)) ∧
    fld 2 (BitVec.ofNat 32 (psum k [bv 20 x0, bv 14 x1, scp 11 x2, bv 9 x3, bo 8 x4, bo 7 x5])) 9 = x3 ∧
    flag (BitVec.ofNat 32 (psum k [bv 20 x0, bv 14 x1, scp 11 x2, bv 9 x3, bo 8 x4, bo 7 x5])) 8 = x4 ∧
    flag (BitVec.ofNat 32 (psum k [bv 20 x0, bv 14 x1, scp 11 x2, bv 9 x3, bo 8 x4, bo 7 x5])) 7 = x5 :=
  ⟨fld_psum (x := x0) [] [bv 14 x1, scp 11 x2, bv 9 x3, bo 8 x4, bo 7 x5] _ rfl (allFree_get h 0 rfl rfl),
   fld_psum (x := x1) [bv 20 x0] [scp 11 x2, bv 9 x3, bo 8 x4, bo 7 x5] _ rfl (allFree_get h 1 rfl rfl),
   fun _ => scope_psum (sc := x2) [bv 20 x0, bv 14 x1] [bv 9 x3, bo 8 x4, bo 7 x5] _ rfl (allFree_get h 2 rfl rfl) rfl,
   fld_psum (x := x3) [bv 20 x0, bv 14 x1, scp 11 x2] [bo 8 x4, bo 7 x5] _ rfl (allFree_get h 3 rfl rfl),
   flag_psum (b := x4) [bv 20 x0, bv 14 x1, scp 11 x2, bv 9 x3] [bo 7 x5] _ rfl (allFree_get h 4 rfl rfl),
   flag_psum (b := x5) [bv 20 x0, bv 14 x1, scp 11 x2, bv 9 x3, bo 8 x4] [] _ rfl (allFree_get h 5 rfl rfl)⟩

theorem layout17 (k : Nat) (x0 : RegCode) (x1 : RegCode) (x2 : Scope) (x3 : BitVec 2) (x4 : Bool) (h : allFree k [(20, 6), (14, 6), (11, 3), (9, 2), (7, 1)] = true) :
    fld 6 (BitVec.ofNat 32 (psum k [bv 20 x0, bv 14 x1, scp 11 x2, bv 9 x3, bo 7 x4])) 20 = x0 ∧
    fld 6 (BitVec.ofNat 32 (psum k [bv 20 x0, bv 14 x1, scp 11 x2, bv 9 x3, bo 7 x4])) 14 = x1 ∧
    (∀ f, withScope (bits (BitVec.ofNat 32 (psum k [bv 20 x0, bv 14 x1, scp 11 x2, bv 9 x3, bo 7 x4])) 13 11) f = .ok (f x2)) ∧
    fld 2 (BitVec.ofNat 32 (psum k [bv 20 x0, bv 14 x1, scp 11 x2, bv 9 x3, bo 7 x4])) 9 = x3 ∧
    flag (BitVec.ofNat 32 (psum k [bv 20 x0, bv 14 x1, scp 11 x2, bv 9 x3, bo 7 x4])) 7 = x4 :=
  ⟨fld_psum (x := x0) [] [bv 14 x1, scp 11 x2, bv 9 x3, bo 7 x4] _ rfl (allFree_get h 0 rfl rfl),
   fld_psum (x := x1) [bv 20 x0] [scp 11 x2, bv 9 x3, bo 7 x4] _ rfl (allFree_get h 1 rfl rfl),
   fun _ => scope_psum (sc := x2) [bv 20 x0, bv 14 x1] [bv 9 x3, bo 7 x4] _ rfl (allFree_get h 2 rfl rfl) rfl,
   fld_psum (x := x3) [bv 20 x0, bv 14 x1, scp 11 x2] [bo 7 x4] _ rfl (allFree_get h 3 rfl rfl),
   flag_psum (b := x4) [bv 20 x0, bv 14 x1, scp 11 x2, bv 9 x3] [] _ rfl (allFree_get h 4 rfl rfl)⟩

theorem layout18 (k : Nat) (x0 : RegCode) (x1 : RegCode) (x2 : RegCode) (x3 : Bool) (x4 : Bool) (x5 : Scope) (x6 : BitVec 2) (x7 : Bool) (h : allFree k [(20, 6), (14, 6), (8, 6), (7, 1), (6, 1), (3, 3), (1, 2), (0, 1)] = true) :
    fld 6 (BitVec.ofNat 32 (psum k [bv 20 x0, bv 14 x1, bv 8 x2, bo 7 x3, bo 6 x4, scp 3 x5, bv 1 x6, bo 0 x7])) 20 = x0 ∧
    fld 6 (BitVec.ofNat 32 (psum k [bv 20 x0, bv 14 x1, bv 8 x2, bo 7 x3, bo 6 x4, scp 3 x5, bv 1 x6, bo 0 x7])) 14 = x1 ∧
    fld 6 (BitVec.ofNat 32 (psum k [bv 20 x0, bv 14 x1, bv 8 x2, bo 7 x3, bo 6 x4, scp 3 x5, bv 1 x6, bo 0 x7])) 8 = x2 ∧
    flag (BitVec.ofNat 32 (psum k [bv 20 x0, bv 14 x1, bv 8 x2, bo 7 x3, bo 6 x4, scp 3 x5, bv 1 x6, bo 0 x7])) 7 = x3 ∧
    flag (BitVec.ofNat 32 (psum k [bv 20 x0, bv 14 x1, bv 8 x2, bo 7 x3, bo 6 x4, scp 3 x5, bv 1 x6, bo 0 x7])) 6 = x4 ∧
    (∀ f, withScope (bits (BitVec.ofNat 32 (psum k [bv 20 x0, bv 14 x1, bv 8 x2, bo 7 x3, bo 6 x4, scp 3 x5, bv 1 x6, bo 0 x7])) 5 3) f = .ok (f x5)) ∧
    fld 2 (BitVec.ofNat 32 (psum k [bv 20 x0, bv 14 x1, bv 8 x2, bo 7 x3, bo 6 x4, scp 3 x5, bv 1 x6, bo 0 x7])) 1 = x6 ∧
    flag (BitVec.ofNat 32 (psum k [bv 20 x0, bv 14 x1, bv 8 x2, bo 7 x3, bo 6 x4, scp 3 x5, bv 1 x6, bo 0 x7])) 0 = x7 :=
  ⟨fld_psum (x := x0) [] [bv 14 x1, bv 8 x2, bo 7 x3, bo 6 x4, scp 3 x5, bv 1 x6, bo 0 x7] _ rfl (allFree_get h 0 rfl rfl),
   fld_psum (x := x1) [bv 20 x0] [bv 8 x2, bo 7 x3, bo 6 x4, scp 3 x5, bv 1 x6, bo 0 x7] _ rfl (allFree_get h 1 rfl rfl),
   fld_psum (x := x2) [bv 20 x0, bv 14 x1] [bo 7 x3, bo 6 x4, scp 3 x5, bv 1 x6, bo 0 x7] _ rfl (allFree_get h 2 rfl rfl),
   flag_psum (b := x3) [bv 20 x0, bv 14 x1, bv 8 x2] [bo 6 x4, scp 3 x5, bv 1 x6, bo 0 x7] _ rfl (allFree_get h 3 rfl rfl),
   flag_psum (b := x4) [bv 20 x0, bv 14 x1, bv 8 x2, bo 7 x3] [scp 3 x5, bv 1 x6, bo 0 x7] _ rfl (allFree_get h 4 rfl rfl),
   fun _ => scope_psum (sc := x5) [bv 20 x0, bv 14 x1, bv 8 x2, bo 7 x3, bo 6 x4] [bv 1 x6, bo 0 x7] _ rfl (allFree_get h 5 rfl rfl) rfl,
   fld_psum (x := x6) [bv 20 x0, bv 14 x1, bv 8 x2, bo 7 x3, bo 6 x4, scp 3 x5] [bo 0 x7] _ rfl (allFree_get h 6 rfl rfl),
   flag_psum (b := x7) [bv 20 x0, bv 14 x1, bv 8 x2, bo 7 x3, bo 6 x4, scp 3 x5, bv 1 x6] [] _ rfl (allFree_get h 7 rfl rfl)⟩

theorem layout19 (k : Nat) (x0 : Scope) (h : allFree k [(3, 3)] = true) :
    (∀ f, withScope (bits (BitVec.ofNat 32 (psum k [scp 3 x0])) 5 3) f = .ok (f x0)) :=
  fun _ => scope_psum (sc := x0) [] [] _ rfl (allFree_get h 0 rfl rfl) rfl

theorem layout20 (k : Nat) (x0 : RegCode) (x1 : BitVec 8) (h : allFree k [(14, 6), (0, 8)] = true) :
    fld 6 (BitVec.ofNat 32 (psum k [bv 14 x0, bv 0 x1])) 14 = x0 ∧
    fld 8 (BitVec.ofNat 32 (psum k [bv 14 x0, bv 0 x1])) 0 = x1 :=
  ⟨fld_psum (x := x0) [] [bv 0 x1] _ rfl (allFree_get h 0 rfl rfl),
   fld_psum (x := x1) [bv 14 x0] [] _ rfl (allFree_get h 1 rfl rfl)⟩

theorem layout21 (k : Nat) (x0 : RegCode) (x1 : Scope) (x2 : BitVec 8) (h : allFree k [(14, 6), (8, 3), (0, 8)] = true) :
    fld 6 (BitVec.ofNat 32 (psum k [bv 14 x0, scp 8 x1, bv 0 x2])) 14 = x0 ∧
    (∀ f, withScope (bits (BitVec.ofNat 32 (psum k [bv 14 x0, scp 8 x1, bv 0 x2])) 10 8) f = .ok (f x1)) ∧
    fld 8 (BitVec.ofNat 32 (psum k [bv 14 x0, scp 8 x1, bv 0 x2])) 0 = x2 :=
  ⟨fld_psum (x := x0) [] [scp 8 x1, bv 0 x2] _ rfl (allFree_get h 0 rfl rfl),
   fun _ => scope_psum (sc := x1) [bv 14 x0] [bv 0 x2] _ rfl (allFree_get h 1 rfl rfl) rfl,
   fld_psum (x := x2) [bv 14 x0, scp 8 x1] [] _ rfl (allFree_get h 2 rfl rfl)⟩

theorem layout22 (k : Nat) (x0 : BitVec 4) (x1 : BitVec 4) (x2 : BitVec 4) (x3 : BitVec 3) (x4 : Bool) (h : allFree k [(22, 4), (18, 4), (14, 4), (11, 3), (10, 1)] = true) :
    fld 4 (BitVec.ofNat 32 (psum k [bv 22 x0, bv 18 x1, bv 14 x2, bv 11 x3, bo 10 x4])) 22 = x0 ∧
    fld 4 (BitVec.ofNat 32 (psum k [bv 22 x0, bv 18 x1, bv 14 x2, bv 11 x3, bo 10 x4])) 18 = x1 ∧
    fld 4 (BitVec.ofNat 32 (psum k [bv 22 x0, bv 18 x1, bv 14 x2, bv 11 x3, bo 10 x4])) 14 = x2 ∧
    fld 3 (BitVec.ofNat 32 (psum k [bv 22 x0, bv 18 x1, bv 14 x2, bv 11 x3, bo 10 x4])) 11 = x3 ∧
    flag (BitVec.ofNat 32 (psum k [bv 22 x0, bv 18 x1, bv 14 x2, bv 11 x3, bo 10 x4])) 10 = x4 :=
  ⟨fld_psum (x := x0) [] [bv 18 x1, bv 14 x2, bv 11 x3, bo 10 x4] _ rfl (allFree_get h 0 rfl rfl),
   fld_psum (x := x1) [bv 22 x0] [bv 14 x2, bv 11 x3, bo 10 x4] _ rfl (allFree_get h 1 rfl rfl),
   fld_psum (x := x2) [bv 22 x0, bv 18 x1] [bv 11 x3, bo 10 x4] _ rfl (allFree_get h 2 rfl rfl),
   fld_psum (x := x3) [bv 22 x0, bv 18 x1, bv 14 x2] [bo 10 x4] _ rfl (allFree_get h 3 rfl rfl),
   flag_psum (b := x4) [bv 22 x0, bv 18 x1, bv 14 x2, bv 11 x3] [] _ rfl (allFree_get h 4 rfl rfl)⟩

theorem layout23 (k : Nat) (x0 : BitVec 3) (x1 : BitVec 3) (x2 : BitVec 3) (x3 : BitVec 2) (x4 : VType) (h : allFree k [(23, 3), (20, 3), (17, 3), (15, 2), (12, 3)] = true) :
    fld 3 (BitVec.ofNat 32 (psum k [bv 23 x0, bv 20 x1, bv 17 x2, bv 15 x3, typ 12 x4])) 23 = x0 ∧
    fld 3 (BitVec.ofNat 32 (psum k [bv 23 x0, bv 20 x1, bv 17 x2, bv 15 x3, typ 12 x4])) 20 = x1 ∧
    fld 3 (BitVec.ofNat 32 (psum k [bv 23 x0, bv 20 x1, bv 17 x2, bv 15 x3, typ 12 x4])) 17 = x2 ∧
    fld 2 (BitVec.ofNat 32 (psum k [bv 23 x0, bv 20 x1, bv 17 x2, bv 15 x3, typ 12 x4])) 15 = x3 ∧
    (∀ f, withType (bits (BitVec.ofNat 32 (psum k [bv 23 x0, bv 20 x1, bv 17 x2, bv 15 x3, typ 12 x4])) 14 12) f = .ok (f x4)) :=
  ⟨fld_psum (x := x0) [] [bv 20 x1, bv 17 x2, bv 15 x3, typ 12 x4] _ rfl (allFree_get h 0 rfl rfl),
   fld_psum (x := x1) [bv 23 x0] [bv 17 x2, bv 15 x3, typ 12 x4] _ rfl (allFree_get h 1 rfl rfl),
   fld_psum (x := x2) [bv 23 x0, bv 20 x1] [bv 15 x3, typ 12 x4] _ rfl (allFree_get h 2 rfl rfl),
   fld_psum (x := x3) [bv 23 x0, bv 20 x1, bv 17 x2] [typ 12 x4] _ rfl (allFree_get h 3 rfl rfl),
   fun _ => type_psum (ty := x4) [bv 23 x0, bv 20 x1, bv 17 x2, bv 15 x3] [] _ rfl (allFree_get h 4 rfl rfl) rfl⟩

theorem layout24 (k : Nat) (x0 : BitVec 3) (x1 : BitVec 3) (x2 : BitVec 3) (x3 : BitVec 2) (h : allFree k [(23, 3), (20, 3), (17, 3), (15, 2)] = true) :
    fld 3 (BitVec.ofNat 32 (psum k [bv 23 x0, bv 20 x1, bv 17 x2, bv 15 x3])) 23 = x0 ∧
    fld 3 (BitVec.ofNat 32 (psum k [bv 23 x0, bv 20 x1, bv 17 x2, bv 15 x3])) 20 = x1 ∧
    fld 3 (BitVec.ofNat 32 (psum k [bv 23 x0, bv 20 x1, bv 17 x2, bv 15 x3])) 17 = x2 ∧
    fld 2 (BitVec.ofNat 32 (psum k [bv 23 x0, bv 20 x1, bv 17 x2, bv 15 x3])) 15 = x3 :=
  ⟨fld_psum (x := x0) [] [bv 20 x1, bv 17 x2, bv 15 x3] _ rfl (allFree_get h 0 rfl rfl),
   fld_psum (x := x1) [bv 23 x0] [bv 17 x2, bv 15 x3] _ rfl (allFree_get h 1 rfl rfl),
   fld_psum (x := x2) [bv 23 x0, bv 20 x1] [bv 15 x3] _ rfl (allFree_get h 2 rfl rfl),
   fld_psum (x := x3) [bv 23 x0, bv 20 x1, bv 17 x2] [] _ rfl (allFree_get h 3 rfl rfl)⟩

theorem layout25 (k : Nat) (x0 : BitVec 2) (x1 : BitVec 3) (x2 : BitVec 3) (x3 : BitVec 2) (x4 : VType) (x5 : BitVec 3) (h : allFree k [(23, 2), (20, 3), (17, 3), (15, 2), (12, 3), (0, 3)] = true) :
    fld 2 (BitVec.ofNat 32 (psum k [bv 23 x0, bv 20 x1, bv 17 x2, bv 15 x3, typ 12 x4, bv 0 x5])) 23 = x0 ∧
    fld 3 (BitVec.ofNat 32 (psum k [bv 23 x0, bv 20 x1, bv 17 x2, bv 15 x3, typ 12 x4, bv 0 x5])) 20 = x1 ∧
    fld 3 (BitVec.ofNat 32 (psum k [bv 23 x0, bv 20 x1, bv 17 x2, bv 15 x3, typ 12 x4, bv 0 x5])) 17 = x2 ∧
    fld 2 (BitVec.ofNat 32 (psum k [bv 23 x0, bv 20 x1, bv 17 x2, bv 15 x3, typ 12 x4, bv 0 x5])) 15 = x3 ∧
    (∀ f, withType (bits (BitVec.ofNat 32 (psum k [bv 23 x0, bv 20 x1, bv 17 x2, bv 15 x3, typ 12 x4, bv 0 x5])) 14 12) f = .ok (f x4)) ∧
    fld 3 (BitVec.ofNat 32 (psum k [bv 23 x0, bv 20 x1, bv 17 x2, bv 15 x3, typ 12 x4, bv 0 x5])) 0 = x5 :=
  ⟨fld_psum (x := x0) [] [bv 20 x1, bv 17 x2, bv 15 x3, typ 12 x4, bv 0 x5] _ rfl (allFree_get h 0 rfl rfl),
   fld_psum (x := x1) [bv 23 x0] [bv 17 x2, bv 15 x3, typ 12 x4, bv 0 x5] _ rfl (allFree_get h 1 rfl rfl),
   fld_psum (x := x2) [bv 23 x0, bv 20 x1] [bv 15 x3, typ 12 x4, bv 0 x5] _ rfl (allFree_get h 2 rfl rfl),
   fld_psum (x := x3) [bv 23 x0, bv 20 x1, bv 17 x2] [typ 12 x4, bv 0 x5] _ rfl (allFree_get h 3 rfl rfl),
   fun _ => type_psum (ty := x4) [bv 23 x0, bv 20 x1, bv 17 x2, bv 15 x3] [bv 0 x5] _ rfl (allFree_get h 4 rfl rfl) rfl,
   fld_psum (x := x5) [bv 23 x0, bv 20 x1, bv 17 x2, bv 15 x3, typ 12 x4] [] _ rfl (allFree_get h 5 rfl rfl)⟩

theorem layout26 (k : Nat) (x0 : BitVec 3) (x1 : BitVec 3) (x2 : BitVec 2) (x3 : VType) (x4 : RegCode) (h : allFree k [(23, 3), (20, 3), (15, 2), (12, 3), (6, 6)] = true) :
    fld 3 (BitVec.ofNat 32 (psum k [bv 23 x0, bv 20 x1, bv 15 x2, typ 12 x3, bv 6 x4])) 23 = x0 ∧
    fld 3 (BitVec.ofNat 32 (psum k [bv 23 x0, bv 20 x1, bv 15 x2, typ 12 x3, bv 6 x4])) 20 = x1 ∧
    fld 2 (BitVec.ofNat 32 (psum k [bv 23 x0, bv 20 x1, bv 15 x2, typ 12 x3, bv 6 x4])) 15 = x2 ∧
    (∀ f, withType (bits (BitVec.ofNat 32 (psum k [bv 23 x0, bv 20 x1, bv 15 x2, typ 12 x3, bv 6 x4])) 14 12) f = .ok (f x3)) ∧
    fld 6 (BitVec.ofNat 32 (psum k [bv 23 x0, bv 20 x1, bv 15 x2, typ 12 x3, bv 6 x4])) 6 = x4 :=
  ⟨fld_psum (x := x0) [] [bv 20 x1, bv 15 x2, typ 12 x3, bv 6 x4] _ rfl (allFree_get h 0 rfl rfl),
   fld_psum (x := x1) [bv 23 x0] [bv 15 x2, typ 12 x3, bv 6 x4] _ rfl (allFree_get h 1 rfl rfl),
   fld_psum (x := x2) [bv 23 x0, bv 20 x1] [typ 12 x3, bv 6 x4] _ rfl (allFree_get h 2 rfl rfl),
   fun _ => type_psum (ty := x3) [bv 23 x0, bv 20 x1, bv 15 x2] [bv 6 x4] _ rfl (allFree_get h 3 rfl rfl) rfl,
   fld_psum (x := x4) [bv 23 x0, bv 20 x1, bv 15 x2, typ 12 x3] [] _ rfl (allFree_get h 4 rfl rfl)⟩

theorem layout27 (k : Nat) (x0 : BitVec 3) (x1 : BitVec 3) (x2 : BitVec 2) (x3 : RegCode) (h : allFree k [(23, 3), (20, 3), (15, 2), (6, 6)] = true) :
    fld 3 (BitVec.ofNat 32 (psum k [bv 23 x0, bv 20 x1, bv 15 x2, bv 6 x3])) 23 = x0 ∧
    fld 3 (BitVec.ofNat 32 (psum k [bv 23 x0, bv 20 x1, bv 15 x2, bv 6 x3])) 20 = x1 ∧
    fld 2 (BitVec.ofNat 32 (psum k [bv 23 x0, bv 20 x1, bv 15 x2, bv 6 x3])) 15 = x2 ∧
    fld 6 (BitVec.ofNat 32 (psum k [bv 23 x0, bv 20 x1, bv 15 x2, bv 6 x3])) 6 = x3 :=
  ⟨fld_psum (x := x0) [] [bv 20 x1, bv 15 x2, bv 6 x3] _ rfl (allFree_get h 0 rfl rfl),
   fld_psum (x := x1) [bv 23 x0] [bv 15 x2, bv 6 x3] _ rfl (allFree_get h 1 rfl rfl),
   fld_psum (x := x2) [bv 23 x0, bv 20 x1] [bv 6 x3] _ rfl (allFree_get h 2 rfl rfl),
   fld_psum (x := x3) [bv 23 x0, bv 20 x1, bv 15 x2] [] _ rfl (allFree_get h 3 rfl rfl)⟩

theorem layout28 (k : Nat) (x0 : BitVec 2) (x1 : BitVec 3) (x2 : BitVec 2) (x3 : VType) (x4 : RegCode) (x5 : BitVec 3) (h : allFree k [(23, 2), (20, 3), (15, 2), (12, 3), (6, 6), (0, 3)] = true) :
    fld 2 (BitVec.ofNat 32 (psum k [bv 23 x0, bv 20 x1, bv 15 x2, typ 12 x3, bv 6 x4, bv 0 x5])) 23 = x0 ∧
    fld 3 (BitVec.ofNat 32 (psum k [bv 23 x0, bv 20 x1, bv 15 x2, typ 12 x3, bv 6 x4, bv 0 x5])) 20 = x1 ∧
    fld 2 (BitVec.ofNat 32 (psum k [bv 23 x0, bv 20 x1, bv 15 x2, typ 12 x3, bv 6 x4, bv 0 x5])) 15 = x2 ∧
    (∀ f, withType (bits (BitVec.ofNat 32 (psum k [bv 23 x0, bv 20 x1, bv 15 x2, typ 12 x3, bv 6 x4, bv 0 x5])) 14 12) f = .ok (f x3)) ∧
    fld 6 (BitVec.ofNat 32 (psum k [bv 23 x0, bv 20 x1, bv 15 x2, typ 12 x3, bv 6 x4, bv 0 x5])) 6 = x4 ∧
    fld 3 (BitVec.ofNat 32 (psum k [bv 23 x0, bv 20 x1, bv 15 x2, typ 12 x3, bv 6 x4, bv 0 x5])) 0 = x5 :=
  ⟨fld_psum (x := x0) [] [bv 20 x1, bv 15 x2, typ 12 x3, bv 6 x4, bv 0 x5] _ rfl (allFree_get h 0 rfl rfl),
   fld_psum (x := x1) [bv 23 x0] [bv 15 x2, typ 12 x3, bv 6 x4, bv 0 x5] _ rfl (allFree_get h 1 rfl rfl),
   fld_psum (x := x2) [bv 23 x0, bv 20 x1] [typ 12 x3, bv 6 x4, bv 0 x5] _ rfl (allFree_get h 2 rfl rfl),
   fun _ => type_psum (ty := x3) [bv 23 x0, bv 20 x1, bv 15 x2] [bv 6 x4, bv 0 x5] _ rfl (allFree_get h 3 rfl rfl) rfl,
   fld_psum (x := x4) [bv 23 x0, bv 20 x1, bv 15 x2, typ 12 x3] [bv 0 x5] _ rfl (allFree_get h 4 rfl rfl),
   fld_psum (x := x5) [bv 23 x0, bv 20 x1, bv 15 x2, typ 12 x3, bv 6 x4] [] _ rfl (allFree_get h 5 rfl rfl)⟩

theorem layout29 (k : Nat) (x0 : BitVec 3) (x1 : BitVec 2) (x2 : RegCode) (h : allFree k [(23, 3), (15, 2), (6, 6)] = true) :
    fld 3 (BitVec.ofNat 32 (psum k [bv 23 x0, bv 15 x1, bv 6 x2])) 23 = x0 ∧
    fld 2 (BitVec.ofNat 32 (psum k [bv 23 x0, bv 15 x1, bv 6 x2])) 15 = x1 ∧
    fld 6 (BitVec.ofNat 32 (psum k [bv 23 x0, bv 15 x1, bv 6 x2])) 6 = x2 :=
  ⟨fld_psum (x := x0) [] [bv 15 x1, bv 6 x2] _ rfl (allFree_get h 0 rfl rfl),
   fld_psum (x := x1) [bv 23 x0] [bv 6 x2] _ rfl (allFree_get h 1 rfl rfl),
   fld_psum (x := x2) [bv 23 x0, bv 15 x1] [] _ rfl (allFree_get h 2 rfl rfl)⟩

theorem layout30 (k : Nat) (x0 : BitVec 3) (x1 : BitVec 3) (x2 : BitVec 2) (x3 : BitVec 2) (x4 : VType) (x5 : RegCode) (h : allFree k [(23, 3), (20, 3), (17, 2), (15, 2), (12, 3), (6, 6)] = true) :
    fld 3 (BitVec.ofNat 32 (psum k [bv 23 x0, bv 20 x1, bv 17 x2, bv 15 x3, typ 12 x4, bv 6 x5])) 23 = x0 ∧
    fld 3 (BitVec.ofNat 32 (psum k [bv 23 x0, bv 20 x1, bv 17 x2, bv 15 x3, typ 12 x4, bv 6 x5])) 20 = x1 ∧
    fld 2 (BitVec.ofNat 32 (psum k [bv 23 x0, bv 20 x1, bv 17 x2, bv 15 x3, typ 12 x4, bv 6 x5])) 17 = x2 ∧
    fld 2 (BitVec.ofNat 32 (psum k [bv 23 x0, bv 20 x1, bv 17 x2, bv 15 x3, typ 12 x4, bv 6 x5])) 15 = x3 ∧
    (∀ f, withType (bits (BitVec.ofNat 32 (psum k [bv 23 x0, bv 20 x1, bv 17 x2, bv 15 x3, typ 12 x4, bv 6 x5])) 14 12) f = .ok (f x4)) ∧
    fld 6 (BitVec.ofNat 32 (psum k [bv 23 x0, bv 20 x1, bv 17 x2, bv 15 x3, typ 12 x4, bv 6 x5])) 6 = x5 :=
  ⟨fld_psum (x := x0) [] [bv 20 x1, bv 17 x2, bv 15 x3, typ 12 x4, bv 6 x5] _ rfl (allFree_get h 0 rfl rfl),
   fld_psum (x := x1) [bv 23 x0] [bv 17 x2, bv 15 x3, typ 12 x4, bv 6 x5] _ rfl (allFree_get h 1 rfl rfl),
   fld_psum (x := x2) [bv 23 x0, bv 20 x1] [bv 15 x3, typ 12 x4, bv 6 x5] _ rfl (allFree_get h 2 rfl rfl),
   fld_psum (x := x3) [bv 23 x0, bv 20 x1, bv 17 x2] [typ 12 x4, bv 6 x5] _ rfl (allFree_get h 3 rfl rfl),
   fun _ => type_psum (ty := x4) [bv 23 x0, bv 20 x1, bv 17 x2, bv 15 x3] [bv 6 x5] _ rfl (allFree_get h 4 rfl rfl) rfl,
   fld_psum (x := x5) [bv 23 x0, bv 20 x1, bv 17 x2, bv 15 x3, typ 12 x4] [] _ rfl (allFree_get h 5 rfl rfl)⟩

theorem layout31 (k : Nat) (x0 : BitVec 3) (x1 : BitVec 2) (x2 : RegCode) (x3 : BitVec 4) (h : allFree k [(23, 3), (15, 2), (6, 6), (0, 4)] = true) :
    fld 3 (BitVec.ofNat 32 (psum k [bv 23 x0, bv 15 x1, bv 6 x2, bv 0 x3])) 23 = x0 ∧
    fld 2 (BitVec.ofNat 32 (psum k [bv 23 x0, bv 15 x1, bv 6 x2, bv 0 x3])) 15 = x1 ∧
    fld 6 (BitVec.ofNat 32 (psum k [bv 23 x0, bv 15 x1, bv 6 x2, bv 0 x3])) 6 = x2 ∧
    fld 4 (BitVec.ofNat 32 (psum k [bv 23 x0, bv 15 x1, bv 6 x2, bv 0 x3])) 0 = x3 :=
  ⟨fld_psum (x := x0) [] [bv 15 x1, bv 6 x2, bv 0 x3] _ rfl (allFree_get h 0 rfl rfl),
   fld_psum (x := x1) [bv 23 x0] [bv 6 x2, bv 0 x3] _ rfl (allFree_get h 1 rfl rfl),
   fld_psum (x := x2) [bv 23 x0, bv 15 x1] [bv 0 x3] _ rfl (allFree_get h 2 rfl rfl),
   fld_psum (x := x3) [bv 23 x0, bv 15 x1, bv 6 x2] [] _ rfl (allFree_get h 3 rfl rfl)⟩

theorem layout32 (k : Nat) (x0 : BitVec 3) (x1 : BitVec 2) (x2 : VType) (x3 : RegCode) (h : allFree k [(23, 3), (15, 2), (12, 3), (6, 6)] = true) :
    fld 3 (BitVec.ofNat 32 (psum k [bv 23 x0, bv 15 x1, typ 12 x2, bv 6 x3])) 23 = x0 ∧
    fld 2 (BitVec.ofNat 32 (psum k [bv 23 x0, bv 15 x1, typ 12 x2, bv 6 x3])) 15 = x1 ∧
    (∀ f, withType (bits (BitVec.ofNat 32 (psum k [bv 23 x0, bv 15 x1, typ 12 x2, bv 6 x3])) 14 12) f = .ok (f x2)) ∧
    fld 6 (BitVec.ofNat 32 (psum k [bv 23 x0, bv 15 x1, typ 12 x2, bv 6 x3])) 6 = x3 :=
  ⟨fld_psum (x := x0) [] [bv 15 x1, typ 12 x2, bv 6 x3] _ rfl (allFree_get h 0 rfl rfl),
   fld_psum (x := x1) [bv 23 x0] [typ 12 x2, bv 6 x3] _ rfl (allFree_get h 1 rfl rfl),
   fun _ => type_psum (ty := x2) [bv 23 x0, bv 15 x1] [bv 6 x3] _ rfl (allFree_get h 2 rfl rfl) rfl,
   fld_psum (x := x3) [bv 23 x0, bv 15 x1, typ 12 x2] [] _ rfl (allFree_get h 3 rfl rfl)⟩

theorem layout33 (k : Nat) (x0 : BitVec 3) (x1 : BitVec 5) (x2 : VType) (x3 : RegCode) (h : allFree k [(20, 3), (15, 5), (12, 3), (6, 6)] = true) :
    fld 3 (BitVec.ofNat 32 (psum k [bv 20 x0, bv 15 x1, typ 12 x2, bv 6 x3])) 20 = x0 ∧
    fld 5 (BitVec.ofNat 32 (psum k [bv 20 x0, bv 15 x1, typ 12 x2, bv 6 x3])) 15 = x1 ∧
    (∀ f, withType (bits (BitVec.ofNat 32 (psum k [bv 20 x0, bv 15 x1, typ 12 x2, bv 6 x3])) 14 12) f = .ok (f x2)) ∧
    fld 6 (BitVec.ofNat 32 (psum k [bv 20 x0, bv 15 x1, typ 12 x2, bv 6 x3])) 6 = x3 :=
  ⟨fld_psum (x := x0) [] [bv 15 x1, typ 12 x2, bv 6 x3] _ rfl (allFree_get h 0 rfl rfl),
   fld_psum (x := x1) [bv 20 x0] [typ 12 x2, bv 6 x3] _ rfl (allFree_get h 1 rfl rfl),
   fun _ => type_psum (ty := x2) [bv 20 x0, bv 15 x1] [bv 6 x3] _ rfl (allFree_get h 2 rfl rfl) rfl,
   fld_psum (x := x3) [bv 20 x0, bv 15 x1, typ 12 x2] [] _ rfl (allFree_get h 3 rfl rfl)⟩

theorem layout34 (k : Nat) (x0 : BitVec 3) (x1 : BitVec 3) (x2 : BitVec 3) (x3 : BitVec 2) (x4 : RegCode) (h : allFree k [(23, 3), (20, 3), (17, 3), (15, 2), (6, 6)] = true) :
    fld 3 (BitVec.ofNat 32 (psum k [bv 23 x0, bv 20 x1, bv 17 x2, bv 15 x3, bv 6 x4])) 23 = x0 ∧
    fld 3 (BitVec.ofNat 32 (psum k [bv 23 x0, bv 20 x1, bv 17 x2, bv 15 x3, bv 6 x4])) 20 = x1 ∧
    fld 3 (BitVec.ofNat 32 (psum k [bv 23 x0, bv 20 x1, bv 17 x2, bv 15 x3, bv 6 x4])) 17 = x2 ∧
    fld 2 (BitVec.ofNat 32 (psum k [bv 23 x0, bv 20 x1, bv 17 x2, bv 15 x3, bv 6 x4])) 15 = x3 ∧
    fld 6 (BitVec.ofNat 32 (psum k [bv 23 x0, bv 20 x1, bv 17 x2, bv 15 x3, bv 6 x4])) 6 = x4 :=
  ⟨fld_psum (x := x0) [] [bv 20 x1, bv 17 x2, bv 15 x3, bv 6 x4] _ rfl (allFree_get h 0 rfl rfl),
   fld_psum (x := x1) [bv 23 x0] [bv 17 x2, bv 15 x3, bv 6 x4] _ rfl (allFree_get h 1 rfl rfl),
   fld_psum (x := x2) [bv 23 x0, bv 20 x1] [bv 15 x3, bv 6 x4] _ rfl (allFree_get h 2 rfl rfl),
   fld_psum (x := x3) [bv 23 x0, bv 20 x1, bv 17 x2] [bv 6 x4] _ rfl (allFree_get h 3 rfl rfl),
   fld_psum (x := x4) [bv 23 x0, bv 20 x1, bv 17 x2, bv 15 x3] [] _ rfl (allFree_get h 4 rfl rfl)⟩

theorem layout35 (k : Nat) (x0 : BitVec 3) (x1 : BitVec 2) (x2 : VType) (x3 : RegCode) (x4 : BitVec 3) (h : allFree k [(20, 3), (15, 2), (12, 3), (6, 6), (0, 3)] = true) :
    fld 3 (BitVec.ofNat 32 (psum k [bv 20 x0, bv 15 x1, typ 12 x2, bv 6 x3, bv 0 x4])) 20 = x0 ∧
    fld 2 (BitVec.ofNat 32 (psum k [bv 20 x0, bv 15 x1, typ 12 x2, bv 6 x3, bv 0 x4])) 15 = x1 ∧
    (∀ f, withType (bits (BitVec.ofNat 32 (psum k [bv 20 x0, bv 15 x1, typ 12 x2, bv 6 x3, bv 0 x4])) 14 12) f = .ok (f x2)) ∧
    fld 6 (BitVec.ofNat 32 (psum k [bv 20 x0, bv 15 x1, typ 12 x2, bv 6 x3, bv 0 x4])) 6 = x3 ∧
    fld 3 (BitVec.ofNat 32 (psum k [bv 20 x0, bv 15 x1, typ 12 x2, bv 6 x3, bv 0 x4])) 0 = x4 :=
  ⟨fld_psum (x := x0) [] [bv 15 x1, typ 12 x2, bv 6 x3, bv 0 x4] _ rfl (allFree_get h 0 rfl rfl),
   fld_psum (x := x1) [bv 20 x0] [typ 12 x2, bv 6 x3, bv 0 x4] _ rfl (allFree_get h 1 rfl rfl),
   fun _ => type_psum (ty := x2) [bv 20 x0, bv 15 x1] [bv 6 x3, bv 0 x4] _ rfl (allFree_get h 2 rfl rfl) rfl,
   fld_psum (x := x3) [bv 20 x0, bv 15 x1, typ 12 x2] [bv 0 x4] _ rfl (allFree_get h 3 rfl rfl),
   fld_psum (x := x4) [bv 20 x0, bv 15 x1, typ 12 x2, bv 6 x3] [] _ rfl (allFree_get h 4 rfl rfl)⟩

theorem layout36 (k : Nat) (x0 : BitVec 3) (x1 : BitVec 3) (x2 : BitVec 2) (x3 : VType) (x4 : BitVec 3) (h : allFree k [(23, 3), (20, 3), (15, 2), (12, 3), (0, 3)] = true) :
    fld 3 (BitVec.ofNat 32 (psum k [bv 23 x0, bv 20 x1, bv 15 x2, typ 12 x3, bv 0 x4])) 23 = x0 ∧
    fld 3 (BitVec.ofNat 32 (psum k [bv 23 x0, bv 20 x1, bv 15 x2, typ 12 x3, bv 0 x4])) 20 = x1 ∧
    fld 2 (BitVec.ofNat 32 (psum k [bv 23 x0, bv 20 x1, bv 15 x2, typ 12 x3, bv 0 x4])) 15 = x2 ∧
    (∀ f, withType (bits (BitVec.ofNat 32 (psum k [bv 23 x0, bv 20 x1, bv 15 x2, typ 12 x3, bv 0 x4])) 14 12) f = .ok (f x3)) ∧
    fld 3 (BitVec.ofNat 32 (psum k [bv 23 x0, bv 20 x1, bv 15 x2, typ 12 x3, bv 0 x4])) 0 = x4 :=
  ⟨fld_psum (x := x0) [] [bv 20 x1, bv 15 x2, typ 12 x3, bv 0 x4] _ rfl (allFree_get h 0 rfl rfl),
   fld_psum (x := x1) [bv 23 x0] [bv 15 x2, typ 12 x3, bv 0 x4] _ rfl (allFree_get h 1 rfl rfl),
   fld_psum (x := x2) [bv 23 x0, bv 20 x1] [typ 12 x3, bv 0 x4] _ rfl (allFree_get h 2 rfl rfl),
   fun _ => type_psum (ty := x3) [bv 23 x0, bv 20 x1, bv 15 x2] [bv 0 x4] _ rfl (allFree_get h 3 rfl rfl) rfl,
   fld_psum (x := x4) [bv 23 x0, bv 20 x1, bv 15 x2, typ 12 x3] [] _ rfl (allFree_get h 4 rfl rfl)⟩

theorem layout37 (k : Nat) (x0 : BitVec 2) (x1 : BitVec 2) (x2 : BitVec 2) (h : allFree k [(23, 2), (20, 2), (17, 2)] = true) :
    fld 2 (BitVec.ofNat 32 (psum k [bv 23 x0, bv 20 x1, bv 17 x2])) 23 = x0 ∧
    fld 2 (BitVec.ofNat 32 (psum k [bv 23 x0, bv 20 x1, bv 17 x2])) 20 = x1 ∧
    fld 2 (BitVec.ofNat 32 (psum k [bv 23 x0, bv 20 x1, bv 17 x2])) 17 = x2 :=
  ⟨fld_psum (x := x0) [] [bv 20 x1, bv 17 x2] _ rfl (allFree_get h 0 rfl rfl),
   fld_psum (x := x1) [bv 23 x0] [bv 17 x2] _ rfl (allFree_get h 1 rfl rfl),
   fld_psum (x := x2) [bv 23 x0, bv 20 x1] [] _ rfl (allFree_get h 2 rfl rfl)⟩

theorem layout38 (k : Nat) (x0 : BitVec 2) (x1 : BitVec 2) (h : allFree k [(23, 2), (20, 2)] = true) :
    fld 2 (BitVec.ofNat 32 (psum k [bv 23 x0, bv 20 x1])) 23 = x0 ∧
    fld 2 (BitVec.ofNat 32 (psum k [bv 23 x0, bv 20 x1])) 20 = x1 :=
  ⟨fld_psum (x := x0) [] [bv 20 x1] _ rfl (allFree_get h 0 rfl rfl),
   fld_psum (x := x1) [bv 23 x0] [] _ rfl (allFree_get h 1 rfl rfl)⟩

theorem layout39 (k : Nat) (x0 : BitVec 2) (x1 : RegCode) (h : allFree k [(20, 2), (6, 6)] = true) :
    fld 2 (BitVec.ofNat 32 (psum k [bv 20 x0, bv 6 x1])) 20 = x0 ∧
    fld 6 (BitVec.ofNat 32 (psum k [bv 20 x0, bv 6 x1])) 6 = x1 :=
  ⟨fld_psum (x := x0) [] [bv 6 x1] _ rfl (allFree_get h 0 rfl rfl),
   fld_psum (x := x1) [bv 20 x0] [] _ rfl (allFree_get h 1 rfl rfl)⟩

theorem layout40 (k : Nat) (x0 : BitVec 2) (x1 : RegCode) (h : allFree k [(23, 2), (6, 6)] = true) :
    fld 2 (BitVec.ofNat 32 (psum k [bv 23 x0, bv 6 x1])) 23 = x0 ∧
    fld 6 (BitVec.ofNat 32 (psum k [bv 23 x0, bv 6 x1])) 6 = x1 :=
  ⟨fld_psum (x := x0) [] [bv 6 x1] _ rfl (allFree_get h 0 rfl rfl),
   fld_psum (x := x1) [bv 23 x0] [] _ rfl (allFree_get h 1 rfl rfl)⟩

theorem layout41 (k : Nat) (x0 : RegCode) (x1 : Bool) (h : allFree k [(14, 6), (7, 1)] = true) :
    fld 6 (BitVec.ofNat 32 (psum k [bv 14 x0, bo 7 x1])) 14 = x0 ∧
    flag (BitVec.ofNat 32 (psum k [bv 14 x0, bo 7 x1])) 7 = x1 :=
  ⟨fld_psum (x := x0) [] [bo 7 x1] _ rfl (allFree_get h 0 rfl rfl),
   flag_psum (b := x1) [bv 14 x0] [] _ rfl (allFree_get h 1 rfl rfl)⟩

theorem layout42 (k : Nat) (x0 : BitVec 2) (h : allFree k [(0, 2)] = true) :
    fld 2 (BitVec.ofNat 32 (psum k [bv 0 x0])) 0 = x0 :=
  fld_psum (x := x0) [] [] _ rfl (allFree_get h 0 rfl rfl)

theorem layout43 (k : Nat) (x0 : RegCode) (h : allFree k [(20, 6)] = true) :
    fld 6 (BitVec.ofNat 32 (psum k [bv 20 x0])) 20 = x0 :=
  fld_psum (x := x0) [] [] _ rfl (allFree_get h 0 rfl rfl)

theorem layout44 (k : Nat) (x0 : RegCode) (x1 : Scope) (h : allFree k [(20, 6), (0, 3)] = true) :
    fld 6 (BitVec.ofNat 32 (psum k [bv 20 x0, scp 0 x1])) 20 = x0 ∧
    (∀ f, withScope (bits (BitVec.ofNat 32 (psum k [bv 20 x0, scp 0 x1])) 2 0) f = .ok (f x1)) :=
  ⟨fld_psum (x := x0) [] [scp 0 x1] _ rfl (allFree_get h 0 rfl rfl),
   fun _ => scope_psum (sc := x1) [bv 20 x0] [] _ rfl (allFree_get h 1 rfl rfl) rfl⟩

theorem layout45 (k : Nat) (x0 : RegCode) (x1 : RegCode) (x2 : Bool) (x3 : Bool) (h : allFree k [(14, 6), (8, 6), (7, 1), (6, 1)] = true) :
    fld 6 (BitVec.ofNat 32 (psum k [bv 14 x0, bv 8 x1, bo 7 x2, bo 6 x3])) 14 = x0 ∧
    fld 6 (BitVec.ofNat 32 (psum k [bv 14 x0, bv 8 x1, bo 7 x2, bo 6 x3])) 8 = x1 ∧
    flag (BitVec.ofNat 32 (psum k [bv 14 x0, bv 8 x1, bo 7 x2, bo 6 x3])) 7 = x2 ∧
    flag (BitVec.ofNat 32 (psum k [bv 14 x0, bv 8 x1, bo 7 x2, bo 6 x3])) 6 = x3 :=
  ⟨fld_psum (x := x0) [] [bv 8 x1, bo 7 x2, bo 6 x3] _ rfl (allFree_get h 0 rfl rfl),
   fld_psum (x := x1) [bv 14 x0] [bo 7 x2, bo 6 x3] _ rfl (allFree_get h 1 rfl rfl),
   flag_psum (b := x2) [bv 14 x0, bv 8 x1] [bo 6 x3] _ rfl (allFree_get h 2 rfl rfl),
   flag_psum (b := x3) [bv 14 x0, bv 8 x1, bo 7 x2] [] _ rfl (allFree_get h 3 rfl rfl)⟩

theorem layout46 (k : Nat) (x0 : RegCode) (x1 : RegCode) (x2 : Bool) (x3 : Bool) (x4 : Scope) (h : allFree k [(14, 6), (8, 6), (7, 1), (6, 1), (0, 3)] = true) :
    fld 6 (BitVec.ofNat 32 (psum k [bv 14 x0, bv 8 x1, bo 7 x2, bo 6 x3, scp 0 x4])) 14 = x0 ∧
    fld 6 (BitVec.ofNat 32 (psum k [bv 14 x0, bv 8 x1, bo 7 x2, bo 6 x3, scp 0 x4])) 8 = x1 ∧
    flag (BitVec.ofNat 32 (psum k [bv 14 x0, bv 8 x1, bo 7 x2, bo 6 x3, scp 0 x4])) 7 = x2 ∧
    flag (BitVec.ofNat 32 (psum k [bv 14 x0, bv 8 x1, bo 7 x2, bo 6 x3, scp 0 x4])) 6 = x3 ∧
    (∀ f, withScope (bits (BitVec.ofNat 32 (psum k [bv 14 x0, bv 8 x1, bo 7 x2, bo 6 x3, scp 0 x4])) 2 0) f = .ok (f x4)) :=
  ⟨fld_psum (x := x0) [] [bv 8 x1, bo 7 x2, bo 6 x3, scp 0 x4] _ rfl (allFree_get h 0 rfl rfl),
   fld_psum (x := x1) [bv 14 x0] [bo 7 x2, bo 6 x3, scp 0 x4] _ rfl (allFree_get h 1 rfl rfl),
   flag_psum (b := x2) [bv 14 x0, bv 8 x1] [bo 6 x3, scp 0 x4] _ rfl (allFree_get h 2 rfl rfl),
   flag_psum (b := x3) [bv 14 x0, bv 8 x1, bo 7 x2] [scp 0 x4] _ rfl (allFree_get h 3 rfl rfl),
   fun _ => scope_psum (sc := x4) [bv 14 x0, bv 8 x1, bo 7 x2, bo 6 x3] [] _ rfl (allFree_get h 4 rfl rfl) rfl⟩

theorem layout47 (k : Nat) (x0 : RegCode) (x1 : RegCode) (x2 : BitVec 2) (h : allFree k [(20, 6), (8, 6), (0, 2)] = true) :
    fld 6 (BitVec.ofNat 32 (psum k [bv 20 x0, bv 8 x1, bv 0 x2])) 20 = x0 ∧
    fld 6 (BitVec.ofNat 32 (psum k [bv 20 x0, bv 8 x1, bv 0 x2])) 8 = x1 ∧
    fld 2 (BitVec.ofNat 32 (psum k [bv 20 x0, bv 8 x1, bv 0 x2])) 0 = x2 :=
  ⟨fld_psum (x := x0) [] [bv 8 x1, bv 0 x2] _ rfl (allFree_get h 0 rfl rfl),
   fld_psum (x := x1) [bv 20 x0] [bv 0 x2] _ rfl (allFree_get h 1 rfl rfl),
   fld_psum (x := x2) [bv 20 x0, bv 8 x1] [] _ rfl (allFree_get h 2 rfl rfl)⟩

theorem layout48 (k : Nat) (x0 : RegCode) (x1 : RegCode) (x2 : RegCode) (x3 : BitVec 2) (x4 : BitVec 2) (x5 : BitVec 4) (h : allFree k [(20, 6), (14, 6), (8, 6), (6, 2), (4, 2), (0, 4)] = true) :
    fld 6 (BitVec.ofNat 32 (psum k [bv 20 x0, bv 14 x1, bv 8 x2, bv 6 x3, bv 4 x4, bv 0 x5])) 20 = x0 ∧
    fld 6 (BitVec.ofNat 32 (psum k [bv 20 x0, bv 14 x1, bv 8 x2, bv 6 x3, bv 4 x4, bv 0 x5])) 14 = x1 ∧
    fld 6 (BitVec.ofNat 32 (psum k [bv 20 x0, bv 14 x1, bv 8 x2, bv 6 x3, bv 4 x4, bv 0 x5])) 8 = x2 ∧
    fld 2 (BitVec.ofNat 32 (psum k [bv 20 x0, bv 14 x1, bv 8 x2, bv 6 x3, bv 4 x4, bv 0 x5])) 6 = x3 ∧
    fld 2 (BitVec.ofNat 32 (psum k [bv 20 x0, bv 14 x1, bv 8 x2, bv 6 x3, bv 4 x4, bv 0 x5])) 4 = x4 ∧
    fld 4 (BitVec.ofNat 32 (psum k [bv 20 x0, bv 14 x1, bv 8 x2, bv 6 x3, bv 4 x4, bv 0 x5])) 0 = x5 :=
  ⟨fld_psum (x := x0) [] [bv 14 x1, bv 8 x2, bv 6 x3, bv 4 x4, bv 0 x5] _ rfl (allFree_get h 0 rfl rfl),
   fld_psum (x := x1) [bv 20 x0] [bv 8 x2, bv 6 x3, bv 4 x4, bv 0 x5] _ rfl (allFree_get h 1 rfl rfl),
   fld_psum (x := x2) [bv 20 x0, bv 14 x1] [bv 6 x3, bv 4 x4, bv 0 x5] _ rfl (allFree_get h 2 rfl rfl),
   fld_psum (x := x3) [bv 20 x0, bv 14 x1, bv 8 x2] [bv 4 x4, bv 0 x5] _ rfl (allFree_get h 3 rfl rfl),
   fld_psum (x := x4) [bv 20 x0, bv 14 x1, bv 8 x2, bv 6 x3] [bv 0 x5] _ rfl (allFree_get h 4 rfl rfl),
   fld_psum (x := x5) [bv 20 x0, bv 14 x1, bv 8 x2, bv 6 x3, bv 4 x4] [] _ rfl (allFree_get h 5 rfl rfl)⟩

theorem layout49 (k : Nat) (x0 : RegCode) (x1 : RegCode) (x2 : RegCode) (x3 : Bool) (x4 : Bool) (x5 : Scope) (h : allFree k [(20, 6), (14, 6), (8, 6), (7, 1), (6, 1), (0, 3)] = true) :
    fld 6 (BitVec.ofNat 32 (psum k [bv 20 x0, bv 14 x1, bv 8 x2, bo 7 x3, bo 6 x4, scp 0 x5])) 20 = x0 ∧
    fld 6 (BitVec.ofNat 32 (psum k [bv 20 x0, bv 14 x1, bv 8 x2, bo 7 x3, bo 6 x4, scp 0 x5])) 14 = x1 ∧
    fld 6 (BitVec.ofNat 32 (psum k [bv 20 x0, bv 14 x1, bv 8 x2, bo 7 x3, bo 6 x4, scp 0 x5])) 8 = x2 ∧
    flag (BitVec.ofNat 32 (psum k [bv 20 x0, bv 14 x1, bv 8 x2, bo 7 x3, bo 6 x4, scp 0 x5])) 7 = x3 ∧
    flag (BitVec.ofNat 32 (psum k [bv 20 x0, bv 14 x1, bv 8 x2, bo 7 x3, bo 6 x4, scp 0 x5])) 6 = x4 ∧
    (∀ f, withScope (bits (BitVec.ofNat 32 (psum k [bv 20 x0, bv 14 x1, bv 8 x2, bo 7 x3, bo 6 x4, scp 0 x5])) 2 0) f = .ok (f x5)) :=
  ⟨fld_psum (x := x0) [] [bv 14 x1, bv 8 x2, bo 7 x3, bo 6 x4, scp 0 x5] _ rfl (allFree_get h 0 rfl rfl),
   fld_psum (x := x1) [bv 20 x0] [bv 8 x2, bo 7 x3, bo 6 x4, scp 0 x5] _ rfl (allFree_get h 1 rfl rfl),
   fld_psum (x := x2) [bv 20 x0, bv 14 x1] [bo 7 x3, bo 6 x4, scp 0 x5] _ rfl (allFree_get h 2 rfl rfl),
   flag_psum (b := x3) [bv 20 x0, bv 14 x1, bv 8 x2] [bo 6 x4, scp 0 x5] _ rfl (allFree_get h 3 rfl rfl),
   flag_psum (b := x4) [bv 20 x0, bv 14 x1, bv 8 x2, bo 7 x3] [scp 0 x5] _ rfl (allFree_get h 4 rfl rfl),
   fun _ => scope_psum (sc := x5) [bv 20 x0, bv 14 x1, bv 8 x2, bo 7 x3, bo 6 x4] [] _ rfl (allFree_get h 5 rfl rfl) rfl⟩

theorem layout50 (k : Nat) (x0 : BitVec 2) (x1 : RegCode) (x2 : RegCode) (x3 : Scope) (h : allFree k [(20, 2), (14, 6), (8, 6), (5, 3)] = true) :
    fld 2 (BitVec.ofNat 32 (psum k [bv 20 x0, bv 14 x1, bv 8 x2, scp 5 x3])) 20 = x0 ∧
    fld 6 (BitVec.ofNat 32 (psum k [bv 20 x0, bv 14 x1, bv 8 x2, scp 5 x3])) 14 = x1 ∧
    fld 6 (BitVec.ofNat 32 (psum k [bv 20 x0, bv 14 x1, bv 8 x2, scp 5 x3])) 8 = x2 ∧
    (∀ f, withScope (bits (BitVec.ofNat 32 (psum k [bv 20 x0, bv 14 x1, bv 8 x2, scp 5 x3])) 7 5) f = .ok (f x3)) :=
  ⟨fld_psum (x := x0) [] [bv 14 x1, bv 8 x2, scp 5 x3] _ rfl (allFree_get h 0 rfl rfl),
   fld_psum (x := x1) [bv 20 x0] [bv 8 x2, scp 5 x3] _ rfl (allFree_get h 1 rfl rfl),
   fld_psum (x := x2) [bv 20 x0, bv 14 x1] [scp 5 x3] _ rfl (allFree_get h 2 rfl rfl),
   fun _ => scope_psum (sc := x3) [bv 20 x0, bv 14 x1, bv 8 x2] [] _ rfl (allFree_get h 3 rfl rfl) rfl⟩

theorem layout51 (k : Nat) (x0 : BitVec 2) (x1 : Scope) (h : allFree k [(20, 2), (5, 3)] = true) :
    fld 2 (BitVec.ofNat 32 (psum k [bv 20 x0, scp 5 x1])) 20 = x0 ∧
    (∀ f, withScope (bits (BitVec.ofNat 32 (psum k [bv 20 x0, scp 5 x1])) 7 5) f = .ok (f x1)) :=
  ⟨fld_psum (x := x0) [] [scp 5 x1] _ rfl (allFree_get h 0 rfl rfl),
   fun _ => scope_psum (sc := x1) [bv 20 x0] [] _ rfl (allFree_get h 1 rfl rfl) rfl⟩

theorem layout52 (k : Nat) (x0 : BitVec 4) (x1 : BitVec 2) (x2 : RegCode) (x3 : BitVec 5) (h : allFree k [(22, 4), (20, 2), (14, 6), (9, 5)] = true) :
    fld 4 (BitVec.ofNat 32 (psum k [bv 22 x0, bv 20 x1, bv 14 x2, bv 9 x3])) 22 = x0 ∧
    fld 2 (BitVec.ofNat 32 (psum k [bv 22 x0, bv 20 x1, bv 14 x2, bv 9 x3])) 20 = x1 ∧
    fld 6 (BitVec.ofNat 32 (psum k [bv 22 x0, bv 20 x1, bv 14 x2, bv 9 x3])) 14 = x2 ∧
    fld 5 (BitVec.ofNat 32 (psum k [bv 22 x0, bv 20 x1, bv 14 x2, bv 9 x3])) 9 = x3 :=
  ⟨fld_psum (x := x0) [] [bv 20 x1, bv 14 x2, bv 9 x3] _ rfl (allFree_get h 0 rfl rfl),
   fld_psum (x := x1) [bv 22 x0] [bv 14 x2, bv 9 x3] _ rfl (allFree_get h 1 rfl rfl),
   fld_psum (x := x2) [bv 22 x0, bv 20 x1] [bv 9 x3] _ rfl (allFree_get h 2 rfl rfl),
   fld_psum (x := x3) [bv 22 x0, bv 20 x1, bv 14 x2] [] _ rfl (allFree_get h 3 rfl rfl)⟩

theorem layout53 (k : Nat) (x0 : RegCode) (x1 : BitVec 4) (x2 : Bool) (h : allFree k [(14, 6), (8, 4), (7, 1)] = true) :
    fld 6 (BitVec.ofNat 32 (psum k [bv 14 x0, bv 8 x1, bo 7 x2])) 14 = x0 ∧
    fld 4 (BitVec.ofNat 32 (psum k [bv 14 x0, bv 8 x1, bo 7 x2])) 8 = x1 ∧
    flag (BitVec.ofNat 32 (psum k [bv 14 x0, bv 8 x1, bo 7 x2])) 7 = x2 :=
  ⟨fld_psum (x := x0) [] [bv 8 x1, bo 7 x2] _ rfl (allFree_get h 0 rfl rfl),
   fld_psum (x := x1) [bv 14 x0] [bo 7 x2] _ rfl (allFree_get h 1 rfl rfl),
   flag_psum (b := x2) [bv 14 x0, bv 8 x1] [] _ rfl (allFree_get h 2 rfl rfl)⟩

theorem layout54 (k : Nat) (x0 : RegCode) (x1 : Scope) (x2 : Bool) (x3 : BitVec 2) (x4 : BitVec 2) (h : allFree k [(14, 6), (8, 3), (7, 1), (2, 2), (0, 2)] = true) :
    fld 6 (BitVec.ofNat 32 (psum k [bv 14 x0, scp 8 x1, bo 7 x2, bv 2 x3, bv 0 x4])) 14 = x0 ∧
    (∀ f, withScope (bits (BitVec.ofNat 32 (psum k [bv 14 x0, scp 8 x1, bo 7 x2, bv 2 x3, bv 0 x4])) 10 8) f = .ok (f x1)) ∧
    flag (BitVec.ofNat 32 (psum k [bv 14 x0, scp 8 x1, bo 7 x2, bv 2 x3, bv 0 x4])) 7 = x2 ∧
    fld 2 (BitVec.ofNat 32 (psum k [bv 14 x0, scp 8 x1, bo 7 x2, bv 2 x3, bv 0 x4])) 2 = x3 ∧
    fld 2 (BitVec.ofNat 32 (psum k [bv 14 x0, scp 8 x1, bo 7 x2, bv 2 x3, bv 0 x4])) 0 = x4 :=
  ⟨fld_psum (x := x0) [] [scp 8 x1, bo 7 x2, bv 2 x3, bv 0 x4] _ rfl (allFree_get h 0 rfl rfl),
   fun _ => scope_psum (sc := x1) [bv 14 x0] [bo 7 x2, bv 2 x3, bv 0 x4] _ rfl (allFree_get h 1 rfl rfl) rfl,
   flag_psum (b := x2) [bv 14 x0, scp 8 x1] [bv 2 x3, bv 0 x4] _ rfl (allFree_get h 2 rfl rfl),
   fld_psum (x := x3) [bv 14 x0, scp 8 x1, bo 7 x2] [bv 0 x4] _ rfl (allFree_get h 3 rfl rfl),
   fld_psum (x := x4) [bv 14 x0, scp 8 x1, bo 7 x2, bv 2 x3] [] _ rfl (allFree_get h 4 rfl rfl)⟩

theorem layout55 (k : Nat) (x0 : RegCode) (x1 : BitVec 2) (x2 : BitVec 2) (h : allFree k [(20, 6), (2, 2), (0, 2)] = true) :
    fld 6 (BitVec.ofNat 32 (psum k [bv 20 x0, bv 2 x1, bv 0 x2])) 20 = x0 ∧
    fld 2 (BitVec.ofNat 32 (psum k [bv 20 x0, bv 2 x1, bv 0 x2])) 2 = x1 ∧
    fld 2 (BitVec.ofNat 32 (psum k [bv 20 x0, bv 2 x1, bv 0 x2])) 0 = x2 :=
  ⟨fld_psum (x := x0) [] [bv 2 x1, bv 0 x2] _ rfl (allFree_get h 0 rfl rfl),
   fld_psum (x := x1) [bv 20 x0] [bv 0 x2] _ rfl (allFree_get h 1 rfl rfl),
   fld_psum (x := x2) [bv 20 x0, bv 2 x1] [] _ rfl (allFree_get h 2 rfl rfl)⟩

theorem layout56 (k : Nat) (x0 : BitVec 18) (h : allFree k [(8, 18)] = true) :
    fld 18 (BitVec.ofNat 32 (psum k [bv 8 x0])) 8 = x0 :=
  fld_psum (x := x0) [] [] _ rfl (allFree_get h 0 rfl rfl)

theorem layout57 (k : Nat) (x0 : RegCode) (x1 : BitVec 12) (h : allFree k [(20, 6), (8, 12)] = true) :
    fld 6 (BitVec.ofNat 32 (psum k [bv 20 x0, bv 8 x1])) 20 = x0 ∧
    fld 12 (BitVec.ofNat 32 (psum k [bv 20 x0, bv 8 x1])) 8 = x1 :=
  ⟨fld_psum (x := x0) [] [bv 8 x1] _ rfl (allFree_get h 0 rfl rfl),
   fld_psum (x := x1) [bv 20 x0] [] _ rfl (allFree_get h 1 rfl rfl)⟩

theorem layout58 (k : Nat) (x0 : Scope) (h : allFree k [(0, 3)] = true) :
    (∀ f, withScope (bits (BitVec.ofNat 32 (psum k [scp 0 x0])) 2 0) f = .ok (f x0)) :=
  fun _ => scope_psum (sc := x0) [] [] _ rfl (allFree_get h 0 rfl rfl) rfl

theorem leaf_add {w : W32} (h0 : bits w 5 0 = 0) :
    parse01 w = Except.ok (Instr.add (fld 6 w 20) (fld 6 w 14) (fld 6 w 8) (flag w 7) (flag w 6)) := by
  unfold parse01; rw [h0]; rfl

theorem leaf_sub {w : W32} (h0 : bits w 5 0 = 1) :
    parse01 w = Except.ok (Instr.sub (fld 6 w 20) (fld 6 w 14) (fld 6 w 8) (flag w 7) (flag w 6)) := by
  unfold parse01; rw [h0]; rfl

theorem leaf_mul {w : W32} (h0 : bits w 5 0 = 2) :
    parse01 w = Except.ok (Instr.mul (fld 6 w 20) (fld 6 w 14) (fld 6 w 8) (flag w 7) (flag w 6)) := by
  unfold parse01; rw [h0]; rfl

theorem leaf_mulh {w : W32} (h0 : bits w 5 0 = 3) :
    parse01 w = Except.ok (Instr.mulh (fld 6 w 20) (fld 6 w 14) (fld 6 w 8) (flag w 7) (flag w 6)) := by
  unfold parse01; rw [h0]; rfl

theorem leaf_mulhu {w : W32} (h0 : bits w 5 0 = 4) :
    parse01 w = Except.ok (Instr.mulhu (fld 6 w 20) (fld 6 w 14) (fld 6 w 8) (flag w 7) (flag w 6)) := by
  unfold parse01; rw [h0]; rfl

theorem leaf_div {w : W32} (h0 : bits w 5 0 = 5) :
    parse01 w = Except.ok (Instr.div (fld 6 w 20) (fld 6 w 14) (fld 6 w 8) (flag w 7) (flag w 6)) := by
  unfold parse01; rw [h0]; rfl

theorem leaf_divu {w : W32} (h0 : bits w 5 0 = 6) :
    parse01 w = Except.ok (Instr.divu (fld 6 w 20) (fld 6 w 14) (fld 6 w 8) (flag w 7) (flag w 6)) := by
  unfold parse01; rw [h0]; rfl

theorem leaf_rem {w : W32} (h0 : bits w 5 0 = 7) :
    parse01 w = Except.ok (Instr.rem (fld 6 w 20) (fld 6 w 14) (fld 6 w 8) (flag w 7) (flag w 6)) := by
  unfold parse01; rw [h0]; rfl

theorem leaf_remu {w : W32} (h0 : bits w 5 0 = 8) :
    parse01 w = Except.ok (Instr.remu (fld 6 w 20) (fld 6 w 14) (fld 6 w 8) (flag w 7) (flag w 6)) := by
  unfold parse01; rw [h0]; rfl

theorem leaf_and {w : W32} (h0 : bits w 5 0 = 9) :
    parse01 w = Except.ok (Instr.and (fld 6 w 20) (fld 6 w 14) (fld 6 w 8) (flag w 7) (flag w 6)) := by
  unfold parse01; rw [h0]; rfl

theorem leaf_or {w : W32} (h0 : bits w 5 0 = 10) :
    parse01 w = Except.ok (Instr.or (fld 6 w 20) (fld 6 w 14) (fld 6 w 8) (flag w 7) (flag w 6)) := by
  unfold parse01; rw [h0]; rfl

theorem leaf_xor {w : W32} (h0 : bits w 5 0 = 11) :
    parse01 w = Except.ok (Instr.xor (fld 6 w 20) (fld 6 w 14) (fld 6 w 8) (flag w 7) (flag w 6)) := by
  unfold parse01; rw [h0]; rfl

theorem leaf_andn {w : W32} (h0 : bits w 5 0 = 12) :
    parse01 w = Except.ok (Instr.andn (fld 6 w 20) (fld 6 w 14) (fld 6 w 8) (flag w 7) (flag w 6)) := by
  unfold parse01; rw [h0]; rfl

theorem leaf_sll {w : W32} (h0 : bits w 5 0 = 13) :
    parse01 w = Except.ok (Instr.sll (fld 6 w 20) (fld 6 w 14) (fld 6 w 8) (flag w 7) (flag w 6)) := by
  unfold parse01; rw [h0]; rfl

theorem leaf_srl {w : W32} (h0 : bits w 5 0 = 14) :
    parse01 w = Except.ok (Instr.srl (fld 6 w 20) (fld 6 w 14) (fld 6 w 8) (flag w 7) (flag w 6)) := by
  unfold parse01; rw [h0]; rfl

theorem leaf_sra {w : W32} (h0 : bits w 5 0 = 15) :
    parse01 w = Except.ok (Instr.sra (fld 6 w 20) (fld 6 w 14) (fld 6 w 8) (flag w 7) (flag w 6)) := by
  unfold parse01; rw [h0]; rfl

theorem leaf_rol {w : W32} (h0 : bits w 5 0 = 16) :
    parse01 w = Except.ok (Instr.rol (fld 6 w 20) (fld 6 w 14) (fld 6 w 8) (flag w 7) (flag w 6)) := by
  unfold parse01; rw [h0]; rfl

theorem leaf_ror {w : W32} (h0 : bits w 5 0 = 17) :
    parse01 w = Except.ok (Instr.ror (fld 6 w 20) (fld 6 w 14) (fld 6 w 8) (flag w 7) (flag w 6)) := by
  unfold parse01; rw [h0]; rfl

theorem leaf_min {w : W32} (h0 : bits w 5 0 = 18) :
    parse01 w = Except.ok (Instr.min (fld 6 w 20) (fld 6 w 14) (fld 6 w 8) (flag w 7) (flag w 6)) := by
  unfold parse01; rw [h0]; rfl

theorem leaf_max {w : W32} (h0 : bits w 5 0 = 19) :
    parse01 w = Except.ok (Instr.max (fld 6 w 20) (fld 6 w 14) (fld 6 w 8) (flag w 7) (flag w 6)) := by
  unfold parse01; rw [h0]; rfl

theorem leaf_minu {w : W32} (h0 : bits w 5 0 = 20) :
    parse01 w = Except.ok (Instr.minu (fld 6 w 20) (fld 6 w 14) (fld 6 w 8) (flag w 7) (flag w 6)) := by
  unfold parse01; rw [h0]; rfl

theorem leaf_maxu {w : W32} (h0 : bits w 5 0 = 21) :
    parse01 w = Except.ok (Instr.maxu (fld 6 w 20) (fld 6 w 14) (fld 6 w 8) (flag w 7) (flag w 6)) := by
  unfold parse01; rw [h0]; rfl

theorem leaf_slt {w : W32} (h0 : bits w 5 0 = 22) :
    parse01 w = Except.ok (Instr.slt (fld 6 w 20) (fld 6 w 14) (fld 6 w 8) (flag w 7) (flag w 6)) := by
  unfold parse01; rw [h0]; rfl

theorem leaf_sltu {w : W32} (h0 : bits w 5 0 = 23) :
    parse01 w = Except.ok (Instr.sltu (fld 6 w 20) (fld 6 w 14) (fld 6 w 8) (flag w 7) (flag w 6)) := by
  unfold parse01; rw [h0]; rfl

theorem leaf_seq {w : W32} (h0 : bits w 5 0 = 24) :
    parse01 w = Except.ok (Instr.seq (fld 6 w 20) (fld 6 w 14) (fld 6 w 8) (flag w 7) (flag w 6)) := by
  unfold parse01; rw [h0]; rfl

theorem leaf_addw {w : W32} (h0 : bits w 5 0 = 0) :
    parse02 w = Except.ok (Instr.addw (fld 6 w 20) (fld 6 w 14) (fld 6 w 8) (flag w 7) (flag w 6)) := by
  unfold parse02; rw [h0]; rfl

theorem leaf_subw {w : W32} (h0 : bits w 5 0 = 1) :
    parse02 w = Except.ok (Instr.subw (fld 6 w 20) (fld 6 w 14) (fld 6 w 8) (flag w 7) (flag w 6)) := by
  unfold parse02; rw [h0]; rfl

theorem leaf_mulw {w : W32} (h0 : bits w 5 0 = 2) :
    parse02 w = Except.ok (Instr.mulw (fld 6 w 20) (fld 6 w 14) (fld 6 w 8) (flag w 7) (flag w 6)) := by
  unfold parse02; rw [h0]; rfl

theorem leaf_divw {w : W32} (h0 : bits w 5 0 = 5) :
    parse02 w = Except.ok (Instr.divw (fld 6 w 20) (fld 6 w 14) (fld 6 w 8) (flag w 7) (flag w 6)) := by
  unfold parse02; rw [h0]; rfl

theorem leaf_divuw {w : W32} (h0 : bits w 5 0 = 6) :
    parse02 w = Except.ok (Instr.divuw (fld 6 w 20) (fld 6 w 14) (fld 6 w 8) (flag w 7) (flag w 6)) := by
  unfold parse02; rw [h0]; rfl

theorem leaf_remw {w : W32} (h0 : bits w 5 0 = 7) :
    parse02 w = Except.ok (Instr.remw (fld 6 w 20) (fld 6 w 14) (fld 6 w 8) (flag w 7) (flag w 6)) := by
  unfold parse02; rw [h0]; rfl

theorem leaf_remuw {w : W32} (h0 : bits w 5 0 = 8) :
    parse02 w = Except.ok (Instr.remuw (fld 6 w 20) (fld 6 w 14) (fld 6 w 8) (flag w 7) (flag w 6)) := by
  unfold parse02; rw [h0]; rfl

theorem leaf_sllw {w : W32} (h0 : bits w 5 0 = 13) :
    parse02 w = Except.ok (Instr.sllw (fld 6 w 20) (fld 6 w 14) (fld 6 w 8) (flag w 7) (flag w 6)) := by
  unfold parse02; rw [h0]; rfl

theorem leaf_srlw {w : W32} (h0 : bits w 5 0 = 14) :
    parse02 w = Except.ok (Instr.srlw (fld 6 w 20) (fld 6 w 14) (fld 6 w 8) (flag w 7) (flag w 6)) := by
  unfold parse02; rw [h0]; rfl

theorem leaf_sraw {w : W32} (h0 : bits w 5 0 = 15) :
    parse02 w = Except.ok (Instr.sraw (fld 6 w 20) (fld 6 w 14) (fld 6 w 8) (flag w 7) (flag w 6)) := by
  unfold parse02; rw [h0]; rfl

theorem leaf_rolw {w : W32} (h0 : bits w 5 0 = 16) :
    parse02 w = Except.ok (Instr.rolw (fld 6 w 20) (fld 6 w 14) (fld 6 w 8) (flag w 7) (flag w 6)) := by
  unfold parse02; rw [h0]; rfl

theorem leaf_rorw {w : W32} (h0 : bits w 5 0 = 17) :
    parse02 w = Except.ok (Instr.rorw (fld 6 w 20) (fld 6 w 14) (fld 6 w 8) (flag w 7) (flag w 6)) := by
  unfold parse02; rw [h0]; rfl

theorem leaf_andi {w : W32} (h0 : bits w 13 12 = 0) :
    parse05 w = Except.ok (Instr.andi (fld 6 w 20) (fld 6 w 14) (fld 12 w 0)) := by
  unfold parse05; rw [h0]; rfl

theorem leaf_ori {w : W32} (h0 : bits w 13 12 = 1) :
    parse05 w = Except.ok (Instr.ori (fld 6 w 20) (fld 6 w 14) (fld 12 w 0)) := by
  unfold parse05; rw [h0]; rfl

theorem leaf_xori {w : W32} (h0 : bits w 13 12 = 2) :
    parse05 w = Except.ok (Instr.xori (fld 6 w 20) (fld 6 w 14) (fld 12 w 0)) := by
  unfold parse05; rw [h0]; rfl

theorem leaf_slli {w : W32} (h0 : bits w 13 11 = 0) :
    parse06 w = Except.ok (Instr.slli (fld 6 w 20) (fld 6 w 14) (fld 6 w 0)) := by
  unfold parse06; rw [h0]; rfl

theorem leaf_slliw {w : W32} (h0 : bits w 13 11 = 1) :
    parse06 w = Except.ok (Instr.slliw (fld 6 w 20) (fld 6 w 14) (fld 5 w 0)) := by
  unfold parse06; rw [h0]; rfl

theorem leaf_srli {w : W32} (h0 : bits w 13 11 = 2) :
    parse06 w = Except.ok (Instr.srli (fld 6 w 20) (fld 6 w 14) (fld 6 w 0)) := by
  unfold parse06; rw [h0]; rfl

theorem leaf_srliw {w : W32} (h0 : bits w 13 11 = 3) :
    parse06 w = Except.ok (Instr.srliw (fld 6 w 20) (fld 6 w 14) (fld 5 w 0)) := by
  unfold parse06; rw [h0]; rfl

theorem leaf_srai {w : W32} (h0 : bits w 13 11 = 4) :
    parse06 w = Except.ok (Instr.srai (fld 6 w 20) (fld 6 w 14) (fld 6 w 0)) := by
  unfold parse06; rw [h0]; rfl

theorem leaf_sraiw {w : W32} (h0 : bits w 13 11 = 5) :
    parse06 w = Except.ok (Instr.sraiw (fld 6 w 20) (fld 6 w 14) (fld 5 w 0)) := by
  unfold parse06; rw [h0]; rfl

theorem leaf_rori {w : W32} (h0 : bits w 13 11 = 6) :
    parse06 w = Except.ok (Instr.rori (fld 6 w 20) (fld 6 w 14) (fld 6 w 0)) := by
  unfold parse06; rw [h0]; rfl

theorem leaf_roriw {w : W32} (h0 : bits w 13 11 = 7) :
    parse06 w = Except.ok (Instr.roriw (fld 6 w 20) (fld 6 w 14) (fld 5 w 0)) := by
  unfold parse06; rw [h0]; rfl

theorem leaf_slti {w : W32} (h0 : bits w 13 12 = 0) :
    parse07 w = Except.ok (Instr.slti (fld 6 w 20) (fld 6 w 14) (fld 12 w 0)) := by
  unfold parse07; rw [h0]; rfl

theorem leaf_sltiu {w : W32} (h0 : bits w 13 12 = 1) :
    parse07 w = Except.ok (Instr.sltiu (fld 6 w 20) (fld 6 w 14) (fld 12 w 0)) := by
  unfold parse07; rw [h0]; rfl

theorem leaf_seqi {w : W32} (h0 : bits w 13 12 = 2) :
    parse07 w = Except.ok (Instr.seqi (fld 6 w 20) (fld 6 w 14) (fld 12 w 0)) := by
  unfold parse07; rw [h0]; rfl

theorem leaf_brEq {w : W32} (h0 : bits w 13 11 = 0) :
    parse0A w = Except.ok (Instr.brEq (fld 6 w 20) (fld 6 w 14) (fld 11 w 0)) := by
  unfold parse0A; rw [h0]; rfl

theorem leaf_brNe {w : W32} (h0 : bits w 13 11 = 1) :
    parse0A w = Except.ok (Instr.brNe (fld 6 w 20) (fld 6 w 14) (fld 11 w 0)) := by
  unfold parse0A; rw [h0]; rfl

theorem leaf_brLt {w : W32} (h0 : bits w 13 11 = 2) :
    parse0A w = Except.ok (Instr.brLt (fld 6 w 20) (fld 6 w 14) (fld 11 w 0)) := by
  unfold parse0A; rw [h0]; rfl

theorem leaf_brGe {w : W32} (h0 : bits w 13 11 = 3) :
    parse0A w = Except.ok (Instr.brGe (fld 6 w 20) (fld 6 w 14) (fld 11 w 0)) := by
  unfold parse0A; rw [h0]; rfl

theorem leaf_brLtu {w : W32} (h0 : bits w 13 11 = 4) :
    parse0A w = Except.ok (Instr.brLtu (fld 6 w 20) (fld 6 w 14) (fld 11 w 0)) := by
  unfold parse0A; rw [h0]; rfl

theorem leaf_brGeu {w : W32} (h0 : bits w 13 11 = 5) :
    parse0A w = Except.ok (Instr.brGeu (fld 6 w 20) (fld 6 w 14) (fld 11 w 0)) := by
  unfold parse0A; rw [h0]; rfl

theorem leaf_bzEqz {w : W32} (h0 : bits w 19 18 = 0) :
    parse0B w = Except.ok (Instr.bzEqz (fld 6 w 20) (fld 18 w 0)) := by
  unfold parse0B; rw [h0]; rfl

theorem leaf_bzNez {w : W32} (h0 : bits w 19 18 = 1) :
    parse0B w = Except.ok (Instr.bzNez (fld 6 w 20) (fld 18 w 0)) := by
  unfold parse0B; rw [h0]; rfl

theorem leaf_bzLtz {w : W32} (h0 : bits w 19 18 = 2) :
    parse0B w = Except.ok (Instr.bzLtz (fld 6 w 20) (fld 18 w 0)) := by
  unfold parse0B; rw [h0]; rfl

theorem leaf_bzGez {w : W32} (h0 : bits w 19 18 = 3) :
    parse0B w = Except.ok (Instr.bzGez (fld 6 w 20) (fld 18 w 0)) := by
  unfold parse0B; rw [h0]; rfl

theorem leaf_sel {w : W32} (h0 : bits w 5 0 = 0) :
    parse0F w = Except.ok (Instr.sel (fld 6 w 20) (fld 6 w 14) (fld 6 w 8) (flag w 7) (flag w 6)) := by
  unfold parse0F; rw [h0]; rfl

theorem leaf_clz {w : W32} (h0 : bits w 5 0 = 1) :
    parse0F w = Except.ok (Instr.clz (fld 6 w 20) (fld 6 w 14) (flag w 7)) := by
  unfold parse0F; rw [h0]; rfl

theorem leaf_ctz {w : W32} (h0 : bits w 5 0 = 2) :
    parse0F w = Except.ok (Instr.ctz (fld 6 w 20) (fld 6 w 14) (flag w 7)) := by
  unfold parse0F; rw [h0]; rfl

theorem leaf_popc {w : W32} (h0 : bits w 5 0 = 3) :
    parse0F w = Except.ok (Instr.popc (fld 6 w 20) (fld 6 w 14) (flag w 7)) := by
  unfold parse0F; rw [h0]; rfl

theorem leaf_brev {w : W32} (h0 : bits w 5 0 = 4) :
    parse0F w = Except.ok (Instr.brev (fld 6 w 20) (fld 6 w 14) (flag w 7)) := by
  unfold parse0F; rw [h0]; rfl

theorem leaf_bswap {w : W32} (h0 : bits w 5 0 = 5) :
    parse0F w = Except.ok (Instr.bswap (fld 6 w 20) (fld 6 w 14) (flag w 7)) := by
  unfold parse0F; rw [h0]; rfl

theorem leaf_bfx {w : W32} (h0 : bits w 5 0 = 6) :
    parse0F w = Except.ok (Instr.bfx (fld 6 w 20) (fld 6 w 14) (fld 6 w 8) (flag w 7) (flag w 6)) := by
  unfold parse0F; rw [h0]; rfl

theorem leaf_bfxu {w : W32} (h0 : bits w 5 0 = 7) :
    parse0F w = Except.ok (Instr.bfxu (fld 6 w 20) (fld 6 w 14) (fld 6 w 8) (flag w 7) (flag w 6)) := by
  unfold parse0F; rw [h0]; rfl

theorem leaf_bfi {w : W32} (h0 : bits w 5 0 = 8) :
    parse0F w = Except.ok (Instr.bfi (fld 6 w 20) (fld 6 w 14) (fld 6 w 8) (flag w 7) (flag w 6)) := by
  unfold parse0F; rw [h0]; rfl

theorem leaf_ldx {w : W32} (h0 : bits w 5 4 = 0) :
    parse12 w = Except.ok (Instr.ldx (fld 6 w 20) (fld 6 w 14) (fld 6 w 8) (flag w 7) (flag w 6) (fld 2 w 2) (flag w 1)) := by
  unfold parse12; rw [h0]; rfl

theorem leaf_stx {w : W32} (h0 : bits w 5 4 = 1) :
    parse12 w = Except.ok (Instr.stx (fld 6 w 20) (fld 6 w 14) (fld 6 w 8) (flag w 7) (flag w 6) (fld 2 w 2)) := by
  unfold parse12; rw [h0]; rfl

theorem leaf_ldxAcq {w : W32} (h0 : bits w 5 4 = 2) :
    parse12 w = withScope (bits w 2 0) fun sc => Instr.ldxAcq (fld 6 w 20) (fld 6 w 14) (fld 6 w 8) (flag w 7) (flag w 6) (flag w 3) sc := by
  unfold parse12; rw [h0]; rfl

theorem leaf_stxRel {w : W32} (h0 : bits w 5 4 = 3) :
    parse12 w = withScope (bits w 2 0) fun sc => Instr.stxRel (fld 6 w 20) (fld 6 w 14) (fld 6 w 8) (flag w 7) (flag w 6) (flag w 3) sc := by
  unfold parse12; rw [h0]; rfl

theorem leaf_ldbitU {w : W32} (h0 : bits w 5 4 = 0) :
    parse13 w = Except.ok (Instr.ldbitU (fld 6 w 20) (fld 6 w 14) (fld 6 w 8) (flag w 7) (flag w 6) (fld 4 w 0)) := by
  unfold parse13; rw [h0]; rfl

theorem leaf_ldbitS {w : W32} (h0 : bits w 5 4 = 1) :
    parse13 w = Except.ok (Instr.ldbitS (fld 6 w 20) (fld 6 w 14) (fld 6 w 8) (flag w 7) (flag w 6) (fld 4 w 0)) := by
  unfold parse13; rw [h0]; rfl

theorem leaf_stbit {w : W32} (h0 : bits w 5 4 = 2) :
    parse13 w = Except.ok (Instr.stbit (fld 6 w 20) (fld 6 w 14) (fld 6 w 8) (flag w 7) (flag w 6) (fld 4 w 0)) := by
  unfold parse13; rw [h0]; rfl

theorem leaf_amoAdd {w : W32} (h0 : bits w 5 0 = 0) :
    parse14 w = withScope (bits w 13 11) fun sc => Instr.amoAdd (fld 6 w 20) (fld 6 w 14) sc (fld 2 w 9) (flag w 8) (flag w 7) := by
  unfold parse14; rw [h0]; rfl

theorem leaf_amoAnd {w : W32} (h0 : bits w 5 0 = 1) :
    parse14 w = withScope (bits w 13 11) fun sc => Instr.amoAnd (fld 6 w 20) (fld 6 w 14) sc (fld 2 w 9) (flag w 8) (flag w 7) := by
  unfold parse14; rw [h0]; rfl

theorem leaf_amoOr {w : W32} (h0 : bits w 5 0 = 2) :
    parse14 w = withScope (bits w 13 11) fun sc => Instr.amoOr (fld 6 w 20) (fld 6 w 14) sc (fld 2 w 9) (flag w 8) (flag w 7) := by
  unfold parse14; rw [h0]; rfl

theorem leaf_amoXor {w : W32} (h0 : bits w 5 0 = 3) :
    parse14 w = withScope (bits w 13 11) fun sc => Instr.amoXor (fld 6 w 20) (fld 6 w 14) sc (fld 2 w 9) (flag w 8) (flag w 7) := by
  unfold parse14; rw [h0]; rfl

theorem leaf_amoMin {w : W32} (h0 : bits w 5 0 = 4) :
    parse14 w = withScope (bits w 13 11) fun sc => Instr.amoMin (fld 6 w 20) (fld 6 w 14) sc (fld 2 w 9) (flag w 8) (flag w 7) := by
  unfold parse14; rw [h0]; rfl

theorem leaf_amoMax {w : W32} (h0 : bits w 5 0 = 5) :
    parse14 w = withScope (bits w 13 11) fun sc => Instr.amoMax (fld 6 w 20) (fld 6 w 14) sc (fld 2 w 9) (flag w 8) (flag w 7) := by
  unfold parse14; rw [h0]; rfl

theorem leaf_amoMinu {w : W32} (h0 : bits w 5 0 = 6) :
    parse14 w = withScope (bits w 13 11) fun sc => Instr.amoMinu (fld 6 w 20) (fld 6 w 14) sc (fld 2 w 9) (flag w 8) (flag w 7) := by
  unfold parse14; rw [h0]; rfl

theorem leaf_amoMaxu {w : W32} (h0 : bits w 5 0 = 7) :
    parse14 w = withScope (bits w 13 11) fun sc => Instr.amoMaxu (fld 6 w 20) (fld 6 w 14) sc (fld 2 w 9) (flag w 8) (flag w 7) := by
  unfold parse14; rw [h0]; rfl

theorem leaf_amoXchg {w : W32} (h0 : bits w 5 0 = 8) :
    parse14 w = withScope (bits w 13 11) fun sc => Instr.amoXchg (fld 6 w 20) (fld 6 w 14) sc (fld 2 w 9) (flag w 8) (flag w 7) := by
  unfold parse14; rw [h0]; rfl

theorem leaf_amoFadd32 {w : W32} (h0 : bits w 5 0 = 9) :
    parse14 w = withScope (bits w 13 11) fun sc => Instr.amoFadd32 (fld 6 w 20) (fld 6 w 14) sc (fld 2 w 9) (flag w 7) := by
  unfold parse14; rw [h0]; rfl

theorem leaf_fenceAcq {w : W32} (h0 : bits w 2 1 = 1) :
    parse16 w = withScope (bits w 5 3) fun sc => Instr.fenceAcq sc := by
  unfold parse16; rw [h0]; rfl

theorem leaf_fenceRel {w : W32} (h0 : bits w 2 1 = 2) :
    parse16 w = withScope (bits w 5 3) fun sc => Instr.fenceRel sc := by
  unfold parse16; rw [h0]; rfl

theorem leaf_fenceFull {w : W32} (h0 : bits w 2 1 = 3) :
    parse16 w = withScope (bits w 5 3) fun sc => Instr.fenceFull sc := by
  unfold parse16; rw [h0]; rfl

theorem leaf_pref {w : W32} (h0 : bits w 13 11 = 0) :
    parse17 w = Except.ok (Instr.pref (fld 6 w 14) (fld 8 w 0)) := by
  unfold parse17; rw [h0]; rfl

theorem leaf_prefL2 {w : W32} (h0 : bits w 13 11 = 1) :
    parse17 w = Except.ok (Instr.prefL2 (fld 6 w 14) (fld 8 w 0)) := by
  unfold parse17; rw [h0]; rfl

theorem leaf_clwb {w : W32} (h0 : bits w 13 11 = 2) :
    parse17 w = withScope (bits w 10 8) fun sc => Instr.clwb (fld 6 w 14) sc (fld 8 w 0) := by
  unfold parse17; rw [h0]; rfl

theorem leaf_clinv {w : W32} (h0 : bits w 13 11 = 3) :
    parse17 w = withScope (bits w 10 8) fun sc => Instr.clinv (fld 6 w 14) sc (fld 8 w 0) := by
  unfold parse17; rw [h0]; rfl

theorem leaf_fadd {w : W32} (h0 : bits w 5 0 = 0) :
    parse18 w = Except.ok (Instr.fadd (fld 6 w 20) (fld 6 w 14) (fld 6 w 8) (flag w 7) (flag w 6)) := by
  unfold parse18; rw [h0]; rfl

theorem leaf_fsub {w : W32} (h0 : bits w 5 0 = 1) :
    parse18 w = Except.ok (Instr.fsub (fld 6 w 20) (fld 6 w 14) (fld 6 w 8) (flag w 7) (flag w 6)) := by
  unfold parse18; rw [h0]; rfl

theorem leaf_fmul {w : W32} (h0 : bits w 5 0 = 2) :
    parse18 w = Except.ok (Instr.fmul (fld 6 w 20) (fld 6 w 14) (fld 6 w 8) (flag w 7) (flag w 6)) := by
  unfold parse18; rw [h0]; rfl

theorem leaf_fdiv {w : W32} (h0 : bits w 5 0 = 3) :
    parse18 w = Except.ok (Instr.fdiv (fld 6 w 20) (fld 6 w 14) (fld 6 w 8) (flag w 7) (flag w 6)) := by
  unfold parse18; rw [h0]; rfl

theorem leaf_fsqrt {w : W32} (h0 : bits w 5 0 = 4) :
    parse18 w = Except.ok (Instr.fsqrt (fld 6 w 20) (fld 6 w 14) (flag w 7)) := by
  unfold parse18; rw [h0]; rfl

theorem leaf_fmin {w : W32} (h0 : bits w 5 0 = 5) :
    parse18 w = Except.ok (Instr.fmin (fld 6 w 20) (fld 6 w 14) (fld 6 w 8) (flag w 7) (flag w 6)) := by
  unfold parse18; rw [h0]; rfl

theorem leaf_fmax {w : W32} (h0 : bits w 5 0 = 6) :
    parse18 w = Except.ok (Instr.fmax (fld 6 w 20) (fld 6 w 14) (fld 6 w 8) (flag w 7) (flag w 6)) := by
  unfold parse18; rw [h0]; rfl

theorem leaf_fabs {w : W32} (h0 : bits w 5 0 = 7) :
    parse18 w = Except.ok (Instr.fabs (fld 6 w 20) (fld 6 w 14) (flag w 7)) := by
  unfold parse18; rw [h0]; rfl

theorem leaf_fneg {w : W32} (h0 : bits w 5 0 = 8) :
    parse18 w = Except.ok (Instr.fneg (fld 6 w 20) (fld 6 w 14) (flag w 7)) := by
  unfold parse18; rw [h0]; rfl

theorem leaf_fcps {w : W32} (h0 : bits w 5 0 = 9) :
    parse18 w = Except.ok (Instr.fcps (fld 6 w 20) (fld 6 w 14) (fld 6 w 8) (flag w 7) (flag w 6)) := by
  unfold parse18; rw [h0]; rfl

theorem leaf_frnd {w : W32} (h0 : bits w 5 0 = 10) :
    parse18 w = Except.ok (Instr.frnd (fld 6 w 20) (fld 6 w 14) (flag w 7)) := by
  unfold parse18; rw [h0]; rfl

theorem leaf_fmac {w : W32} (h0 : bits w 5 0 = 0) :
    parse19 w = Except.ok (Instr.fmac (fld 6 w 20) (fld 6 w 14) (fld 6 w 8) (flag w 7) (flag w 6)) := by
  unfold parse19; rw [h0]; rfl

theorem leaf_fmsc {w : W32} (h0 : bits w 5 0 = 1) :
    parse19 w = Except.ok (Instr.fmsc (fld 6 w 20) (fld 6 w 14) (fld 6 w 8) (flag w 7) (flag w 6)) := by
  unfold parse19; rw [h0]; rfl

theorem leaf_fnmac {w : W32} (h0 : bits w 5 0 = 2) :
    parse19 w = Except.ok (Instr.fnmac (fld 6 w 20) (fld 6 w 14) (fld 6 w 8) (flag w 7) (flag w 6)) := by
  unfold parse19; rw [h0]; rfl

theorem leaf_feq {w : W32} (h0 : bits w 5 0 = 0) :
    parse1A w = Except.ok (Instr.feq (fld 6 w 20) (fld 6 w 14) (fld 6 w 8) (flag w 7) (flag w 6)) := by
  unfold parse1A; rw [h0]; rfl

theorem leaf_flt {w : W32} (h0 : bits w 5 0 = 1) :
    parse1A w = Except.ok (Instr.flt (fld 6 w 20) (fld 6 w 14) (fld 6 w 8) (flag w 7) (flag w 6)) := by
  unfold parse1A; rw [h0]; rfl

theorem leaf_fle {w : W32} (h0 : bits w 5 0 = 2) :
    parse1A w = Except.ok (Instr.fle (fld 6 w 20) (fld 6 w 14) (fld 6 w 8) (flag w 7) (flag w 6)) := by
  unfold parse1A; rw [h0]; rfl

theorem leaf_fclass {w : W32} (h0 : bits w 5 0 = 3) :
    parse1A w = Except.ok (Instr.fclass (fld 6 w 20) (fld 6 w 14) (flag w 7)) := by
  unfold parse1A; rw [h0]; rfl

theorem leaf_fcvt {w : W32} (h0 : bits w 5 0 = 4) :
    parse1A w = Except.ok (Instr.fcvt (fld 6 w 20) (fld 6 w 14) (flag w 7)) := by
  unfold parse1A; rw [h0]; rfl

theorem leaf_fcvti {w : W32} (h0 : bits w 5 0 = 5) :
    parse1A w = Except.ok (Instr.fcvti (fld 6 w 20) (fld 6 w 14) (flag w 7)) := by
  unfold parse1A; rw [h0]; rfl

theorem leaf_fcvtf {w : W32} (h0 : bits w 5 0 = 6) :
    parse1A w = Except.ok (Instr.fcvtf (fld 6 w 20) (fld 6 w 14) (flag w 7)) := by
  unfold parse1A; rw [h0]; rfl

theorem leaf_vadd {w : W32} (h0 : bits w 5 3 = 0) (h1 : bits w 2 0 = 0) :
    parse20 w = withType (bits w 14 12) fun ty => Instr.vadd (fld 3 w 23) (fld 3 w 20) (fld 3 w 17) (fld 2 w 15) ty := by
  unfold parse20; rw [h0]; rw [h1]; rfl

theorem leaf_vsub {w : W32} (h0 : bits w 5 3 = 0) (h1 : bits w 2 0 = 1) :
    parse20 w = withType (bits w 14 12) fun ty => Instr.vsub (fld 3 w 23) (fld 3 w 20) (fld 3 w 17) (fld 2 w 15) ty := by
  unfold parse20; rw [h0]; rw [h1]; rfl

theorem leaf_vmul {w : W32} (h0 : bits w 5 3 = 0) (h1 : bits w 2 0 = 2) :
    parse20 w = withType (bits w 14 12) fun ty => Instr.vmul (fld 3 w 23) (fld 3 w 20) (fld 3 w 17) (fld 2 w 15) ty := by
  unfold parse20; rw [h0]; rw [h1]; rfl

theorem leaf_vmin {w : W32} (h0 : bits w 5 3 = 0) (h1 : bits w 2 0 = 3) :
    parse20 w = withType (bits w 14 12) fun ty => Instr.vmin (fld 3 w 23) (fld 3 w 20) (fld 3 w 17) (fld 2 w 15) ty := by
  unfold parse20; rw [h0]; rw [h1]; rfl

theorem leaf_vmax {w : W32} (h0 : bits w 5 3 = 0) (h1 : bits w 2 0 = 4) :
    parse20 w = withType (bits w 14 12) fun ty => Instr.vmax (fld 3 w 23) (fld 3 w 20) (fld 3 w 17) (fld 2 w 15) ty := by
  unfold parse20; rw [h0]; rw [h1]; rfl

theorem leaf_vand {w : W32} (h0 : bits w 5 3 = 0) (h1 : bits w 2 0 = 5) :
    parse20 w = Except.ok (Instr.vand (fld 3 w 23) (fld 3 w 20) (fld 3 w 17) (fld 2 w 15)) := by
  unfold parse20; rw [h0]; rw [h1]; rfl

theorem leaf_vor {w : W32} (h0 : bits w 5 3 = 0) (h1 : bits w 2 0 = 6) :
    parse20 w = Except.ok (Instr.vor (fld 3 w 23) (fld 3 w 20) (fld 3 w 17) (fld 2 w 15)) := by
  unfold parse20; rw [h0]; rw [h1]; rfl

theorem leaf_vxor {w : W32} (h0 : bits w 5 3 = 0) (h1 : bits w 2 0 = 7) :
    parse20 w = Except.ok (Instr.vxor (fld 3 w 23) (fld 3 w 20) (fld 3 w 17) (fld 2 w 15)) := by
  unfold parse20; rw [h0]; rw [h1]; rfl

theorem leaf_vshl {w : W32} (h0 : bits w 5 3 = 1) (h1 : bits w 2 0 = 0) :
    parse20 w = withType (bits w 14 12) fun ty => Instr.vshl (fld 3 w 23) (fld 3 w 20) (fld 3 w 17) (fld 2 w 15) ty := by
  unfold parse20; rw [h0]; rw [h1]; rfl

theorem leaf_vshr {w : W32} (h0 : bits w 5 3 = 1) (h1 : bits w 2 0 = 1) :
    parse20 w = withType (bits w 14 12) fun ty => Instr.vshr (fld 3 w 23) (fld 3 w 20) (fld 3 w 17) (fld 2 w 15) ty := by
  unfold parse20; rw [h0]; rw [h1]; rfl

theorem leaf_vsra {w : W32} (h0 : bits w 5 3 = 1) (h1 : bits w 2 0 = 2) :
    parse20 w = withType (bits w 14 12) fun ty => Instr.vsra (fld 3 w 23) (fld 3 w 20) (fld 3 w 17) (fld 2 w 15) ty := by
  unfold parse20; rw [h0]; rw [h1]; rfl

theorem leaf_vsel {w : W32} (h0 : bits w 5 3 = 1) (h1 : bits w 2 0 = 3) :
    parse20 w = Except.ok (Instr.vsel (fld 3 w 23) (fld 3 w 20) (fld 3 w 17) (fld 2 w 15)) := by
  unfold parse20; rw [h0]; rw [h1]; rfl

theorem leaf_vcmp {w : W32} (h0 : bits w 5 3 = 2) :
    parse20 w = withType (bits w 14 12) fun ty => Instr.vcmp (fld 2 w 23) (fld 3 w 20) (fld 3 w 17) (fld 2 w 15) ty (fld 3 w 0) := by
  unfold parse20; rw [h0]; rfl

theorem leaf_vcvt {w : W32} (h0 : bits w 5 3 = 3) (h1 : bits w 2 0 = 0) :
    parse20 w = withType (bits w 14 12) fun ty => Instr.vcvt (fld 3 w 23) (fld 3 w 20) (fld 3 w 17) (fld 2 w 15) ty := by
  unfold parse20; rw [h0]; rw [h1]; rfl

theorem leaf_vaddVs {w : W32} (h0 : bits w 5 3 = 4) (h1 : bits w 2 0 = 0) :
    parse20 w = withType (bits w 14 12) fun ty => Instr.vaddVs (fld 3 w 23) (fld 3 w 20) (fld 2 w 15) ty (fld 6 w 6) := by
  unfold parse20; rw [h0]; rw [h1]; rfl

theorem leaf_vsubVs {w : W32} (h0 : bits w 5 3 = 4) (h1 : bits w 2 0 = 1) :
    parse20 w = withType (bits w 14 12) fun ty => Instr.vsubVs (fld 3 w 23) (fld 3 w 20) (fld 2 w 15) ty (fld 6 w 6) := by
  unfold parse20; rw [h0]; rw [h1]; rfl

theorem leaf_vmulVs {w : W32} (h0 : bits w 5 3 = 4) (h1 : bits w 2 0 = 2) :
    parse20 w = withType (bits w 14 12) fun ty => Instr.vmulVs (fld 3 w 23) (fld 3 w 20) (fld 2 w 15) ty (fld 6 w 6) := by
  unfold parse20; rw [h0]; rw [h1]; rfl

theorem leaf_vminVs {w : W32} (h0 : bits w 5 3 = 4) (h1 : bits w 2 0 = 3) :
    parse20 w = withType (bits w 14 12) fun ty => Instr.vminVs (fld 3 w 23) (fld 3 w 20) (fld 2 w 15) ty (fld 6 w 6) := by
  unfold parse20; rw [h0]; rw [h1]; rfl

theorem leaf_vmaxVs {w : W32} (h0 : bits w 5 3 = 4) (h1 : bits w 2 0 = 4) :
    parse20 w = withType (bits w 14 12) fun ty => Instr.vmaxVs (fld 3 w 23) (fld 3 w 20) (fld 2 w 15) ty (fld 6 w 6) := by
  unfold parse20; rw [h0]; rw [h1]; rfl

theorem leaf_vandVs {w : W32} (h0 : bits w 5 3 = 4) (h1 : bits w 2 0 = 5) :
    parse20 w = Except.ok (Instr.vandVs (fld 3 w 23) (fld 3 w 20) (fld 2 w 15) (fld 6 w 6)) := by
  unfold parse20; rw [h0]; rw [h1]; rfl

theorem leaf_vorVs {w : W32} (h0 : bits w 5 3 = 4) (h1 : bits w 2 0 = 6) :
    parse20 w = Except.ok (Instr.vorVs (fld 3 w 23) (fld 3 w 20) (fld 2 w 15) (fld 6 w 6)) := by
  unfold parse20; rw [h0]; rw [h1]; rfl

theorem leaf_vxorVs {w : W32} (h0 : bits w 5 3 = 4) (h1 : bits w 2 0 = 7) :
    parse20 w = Except.ok (Instr.vxorVs (fld 3 w 23) (fld 3 w 20) (fld 2 w 15) (fld 6 w 6)) := by
  unfold parse20; rw [h0]; rw [h1]; rfl

theorem leaf_vshlVs {w : W32} (h0 : bits w 5 3 = 5) (h1 : bits w 2 0 = 0) :
    parse20 w = withType (bits w 14 12) fun ty => Instr.vshlVs (fld 3 w 23) (fld 3 w 20) (fld 2 w 15) ty (fld 6 w 6) := by
  unfold parse20; rw [h0]; rw [h1]; rfl

theorem leaf_vshrVs {w : W32} (h0 : bits w 5 3 = 5) (h1 : bits w 2 0 = 1) :
    parse20 w = withType (bits w 14 12) fun ty => Instr.vshrVs (fld 3 w 23) (fld 3 w 20) (fld 2 w 15) ty (fld 6 w 6) := by
  unfold parse20; rw [h0]; rw [h1]; rfl

theorem leaf_vsraVs {w : W32} (h0 : bits w 5 3 = 5) (h1 : bits w 2 0 = 2) :
    parse20 w = withType (bits w 14 12) fun ty => Instr.vsraVs (fld 3 w 23) (fld 3 w 20) (fld 2 w 15) ty (fld 6 w 6) := by
  unfold parse20; rw [h0]; rw [h1]; rfl

theorem leaf_vselVs {w : W32} (h0 : bits w 5 3 = 5) (h1 : bits w 2 0 = 3) :
    parse20 w = Except.ok (Instr.vselVs (fld 3 w 23) (fld 3 w 20) (fld 2 w 15) (fld 6 w 6)) := by
  unfold parse20; rw [h0]; rw [h1]; rfl

theorem leaf_vcmpVs {w : W32} (h0 : bits w 5 3 = 6) :
    parse20 w = withType (bits w 14 12) fun ty => Instr.vcmpVs (fld 2 w 23) (fld 3 w 20) (fld 2 w 15) ty (fld 6 w 6) (fld 3 w 0) := by
  unfold parse20; rw [h0]; rfl

theorem leaf_vmac {w : W32} (h0 : bits w 5 0 = 0) :
    parse21 w = withType (bits w 14 12) fun ty => Instr.vmac (fld 3 w 23) (fld 3 w 20) (fld 3 w 17) (fld 2 w 15) ty := by
  unfold parse21; rw [h0]; rfl

theorem leaf_vmacVs {w : W32} (h0 : bits w 5 0 = 32) :
    parse21 w = withType (bits w 14 12) fun ty => Instr.vmacVs (fld 3 w 23) (fld 3 w 20) (fld 2 w 15) ty (fld 6 w 6) := by
  unfold parse21; rw [h0]; rfl

theorem leaf_vdot4 {w : W32} (h0 : bits w 5 0 = 1) :
    parse21 w = withType (bits w 14 12) fun ty => Instr.vdot4 (fld 3 w 23) (fld 3 w 20) (fld 3 w 17) (fld 2 w 15) ty := by
  unfold parse21; rw [h0]; rfl

theorem leaf_vdot4Vs {w : W32} (h0 : bits w 5 0 = 33) :
    parse21 w = withType (bits w 14 12) fun ty => Instr.vdot4Vs (fld 3 w 23) (fld 3 w 20) (fld 2 w 15) ty (fld 6 w 6) := by
  unfold parse21; rw [h0]; rfl

theorem leaf_vld {w : W32} (h0 : bits w 5 0 = 0) :
    parse22 w = Except.ok (Instr.vld (fld 3 w 23) (fld 2 w 15) (fld 6 w 6)) := by
  unfold parse22; rw [h0]; rfl

theorem leaf_vst {w : W32} (h0 : bits w 5 0 = 1) :
    parse22 w = Except.ok (Instr.vst (fld 3 w 23) (fld 2 w 15) (fld 6 w 6)) := by
  unfold parse22; rw [h0]; rfl

theorem leaf_vlds {w : W32} (h0 : bits w 5 0 = 2) :
    parse22 w = Except.ok (Instr.vlds (fld 3 w 23) (fld 2 w 15) (fld 6 w 6)) := by
  unfold parse22; rw [h0]; rfl

theorem leaf_vsts {w : W32} (h0 : bits w 5 0 = 3) :
    parse22 w = Except.ok (Instr.vsts (fld 3 w 23) (fld 2 w 15) (fld 6 w 6)) := by
  unfold parse22; rw [h0]; rfl

theorem leaf_vgather {w : W32} (h0 : bits w 5 0 = 0) :
    parse23 w = withType (bits w 14 12) fun ty => Instr.vgather (fld 3 w 23) (fld 3 w 20) (fld 2 w 15) ty (fld 6 w 6) := by
  unfold parse23; rw [h0]; rfl

theorem leaf_vgatherP {w : W32} (h0 : bits w 5 0 = 1) :
    parse23 w = withType (bits w 14 12) fun ty => Instr.vgatherP (fld 3 w 23) (fld 3 w 20) (fld 2 w 17) (fld 2 w 15) ty (fld 6 w 6) := by
  unfold parse23; rw [h0]; rfl

theorem leaf_vscatter {w : W32} (h0 : bits w 5 0 = 2) :
    parse23 w = withType (bits w 14 12) fun ty => Instr.vscatter (fld 3 w 23) (fld 3 w 20) (fld 2 w 15) ty (fld 6 w 6) := by
  unfold parse23; rw [h0]; rfl

theorem leaf_vldbitU {w : W32} (h0 : bits w 5 4 = 1) :
    parse24 w = Except.ok (Instr.vldbitU (fld 3 w 23) (fld 2 w 15) (fld 6 w 6) (fld 4 w 0)) := by
  unfold parse24; rw [h0]; rfl

theorem leaf_vldbitS {w : W32} (h0 : bits w 5 4 = 2) :
    parse24 w = Except.ok (Instr.vldbitS (fld 3 w 23) (fld 2 w 15) (fld 6 w 6) (fld 4 w 0)) := by
  unfold parse24; rw [h0]; rfl

theorem leaf_vstbit {w : W32} (h0 : bits w 5 4 = 3) :
    parse24 w = Except.ok (Instr.vstbit (fld 3 w 23) (fld 2 w 15) (fld 6 w 6) (fld 4 w 0)) := by
  unfold parse24; rw [h0]; rfl

theorem leaf_vbcast {w : W32} (h0 : bits w 5 0 = 0) :
    parse25 w = withType (bits w 14 12) fun ty => Instr.vbcast (fld 3 w 23) (fld 2 w 15) ty (fld 6 w 6) := by
  unfold parse25; rw [h0]; rfl

theorem leaf_vext {w : W32} (h0 : bits w 5 0 = 1) :
    parse25 w = withType (bits w 14 12) fun ty => Instr.vext (fld 3 w 20) (fld 5 w 15) ty (fld 6 w 6) := by
  unfold parse25; rw [h0]; rfl

theorem leaf_vperm {w : W32} (h0 : bits w 5 0 = 2) :
    parse25 w = Except.ok (Instr.vperm (fld 3 w 23) (fld 3 w 20) (fld 3 w 17) (fld 2 w 15)) := by
  unfold parse25; rw [h0]; rfl

theorem leaf_vshuf {w : W32} (h0 : bits w 5 0 = 3) :
    parse25 w = Except.ok (Instr.vshuf (fld 3 w 23) (fld 3 w 20) (fld 3 w 17) (fld 2 w 15) (fld 6 w 6)) := by
  unfold parse25; rw [h0]; rfl

theorem leaf_vrot {w : W32} (h0 : bits w 5 0 = 4) :
    parse25 w = Except.ok (Instr.vrot (fld 3 w 23) (fld 3 w 20) (fld 2 w 15) (fld 6 w 6)) := by
  unfold parse25; rw [h0]; rfl

theorem leaf_vred {w : W32} (h0 : bits w 5 5 = 0) :
    parse26 w = withType (bits w 14 12) fun ty => Instr.vred (fld 3 w 20) (fld 2 w 15) ty (fld 6 w 6) (fld 3 w 0) := by
  unfold parse26; rw [h0]; rfl

theorem leaf_vscan {w : W32} (h0 : bits w 5 5 = 1) :
    parse26 w = withType (bits w 14 12) fun ty => Instr.vscan (fld 3 w 23) (fld 3 w 20) (fld 2 w 15) ty (fld 3 w 0) := by
  unfold parse26; rw [h0]; rfl

theorem leaf_mand {w : W32} (h0 : bits w 5 0 = 0) :
    parse27 w = Except.ok (Instr.mand (fld 2 w 23) (fld 2 w 20) (fld 2 w 17)) := by
  unfold parse27; rw [h0]; rfl

theorem leaf_mor {w : W32} (h0 : bits w 5 0 = 1) :
    parse27 w = Except.ok (Instr.mor (fld 2 w 23) (fld 2 w 20) (fld 2 w 17)) := by
  unfold parse27; rw [h0]; rfl

theorem leaf_mxor {w : W32} (h0 : bits w 5 0 = 2) :
    parse27 w = Except.ok (Instr.mxor (fld 2 w 23) (fld 2 w 20) (fld 2 w 17)) := by
  unfold parse27; rw [h0]; rfl

theorem leaf_mnot {w : W32} (h0 : bits w 5 0 = 3) :
    parse27 w = Except.ok (Instr.mnot (fld 2 w 23) (fld 2 w 20)) := by
  unfold parse27; rw [h0]; rfl

theorem leaf_mpopc {w : W32} (h0 : bits w 5 0 = 4) :
    parse27 w = Except.ok (Instr.mpopc (fld 2 w 20) (fld 6 w 6)) := by
  unfold parse27; rw [h0]; rfl

theorem leaf_mfirst {w : W32} (h0 : bits w 5 0 = 5) :
    parse27 w = Except.ok (Instr.mfirst (fld 2 w 20) (fld 6 w 6)) := by
  unfold parse27; rw [h0]; rfl

theorem leaf_mmov {w : W32} (h0 : bits w 5 0 = 6) :
    parse27 w = Except.ok (Instr.mmov (fld 2 w 23) (fld 6 w 6)) := by
  unfold parse27; rw [h0]; rfl

theorem leaf_mrd {w : W32} (h0 : bits w 5 0 = 7) :
    parse27 w = Except.ok (Instr.mrd (fld 2 w 20) (fld 6 w 6)) := by
  unfold parse27; rw [h0]; rfl

theorem leaf_bar {w : W32} (h0 : bits w 5 2 = 0) (h1 : bits w 1 0 = 0) :
    parse28 w = Except.ok Instr.bar := by
  unfold parse28; rw [h0]; rw [h1]; rfl

theorem leaf_trig {w : W32} (h0 : bits w 5 2 = 0) (h1 : bits w 1 0 = 1) :
    parse28 w = Except.ok Instr.trig := by
  unfold parse28; rw [h0]; rw [h1]; rfl

theorem leaf_exit {w : W32} (h0 : bits w 5 2 = 0) (h1 : bits w 1 0 = 2) :
    parse28 w = Except.ok Instr.exit := by
  unfold parse28; rw [h0]; rw [h1]; rfl

theorem leaf_yield {w : W32} (h0 : bits w 5 2 = 0) (h1 : bits w 1 0 = 3) :
    parse28 w = Except.ok Instr.yield := by
  unfold parse28; rw [h0]; rw [h1]; rfl

theorem leaf_sleep {w : W32} (h0 : bits w 5 2 = 1) (h1 : bits w 1 0 = 0) :
    parse28 w = Except.ok (Instr.sleep (fld 6 w 14) (flag w 7)) := by
  unfold parse28; rw [h0]; rw [h1]; rfl

theorem leaf_migpt {w : W32} (h0 : bits w 5 2 = 1) (h1 : bits w 1 0 = 1) :
    parse28 w = Except.ok Instr.migpt := by
  unfold parse28; rw [h0]; rw [h1]; rfl

theorem leaf_hint {w : W32} (h0 : bits w 5 2 = 2) :
    parse28 w = Except.ok (Instr.hint (fld 2 w 0)) := by
  unfold parse28; rw [h0]; rfl

theorem leaf_arm {w : W32} (h0 : bits w 5 3 = 0) (h1 : bits w 2 0 = 0) :
    parse29 w = Except.ok (Instr.arm (fld 6 w 20)) := by
  unfold parse29; rw [h0]; rw [h1]; rfl

theorem leaf_armAcq {w : W32} (h0 : bits w 5 3 = 1) :
    parse29 w = withScope (bits w 2 0) fun sc => Instr.armAcq (fld 6 w 20) sc := by
  unfold parse29; rw [h0]; rfl

theorem leaf_sendr {w : W32} (h0 : bits w 5 3 = 2) (h1 : bits w 2 0 = 0) :
    parse29 w = Except.ok (Instr.sendr (fld 6 w 14) (fld 6 w 8) (flag w 7) (flag w 6)) := by
  unfold parse29; rw [h0]; rw [h1]; rfl

theorem leaf_sendrRel {w : W32} (h0 : bits w 5 3 = 3) :
    parse29 w = withScope (bits w 2 0) fun sc => Instr.sendrRel (fld 6 w 14) (fld 6 w 8) (flag w 7) (flag w 6) sc := by
  unfold parse29; rw [h0]; rfl

theorem leaf_sendrW {w : W32} (h0 : bits w 5 3 = 4) (h1 : bits w 2 0 = 0) :
    parse29 w = Except.ok (Instr.sendrW (fld 6 w 14) (fld 6 w 8) (flag w 7) (flag w 6)) := by
  unfold parse29; rw [h0]; rw [h1]; rfl

theorem leaf_sendrWRel {w : W32} (h0 : bits w 5 3 = 5) :
    parse29 w = withScope (bits w 2 0) fun sc => Instr.sendrWRel (fld 6 w 14) (fld 6 w 8) (flag w 7) (flag w 6) sc := by
  unfold parse29; rw [h0]; rfl

theorem leaf_capr {w : W32} (h0 : bits w 5 3 = 6) (h1 : bits w 2 0 < 4) :
    parse29 w = Except.ok (Instr.capr (fld 6 w 20) (fld 6 w 8) (fld 2 w 0)) := by
  unfold parse29; rw [h0]
  generalize bits w 2 0 = x at h1 ⊢
  match x, h1 with
  | 0, _ | 1, _ | 2, _ | 3, _ => rfl

theorem leaf_capchk {w : W32} (h0 : bits w 5 3 = 6) (h1 : bits w 2 0 = 4) :
    parse29 w = Except.ok (Instr.capchk (fld 6 w 20) (fld 6 w 14) (flag w 7)) := by
  unfold parse29; rw [h0]; rw [h1]; rfl

theorem leaf_capi {w : W32} (h0 : bits w 5 3 = 6) (h1 : bits w 2 0 = 5) :
    parse29 w = Except.ok (Instr.capi (fld 6 w 20)) := by
  unfold parse29; rw [h0]; rw [h1]; rfl

theorem leaf_chsend {w : W32} (h0 : bits w 5 3 = 0) (h1 : bits w 2 0 = 0) :
    parse2B w = Except.ok (Instr.chsend (fld 6 w 20) (fld 6 w 14) (fld 6 w 8) (flag w 7) (flag w 6)) := by
  unfold parse2B; rw [h0]; rw [h1]; rfl

theorem leaf_chsendRel {w : W32} (h0 : bits w 5 3 = 1) :
    parse2B w = withScope (bits w 2 0) fun sc => Instr.chsendRel (fld 6 w 20) (fld 6 w 14) (fld 6 w 8) (flag w 7) (flag w 6) sc := by
  unfold parse2B; rw [h0]; rfl

theorem leaf_chsendBlk {w : W32} (h0 : bits w 5 3 = 2) (h1 : bits w 2 0 = 0) :
    parse2B w = Except.ok (Instr.chsendBlk (fld 6 w 20) (fld 6 w 14) (fld 6 w 8) (flag w 7) (flag w 6)) := by
  unfold parse2B; rw [h0]; rw [h1]; rfl

theorem leaf_chsendBlkRel {w : W32} (h0 : bits w 5 3 = 3) :
    parse2B w = withScope (bits w 2 0) fun sc => Instr.chsendBlkRel (fld 6 w 20) (fld 6 w 14) (fld 6 w 8) (flag w 7) (flag w 6) sc := by
  unfold parse2B; rw [h0]; rfl

theorem leaf_chrecv {w : W32} (h0 : bits w 5 3 = 4) (h1 : bits w 2 0 = 0) :
    parse2B w = Except.ok (Instr.chrecv (fld 6 w 20)) := by
  unfold parse2B; rw [h0]; rw [h1]; rfl

theorem leaf_chrecvAcq {w : W32} (h0 : bits w 5 3 = 5) :
    parse2B w = withScope (bits w 2 0) fun sc => Instr.chrecvAcq (fld 6 w 20) sc := by
  unfold parse2B; rw [h0]; rfl

theorem leaf_chpoll {w : W32} (h0 : bits w 5 3 = 6) (h1 : bits w 2 0 = 0) :
    parse2B w = Except.ok (Instr.chpoll (fld 6 w 20)) := by
  unfold parse2B; rw [h0]; rw [h1]; rfl

theorem leaf_chpollAcq {w : W32} (h0 : bits w 5 3 = 7) :
    parse2B w = withScope (bits w 2 0) fun sc => Instr.chpollAcq (fld 6 w 20) sc := by
  unfold parse2B; rw [h0]; rfl

theorem leaf_copyGo {w : W32} (h0 : bits w 25 22 = 0) (h1 : bits w 4 0 = 1) :
    parse30 w = withScope (bits w 7 5) fun sc => Instr.copyGo (fld 2 w 20) (fld 6 w 14) (fld 6 w 8) sc := by
  unfold parse30; rw [h0]; rw [h1]; rfl

theorem leaf_copyGather {w : W32} (h0 : bits w 25 22 = 0) (h1 : bits w 4 0 = 2) :
    parse30 w = withScope (bits w 7 5) fun sc => Instr.copyGather (fld 2 w 20) (fld 6 w 14) (fld 6 w 8) sc := by
  unfold parse30; rw [h0]; rw [h1]; rfl

theorem leaf_copyRed {w : W32} (h0 : bits w 25 22 = 0) (h1 : bits w 4 0 = 3) :
    parse30 w = withScope (bits w 7 5) fun sc => Instr.copyRed (fld 2 w 20) (fld 6 w 14) (fld 6 w 8) sc := by
  unfold parse30; rw [h0]; rw [h1]; rfl

theorem leaf_copyMcast {w : W32} (h0 : bits w 25 22 = 0) (h1 : bits w 4 0 = 4) :
    parse30 w = withScope (bits w 7 5) fun sc => Instr.copyMcast (fld 2 w 20) (fld 6 w 14) (fld 6 w 8) sc := by
  unfold parse30; rw [h0]; rw [h1]; rfl

theorem leaf_planeLdw {w : W32} (h0 : bits w 25 22 = 1) (h1 : bits w 4 0 = 1) :
    parse30 w = withScope (bits w 7 5) fun sc => Instr.planeLdw (fld 2 w 20) sc := by
  unfold parse30; rw [h0]; rw [h1]; rfl

theorem leaf_planeRun {w : W32} (h0 : bits w 25 22 = 1) (h1 : bits w 4 0 = 2) :
    parse30 w = withScope (bits w 7 5) fun sc => Instr.planeRun (fld 2 w 20) sc := by
  unfold parse30; rw [h0]; rw [h1]; rfl

theorem leaf_planeFid {w : W32} (h0 : bits w 25 22 = 1) (h1 : bits w 4 0 = 3) :
    parse30 w = withScope (bits w 7 5) fun sc => Instr.planeFid (fld 2 w 20) sc := by
  unfold parse30; rw [h0]; rw [h1]; rfl

theorem leaf_planeCnt {w : W32} (h0 : bits w 25 22 = 1) (h1 : bits w 4 0 = 4) :
    parse30 w = withScope (bits w 7 5) fun sc => Instr.planeCnt (fld 2 w 20) sc := by
  unfold parse30; rw [h0]; rw [h1]; rfl

theorem leaf_gatherRows {w : W32} (h0 : bits w 25 22 = 2) (h1 : bits w 4 0 = 1) :
    parse30 w = withScope (bits w 7 5) fun sc => Instr.gatherRows (fld 2 w 20) sc := by
  unfold parse30; rw [h0]; rw [h1]; rfl

theorem leaf_fabLoad {w : W32} (h0 : bits w 25 22 = 3) (h1 : bits w 4 0 = 1) :
    parse30 w = withScope (bits w 7 5) fun sc => Instr.fabLoad (fld 2 w 20) sc := by
  unfold parse30; rw [h0]; rw [h1]; rfl

theorem leaf_fabEvict {w : W32} (h0 : bits w 25 22 = 3) (h1 : bits w 4 0 = 2) :
    parse30 w = withScope (bits w 7 5) fun sc => Instr.fabEvict (fld 2 w 20) sc := by
  unfold parse30; rw [h0]; rw [h1]; rfl

theorem leaf_fabSeed {w : W32} (h0 : bits w 25 22 = 3) (h1 : bits w 4 0 = 3) :
    parse30 w = withScope (bits w 7 5) fun sc => Instr.fabSeed (fld 2 w 20) sc := by
  unfold parse30; rw [h0]; rw [h1]; rfl

theorem leaf_fabSnap {w : W32} (h0 : bits w 25 22 = 3) (h1 : bits w 4 0 = 4) :
    parse30 w = withScope (bits w 7 5) fun sc => Instr.fabSnap (fld 2 w 20) sc := by
  unfold parse30; rw [h0]; rw [h1]; rfl

theorem leaf_hset {w : W32} (h0 : bits w 5 0 = 0) :
    parse33 w = Except.ok (Instr.hset (fld 6 w 20) (fld 6 w 14) (fld 6 w 8) (flag w 7) (flag w 6)) := by
  unfold parse33; rw [h0]; rfl

theorem leaf_hfree {w : W32} (h0 : bits w 5 0 = 1) :
    parse33 w = Except.ok (Instr.hfree (fld 6 w 14) (flag w 7)) := by
  unfold parse33; rw [h0]; rfl

theorem leaf_hkill {w : W32} (h0 : bits w 5 0 = 2) :
    parse33 w = Except.ok (Instr.hkill (fld 6 w 14) (flag w 7)) := by
  unfold parse33; rw [h0]; rfl

theorem leaf_hwait {w : W32} (h0 : bits w 5 0 = 3) :
    parse33 w = Except.ok (Instr.hwait (fld 6 w 14) (fld 4 w 8) (flag w 7)) := by
  unfold parse33; rw [h0]; rfl

theorem leaf_hstat {w : W32} (h0 : bits w 5 0 = 4) :
    parse33 w = Except.ok (Instr.hstat (fld 6 w 20) (fld 6 w 14) (flag w 7)) := by
  unfold parse33; rw [h0]; rfl

theorem leaf_tlwait {w : W32} (h0 : bits w 5 4 = 0) :
    parse34 w = withScope (bits w 10 8) fun sc => Instr.tlwait (fld 6 w 14) sc (flag w 7) (fld 2 w 2) (fld 2 w 0) := by
  unfold parse34; rw [h0]; rfl

theorem leaf_tlread {w : W32} (h0 : bits w 5 4 = 1) :
    parse34 w = Except.ok (Instr.tlread (fld 6 w 20) (fld 2 w 2) (fld 2 w 0)) := by
  unfold parse34; rw [h0]; rfl

theorem leaf_tladv {w : W32} (h0 : bits w 5 4 = 2) :
    parse34 w = Except.ok (Instr.tladv (fld 6 w 20) (fld 2 w 2) (fld 2 w 0)) := by
  unfold parse34; rw [h0]; rfl

theorem leaf_trap {w : W32} (h0 : bits w 5 3 = 0) (h1 : bits w 2 0 = 0) :
    parse38 w = Except.ok (Instr.trap (fld 18 w 8)) := by
  unfold parse38; rw [h0]; rw [h1]; rfl

theorem leaf_eret {w : W32} (h0 : bits w 5 3 = 0) (h1 : bits w 2 0 = 1) :
    parse38 w = Except.ok Instr.eret := by
  unfold parse38; rw [h0]; rw [h1]; rfl

theorem leaf_wfi {w : W32} (h0 : bits w 5 3 = 0) (h1 : bits w 2 0 = 2) :
    parse38 w = Except.ok Instr.wfi := by
  unfold parse38; rw [h0]; rw [h1]; rfl

theorem leaf_ctlr {w : W32} (h0 : bits w 5 3 = 1) (h1 : bits w 2 0 = 0) :
    parse38 w = Except.ok (Instr.ctlr (fld 6 w 20) (fld 12 w 8)) := by
  unfold parse38; rw [h0]; rw [h1]; rfl

theorem leaf_ctlw {w : W32} (h0 : bits w 5 3 = 1) (h1 : bits w 2 0 = 1) :
    parse38 w = Except.ok (Instr.ctlw (fld 6 w 20) (fld 12 w 8)) := by
  unfold parse38; rw [h0]; rw [h1]; rfl

theorem leaf_ctlset {w : W32} (h0 : bits w 5 3 = 1) (h1 : bits w 2 0 = 2) :
    parse38 w = Except.ok (Instr.ctlset (fld 6 w 20) (fld 12 w 8)) := by
  unfold parse38; rw [h0]; rw [h1]; rfl

theorem leaf_ctlclr {w : W32} (h0 : bits w 5 3 = 1) (h1 : bits w 2 0 = 3) :
    parse38 w = Except.ok (Instr.ctlclr (fld 6 w 20) (fld 12 w 8)) := by
  unfold parse38; rw [h0]; rw [h1]; rfl

theorem leaf_tlbinv {w : W32} (h0 : bits w 5 3 = 2) (h1 : bits w 2 0 = 0) :
    parse38 w = Except.ok (Instr.tlbinv (fld 6 w 20) (fld 6 w 14) (fld 6 w 8) (flag w 7) (flag w 6)) := by
  unfold parse38; rw [h0]; rw [h1]; rfl

theorem leaf_tlbprobe {w : W32} (h0 : bits w 5 3 = 2) (h1 : bits w 2 0 = 1) :
    parse38 w = Except.ok (Instr.tlbprobe (fld 6 w 20) (fld 6 w 14) (fld 6 w 8) (flag w 7) (flag w 6)) := by
  unfold parse38; rw [h0]; rw [h1]; rfl

theorem leaf_cwb {w : W32} (h0 : bits w 5 3 = 3) :
    parse38 w = withScope (bits w 2 0) fun sc => Instr.cwb sc := by
  unfold parse38; rw [h0]; rfl

theorem leaf_cinv {w : W32} (h0 : bits w 5 3 = 4) :
    parse38 w = withScope (bits w 2 0) fun sc => Instr.cinv sc := by
  unfold parse38; rw [h0]; rfl

namespace F

/-- The fields of an encoded term are read back; an event has no word. -/
def Statement (i : Instr) : Prop := i.isEvent = false → rawParse (encode i) = .ok i

theorem add (d a b : RegCode) (hA hB : Bool) : Statement (.add d a b hA hB) := by
  intro _
  show rawParse (BitVec.ofNat 32 (psum 0x4000000 [bv 20 d, bv 14 a, bv 8 b, bo 7 hA, bo 6 hB])) = _
  rw [major1 (bits_psum [(20, 6), (14, 6), (8, 6), (7, 1), (6, 1)] rfl (by decide))]
  obtain ⟨h0, h1, h2, h3, h4⟩ := layout0 0x4000000 d a b hA hB (by decide)
  rw [leaf_add (bits_psum [(20, 6), (14, 6), (8, 6), (7, 1), (6, 1)] rfl (by decide))]
  rw [h0, h1, h2, h3, h4]

theorem sub (d a b : RegCode) (hA hB : Bool) : Statement (.sub d a b hA hB) := by
  intro _
  show rawParse (BitVec.ofNat 32 (psum 0x4000001 [bv 20 d, bv 14 a, bv 8 b, bo 7 hA, bo 6 hB])) = _
  rw [major1 (bits_psum [(20, 6), (14, 6), (8, 6), (7, 1), (6, 1)] rfl (by decide))]
  obtain ⟨h0, h1, h2, h3, h4⟩ := layout0 0x4000001 d a b hA hB (by decide)
  rw [leaf_sub (bits_psum [(20, 6), (14, 6), (8, 6), (7, 1), (6, 1)] rfl (by decide))]
  rw [h0, h1, h2, h3, h4]

theorem mul (d a b : RegCode) (hA hB : Bool) : Statement (.mul d a b hA hB) := by
  intro _
  show rawParse (BitVec.ofNat 32 (psum 0x4000002 [bv 20 d, bv 14 a, bv 8 b, bo 7 hA, bo 6 hB])) = _
  rw [major1 (bits_psum [(20, 6), (14, 6), (8, 6), (7, 1), (6, 1)] rfl (by decide))]
  obtain ⟨h0, h1, h2, h3, h4⟩ := layout0 0x4000002 d a b hA hB (by decide)
  rw [leaf_mul (bits_psum [(20, 6), (14, 6), (8, 6), (7, 1), (6, 1)] rfl (by decide))]
  rw [h0, h1, h2, h3, h4]

theorem mulh (d a b : RegCode) (hA hB : Bool) : Statement (.mulh d a b hA hB) := by
  intro _
  show rawParse (BitVec.ofNat 32 (psum 0x4000003 [bv 20 d, bv 14 a, bv 8 b, bo 7 hA, bo 6 hB])) = _
  rw [major1 (bits_psum [(20, 6), (14, 6), (8, 6), (7, 1), (6, 1)] rfl (by decide))]
  obtain ⟨h0, h1, h2, h3, h4⟩ := layout0 0x4000003 d a b hA hB (by decide)
  rw [leaf_mulh (bits_psum [(20, 6), (14, 6), (8, 6), (7, 1), (6, 1)] rfl (by decide))]
  rw [h0, h1, h2, h3, h4]

theorem mulhu (d a b : RegCode) (hA hB : Bool) : Statement (.mulhu d a b hA hB) := by
  intro _
  show rawParse (BitVec.ofNat 32 (psum 0x4000004 [bv 20 d, bv 14 a, bv 8 b, bo 7 hA, bo 6 hB])) = _
  rw [major1 (bits_psum [(20, 6), (14, 6), (8, 6), (7, 1), (6, 1)] rfl (by decide))]
  obtain ⟨h0, h1, h2, h3, h4⟩ := layout0 0x4000004 d a b hA hB (by decide)
  rw [leaf_mulhu (bits_psum [(20, 6), (14, 6), (8, 6), (7, 1), (6, 1)] rfl (by decide))]
  rw [h0, h1, h2, h3, h4]

theorem div (d a b : RegCode) (hA hB : Bool) : Statement (.div d a b hA hB) := by
  intro _
  show rawParse (BitVec.ofNat 32 (psum 0x4000005 [bv 20 d, bv 14 a, bv 8 b, bo 7 hA, bo 6 hB])) = _
  rw [major1 (bits_psum [(20, 6), (14, 6), (8, 6), (7, 1), (6, 1)] rfl (by decide))]
  obtain ⟨h0, h1, h2, h3, h4⟩ := layout0 0x4000005 d a b hA hB (by decide)
  rw [leaf_div (bits_psum [(20, 6), (14, 6), (8, 6), (7, 1), (6, 1)] rfl (by decide))]
  rw [h0, h1, h2, h3, h4]

theorem divu (d a b : RegCode) (hA hB : Bool) : Statement (.divu d a b hA hB) := by
  intro _
  show rawParse (BitVec.ofNat 32 (psum 0x4000006 [bv 20 d, bv 14 a, bv 8 b, bo 7 hA, bo 6 hB])) = _
  rw [major1 (bits_psum [(20, 6), (14, 6), (8, 6), (7, 1), (6, 1)] rfl (by decide))]
  obtain ⟨h0, h1, h2, h3, h4⟩ := layout0 0x4000006 d a b hA hB (by decide)
  rw [leaf_divu (bits_psum [(20, 6), (14, 6), (8, 6), (7, 1), (6, 1)] rfl (by decide))]
  rw [h0, h1, h2, h3, h4]

theorem rem (d a b : RegCode) (hA hB : Bool) : Statement (.rem d a b hA hB) := by
  intro _
  show rawParse (BitVec.ofNat 32 (psum 0x4000007 [bv 20 d, bv 14 a, bv 8 b, bo 7 hA, bo 6 hB])) = _
  rw [major1 (bits_psum [(20, 6), (14, 6), (8, 6), (7, 1), (6, 1)] rfl (by decide))]
  obtain ⟨h0, h1, h2, h3, h4⟩ := layout0 0x4000007 d a b hA hB (by decide)
  rw [leaf_rem (bits_psum [(20, 6), (14, 6), (8, 6), (7, 1), (6, 1)] rfl (by decide))]
  rw [h0, h1, h2, h3, h4]

theorem remu (d a b : RegCode) (hA hB : Bool) : Statement (.remu d a b hA hB) := by
  intro _
  show rawParse (BitVec.ofNat 32 (psum 0x4000008 [bv 20 d, bv 14 a, bv 8 b, bo 7 hA, bo 6 hB])) = _
  rw [major1 (bits_psum [(20, 6), (14, 6), (8, 6), (7, 1), (6, 1)] rfl (by decide))]
  obtain ⟨h0, h1, h2, h3, h4⟩ := layout0 0x4000008 d a b hA hB (by decide)
  rw [leaf_remu (bits_psum [(20, 6), (14, 6), (8, 6), (7, 1), (6, 1)] rfl (by decide))]
  rw [h0, h1, h2, h3, h4]

theorem and (d a b : RegCode) (hA hB : Bool) : Statement (.and d a b hA hB) := by
  intro _
  show rawParse (BitVec.ofNat 32 (psum 0x4000009 [bv 20 d, bv 14 a, bv 8 b, bo 7 hA, bo 6 hB])) = _
  rw [major1 (bits_psum [(20, 6), (14, 6), (8, 6), (7, 1), (6, 1)] rfl (by decide))]
  obtain ⟨h0, h1, h2, h3, h4⟩ := layout0 0x4000009 d a b hA hB (by decide)
  rw [leaf_and (bits_psum [(20, 6), (14, 6), (8, 6), (7, 1), (6, 1)] rfl (by decide))]
  rw [h0, h1, h2, h3, h4]

theorem or (d a b : RegCode) (hA hB : Bool) : Statement (.or d a b hA hB) := by
  intro _
  show rawParse (BitVec.ofNat 32 (psum 0x400000a [bv 20 d, bv 14 a, bv 8 b, bo 7 hA, bo 6 hB])) = _
  rw [major1 (bits_psum [(20, 6), (14, 6), (8, 6), (7, 1), (6, 1)] rfl (by decide))]
  obtain ⟨h0, h1, h2, h3, h4⟩ := layout0 0x400000a d a b hA hB (by decide)
  rw [leaf_or (bits_psum [(20, 6), (14, 6), (8, 6), (7, 1), (6, 1)] rfl (by decide))]
  rw [h0, h1, h2, h3, h4]

theorem xor (d a b : RegCode) (hA hB : Bool) : Statement (.xor d a b hA hB) := by
  intro _
  show rawParse (BitVec.ofNat 32 (psum 0x400000b [bv 20 d, bv 14 a, bv 8 b, bo 7 hA, bo 6 hB])) = _
  rw [major1 (bits_psum [(20, 6), (14, 6), (8, 6), (7, 1), (6, 1)] rfl (by decide))]
  obtain ⟨h0, h1, h2, h3, h4⟩ := layout0 0x400000b d a b hA hB (by decide)
  rw [leaf_xor (bits_psum [(20, 6), (14, 6), (8, 6), (7, 1), (6, 1)] rfl (by decide))]
  rw [h0, h1, h2, h3, h4]

theorem andn (d a b : RegCode) (hA hB : Bool) : Statement (.andn d a b hA hB) := by
  intro _
  show rawParse (BitVec.ofNat 32 (psum 0x400000c [bv 20 d, bv 14 a, bv 8 b, bo 7 hA, bo 6 hB])) = _
  rw [major1 (bits_psum [(20, 6), (14, 6), (8, 6), (7, 1), (6, 1)] rfl (by decide))]
  obtain ⟨h0, h1, h2, h3, h4⟩ := layout0 0x400000c d a b hA hB (by decide)
  rw [leaf_andn (bits_psum [(20, 6), (14, 6), (8, 6), (7, 1), (6, 1)] rfl (by decide))]
  rw [h0, h1, h2, h3, h4]

theorem sll (d a b : RegCode) (hA hB : Bool) : Statement (.sll d a b hA hB) := by
  intro _
  show rawParse (BitVec.ofNat 32 (psum 0x400000d [bv 20 d, bv 14 a, bv 8 b, bo 7 hA, bo 6 hB])) = _
  rw [major1 (bits_psum [(20, 6), (14, 6), (8, 6), (7, 1), (6, 1)] rfl (by decide))]
  obtain ⟨h0, h1, h2, h3, h4⟩ := layout0 0x400000d d a b hA hB (by decide)
  rw [leaf_sll (bits_psum [(20, 6), (14, 6), (8, 6), (7, 1), (6, 1)] rfl (by decide))]
  rw [h0, h1, h2, h3, h4]

theorem srl (d a b : RegCode) (hA hB : Bool) : Statement (.srl d a b hA hB) := by
  intro _
  show rawParse (BitVec.ofNat 32 (psum 0x400000e [bv 20 d, bv 14 a, bv 8 b, bo 7 hA, bo 6 hB])) = _
  rw [major1 (bits_psum [(20, 6), (14, 6), (8, 6), (7, 1), (6, 1)] rfl (by decide))]
  obtain ⟨h0, h1, h2, h3, h4⟩ := layout0 0x400000e d a b hA hB (by decide)
  rw [leaf_srl (bits_psum [(20, 6), (14, 6), (8, 6), (7, 1), (6, 1)] rfl (by decide))]
  rw [h0, h1, h2, h3, h4]

theorem sra (d a b : RegCode) (hA hB : Bool) : Statement (.sra d a b hA hB) := by
  intro _
  show rawParse (BitVec.ofNat 32 (psum 0x400000f [bv 20 d, bv 14 a, bv 8 b, bo 7 hA, bo 6 hB])) = _
  rw [major1 (bits_psum [(20, 6), (14, 6), (8, 6), (7, 1), (6, 1)] rfl (by decide))]
  obtain ⟨h0, h1, h2, h3, h4⟩ := layout0 0x400000f d a b hA hB (by decide)
  rw [leaf_sra (bits_psum [(20, 6), (14, 6), (8, 6), (7, 1), (6, 1)] rfl (by decide))]
  rw [h0, h1, h2, h3, h4]

theorem rol (d a b : RegCode) (hA hB : Bool) : Statement (.rol d a b hA hB) := by
  intro _
  show rawParse (BitVec.ofNat 32 (psum 0x4000010 [bv 20 d, bv 14 a, bv 8 b, bo 7 hA, bo 6 hB])) = _
  rw [major1 (bits_psum [(20, 6), (14, 6), (8, 6), (7, 1), (6, 1)] rfl (by decide))]
  obtain ⟨h0, h1, h2, h3, h4⟩ := layout0 0x4000010 d a b hA hB (by decide)
  rw [leaf_rol (bits_psum [(20, 6), (14, 6), (8, 6), (7, 1), (6, 1)] rfl (by decide))]
  rw [h0, h1, h2, h3, h4]

theorem ror (d a b : RegCode) (hA hB : Bool) : Statement (.ror d a b hA hB) := by
  intro _
  show rawParse (BitVec.ofNat 32 (psum 0x4000011 [bv 20 d, bv 14 a, bv 8 b, bo 7 hA, bo 6 hB])) = _
  rw [major1 (bits_psum [(20, 6), (14, 6), (8, 6), (7, 1), (6, 1)] rfl (by decide))]
  obtain ⟨h0, h1, h2, h3, h4⟩ := layout0 0x4000011 d a b hA hB (by decide)
  rw [leaf_ror (bits_psum [(20, 6), (14, 6), (8, 6), (7, 1), (6, 1)] rfl (by decide))]
  rw [h0, h1, h2, h3, h4]

theorem min (d a b : RegCode) (hA hB : Bool) : Statement (.min d a b hA hB) := by
  intro _
  show rawParse (BitVec.ofNat 32 (psum 0x4000012 [bv 20 d, bv 14 a, bv 8 b, bo 7 hA, bo 6 hB])) = _
  rw [major1 (bits_psum [(20, 6), (14, 6), (8, 6), (7, 1), (6, 1)] rfl (by decide))]
  obtain ⟨h0, h1, h2, h3, h4⟩ := layout0 0x4000012 d a b hA hB (by decide)
  rw [leaf_min (bits_psum [(20, 6), (14, 6), (8, 6), (7, 1), (6, 1)] rfl (by decide))]
  rw [h0, h1, h2, h3, h4]

theorem max (d a b : RegCode) (hA hB : Bool) : Statement (.max d a b hA hB) := by
  intro _
  show rawParse (BitVec.ofNat 32 (psum 0x4000013 [bv 20 d, bv 14 a, bv 8 b, bo 7 hA, bo 6 hB])) = _
  rw [major1 (bits_psum [(20, 6), (14, 6), (8, 6), (7, 1), (6, 1)] rfl (by decide))]
  obtain ⟨h0, h1, h2, h3, h4⟩ := layout0 0x4000013 d a b hA hB (by decide)
  rw [leaf_max (bits_psum [(20, 6), (14, 6), (8, 6), (7, 1), (6, 1)] rfl (by decide))]
  rw [h0, h1, h2, h3, h4]

theorem minu (d a b : RegCode) (hA hB : Bool) : Statement (.minu d a b hA hB) := by
  intro _
  show rawParse (BitVec.ofNat 32 (psum 0x4000014 [bv 20 d, bv 14 a, bv 8 b, bo 7 hA, bo 6 hB])) = _
  rw [major1 (bits_psum [(20, 6), (14, 6), (8, 6), (7, 1), (6, 1)] rfl (by decide))]
  obtain ⟨h0, h1, h2, h3, h4⟩ := layout0 0x4000014 d a b hA hB (by decide)
  rw [leaf_minu (bits_psum [(20, 6), (14, 6), (8, 6), (7, 1), (6, 1)] rfl (by decide))]
  rw [h0, h1, h2, h3, h4]

theorem maxu (d a b : RegCode) (hA hB : Bool) : Statement (.maxu d a b hA hB) := by
  intro _
  show rawParse (BitVec.ofNat 32 (psum 0x4000015 [bv 20 d, bv 14 a, bv 8 b, bo 7 hA, bo 6 hB])) = _
  rw [major1 (bits_psum [(20, 6), (14, 6), (8, 6), (7, 1), (6, 1)] rfl (by decide))]
  obtain ⟨h0, h1, h2, h3, h4⟩ := layout0 0x4000015 d a b hA hB (by decide)
  rw [leaf_maxu (bits_psum [(20, 6), (14, 6), (8, 6), (7, 1), (6, 1)] rfl (by decide))]
  rw [h0, h1, h2, h3, h4]

theorem slt (d a b : RegCode) (hA hB : Bool) : Statement (.slt d a b hA hB) := by
  intro _
  show rawParse (BitVec.ofNat 32 (psum 0x4000016 [bv 20 d, bv 14 a, bv 8 b, bo 7 hA, bo 6 hB])) = _
  rw [major1 (bits_psum [(20, 6), (14, 6), (8, 6), (7, 1), (6, 1)] rfl (by decide))]
  obtain ⟨h0, h1, h2, h3, h4⟩ := layout0 0x4000016 d a b hA hB (by decide)
  rw [leaf_slt (bits_psum [(20, 6), (14, 6), (8, 6), (7, 1), (6, 1)] rfl (by decide))]
  rw [h0, h1, h2, h3, h4]

theorem sltu (d a b : RegCode) (hA hB : Bool) : Statement (.sltu d a b hA hB) := by
  intro _
  show rawParse (BitVec.ofNat 32 (psum 0x4000017 [bv 20 d, bv 14 a, bv 8 b, bo 7 hA, bo 6 hB])) = _
  rw [major1 (bits_psum [(20, 6), (14, 6), (8, 6), (7, 1), (6, 1)] rfl (by decide))]
  obtain ⟨h0, h1, h2, h3, h4⟩ := layout0 0x4000017 d a b hA hB (by decide)
  rw [leaf_sltu (bits_psum [(20, 6), (14, 6), (8, 6), (7, 1), (6, 1)] rfl (by decide))]
  rw [h0, h1, h2, h3, h4]

theorem seq (d a b : RegCode) (hA hB : Bool) : Statement (.seq d a b hA hB) := by
  intro _
  show rawParse (BitVec.ofNat 32 (psum 0x4000018 [bv 20 d, bv 14 a, bv 8 b, bo 7 hA, bo 6 hB])) = _
  rw [major1 (bits_psum [(20, 6), (14, 6), (8, 6), (7, 1), (6, 1)] rfl (by decide))]
  obtain ⟨h0, h1, h2, h3, h4⟩ := layout0 0x4000018 d a b hA hB (by decide)
  rw [leaf_seq (bits_psum [(20, 6), (14, 6), (8, 6), (7, 1), (6, 1)] rfl (by decide))]
  rw [h0, h1, h2, h3, h4]

theorem addw (d a b : RegCode) (hA hB : Bool) : Statement (.addw d a b hA hB) := by
  intro _
  show rawParse (BitVec.ofNat 32 (psum 0x8000000 [bv 20 d, bv 14 a, bv 8 b, bo 7 hA, bo 6 hB])) = _
  rw [major2 (bits_psum [(20, 6), (14, 6), (8, 6), (7, 1), (6, 1)] rfl (by decide))]
  obtain ⟨h0, h1, h2, h3, h4⟩ := layout0 0x8000000 d a b hA hB (by decide)
  rw [leaf_addw (bits_psum [(20, 6), (14, 6), (8, 6), (7, 1), (6, 1)] rfl (by decide))]
  rw [h0, h1, h2, h3, h4]

theorem subw (d a b : RegCode) (hA hB : Bool) : Statement (.subw d a b hA hB) := by
  intro _
  show rawParse (BitVec.ofNat 32 (psum 0x8000001 [bv 20 d, bv 14 a, bv 8 b, bo 7 hA, bo 6 hB])) = _
  rw [major2 (bits_psum [(20, 6), (14, 6), (8, 6), (7, 1), (6, 1)] rfl (by decide))]
  obtain ⟨h0, h1, h2, h3, h4⟩ := layout0 0x8000001 d a b hA hB (by decide)
  rw [leaf_subw (bits_psum [(20, 6), (14, 6), (8, 6), (7, 1), (6, 1)] rfl (by decide))]
  rw [h0, h1, h2, h3, h4]

theorem mulw (d a b : RegCode) (hA hB : Bool) : Statement (.mulw d a b hA hB) := by
  intro _
  show rawParse (BitVec.ofNat 32 (psum 0x8000002 [bv 20 d, bv 14 a, bv 8 b, bo 7 hA, bo 6 hB])) = _
  rw [major2 (bits_psum [(20, 6), (14, 6), (8, 6), (7, 1), (6, 1)] rfl (by decide))]
  obtain ⟨h0, h1, h2, h3, h4⟩ := layout0 0x8000002 d a b hA hB (by decide)
  rw [leaf_mulw (bits_psum [(20, 6), (14, 6), (8, 6), (7, 1), (6, 1)] rfl (by decide))]
  rw [h0, h1, h2, h3, h4]

theorem divw (d a b : RegCode) (hA hB : Bool) : Statement (.divw d a b hA hB) := by
  intro _
  show rawParse (BitVec.ofNat 32 (psum 0x8000005 [bv 20 d, bv 14 a, bv 8 b, bo 7 hA, bo 6 hB])) = _
  rw [major2 (bits_psum [(20, 6), (14, 6), (8, 6), (7, 1), (6, 1)] rfl (by decide))]
  obtain ⟨h0, h1, h2, h3, h4⟩ := layout0 0x8000005 d a b hA hB (by decide)
  rw [leaf_divw (bits_psum [(20, 6), (14, 6), (8, 6), (7, 1), (6, 1)] rfl (by decide))]
  rw [h0, h1, h2, h3, h4]

theorem divuw (d a b : RegCode) (hA hB : Bool) : Statement (.divuw d a b hA hB) := by
  intro _
  show rawParse (BitVec.ofNat 32 (psum 0x8000006 [bv 20 d, bv 14 a, bv 8 b, bo 7 hA, bo 6 hB])) = _
  rw [major2 (bits_psum [(20, 6), (14, 6), (8, 6), (7, 1), (6, 1)] rfl (by decide))]
  obtain ⟨h0, h1, h2, h3, h4⟩ := layout0 0x8000006 d a b hA hB (by decide)
  rw [leaf_divuw (bits_psum [(20, 6), (14, 6), (8, 6), (7, 1), (6, 1)] rfl (by decide))]
  rw [h0, h1, h2, h3, h4]

theorem remw (d a b : RegCode) (hA hB : Bool) : Statement (.remw d a b hA hB) := by
  intro _
  show rawParse (BitVec.ofNat 32 (psum 0x8000007 [bv 20 d, bv 14 a, bv 8 b, bo 7 hA, bo 6 hB])) = _
  rw [major2 (bits_psum [(20, 6), (14, 6), (8, 6), (7, 1), (6, 1)] rfl (by decide))]
  obtain ⟨h0, h1, h2, h3, h4⟩ := layout0 0x8000007 d a b hA hB (by decide)
  rw [leaf_remw (bits_psum [(20, 6), (14, 6), (8, 6), (7, 1), (6, 1)] rfl (by decide))]
  rw [h0, h1, h2, h3, h4]

theorem remuw (d a b : RegCode) (hA hB : Bool) : Statement (.remuw d a b hA hB) := by
  intro _
  show rawParse (BitVec.ofNat 32 (psum 0x8000008 [bv 20 d, bv 14 a, bv 8 b, bo 7 hA, bo 6 hB])) = _
  rw [major2 (bits_psum [(20, 6), (14, 6), (8, 6), (7, 1), (6, 1)] rfl (by decide))]
  obtain ⟨h0, h1, h2, h3, h4⟩ := layout0 0x8000008 d a b hA hB (by decide)
  rw [leaf_remuw (bits_psum [(20, 6), (14, 6), (8, 6), (7, 1), (6, 1)] rfl (by decide))]
  rw [h0, h1, h2, h3, h4]

theorem sllw (d a b : RegCode) (hA hB : Bool) : Statement (.sllw d a b hA hB) := by
  intro _
  show rawParse (BitVec.ofNat 32 (psum 0x800000d [bv 20 d, bv 14 a, bv 8 b, bo 7 hA, bo 6 hB])) = _
  rw [major2 (bits_psum [(20, 6), (14, 6), (8, 6), (7, 1), (6, 1)] rfl (by decide))]
  obtain ⟨h0, h1, h2, h3, h4⟩ := layout0 0x800000d d a b hA hB (by decide)
  rw [leaf_sllw (bits_psum [(20, 6), (14, 6), (8, 6), (7, 1), (6, 1)] rfl (by decide))]
  rw [h0, h1, h2, h3, h4]

theorem srlw (d a b : RegCode) (hA hB : Bool) : Statement (.srlw d a b hA hB) := by
  intro _
  show rawParse (BitVec.ofNat 32 (psum 0x800000e [bv 20 d, bv 14 a, bv 8 b, bo 7 hA, bo 6 hB])) = _
  rw [major2 (bits_psum [(20, 6), (14, 6), (8, 6), (7, 1), (6, 1)] rfl (by decide))]
  obtain ⟨h0, h1, h2, h3, h4⟩ := layout0 0x800000e d a b hA hB (by decide)
  rw [leaf_srlw (bits_psum [(20, 6), (14, 6), (8, 6), (7, 1), (6, 1)] rfl (by decide))]
  rw [h0, h1, h2, h3, h4]

theorem sraw (d a b : RegCode) (hA hB : Bool) : Statement (.sraw d a b hA hB) := by
  intro _
  show rawParse (BitVec.ofNat 32 (psum 0x800000f [bv 20 d, bv 14 a, bv 8 b, bo 7 hA, bo 6 hB])) = _
  rw [major2 (bits_psum [(20, 6), (14, 6), (8, 6), (7, 1), (6, 1)] rfl (by decide))]
  obtain ⟨h0, h1, h2, h3, h4⟩ := layout0 0x800000f d a b hA hB (by decide)
  rw [leaf_sraw (bits_psum [(20, 6), (14, 6), (8, 6), (7, 1), (6, 1)] rfl (by decide))]
  rw [h0, h1, h2, h3, h4]

theorem rolw (d a b : RegCode) (hA hB : Bool) : Statement (.rolw d a b hA hB) := by
  intro _
  show rawParse (BitVec.ofNat 32 (psum 0x8000010 [bv 20 d, bv 14 a, bv 8 b, bo 7 hA, bo 6 hB])) = _
  rw [major2 (bits_psum [(20, 6), (14, 6), (8, 6), (7, 1), (6, 1)] rfl (by decide))]
  obtain ⟨h0, h1, h2, h3, h4⟩ := layout0 0x8000010 d a b hA hB (by decide)
  rw [leaf_rolw (bits_psum [(20, 6), (14, 6), (8, 6), (7, 1), (6, 1)] rfl (by decide))]
  rw [h0, h1, h2, h3, h4]

theorem rorw (d a b : RegCode) (hA hB : Bool) : Statement (.rorw d a b hA hB) := by
  intro _
  show rawParse (BitVec.ofNat 32 (psum 0x8000011 [bv 20 d, bv 14 a, bv 8 b, bo 7 hA, bo 6 hB])) = _
  rw [major2 (bits_psum [(20, 6), (14, 6), (8, 6), (7, 1), (6, 1)] rfl (by decide))]
  obtain ⟨h0, h1, h2, h3, h4⟩ := layout0 0x8000011 d a b hA hB (by decide)
  rw [leaf_rorw (bits_psum [(20, 6), (14, 6), (8, 6), (7, 1), (6, 1)] rfl (by decide))]
  rw [h0, h1, h2, h3, h4]

theorem addi (d a : RegCode) (imm : BitVec 14) : Statement (.addi d a imm) := by
  intro _
  show rawParse (BitVec.ofNat 32 (psum 0xc000000 [bv 20 d, bv 14 a, bv 0 imm])) = _
  rw [major3 (bits_psum [(20, 6), (14, 6), (0, 14)] rfl (by decide))]
  obtain ⟨h0, h1, h2⟩ := layout1 0xc000000 d a imm (by decide)
  unfold parse03
  rw [h0, h1, h2]

theorem addiw (d a : RegCode) (imm : BitVec 14) : Statement (.addiw d a imm) := by
  intro _
  show rawParse (BitVec.ofNat 32 (psum 0x10000000 [bv 20 d, bv 14 a, bv 0 imm])) = _
  rw [major4 (bits_psum [(20, 6), (14, 6), (0, 14)] rfl (by decide))]
  obtain ⟨h0, h1, h2⟩ := layout1 0x10000000 d a imm (by decide)
  unfold parse04
  rw [h0, h1, h2]

theorem andi (d a : RegCode) (imm : BitVec 12) : Statement (.andi d a imm) := by
  intro _
  show rawParse (BitVec.ofNat 32 (psum 0x14000000 [bv 20 d, bv 14 a, bv 0 imm])) = _
  rw [major5 (bits_psum [(20, 6), (14, 6), (0, 12)] rfl (by decide))]
  obtain ⟨h0, h1, h2⟩ := layout2 0x14000000 d a imm (by decide)
  rw [leaf_andi (bits_psum [(20, 6), (14, 6), (0, 12)] rfl (by decide))]
  rw [h0, h1, h2]

theorem ori (d a : RegCode) (imm : BitVec 12) : Statement (.ori d a imm) := by
  intro _
  show rawParse (BitVec.ofNat 32 (psum 0x14001000 [bv 20 d, bv 14 a, bv 0 imm])) = _
  rw [major5 (bits_psum [(20, 6), (14, 6), (0, 12)] rfl (by decide))]
  obtain ⟨h0, h1, h2⟩ := layout2 0x14001000 d a imm (by decide)
  rw [leaf_ori (bits_psum [(20, 6), (14, 6), (0, 12)] rfl (by decide))]
  rw [h0, h1, h2]

theorem xori (d a : RegCode) (imm : BitVec 12) : Statement (.xori d a imm) := by
  intro _
  show rawParse (BitVec.ofNat 32 (psum 0x14002000 [bv 20 d, bv 14 a, bv 0 imm])) = _
  rw [major5 (bits_psum [(20, 6), (14, 6), (0, 12)] rfl (by decide))]
  obtain ⟨h0, h1, h2⟩ := layout2 0x14002000 d a imm (by decide)
  rw [leaf_xori (bits_psum [(20, 6), (14, 6), (0, 12)] rfl (by decide))]
  rw [h0, h1, h2]

theorem slli (d a : RegCode) (sh : BitVec 6) : Statement (.slli d a sh) := by
  intro _
  show rawParse (BitVec.ofNat 32 (psum 0x18000000 [bv 20 d, bv 14 a, bv 0 sh])) = _
  rw [major6 (bits_psum [(20, 6), (14, 6), (0, 6)] rfl (by decide))]
  obtain ⟨h0, h1, h2⟩ := layout3 0x18000000 d a sh (by decide)
  rw [leaf_slli (bits_psum [(20, 6), (14, 6), (0, 6)] rfl (by decide))]
  rw [h0, h1, h2]

theorem slliw (d a : RegCode) (sh : BitVec 5) : Statement (.slliw d a sh) := by
  intro _
  show rawParse (BitVec.ofNat 32 (psum 0x18000800 [bv 20 d, bv 14 a, bv 0 sh])) = _
  rw [major6 (bits_psum [(20, 6), (14, 6), (0, 5)] rfl (by decide))]
  obtain ⟨h0, h1, h2⟩ := layout4 0x18000800 d a sh (by decide)
  rw [leaf_slliw (bits_psum [(20, 6), (14, 6), (0, 5)] rfl (by decide))]
  rw [h0, h1, h2]

theorem srli (d a : RegCode) (sh : BitVec 6) : Statement (.srli d a sh) := by
  intro _
  show rawParse (BitVec.ofNat 32 (psum 0x18001000 [bv 20 d, bv 14 a, bv 0 sh])) = _
  rw [major6 (bits_psum [(20, 6), (14, 6), (0, 6)] rfl (by decide))]
  obtain ⟨h0, h1, h2⟩ := layout3 0x18001000 d a sh (by decide)
  rw [leaf_srli (bits_psum [(20, 6), (14, 6), (0, 6)] rfl (by decide))]
  rw [h0, h1, h2]

theorem srliw (d a : RegCode) (sh : BitVec 5) : Statement (.srliw d a sh) := by
  intro _
  show rawParse (BitVec.ofNat 32 (psum 0x18001800 [bv 20 d, bv 14 a, bv 0 sh])) = _
  rw [major6 (bits_psum [(20, 6), (14, 6), (0, 5)] rfl (by decide))]
  obtain ⟨h0, h1, h2⟩ := layout4 0x18001800 d a sh (by decide)
  rw [leaf_srliw (bits_psum [(20, 6), (14, 6), (0, 5)] rfl (by decide))]
  rw [h0, h1, h2]

theorem srai (d a : RegCode) (sh : BitVec 6) : Statement (.srai d a sh) := by
  intro _
  show rawParse (BitVec.ofNat 32 (psum 0x18002000 [bv 20 d, bv 14 a, bv 0 sh])) = _
  rw [major6 (bits_psum [(20, 6), (14, 6), (0, 6)] rfl (by decide))]
  obtain ⟨h0, h1, h2⟩ := layout3 0x18002000 d a sh (by decide)
  rw [leaf_srai (bits_psum [(20, 6), (14, 6), (0, 6)] rfl (by decide))]
  rw [h0, h1, h2]

theorem sraiw (d a : RegCode) (sh : BitVec 5) : Statement (.sraiw d a sh) := by
  intro _
  show rawParse (BitVec.ofNat 32 (psum 0x18002800 [bv 20 d, bv 14 a, bv 0 sh])) = _
  rw [major6 (bits_psum [(20, 6), (14, 6), (0, 5)] rfl (by decide))]
  obtain ⟨h0, h1, h2⟩ := layout4 0x18002800 d a sh (by decide)
  rw [leaf_sraiw (bits_psum [(20, 6), (14, 6), (0, 5)] rfl (by decide))]
  rw [h0, h1, h2]

theorem rori (d a : RegCode) (sh : BitVec 6) : Statement (.rori d a sh) := by
  intro _
  show rawParse (BitVec.ofNat 32 (psum 0x18003000 [bv 20 d, bv 14 a, bv 0 sh])) = _
  rw [major6 (bits_psum [(20, 6), (14, 6), (0, 6)] rfl (by decide))]
  obtain ⟨h0, h1, h2⟩ := layout3 0x18003000 d a sh (by decide)
  rw [leaf_rori (bits_psum [(20, 6), (14, 6), (0, 6)] rfl (by decide))]
  rw [h0, h1, h2]

theorem roriw (d a : RegCode) (sh : BitVec 5) : Statement (.roriw d a sh) := by
  intro _
  show rawParse (BitVec.ofNat 32 (psum 0x18003800 [bv 20 d, bv 14 a, bv 0 sh])) = _
  rw [major6 (bits_psum [(20, 6), (14, 6), (0, 5)] rfl (by decide))]
  obtain ⟨h0, h1, h2⟩ := layout4 0x18003800 d a sh (by decide)
  rw [leaf_roriw (bits_psum [(20, 6), (14, 6), (0, 5)] rfl (by decide))]
  rw [h0, h1, h2]

theorem slti (d a : RegCode) (imm : BitVec 12) : Statement (.slti d a imm) := by
  intro _
  show rawParse (BitVec.ofNat 32 (psum 0x1c000000 [bv 20 d, bv 14 a, bv 0 imm])) = _
  rw [major7 (bits_psum [(20, 6), (14, 6), (0, 12)] rfl (by decide))]
  obtain ⟨h0, h1, h2⟩ := layout2 0x1c000000 d a imm (by decide)
  rw [leaf_slti (bits_psum [(20, 6), (14, 6), (0, 12)] rfl (by decide))]
  rw [h0, h1, h2]

theorem sltiu (d a : RegCode) (imm : BitVec 12) : Statement (.sltiu d a imm) := by
  intro _
  show rawParse (BitVec.ofNat 32 (psum 0x1c001000 [bv 20 d, bv 14 a, bv 0 imm])) = _
  rw [major7 (bits_psum [(20, 6), (14, 6), (0, 12)] rfl (by decide))]
  obtain ⟨h0, h1, h2⟩ := layout2 0x1c001000 d a imm (by decide)
  rw [leaf_sltiu (bits_psum [(20, 6), (14, 6), (0, 12)] rfl (by decide))]
  rw [h0, h1, h2]

theorem seqi (d a : RegCode) (imm : BitVec 12) : Statement (.seqi d a imm) := by
  intro _
  show rawParse (BitVec.ofNat 32 (psum 0x1c002000 [bv 20 d, bv 14 a, bv 0 imm])) = _
  rw [major7 (bits_psum [(20, 6), (14, 6), (0, 12)] rfl (by decide))]
  obtain ⟨h0, h1, h2⟩ := layout2 0x1c002000 d a imm (by decide)
  rw [leaf_seqi (bits_psum [(20, 6), (14, 6), (0, 12)] rfl (by decide))]
  rw [h0, h1, h2]

theorem lih (d : RegCode) (imm : BitVec 20) : Statement (.lih d imm) := by
  intro _
  show rawParse (BitVec.ofNat 32 (psum 0x20000000 [bv 20 d, bv 0 imm])) = _
  rw [major8 (bits_psum [(20, 6), (0, 20)] rfl (by decide))]
  obtain ⟨h0, h1⟩ := layout5 0x20000000 d imm (by decide)
  unfold parse08
  rw [h0, h1]

theorem addpc (d : RegCode) (imm : BitVec 20) : Statement (.addpc d imm) := by
  intro _
  show rawParse (BitVec.ofNat 32 (psum 0x24000000 [bv 20 d, bv 0 imm])) = _
  rw [major9 (bits_psum [(20, 6), (0, 20)] rfl (by decide))]
  obtain ⟨h0, h1⟩ := layout5 0x24000000 d imm (by decide)
  unfold parse09
  rw [h0, h1]

theorem brEq (a b : RegCode) (off : BitVec 11) : Statement (.brEq a b off) := by
  intro _
  show rawParse (BitVec.ofNat 32 (psum 0x28000000 [bv 20 a, bv 14 b, bv 0 off])) = _
  rw [major10 (bits_psum [(20, 6), (14, 6), (0, 11)] rfl (by decide))]
  obtain ⟨h0, h1, h2⟩ := layout6 0x28000000 a b off (by decide)
  rw [leaf_brEq (bits_psum [(20, 6), (14, 6), (0, 11)] rfl (by decide))]
  rw [h0, h1, h2]

theorem brNe (a b : RegCode) (off : BitVec 11) : Statement (.brNe a b off) := by
  intro _
  show rawParse (BitVec.ofNat 32 (psum 0x28000800 [bv 20 a, bv 14 b, bv 0 off])) = _
  rw [major10 (bits_psum [(20, 6), (14, 6), (0, 11)] rfl (by decide))]
  obtain ⟨h0, h1, h2⟩ := layout6 0x28000800 a b off (by decide)
  rw [leaf_brNe (bits_psum [(20, 6), (14, 6), (0, 11)] rfl (by decide))]
  rw [h0, h1, h2]

theorem brLt (a b : RegCode) (off : BitVec 11) : Statement (.brLt a b off) := by
  intro _
  show rawParse (BitVec.ofNat 32 (psum 0x28001000 [bv 20 a, bv 14 b, bv 0 off])) = _
  rw [major10 (bits_psum [(20, 6), (14, 6), (0, 11)] rfl (by decide))]
  obtain ⟨h0, h1, h2⟩ := layout6 0x28001000 a b off (by decide)
  rw [leaf_brLt (bits_psum [(20, 6), (14, 6), (0, 11)] rfl (by decide))]
  rw [h0, h1, h2]

theorem brGe (a b : RegCode) (off : BitVec 11) : Statement (.brGe a b off) := by
  intro _
  show rawParse (BitVec.ofNat 32 (psum 0x28001800 [bv 20 a, bv 14 b, bv 0 off])) = _
  rw [major10 (bits_psum [(20, 6), (14, 6), (0, 11)] rfl (by decide))]
  obtain ⟨h0, h1, h2⟩ := layout6 0x28001800 a b off (by decide)
  rw [leaf_brGe (bits_psum [(20, 6), (14, 6), (0, 11)] rfl (by decide))]
  rw [h0, h1, h2]

theorem brLtu (a b : RegCode) (off : BitVec 11) : Statement (.brLtu a b off) := by
  intro _
  show rawParse (BitVec.ofNat 32 (psum 0x28002000 [bv 20 a, bv 14 b, bv 0 off])) = _
  rw [major10 (bits_psum [(20, 6), (14, 6), (0, 11)] rfl (by decide))]
  obtain ⟨h0, h1, h2⟩ := layout6 0x28002000 a b off (by decide)
  rw [leaf_brLtu (bits_psum [(20, 6), (14, 6), (0, 11)] rfl (by decide))]
  rw [h0, h1, h2]

theorem brGeu (a b : RegCode) (off : BitVec 11) : Statement (.brGeu a b off) := by
  intro _
  show rawParse (BitVec.ofNat 32 (psum 0x28002800 [bv 20 a, bv 14 b, bv 0 off])) = _
  rw [major10 (bits_psum [(20, 6), (14, 6), (0, 11)] rfl (by decide))]
  obtain ⟨h0, h1, h2⟩ := layout6 0x28002800 a b off (by decide)
  rw [leaf_brGeu (bits_psum [(20, 6), (14, 6), (0, 11)] rfl (by decide))]
  rw [h0, h1, h2]

theorem bzEqz (a : RegCode) (off : BitVec 18) : Statement (.bzEqz a off) := by
  intro _
  show rawParse (BitVec.ofNat 32 (psum 0x2c000000 [bv 20 a, bv 0 off])) = _
  rw [major11 (bits_psum [(20, 6), (0, 18)] rfl (by decide))]
  obtain ⟨h0, h1⟩ := layout7 0x2c000000 a off (by decide)
  rw [leaf_bzEqz (bits_psum [(20, 6), (0, 18)] rfl (by decide))]
  rw [h0, h1]

theorem bzNez (a : RegCode) (off : BitVec 18) : Statement (.bzNez a off) := by
  intro _
  show rawParse (BitVec.ofNat 32 (psum 0x2c040000 [bv 20 a, bv 0 off])) = _
  rw [major11 (bits_psum [(20, 6), (0, 18)] rfl (by decide))]
  obtain ⟨h0, h1⟩ := layout7 0x2c040000 a off (by decide)
  rw [leaf_bzNez (bits_psum [(20, 6), (0, 18)] rfl (by decide))]
  rw [h0, h1]

theorem bzLtz (a : RegCode) (off : BitVec 18) : Statement (.bzLtz a off) := by
  intro _
  show rawParse (BitVec.ofNat 32 (psum 0x2c080000 [bv 20 a, bv 0 off])) = _
  rw [major11 (bits_psum [(20, 6), (0, 18)] rfl (by decide))]
  obtain ⟨h0, h1⟩ := layout7 0x2c080000 a off (by decide)
  rw [leaf_bzLtz (bits_psum [(20, 6), (0, 18)] rfl (by decide))]
  rw [h0, h1]

theorem bzGez (a : RegCode) (off : BitVec 18) : Statement (.bzGez a off) := by
  intro _
  show rawParse (BitVec.ofNat 32 (psum 0x2c0c0000 [bv 20 a, bv 0 off])) = _
  rw [major11 (bits_psum [(20, 6), (0, 18)] rfl (by decide))]
  obtain ⟨h0, h1⟩ := layout7 0x2c0c0000 a off (by decide)
  rw [leaf_bzGez (bits_psum [(20, 6), (0, 18)] rfl (by decide))]
  rw [h0, h1]

theorem jal (d : RegCode) (off : BitVec 20) : Statement (.jal d off) := by
  intro _
  show rawParse (BitVec.ofNat 32 (psum 0x30000000 [bv 20 d, bv 0 off])) = _
  rw [major12 (bits_psum [(20, 6), (0, 20)] rfl (by decide))]
  obtain ⟨h0, h1⟩ := layout5 0x30000000 d off (by decide)
  unfold parse0C
  rw [h0, h1]

theorem jalr (d a : RegCode) (imm : BitVec 14) : Statement (.jalr d a imm) := by
  intro _
  show rawParse (BitVec.ofNat 32 (psum 0x34000000 [bv 20 d, bv 14 a, bv 0 imm])) = _
  rw [major13 (bits_psum [(20, 6), (14, 6), (0, 14)] rfl (by decide))]
  obtain ⟨h0, h1, h2⟩ := layout1 0x34000000 d a imm (by decide)
  unfold parse0D
  rw [h0, h1, h2]

theorem loop (a : RegCode) (n : BitVec 6) : Statement (.loop a n) := by
  intro _
  show rawParse (BitVec.ofNat 32 (psum 0x38000000 [bv 14 a, bv 0 n])) = _
  rw [major14 (bits_psum [(14, 6), (0, 6)] rfl (by decide))]
  obtain ⟨h0, h1⟩ := layout8 0x38000000 a n (by decide)
  unfold parse0E
  rw [h0, h1]

theorem sel (d a b : RegCode) (hA hB : Bool) : Statement (.sel d a b hA hB) := by
  intro _
  show rawParse (BitVec.ofNat 32 (psum 0x3c000000 [bv 20 d, bv 14 a, bv 8 b, bo 7 hA, bo 6 hB])) = _
  rw [major15 (bits_psum [(20, 6), (14, 6), (8, 6), (7, 1), (6, 1)] rfl (by decide))]
  obtain ⟨h0, h1, h2, h3, h4⟩ := layout0 0x3c000000 d a b hA hB (by decide)
  rw [leaf_sel (bits_psum [(20, 6), (14, 6), (8, 6), (7, 1), (6, 1)] rfl (by decide))]
  rw [h0, h1, h2, h3, h4]

theorem clz (d a : RegCode) (hA : Bool) : Statement (.clz d a hA) := by
  intro _
  show rawParse (BitVec.ofNat 32 (psum 0x3c000001 [bv 20 d, bv 14 a, bo 7 hA])) = _
  rw [major15 (bits_psum [(20, 6), (14, 6), (7, 1)] rfl (by decide))]
  obtain ⟨h0, h1, h2⟩ := layout9 0x3c000001 d a hA (by decide)
  rw [leaf_clz (bits_psum [(20, 6), (14, 6), (7, 1)] rfl (by decide))]
  rw [h0, h1, h2]

theorem ctz (d a : RegCode) (hA : Bool) : Statement (.ctz d a hA) := by
  intro _
  show rawParse (BitVec.ofNat 32 (psum 0x3c000002 [bv 20 d, bv 14 a, bo 7 hA])) = _
  rw [major15 (bits_psum [(20, 6), (14, 6), (7, 1)] rfl (by decide))]
  obtain ⟨h0, h1, h2⟩ := layout9 0x3c000002 d a hA (by decide)
  rw [leaf_ctz (bits_psum [(20, 6), (14, 6), (7, 1)] rfl (by decide))]
  rw [h0, h1, h2]

theorem popc (d a : RegCode) (hA : Bool) : Statement (.popc d a hA) := by
  intro _
  show rawParse (BitVec.ofNat 32 (psum 0x3c000003 [bv 20 d, bv 14 a, bo 7 hA])) = _
  rw [major15 (bits_psum [(20, 6), (14, 6), (7, 1)] rfl (by decide))]
  obtain ⟨h0, h1, h2⟩ := layout9 0x3c000003 d a hA (by decide)
  rw [leaf_popc (bits_psum [(20, 6), (14, 6), (7, 1)] rfl (by decide))]
  rw [h0, h1, h2]

theorem brev (d a : RegCode) (hA : Bool) : Statement (.brev d a hA) := by
  intro _
  show rawParse (BitVec.ofNat 32 (psum 0x3c000004 [bv 20 d, bv 14 a, bo 7 hA])) = _
  rw [major15 (bits_psum [(20, 6), (14, 6), (7, 1)] rfl (by decide))]
  obtain ⟨h0, h1, h2⟩ := layout9 0x3c000004 d a hA (by decide)
  rw [leaf_brev (bits_psum [(20, 6), (14, 6), (7, 1)] rfl (by decide))]
  rw [h0, h1, h2]

theorem bswap (d a : RegCode) (hA : Bool) : Statement (.bswap d a hA) := by
  intro _
  show rawParse (BitVec.ofNat 32 (psum 0x3c000005 [bv 20 d, bv 14 a, bo 7 hA])) = _
  rw [major15 (bits_psum [(20, 6), (14, 6), (7, 1)] rfl (by decide))]
  obtain ⟨h0, h1, h2⟩ := layout9 0x3c000005 d a hA (by decide)
  rw [leaf_bswap (bits_psum [(20, 6), (14, 6), (7, 1)] rfl (by decide))]
  rw [h0, h1, h2]

theorem bfx (d a b : RegCode) (hA hB : Bool) : Statement (.bfx d a b hA hB) := by
  intro _
  show rawParse (BitVec.ofNat 32 (psum 0x3c000006 [bv 20 d, bv 14 a, bv 8 b, bo 7 hA, bo 6 hB])) = _
  rw [major15 (bits_psum [(20, 6), (14, 6), (8, 6), (7, 1), (6, 1)] rfl (by decide))]
  obtain ⟨h0, h1, h2, h3, h4⟩ := layout0 0x3c000006 d a b hA hB (by decide)
  rw [leaf_bfx (bits_psum [(20, 6), (14, 6), (8, 6), (7, 1), (6, 1)] rfl (by decide))]
  rw [h0, h1, h2, h3, h4]

theorem bfxu (d a b : RegCode) (hA hB : Bool) : Statement (.bfxu d a b hA hB) := by
  intro _
  show rawParse (BitVec.ofNat 32 (psum 0x3c000007 [bv 20 d, bv 14 a, bv 8 b, bo 7 hA, bo 6 hB])) = _
  rw [major15 (bits_psum [(20, 6), (14, 6), (8, 6), (7, 1), (6, 1)] rfl (by decide))]
  obtain ⟨h0, h1, h2, h3, h4⟩ := layout0 0x3c000007 d a b hA hB (by decide)
  rw [leaf_bfxu (bits_psum [(20, 6), (14, 6), (8, 6), (7, 1), (6, 1)] rfl (by decide))]
  rw [h0, h1, h2, h3, h4]

theorem bfi (d a b : RegCode) (hA hB : Bool) : Statement (.bfi d a b hA hB) := by
  intro _
  show rawParse (BitVec.ofNat 32 (psum 0x3c000008 [bv 20 d, bv 14 a, bv 8 b, bo 7 hA, bo 6 hB])) = _
  rw [major15 (bits_psum [(20, 6), (14, 6), (8, 6), (7, 1), (6, 1)] rfl (by decide))]
  obtain ⟨h0, h1, h2, h3, h4⟩ := layout0 0x3c000008 d a b hA hB (by decide)
  rw [leaf_bfi (bits_psum [(20, 6), (14, 6), (8, 6), (7, 1), (6, 1)] rfl (by decide))]
  rw [h0, h1, h2, h3, h4]

theorem ld (d a : RegCode) (size : BitVec 2) (uns : Bool) (off : BitVec 11) : Statement (.ld d a size uns off) := by
  intro _
  show rawParse (BitVec.ofNat 32 (psum 0x40000000 [bv 20 d, bv 14 a, bv 12 size, bo 11 uns, bv 0 off])) = _
  rw [major16 (bits_psum [(20, 6), (14, 6), (12, 2), (11, 1), (0, 11)] rfl (by decide))]
  obtain ⟨h0, h1, h2, h3, h4⟩ := layout10 0x40000000 d a size uns off (by decide)
  unfold parse10
  rw [h0, h1, h2, h3, h4]

theorem st (d a : RegCode) (size : BitVec 2) (off : BitVec 11) : Statement (.st d a size off) := by
  intro _
  show rawParse (BitVec.ofNat 32 (psum 0x44000000 [bv 20 d, bv 14 a, bv 12 size, bv 0 off])) = _
  rw [major17 (bits_psum [(20, 6), (14, 6), (12, 2), (0, 11)] rfl (by decide))]
  obtain ⟨h0, h1, h2, h3⟩ := layout11 0x44000000 d a size off (by decide)
  unfold parse11
  rw [h0, h1, h2, h3]

theorem ldx (d a b : RegCode) (hA hB : Bool) (size : BitVec 2) (uns : Bool) : Statement (.ldx d a b hA hB size uns) := by
  intro _
  show rawParse (BitVec.ofNat 32 (psum 0x48000000 [bv 20 d, bv 14 a, bv 8 b, bo 7 hA, bo 6 hB, bv 2 size, bo 1 uns])) = _
  rw [major18 (bits_psum [(20, 6), (14, 6), (8, 6), (7, 1), (6, 1), (2, 2), (1, 1)] rfl (by decide))]
  obtain ⟨h0, h1, h2, h3, h4, h5, h6⟩ := layout12 0x48000000 d a b hA hB size uns (by decide)
  rw [leaf_ldx (bits_psum [(20, 6), (14, 6), (8, 6), (7, 1), (6, 1), (2, 2), (1, 1)] rfl (by decide))]
  rw [h0, h1, h2, h3, h4, h5, h6]

theorem stx (d a b : RegCode) (hA hB : Bool) (size : BitVec 2) : Statement (.stx d a b hA hB size) := by
  intro _
  show rawParse (BitVec.ofNat 32 (psum 0x48000010 [bv 20 d, bv 14 a, bv 8 b, bo 7 hA, bo 6 hB, bv 2 size])) = _
  rw [major18 (bits_psum [(20, 6), (14, 6), (8, 6), (7, 1), (6, 1), (2, 2)] rfl (by decide))]
  obtain ⟨h0, h1, h2, h3, h4, h5⟩ := layout13 0x48000010 d a b hA hB size (by decide)
  rw [leaf_stx (bits_psum [(20, 6), (14, 6), (8, 6), (7, 1), (6, 1), (2, 2)] rfl (by decide))]
  rw [h0, h1, h2, h3, h4, h5]

theorem ldxAcq (d a b : RegCode) (hA hB dbl : Bool) (sc : Scope) : Statement (.ldxAcq d a b hA hB dbl sc) := by
  intro _
  show rawParse (BitVec.ofNat 32 (psum 0x48000020 [bv 20 d, bv 14 a, bv 8 b, bo 7 hA, bo 6 hB, bo 3 dbl, scp 0 sc])) = _
  rw [major18 (bits_psum [(20, 6), (14, 6), (8, 6), (7, 1), (6, 1), (3, 1), (0, 3)] rfl (by decide))]
  obtain ⟨h0, h1, h2, h3, h4, h5, h6⟩ := layout14 0x48000020 d a b hA hB dbl sc (by decide)
  rw [leaf_ldxAcq (bits_psum [(20, 6), (14, 6), (8, 6), (7, 1), (6, 1), (3, 1), (0, 3)] rfl (by decide))]
  rw [h6, h0, h1, h2, h3, h4, h5]

theorem stxRel (d a b : RegCode) (hA hB dbl : Bool) (sc : Scope) : Statement (.stxRel d a b hA hB dbl sc) := by
  intro _
  show rawParse (BitVec.ofNat 32 (psum 0x48000030 [bv 20 d, bv 14 a, bv 8 b, bo 7 hA, bo 6 hB, bo 3 dbl, scp 0 sc])) = _
  rw [major18 (bits_psum [(20, 6), (14, 6), (8, 6), (7, 1), (6, 1), (3, 1), (0, 3)] rfl (by decide))]
  obtain ⟨h0, h1, h2, h3, h4, h5, h6⟩ := layout14 0x48000030 d a b hA hB dbl sc (by decide)
  rw [leaf_stxRel (bits_psum [(20, 6), (14, 6), (8, 6), (7, 1), (6, 1), (3, 1), (0, 3)] rfl (by decide))]
  rw [h6, h0, h1, h2, h3, h4, h5]

theorem ldbitU (d a b : RegCode) (hA hB : Bool) (n : BitVec 4) : Statement (.ldbitU d a b hA hB n) := by
  intro _
  show rawParse (BitVec.ofNat 32 (psum 0x4c000000 [bv 20 d, bv 14 a, bv 8 b, bo 7 hA, bo 6 hB, bv 0 n])) = _
  rw [major19 (bits_psum [(20, 6), (14, 6), (8, 6), (7, 1), (6, 1), (0, 4)] rfl (by decide))]
  obtain ⟨h0, h1, h2, h3, h4, h5⟩ := layout15 0x4c000000 d a b hA hB n (by decide)
  rw [leaf_ldbitU (bits_psum [(20, 6), (14, 6), (8, 6), (7, 1), (6, 1), (0, 4)] rfl (by decide))]
  rw [h0, h1, h2, h3, h4, h5]

theorem ldbitS (d a b : RegCode) (hA hB : Bool) (n : BitVec 4) : Statement (.ldbitS d a b hA hB n) := by
  intro _
  show rawParse (BitVec.ofNat 32 (psum 0x4c000010 [bv 20 d, bv 14 a, bv 8 b, bo 7 hA, bo 6 hB, bv 0 n])) = _
  rw [major19 (bits_psum [(20, 6), (14, 6), (8, 6), (7, 1), (6, 1), (0, 4)] rfl (by decide))]
  obtain ⟨h0, h1, h2, h3, h4, h5⟩ := layout15 0x4c000010 d a b hA hB n (by decide)
  rw [leaf_ldbitS (bits_psum [(20, 6), (14, 6), (8, 6), (7, 1), (6, 1), (0, 4)] rfl (by decide))]
  rw [h0, h1, h2, h3, h4, h5]

theorem stbit (d a b : RegCode) (hA hB : Bool) (n : BitVec 4) : Statement (.stbit d a b hA hB n) := by
  intro _
  show rawParse (BitVec.ofNat 32 (psum 0x4c000020 [bv 20 d, bv 14 a, bv 8 b, bo 7 hA, bo 6 hB, bv 0 n])) = _
  rw [major19 (bits_psum [(20, 6), (14, 6), (8, 6), (7, 1), (6, 1), (0, 4)] rfl (by decide))]
  obtain ⟨h0, h1, h2, h3, h4, h5⟩ := layout15 0x4c000020 d a b hA hB n (by decide)
  rw [leaf_stbit (bits_psum [(20, 6), (14, 6), (8, 6), (7, 1), (6, 1), (0, 4)] rfl (by decide))]
  rw [h0, h1, h2, h3, h4, h5]

theorem amoAdd (d a : RegCode) (sc : Scope) (ord : BitVec 2) (dbl hA : Bool) : Statement (.amoAdd d a sc ord dbl hA) := by
  intro _
  show rawParse (BitVec.ofNat 32 (psum 0x50000000 [bv 20 d, bv 14 a, scp 11 sc, bv 9 ord, bo 8 dbl, bo 7 hA])) = _
  rw [major20 (bits_psum [(20, 6), (14, 6), (11, 3), (9, 2), (8, 1), (7, 1)] rfl (by decide))]
  obtain ⟨h0, h1, h2, h3, h4, h5⟩ := layout16 0x50000000 d a sc ord dbl hA (by decide)
  rw [leaf_amoAdd (bits_psum [(20, 6), (14, 6), (11, 3), (9, 2), (8, 1), (7, 1)] rfl (by decide))]
  rw [h2, h0, h1, h3, h4, h5]

theorem amoAnd (d a : RegCode) (sc : Scope) (ord : BitVec 2) (dbl hA : Bool) : Statement (.amoAnd d a sc ord dbl hA) := by
  intro _
  show rawParse (BitVec.ofNat 32 (psum 0x50000001 [bv 20 d, bv 14 a, scp 11 sc, bv 9 ord, bo 8 dbl, bo 7 hA])) = _
  rw [major20 (bits_psum [(20, 6), (14, 6), (11, 3), (9, 2), (8, 1), (7, 1)] rfl (by decide))]
  obtain ⟨h0, h1, h2, h3, h4, h5⟩ := layout16 0x50000001 d a sc ord dbl hA (by decide)
  rw [leaf_amoAnd (bits_psum [(20, 6), (14, 6), (11, 3), (9, 2), (8, 1), (7, 1)] rfl (by decide))]
  rw [h2, h0, h1, h3, h4, h5]

theorem amoOr (d a : RegCode) (sc : Scope) (ord : BitVec 2) (dbl hA : Bool) : Statement (.amoOr d a sc ord dbl hA) := by
  intro _
  show rawParse (BitVec.ofNat 32 (psum 0x50000002 [bv 20 d, bv 14 a, scp 11 sc, bv 9 ord, bo 8 dbl, bo 7 hA])) = _
  rw [major20 (bits_psum [(20, 6), (14, 6), (11, 3), (9, 2), (8, 1), (7, 1)] rfl (by decide))]
  obtain ⟨h0, h1, h2, h3, h4, h5⟩ := layout16 0x50000002 d a sc ord dbl hA (by decide)
  rw [leaf_amoOr (bits_psum [(20, 6), (14, 6), (11, 3), (9, 2), (8, 1), (7, 1)] rfl (by decide))]
  rw [h2, h0, h1, h3, h4, h5]

theorem amoXor (d a : RegCode) (sc : Scope) (ord : BitVec 2) (dbl hA : Bool) : Statement (.amoXor d a sc ord dbl hA) := by
  intro _
  show rawParse (BitVec.ofNat 32 (psum 0x50000003 [bv 20 d, bv 14 a, scp 11 sc, bv 9 ord, bo 8 dbl, bo 7 hA])) = _
  rw [major20 (bits_psum [(20, 6), (14, 6), (11, 3), (9, 2), (8, 1), (7, 1)] rfl (by decide))]
  obtain ⟨h0, h1, h2, h3, h4, h5⟩ := layout16 0x50000003 d a sc ord dbl hA (by decide)
  rw [leaf_amoXor (bits_psum [(20, 6), (14, 6), (11, 3), (9, 2), (8, 1), (7, 1)] rfl (by decide))]
  rw [h2, h0, h1, h3, h4, h5]

theorem amoMin (d a : RegCode) (sc : Scope) (ord : BitVec 2) (dbl hA : Bool) : Statement (.amoMin d a sc ord dbl hA) := by
  intro _
  show rawParse (BitVec.ofNat 32 (psum 0x50000004 [bv 20 d, bv 14 a, scp 11 sc, bv 9 ord, bo 8 dbl, bo 7 hA])) = _
  rw [major20 (bits_psum [(20, 6), (14, 6), (11, 3), (9, 2), (8, 1), (7, 1)] rfl (by decide))]
  obtain ⟨h0, h1, h2, h3, h4, h5⟩ := layout16 0x50000004 d a sc ord dbl hA (by decide)
  rw [leaf_amoMin (bits_psum [(20, 6), (14, 6), (11, 3), (9, 2), (8, 1), (7, 1)] rfl (by decide))]
  rw [h2, h0, h1, h3, h4, h5]

theorem amoMax (d a : RegCode) (sc : Scope) (ord : BitVec 2) (dbl hA : Bool) : Statement (.amoMax d a sc ord dbl hA) := by
  intro _
  show rawParse (BitVec.ofNat 32 (psum 0x50000005 [bv 20 d, bv 14 a, scp 11 sc, bv 9 ord, bo 8 dbl, bo 7 hA])) = _
  rw [major20 (bits_psum [(20, 6), (14, 6), (11, 3), (9, 2), (8, 1), (7, 1)] rfl (by decide))]
  obtain ⟨h0, h1, h2, h3, h4, h5⟩ := layout16 0x50000005 d a sc ord dbl hA (by decide)
  rw [leaf_amoMax (bits_psum [(20, 6), (14, 6), (11, 3), (9, 2), (8, 1), (7, 1)] rfl (by decide))]
  rw [h2, h0, h1, h3, h4, h5]

theorem amoMinu (d a : RegCode) (sc : Scope) (ord : BitVec 2) (dbl hA : Bool) : Statement (.amoMinu d a sc ord dbl hA) := by
  intro _
  show rawParse (BitVec.ofNat 32 (psum 0x50000006 [bv 20 d, bv 14 a, scp 11 sc, bv 9 ord, bo 8 dbl, bo 7 hA])) = _
  rw [major20 (bits_psum [(20, 6), (14, 6), (11, 3), (9, 2), (8, 1), (7, 1)] rfl (by decide))]
  obtain ⟨h0, h1, h2, h3, h4, h5⟩ := layout16 0x50000006 d a sc ord dbl hA (by decide)
  rw [leaf_amoMinu (bits_psum [(20, 6), (14, 6), (11, 3), (9, 2), (8, 1), (7, 1)] rfl (by decide))]
  rw [h2, h0, h1, h3, h4, h5]

theorem amoMaxu (d a : RegCode) (sc : Scope) (ord : BitVec 2) (dbl hA : Bool) : Statement (.amoMaxu d a sc ord dbl hA) := by
  intro _
  show rawParse (BitVec.ofNat 32 (psum 0x50000007 [bv 20 d, bv 14 a, scp 11 sc, bv 9 ord, bo 8 dbl, bo 7 hA])) = _
  rw [major20 (bits_psum [(20, 6), (14, 6), (11, 3), (9, 2), (8, 1), (7, 1)] rfl (by decide))]
  obtain ⟨h0, h1, h2, h3, h4, h5⟩ := layout16 0x50000007 d a sc ord dbl hA (by decide)
  rw [leaf_amoMaxu (bits_psum [(20, 6), (14, 6), (11, 3), (9, 2), (8, 1), (7, 1)] rfl (by decide))]
  rw [h2, h0, h1, h3, h4, h5]

theorem amoXchg (d a : RegCode) (sc : Scope) (ord : BitVec 2) (dbl hA : Bool) : Statement (.amoXchg d a sc ord dbl hA) := by
  intro _
  show rawParse (BitVec.ofNat 32 (psum 0x50000008 [bv 20 d, bv 14 a, scp 11 sc, bv 9 ord, bo 8 dbl, bo 7 hA])) = _
  rw [major20 (bits_psum [(20, 6), (14, 6), (11, 3), (9, 2), (8, 1), (7, 1)] rfl (by decide))]
  obtain ⟨h0, h1, h2, h3, h4, h5⟩ := layout16 0x50000008 d a sc ord dbl hA (by decide)
  rw [leaf_amoXchg (bits_psum [(20, 6), (14, 6), (11, 3), (9, 2), (8, 1), (7, 1)] rfl (by decide))]
  rw [h2, h0, h1, h3, h4, h5]

theorem amoFadd32 (d a : RegCode) (sc : Scope) (ord : BitVec 2) (hA : Bool) : Statement (.amoFadd32 d a sc ord hA) := by
  intro _
  show rawParse (BitVec.ofNat 32 (psum 0x50000009 [bv 20 d, bv 14 a, scp 11 sc, bv 9 ord, bo 7 hA])) = _
  rw [major20 (bits_psum [(20, 6), (14, 6), (11, 3), (9, 2), (7, 1)] rfl (by decide))]
  obtain ⟨h0, h1, h2, h3, h4⟩ := layout17 0x50000009 d a sc ord hA (by decide)
  rw [leaf_amoFadd32 (bits_psum [(20, 6), (14, 6), (11, 3), (9, 2), (7, 1)] rfl (by decide))]
  rw [h2, h0, h1, h3, h4]

theorem cas (d a b : RegCode) (hA hB : Bool) (sc : Scope) (ord : BitVec 2) (dbl : Bool) : Statement (.cas d a b hA hB sc ord dbl) := by
  intro _
  show rawParse (BitVec.ofNat 32 (psum 0x54000000 [bv 20 d, bv 14 a, bv 8 b, bo 7 hA, bo 6 hB, scp 3 sc, bv 1 ord, bo 0 dbl])) = _
  rw [major21 (bits_psum [(20, 6), (14, 6), (8, 6), (7, 1), (6, 1), (3, 3), (1, 2), (0, 1)] rfl (by decide))]
  obtain ⟨h0, h1, h2, h3, h4, h5, h6, h7⟩ := layout18 0x54000000 d a b hA hB sc ord dbl (by decide)
  unfold parse15
  rw [h5, h0, h1, h2, h3, h4, h6, h7]

theorem fenceAcq (sc : Scope) : Statement (.fenceAcq sc) := by
  intro _
  show rawParse (BitVec.ofNat 32 (psum 0x58000002 [scp 3 sc])) = _
  rw [major22 (bits_psum [(3, 3)] rfl (by decide))]
  have h0 := layout19 0x58000002 sc (by decide)
  rw [leaf_fenceAcq (bits_psum [(3, 3)] rfl (by decide))]
  rw [h0]

theorem fenceRel (sc : Scope) : Statement (.fenceRel sc) := by
  intro _
  show rawParse (BitVec.ofNat 32 (psum 0x58000004 [scp 3 sc])) = _
  rw [major22 (bits_psum [(3, 3)] rfl (by decide))]
  have h0 := layout19 0x58000004 sc (by decide)
  rw [leaf_fenceRel (bits_psum [(3, 3)] rfl (by decide))]
  rw [h0]

theorem fenceFull (sc : Scope) : Statement (.fenceFull sc) := by
  intro _
  show rawParse (BitVec.ofNat 32 (psum 0x58000006 [scp 3 sc])) = _
  rw [major22 (bits_psum [(3, 3)] rfl (by decide))]
  have h0 := layout19 0x58000006 sc (by decide)
  rw [leaf_fenceFull (bits_psum [(3, 3)] rfl (by decide))]
  rw [h0]

theorem pref (a : RegCode) (off : BitVec 8) : Statement (.pref a off) := by
  intro _
  show rawParse (BitVec.ofNat 32 (psum 0x5c000000 [bv 14 a, bv 0 off])) = _
  rw [major23 (bits_psum [(14, 6), (0, 8)] rfl (by decide))]
  obtain ⟨h0, h1⟩ := layout20 0x5c000000 a off (by decide)
  rw [leaf_pref (bits_psum [(14, 6), (0, 8)] rfl (by decide))]
  rw [h0, h1]

theorem prefL2 (a : RegCode) (off : BitVec 8) : Statement (.prefL2 a off) := by
  intro _
  show rawParse (BitVec.ofNat 32 (psum 0x5c000800 [bv 14 a, bv 0 off])) = _
  rw [major23 (bits_psum [(14, 6), (0, 8)] rfl (by decide))]
  obtain ⟨h0, h1⟩ := layout20 0x5c000800 a off (by decide)
  rw [leaf_prefL2 (bits_psum [(14, 6), (0, 8)] rfl (by decide))]
  rw [h0, h1]

theorem clwb (a : RegCode) (sc : Scope) (off : BitVec 8) : Statement (.clwb a sc off) := by
  intro _
  show rawParse (BitVec.ofNat 32 (psum 0x5c001000 [bv 14 a, scp 8 sc, bv 0 off])) = _
  rw [major23 (bits_psum [(14, 6), (8, 3), (0, 8)] rfl (by decide))]
  obtain ⟨h0, h1, h2⟩ := layout21 0x5c001000 a sc off (by decide)
  rw [leaf_clwb (bits_psum [(14, 6), (8, 3), (0, 8)] rfl (by decide))]
  rw [h1, h0, h2]

theorem clinv (a : RegCode) (sc : Scope) (off : BitVec 8) : Statement (.clinv a sc off) := by
  intro _
  show rawParse (BitVec.ofNat 32 (psum 0x5c001800 [bv 14 a, scp 8 sc, bv 0 off])) = _
  rw [major23 (bits_psum [(14, 6), (8, 3), (0, 8)] rfl (by decide))]
  obtain ⟨h0, h1, h2⟩ := layout21 0x5c001800 a sc off (by decide)
  rw [leaf_clinv (bits_psum [(14, 6), (8, 3), (0, 8)] rfl (by decide))]
  rw [h1, h0, h2]

theorem fadd (d a b : RegCode) (hA hB : Bool) : Statement (.fadd d a b hA hB) := by
  intro _
  show rawParse (BitVec.ofNat 32 (psum 0x60000000 [bv 20 d, bv 14 a, bv 8 b, bo 7 hA, bo 6 hB])) = _
  rw [major24 (bits_psum [(20, 6), (14, 6), (8, 6), (7, 1), (6, 1)] rfl (by decide))]
  obtain ⟨h0, h1, h2, h3, h4⟩ := layout0 0x60000000 d a b hA hB (by decide)
  rw [leaf_fadd (bits_psum [(20, 6), (14, 6), (8, 6), (7, 1), (6, 1)] rfl (by decide))]
  rw [h0, h1, h2, h3, h4]

theorem fsub (d a b : RegCode) (hA hB : Bool) : Statement (.fsub d a b hA hB) := by
  intro _
  show rawParse (BitVec.ofNat 32 (psum 0x60000001 [bv 20 d, bv 14 a, bv 8 b, bo 7 hA, bo 6 hB])) = _
  rw [major24 (bits_psum [(20, 6), (14, 6), (8, 6), (7, 1), (6, 1)] rfl (by decide))]
  obtain ⟨h0, h1, h2, h3, h4⟩ := layout0 0x60000001 d a b hA hB (by decide)
  rw [leaf_fsub (bits_psum [(20, 6), (14, 6), (8, 6), (7, 1), (6, 1)] rfl (by decide))]
  rw [h0, h1, h2, h3, h4]

theorem fmul (d a b : RegCode) (hA hB : Bool) : Statement (.fmul d a b hA hB) := by
  intro _
  show rawParse (BitVec.ofNat 32 (psum 0x60000002 [bv 20 d, bv 14 a, bv 8 b, bo 7 hA, bo 6 hB])) = _
  rw [major24 (bits_psum [(20, 6), (14, 6), (8, 6), (7, 1), (6, 1)] rfl (by decide))]
  obtain ⟨h0, h1, h2, h3, h4⟩ := layout0 0x60000002 d a b hA hB (by decide)
  rw [leaf_fmul (bits_psum [(20, 6), (14, 6), (8, 6), (7, 1), (6, 1)] rfl (by decide))]
  rw [h0, h1, h2, h3, h4]

theorem fdiv (d a b : RegCode) (hA hB : Bool) : Statement (.fdiv d a b hA hB) := by
  intro _
  show rawParse (BitVec.ofNat 32 (psum 0x60000003 [bv 20 d, bv 14 a, bv 8 b, bo 7 hA, bo 6 hB])) = _
  rw [major24 (bits_psum [(20, 6), (14, 6), (8, 6), (7, 1), (6, 1)] rfl (by decide))]
  obtain ⟨h0, h1, h2, h3, h4⟩ := layout0 0x60000003 d a b hA hB (by decide)
  rw [leaf_fdiv (bits_psum [(20, 6), (14, 6), (8, 6), (7, 1), (6, 1)] rfl (by decide))]
  rw [h0, h1, h2, h3, h4]

theorem fsqrt (d a : RegCode) (hA : Bool) : Statement (.fsqrt d a hA) := by
  intro _
  show rawParse (BitVec.ofNat 32 (psum 0x60000004 [bv 20 d, bv 14 a, bo 7 hA])) = _
  rw [major24 (bits_psum [(20, 6), (14, 6), (7, 1)] rfl (by decide))]
  obtain ⟨h0, h1, h2⟩ := layout9 0x60000004 d a hA (by decide)
  rw [leaf_fsqrt (bits_psum [(20, 6), (14, 6), (7, 1)] rfl (by decide))]
  rw [h0, h1, h2]

theorem fmin (d a b : RegCode) (hA hB : Bool) : Statement (.fmin d a b hA hB) := by
  intro _
  show rawParse (BitVec.ofNat 32 (psum 0x60000005 [bv 20 d, bv 14 a, bv 8 b, bo 7 hA, bo 6 hB])) = _
  rw [major24 (bits_psum [(20, 6), (14, 6), (8, 6), (7, 1), (6, 1)] rfl (by decide))]
  obtain ⟨h0, h1, h2, h3, h4⟩ := layout0 0x60000005 d a b hA hB (by decide)
  rw [leaf_fmin (bits_psum [(20, 6), (14, 6), (8, 6), (7, 1), (6, 1)] rfl (by decide))]
  rw [h0, h1, h2, h3, h4]

theorem fmax (d a b : RegCode) (hA hB : Bool) : Statement (.fmax d a b hA hB) := by
  intro _
  show rawParse (BitVec.ofNat 32 (psum 0x60000006 [bv 20 d, bv 14 a, bv 8 b, bo 7 hA, bo 6 hB])) = _
  rw [major24 (bits_psum [(20, 6), (14, 6), (8, 6), (7, 1), (6, 1)] rfl (by decide))]
  obtain ⟨h0, h1, h2, h3, h4⟩ := layout0 0x60000006 d a b hA hB (by decide)
  rw [leaf_fmax (bits_psum [(20, 6), (14, 6), (8, 6), (7, 1), (6, 1)] rfl (by decide))]
  rw [h0, h1, h2, h3, h4]

theorem fabs (d a : RegCode) (hA : Bool) : Statement (.fabs d a hA) := by
  intro _
  show rawParse (BitVec.ofNat 32 (psum 0x60000007 [bv 20 d, bv 14 a, bo 7 hA])) = _
  rw [major24 (bits_psum [(20, 6), (14, 6), (7, 1)] rfl (by decide))]
  obtain ⟨h0, h1, h2⟩ := layout9 0x60000007 d a hA (by decide)
  rw [leaf_fabs (bits_psum [(20, 6), (14, 6), (7, 1)] rfl (by decide))]
  rw [h0, h1, h2]

theorem fneg (d a : RegCode) (hA : Bool) : Statement (.fneg d a hA) := by
  intro _
  show rawParse (BitVec.ofNat 32 (psum 0x60000008 [bv 20 d, bv 14 a, bo 7 hA])) = _
  rw [major24 (bits_psum [(20, 6), (14, 6), (7, 1)] rfl (by decide))]
  obtain ⟨h0, h1, h2⟩ := layout9 0x60000008 d a hA (by decide)
  rw [leaf_fneg (bits_psum [(20, 6), (14, 6), (7, 1)] rfl (by decide))]
  rw [h0, h1, h2]

theorem fcps (d a b : RegCode) (hA hB : Bool) : Statement (.fcps d a b hA hB) := by
  intro _
  show rawParse (BitVec.ofNat 32 (psum 0x60000009 [bv 20 d, bv 14 a, bv 8 b, bo 7 hA, bo 6 hB])) = _
  rw [major24 (bits_psum [(20, 6), (14, 6), (8, 6), (7, 1), (6, 1)] rfl (by decide))]
  obtain ⟨h0, h1, h2, h3, h4⟩ := layout0 0x60000009 d a b hA hB (by decide)
  rw [leaf_fcps (bits_psum [(20, 6), (14, 6), (8, 6), (7, 1), (6, 1)] rfl (by decide))]
  rw [h0, h1, h2, h3, h4]

theorem frnd (d a : RegCode) (hA : Bool) : Statement (.frnd d a hA) := by
  intro _
  show rawParse (BitVec.ofNat 32 (psum 0x6000000a [bv 20 d, bv 14 a, bo 7 hA])) = _
  rw [major24 (bits_psum [(20, 6), (14, 6), (7, 1)] rfl (by decide))]
  obtain ⟨h0, h1, h2⟩ := layout9 0x6000000a d a hA (by decide)
  rw [leaf_frnd (bits_psum [(20, 6), (14, 6), (7, 1)] rfl (by decide))]
  rw [h0, h1, h2]

theorem fmac (d a b : RegCode) (hA hB : Bool) : Statement (.fmac d a b hA hB) := by
  intro _
  show rawParse (BitVec.ofNat 32 (psum 0x64000000 [bv 20 d, bv 14 a, bv 8 b, bo 7 hA, bo 6 hB])) = _
  rw [major25 (bits_psum [(20, 6), (14, 6), (8, 6), (7, 1), (6, 1)] rfl (by decide))]
  obtain ⟨h0, h1, h2, h3, h4⟩ := layout0 0x64000000 d a b hA hB (by decide)
  rw [leaf_fmac (bits_psum [(20, 6), (14, 6), (8, 6), (7, 1), (6, 1)] rfl (by decide))]
  rw [h0, h1, h2, h3, h4]

theorem fmsc (d a b : RegCode) (hA hB : Bool) : Statement (.fmsc d a b hA hB) := by
  intro _
  show rawParse (BitVec.ofNat 32 (psum 0x64000001 [bv 20 d, bv 14 a, bv 8 b, bo 7 hA, bo 6 hB])) = _
  rw [major25 (bits_psum [(20, 6), (14, 6), (8, 6), (7, 1), (6, 1)] rfl (by decide))]
  obtain ⟨h0, h1, h2, h3, h4⟩ := layout0 0x64000001 d a b hA hB (by decide)
  rw [leaf_fmsc (bits_psum [(20, 6), (14, 6), (8, 6), (7, 1), (6, 1)] rfl (by decide))]
  rw [h0, h1, h2, h3, h4]

theorem fnmac (d a b : RegCode) (hA hB : Bool) : Statement (.fnmac d a b hA hB) := by
  intro _
  show rawParse (BitVec.ofNat 32 (psum 0x64000002 [bv 20 d, bv 14 a, bv 8 b, bo 7 hA, bo 6 hB])) = _
  rw [major25 (bits_psum [(20, 6), (14, 6), (8, 6), (7, 1), (6, 1)] rfl (by decide))]
  obtain ⟨h0, h1, h2, h3, h4⟩ := layout0 0x64000002 d a b hA hB (by decide)
  rw [leaf_fnmac (bits_psum [(20, 6), (14, 6), (8, 6), (7, 1), (6, 1)] rfl (by decide))]
  rw [h0, h1, h2, h3, h4]

theorem feq (d a b : RegCode) (hA hB : Bool) : Statement (.feq d a b hA hB) := by
  intro _
  show rawParse (BitVec.ofNat 32 (psum 0x68000000 [bv 20 d, bv 14 a, bv 8 b, bo 7 hA, bo 6 hB])) = _
  rw [major26 (bits_psum [(20, 6), (14, 6), (8, 6), (7, 1), (6, 1)] rfl (by decide))]
  obtain ⟨h0, h1, h2, h3, h4⟩ := layout0 0x68000000 d a b hA hB (by decide)
  rw [leaf_feq (bits_psum [(20, 6), (14, 6), (8, 6), (7, 1), (6, 1)] rfl (by decide))]
  rw [h0, h1, h2, h3, h4]

theorem flt (d a b : RegCode) (hA hB : Bool) : Statement (.flt d a b hA hB) := by
  intro _
  show rawParse (BitVec.ofNat 32 (psum 0x68000001 [bv 20 d, bv 14 a, bv 8 b, bo 7 hA, bo 6 hB])) = _
  rw [major26 (bits_psum [(20, 6), (14, 6), (8, 6), (7, 1), (6, 1)] rfl (by decide))]
  obtain ⟨h0, h1, h2, h3, h4⟩ := layout0 0x68000001 d a b hA hB (by decide)
  rw [leaf_flt (bits_psum [(20, 6), (14, 6), (8, 6), (7, 1), (6, 1)] rfl (by decide))]
  rw [h0, h1, h2, h3, h4]

theorem fle (d a b : RegCode) (hA hB : Bool) : Statement (.fle d a b hA hB) := by
  intro _
  show rawParse (BitVec.ofNat 32 (psum 0x68000002 [bv 20 d, bv 14 a, bv 8 b, bo 7 hA, bo 6 hB])) = _
  rw [major26 (bits_psum [(20, 6), (14, 6), (8, 6), (7, 1), (6, 1)] rfl (by decide))]
  obtain ⟨h0, h1, h2, h3, h4⟩ := layout0 0x68000002 d a b hA hB (by decide)
  rw [leaf_fle (bits_psum [(20, 6), (14, 6), (8, 6), (7, 1), (6, 1)] rfl (by decide))]
  rw [h0, h1, h2, h3, h4]

theorem fclass (d a : RegCode) (hA : Bool) : Statement (.fclass d a hA) := by
  intro _
  show rawParse (BitVec.ofNat 32 (psum 0x68000003 [bv 20 d, bv 14 a, bo 7 hA])) = _
  rw [major26 (bits_psum [(20, 6), (14, 6), (7, 1)] rfl (by decide))]
  obtain ⟨h0, h1, h2⟩ := layout9 0x68000003 d a hA (by decide)
  rw [leaf_fclass (bits_psum [(20, 6), (14, 6), (7, 1)] rfl (by decide))]
  rw [h0, h1, h2]

theorem fcvt (d a : RegCode) (hA : Bool) : Statement (.fcvt d a hA) := by
  intro _
  show rawParse (BitVec.ofNat 32 (psum 0x68000004 [bv 20 d, bv 14 a, bo 7 hA])) = _
  rw [major26 (bits_psum [(20, 6), (14, 6), (7, 1)] rfl (by decide))]
  obtain ⟨h0, h1, h2⟩ := layout9 0x68000004 d a hA (by decide)
  rw [leaf_fcvt (bits_psum [(20, 6), (14, 6), (7, 1)] rfl (by decide))]
  rw [h0, h1, h2]

theorem fcvti (d a : RegCode) (hA : Bool) : Statement (.fcvti d a hA) := by
  intro _
  show rawParse (BitVec.ofNat 32 (psum 0x68000005 [bv 20 d, bv 14 a, bo 7 hA])) = _
  rw [major26 (bits_psum [(20, 6), (14, 6), (7, 1)] rfl (by decide))]
  obtain ⟨h0, h1, h2⟩ := layout9 0x68000005 d a hA (by decide)
  rw [leaf_fcvti (bits_psum [(20, 6), (14, 6), (7, 1)] rfl (by decide))]
  rw [h0, h1, h2]

theorem fcvtf (d a : RegCode) (hA : Bool) : Statement (.fcvtf d a hA) := by
  intro _
  show rawParse (BitVec.ofNat 32 (psum 0x68000006 [bv 20 d, bv 14 a, bo 7 hA])) = _
  rw [major26 (bits_psum [(20, 6), (14, 6), (7, 1)] rfl (by decide))]
  obtain ⟨h0, h1, h2⟩ := layout9 0x68000006 d a hA (by decide)
  rw [leaf_fcvtf (bits_psum [(20, 6), (14, 6), (7, 1)] rfl (by decide))]
  rw [h0, h1, h2]

theorem pfx (fa fb fd : BitVec 4) (rnd : BitVec 3) (sat : Bool) : Statement (.pfx fa fb fd rnd sat) := by
  intro _
  show rawParse (BitVec.ofNat 32 (psum 0x6c000000 [bv 22 fa, bv 18 fb, bv 14 fd, bv 11 rnd, bo 10 sat])) = _
  rw [major27 (bits_psum [(22, 4), (18, 4), (14, 4), (11, 3), (10, 1)] rfl (by decide))]
  obtain ⟨h0, h1, h2, h3, h4⟩ := layout22 0x6c000000 fa fb fd rnd sat (by decide)
  unfold parse1B
  rw [h0, h1, h2, h3, h4]

theorem vadd (vd va vb : BitVec 3) (q : BitVec 2) (ty : VType) : Statement (.vadd vd va vb q ty) := by
  intro _
  show rawParse (BitVec.ofNat 32 (psum 0x80000000 [bv 23 vd, bv 20 va, bv 17 vb, bv 15 q, typ 12 ty])) = _
  rw [major32 (bits_psum [(23, 3), (20, 3), (17, 3), (15, 2), (12, 3)] rfl (by decide))]
  obtain ⟨h0, h1, h2, h3, h4⟩ := layout23 0x80000000 vd va vb q ty (by decide)
  rw [leaf_vadd (bits_psum [(23, 3), (20, 3), (17, 3), (15, 2), (12, 3)] rfl (by decide)) (bits_psum [(23, 3), (20, 3), (17, 3), (15, 2), (12, 3)] rfl (by decide))]
  rw [h4, h0, h1, h2, h3]

theorem vsub (vd va vb : BitVec 3) (q : BitVec 2) (ty : VType) : Statement (.vsub vd va vb q ty) := by
  intro _
  show rawParse (BitVec.ofNat 32 (psum 0x80000001 [bv 23 vd, bv 20 va, bv 17 vb, bv 15 q, typ 12 ty])) = _
  rw [major32 (bits_psum [(23, 3), (20, 3), (17, 3), (15, 2), (12, 3)] rfl (by decide))]
  obtain ⟨h0, h1, h2, h3, h4⟩ := layout23 0x80000001 vd va vb q ty (by decide)
  rw [leaf_vsub (bits_psum [(23, 3), (20, 3), (17, 3), (15, 2), (12, 3)] rfl (by decide)) (bits_psum [(23, 3), (20, 3), (17, 3), (15, 2), (12, 3)] rfl (by decide))]
  rw [h4, h0, h1, h2, h3]

theorem vmul (vd va vb : BitVec 3) (q : BitVec 2) (ty : VType) : Statement (.vmul vd va vb q ty) := by
  intro _
  show rawParse (BitVec.ofNat 32 (psum 0x80000002 [bv 23 vd, bv 20 va, bv 17 vb, bv 15 q, typ 12 ty])) = _
  rw [major32 (bits_psum [(23, 3), (20, 3), (17, 3), (15, 2), (12, 3)] rfl (by decide))]
  obtain ⟨h0, h1, h2, h3, h4⟩ := layout23 0x80000002 vd va vb q ty (by decide)
  rw [leaf_vmul (bits_psum [(23, 3), (20, 3), (17, 3), (15, 2), (12, 3)] rfl (by decide)) (bits_psum [(23, 3), (20, 3), (17, 3), (15, 2), (12, 3)] rfl (by decide))]
  rw [h4, h0, h1, h2, h3]

theorem vmin (vd va vb : BitVec 3) (q : BitVec 2) (ty : VType) : Statement (.vmin vd va vb q ty) := by
  intro _
  show rawParse (BitVec.ofNat 32 (psum 0x80000003 [bv 23 vd, bv 20 va, bv 17 vb, bv 15 q, typ 12 ty])) = _
  rw [major32 (bits_psum [(23, 3), (20, 3), (17, 3), (15, 2), (12, 3)] rfl (by decide))]
  obtain ⟨h0, h1, h2, h3, h4⟩ := layout23 0x80000003 vd va vb q ty (by decide)
  rw [leaf_vmin (bits_psum [(23, 3), (20, 3), (17, 3), (15, 2), (12, 3)] rfl (by decide)) (bits_psum [(23, 3), (20, 3), (17, 3), (15, 2), (12, 3)] rfl (by decide))]
  rw [h4, h0, h1, h2, h3]

theorem vmax (vd va vb : BitVec 3) (q : BitVec 2) (ty : VType) : Statement (.vmax vd va vb q ty) := by
  intro _
  show rawParse (BitVec.ofNat 32 (psum 0x80000004 [bv 23 vd, bv 20 va, bv 17 vb, bv 15 q, typ 12 ty])) = _
  rw [major32 (bits_psum [(23, 3), (20, 3), (17, 3), (15, 2), (12, 3)] rfl (by decide))]
  obtain ⟨h0, h1, h2, h3, h4⟩ := layout23 0x80000004 vd va vb q ty (by decide)
  rw [leaf_vmax (bits_psum [(23, 3), (20, 3), (17, 3), (15, 2), (12, 3)] rfl (by decide)) (bits_psum [(23, 3), (20, 3), (17, 3), (15, 2), (12, 3)] rfl (by decide))]
  rw [h4, h0, h1, h2, h3]

theorem vand (vd va vb : BitVec 3) (q : BitVec 2) : Statement (.vand vd va vb q) := by
  intro _
  show rawParse (BitVec.ofNat 32 (psum 0x80000005 [bv 23 vd, bv 20 va, bv 17 vb, bv 15 q])) = _
  rw [major32 (bits_psum [(23, 3), (20, 3), (17, 3), (15, 2)] rfl (by decide))]
  obtain ⟨h0, h1, h2, h3⟩ := layout24 0x80000005 vd va vb q (by decide)
  rw [leaf_vand (bits_psum [(23, 3), (20, 3), (17, 3), (15, 2)] rfl (by decide)) (bits_psum [(23, 3), (20, 3), (17, 3), (15, 2)] rfl (by decide))]
  rw [h0, h1, h2, h3]

theorem vor (vd va vb : BitVec 3) (q : BitVec 2) : Statement (.vor vd va vb q) := by
  intro _
  show rawParse (BitVec.ofNat 32 (psum 0x80000006 [bv 23 vd, bv 20 va, bv 17 vb, bv 15 q])) = _
  rw [major32 (bits_psum [(23, 3), (20, 3), (17, 3), (15, 2)] rfl (by decide))]
  obtain ⟨h0, h1, h2, h3⟩ := layout24 0x80000006 vd va vb q (by decide)
  rw [leaf_vor (bits_psum [(23, 3), (20, 3), (17, 3), (15, 2)] rfl (by decide)) (bits_psum [(23, 3), (20, 3), (17, 3), (15, 2)] rfl (by decide))]
  rw [h0, h1, h2, h3]

theorem vxor (vd va vb : BitVec 3) (q : BitVec 2) : Statement (.vxor vd va vb q) := by
  intro _
  show rawParse (BitVec.ofNat 32 (psum 0x80000007 [bv 23 vd, bv 20 va, bv 17 vb, bv 15 q])) = _
  rw [major32 (bits_psum [(23, 3), (20, 3), (17, 3), (15, 2)] rfl (by decide))]
  obtain ⟨h0, h1, h2, h3⟩ := layout24 0x80000007 vd va vb q (by decide)
  rw [leaf_vxor (bits_psum [(23, 3), (20, 3), (17, 3), (15, 2)] rfl (by decide)) (bits_psum [(23, 3), (20, 3), (17, 3), (15, 2)] rfl (by decide))]
  rw [h0, h1, h2, h3]

theorem vshl (vd va vb : BitVec 3) (q : BitVec 2) (ty : VType) : Statement (.vshl vd va vb q ty) := by
  intro _
  show rawParse (BitVec.ofNat 32 (psum 0x80000008 [bv 23 vd, bv 20 va, bv 17 vb, bv 15 q, typ 12 ty])) = _
  rw [major32 (bits_psum [(23, 3), (20, 3), (17, 3), (15, 2), (12, 3)] rfl (by decide))]
  obtain ⟨h0, h1, h2, h3, h4⟩ := layout23 0x80000008 vd va vb q ty (by decide)
  rw [leaf_vshl (bits_psum [(23, 3), (20, 3), (17, 3), (15, 2), (12, 3)] rfl (by decide)) (bits_psum [(23, 3), (20, 3), (17, 3), (15, 2), (12, 3)] rfl (by decide))]
  rw [h4, h0, h1, h2, h3]

theorem vshr (vd va vb : BitVec 3) (q : BitVec 2) (ty : VType) : Statement (.vshr vd va vb q ty) := by
  intro _
  show rawParse (BitVec.ofNat 32 (psum 0x80000009 [bv 23 vd, bv 20 va, bv 17 vb, bv 15 q, typ 12 ty])) = _
  rw [major32 (bits_psum [(23, 3), (20, 3), (17, 3), (15, 2), (12, 3)] rfl (by decide))]
  obtain ⟨h0, h1, h2, h3, h4⟩ := layout23 0x80000009 vd va vb q ty (by decide)
  rw [leaf_vshr (bits_psum [(23, 3), (20, 3), (17, 3), (15, 2), (12, 3)] rfl (by decide)) (bits_psum [(23, 3), (20, 3), (17, 3), (15, 2), (12, 3)] rfl (by decide))]
  rw [h4, h0, h1, h2, h3]

theorem vsra (vd va vb : BitVec 3) (q : BitVec 2) (ty : VType) : Statement (.vsra vd va vb q ty) := by
  intro _
  show rawParse (BitVec.ofNat 32 (psum 0x8000000a [bv 23 vd, bv 20 va, bv 17 vb, bv 15 q, typ 12 ty])) = _
  rw [major32 (bits_psum [(23, 3), (20, 3), (17, 3), (15, 2), (12, 3)] rfl (by decide))]
  obtain ⟨h0, h1, h2, h3, h4⟩ := layout23 0x8000000a vd va vb q ty (by decide)
  rw [leaf_vsra (bits_psum [(23, 3), (20, 3), (17, 3), (15, 2), (12, 3)] rfl (by decide)) (bits_psum [(23, 3), (20, 3), (17, 3), (15, 2), (12, 3)] rfl (by decide))]
  rw [h4, h0, h1, h2, h3]

theorem vsel (vd va vb : BitVec 3) (q : BitVec 2) : Statement (.vsel vd va vb q) := by
  intro _
  show rawParse (BitVec.ofNat 32 (psum 0x8000000b [bv 23 vd, bv 20 va, bv 17 vb, bv 15 q])) = _
  rw [major32 (bits_psum [(23, 3), (20, 3), (17, 3), (15, 2)] rfl (by decide))]
  obtain ⟨h0, h1, h2, h3⟩ := layout24 0x8000000b vd va vb q (by decide)
  rw [leaf_vsel (bits_psum [(23, 3), (20, 3), (17, 3), (15, 2)] rfl (by decide)) (bits_psum [(23, 3), (20, 3), (17, 3), (15, 2)] rfl (by decide))]
  rw [h0, h1, h2, h3]

theorem vcmp (qd : BitVec 2) (va vb : BitVec 3) (q : BitVec 2) (ty : VType) (cond : BitVec 3) : Statement (.vcmp qd va vb q ty cond) := by
  intro _
  show rawParse (BitVec.ofNat 32 (psum 0x80000010 [bv 23 qd, bv 20 va, bv 17 vb, bv 15 q, typ 12 ty, bv 0 cond])) = _
  rw [major32 (bits_psum [(23, 2), (20, 3), (17, 3), (15, 2), (12, 3), (0, 3)] rfl (by decide))]
  obtain ⟨h0, h1, h2, h3, h4, h5⟩ := layout25 0x80000010 qd va vb q ty cond (by decide)
  rw [leaf_vcmp (bits_psum [(23, 2), (20, 3), (17, 3), (15, 2), (12, 3), (0, 3)] rfl (by decide))]
  rw [h4, h0, h1, h2, h3, h5]

theorem vcvt (vd va part : BitVec 3) (q : BitVec 2) (ty : VType) : Statement (.vcvt vd va part q ty) := by
  intro _
  show rawParse (BitVec.ofNat 32 (psum 0x80000018 [bv 23 vd, bv 20 va, bv 17 part, bv 15 q, typ 12 ty])) = _
  rw [major32 (bits_psum [(23, 3), (20, 3), (17, 3), (15, 2), (12, 3)] rfl (by decide))]
  obtain ⟨h0, h1, h2, h3, h4⟩ := layout23 0x80000018 vd va part q ty (by decide)
  rw [leaf_vcvt (bits_psum [(23, 3), (20, 3), (17, 3), (15, 2), (12, 3)] rfl (by decide)) (bits_psum [(23, 3), (20, 3), (17, 3), (15, 2), (12, 3)] rfl (by decide))]
  rw [h4, h0, h1, h2, h3]

theorem vaddVs (vd va : BitVec 3) (q : BitVec 2) (ty : VType) (g : RegCode) : Statement (.vaddVs vd va q ty g) := by
  intro _
  show rawParse (BitVec.ofNat 32 (psum 0x80000020 [bv 23 vd, bv 20 va, bv 15 q, typ 12 ty, bv 6 g])) = _
  rw [major32 (bits_psum [(23, 3), (20, 3), (15, 2), (12, 3), (6, 6)] rfl (by decide))]
  obtain ⟨h0, h1, h2, h3, h4⟩ := layout26 0x80000020 vd va q ty g (by decide)
  rw [leaf_vaddVs (bits_psum [(23, 3), (20, 3), (15, 2), (12, 3), (6, 6)] rfl (by decide)) (bits_psum [(23, 3), (20, 3), (15, 2), (12, 3), (6, 6)] rfl (by decide))]
  rw [h3, h0, h1, h2, h4]

theorem vsubVs (vd va : BitVec 3) (q : BitVec 2) (ty : VType) (g : RegCode) : Statement (.vsubVs vd va q ty g) := by
  intro _
  show rawParse (BitVec.ofNat 32 (psum 0x80000021 [bv 23 vd, bv 20 va, bv 15 q, typ 12 ty, bv 6 g])) = _
  rw [major32 (bits_psum [(23, 3), (20, 3), (15, 2), (12, 3), (6, 6)] rfl (by decide))]
  obtain ⟨h0, h1, h2, h3, h4⟩ := layout26 0x80000021 vd va q ty g (by decide)
  rw [leaf_vsubVs (bits_psum [(23, 3), (20, 3), (15, 2), (12, 3), (6, 6)] rfl (by decide)) (bits_psum [(23, 3), (20, 3), (15, 2), (12, 3), (6, 6)] rfl (by decide))]
  rw [h3, h0, h1, h2, h4]

theorem vmulVs (vd va : BitVec 3) (q : BitVec 2) (ty : VType) (g : RegCode) : Statement (.vmulVs vd va q ty g) := by
  intro _
  show rawParse (BitVec.ofNat 32 (psum 0x80000022 [bv 23 vd, bv 20 va, bv 15 q, typ 12 ty, bv 6 g])) = _
  rw [major32 (bits_psum [(23, 3), (20, 3), (15, 2), (12, 3), (6, 6)] rfl (by decide))]
  obtain ⟨h0, h1, h2, h3, h4⟩ := layout26 0x80000022 vd va q ty g (by decide)
  rw [leaf_vmulVs (bits_psum [(23, 3), (20, 3), (15, 2), (12, 3), (6, 6)] rfl (by decide)) (bits_psum [(23, 3), (20, 3), (15, 2), (12, 3), (6, 6)] rfl (by decide))]
  rw [h3, h0, h1, h2, h4]

theorem vminVs (vd va : BitVec 3) (q : BitVec 2) (ty : VType) (g : RegCode) : Statement (.vminVs vd va q ty g) := by
  intro _
  show rawParse (BitVec.ofNat 32 (psum 0x80000023 [bv 23 vd, bv 20 va, bv 15 q, typ 12 ty, bv 6 g])) = _
  rw [major32 (bits_psum [(23, 3), (20, 3), (15, 2), (12, 3), (6, 6)] rfl (by decide))]
  obtain ⟨h0, h1, h2, h3, h4⟩ := layout26 0x80000023 vd va q ty g (by decide)
  rw [leaf_vminVs (bits_psum [(23, 3), (20, 3), (15, 2), (12, 3), (6, 6)] rfl (by decide)) (bits_psum [(23, 3), (20, 3), (15, 2), (12, 3), (6, 6)] rfl (by decide))]
  rw [h3, h0, h1, h2, h4]

theorem vmaxVs (vd va : BitVec 3) (q : BitVec 2) (ty : VType) (g : RegCode) : Statement (.vmaxVs vd va q ty g) := by
  intro _
  show rawParse (BitVec.ofNat 32 (psum 0x80000024 [bv 23 vd, bv 20 va, bv 15 q, typ 12 ty, bv 6 g])) = _
  rw [major32 (bits_psum [(23, 3), (20, 3), (15, 2), (12, 3), (6, 6)] rfl (by decide))]
  obtain ⟨h0, h1, h2, h3, h4⟩ := layout26 0x80000024 vd va q ty g (by decide)
  rw [leaf_vmaxVs (bits_psum [(23, 3), (20, 3), (15, 2), (12, 3), (6, 6)] rfl (by decide)) (bits_psum [(23, 3), (20, 3), (15, 2), (12, 3), (6, 6)] rfl (by decide))]
  rw [h3, h0, h1, h2, h4]

theorem vandVs (vd va : BitVec 3) (q : BitVec 2) (g : RegCode) : Statement (.vandVs vd va q g) := by
  intro _
  show rawParse (BitVec.ofNat 32 (psum 0x80000025 [bv 23 vd, bv 20 va, bv 15 q, bv 6 g])) = _
  rw [major32 (bits_psum [(23, 3), (20, 3), (15, 2), (6, 6)] rfl (by decide))]
  obtain ⟨h0, h1, h2, h3⟩ := layout27 0x80000025 vd va q g (by decide)
  rw [leaf_vandVs (bits_psum [(23, 3), (20, 3), (15, 2), (6, 6)] rfl (by decide)) (bits_psum [(23, 3), (20, 3), (15, 2), (6, 6)] rfl (by decide))]
  rw [h0, h1, h2, h3]

theorem vorVs (vd va : BitVec 3) (q : BitVec 2) (g : RegCode) : Statement (.vorVs vd va q g) := by
  intro _
  show rawParse (BitVec.ofNat 32 (psum 0x80000026 [bv 23 vd, bv 20 va, bv 15 q, bv 6 g])) = _
  rw [major32 (bits_psum [(23, 3), (20, 3), (15, 2), (6, 6)] rfl (by decide))]
  obtain ⟨h0, h1, h2, h3⟩ := layout27 0x80000026 vd va q g (by decide)
  rw [leaf_vorVs (bits_psum [(23, 3), (20, 3), (15, 2), (6, 6)] rfl (by decide)) (bits_psum [(23, 3), (20, 3), (15, 2), (6, 6)] rfl (by decide))]
  rw [h0, h1, h2, h3]

theorem vxorVs (vd va : BitVec 3) (q : BitVec 2) (g : RegCode) : Statement (.vxorVs vd va q g) := by
  intro _
  show rawParse (BitVec.ofNat 32 (psum 0x80000027 [bv 23 vd, bv 20 va, bv 15 q, bv 6 g])) = _
  rw [major32 (bits_psum [(23, 3), (20, 3), (15, 2), (6, 6)] rfl (by decide))]
  obtain ⟨h0, h1, h2, h3⟩ := layout27 0x80000027 vd va q g (by decide)
  rw [leaf_vxorVs (bits_psum [(23, 3), (20, 3), (15, 2), (6, 6)] rfl (by decide)) (bits_psum [(23, 3), (20, 3), (15, 2), (6, 6)] rfl (by decide))]
  rw [h0, h1, h2, h3]

theorem vshlVs (vd va : BitVec 3) (q : BitVec 2) (ty : VType) (g : RegCode) : Statement (.vshlVs vd va q ty g) := by
  intro _
  show rawParse (BitVec.ofNat 32 (psum 0x80000028 [bv 23 vd, bv 20 va, bv 15 q, typ 12 ty, bv 6 g])) = _
  rw [major32 (bits_psum [(23, 3), (20, 3), (15, 2), (12, 3), (6, 6)] rfl (by decide))]
  obtain ⟨h0, h1, h2, h3, h4⟩ := layout26 0x80000028 vd va q ty g (by decide)
  rw [leaf_vshlVs (bits_psum [(23, 3), (20, 3), (15, 2), (12, 3), (6, 6)] rfl (by decide)) (bits_psum [(23, 3), (20, 3), (15, 2), (12, 3), (6, 6)] rfl (by decide))]
  rw [h3, h0, h1, h2, h4]

theorem vshrVs (vd va : BitVec 3) (q : BitVec 2) (ty : VType) (g : RegCode) : Statement (.vshrVs vd va q ty g) := by
  intro _
  show rawParse (BitVec.ofNat 32 (psum 0x80000029 [bv 23 vd, bv 20 va, bv 15 q, typ 12 ty, bv 6 g])) = _
  rw [major32 (bits_psum [(23, 3), (20, 3), (15, 2), (12, 3), (6, 6)] rfl (by decide))]
  obtain ⟨h0, h1, h2, h3, h4⟩ := layout26 0x80000029 vd va q ty g (by decide)
  rw [leaf_vshrVs (bits_psum [(23, 3), (20, 3), (15, 2), (12, 3), (6, 6)] rfl (by decide)) (bits_psum [(23, 3), (20, 3), (15, 2), (12, 3), (6, 6)] rfl (by decide))]
  rw [h3, h0, h1, h2, h4]

theorem vsraVs (vd va : BitVec 3) (q : BitVec 2) (ty : VType) (g : RegCode) : Statement (.vsraVs vd va q ty g) := by
  intro _
  show rawParse (BitVec.ofNat 32 (psum 0x8000002a [bv 23 vd, bv 20 va, bv 15 q, typ 12 ty, bv 6 g])) = _
  rw [major32 (bits_psum [(23, 3), (20, 3), (15, 2), (12, 3), (6, 6)] rfl (by decide))]
  obtain ⟨h0, h1, h2, h3, h4⟩ := layout26 0x8000002a vd va q ty g (by decide)
  rw [leaf_vsraVs (bits_psum [(23, 3), (20, 3), (15, 2), (12, 3), (6, 6)] rfl (by decide)) (bits_psum [(23, 3), (20, 3), (15, 2), (12, 3), (6, 6)] rfl (by decide))]
  rw [h3, h0, h1, h2, h4]

theorem vselVs (vd va : BitVec 3) (q : BitVec 2) (g : RegCode) : Statement (.vselVs vd va q g) := by
  intro _
  show rawParse (BitVec.ofNat 32 (psum 0x8000002b [bv 23 vd, bv 20 va, bv 15 q, bv 6 g])) = _
  rw [major32 (bits_psum [(23, 3), (20, 3), (15, 2), (6, 6)] rfl (by decide))]
  obtain ⟨h0, h1, h2, h3⟩ := layout27 0x8000002b vd va q g (by decide)
  rw [leaf_vselVs (bits_psum [(23, 3), (20, 3), (15, 2), (6, 6)] rfl (by decide)) (bits_psum [(23, 3), (20, 3), (15, 2), (6, 6)] rfl (by decide))]
  rw [h0, h1, h2, h3]

theorem vcmpVs (qd : BitVec 2) (va : BitVec 3) (q : BitVec 2) (ty : VType) (g : RegCode) (cond : BitVec 3) : Statement (.vcmpVs qd va q ty g cond) := by
  intro _
  show rawParse (BitVec.ofNat 32 (psum 0x80000030 [bv 23 qd, bv 20 va, bv 15 q, typ 12 ty, bv 6 g, bv 0 cond])) = _
  rw [major32 (bits_psum [(23, 2), (20, 3), (15, 2), (12, 3), (6, 6), (0, 3)] rfl (by decide))]
  obtain ⟨h0, h1, h2, h3, h4, h5⟩ := layout28 0x80000030 qd va q ty g cond (by decide)
  rw [leaf_vcmpVs (bits_psum [(23, 2), (20, 3), (15, 2), (12, 3), (6, 6), (0, 3)] rfl (by decide))]
  rw [h3, h0, h1, h2, h4, h5]

theorem vmac (vd va vb : BitVec 3) (q : BitVec 2) (ty : VType) : Statement (.vmac vd va vb q ty) := by
  intro _
  show rawParse (BitVec.ofNat 32 (psum 0x84000000 [bv 23 vd, bv 20 va, bv 17 vb, bv 15 q, typ 12 ty])) = _
  rw [major33 (bits_psum [(23, 3), (20, 3), (17, 3), (15, 2), (12, 3)] rfl (by decide))]
  obtain ⟨h0, h1, h2, h3, h4⟩ := layout23 0x84000000 vd va vb q ty (by decide)
  rw [leaf_vmac (bits_psum [(23, 3), (20, 3), (17, 3), (15, 2), (12, 3)] rfl (by decide))]
  rw [h4, h0, h1, h2, h3]

theorem vmacVs (vd va : BitVec 3) (q : BitVec 2) (ty : VType) (g : RegCode) : Statement (.vmacVs vd va q ty g) := by
  intro _
  show rawParse (BitVec.ofNat 32 (psum 0x84000020 [bv 23 vd, bv 20 va, bv 15 q, typ 12 ty, bv 6 g])) = _
  rw [major33 (bits_psum [(23, 3), (20, 3), (15, 2), (12, 3), (6, 6)] rfl (by decide))]
  obtain ⟨h0, h1, h2, h3, h4⟩ := layout26 0x84000020 vd va q ty g (by decide)
  rw [leaf_vmacVs (bits_psum [(23, 3), (20, 3), (15, 2), (12, 3), (6, 6)] rfl (by decide))]
  rw [h3, h0, h1, h2, h4]

theorem vdot4 (vd va vb : BitVec 3) (q : BitVec 2) (ty : VType) : Statement (.vdot4 vd va vb q ty) := by
  intro _
  show rawParse (BitVec.ofNat 32 (psum 0x84000001 [bv 23 vd, bv 20 va, bv 17 vb, bv 15 q, typ 12 ty])) = _
  rw [major33 (bits_psum [(23, 3), (20, 3), (17, 3), (15, 2), (12, 3)] rfl (by decide))]
  obtain ⟨h0, h1, h2, h3, h4⟩ := layout23 0x84000001 vd va vb q ty (by decide)
  rw [leaf_vdot4 (bits_psum [(23, 3), (20, 3), (17, 3), (15, 2), (12, 3)] rfl (by decide))]
  rw [h4, h0, h1, h2, h3]

theorem vdot4Vs (vd va : BitVec 3) (q : BitVec 2) (ty : VType) (g : RegCode) : Statement (.vdot4Vs vd va q ty g) := by
  intro _
  show rawParse (BitVec.ofNat 32 (psum 0x84000021 [bv 23 vd, bv 20 va, bv 15 q, typ 12 ty, bv 6 g])) = _
  rw [major33 (bits_psum [(23, 3), (20, 3), (15, 2), (12, 3), (6, 6)] rfl (by decide))]
  obtain ⟨h0, h1, h2, h3, h4⟩ := layout26 0x84000021 vd va q ty g (by decide)
  rw [leaf_vdot4Vs (bits_psum [(23, 3), (20, 3), (15, 2), (12, 3), (6, 6)] rfl (by decide))]
  rw [h3, h0, h1, h2, h4]

theorem vld (vd : BitVec 3) (q : BitVec 2) (g : RegCode) : Statement (.vld vd q g) := by
  intro _
  show rawParse (BitVec.ofNat 32 (psum 0x88000000 [bv 23 vd, bv 15 q, bv 6 g])) = _
  rw [major34 (bits_psum [(23, 3), (15, 2), (6, 6)] rfl (by decide))]
  obtain ⟨h0, h1, h2⟩ := layout29 0x88000000 vd q g (by decide)
  rw [leaf_vld (bits_psum [(23, 3), (15, 2), (6, 6)] rfl (by decide))]
  rw [h0, h1, h2]

theorem vst (vd : BitVec 3) (q : BitVec 2) (g : RegCode) : Statement (.vst vd q g) := by
  intro _
  show rawParse (BitVec.ofNat 32 (psum 0x88000001 [bv 23 vd, bv 15 q, bv 6 g])) = _
  rw [major34 (bits_psum [(23, 3), (15, 2), (6, 6)] rfl (by decide))]
  obtain ⟨h0, h1, h2⟩ := layout29 0x88000001 vd q g (by decide)
  rw [leaf_vst (bits_psum [(23, 3), (15, 2), (6, 6)] rfl (by decide))]
  rw [h0, h1, h2]

theorem vlds (vd : BitVec 3) (q : BitVec 2) (g : RegCode) : Statement (.vlds vd q g) := by
  intro _
  show rawParse (BitVec.ofNat 32 (psum 0x88000002 [bv 23 vd, bv 15 q, bv 6 g])) = _
  rw [major34 (bits_psum [(23, 3), (15, 2), (6, 6)] rfl (by decide))]
  obtain ⟨h0, h1, h2⟩ := layout29 0x88000002 vd q g (by decide)
  rw [leaf_vlds (bits_psum [(23, 3), (15, 2), (6, 6)] rfl (by decide))]
  rw [h0, h1, h2]

theorem vsts (vd : BitVec 3) (q : BitVec 2) (g : RegCode) : Statement (.vsts vd q g) := by
  intro _
  show rawParse (BitVec.ofNat 32 (psum 0x88000003 [bv 23 vd, bv 15 q, bv 6 g])) = _
  rw [major34 (bits_psum [(23, 3), (15, 2), (6, 6)] rfl (by decide))]
  obtain ⟨h0, h1, h2⟩ := layout29 0x88000003 vd q g (by decide)
  rw [leaf_vsts (bits_psum [(23, 3), (15, 2), (6, 6)] rfl (by decide))]
  rw [h0, h1, h2]

theorem vgather (vd va : BitVec 3) (q : BitVec 2) (ty : VType) (g : RegCode) : Statement (.vgather vd va q ty g) := by
  intro _
  show rawParse (BitVec.ofNat 32 (psum 0x8c000000 [bv 23 vd, bv 20 va, bv 15 q, typ 12 ty, bv 6 g])) = _
  rw [major35 (bits_psum [(23, 3), (20, 3), (15, 2), (12, 3), (6, 6)] rfl (by decide))]
  obtain ⟨h0, h1, h2, h3, h4⟩ := layout26 0x8c000000 vd va q ty g (by decide)
  rw [leaf_vgather (bits_psum [(23, 3), (20, 3), (15, 2), (12, 3), (6, 6)] rfl (by decide))]
  rw [h3, h0, h1, h2, h4]

theorem vgatherP (vd va : BitVec 3) (c q : BitVec 2) (ty : VType) (g : RegCode) : Statement (.vgatherP vd va c q ty g) := by
  intro _
  show rawParse (BitVec.ofNat 32 (psum 0x8c000001 [bv 23 vd, bv 20 va, bv 17 c, bv 15 q, typ 12 ty, bv 6 g])) = _
  rw [major35 (bits_psum [(23, 3), (20, 3), (17, 2), (15, 2), (12, 3), (6, 6)] rfl (by decide))]
  obtain ⟨h0, h1, h2, h3, h4, h5⟩ := layout30 0x8c000001 vd va c q ty g (by decide)
  rw [leaf_vgatherP (bits_psum [(23, 3), (20, 3), (17, 2), (15, 2), (12, 3), (6, 6)] rfl (by decide))]
  rw [h4, h0, h1, h2, h3, h5]

theorem vscatter (vd va : BitVec 3) (q : BitVec 2) (ty : VType) (g : RegCode) : Statement (.vscatter vd va q ty g) := by
  intro _
  show rawParse (BitVec.ofNat 32 (psum 0x8c000002 [bv 23 vd, bv 20 va, bv 15 q, typ 12 ty, bv 6 g])) = _
  rw [major35 (bits_psum [(23, 3), (20, 3), (15, 2), (12, 3), (6, 6)] rfl (by decide))]
  obtain ⟨h0, h1, h2, h3, h4⟩ := layout26 0x8c000002 vd va q ty g (by decide)
  rw [leaf_vscatter (bits_psum [(23, 3), (20, 3), (15, 2), (12, 3), (6, 6)] rfl (by decide))]
  rw [h3, h0, h1, h2, h4]

theorem vldbitU (vd : BitVec 3) (q : BitVec 2) (g : RegCode) (n : BitVec 4) : Statement (.vldbitU vd q g n) := by
  intro _
  show rawParse (BitVec.ofNat 32 (psum 0x90000010 [bv 23 vd, bv 15 q, bv 6 g, bv 0 n])) = _
  rw [major36 (bits_psum [(23, 3), (15, 2), (6, 6), (0, 4)] rfl (by decide))]
  obtain ⟨h0, h1, h2, h3⟩ := layout31 0x90000010 vd q g n (by decide)
  rw [leaf_vldbitU (bits_psum [(23, 3), (15, 2), (6, 6), (0, 4)] rfl (by decide))]
  rw [h0, h1, h2, h3]

theorem vldbitS (vd : BitVec 3) (q : BitVec 2) (g : RegCode) (n : BitVec 4) : Statement (.vldbitS vd q g n) := by
  intro _
  show rawParse (BitVec.ofNat 32 (psum 0x90000020 [bv 23 vd, bv 15 q, bv 6 g, bv 0 n])) = _
  rw [major36 (bits_psum [(23, 3), (15, 2), (6, 6), (0, 4)] rfl (by decide))]
  obtain ⟨h0, h1, h2, h3⟩ := layout31 0x90000020 vd q g n (by decide)
  rw [leaf_vldbitS (bits_psum [(23, 3), (15, 2), (6, 6), (0, 4)] rfl (by decide))]
  rw [h0, h1, h2, h3]

theorem vstbit (vd : BitVec 3) (q : BitVec 2) (g : RegCode) (n : BitVec 4) : Statement (.vstbit vd q g n) := by
  intro _
  show rawParse (BitVec.ofNat 32 (psum 0x90000030 [bv 23 vd, bv 15 q, bv 6 g, bv 0 n])) = _
  rw [major36 (bits_psum [(23, 3), (15, 2), (6, 6), (0, 4)] rfl (by decide))]
  obtain ⟨h0, h1, h2, h3⟩ := layout31 0x90000030 vd q g n (by decide)
  rw [leaf_vstbit (bits_psum [(23, 3), (15, 2), (6, 6), (0, 4)] rfl (by decide))]
  rw [h0, h1, h2, h3]

theorem vbcast (vd : BitVec 3) (q : BitVec 2) (ty : VType) (g : RegCode) : Statement (.vbcast vd q ty g) := by
  intro _
  show rawParse (BitVec.ofNat 32 (psum 0x94000000 [bv 23 vd, bv 15 q, typ 12 ty, bv 6 g])) = _
  rw [major37 (bits_psum [(23, 3), (15, 2), (12, 3), (6, 6)] rfl (by decide))]
  obtain ⟨h0, h1, h2, h3⟩ := layout32 0x94000000 vd q ty g (by decide)
  rw [leaf_vbcast (bits_psum [(23, 3), (15, 2), (12, 3), (6, 6)] rfl (by decide))]
  rw [h2, h0, h1, h3]

theorem vext (va : BitVec 3) (lane : BitVec 5) (ty : VType) (g : RegCode) : Statement (.vext va lane ty g) := by
  intro _
  show rawParse (BitVec.ofNat 32 (psum 0x94000001 [bv 20 va, bv 15 lane, typ 12 ty, bv 6 g])) = _
  rw [major37 (bits_psum [(20, 3), (15, 5), (12, 3), (6, 6)] rfl (by decide))]
  obtain ⟨h0, h1, h2, h3⟩ := layout33 0x94000001 va lane ty g (by decide)
  rw [leaf_vext (bits_psum [(20, 3), (15, 5), (12, 3), (6, 6)] rfl (by decide))]
  rw [h2, h0, h1, h3]

theorem vperm (vd va vb : BitVec 3) (q : BitVec 2) : Statement (.vperm vd va vb q) := by
  intro _
  show rawParse (BitVec.ofNat 32 (psum 0x94000002 [bv 23 vd, bv 20 va, bv 17 vb, bv 15 q])) = _
  rw [major37 (bits_psum [(23, 3), (20, 3), (17, 3), (15, 2)] rfl (by decide))]
  obtain ⟨h0, h1, h2, h3⟩ := layout24 0x94000002 vd va vb q (by decide)
  rw [leaf_vperm (bits_psum [(23, 3), (20, 3), (17, 3), (15, 2)] rfl (by decide))]
  rw [h0, h1, h2, h3]

theorem vshuf (vd va vb : BitVec 3) (q : BitVec 2) (g : RegCode) : Statement (.vshuf vd va vb q g) := by
  intro _
  show rawParse (BitVec.ofNat 32 (psum 0x94000003 [bv 23 vd, bv 20 va, bv 17 vb, bv 15 q, bv 6 g])) = _
  rw [major37 (bits_psum [(23, 3), (20, 3), (17, 3), (15, 2), (6, 6)] rfl (by decide))]
  obtain ⟨h0, h1, h2, h3, h4⟩ := layout34 0x94000003 vd va vb q g (by decide)
  rw [leaf_vshuf (bits_psum [(23, 3), (20, 3), (17, 3), (15, 2), (6, 6)] rfl (by decide))]
  rw [h0, h1, h2, h3, h4]

theorem vrot (vd va : BitVec 3) (q : BitVec 2) (g : RegCode) : Statement (.vrot vd va q g) := by
  intro _
  show rawParse (BitVec.ofNat 32 (psum 0x94000004 [bv 23 vd, bv 20 va, bv 15 q, bv 6 g])) = _
  rw [major37 (bits_psum [(23, 3), (20, 3), (15, 2), (6, 6)] rfl (by decide))]
  obtain ⟨h0, h1, h2, h3⟩ := layout27 0x94000004 vd va q g (by decide)
  rw [leaf_vrot (bits_psum [(23, 3), (20, 3), (15, 2), (6, 6)] rfl (by decide))]
  rw [h0, h1, h2, h3]

theorem vred (va : BitVec 3) (q : BitVec 2) (ty : VType) (g : RegCode) (op : BitVec 3) : Statement (.vred va q ty g op) := by
  intro _
  show rawParse (BitVec.ofNat 32 (psum 0x98000000 [bv 20 va, bv 15 q, typ 12 ty, bv 6 g, bv 0 op])) = _
  rw [major38 (bits_psum [(20, 3), (15, 2), (12, 3), (6, 6), (0, 3)] rfl (by decide))]
  obtain ⟨h0, h1, h2, h3, h4⟩ := layout35 0x98000000 va q ty g op (by decide)
  rw [leaf_vred (bits_psum [(20, 3), (15, 2), (12, 3), (6, 6), (0, 3)] rfl (by decide))]
  rw [h2, h0, h1, h3, h4]

theorem vscan (vd va : BitVec 3) (q : BitVec 2) (ty : VType) (op : BitVec 3) : Statement (.vscan vd va q ty op) := by
  intro _
  show rawParse (BitVec.ofNat 32 (psum 0x98000020 [bv 23 vd, bv 20 va, bv 15 q, typ 12 ty, bv 0 op])) = _
  rw [major38 (bits_psum [(23, 3), (20, 3), (15, 2), (12, 3), (0, 3)] rfl (by decide))]
  obtain ⟨h0, h1, h2, h3, h4⟩ := layout36 0x98000020 vd va q ty op (by decide)
  rw [leaf_vscan (bits_psum [(23, 3), (20, 3), (15, 2), (12, 3), (0, 3)] rfl (by decide))]
  rw [h3, h0, h1, h2, h4]

theorem mand (qd qa qb : BitVec 2) : Statement (.mand qd qa qb) := by
  intro _
  show rawParse (BitVec.ofNat 32 (psum 0x9c000000 [bv 23 qd, bv 20 qa, bv 17 qb])) = _
  rw [major39 (bits_psum [(23, 2), (20, 2), (17, 2)] rfl (by decide))]
  obtain ⟨h0, h1, h2⟩ := layout37 0x9c000000 qd qa qb (by decide)
  rw [leaf_mand (bits_psum [(23, 2), (20, 2), (17, 2)] rfl (by decide))]
  rw [h0, h1, h2]

theorem mor (qd qa qb : BitVec 2) : Statement (.mor qd qa qb) := by
  intro _
  show rawParse (BitVec.ofNat 32 (psum 0x9c000001 [bv 23 qd, bv 20 qa, bv 17 qb])) = _
  rw [major39 (bits_psum [(23, 2), (20, 2), (17, 2)] rfl (by decide))]
  obtain ⟨h0, h1, h2⟩ := layout37 0x9c000001 qd qa qb (by decide)
  rw [leaf_mor (bits_psum [(23, 2), (20, 2), (17, 2)] rfl (by decide))]
  rw [h0, h1, h2]

theorem mxor (qd qa qb : BitVec 2) : Statement (.mxor qd qa qb) := by
  intro _
  show rawParse (BitVec.ofNat 32 (psum 0x9c000002 [bv 23 qd, bv 20 qa, bv 17 qb])) = _
  rw [major39 (bits_psum [(23, 2), (20, 2), (17, 2)] rfl (by decide))]
  obtain ⟨h0, h1, h2⟩ := layout37 0x9c000002 qd qa qb (by decide)
  rw [leaf_mxor (bits_psum [(23, 2), (20, 2), (17, 2)] rfl (by decide))]
  rw [h0, h1, h2]

theorem mnot (qd qa : BitVec 2) : Statement (.mnot qd qa) := by
  intro _
  show rawParse (BitVec.ofNat 32 (psum 0x9c000003 [bv 23 qd, bv 20 qa])) = _
  rw [major39 (bits_psum [(23, 2), (20, 2)] rfl (by decide))]
  obtain ⟨h0, h1⟩ := layout38 0x9c000003 qd qa (by decide)
  rw [leaf_mnot (bits_psum [(23, 2), (20, 2)] rfl (by decide))]
  rw [h0, h1]

theorem mpopc (qa : BitVec 2) (g : RegCode) : Statement (.mpopc qa g) := by
  intro _
  show rawParse (BitVec.ofNat 32 (psum 0x9c000004 [bv 20 qa, bv 6 g])) = _
  rw [major39 (bits_psum [(20, 2), (6, 6)] rfl (by decide))]
  obtain ⟨h0, h1⟩ := layout39 0x9c000004 qa g (by decide)
  rw [leaf_mpopc (bits_psum [(20, 2), (6, 6)] rfl (by decide))]
  rw [h0, h1]

theorem mfirst (qa : BitVec 2) (g : RegCode) : Statement (.mfirst qa g) := by
  intro _
  show rawParse (BitVec.ofNat 32 (psum 0x9c000005 [bv 20 qa, bv 6 g])) = _
  rw [major39 (bits_psum [(20, 2), (6, 6)] rfl (by decide))]
  obtain ⟨h0, h1⟩ := layout39 0x9c000005 qa g (by decide)
  rw [leaf_mfirst (bits_psum [(20, 2), (6, 6)] rfl (by decide))]
  rw [h0, h1]

theorem mmov (qd : BitVec 2) (g : RegCode) : Statement (.mmov qd g) := by
  intro _
  show rawParse (BitVec.ofNat 32 (psum 0x9c000006 [bv 23 qd, bv 6 g])) = _
  rw [major39 (bits_psum [(23, 2), (6, 6)] rfl (by decide))]
  obtain ⟨h0, h1⟩ := layout40 0x9c000006 qd g (by decide)
  rw [leaf_mmov (bits_psum [(23, 2), (6, 6)] rfl (by decide))]
  rw [h0, h1]

theorem mrd (qa : BitVec 2) (g : RegCode) : Statement (.mrd qa g) := by
  intro _
  show rawParse (BitVec.ofNat 32 (psum 0x9c000007 [bv 20 qa, bv 6 g])) = _
  rw [major39 (bits_psum [(20, 2), (6, 6)] rfl (by decide))]
  obtain ⟨h0, h1⟩ := layout39 0x9c000007 qa g (by decide)
  rw [leaf_mrd (bits_psum [(20, 2), (6, 6)] rfl (by decide))]
  rw [h0, h1]

theorem bar : Statement (.bar) := by
  intro _
  show rawParse (BitVec.ofNat 32 (psum 0xa0000000 [])) = _
  rw [major40 (bits_psum [] rfl (by decide))]
  rw [leaf_bar (bits_psum [] rfl (by decide)) (bits_psum [] rfl (by decide))]

theorem trig : Statement (.trig) := by
  intro _
  show rawParse (BitVec.ofNat 32 (psum 0xa0000001 [])) = _
  rw [major40 (bits_psum [] rfl (by decide))]
  rw [leaf_trig (bits_psum [] rfl (by decide)) (bits_psum [] rfl (by decide))]

theorem exit : Statement (.exit) := by
  intro _
  show rawParse (BitVec.ofNat 32 (psum 0xa0000002 [])) = _
  rw [major40 (bits_psum [] rfl (by decide))]
  rw [leaf_exit (bits_psum [] rfl (by decide)) (bits_psum [] rfl (by decide))]

theorem yield : Statement (.yield) := by
  intro _
  show rawParse (BitVec.ofNat 32 (psum 0xa0000003 [])) = _
  rw [major40 (bits_psum [] rfl (by decide))]
  rw [leaf_yield (bits_psum [] rfl (by decide)) (bits_psum [] rfl (by decide))]

theorem sleep (a : RegCode) (hA : Bool) : Statement (.sleep a hA) := by
  intro _
  show rawParse (BitVec.ofNat 32 (psum 0xa0000004 [bv 14 a, bo 7 hA])) = _
  rw [major40 (bits_psum [(14, 6), (7, 1)] rfl (by decide))]
  obtain ⟨h0, h1⟩ := layout41 0xa0000004 a hA (by decide)
  rw [leaf_sleep (bits_psum [(14, 6), (7, 1)] rfl (by decide)) (bits_psum [(14, 6), (7, 1)] rfl (by decide))]
  rw [h0, h1]

theorem migpt : Statement (.migpt) := by
  intro _
  show rawParse (BitVec.ofNat 32 (psum 0xa0000005 [])) = _
  rw [major40 (bits_psum [] rfl (by decide))]
  rw [leaf_migpt (bits_psum [] rfl (by decide)) (bits_psum [] rfl (by decide))]

theorem hint (phase : BitVec 2) : Statement (.hint phase) := by
  intro _
  show rawParse (BitVec.ofNat 32 (psum 0xa0000008 [bv 0 phase])) = _
  rw [major40 (bits_psum [(0, 2)] rfl (by decide))]
  have h0 := layout42 0xa0000008 phase (by decide)
  rw [leaf_hint (bits_psum [(0, 2)] rfl (by decide))]
  rw [h0]

theorem arm (d : RegCode) : Statement (.arm d) := by
  intro _
  show rawParse (BitVec.ofNat 32 (psum 0xa4000000 [bv 20 d])) = _
  rw [major41 (bits_psum [(20, 6)] rfl (by decide))]
  have h0 := layout43 0xa4000000 d (by decide)
  rw [leaf_arm (bits_psum [(20, 6)] rfl (by decide)) (bits_psum [(20, 6)] rfl (by decide))]
  rw [h0]

theorem armAcq (d : RegCode) (sc : Scope) : Statement (.armAcq d sc) := by
  intro _
  show rawParse (BitVec.ofNat 32 (psum 0xa4000008 [bv 20 d, scp 0 sc])) = _
  rw [major41 (bits_psum [(20, 6), (0, 3)] rfl (by decide))]
  obtain ⟨h0, h1⟩ := layout44 0xa4000008 d sc (by decide)
  rw [leaf_armAcq (bits_psum [(20, 6), (0, 3)] rfl (by decide))]
  rw [h1, h0]

theorem sendr (a b : RegCode) (hA hB : Bool) : Statement (.sendr a b hA hB) := by
  intro _
  show rawParse (BitVec.ofNat 32 (psum 0xa4000010 [bv 14 a, bv 8 b, bo 7 hA, bo 6 hB])) = _
  rw [major41 (bits_psum [(14, 6), (8, 6), (7, 1), (6, 1)] rfl (by decide))]
  obtain ⟨h0, h1, h2, h3⟩ := layout45 0xa4000010 a b hA hB (by decide)
  rw [leaf_sendr (bits_psum [(14, 6), (8, 6), (7, 1), (6, 1)] rfl (by decide)) (bits_psum [(14, 6), (8, 6), (7, 1), (6, 1)] rfl (by decide))]
  rw [h0, h1, h2, h3]

theorem sendrRel (a b : RegCode) (hA hB : Bool) (sc : Scope) : Statement (.sendrRel a b hA hB sc) := by
  intro _
  show rawParse (BitVec.ofNat 32 (psum 0xa4000018 [bv 14 a, bv 8 b, bo 7 hA, bo 6 hB, scp 0 sc])) = _
  rw [major41 (bits_psum [(14, 6), (8, 6), (7, 1), (6, 1), (0, 3)] rfl (by decide))]
  obtain ⟨h0, h1, h2, h3, h4⟩ := layout46 0xa4000018 a b hA hB sc (by decide)
  rw [leaf_sendrRel (bits_psum [(14, 6), (8, 6), (7, 1), (6, 1), (0, 3)] rfl (by decide))]
  rw [h4, h0, h1, h2, h3]

theorem sendrW (a b : RegCode) (hA hB : Bool) : Statement (.sendrW a b hA hB) := by
  intro _
  show rawParse (BitVec.ofNat 32 (psum 0xa4000020 [bv 14 a, bv 8 b, bo 7 hA, bo 6 hB])) = _
  rw [major41 (bits_psum [(14, 6), (8, 6), (7, 1), (6, 1)] rfl (by decide))]
  obtain ⟨h0, h1, h2, h3⟩ := layout45 0xa4000020 a b hA hB (by decide)
  rw [leaf_sendrW (bits_psum [(14, 6), (8, 6), (7, 1), (6, 1)] rfl (by decide)) (bits_psum [(14, 6), (8, 6), (7, 1), (6, 1)] rfl (by decide))]
  rw [h0, h1, h2, h3]

theorem sendrWRel (a b : RegCode) (hA hB : Bool) (sc : Scope) : Statement (.sendrWRel a b hA hB sc) := by
  intro _
  show rawParse (BitVec.ofNat 32 (psum 0xa4000028 [bv 14 a, bv 8 b, bo 7 hA, bo 6 hB, scp 0 sc])) = _
  rw [major41 (bits_psum [(14, 6), (8, 6), (7, 1), (6, 1), (0, 3)] rfl (by decide))]
  obtain ⟨h0, h1, h2, h3, h4⟩ := layout46 0xa4000028 a b hA hB sc (by decide)
  rw [leaf_sendrWRel (bits_psum [(14, 6), (8, 6), (7, 1), (6, 1), (0, 3)] rfl (by decide))]
  rw [h4, h0, h1, h2, h3]

theorem capr (d b : RegCode) (rights : BitVec 2) : Statement (.capr d b rights) := by
  intro _
  show rawParse (BitVec.ofNat 32 (psum 0xa4000030 [bv 20 d, bv 8 b, bv 0 rights])) = _
  rw [major41 (bits_psum [(20, 6), (8, 6), (0, 2)] rfl (by decide))]
  obtain ⟨h0, h1, h2⟩ := layout47 0xa4000030 d b rights (by decide)
  have hr : bits (BitVec.ofNat 32 (psum 0xa4000030 [bv 20 d, bv 8 b, bv 0 rights])) 2 0 < 4 := by
    show (BitVec.ofNat 32 _).toNat / _ % _ < _
    rw [BitVec.toNat_ofNat]; simp only [psum, Field.up]; omega
  rw [leaf_capr (bits_psum [(20, 6), (8, 6), (0, 2)] rfl (by decide)) hr]
  rw [h0, h1, h2]

theorem capchk (d a : RegCode) (hA : Bool) : Statement (.capchk d a hA) := by
  intro _
  show rawParse (BitVec.ofNat 32 (psum 0xa4000034 [bv 20 d, bv 14 a, bo 7 hA])) = _
  rw [major41 (bits_psum [(20, 6), (14, 6), (7, 1)] rfl (by decide))]
  obtain ⟨h0, h1, h2⟩ := layout9 0xa4000034 d a hA (by decide)
  rw [leaf_capchk (bits_psum [(20, 6), (14, 6), (7, 1)] rfl (by decide)) (bits_psum [(20, 6), (14, 6), (7, 1)] rfl (by decide))]
  rw [h0, h1, h2]

theorem capi (d : RegCode) : Statement (.capi d) := by
  intro _
  show rawParse (BitVec.ofNat 32 (psum 0xa4000035 [bv 20 d])) = _
  rw [major41 (bits_psum [(20, 6)] rfl (by decide))]
  have h0 := layout43 0xa4000035 d (by decide)
  rw [leaf_capi (bits_psum [(20, 6)] rfl (by decide)) (bits_psum [(20, 6)] rfl (by decide))]
  rw [h0]

theorem srv (d a b : RegCode) (nr na : BitVec 2) (sel : BitVec 4) : Statement (.srv d a b nr na sel) := by
  intro _
  show rawParse (BitVec.ofNat 32 (psum 0xa8000000 [bv 20 d, bv 14 a, bv 8 b, bv 6 nr, bv 4 na, bv 0 sel])) = _
  rw [major42 (bits_psum [(20, 6), (14, 6), (8, 6), (6, 2), (4, 2), (0, 4)] rfl (by decide))]
  obtain ⟨h0, h1, h2, h3, h4, h5⟩ := layout48 0xa8000000 d a b nr na sel (by decide)
  unfold parse2A
  rw [h0, h1, h2, h3, h4, h5]

theorem chsend (d a b : RegCode) (hA hB : Bool) : Statement (.chsend d a b hA hB) := by
  intro _
  show rawParse (BitVec.ofNat 32 (psum 0xac000000 [bv 20 d, bv 14 a, bv 8 b, bo 7 hA, bo 6 hB])) = _
  rw [major43 (bits_psum [(20, 6), (14, 6), (8, 6), (7, 1), (6, 1)] rfl (by decide))]
  obtain ⟨h0, h1, h2, h3, h4⟩ := layout0 0xac000000 d a b hA hB (by decide)
  rw [leaf_chsend (bits_psum [(20, 6), (14, 6), (8, 6), (7, 1), (6, 1)] rfl (by decide)) (bits_psum [(20, 6), (14, 6), (8, 6), (7, 1), (6, 1)] rfl (by decide))]
  rw [h0, h1, h2, h3, h4]

theorem chsendRel (d a b : RegCode) (hA hB : Bool) (sc : Scope) : Statement (.chsendRel d a b hA hB sc) := by
  intro _
  show rawParse (BitVec.ofNat 32 (psum 0xac000008 [bv 20 d, bv 14 a, bv 8 b, bo 7 hA, bo 6 hB, scp 0 sc])) = _
  rw [major43 (bits_psum [(20, 6), (14, 6), (8, 6), (7, 1), (6, 1), (0, 3)] rfl (by decide))]
  obtain ⟨h0, h1, h2, h3, h4, h5⟩ := layout49 0xac000008 d a b hA hB sc (by decide)
  rw [leaf_chsendRel (bits_psum [(20, 6), (14, 6), (8, 6), (7, 1), (6, 1), (0, 3)] rfl (by decide))]
  rw [h5, h0, h1, h2, h3, h4]

theorem chsendBlk (d a b : RegCode) (hA hB : Bool) : Statement (.chsendBlk d a b hA hB) := by
  intro _
  show rawParse (BitVec.ofNat 32 (psum 0xac000010 [bv 20 d, bv 14 a, bv 8 b, bo 7 hA, bo 6 hB])) = _
  rw [major43 (bits_psum [(20, 6), (14, 6), (8, 6), (7, 1), (6, 1)] rfl (by decide))]
  obtain ⟨h0, h1, h2, h3, h4⟩ := layout0 0xac000010 d a b hA hB (by decide)
  rw [leaf_chsendBlk (bits_psum [(20, 6), (14, 6), (8, 6), (7, 1), (6, 1)] rfl (by decide)) (bits_psum [(20, 6), (14, 6), (8, 6), (7, 1), (6, 1)] rfl (by decide))]
  rw [h0, h1, h2, h3, h4]

theorem chsendBlkRel (d a b : RegCode) (hA hB : Bool) (sc : Scope) : Statement (.chsendBlkRel d a b hA hB sc) := by
  intro _
  show rawParse (BitVec.ofNat 32 (psum 0xac000018 [bv 20 d, bv 14 a, bv 8 b, bo 7 hA, bo 6 hB, scp 0 sc])) = _
  rw [major43 (bits_psum [(20, 6), (14, 6), (8, 6), (7, 1), (6, 1), (0, 3)] rfl (by decide))]
  obtain ⟨h0, h1, h2, h3, h4, h5⟩ := layout49 0xac000018 d a b hA hB sc (by decide)
  rw [leaf_chsendBlkRel (bits_psum [(20, 6), (14, 6), (8, 6), (7, 1), (6, 1), (0, 3)] rfl (by decide))]
  rw [h5, h0, h1, h2, h3, h4]

theorem chrecv (d : RegCode) : Statement (.chrecv d) := by
  intro _
  show rawParse (BitVec.ofNat 32 (psum 0xac000020 [bv 20 d])) = _
  rw [major43 (bits_psum [(20, 6)] rfl (by decide))]
  have h0 := layout43 0xac000020 d (by decide)
  rw [leaf_chrecv (bits_psum [(20, 6)] rfl (by decide)) (bits_psum [(20, 6)] rfl (by decide))]
  rw [h0]

theorem chrecvAcq (d : RegCode) (sc : Scope) : Statement (.chrecvAcq d sc) := by
  intro _
  show rawParse (BitVec.ofNat 32 (psum 0xac000028 [bv 20 d, scp 0 sc])) = _
  rw [major43 (bits_psum [(20, 6), (0, 3)] rfl (by decide))]
  obtain ⟨h0, h1⟩ := layout44 0xac000028 d sc (by decide)
  rw [leaf_chrecvAcq (bits_psum [(20, 6), (0, 3)] rfl (by decide))]
  rw [h1, h0]

theorem chpoll (d : RegCode) : Statement (.chpoll d) := by
  intro _
  show rawParse (BitVec.ofNat 32 (psum 0xac000030 [bv 20 d])) = _
  rw [major43 (bits_psum [(20, 6)] rfl (by decide))]
  have h0 := layout43 0xac000030 d (by decide)
  rw [leaf_chpoll (bits_psum [(20, 6)] rfl (by decide)) (bits_psum [(20, 6)] rfl (by decide))]
  rw [h0]

theorem chpollAcq (d : RegCode) (sc : Scope) : Statement (.chpollAcq d sc) := by
  intro _
  show rawParse (BitVec.ofNat 32 (psum 0xac000038 [bv 20 d, scp 0 sc])) = _
  rw [major43 (bits_psum [(20, 6), (0, 3)] rfl (by decide))]
  obtain ⟨h0, h1⟩ := layout44 0xac000038 d sc (by decide)
  rw [leaf_chpollAcq (bits_psum [(20, 6), (0, 3)] rfl (by decide))]
  rw [h1, h0]

theorem copyGo (ctx : BitVec 2) (a b : RegCode) (sc : Scope) : Statement (.copyGo ctx a b sc) := by
  intro _
  show rawParse (BitVec.ofNat 32 (psum 0xc0000001 [bv 20 ctx, bv 14 a, bv 8 b, scp 5 sc])) = _
  rw [major48 (bits_psum [(20, 2), (14, 6), (8, 6), (5, 3)] rfl (by decide))]
  obtain ⟨h0, h1, h2, h3⟩ := layout50 0xc0000001 ctx a b sc (by decide)
  rw [leaf_copyGo (bits_psum [(20, 2), (14, 6), (8, 6), (5, 3)] rfl (by decide)) (bits_psum [(20, 2), (14, 6), (8, 6), (5, 3)] rfl (by decide))]
  rw [h3, h0, h1, h2]

theorem copyGather (ctx : BitVec 2) (a b : RegCode) (sc : Scope) : Statement (.copyGather ctx a b sc) := by
  intro _
  show rawParse (BitVec.ofNat 32 (psum 0xc0000002 [bv 20 ctx, bv 14 a, bv 8 b, scp 5 sc])) = _
  rw [major48 (bits_psum [(20, 2), (14, 6), (8, 6), (5, 3)] rfl (by decide))]
  obtain ⟨h0, h1, h2, h3⟩ := layout50 0xc0000002 ctx a b sc (by decide)
  rw [leaf_copyGather (bits_psum [(20, 2), (14, 6), (8, 6), (5, 3)] rfl (by decide)) (bits_psum [(20, 2), (14, 6), (8, 6), (5, 3)] rfl (by decide))]
  rw [h3, h0, h1, h2]

theorem copyRed (ctx : BitVec 2) (a b : RegCode) (sc : Scope) : Statement (.copyRed ctx a b sc) := by
  intro _
  show rawParse (BitVec.ofNat 32 (psum 0xc0000003 [bv 20 ctx, bv 14 a, bv 8 b, scp 5 sc])) = _
  rw [major48 (bits_psum [(20, 2), (14, 6), (8, 6), (5, 3)] rfl (by decide))]
  obtain ⟨h0, h1, h2, h3⟩ := layout50 0xc0000003 ctx a b sc (by decide)
  rw [leaf_copyRed (bits_psum [(20, 2), (14, 6), (8, 6), (5, 3)] rfl (by decide)) (bits_psum [(20, 2), (14, 6), (8, 6), (5, 3)] rfl (by decide))]
  rw [h3, h0, h1, h2]

theorem copyMcast (ctx : BitVec 2) (a b : RegCode) (sc : Scope) : Statement (.copyMcast ctx a b sc) := by
  intro _
  show rawParse (BitVec.ofNat 32 (psum 0xc0000004 [bv 20 ctx, bv 14 a, bv 8 b, scp 5 sc])) = _
  rw [major48 (bits_psum [(20, 2), (14, 6), (8, 6), (5, 3)] rfl (by decide))]
  obtain ⟨h0, h1, h2, h3⟩ := layout50 0xc0000004 ctx a b sc (by decide)
  rw [leaf_copyMcast (bits_psum [(20, 2), (14, 6), (8, 6), (5, 3)] rfl (by decide)) (bits_psum [(20, 2), (14, 6), (8, 6), (5, 3)] rfl (by decide))]
  rw [h3, h0, h1, h2]

theorem planeLdw (ctx : BitVec 2) (sc : Scope) : Statement (.planeLdw ctx sc) := by
  intro _
  show rawParse (BitVec.ofNat 32 (psum 0xc04eba01 [bv 20 ctx, scp 5 sc])) = _
  rw [major48 (bits_psum [(20, 2), (5, 3)] rfl (by decide))]
  obtain ⟨h0, h1⟩ := layout51 0xc04eba01 ctx sc (by decide)
  rw [leaf_planeLdw (bits_psum [(20, 2), (5, 3)] rfl (by decide)) (bits_psum [(20, 2), (5, 3)] rfl (by decide))]
  rw [h1, h0]

theorem planeRun (ctx : BitVec 2) (sc : Scope) : Statement (.planeRun ctx sc) := by
  intro _
  show rawParse (BitVec.ofNat 32 (psum 0xc04eba02 [bv 20 ctx, scp 5 sc])) = _
  rw [major48 (bits_psum [(20, 2), (5, 3)] rfl (by decide))]
  obtain ⟨h0, h1⟩ := layout51 0xc04eba02 ctx sc (by decide)
  rw [leaf_planeRun (bits_psum [(20, 2), (5, 3)] rfl (by decide)) (bits_psum [(20, 2), (5, 3)] rfl (by decide))]
  rw [h1, h0]

theorem planeFid (ctx : BitVec 2) (sc : Scope) : Statement (.planeFid ctx sc) := by
  intro _
  show rawParse (BitVec.ofNat 32 (psum 0xc04eba03 [bv 20 ctx, scp 5 sc])) = _
  rw [major48 (bits_psum [(20, 2), (5, 3)] rfl (by decide))]
  obtain ⟨h0, h1⟩ := layout51 0xc04eba03 ctx sc (by decide)
  rw [leaf_planeFid (bits_psum [(20, 2), (5, 3)] rfl (by decide)) (bits_psum [(20, 2), (5, 3)] rfl (by decide))]
  rw [h1, h0]

theorem planeCnt (ctx : BitVec 2) (sc : Scope) : Statement (.planeCnt ctx sc) := by
  intro _
  show rawParse (BitVec.ofNat 32 (psum 0xc04eba04 [bv 20 ctx, scp 5 sc])) = _
  rw [major48 (bits_psum [(20, 2), (5, 3)] rfl (by decide))]
  obtain ⟨h0, h1⟩ := layout51 0xc04eba04 ctx sc (by decide)
  rw [leaf_planeCnt (bits_psum [(20, 2), (5, 3)] rfl (by decide)) (bits_psum [(20, 2), (5, 3)] rfl (by decide))]
  rw [h1, h0]

theorem gatherRows (ctx : BitVec 2) (sc : Scope) : Statement (.gatherRows ctx sc) := by
  intro _
  show rawParse (BitVec.ofNat 32 (psum 0xc08eba01 [bv 20 ctx, scp 5 sc])) = _
  rw [major48 (bits_psum [(20, 2), (5, 3)] rfl (by decide))]
  obtain ⟨h0, h1⟩ := layout51 0xc08eba01 ctx sc (by decide)
  rw [leaf_gatherRows (bits_psum [(20, 2), (5, 3)] rfl (by decide)) (bits_psum [(20, 2), (5, 3)] rfl (by decide))]
  rw [h1, h0]

theorem fabLoad (ctx : BitVec 2) (sc : Scope) : Statement (.fabLoad ctx sc) := by
  intro _
  show rawParse (BitVec.ofNat 32 (psum 0xc0ceba01 [bv 20 ctx, scp 5 sc])) = _
  rw [major48 (bits_psum [(20, 2), (5, 3)] rfl (by decide))]
  obtain ⟨h0, h1⟩ := layout51 0xc0ceba01 ctx sc (by decide)
  rw [leaf_fabLoad (bits_psum [(20, 2), (5, 3)] rfl (by decide)) (bits_psum [(20, 2), (5, 3)] rfl (by decide))]
  rw [h1, h0]

theorem fabEvict (ctx : BitVec 2) (sc : Scope) : Statement (.fabEvict ctx sc) := by
  intro _
  show rawParse (BitVec.ofNat 32 (psum 0xc0ceba02 [bv 20 ctx, scp 5 sc])) = _
  rw [major48 (bits_psum [(20, 2), (5, 3)] rfl (by decide))]
  obtain ⟨h0, h1⟩ := layout51 0xc0ceba02 ctx sc (by decide)
  rw [leaf_fabEvict (bits_psum [(20, 2), (5, 3)] rfl (by decide)) (bits_psum [(20, 2), (5, 3)] rfl (by decide))]
  rw [h1, h0]

theorem fabSeed (ctx : BitVec 2) (sc : Scope) : Statement (.fabSeed ctx sc) := by
  intro _
  show rawParse (BitVec.ofNat 32 (psum 0xc0ceba03 [bv 20 ctx, scp 5 sc])) = _
  rw [major48 (bits_psum [(20, 2), (5, 3)] rfl (by decide))]
  obtain ⟨h0, h1⟩ := layout51 0xc0ceba03 ctx sc (by decide)
  rw [leaf_fabSeed (bits_psum [(20, 2), (5, 3)] rfl (by decide)) (bits_psum [(20, 2), (5, 3)] rfl (by decide))]
  rw [h1, h0]

theorem fabSnap (ctx : BitVec 2) (sc : Scope) : Statement (.fabSnap ctx sc) := by
  intro _
  show rawParse (BitVec.ofNat 32 (psum 0xc0ceba04 [bv 20 ctx, scp 5 sc])) = _
  rw [major48 (bits_psum [(20, 2), (5, 3)] rfl (by decide))]
  obtain ⟨h0, h1⟩ := layout51 0xc0ceba04 ctx sc (by decide)
  rw [leaf_fabSnap (bits_psum [(20, 2), (5, 3)] rfl (by decide)) (bits_psum [(20, 2), (5, 3)] rfl (by decide))]
  rw [h1, h0]

theorem cxw (eng : BitVec 4) (ctx : BitVec 2) (src : RegCode) (ereg : BitVec 5) : Statement (.cxw eng ctx src ereg) := by
  intro _
  show rawParse (BitVec.ofNat 32 (psum 0xc4000000 [bv 22 eng, bv 20 ctx, bv 14 src, bv 9 ereg])) = _
  rw [major49 (bits_psum [(22, 4), (20, 2), (14, 6), (9, 5)] rfl (by decide))]
  obtain ⟨h0, h1, h2, h3⟩ := layout52 0xc4000000 eng ctx src ereg (by decide)
  unfold parse31
  rw [h0, h1, h2, h3]

theorem cxr (eng : BitVec 4) (ctx : BitVec 2) (d : RegCode) (ereg : BitVec 5) : Statement (.cxr eng ctx d ereg) := by
  intro _
  show rawParse (BitVec.ofNat 32 (psum 0xc8000000 [bv 22 eng, bv 20 ctx, bv 14 d, bv 9 ereg])) = _
  rw [major50 (bits_psum [(22, 4), (20, 2), (14, 6), (9, 5)] rfl (by decide))]
  obtain ⟨h0, h1, h2, h3⟩ := layout52 0xc8000000 eng ctx d ereg (by decide)
  unfold parse32
  rw [h0, h1, h2, h3]

theorem hset (d a b : RegCode) (hA hB : Bool) : Statement (.hset d a b hA hB) := by
  intro _
  show rawParse (BitVec.ofNat 32 (psum 0xcc000000 [bv 20 d, bv 14 a, bv 8 b, bo 7 hA, bo 6 hB])) = _
  rw [major51 (bits_psum [(20, 6), (14, 6), (8, 6), (7, 1), (6, 1)] rfl (by decide))]
  obtain ⟨h0, h1, h2, h3, h4⟩ := layout0 0xcc000000 d a b hA hB (by decide)
  rw [leaf_hset (bits_psum [(20, 6), (14, 6), (8, 6), (7, 1), (6, 1)] rfl (by decide))]
  rw [h0, h1, h2, h3, h4]

theorem hfree (a : RegCode) (hA : Bool) : Statement (.hfree a hA) := by
  intro _
  show rawParse (BitVec.ofNat 32 (psum 0xcc000001 [bv 14 a, bo 7 hA])) = _
  rw [major51 (bits_psum [(14, 6), (7, 1)] rfl (by decide))]
  obtain ⟨h0, h1⟩ := layout41 0xcc000001 a hA (by decide)
  rw [leaf_hfree (bits_psum [(14, 6), (7, 1)] rfl (by decide))]
  rw [h0, h1]

theorem hkill (a : RegCode) (hA : Bool) : Statement (.hkill a hA) := by
  intro _
  show rawParse (BitVec.ofNat 32 (psum 0xcc000002 [bv 14 a, bo 7 hA])) = _
  rw [major51 (bits_psum [(14, 6), (7, 1)] rfl (by decide))]
  obtain ⟨h0, h1⟩ := layout41 0xcc000002 a hA (by decide)
  rw [leaf_hkill (bits_psum [(14, 6), (7, 1)] rfl (by decide))]
  rw [h0, h1]

theorem hwait (a : RegCode) (mask : BitVec 4) (hA : Bool) : Statement (.hwait a mask hA) := by
  intro _
  show rawParse (BitVec.ofNat 32 (psum 0xcc000003 [bv 14 a, bv 8 mask, bo 7 hA])) = _
  rw [major51 (bits_psum [(14, 6), (8, 4), (7, 1)] rfl (by decide))]
  obtain ⟨h0, h1, h2⟩ := layout53 0xcc000003 a mask hA (by decide)
  rw [leaf_hwait (bits_psum [(14, 6), (8, 4), (7, 1)] rfl (by decide))]
  rw [h0, h1, h2]

theorem hstat (d a : RegCode) (hA : Bool) : Statement (.hstat d a hA) := by
  intro _
  show rawParse (BitVec.ofNat 32 (psum 0xcc000004 [bv 20 d, bv 14 a, bo 7 hA])) = _
  rw [major51 (bits_psum [(20, 6), (14, 6), (7, 1)] rfl (by decide))]
  obtain ⟨h0, h1, h2⟩ := layout9 0xcc000004 d a hA (by decide)
  rw [leaf_hstat (bits_psum [(20, 6), (14, 6), (7, 1)] rfl (by decide))]
  rw [h0, h1, h2]

theorem tlwait (a : RegCode) (sc : Scope) (hA : Bool) (eng ctx : BitVec 2) : Statement (.tlwait a sc hA eng ctx) := by
  intro _
  show rawParse (BitVec.ofNat 32 (psum 0xd0000000 [bv 14 a, scp 8 sc, bo 7 hA, bv 2 eng, bv 0 ctx])) = _
  rw [major52 (bits_psum [(14, 6), (8, 3), (7, 1), (2, 2), (0, 2)] rfl (by decide))]
  obtain ⟨h0, h1, h2, h3, h4⟩ := layout54 0xd0000000 a sc hA eng ctx (by decide)
  rw [leaf_tlwait (bits_psum [(14, 6), (8, 3), (7, 1), (2, 2), (0, 2)] rfl (by decide))]
  rw [h1, h0, h2, h3, h4]

theorem tlread (d : RegCode) (eng ctx : BitVec 2) : Statement (.tlread d eng ctx) := by
  intro _
  show rawParse (BitVec.ofNat 32 (psum 0xd0000010 [bv 20 d, bv 2 eng, bv 0 ctx])) = _
  rw [major52 (bits_psum [(20, 6), (2, 2), (0, 2)] rfl (by decide))]
  obtain ⟨h0, h1, h2⟩ := layout55 0xd0000010 d eng ctx (by decide)
  rw [leaf_tlread (bits_psum [(20, 6), (2, 2), (0, 2)] rfl (by decide))]
  rw [h0, h1, h2]

theorem tladv (d : RegCode) (eng ctx : BitVec 2) : Statement (.tladv d eng ctx) := by
  intro _
  show rawParse (BitVec.ofNat 32 (psum 0xd0000020 [bv 20 d, bv 2 eng, bv 0 ctx])) = _
  rw [major52 (bits_psum [(20, 6), (2, 2), (0, 2)] rfl (by decide))]
  obtain ⟨h0, h1, h2⟩ := layout55 0xd0000020 d eng ctx (by decide)
  rw [leaf_tladv (bits_psum [(20, 6), (2, 2), (0, 2)] rfl (by decide))]
  rw [h0, h1, h2]

theorem trap (code : BitVec 18) : Statement (.trap code) := by
  intro _
  show rawParse (BitVec.ofNat 32 (psum 0xe0000000 [bv 8 code])) = _
  rw [major56 (bits_psum [(8, 18)] rfl (by decide))]
  have h0 := layout56 0xe0000000 code (by decide)
  rw [leaf_trap (bits_psum [(8, 18)] rfl (by decide)) (bits_psum [(8, 18)] rfl (by decide))]
  rw [h0]

theorem eret : Statement (.eret) := by
  intro _
  show rawParse (BitVec.ofNat 32 (psum 0xe0000001 [])) = _
  rw [major56 (bits_psum [] rfl (by decide))]
  rw [leaf_eret (bits_psum [] rfl (by decide)) (bits_psum [] rfl (by decide))]

theorem wfi : Statement (.wfi) := by
  intro _
  show rawParse (BitVec.ofNat 32 (psum 0xe0000002 [])) = _
  rw [major56 (bits_psum [] rfl (by decide))]
  rw [leaf_wfi (bits_psum [] rfl (by decide)) (bits_psum [] rfl (by decide))]

theorem ctlr (d : RegCode) (addr : BitVec 12) : Statement (.ctlr d addr) := by
  intro _
  show rawParse (BitVec.ofNat 32 (psum 0xe0000008 [bv 20 d, bv 8 addr])) = _
  rw [major56 (bits_psum [(20, 6), (8, 12)] rfl (by decide))]
  obtain ⟨h0, h1⟩ := layout57 0xe0000008 d addr (by decide)
  rw [leaf_ctlr (bits_psum [(20, 6), (8, 12)] rfl (by decide)) (bits_psum [(20, 6), (8, 12)] rfl (by decide))]
  rw [h0, h1]

theorem ctlw (src : RegCode) (addr : BitVec 12) : Statement (.ctlw src addr) := by
  intro _
  show rawParse (BitVec.ofNat 32 (psum 0xe0000009 [bv 20 src, bv 8 addr])) = _
  rw [major56 (bits_psum [(20, 6), (8, 12)] rfl (by decide))]
  obtain ⟨h0, h1⟩ := layout57 0xe0000009 src addr (by decide)
  rw [leaf_ctlw (bits_psum [(20, 6), (8, 12)] rfl (by decide)) (bits_psum [(20, 6), (8, 12)] rfl (by decide))]
  rw [h0, h1]

theorem ctlset (src : RegCode) (addr : BitVec 12) : Statement (.ctlset src addr) := by
  intro _
  show rawParse (BitVec.ofNat 32 (psum 0xe000000a [bv 20 src, bv 8 addr])) = _
  rw [major56 (bits_psum [(20, 6), (8, 12)] rfl (by decide))]
  obtain ⟨h0, h1⟩ := layout57 0xe000000a src addr (by decide)
  rw [leaf_ctlset (bits_psum [(20, 6), (8, 12)] rfl (by decide)) (bits_psum [(20, 6), (8, 12)] rfl (by decide))]
  rw [h0, h1]

theorem ctlclr (src : RegCode) (addr : BitVec 12) : Statement (.ctlclr src addr) := by
  intro _
  show rawParse (BitVec.ofNat 32 (psum 0xe000000b [bv 20 src, bv 8 addr])) = _
  rw [major56 (bits_psum [(20, 6), (8, 12)] rfl (by decide))]
  obtain ⟨h0, h1⟩ := layout57 0xe000000b src addr (by decide)
  rw [leaf_ctlclr (bits_psum [(20, 6), (8, 12)] rfl (by decide)) (bits_psum [(20, 6), (8, 12)] rfl (by decide))]
  rw [h0, h1]

theorem tlbinv (d a b : RegCode) (hA hB : Bool) : Statement (.tlbinv d a b hA hB) := by
  intro _
  show rawParse (BitVec.ofNat 32 (psum 0xe0000010 [bv 20 d, bv 14 a, bv 8 b, bo 7 hA, bo 6 hB])) = _
  rw [major56 (bits_psum [(20, 6), (14, 6), (8, 6), (7, 1), (6, 1)] rfl (by decide))]
  obtain ⟨h0, h1, h2, h3, h4⟩ := layout0 0xe0000010 d a b hA hB (by decide)
  rw [leaf_tlbinv (bits_psum [(20, 6), (14, 6), (8, 6), (7, 1), (6, 1)] rfl (by decide)) (bits_psum [(20, 6), (14, 6), (8, 6), (7, 1), (6, 1)] rfl (by decide))]
  rw [h0, h1, h2, h3, h4]

theorem tlbprobe (d a b : RegCode) (hA hB : Bool) : Statement (.tlbprobe d a b hA hB) := by
  intro _
  show rawParse (BitVec.ofNat 32 (psum 0xe0000011 [bv 20 d, bv 14 a, bv 8 b, bo 7 hA, bo 6 hB])) = _
  rw [major56 (bits_psum [(20, 6), (14, 6), (8, 6), (7, 1), (6, 1)] rfl (by decide))]
  obtain ⟨h0, h1, h2, h3, h4⟩ := layout0 0xe0000011 d a b hA hB (by decide)
  rw [leaf_tlbprobe (bits_psum [(20, 6), (14, 6), (8, 6), (7, 1), (6, 1)] rfl (by decide)) (bits_psum [(20, 6), (14, 6), (8, 6), (7, 1), (6, 1)] rfl (by decide))]
  rw [h0, h1, h2, h3, h4]

theorem cwb (sc : Scope) : Statement (.cwb sc) := by
  intro _
  show rawParse (BitVec.ofNat 32 (psum 0xe0000018 [scp 0 sc])) = _
  rw [major56 (bits_psum [(0, 3)] rfl (by decide))]
  have h0 := layout58 0xe0000018 sc (by decide)
  rw [leaf_cwb (bits_psum [(0, 3)] rfl (by decide))]
  rw [h0]

theorem cinv (sc : Scope) : Statement (.cinv sc) := by
  intro _
  show rawParse (BitVec.ofNat 32 (psum 0xe0000020 [scp 0 sc])) = _
  rw [major56 (bits_psum [(0, 3)] rfl (by decide))]
  have h0 := layout58 0xe0000020 sc (by decide)
  rw [leaf_cinv (bits_psum [(0, 3)] rfl (by decide))]
  rw [h0]

theorem vectorCompletion : Statement .vectorCompletion := fun h => Bool.noConfusion h

theorem sleepExpiry : Statement .sleepExpiry := fun h => Bool.noConfusion h

theorem tlstatWrite : Statement .tlstatWrite := fun h => Bool.noConfusion h

theorem cxrValueReturn : Statement .cxrValueReturn := fun h => Bool.noConfusion h

theorem tlreadValueReturn : Statement .tlreadValueReturn := fun h => Bool.noConfusion h

theorem statWrite : Statement .statWrite := fun h => Bool.noConfusion h

theorem lmsplitWrite : Statement .lmsplitWrite := fun h => Bool.noConfusion h

theorem inboxWrite : Statement .inboxWrite := fun h => Bool.noConfusion h

theorem gpoolWrite : Statement .gpoolWrite := fun h => Bool.noConfusion h

theorem srvtabWrite : Statement .srvtabWrite := fun h => Bool.noConfusion h

theorem tlbinvComplete : Statement .tlbinvComplete := fun h => Bool.noConfusion h

theorem tlbprobeResult : Statement .tlbprobeResult := fun h => Bool.noConfusion h

theorem instructionFetchFill : Statement .instructionFetchFill := fun h => Bool.noConfusion h

theorem loadDataReturn : Statement .loadDataReturn := fun h => Bool.noConfusion h

theorem releaseComplete : Statement .releaseComplete := fun h => Bool.noConfusion h

theorem acquireComplete : Statement .acquireComplete := fun h => Bool.noConfusion h

theorem l2MissFill : Statement .l2MissFill := fun h => Bool.noConfusion h

theorem pageWalkComplete : Statement .pageWalkComplete := fun h => Bool.noConfusion h

theorem srvResultWriteback : Statement .srvResultWriteback := fun h => Bool.noConfusion h

theorem sendDelivery : Statement .sendDelivery := fun h => Bool.noConfusion h

theorem sendAcknowledgement : Statement .sendAcknowledgement := fun h => Bool.noConfusion h

theorem channelTransmit : Statement .channelTransmit := fun h => Bool.noConfusion h

theorem inboxPlacement : Statement .inboxPlacement := fun h => Bool.noConfusion h

theorem commandStart : Statement .commandStart := fun h => Bool.noConfusion h

theorem commandCompletion : Statement .commandCompletion := fun h => Bool.noConfusion h

theorem copyLastByte : Statement .copyLastByte := fun h => Bool.noConfusion h

theorem contourClaim : Statement .contourClaim := fun h => Bool.noConfusion h

theorem railSettle : Statement .railSettle := fun h => Bool.noConfusion h

theorem elementFire : Statement .elementFire := fun h => Bool.noConfusion h

theorem entAccept : Statement .entAccept := fun h => Bool.noConfusion h

theorem ldpEmit : Statement .ldpEmit := fun h => Bool.noConfusion h

theorem stpPerformed : Statement .stpPerformed := fun h => Bool.noConfusion h

theorem faultTokenDrain : Statement .faultTokenDrain := fun h => Bool.noConfusion h

theorem handlerAbsentTimeout : Statement .handlerAbsentTimeout := fun h => Bool.noConfusion h

theorem regionRequest : Statement .regionRequest := fun h => Bool.noConfusion h

theorem configCacheFetch : Statement .configCacheFetch := fun h => Bool.noConfusion h

theorem configCompleteWave : Statement .configCompleteWave := fun h => Bool.noConfusion h

theorem meteredInjection : Statement .meteredInjection := fun h => Bool.noConfusion h

theorem regionStop : Statement .regionStop := fun h => Bool.noConfusion h

theorem launchTokenWrite : Statement .launchTokenWrite := fun h => Bool.noConfusion h

theorem headerConsume : Statement .headerConsume := fun h => Bool.noConfusion h

theorem ageingPromotion : Statement .ageingPromotion := fun h => Bool.noConfusion h

theorem partyBind : Statement .partyBind := fun h => Bool.noConfusion h

theorem dispatchStart : Statement .dispatchStart := fun h => Bool.noConfusion h

theorem surveyCompletion : Statement .surveyCompletion := fun h => Bool.noConfusion h

theorem qstop : Statement .qstop := fun h => Bool.noConfusion h

theorem qstart : Statement .qstart := fun h => Bool.noConfusion h

theorem qkill : Statement .qkill := fun h => Bool.noConfusion h

theorem killRegionTimeout : Statement .killRegionTimeout := fun h => Bool.noConfusion h

theorem qreset : Statement .qreset := fun h => Bool.noConfusion h

theorem lvalWrite : Statement .lvalWrite := fun h => Bool.noConfusion h

theorem ltrigWrite : Statement .ltrigWrite := fun h => Bool.noConfusion h

theorem lstatWrite : Statement .lstatWrite := fun h => Bool.noConfusion h

theorem serviceResolve : Statement .serviceResolve := fun h => Bool.noConfusion h

theorem resolveAnswer : Statement .resolveAnswer := fun h => Bool.noConfusion h

theorem serviceMigrate : Statement .serviceMigrate := fun h => Bool.noConfusion h

theorem serviceTermThread : Statement .serviceTermThread := fun h => Bool.noConfusion h

theorem serviceTermParty : Statement .serviceTermParty := fun h => Bool.noConfusion h

theorem partyTermination : Statement .partyTermination := fun h => Bool.noConfusion h

theorem preemptionStop : Statement .preemptionStop := fun h => Bool.noConfusion h

theorem saveWrite : Statement .saveWrite := fun h => Bool.noConfusion h

theorem saveResume : Statement .saveResume := fun h => Bool.noConfusion h

theorem restore : Statement .restore := fun h => Bool.noConfusion h

theorem migrationRequest : Statement .migrationRequest := fun h => Bool.noConfusion h

theorem migrationTransfer : Statement .migrationTransfer := fun h => Bool.noConfusion h

theorem thermalMigration : Statement .thermalMigration := fun h => Bool.noConfusion h

theorem surveyRead : Statement .surveyRead := fun h => Bool.noConfusion h

theorem imgAdd : Statement .imgAdd := fun h => Bool.noConfusion h

theorem imgRemove : Statement .imgRemove := fun h => Bool.noConfusion h

theorem setDomain : Statement .setDomain := fun h => Bool.noConfusion h

theorem mgrpWrite : Statement .mgrpWrite := fun h => Bool.noConfusion h

theorem mcostWrite : Statement .mcostWrite := fun h => Bool.noConfusion h

theorem cfloorWrite : Statement .cfloorWrite := fun h => Bool.noConfusion h

theorem opreqWrite : Statement .opreqWrite := fun h => Bool.noConfusion h

theorem tmigWrite : Statement .tmigWrite := fun h => Bool.noConfusion h

theorem ctbaseWrite : Statement .ctbaseWrite := fun h => Bool.noConfusion h

theorem fwstage : Statement .fwstage := fun h => Bool.noConfusion h

theorem fwact : Statement .fwact := fun h => Bool.noConfusion h

theorem attout : Statement .attout := fun h => Bool.noConfusion h

theorem imgkeyWrite : Statement .imgkeyWrite := fun h => Bool.noConfusion h

theorem registerWrite : Statement .registerWrite := fun h => Bool.noConfusion h

theorem istatusWrite : Statement .istatusWrite := fun h => Bool.noConfusion h

theorem hostLinkDown : Statement .hostLinkDown := fun h => Bool.noConfusion h

theorem hostLinkRetrain : Statement .hostLinkRetrain := fun h => Bool.noConfusion h

theorem jenlinkFlitReceive : Statement .jenlinkFlitReceive := fun h => Bool.noConfusion h

theorem jenlinkLinkDown : Statement .jenlinkLinkDown := fun h => Bool.noConfusion h

theorem jenlinkTraining : Statement .jenlinkTraining := fun h => Bool.noConfusion h

theorem packageReset : Statement .packageReset := fun h => Bool.noConfusion h

theorem surveyorRestart : Statement .surveyorRestart := fun h => Bool.noConfusion h

theorem debugUnlock : Statement .debugUnlock := fun h => Bool.noConfusion h

theorem watchdogExpiry : Statement .watchdogExpiry := fun h => Bool.noConfusion h

theorem thermalTrip : Statement .thermalTrip := fun h => Bool.noConfusion h

theorem thermalTripEnd : Statement .thermalTripEnd := fun h => Bool.noConfusion h

theorem currentLimit : Statement .currentLimit := fun h => Bool.noConfusion h

theorem powerClamp : Statement .powerClamp := fun h => Bool.noConfusion h

theorem packageShutdown : Statement .packageShutdown := fun h => Bool.noConfusion h

theorem tempRefresh : Statement .tempRefresh := fun h => Bool.noConfusion h

theorem operatingPointChange : Statement .operatingPointChange := fun h => Bool.noConfusion h

theorem rollbackAdvance : Statement .rollbackAdvance := fun h => Bool.noConfusion h

theorem vectorLatchAccept : Statement .vectorLatchAccept := fun h => Bool.noConfusion h

theorem vectorResponseReturn : Statement .vectorResponseReturn := fun h => Bool.noConfusion h

theorem prefFillReturn : Statement .prefFillReturn := fun h => Bool.noConfusion h

theorem deviceStoreAccepted : Statement .deviceStoreAccepted := fun h => Bool.noConfusion h

theorem yieldExpiry : Statement .yieldExpiry := fun h => Bool.noConfusion h

theorem powerClampRelease : Statement .powerClampRelease := fun h => Bool.noConfusion h

theorem currentLimitRelease : Statement .currentLimitRelease := fun h => Bool.noConfusion h

theorem mailboxBadCommand : Statement .mailboxBadCommand := fun h => Bool.noConfusion h

theorem contourCounterClear : Statement .contourCounterClear := fun h => Bool.noConfusion h

end F

end Sys2Proof.Laws
end

