-- ==== Sys2Proof/Laws/ScalarFloat.lean ====
section
/-!
SUPPORT. What a scalar float instruction does whenever it may issue (R129 to R131).
-/

namespace Sys2Proof.Machine

/-- Flags merged after a synchronous result. -/
theorem Thread.raise_writeSync (u : Thread) (d : RegCode) (v : Word) (fl : Flags) :
    (u.writeSync d v).raise fl = { u.writeSync d v with stat := { u.stat with flags := u.stat.flags ||| fl } } := by
  have h : (u.writeSync d v).stat = u.stat := by rw [Thread.writeSync_eq]
  unfold Thread.raise
  rw [h]

/-- With a prefix its row accepts, or none, a scalar float instruction writes its result and merges its flags. -/
theorem fop_computes {w : W32} {rule : PfxRule} {da dd : Fmt} {src : Srcs} {d : RegCode} {s : State}
    {f g : FArgs → Word × Flags} (h : Clear s 2 src [d]) (hr : rule.accepts s.th.pfxFields = true) (e : ∀ x, f x = g x) :
    ∃ t, fop w rule da dd src d s f = .next t ∧
      Computes s t src d (g (floatArgs s.th da dd src d)).1 (g (floatArgs s.th da dd src d)).2 := by
  obtain rfl : f = g := funext e
  unfold fop withPrefix
  rw [hr]
  simp only [Bool.not_true, Bool.and_false]
  rw [if_neg (by decide), issue_ok h.1 (by simp) (by simp) h.2.1 (Thread.dstWait_sync (h.2.2 d (by simp)))]
  exact retire_computes src s d (f (floatArgs s.th da dd src d)).1 (f (floatArgs s.th da dd src d)).2 _
    (fun u => Thread.raise_writeSync u d _ _)

end Sys2Proof.Machine
end

