-- ==== Sys2Proof/Tests/Slice0.lean ====
section
/-!
SUPPORT. Tests: words of the spec's own examples, ill-formed terms, results that the spec works out, and a state and
operands that meet the hypotheses of each statement.
-/

namespace Sys2Proof.Tests

open Sys2Proof Sys2Proof.Machine

/-- Registers with the values listed, all READY. -/
def regsOf (l : Table Word) : Vector Reg 56 := Vector.ofFn fun i => { val := tget 0 l i.val }

/-- A machine whose only thread, slot 0 of core 0, is running with the values listed. -/
def box (l : Table Word) : State := { th := { status := .running, regs := regsOf l } }

/-- Every register of a box reads. -/
theorem reg_box (l : Table Word) (n : Nat) (h : n < 56) : (box l).th.reg n = { val := tget 0 l n } := by
  simp [box, regsOf, Thread.reg, h]

/-- A thread with the registers of a box finds every register ready. -/
theorem clear (s : State) (l : Table Word) (feat : BitVec 6) (r : Srcs) (ds : List RegCode)
    (hr : s.th.regs = regsOf l) (hf : (s.core s.here).feat = 0x3F) : Clear s feat r ds := by
  have hreg : ∀ n < 56, s.th.reg n = { val := tget 0 l n } := fun n h => by simp [Thread.reg, hr, regsOf, h]
  refine ⟨?_, ?_, ?_⟩
  · rw [hf]; revert feat; decide
  · intro c _ h; simp [hreg _ h]
  · intro c _ h; simp [hreg _ h]

/-- So it may issue anything. -/
theorem may (s : State) (l : Table Word) (feat : BitVec 6) (r : Srcs) (ds : List RegCode)
    (hr : s.th.regs = regsOf l) (hf : (s.core s.here).feat = 0x3F) (hp : s.th.stat.pp = false) :
    MayIssue s feat r ds := ⟨clear s l feat r ds hr hf, hp⟩

/-! Words written out from the encodings of R64 to R73, decoded. -/

theorem test_decode_immediates : decode 0x20548D16 = .ok (.lih 5 0x48D16) ∧ decode 0x0C516789 = .ok (.addi 5 5 0x2789) := by decide
theorem test_decode_integer : decode (0x01#6 ++ 3#6 ++ 1#6 ++ 58#6 ++ 0x0A#8) = .ok (.or 3 1 58 false false) := by decide
theorem test_decode_branches : decode 0x2810A7FD = .ok (.brLtu 1 2 0x7FD) ∧ decode 0x2FA40001 = .ok (.bzNez 58 1) ∧
    decode 0x2CA3FFFF = .ok (.bzEqz 10 0x3FFFF) ∧ decode 0x3801C002 = .ok (.loop 7 2) := by decide
theorem test_decode_memory : decode 0x44513000 = .ok (.st 5 4 3 0) ∧ decode 0x4861FA3B = .ok (.stxRel 6 7 58 false false true .pkg) ∧
    decode 0x48A1FA2B = .ok (.ldxAcq 10 7 58 false false true .pkg) ∧ decode 0x4C310515 = .ok (.ldbitS 3 4 5 false false 5) ∧
    decode 0x5800000A = .ok (.fenceAcq .party) := by decide
theorem test_decode_float : decode 0x6C451400 = .ok (.pfx 1 1 4 2 true) ∧ decode 0x60304200 = .ok (.fadd 3 1 2 false false) ∧
    decode 0x64604200 = .ok (.fmac 6 1 2 false false) := by decide
theorem test_decode_vector : decode 0x8CA48101 = .ok (.vgatherP 1 2 2 1 .i32 4) ∧ decode 0x9C800186 = .ok (.mmov 1 6) ∧
    decode 0x84AE3000 = .ok (.vmac 1 2 7 0 .f16) ∧ decode 0x948A0002 = .ok (.vperm 1 0 5 0) := by decide
theorem test_decode_threads : decode 0xA4A0000B = .ok (.armAcq 10 .pkg) ∧ decode 0xA4B00A31 = .ok (.capr 11 10 1) ∧
    decode 0xA0000000 = .ok .bar ∧ decode 0xA0000002 = .ok .exit ∧ decode 0xA001C004 = .ok (.sleep 7 false) ∧
    decode 0xA9410553 = .ok (.srv 20 4 5 1 1 3) := by decide
theorem test_decode_engines : decode 0xC4615200 = .ok (.cxw 1 2 5 9) ∧ decode 0xC01E8521 = .ok (.copyGo 1 58 5 .party) ∧
    decode 0xCC51C800 = .ok (.hset 5 7 8 false false) ∧ decode 0xCC014403 = .ok (.hwait 5 4 false) := by decide
theorem test_decode_system : decode 0xE0305008 = .ok (.ctlr 3 0x050) ∧ decode 0xE0000500 = .ok (.trap 5) ∧
    decode 0xE0000001 = .ok .eret ∧ decode 0xE2800709 = .ok (.ctlw 40 7) := by decide

/-- Reserved majors, an unassigned function code, element type 7, scope 5, a stray bit, a reserved register code and a
reserved engine (R69 to R73). -/
theorem test_decode_refuses :
    decode 0 = .error .reservedMajor ∧ decode 0xFFFFFFFF = .error .reservedMajor ∧ decode 0x70000000 = .error .reservedMajor ∧
    decode 0x0400003F = .error .unassigned ∧ decode 0x5800002A = .error .badScope ∧ decode 0xA0000100 = .error .nonZeroField ∧
    decode (0x01#6 ++ 60#6 ++ 1#6 ++ 2#6 ++ 0#8) = .error .badRegister ∧ decode 0xC1800000 = .error .reservedEngine := by decide

/-- The word of the listing of R85 stored with its least significant byte first. -/
theorem test_byte_order : bytesOfWord 0x20548D16 = [0x16, 0x8D, 0x54, 0x20] ∧
    decodeBytes [0x16, 0x8D, 0x54, 0x20, 7] = .ok (.lih 5 0x48D16, [7]) := by decide

/-- Each check of WellFormed refuses a term that breaks it. -/
theorem test_ill_formed_terms : ∀ p ∈ ([
    (.add 60 0 0 false false, .badRegister), (.add 56 0 0 false false, .badRegister), (.add 0 60 0 false false, .badRegister),
    (.add 0 0 63 false false, .badRegister), (.ld 0 0 3 true 0, .badField), (.vshl 0 0 0 0 .f32, .badType),
    (.vdot4 0 0 0 0 .i32, .badType), (.vcmp 0 0 0 0 .i16 0, .badType), (.vcmp 0 0 0 0 .i32 6, .unassigned),
    (.vcmp 0 0 0 0 .f32 4, .badType), (.vlds 0 0 47, .badRegister), (.vgatherP 0 0 0 0 .i32 1, .badField),
    (.vext 0 0 .i8 1, .badType), (.vred 0 0 .f32 1 3, .badType), (.vred 0 0 .i8 1 5, .badType), (.arm 58, .badRegister),
    (.capr 1 58 1, .badRegister), (.capr 1 1 0, .badField), (.srv 47 1 1 1 1 0, .badRegister), (.srv 1 1 1 0 0 0, .badRegister),
    (.srv 1 47 0 0 2 0, .badRegister), (.srv 1 1 47 0 3 0, .badRegister), (.srv 48 1 1 0 1 0, .badRegister),
    (.hwait 1 0 false, .badField), (.sendDelivery, .notAWord)] : List (Instr × DecodeError)), p.1.defect = some p.2 := by decide
theorem test_well_formed_edges : ∀ i ∈ ([.add 58 59 58 true true, .ld 0 0 3 false 0, .vlds 0 0 46, .srv 44 46 46 3 3 15,
    .arm 55, .vcmp 0 0 0 0 .i32 5] : List Instr), i.wf = true := by decide

/-! Results that the spec works out, each by one step of a word placed after reset. -/

/-- What a thread of one core leaves when it runs one word with the registers listed. -/
def after (i : Instr) (l : Table Word) (f : Thread → Thread) : Option Thread :=
  match exec i { box l with th := f (box l).th } with
  | .next t => some t.th
  | _ => none

/-- The value a register is left with. -/
def gives (i : Instr) (l : Table Word) (r : Nat) (f : Thread → Thread := id) : Option Word := (after i l f).map fun t => (t.reg r).val

theorem test_first_word_after_reset : (match step (State.reset.withFetchWord 32 0x0C516789) with
    | .next t => (t.th.reg 5).val == 0xFFFFFFFFFFFFE789 && t.th.pc == 4
    | _ => false) = true := by decide
theorem test_division : gives (.div 3 1 2 false false) [(1, -7), (2, 2)] 3 = some (-3) ∧
    gives (.rem 3 1 2 false false) [(1, -7), (2, 2)] 3 = some (-1) ∧ gives (.div 3 1 2 false false) [(1, 5)] 3 = some (-1) ∧
    gives (.rem 3 1 2 false false) [(1, 5)] 3 = some 5 ∧
    gives (.div 3 1 2 false false) [(1, 0x8000000000000000), (2, -1)] 3 = some 0x8000000000000000 ∧
    gives (.rem 3 1 2 false false) [(1, 0x8000000000000000), (2, -1)] 3 = some 0 := by decide
theorem test_division_words : gives (.divw 3 1 2 false false) [(1, 0x180000000), (2, -1)] 3 = some 0xFFFFFFFF80000000 ∧
    gives (.remuw 3 1 2 false false) [(1, 0x290000001)] 3 = some 0xFFFFFFFF90000001 := by decide
theorem test_high_products : gives (.mulh 3 1 2 false false) [(1, -1), (2, -1)] 3 = some 0 ∧
    gives (.mulhu 3 1 2 false false) [(1, -1), (2, -1)] 3 = some 0xFFFFFFFFFFFFFFFE := by decide
theorem test_load_immediate : gives (.addi 5 5 0x2789) [(5, 0x48D16 <<< 14)] 5 = some 0x123456789 := by decide
theorem test_field_insert : gives (.bfi 2 2 8 false false) [(2, 0xFF), (8, 0x25)] 2 (fun t => { t with z0 := 0x63A }) =
    some 0x94000000000000FF := by decide
theorem test_branch_back : (after (.brLtu 1 2 0x7FD) [(2, 1)] fun t => { t with pc := 0x100 }).map (·.pc) = some 0xF4 := by decide
theorem test_loop_ends_at_its_last_word : (after (.add 3 1 2 false false) [] fun t => { t with
    pc := 0x10, lstart := 0x8, lend := 0x10, lcnt := 2, stat := { t.stat with la := true } }).map (fun t => (t.pc, t.lcnt)) =
    some (0x8, 1) := by decide
theorem test_float_multiply_add : gives (.fmac 6 1 2 false false) [(1, 0x40400000), (2, 0x3F000000), (6, 0x3FA00000)] 6 =
    some 0x40300000 ∧ gives (.fnmac 6 1 2 false false) [(1, 0x40400000), (2, 0x3F000000), (6, 0x3FA00000)] 6 =
    some 0xC0300000 := by decide
theorem test_float_to_integer : (after (.fcvti 3 1 false) [(1, 0xC0200000)] id).map (fun t => ((t.reg 3).val, t.stat.flags)) =
    some (0xFFFFFFFFFFFFFFFE, 1) := by decide
theorem test_prefixed_sum : (after (.fadd 3 1 2 false false) [(1, 0x476A6000), (2, 0x45FA0000)] fun t => { t with
      pfx := 0x6C44A400, stat := { t.stat with pp := true } }).map (fun t => ((t.reg 3).val, t.stat.flags, t.stat.pp)) =
    some (0x7BFF, 5, false) := by decide
theorem test_signed_bit_field : (match exec (.ldbitS 3 4 5 false false 5) { box [(4, 0x7FFFFF00FE0100), (5, 60)] with
      scratch := [(0x107, 0xF0), (0x108, 2)], cores := [(0, { lmsplit := 1 })] } with
    | .next t => t.th.loads.map (·.value) == [-17] && (t.th.reg 3).sb == .pending
    | _ => false) = true := by decide
theorem test_control_register_of_the_mode : gives (.ctlr 3 0x000) [] 3 (fun t => { t with stat := { t.stat with mode := true } }) =
    some 1 := by decide
theorem test_trap_enters_the_handler : (after (.trap 5) [] fun t => { t with pc := 0x2000, tvec := 0x9000 }).map
    (fun t => (t.pc, t.epc, t.ecause, t.eval1, t.stat.mode)) = some (0x9000, 0x2000, 0x12, 5, true) := by decide
theorem test_return_from_the_handler : (after .eret [] fun t => { t with epc := 0x2004, stat := { t.stat with mode := true } }).map
    (fun t => (t.pc, t.stat.mode)) = some (0x2004, false) := by decide
theorem test_user_mode_may_not_return : (after .eret [] fun t => { t with tvec := 0x9000 }).map (fun t => (t.pc, t.ecause, t.eval1)) =
    some (0x9000, 0x13, 0xE0000001) := by decide
theorem test_dot_products : ([(VType.i8, 100), (VType.u8, 1636)].map fun p => (after (.vdot4 3 1 2 0 p.1) [] fun t =>
    ((t.setVreg 1 (Vector.replicate 32 0x807F02FF)).setVreg 2 (Vector.replicate 32 0x01010305)).setVreg 3
      (Vector.replicate 32 100)).map fun t => (t.vreg 3)[0]) = [some 100, some 1636] := by decide

/-- The ring of the example of R183: a placement past a skip header, then the receive that follows it. -/
theorem test_ring_of_an_inbox : (match chanToRing { box [] with
      cores := [(0, { lmsplit := 8 })]
      th := { (box []).th with inbox := { en := true, base := 0x1000 }, wpos := 0xE0, rpos := 0x60, heldMsg := some 0xE0 } }
      0 0x000207 (List.replicate 40 1) with
    | .accept s => s.th.wpos == 0x30 && leNat (cgets s.scratch 0x10E0 8) == 2 &&
      (match exec (.chrecv 3) s with
        | .next t => (t.th.reg 3).val == 0x0002070028001008 && t.th.rpos == 0
        | _ => false)
    | _ => false) = true := by decide

/-! For every statement with hypotheses, a state and operands that meet them: here those of the scalar instructions. -/

/-- Any instruction may issue in a box: the hypothesis of IntegerRegisterResults, DivisionNeverTraps,
IntegerImmediateResults, SelectCountReverseResults, BitFieldResults, BranchesTakenAndUntaken, JumpsLinkAndTransfer,
LoopStarts, PrefixIsHeld, ControlRegisterReads, ControlRegisterWrites and InboxAndSplitWrites. -/
theorem witness_may_issue (l : Table Word) (feat : BitVec 6) (r : Srcs) (ds : List RegCode) : MayIssue (box l) feat r ds :=
  may _ l feat r ds rfl rfl rfl

/-- A box in supervisor mode. -/
def privileged (l : Table Word) : State :=
  { box l with th := { (box l).th with stat := { mode := true }, lstart := 0x100, lend := 0x1FC } }

theorem witness_may_issue_privileged (l : Table Word) (feat : BitVec 6) (r : Srcs) (ds : List RegCode) :
    MayIssue (privileged l) feat r ds := may _ l feat r ds rfl rfl rfl

/-- DivisionNeverTraps at its corners; branches both ways; JALR below and at 2^55; LOOP with and without a count, and in a loop. -/
theorem witness_integer_corners : (box [(1, 0x8000000000000000), (2, -1)]).th.readB 2 = BitVec.allOnes 64 ∧
    (box []).th.readB 2 = 0 ∧ ((box [(1, 5)]).th.value 1 == (box [(1, 5)]).th.readB 2) = false ∧
    ((box []).th.value 1 == (box []).th.readB 2) = true ∧
    ((box [(1, 0x7FFFFFFFFFFFFF)]).th.readA 1 + (0 : BitVec 14).signExtend 64).toNat < 2 ^ 55 ∧
    ¬((box [(1, 0x7FFFFFFFFFFFFF)]).th.readA 1 + (1 : BitVec 14).signExtend 64).toNat < 2 ^ 55 ∧
    (box [(1, 3)]).th.stat.la = false ∧ (box [(1, 3)]).th.readA 1 ≠ 0 ∧ (box []).th.readA 1 = 0 ∧
    ({ (box []).th with stat := { la := true } } : Thread).stat.la = true := by decide

/-- ScalarFloatResults: without a prefix and with one that names FP16, for each of its rules. -/
theorem witness_scalar_float (p : Bool) : let s : State := { box [] with th := { (box []).th with
      pfx := 0x6C44A400, stat := { pp := p } } }
    (s.core s.here).feat &&& 2 = 2 ∧ (∀ n < 56, s.th.reg n = {}) ∧
      ∀ rule ∈ [ruleArith, ruleSqrt, ruleSign, ruleCps, ruleRnd, ruleCmp, ruleClass, ruleCvt],
        p = false → rule.accepts s.th.pfxFields = true := by
  refine ⟨?_, fun n h => reg_box [] n h, ?_⟩ <;> cases p <;> decide
theorem witness_prefixed_float : let s : State := { box [] with th := { (box []).th with pfx := encode (.pfx 1 0 2 0 false), stat := { pp := true } } }
    ruleArith.accepts s.th.pfxFields = true ∧ ruleCvt.accepts s.th.pfxFields = true := by decide

/-- RoundingPicksTheNamedNeighbour needs one bit to cut: 5 x 2^-1 between 2 and 3. -/
theorem witness_rounding : 0 < 1 ∧ (roundAt .rne false 5 0 1).1 = 2 ∧ (roundAt .rup false 5 0 1).1 = 3 := by decide
/-- Its arithmetic clauses: divisors and radicands below their bounds, each special value, a magnitude with its leading bit
inside a format's range and beyond it. -/
theorem witness_float_arithmetic : (2 ^ 31 - 1 < 2 ^ 31 ∧ (2 ^ 31 - 1 : Nat) ≠ 0) ∧ 2 ^ 32 - 1 < 2 ^ 32 ∧
    fdecode .fp32 0x7FC00000 = .nan false ∧ fdecode .fp32 0x7FA00000 = .nan true ∧ fdecode .f8a 0x7F = .nan false ∧
    fdecode .fp16 0xFC00 = .inf true ∧ fdecode .fp32 0x80000000 = .fin true 0 (-149) ∧
    (∀ f ∈ ([.fp32, .fp16, .bf16, .f8a, .f8b] : List Fmt), f.isFloat = true) ∧ Fmt.i4.isFloat = false := by decide
theorem witness_leading_bits : (2 : ℚ) ^ (1 : Int) ≤ (3 : Nat) * 2 ^ (0 : Int) ∧ (3 : Nat) * (2 : ℚ) ^ (0 : Int) < 2 ^ ((1 : Int) + 1) ∧
    (2 : ℚ) ^ (200 : Int) ≤ (1 : Nat) * 2 ^ (200 : Int) ∧ (1 : Nat) * (2 : ℚ) ^ (200 : Int) < 2 ^ ((200 : Int) + 1) := by
  norm_num

/-- EretReturns: supervisor mode and no send outstanding, with a loop it can capture, one it cannot, and a refusal. -/
theorem witness_eret : (privileged []).th.stat.mode = true ∧ (privileged []).th.sends = 0 ∧ (privileged []).th.sstat.la = false ∧
    ¬(256 < (privileged []).th.lend.toNat - (privileged []).th.lstart.toNat + 4) ∧
    256 < ({ (privileged []).th with lend := 0x200 } : Thread).lend.toNat - (privileged []).th.lstart.toNat + 4 := by decide

/-- ControlRegisterWrites: readable addresses of each clause, and one that is unassigned. -/
theorem witness_control_registers : ctlRead (privileged []) 0x000 ≠ none ∧ ctlRead (privileged []) 0x06F ≠ none ∧
    ctlRead (privileged []) 0x070 = none ∧ ctlRead (box []) 0x000 ≠ none ∧ ctlRead (box []) 0x007 ≠ none ∧
    ctlRead (privileged []) 0x010 ≠ none := by decide

/-- InboxAndSplitWrites: SIZE 8 and 9, a ring in and out of range, LMSPLIT 8 and 9. -/
theorem witness_inbox : let v : Word := 0x8000000000000000
    (v.toNat / 2 ^ 32 % 16 = 0) ∧ ¬(v.getLsbD 63 = true ∧ 16384 < 0 + 256 * 2 ^ 0) ∧
    (0x8000000800000000#64).toNat / 2 ^ 32 % 16 = 8 ∧ (0x8000000900000000#64).toNat / 2 ^ 32 % 16 = 9 ∧
    (coreThreads (box []) 0).any (fun t => t.inbox.en) = false := by decide

/-! Memory: page 0 mapped to physical page 0, page 2 not mapped, one scratchpad way. -/

def memRegs : Table Word := [(1, 0x1000), (2, 1), (4, 0x7FFFFF00FE0000), (5, 0x80000000000000), (6, 0x20000), (7, 0x1001),
  (8, 0x7FFFFF00FE3FFF)]
def mapped (dev : Bool) : State := { box memRegs with
  utlb := [(0, [⟨0, .k64, 0, 0, true, true, dev, true⟩])], cores := [(0, { lmsplit := 1 })] }

/-- Where an access lands, when it does. -/
def lands : Located → Option (List Loc)
  | .ok l _ => some l
  | _ => none

theorem witness_may_issue_mapped (dev : Bool) (feat : BitVec 6) (r : Srcs) (ds : List RegCode) : MayIssue (mapped dev) feat r ds :=
  may _ memRegs feat r ds rfl (by cases dev <;> decide) rfl
theorem witness_inv_mapped (dev : Bool) : Inv (mapped dev) := ⟨rfl, rfl⟩

/-- LoadsGoOut, StoresWriteTheirBytes, ReleasingStores, AcquiringLoads and AtomicsReadAndWrite: ordinary memory, the last bytes
of a scratchpad, a fault, a walk, a device page aligned and not. -/
theorem witness_accesses : let s := mapped false
    lands (locate s .load (s.th.readA 1) 4) = some [.mem 0x1000, .mem 0x1001, .mem 0x1002, .mem 0x1003] ∧
    lands (locate s .store (s.th.readA 8 - 3) 4) = some [.scratch 0x3FFC, .scratch 0x3FFD, .scratch 0x3FFE, .scratch 0x3FFF] ∧
    lands (locate s .load (s.th.readA 8) 2) = none ∧ lands (locate s .load (s.th.readA 5) 1) = none ∧
    (match locate s .load (s.th.readA 6) 1 with | .walk 0 2 => true | _ => false) = true ∧
    lands (locate (mapped true) .load (s.th.readA 1) 1) = some [.dev 0x1000] ∧ (s.th.readA 7).toNat % 4 ≠ 0 ∧
    s.th.slotsHeld < 8 ∧ s.th.devStore = false ∧ s.th.phase = .fresh ∧ s.th.loads = [] ∧ hintsPending s s.here = false ∧
    waysOf s s.here ≠ 0 ∧ (s.core s.here).gpool = false ∧ s.portionOf s.here = [] ∧ reachable s 0x1000 = true ∧ allScratch [.scratch 0x3FFC] = true ∧
    poisonAt s [.scratch 0x3FFC] = false ∧ [Loc.mem 0x1000, .mem 0x1001].Nodup := by decide
theorem witness_released_store : let s : State := { mapped false with th := { (mapped false).th with phase := .released } }
    MayIssue s 1 { a := some 1, b := some 2, more := [3] } [] ∧ s.th.phase = .released := ⟨may _ memRegs 1 _ _ rfl (by decide) rfl, rfl⟩
theorem witness_undisturbed : Undisturbed (mapped false) (mapped false).here :=
  ⟨rfl, rfl, by decide, by simp [Tidy, show (mapped false).portionOf (mapped false).here = [] from rfl], fun ls h => by
    have hl : ls = [] := by
      rcases h with h | ⟨n, h⟩
      · exact h
      · exact h
    subst hl; exact ⟨by simp [Tidy], by simp⟩⟩
/-- AtomicsReadAndWrite at a home in another package: page 0 lies in package 1, which plane 0 reaches. -/
theorem witness_far_atomic : let s := { mapped false with
      pkgNo := 0, domainSet := true, planes := 1, ports := [(0, { up := true })]
      utlb := [(0, [⟨0, .k64, 0, 2 * 2 ^ 44, true, true, false, true⟩])] }
    lands (locate s .store (s.th.readA 1) 4) = some ((List.range 4).map fun i => .mem (2 * 2 ^ 44 + 0x1000 + i)) ∧
    peerHome s .sys (.mem (2 * 2 ^ 44 + 0x1000)) = true ∧ peerHome s .core (.mem (2 * 2 ^ 44 + 0x1000)) = false ∧
    poisonAt s [.mem (2 * 2 ^ 44 + 0x1000)] = false := by decide

/-- BitAccess: a field inside the window, and one that leaves it. -/
theorem witness_bits : let s := mapped false
    lands (locateBits s .load (byteAddrs (s.th.readA 8) 1)) = some [.scratch 0x3FFF] ∧
    lands (locateBits s .load (byteAddrs (s.th.readA 8) 2)) = none ∧ lands (locateBits s .store (byteAddrs (s.th.readA 1) 1)) = none := by
  decide

/-- HintsComplete: a line of ordinary memory, and room for a prefetch. -/
theorem witness_hints : let s := mapped false
    (s.th.readA 1).toNat / 2 ^ 32 ≠ 0x7FFFFF ∧ lands (locateByte s .load (s.th.readA 1)) = some [.mem 0x1000] ∧
    (s.core s.here).prefs.length < 4 ∧ (s.mshrOf (dieOf s.here)).length < 64 ∧ s.ingress = [] ∧ (s.th.readA 4).toNat / 2 ^ 32 = 0x7FFFFF := by decide

/-- WaitsAndFences, PortionWriteBack and TlbInstructions: a thread at each phase, and the range checks. -/
theorem witness_phases (ph : Phase) : let s : State := { privileged [(3, 0x10000)] with th := { (privileged [(3, 0x10000)]).th with
      phase := ph } }
    MayIssue s 1 { a := some 2, b := some 3, more := [1] } [] ∧ s.th.phase = ph ∧ s.th.sends = 0 ∧ s.th.refused = none ∧
      s.th.loads = [] ∧ s.th.migReq = false ∧ s.th.devStore = false ∧ s.th.stat.mode = true ∧ hintsPending s s.here = false ∧
      s.mshrOf (dieOf s.here) = [] ∧ s.ingress = [] ∧ (s.th.readB 3).toNat ≠ 0 ∧ ¬(2 ^ 55 < (s.th.readA 2).toNat + (s.th.readB 3).toNat) :=
  ⟨may _ _ 1 _ _ rfl rfl rfl, rfl, rfl, rfl, rfl, rfl, rfl, rfl, rfl, rfl, rfl,
    by show ((privileged [(3, 0x10000)]).th.readB 3).toNat ≠ 0; decide,
    by show ¬(2 ^ 55 < ((privileged [(3, 0x10000)]).th.readA 2).toNat + ((privileged [(3, 0x10000)]).th.readB 3).toNat); decide⟩
theorem witness_tlb_ranges : let s := privileged [(1, 0x7FFFFFFFFFFFFF), (2, 2), (3, 1), (4, 0x80000000000000)]
    2 ^ 55 < (s.th.readA 1).toNat + (s.th.readB 2).toNat ∧ ¬(2 ^ 55 < (s.th.readA 1).toNat + (s.th.readB 3).toNat) ∧
    2 ^ 55 ≤ (s.th.readA 4).toNat ∧ (s.th.readA 1).toNat / 2 ^ 32 = 0x7FFFFF ∧ tlbFind s s.here 0 0x10000 = none ∧
    (tlbFind (mapped false) 0 0 0x1000).isSome = true := by decide
theorem witness_migration_point : ({ (box []).th with migReq := true } : Thread).migReq = true := rfl
theorem witness_sends_outstanding (x : Refused) : let t : Thread := { (box []).th with sends := 1, refused := some x }
    t.phase = .fresh ∧ t.sends ≠ 0 ∧ t.refused = some x ∧ ({ t with sends := 0 } : Thread).sends = 0 :=
  ⟨rfl, by show (1 : Nat) ≠ 0; decide, rfl, rfl⟩

/-- IssueChecks: each check alone. -/
theorem witness_issue_checks : (Instr.add 1 2 3 false false).isEvent = false ∧ (box []).th.phase ≠ .sent ∧
    ((box []).core (box []).here).vlatch = none ∧ featOf (encode (.vadd 0 0 0 0 .i32)) = 4 ∧ (0x3B : BitVec 6) &&& 4 ≠ 4 ∧
    (encode (.add 1 2 3 false false)).extractLsb' 26 6 = 1 ∧ (box []).th.stat.mode = false ∧
    ctlRead (box []) 0x001 ≠ none ∧ 0x001 ∉ ([0x000, 0x030, 0x032] : List (BitVec 12)) := by decide

/-! The vector instructions. -/

/-- VectorElementwiseResults, VectorSelectAndCompare, VectorLaneMoves, ReductionsAndScans and MaskInstructions: a box without a
prefix, for every type and every row's rule. -/
theorem witness_vector (l : Table Word) (ty : VType) (op : BitVec 3) (r : Srcs) (ds : List RegCode) :
    VClear (box l) none r ds ∧ VClear (box l) (ruleOf ty) r ds ∧ VClear (box l) (ruleRed ty op) r ds := by
  have hc := clear (box l) l 4 r ds rfl rfl
  refine ⟨⟨hc, rfl, rfl⟩, ⟨hc, rfl, ?_⟩, ⟨hc, rfl, ?_⟩⟩
  · cases ty <;> rfl
  · unfold ruleRed
    split
    · next h => split at h <;> cases h; rfl
    · rfl

/-- VectorConversion: a prefix with a destination of more, as many and fewer bits than the source, and none. -/
def prefixed (fd : BitVec 4) : State := { box [] with th := { (box []).th with pfx := encode (.pfx 1 0 fd 0 false), stat := { pp := true } } }
theorem witness_vector_conversion : (∀ fd ∈ ([1, 4, 2] : List (BitVec 4)), VClear (prefixed fd) (some ruleVcvt) {} []) ∧
    (prefixed 4).th.pfxFields.fd = 4 ∧ (fmtOr .fp32 4).slot < (fmtOr .fp32 1).slot ∧
    VClear (box []) (some ruleVcvt) {} [] ∧ (box []).th.stat.pp = false := by
  refine ⟨fun fd h => ⟨clear _ [] 4 _ _ rfl rfl, rfl, ?_⟩, by decide, by decide, ⟨clear _ [] 4 _ _ rfl rfl, rfl, by decide⟩, rfl⟩
  revert fd; decide

/-- VectorStores, VectorLoadsGoOut and VectorBitAccess: lanes in a scratchpad, in memory, on a device page, in a page to be
walked, and beyond the window. -/
def lanes (s : State) (k : Access) (n : Nat) (base : Word) : State × Looked :=
  lookLanes k n s ((List.range 2).map fun j => (j, base + BitVec.ofNat 64 (n * j)))
theorem witness_vector_memory (dev : Bool) (r : Srcs) : VClear (mapped dev) none r [] ∧ Inv (mapped dev) :=
  ⟨⟨clear _ memRegs 4 r [] rfl (by cases dev <;> decide), by cases dev <;> decide, rfl⟩, rfl, rfl⟩
theorem witness_vector_lanes : let s := mapped false
    (lanes s .store 4 0x7FFFFF00FE0000).2.lanes = [(0, 0x7FFFFF00FE0000, [.scratch 0, .scratch 1, .scratch 2, .scratch 3]),
      (1, 0x7FFFFF00FE0004, [.scratch 4, .scratch 5, .scratch 6, .scratch 7])] ∧
    (lanes s .load 4 0x1000).2.lanes.length = 2 ∧ (lanes s .store 4 0x20000).2.walks = [(0, 2), (0, 2)] ∧
    (lanes s .store 4 0x7FFFFF00FE3FFC).2.fault = some (1, .localRange, 0x7FFFFF00FE4000) ∧
    (lanes (mapped true) .store 4 0x1001).2.fault = some (0, .accessRights, 0x1001) ∧
    ((lanes s .store 4 0x7FFFFF00FE0000).2.lanes.flatMap fun x => x.2.2).Nodup := by decide
theorem witness_vector_bits : let s := mapped false
    lands (locateBits s .load (byteAddrs (s.th.value 4 + BitVec.ofNat 64 ((s.th.value 5).toNat % 8 / 8)) 1)) = some [.scratch 0] ∧
    poisonAt s [.scratch 0] = false ∧ lands (locateBits s .load (byteAddrs (s.th.value 8) 2)) = none := by decide

/-- The vector unit about to accept the latch of core 0, which holds an instruction of the thread at place 0. -/
def latched (dev : Bool) (op : VOp) : State := { mapped dev with
  cores := [(0, { lmsplit := 1, vlatch := some 0 })], th := { (mapped dev).th with wait := .vector, vop := some op } }
theorem witness_acceptance (dev : Bool) (op : VOp) : Accepts (latched dev op) 0 0 op ∧ Inv (latched dev op) :=
  ⟨⟨by cases dev <;> rfl, by decide, rfl, fun j h => by
      obtain rfl | rfl | rfl | rfl : j = 0 ∨ j = 1 ∨ j = 2 ∨ j = 3 := by omega
      all_goals rfl, rfl, rfl⟩, rfl, rfl⟩
/-- Two lanes whose places overlap in a scratchpad, and two of ordinary memory. -/
def spotsAt (l : Nat → Loc) : List VSpot := [⟨0, 0, 0, [l 0, l 1]⟩, ⟨3, 1, 0, [l 1, l 2]⟩]
theorem witness_overlapping_lanes : let data : List (List Byte) := [[1, 2], [3, 4]]
    let a := spotsAt (.scratch ·)
    data.length = a.length ∧ (∀ p ∈ a.zip data, p.1.locs.length = p.2.length) ∧ a[0]?.map (·.locs) = some [.scratch 0, .scratch 1] ∧
    (∀ x ∈ a, anyDev x.locs = false ∧ allScratch x.locs = true ∧ x.locs.Nodup) ∧
    (spotsAt fun n => .mem (0x1000 + n)).all (fun x => !anyDev x.locs) = true ∧ anyDev [.dev 0x1000] = true ∧
    waysOf (latched false ⟨.store data, a, []⟩) 0 ≠ 0 ∧ ((latched false ⟨.store data, a, []⟩).core 0).gpool = false := by decide
theorem witness_lane_fields : let a := spotsAt (.scratch ·)
    let p := { latched false ⟨.loadBits 1 false 16, a, []⟩ with scratchPoison := [0] }
    poisonAt p [.scratch 0, .scratch 1] = true ∧ (∀ x ∈ a, poisonAt (latched false ⟨.loadBits 1 false 16, a, []⟩) x.locs = false) ∧
    (∀ x ∈ a, x.bit + 16 ≤ 8 * x.locs.length) ∧ [7, 8].length = a.length := by decide

/-! Threads, sends, channels, engines and handles. -/

/-- ArmingAndCapabilities: a PENDING register and a READY one. -/
theorem witness_arming : ({ (box []).th.reg 3 with sb := .pending } : Reg).sb = .pending ∧ ((box []).th.reg 3).sb = .ready := by decide

/-- RegisterSends and ChannelSends: a capability without defect and one with each defect; the phases; a source in the window
and one that leaves it. -/
theorem witness_capabilities : capDefect 0x4000544A03400000 = 0 ∧ capDefect 0 = 1 ∧ capDefect 0x4000544A03000000 = 2 ∧
    capDefect 0x4000547803400000 = 3 ∧ capDefect 0x8000544803400000 = 0 ∧ capSize 0x8000544803400000 = 8 := by decide
theorem witness_channel_sources : let s := mapped false
    (s.core s.here).lmsplit.toNat * 16384 = 16384 ∧ windowKey s (s.th.readA 8).toNat = some 0x3FFF ∧ 0x3FFF + 1 ≤ 16384 ∧
    windowKey s (s.th.readA 1).toNat = none ∧ s.th.sendBuf.length < 8 ∧ s.th.phase ≠ .sent := by decide
theorem witness_sent (more : Nat) : let s : State := { box [] with th := { (box []).th with phase := .sent, sends := more } }
    MayIssue s 1 {} [] ∧ s.th.phase = .sent ∧ s.th.sends = more := ⟨may _ [] 1 _ _ rfl rfl rfl, rfl, rfl⟩

/-- ChannelReceives: an empty ring, and one that holds a message. -/
theorem witness_ring (w : BitVec 16) : let s : State := { box [] with th := { (box []).th with inbox := { en := true }, wpos := w } }
    MayIssue s 1 {} [3] ∧ s.th.inbox.en = true ∧ s.th.heldMsg.getD s.th.rpos.toNat = 0 ∧ (0 : Nat) < 2 ^ 16 :=
  ⟨may _ [] 1 _ _ rfl rfl rfl, rfl, rfl, by decide⟩

/-- BarrierTriggerExit: a party of two with and without the other thread arrived, and a party of one. -/
def partied (q : Party) (ph : Phase) : State := { box [] with parties := [(0, q)], th := { (box []).th with phase := ph } }
theorem witness_barriers (q : Party) (ph : Phase) : MayIssue (partied q ph) 1 {} [] ∧ (partied q ph).th.phase = ph ∧
    (partied q ph).th.stat.mode = false ∧ (tfind (partied q ph).parties (partied q ph).th.pid).isSome = true ∧
    (partied q ph).th.sends = 0 ∧ (partied q ph).th.refused = none ∧ (partied q ph).th.loads = [] ∧
    hintsPending (partied q ph) (partied q ph).here = false :=
  ⟨may _ [] 1 _ _ rfl rfl rfl, rfl, rfl, rfl, rfl, rfl, rfl, rfl⟩
theorem witness_last_arrival : let p : Party := { nthr := 2, arrived := [1] }
    ((List.range p.nthr).all fun k => k == 0 || p.arrived.contains k || p.gone.contains k) = true ∧
    ((List.range 2).filter fun k => k != 0 && !p.gone.contains k) = [1] ∧
    ((List.range 1).filter fun k => k != 0 && !p.gone.contains k) = [] ∧
    (p.cores.any (commandsOpen (partied p .released) 0)) = false := by decide

/-- ServeCalls: a selector bound to server 0 of an image, and one that is not. -/
def served : State := { box [] with
  images := [(1, { used := true, gen := 1, regions := [(List.replicate 24 (0 : Word)).set 1 0x1000 ++ [0x00005000]] })]
  th := { (box []).th with srvtab := (Vector.replicate 16 {}).set 3 { v := true, img := 0x1001, sidx := 0 } } }
theorem witness_serve_calls : MayIssue served 8 { a := some 4, b := some 5 } [] ∧ (∀ c ∈ ([20, 21] : List RegCode), Writable served.th c) ∧
    serverOf served 0x1001 0 = some (0, 5) ∧ served.th.srvtab[3].v = true ∧ served.th.srvtab[0].v = false ∧ served.th.loads = [] ∧
    hintsPending served served.here = false ∧ (regionFor (served.cluster 0) 0x1001 0 0).isSome = false :=
  ⟨may _ [] 8 _ _ rfl rfl rfl, (clear served [] 1 {} [20, 21] rfl rfl).2.2, by decide, by decide, by decide, rfl, rfl, by decide⟩

/-- EngineCommands: legal registers of a gather command and of a fabric one, a context that is full, and registers that are not
legal; the window ranges inside and outside. -/
def oldCmd : Cmd :=
  { num := 1, code := 1, scope := 0, regs := [], sup := false, place := 0, pid := 0, ctxid := 0, surv := 0, fidmax := 0, order := 0 }
def engines (eng : Nat) (regs : Table Word) (n : Nat) : State :=
  let x : EngCtx := { regs := regs, queue := List.replicate n oldCmd }
  { mapped false with cores := [(0, { lmsplit := 1, ctxs := [(eng * 4, x)] })] }
theorem witness_engine_commands : firstBreach (engines 2 [(0, 0x7FFFFF00FE0000), (1, 0x10018)] 0) [(0x7FFFFF00FE0000, 16)] = none ∧
    (firstBreach (engines 2 [] 0) [(0x7FFFFF00FE3FFF, 4)]).isSome = true ∧
    (((engines 2 [] 16).ctx 0 2 0).queue.filter (!·.done)).length = 16 ∧ (((engines 2 [] 15).ctx 0 2 0).queue.filter (!·.done)).length = 15 ∧
    commandBreaks 2 1 [(0, 0x7FFFFF00FE0000), (1, 0x10018)] = [] ∧ commandBreaks 2 1 [] ≠ [] ∧
    commandBreaks 3 1 [(0, 0x1010000)] = [] ∧ commandBreaks 1 1 [(1, 0x4018)] = [] := by decide
theorem witness_may_command (eng n : Nat) (regs : Table Word) (feat : BitVec 6) (r : Srcs) (ds : List RegCode) :
    MayIssue (engines eng regs n) feat r ds :=
  may _ memRegs feat r ds rfl (by simp [engines, mapped, box, State.core, State.here, coreOf, tget, tfind]) rfl

/-- CopyCommands: a copy of one byte, of 2^32 and of none, without handles; a live handle, a stale one, a follow-on. -/
theorem witness_copies : copyBreaks 1 [(2, 1)] false 0 = [] ∧ copyBreaks 1 [(2, 0x100000000)] false 0 = [] ∧
    copyBreaks 1 [] false 0 ≠ [] ∧ copyBreaks 1 [(2, 0x100000001)] false 0 ≠ [] ∧
    handleBreaks (engines 0 [(2, 1)] 0) 1 [(2, 1)] 0 0 = [] ∧
    firstBreach (engines 0 [(2, 1)] 0) (copyRanges (engines 0 [(2, 1)] 0) 1 [(2, 1)] 0 0) = none ∧
    ((engines 0 [] 0).handle 0 1).gen = 2049 % 2 ^ 11 ∧ ((engines 0 [] 0).handle 0 1).gen ≠ 2050 % 2 ^ 11 ∧
    2 ^ 63 ≤ (0x9000000000000000 : Word).toNat := by decide

/-- EngineRegistersAndTimelines: a counter passed and one not yet. -/
theorem witness_timelines : ((engines 1 [] 1).ctx 0 1 0).count < 1 ∧ ((engines 1 [] 1).ctx 0 1 0).queue ≠ [] ∧
    ((engines 1 [] 0).ctx 0 1 0).queue = [] := by decide

/-- HandleInstructions: every state of a live handle, the sizes at their bound. -/
def handled (st : HState) : State := { mapped false with cores := [(0, { lmsplit := 1, handles := [(1, { st := st, gen := 2047, size := 1 })] })] }
theorem witness_handles (st : HState) (r : Srcs) (ds : List RegCode) : MayIssue (handled st) 1 r ds ∧ ((handled st).handle 0 1).st = st ∧
    ((handled st).handle 0 1).gen = 4095 % 2 ^ 11 ∧ ¬(16384 < 0x3FFF + 1) :=
  ⟨may _ memRegs 1 r ds rfl (by cases st <;> decide) rfl, rfl, rfl, by decide⟩

/-! Events: ThreadEvents and MemoryEvents. -/

def someLoad (bytes : List (Nat × Option Byte)) : Load := { id := 1, dst := 3, sext := true, va := 0x1000, pc := 8, bytes := bytes }
/-- A thread that waits for something, with a load, a late value and a vector load outstanding. -/
def waiting (w : Wait) : State := { mapped false with
  clock := 10
  th := { (mapped false).th with
    wait := w, loads := [someLoad [(0, some 0x80)]], late := [⟨.cxr, 3, 5⟩]
    vload := some { vd := 1, sext := false, width := 4, lanes := [] } } }

theorem witness_thread_events : let s := waiting .none
    (s.threadAt 0).loads[0]? = some (someLoad [(0, some 0x80)]) ∧ (∀ b ∈ (someLoad [(0, some 0x80)]).bytes, b.2.isSome = true) ∧
    ((s.threadAt 0).late.find? fun x => x.kind == .cxr && x.dst == 3) = some ⟨.cxr, 3, 5⟩ ∧
    ((waiting .releaseAck).threadAt 0).wait = .releaseAck ∧ storesWaiting s 0 = false ∧ ((waiting (.tlbinv 0 1)).threadAt 0).wait = .tlbinv 0 1 ∧
    s.walks = [] ∧ (∀ y ∈ s.threads, accessBefore 0 1 y = false) ∧ accessBefore 0 2 s.th = true ∧ ((waiting (.sleep 10)).threadAt 0).wait = .sleep 10 ∧ s.clock = 10 ∧
    ((waiting (.acquire .pkg true)).threadAt 0).wait = .acquire .pkg true ∧ ((waiting (.consume 3 .die)).threadAt 0).wait = .consume 3 .die ∧
    ((waiting .vector).threadAt 0).place = 0 ∧ ((waiting .vector).core 0).vlatch ≠ some 0 ∧ (box []).th.vload = none ∧
    (0x8800000000#64).toNat / 2 ^ 32 % 16 = 8 ∧ (0x8900000000#64).toNat / 2 ^ 32 % 16 = 9 := by decide

/-- ThreadEvents: a vector load with its lanes, none poisoned, one poisoned, and VGATHER.P's. -/
def arrived (bad : Bool) (mask : Option (BitVec 2 × W32)) : State := { waiting .vector with
  th := { (waiting .vector).th with vload := some { vd := 1, sext := false, width := 2, mask := mask
                                                    lanes := [⟨0, 0, [(0, some 1), (0, some 2)], false, false⟩, ⟨5, 4, [(0, some 3), (0, some 4)], false, bad⟩] } } }
theorem witness_vector_completion (bad : Bool) (m : Option (BitVec 2 × W32)) : ((arrived bad m).threadAt 0).place = 0 ∧
    ((arrived bad m).threadAt 0).wait = .vector ∧ ((arrived bad m).core 0).vlatch ≠ some 0 ∧
    ((arrived bad m).threadAt 0).vload.map (fun v => (v.reqs, v.mask, (v.lanes.find? (·.poisoned)).map (·.lane))) =
      some ([], m, if bad then some 5 else none) :=
  ⟨rfl, rfl, by show (none : Option Nat) ≠ some 0; decide, by cases bad <;> rfl⟩

/-- Line 0x40 of die 0 is missing with a load waiting, a walk of page 2 is under way, a fetch, a prefetch and a vector response
have their line. -/
def missing : State := { waiting (.walk 0 2) with
  mshrs := [(0, [⟨0x40, [.load 0 1]⟩])], walks := [(0, [⟨0, 2, [.thread 0], false⟩])]
  cores := [(0, { prefs := [(0x41, true)], vlatch := some 0 })]
  th := { (waiting (.walk 0 2)).th with
    loads := [someLoad [(0x1000, none)]]
    vload := some { vd := 1, sext := false, width := 4, lanes := [], reqs := [{ id := 4, line := 0x40, got := some { line := 0x40, bytes := [(0, 7)], stamp := 3 } }, { id := 5, line := 0, dev := some 0, sent := true }] } } }

theorem witness_memory_events : (missing.mshrOf 0).find? (fun x => x.line == 0x40) = some ⟨0x40, [.load 0 1]⟩ ∧
    reachable missing 0x1000 = true ∧ findLine (missing.l2Lines 0) 0x40 0 = none ∧ (missing.threadAt 0).loads = [someLoad [(0x1000, none)]] ∧
    missing.ingressOf 0 (l2Slice 0x40) = [] ∧ (missing.l2Lines 0).length < 16 ∧ (tget [] missing.llc (llcBank 0x40)).length < 16 ∧ missing.walkQueue = [] ∧
    (tget [] missing.walks 0)[0]? = some ⟨0, 2, [.thread 0], false⟩ ∧ (missing.threadAt 0).wait = .walk 0 2 ∧
    (waiting (.fetch 0)).th.wait = .fetch 0 ∧ (waiting (.fetch 0)).mshrOf 0 = [] ∧ (missing.core 0).prefs[0]? = some (0x41, true) ∧
    ((missing.threadAt 0).vload.bind fun v => v.reqs[0]?).any (fun r => r.dev.isNone && r.got.isSome) = true ∧
    ((missing.threadAt 0).vload.bind fun v => v.reqs[1]?).any (fun r => r.dev.isSome && r.sent) = true ∧ tileStopped missing 0 = false ∧
    (missing.core 0).vlatch ≠ none ∧ (∀ j < 4, j ≠ 0 → (missing.core j).vlatch = none) := by decide

/-- Each kind of waiter of a missing line; a prefetched line present in L2 and absent from the portion; an empty latch's
thread. -/
theorem witness_waiters (w : Waiter) : (({ missing with mshrs := [(0, [⟨0x40, [w]⟩])] } : State).mshrOf 0).find?
      (fun x => x.line == 0x40) = some ⟨0x40, [w]⟩ ∧ tsorted [(0, (7 : Byte)), (63, 8)] = true ∧ (missing.threadAt 0).vload.isSome = true :=
  ⟨rfl, by decide, rfl⟩
theorem witness_prefetched : let l : Line := { no := 0x41, bytes := [(0, (7, true)), (1, (8, false))] }
    let s := { missing with l2 := [(0, [l])], cores := [(0, { prefs := [(0x41, true)] })] }
    (s.core 0).prefs[0]? = some (0x41, true) ∧ findLine (s.l2Lines 0) 0x41 0 = some l ∧ tsorted l.bytes = true ∧
    s.l2Open 0 0x41 = true ∧ reachable s (0x41 * 64) = true ∧ waysOf s 0 ≠ 0 ∧ (s.core 0).gpool = false ∧
    findLine (s.portionOf 0) 0x41 0 = none ∧ poolDirty s 0x41 0 = [] ∧ (s.threadAt 0).vop = none ∧ s.l2Floor (s.threadAt 0) ≤ s.clock := by decide

/-- A machine with an event's operands. -/
def on (s : State) (a : EvArgs) : State := { s with ev := a }

/-! FabricEvents. Element 0 adds its constant to Q0 and sends the sum to Q0 of element 1. -/

def addElem (q0 : List Token) : Elem :=
  { conf := [0x0400068002000000, 7, 0, 0x8002, 0, 0, 0, 0], queues := [q0, [], [], []] }
def sinkElem : Elem := { conf := [0x0000000002000001, 0, 0, 0, 0, 0, 0, 0] }
def portElem (op : Nat) : Elem := { conf := [BitVec.ofNat 64 (op * 2 ^ 58), 0, 0, 0, 0, 0, 0, 0], flight := [{ psn := true }] }
def region (elems : Table Elem) (stage : RStage) : Region :=
  { img := 0x1001, ridx := 0, surv := 0, stage := stage, elems := elems, words := (List.replicate 24 (0 : Word)).set 9 0x80000000 }
def fabric (c : Cluster) (a : EvArgs) : State := { box [] with
  ev := a, clusters := [(0, c)]
  images := [(1, { used := true, gen := 1, regions := [List.replicate 24 0] })] }

theorem witness_fabric_requests : let q : RegionReq := { img := 0x1001, ridx := 0, surv := 0 }
    let c : Cluster := { reqs := [q], cfg := [⟨0x1001, 0, List.replicate 24 0, 0⟩] }
    let s := fabric c {}
    (s.cluster 0).reqs = [q] ∧ regionFor c 0x1001 0 0 = none ∧ (s.imageOf 0x1001).isSome = true ∧
    c.cached 0x1001 0 = some ⟨0x1001, 0, List.replicate 24 0, 0⟩ ∧ c.regions = [] ∧ findBase c (recWidth (List.replicate 24 0)) = some (0, 0) ∧
    (regionFor { c with regions := [(0, region [] .resident)] } 0x1001 0 0).isSome = true ∧
    ({ reqs := [q] } : Cluster).cached 0x1001 0 = none ∧ ((s.imageOf 0x1001).map fun im => im.record s 0) = some (some (List.replicate 24 0)) := by
  decide
theorem witness_fabric_firing : let e := addElem [{ data := 5 }]
    let r := region [(0, e), (1, sinkElem)] .resident
    let s := fabric { regions := [(0, r)] } {}
    s.region 0 0 = some r ∧ r.stage = .resident ∧ e.op = 0x01 ∧ e.satBit = false ∧ e.fxt = false ∧ e.sa = 1 ∧ e.sb = 5 ∧ e.sc = 0 ∧
    e.resync = none ∧ e.dest 0 = some (1, 0) ∧ e.dest 1 = none ∧ e.dest 2 = none ∧ e.dest 3 = none ∧ sinkElem.dests = [] ∧
    sinkElem.qdepth 0 ≠ 0 ∧ sinkElem.queues.getD 0 [] = [] ∧ e.queues.getD 0 [] = [{ data := 5 }] ∧ e.c0 = 7 ∧
    fabCommands s 0 (fun _ => true) = [] := by decide
/-- An element that feeds the sink at position 1: its operand sources, words 4 and 5, and queues. -/
def feeder (op sa sb sc : Nat) (w4 w5 : Word) (queues : List (List Token)) : Elem :=
  { conf := [BitVec.ofNat 64 (op * 2 ^ 58 + sa * 2 ^ 42 + sb * 2 ^ 39 + sc * 2 ^ 36 + 0x492 * 2 ^ 24), 7, 0, 0x8002, w4, w5, 0, 0], queues }
def fed (e : Elem) : Region := region [(0, e), (1, sinkElem)] .resident
theorem witness_feeds (op sa sb sc : Nat) (w4 w5 : Word) (queues : List (List Token)) (words : List Word) (a : EvArgs) :
    let e := feeder op sa sb sc w4 w5 queues
    let r := { fed e with words := words }
    Feeds r 0 e 1 sinkElem ∧ (fabric { regions := [(0, r)] } a).region 0 0 = some r := by
  have same : ∀ n, (feeder op sa sb sc w4 w5 queues).dest n = (feeder 0 0 0 0 0 0 []).dest n := fun n => by
    simp only [feeder, Elem.dest, Elem.word, List.getD_cons_succ, List.getD_cons_zero]
  refine ⟨⟨rfl, by decide, rfl, rfl, (same 0).trans (by decide), fun n h m => (same n).trans ?_, ?_⟩, rfl⟩
  · obtain rfl | rfl | rfl : n = 1 ∨ n = 2 ∨ n = 3 := by omega
    all_goals decide
  · exact ⟨by decide, by decide, rfl, rfl, by simp [fed, region]⟩
/-- Every operation of the fabric table, on three queues; the accumulating and forwarding rows; a gate; a switch that takes
each way; a nest at its beginning and on its way. -/
theorem witness_fabric_operations : let t : Token := { data := 5, mark := 1, tag := 65 }
    (∀ op ∈ [0x01, 0x02, 0x03, 0x04, 0x05, 0x06, 0x07, 0x08, 0x09, 0x0A, 0x0B, 0x0C, 0x0D, 0x0E, 0x0F, 0x10, 0x11, 0x12, 0x18, 0x19,
      0x1A, 0x1B, 0x1C, 0x1D, 0x1E], let e := feeder op 1 2 3 0 0 [[t], [t], [t], []]
      e.op = op ∧ e.reads = [0, 1, 2] ∧ e.queues.getD 0 [] = [t] ∧ e.queues.getD 1 [] = [t] ∧ e.queues.getD 2 [] = [t]) ∧
    (∀ op ∈ [0x20, 0x21, 0x38, 0x26, 0x39, 0x3A, 0x25, 0x27, 0x28], let e := feeder op 1 0 0 0x10001 0 [[t], [], [], []]
      e.op = op ∧ e.sa = 1 ∧ e.queues.getD 0 [] = [t] ∧ e.poisoned = false) ∧
    (∀ op ∈ [0x24, 0x22], let e := feeder op 1 2 0 0 0 [[t], [t], [], []]
      e.op = op ∧ e.sa = 1 ∧ e.sb = 2 ∧ e.queues.getD 0 [] = [t] ∧ e.queues.getD 1 [] = [t]) ∧
    ∀ j ∈ ([1, 2, 3] : List Nat), let e := feeder 0x23 2 3 1 0 0 [[{ data := BitVec.ofNat 32 j }], [t], [t], []]
      e.op = 0x23 ∧ e.sc = 1 ∧ e.sa = 2 ∧ e.sb = 3 ∧ ((e.queues.getD 0 []).headD {}).data.toNat % 4 = j ∧
      (j < 3 → e.queues.getD j [] = [t]) := by decide
/-- The level of a nest: three steps of 8, marker 1. -/
def nested (idx : Option (List Nat)) : Elem := { feeder 0x29 1 0 0 0x0001000300000008 0 [[{ data := 5 }], [], [], []] with nest := idx }
theorem witness_fabric_nest : (nested none).op = 0x29 ∧ (nested none).sa = 1 ∧ (nested none).queues.getD 0 [] = [{ data := 5 }] ∧
    ((List.range 4).map fun l => (nested none).word (4 + l)).filterMap (fun w =>
      if w / 2 ^ 32 % 2 ^ 16 = 0 then none else some (sint 32 w, w / 2 ^ 32 % 2 ^ 16, w / 2 ^ 48 % 4)) = [(8, 3, 1)] ∧
    (nested (some [2])).nest = some [2] ∧ (nested (some [2])).nestTok = {} := by decide
/-- An EXT with two halves, whose call is in flight. -/
def extElem : Elem := { conf := [BitVec.ofNat 64 (0x2D * 2 ^ 58), 0, 0, 0, 0x8380, 0, 0, 0]
                        queues := [[{ data := 5, tag := 65 }], [{ data := 6, tag := 65 }], [], []] }
theorem witness_fabric_result : let r := { region [(0, extElem)] .resident with tags := [(65, {})] }
    r.stage = .resident ∧ r.elems = [(0, extElem)] ∧ extElem.op = 0x2D ∧ extElem.resync = none ∧ extElem.dests = [] ∧
    extElem.extQueues = [(0, 0), (1, 3)] ∧ r.tags = [(65, {})] ∧ extElem.queues.getD 0 [] = [{ data := 5, tag := 65 }] ∧
    extElem.queues.getD 1 [] = [{ data := 6, tag := 65 }] := by decide
/-- A port of a graph region, over core 0's scratchpad, page 0 and page 2, which is not mapped. -/
def ported (op : Nat) (w4 w5 : Word) (a : Nat) (ev : EvArgs) : State :=
  let e := { feeder op 1 2 0 w4 w5 [[{ data := BitVec.ofNat 32 a }], [{ data := 0x01020304 }], [], []] with
    flight := if op = 0x2A then [{ data := BitVec.ofNat 32 a }] else [] }
  { fabric { regions := [(0, { fed e with words := (fed e).words.set 0 1 })] } ev with
    cores := [(0, { lmsplit := 1 })], parties := [(0, { cores := [0] })]
    dtlb := [(0, [⟨0, .k64, 0, 0, true, true, false, true⟩])], walkFails := [(0, [⟨0, 2⟩])] }
/-- The places of a port's access. -/
def portSees (store : Bool) (w4 : Word) (n a : Nat) : List UnitLoc :=
  let s := ported 0x2A w4 0 a {}
  (portAgent s 0 (fed sinkElem |> fun r => { r with words := r.words.set 0 1 }) 0).portPlaces s (if store then .store else .load) (w4.toNat + a) n
theorem witness_fabric_accesses : portSees false 0x7FFFFF00000000 4 8 = [.scratch 8, .scratch 9, .scratch 10, .scratch 11] ∧
    portSees true 0x7FFFFF00000000 4 8 = [.scratch 8, .scratch 9, .scratch 10, .scratch 11] ∧ portSees true 0 2 0x40 = [.mem 0x40, .mem 0x41] ∧
    portSees false 0x7FFFFF00020000 1 0 = [.range] ∧ portSees false 0x20000 1 0 = [.page] ∧
    (let s := ported 0x2A 0x20000 0 0 {}
     let g := portAgent s 0 (fed sinkElem |> fun r => { r with words := r.words.set 0 1 }) 0
     g.awaits s (spanVas 0x20000 1) = none ∧ g.awaits s (spanVas 0x40 2) = none ∧ s.mshrOf (dieOf g.core) = [] ∧ s.ingress = [] ∧
       s.l2Lines (dieOf g.core) = []) := by decide
theorem witness_fabric_port_elements (w5 : Word) : (∀ op ∈ [0x2A, 0x2B], let e := feeder op 1 2 0 0 0 [[{}], [{}], [], []]
    e.op = op ∧ e.sa = 1 ∧ e.sb = 2) ∧ (feeder 0 1 2 0 0 w5 []).word 5 = w5.toNat := ⟨by decide, rfl⟩
theorem witness_port_memories : Inv (ported 0x2B 0 0 0 {}) := ⟨by decide, by decide⟩
theorem witness_fabric_ports : (portElem 0x2A).op = 0x2A ∧ (portElem 0x2B).op = 0x2B ∧ (portElem 0x2A).dests = [] ∧
    (portElem 0x2A).flight = [{ psn := true }] := by decide
theorem witness_fabric_injection : let r := { region [(0, addElem [])] .resident with offers := [⟨5, [{}], 0, none, none⟩] }
    let c : Cluster := { regions := [(0, r)] }
    c.packets = [] ∧ (∀ g < 4, (groupOfMeter (c.meter r) g).1 = false) ∧ r.injectAt 5 = some 0 ∧ r.count 0 0 < r.depth 0 0 ∧
    r.shut = false := by decide
/-- Port 5 enters an element at position 0; its group 0 is metered with depth 4, refill 2 and cost 3, with and without the
balance. -/
def meteredRegion (bal : Nat) : Region :=
  { region [(0, addElem [])] .resident with offers := [⟨5, [{}, { mark := 2 }], 0, none, none⟩], bal := [bal, 0, 0, 0] }
def aMeter : Meter := { groups := [(true, 4, 2), (false, 0, 0), (false, 0, 0), (false, 0, 0)], costs := [(5, 3)] }
theorem witness_fabric_metering : ∀ bal ∈ ([0, 3, 4] : List Nat), let r := meteredRegion bal
    let c : Cluster := { regions := [(0, r)], meters := [(meterKey 0x1001 0, aMeter)] }
    (fabric c {}).region 0 0 = some r ∧ r.stage = .resident ∧ r.shut = false ∧ r.offers = [⟨5, [{}, { mark := 2 }], 0, none, none⟩] ∧
    c.packets = [] ∧ groupOfMeter (c.meter r) (recGroup r.words 5) = (true, 4, 2) ∧ r.injectAt 5 = some 0 ∧ r.count 0 0 < r.depth 0 0 ∧
    tget 0 (c.meter r).costs 5 = 3 ∧ r.bal = [bal, 0, 0, 0] ∧ r.balAt = 0 := by decide
/-- A handler region, number 1 of the same image, with room at fault port 5. -/
theorem witness_fabric_handled : let words := ((List.replicate 24 (0 : Word)).set 0 0x4000).set 9 0x80000000
    let r := { region [] .resident with edge := [{ data := 9 }], words := ((List.replicate 24 (0 : Word)).set 0 0x504000) }
    let y := { region [(0, addElem [])] .resident with ridx := 1, words := words }
    let c : Cluster := { regions := [(0, r), (1, y)] }
    r.edge = [{ data := 9 }] ∧ r.caiHeld = [] ∧ recTarget r.words = 1 ∧ recFport r.words = 5 ∧
    regionFor c r.img (recTarget r.words) r.surv = some 1 ∧ (fabric c {}).region 0 1 = some y ∧ y.stage = .resident ∧
    y.injectAt (recFport r.words) = some 0 ∧ y.count 0 0 < y.depth 0 0 := by decide
theorem witness_fabric_edges : let r := { region [] .resident with edge := [{ data := 9 }] }
    r.edge = [{ data := 9 }] ∧ recTarget r.words ≠ 0x3F ∧ recTarget (r.words.set 0 0xFC000) = 0x3F ∧
    r.caiHeld = [] ∧ regionFor { regions := [(0, r)] } 0x1001 1 0 = none ∧ recTarget (r.words.set 0 0x4000) = 1 := by decide
set_option maxRecDepth 20000 in
/-- A region whose handler has been absent for 100 µs while four regions with calls in flight fill the fabric. -/
theorem witness_fabric_handler : let r := { region [] .resident with
      edge := [{ data := 9 }], absentSince := some 0, tags := [(65, {})], words := (List.replicate 24 (0 : Word)).set 0 0x4000 }
    let s : State := { fabric { regions := (List.range 4).map fun n => (n, { r with base := 8 * n }) } {} with clock := 130000 }
    s.region 0 0 = some { r with base := 0 } ∧ s.clock = 130000 ∧ recTarget r.words = 1 ∧
    regionFor (s.cluster 0) r.img 1 r.surv = none ∧ handlerBlocked s 0 r = true :=
  ⟨by decide, rfl, by decide, by decide, by decide⟩
theorem cycleOf_ge (n : Nat) : n ≤ Config.cycleOf n := by
  induction n with
  | zero => exact Nat.zero_le _
  | succ n ih => simp only [Config.cycleOf]; omega
/-- The bound of 100 µs is met at that clock value. -/
theorem witness_hundred_microseconds : 130000 ≤ Config.cycleOf 130000 - Config.cycleOf 0 := by
  have h := cycleOf_ge 130000
  rwa [show Config.cycleOf 0 = 0 from rfl, Nat.sub_zero]
theorem witness_fabric_stop : let r := { region [] .resident with asked := true }
    let f := { r with frozen := true }
    r.asked = true ∧ r.atBoundary = true ∧ r.offers = [] ∧ f.quiet = true ∧ f.orphan (fabric {} {}) = false := by decide
theorem witness_fabric_serving : let e := portElem 0x2C
    let r := region [(3, e)] .resident
    let pk : EdgePacket := { img := 0x1001, ridx := 0, surv := 0, ent := 3, pkt := { tag := 65, args := [1], nr := 1, caller := { place := 1 } } }
    let t : Thread := { wait := .srv, srvCall := some ⟨65, 0, 20, 1, [0], 0, 0⟩, place := 1 }
    let s := { fabric { regions := [(0, r)], packets := [pk], backs := [⟨65, 0, [6], none⟩] } {} with others := [(1, t)] }
    Feeds { fed (feeder 0x2C 0 0 0 0x200 0 [[], [], [], []]) with words := List.replicate 24 0 } 0 (feeder 0x2C 0 0 0 0x200 0 [[], [], [], []]) 1 sinkElem ∧
    ({ fed (feeder 0x2C 0 0 0 0x200 0 [[], [], [], []]) with words := List.replicate 24 0 } : Region).portOf 0 = none ∧ (feeder 0x2C 0 0 0 0x200 0 [[], [], [], []]).op = 0x2C ∧
    r.serves pk.img pk.ridx pk.surv = true ∧ r.portOf pk.ent = none ∧ e.op = 0x2C ∧ e.dests = [] ∧
    pk.pkt.args.length = nbits (e.word 4) 0 2 + 1 ∧ pk.pkt.nr = nbits (e.word 4) 2 2 + 1 ∧
    (s.cluster 0).backs[0]? = some ⟨65, 0, [6], none⟩ ∧ (s.threadAt 1).srvCall = some ⟨65, 0, 20, 1, [0], 0, 0⟩ ∧ (s.threadAt 1).wait = .srv ∧
    (∀ x ∈ (s.cluster 0).regions, x.2.accessDue 65 = false) :=
  ⟨(witness_feeds 0x2C 0 0 0 0x200 0 [[], [], [], []] (List.replicate 24 0) {}).1, by decide⟩

/-! MessagesAndEngineWork. Thread number 0, generation 3, is the focus thread; the survey's key is empty. -/

def addressed (r : Reg) (en : Bool) (m : List Msg) : State := { box [] with
  flight := m, gaz := [(0, { st := .valid, gen := 3 })]
  cores := [(0, { lmsplit := 1 })]
  th := { (box []).th.setReg 10 r with inbox := { en := en, base := 0x1000 } } }
theorem witness_sends : let c : Word := 0x4000000A03400000
    let s := addressed { sb := .armed } true [.send c 5 7 none 0]
    s.flight = [.send c 5 7 none 0] ∧ s.hold = [] ∧ capPkg c = s.pkgNo.toNat ∧ capReg c = 10 ∧ (s.gazOf (capThr c)).st = .valid ∧
    capCheck (s.keyOf s.th.party.surv.toNat) c = c.setWidth 16 ∧ capCheck (s.keyOf 0) (c + 1) ≠ (c + 1).setWidth 16 ∧
    (s.gazOf (capThr c)).gen = capGen c ∧ (s.th.reg 10).sb = .armed ∧ capRights c = 1 ∧ (box []).gazOf 0 = {} ∧
    ((addressed { sb := .arrived } true []).th.reg 10).sb = .arrived := by decide
theorem witness_messages : let c : Word := 0x8000000003400000
    let s := addressed {} true [.chan c 0 [1, 2, 3] 9 0]
    let none_ := addressed {} false [.chan c 0 [1, 2, 3] 9 0]
    s.flight = [.chan c 0 [1, 2, 3] 9 0] ∧ (0 : BitVec 24).toNat / 65536 = s.pkgNo.toNat ∧ (s.gazOf 0).st = .valid ∧
    none_.flight = [.chan c 0 [1, 2, 3] 9 0] ∧ none_.th.inbox.en = false ∧ (none_.gazOf (capThr c)).gen = capGen c ∧ none_.hold = [] ∧ capPkg c = s.pkgNo.toNat ∧ capCheck (s.keyOf s.th.party.surv.toNat) c = c.setWidth 16 ∧
    (s.gazOf (capThr c)).gen = capGen c ∧ s.th.inbox.en = true ∧ s.th.wpos = 0 ∧ s.th.rpos = 0 ∧
    8 + 8 * ((3 + 7) / 8) ≤ 256 * 2 ^ s.th.inbox.size.toNat - 8 ∧ Memory.wf s.scratch = true := by decide
theorem witness_acknowledgements : (addressed {} true [.ack 0 none 0 1 false]).flight[0]? = some (.ack 0 none 0 1 false) ∧
    (0 : BitVec 24).toNat / 2 ^ 16 = (addressed {} true []).pkgNo.toNat ∧ ((addressed {} true []).gazOf 0).st = .valid := by decide
theorem witness_transmission : let m : OutMsg := { id := 4, cap := 0x8000000003400000, off := 0, len := 8 }
    let t : Thread := { (box []).th with sendBuf := [m] }
    t.halt = false ∧ t.sendBuf = [m] ∧ m.sent = false ∧ m.tried = false := by decide

/-- One command on a context: not started, landed, ended. -/
def command (k : Nat) (c : Cmd) (cl : Cluster) (a : EvArgs) : State := { box [] with
  ev := { a with k := k, m := 1 }, clusters := [(0, cl)], mem := [(1, 9), (2, 8)]
  cores := [(0, { lmsplit := 1, ctxs := [(k, { nextn := 2, queue := [c] })] })] }
theorem witness_command_start : let s := command 4 { num := 1, code := 4 } { claim := some ⟨0, 0, 0⟩ } {}
    (s.ctx 0 1 0).queue = [{ num := 1, code := 4 }] ∧ tfind s.stops 0 = none ∧ (s.cluster 0).claim = some ⟨0, 0, 0⟩ ∧
    (s.ctx 0 2 0).queue = [] ∧ (s.cluster 0).ecnt.length = 8 ∧
    ((command 4 { num := 1, code := 4 } {} {}).cluster 0).claim = none ∧ fabNames (command 12 { num := 1, code := 1 } {} {}) { num := 1, code := 1 } = false ∧
    ((command 0 { num := 1, code := 1 } {} {}).ctx 0 0 0).queue = [{ num := 1, code := 1 }] := by decide
/-- A command of a context whose client holds the array, of party 0 on cores 0 and 1, with bytes in core 0's scratchpad. -/
def working (k : Nat) (c : Cmd) (cl : Cluster) (cells : List Host.Cell) : State := { command k c { cl with claim := some ⟨0, k % 4, 0⟩ } {} with
  parties := [(0, { nthr := 1, cores := [0, 1] })], scratch := cells, surveys := [(0, { img := 0x1001 })]
  images := [(1, { used := true, gen := 1, regions := [List.replicate 24 0] })]
  cores := [(0, { lmsplit := 1, ctxs := [(k, { nextn := 2, queue := [c] })] }), (1, { lmsplit := 1 })] }
/-- The address of a byte of core 0's scratchpad. -/
def spot (n : Nat) : Word := BitVec.ofNat 64 (0x7FFFFF00FE0000 + n)
/-- Every page that a command reads or writes is at hand: they lie in scratchpads. -/
def handy (s : State) (c : Cmd) (k : Access) (vas : List Nat) : Bool :=
  let g := cmdAgent s 0 c
  let v := g.visit s (g.reached s k vas)
  s.mshrOf (dieOf g.core) == [] && (g.awaits s (g.tried s k vas)).isNone && v == { s with walkFails := v.walkFails } &&
    (g.reached v .load vas).foldl g.askCopy v == v
def good (r : Except UnitLoc α) : Bool := match r with
  | .ok _ => true
  | .error _ => false
theorem witness_holder (k : Nat) (c : Cmd) : ((working k c {} []).cluster 0).claim = some ⟨0, k % 4, 0⟩ ∧
    (working k c {} []).th = (command k c {} {}).th ∧ ((working k c {} []).cluster 0).ecnt = [0, 0, 0, 0, 0, 0, 0, 0] ∧
    ((working k c {} []).cluster 0).rails.length = 8 ∧ ((working k c {} []).cluster 0).cerrs = [] ∧ (working k c {} []).watchdog = false :=
  ⟨rfl, rfl, rfl, rfl, rfl, rfl⟩
/-- LDW of one INT8 column of two rows, and of a TERN tile with and without the reserved code. -/
def ldw (wf cols : Nat) : Cmd := { num := 1, code := 1, regs := [(0, spot 0), (1, BitVec.ofNat 64 (wf + 16 * 2 + 2 ^ 14 * cols)), (2, 8)] }
theorem witness_ldw : ∀ x ∈ ([(ldw 8 1, 7), (ldw 12 4, 2), (ldw 12 4, 1)] : List (Cmd × Nat)), let s := working 4 x.1 {} [(0, BitVec.ofNat 8 x.2)]
    (s.ctx 0 1 0).queue = [x.1] ∧ (s.ctx 0 2 0).queue = [] ∧ tfind s.stops 0 = none ∧
    handy s x.1 .load (spanVas (spot 0).toNat 1 ++ spanVas (spot 8).toNat 1) = true ∧
    (match readRows (cmdAgent s 0 x.1) s (spot 0).toNat 8 1 [0, 1] with
      | .ok rows => (reservedTern rows 4 == (x.2 == 2)) && !rows.any (·.any (·.2))
      | .error _ => false) = true := by decide
/-- A RUN of one row into a band of 64 nodes, with and without the band, with rails as asked and lowered, and FID. -/
def caiElem : Elem := { conf := [BitVec.ofNat 64 (0x2E * 2 ^ 58), 0, 0, 0, BitVec.ofNat 64 (7 * 2 ^ 18 + 2 ^ 22 + 2 ^ 28), 0, 0, 0] }
def banded : Region := { region [(200, caiElem)] .resident with elems := [(200, caiElem)] }
def ran : Cmd := { num := 1, code := 2, regs := [(1, BitVec.ofNat 64 (8 + 16 + 2 ^ 14)), (3, BitVec.ofNat 64 (8 + 16 + 2 ^ 13))] }
theorem witness_run : let c : Cluster := { regions := [(0, banded)] }
    ((List.range 8).filter fun t => nbit (rgeoMask (tget 0 ran.regs 3).toNat) t) = [0] ∧ runBands {} 0 1 [0] = none ∧
    runBands c 0 1 [0] = some [(0, 0, caiElem)] ∧ bandStopped c 0 [0] = false ∧ railsReady c 8 0 = true ∧ c.cerrs = [] ∧
    c.ecnt.length = 8 ∧ (∀ e ∈ c.ecnt, e < 2 ^ 48) ∧ railsReady { c with rails := [{ setpt := 660 }] } 8 0 = false ∧
    (appliedFid { cfloor := 660 } { ran with code := 3, fidmax := 3, regs := [(1, 8), (5, 3)] }) = (3, false) ∧
    (appliedFid {} { ran with code := 3, fidmax := 3, regs := [(1, 8), (5, 3)] }) = (0, true) := by decide
/-- ROWS of two entries: a row of three bytes, and a zero row; and an entry that names nothing. -/
def rowed : Cmd := { num := 1, code := 1, regs := [(0, spot 0), (1, BitVec.ofNat 64 (8 + 16 * 3 + 2 ^ 14 * 2 + 2 ^ 21))] }
theorem witness_rows : let s := working 8 rowed {} [(2, 0xFE), (3, 0x00), (4, 0xFF), (5, 0xFF), (6, 0xFF), (7, 0xFF)]
    (s.ctx 0 2 0).queue = [rowed] ∧ (s.ctx 0 1 0).queue = [] ∧ handy s rowed .load (spanVas (spot 0).toNat 8) = true ∧
    (match (cmdAgent s 0 rowed).read s (spot 0).toNat 8 with
      | .ok bs => bs.all (fun z => !z.2) && (quads 2 bs).map (fun q => rowPlace (leNat (q.map (·.1)))) == [some (some (windowAddr 0x7F 0)), some none]
      | .error _ => false) = true ∧ rowPlace 0x01000000 = none := by decide
/-- FAB commands on the one region of the survey's image: not asked for, loading, resident with a port and a band. -/
def fabbed (code : Nat) (w d : Word) : Cmd := { num := 1, code := code, regs := [(0, 0x1001000000), (1, w), (2, d)] }
def snapRegion : Region := region [(0, addElem []), (200, { conf := [BitVec.ofNat 64 (0x2E * 2 ^ 58), 0, 0, 0, BitVec.ofNat 64 (2 ^ 22 + 2 ^ 6), 0, 0, 0] })] .resident
theorem witness_fab : (∀ code ∈ [1, 2, 3, 4], let c := fabbed code (spot 0) 0x5002
      fabNames (working 12 c {} []) c = true ∧ regionHeld {} (fimgOf c).1 (fimgOf c).2 0 = none ∧
      (regionHeld { regions := [(0, region [] .loading)] } (fimgOf c).1 (fimgOf c).2 0).map (·.1) = some 0 ∧
      (regionHeld { regions := [(0, snapRegion)] } (fimgOf c).1 (fimgOf c).2 0) = some (0, snapRegion)) ∧
    (let c := fabbed 2 0 0
     let s := working 12 c { regions := [(0, snapRegion)] } []
     s.region 0 0 = some snapRegion ∧ evictReady s 0 snapRegion = true) ∧
    (let c := fabbed 3 (spot 0) 0x5002
     let s := working 12 c { regions := [(0, snapRegion)] } [(0, 5), (4, 3), (8, 7), (12, 4)]
     nbits (0x5002#64).toNat 0 12 = 2 ∧ snapRegion.injectAt 5 = some 0 ∧ handy s c .load (spanVas (spot 0).toNat 16) = true ∧
     (match (cmdAgent s 0 c).read s (spot 0).toNat 16 with
      | .ok bs => ((octets 2 bs).map fun b => leNat (b.map (·.1))) == [5 + 3 * 2 ^ 32, 7 + 4 * 2 ^ 32] && bs.all (fun z => !z.2)
      | .error _ => false) = true) := by decide
theorem witness_snap : let c := fabbed 4 (spot 0) 0
    let s := working 12 c { regions := [(0, snapRegion)] } []
    (snapRegion.cai 0).map (fun z => (List.range (bandSize z)).map (bandPos z)) = some [64, 65, 66, 67, 68, 69, 70, 71] ∧
    snapRegion.caiHeld = [] ∧ (∀ p ∈ [64, 65, 66, 67, 68, 69, 70, 71], snapRegion.count p 0 = 0) ∧ handy s c .store (spanVas (spot 0).toNat 64) = true ∧
    (cmdAgent s 0 c).locateAll s .store (spot 0).toNat 64 = (List.range 64).map (fun i => .scratch (0 + i)) ∧ Memory.wf s.scratch = true := by
  decide
/-- Copies that have started: of bytes, merged as integers, by MCAST to two cores, of a tensor's tile with a conversion and an
element outside, and by GATHER of two rows. -/
def copied (code : Nat) (regs : Table Word) : Cmd := { num := 1, code := code, started := true, regs := regs }
def tiled (fmt ctl len at_ : Nat) : Table Word := [(1, spot 0x100), (2, BitVec.ofNat 64 len), (3, BitVec.ofNat 64 (2 ^ 44 + ctl)),
  (7, BitVec.ofNat 64 (2 + 2 ^ 12 + 2 ^ 24 + 2 ^ 36 + 2 ^ 48)), (8, spot at_), (32, spot 0), (33, BitVec.ofNat 64 (fmt + 16 * 2)), (34, 4),
  (36, BitVec.ofNat 64 (1 + 2 * 2 ^ 32)), (37, BitVec.ofNat 64 (1 + 2 ^ 32)), (38, 1), (39, 9)]
def copies : List Cmd := [copied 1 [(0, spot 0), (1, spot 0x100), (2, 4)], copied 3 [(0, spot 0), (1, spot 0x100), (2, 4), (3, BitVec.ofNat 64 (2 ^ 34))],
  copied 4 [(0, spot 0), (1, spot 0x100), (2, 2), (9, 3)], copied 1 (tiled 8 (6 * 2 ^ 40) 0 0), copied 2 (tiled 8 0 2 0x40)]
theorem witness_copies_land : ∀ c ∈ copies, let s := working 0 c {} [(0, 3), (1, 0x80), (4, 5), (0x40, 1)]
    let g := cmdAgent s 0 c
    let v := g.visit s (g.reached s .load (sourceVas g s c))
    (s.ctx 0 0 0).queue = [c] ∧ c.num = s.ev.m ∧ c.after = none ∧ c.held = none ∧ coresMove s c.pid = false ∧
    handy s c .load (sourceVas g s c) = true ∧ Memory.wf s.scratch = true ∧
    (match copySource g v c with
      | .ok (rows, _) =>
        let w := spendDevice v
        let vas := targetVas rows (copyTargets c)
        let y := g.visit w (g.reached w .store vas)
        let places := (copyTargets c).flatMap fun b => rows.flatMap fun r => g.locateAll y .store (b + r.off) r.size
        handy w c .store vas && places.all (fun l => match l with
          | .scratch _ => true
          | _ => false) && places == places.eraseDups
      | .error _ => false) = true := by decide
theorem witness_copy_operands : let s := working 0 (copied 1 (tiled 8 0 0 0)) {} []
    let t := tensorOf (recordWords (tiled 8 0 0 0))
    tileCoords (originsOf (tiled 8 0 0 0)) (tget 0 (tiled 8 0 0 0) 7).toNat = [[0, 0, 0, 0, 0], [1, 0, 0, 0, 0]] ∧
    t.inside [0, 0, 0, 0, 0] = true ∧ t.inside [1, 0, 0, 0, 0] = false ∧ good ((cmdAgent s 0 (copied 1 [])).read s (t.bit 8 [0, 0, 0, 0, 0] / 8) 1) = true := by
  decide
/-- A command that has ended, of a party with a thread that goes on: alone, and as the RUN whose contributions are all added
and are not. -/
def over_ (run : Bool) (elems : Table Elem) : State := { command 5 { num := 1, code := 1, ended := some { flags := 4 } }
    { run := if run then some (0, 5, 1) else none, runs := 1, regions := [(0, region elems .resident)] } {} with parties := [(0, { nthr := 2, gone := [0] })] }
theorem witness_command_completion : (∀ b ∈ [true, false], let s := over_ b []
      (s.ctx 0 1 1).queue = [{ num := 1, code := 1, ended := some { flags := 4 } }] ∧ s.ev.m = 1 ∧
      tfind s.parties 0 = some { nthr := 2, gone := [0] } ∧ ((s.cluster (clusterOf 0)).run = some (0, 5, 1) ↔ b = true) ∧
      nodesDone (s.cluster 0) = true) ∧
    nodesDone ((over_ true [(0, addElem [{ run := 1 }])]).cluster 0) = false := by decide
theorem witness_contour_claim : let s := command 4 { num := 1, code := 3 } {} {}
    (s.cluster 0).claim = none ∧ waitingClients s 0 = [(0, 0, { num := 1, code := 3 })] ∧ (s.party 0).contour = none ∧
    ({ claim := none, lastPid := some 0 } : Cluster).lastPid = some 0 := by decide

/-! LaunchEvents. A header that names image handle 0x1001, one thread and one party, for the free core 0. -/

def aToken : List Word := [BitVec.ofNat 64 (1 + 0x1001 * 2 ^ 20), 0, 0, 0, 0, 0, 0, 0]
def badToken : List Word := [2, 0, 0, 0, 0, 0, 0, 0]
def anImage : Image := { used := true, vcores := [⟨0x4000, none, 1⟩] }
def launching (q : Queue) (x : Survey) (a : EvArgs) : State := { box [] with
  ev := a, images := [(1, anImage)], queues := [(0, q)], surveys := [(0, x)] }
def oneThread : Survey := { img := 0x1001 }

set_option maxRecDepth 20000 in
theorem witness_token_write : let s := launching {} {} { bytes := List.replicate 64 7 }
    let r := launching {} {} { bytes := [1, 2, 3] }
    let f := launching { fifo := List.replicate 64 aToken } {} { bytes := List.replicate 64 7 }
    (s.queue 0).overrun = false ∧ (s.queue 0).active = none ∧ (s.queue 0).unread = false ∧ s.ev.k % 64 = 0 ∧ s.ev.bytes.length = 64 ∧
    s.ev.k + 64 ≤ 0x800 ∧ (s.queue 0).fifo.length < 64 ∧ 64 ≤ (f.queue 0).fifo.length ∧ r.ev.bytes.length % 64 ≠ 0 ∧
    r.ev.bytes.length ≠ 8 := by decide
set_option maxRecDepth 20000 in
theorem witness_header : let s := launching { fifo := [aToken] } {} {}
    let b := launching { fifo := [badToken] } {} {}
    (s.queue 0).fifo = [aToken] ∧ freeSurvey s = some 1 ∧ headerSeeds aToken = 0 ∧ headerCode s aToken = 0 ∧
    (∀ i < 4, (aToken.getD (4 + i) 0).toNat < 2 ^ 62) ∧ headerSeeds badToken = 0 ∧ headerCode b badToken = 1 ∧
    s.watchdog = false ∧ (s.queue 0).stopped = false ∧ (s.queue 0).killing = false ∧ (s.queue 0).lost = false := by decide
set_option maxRecDepth 20000 in
theorem witness_binding : let s := launching { active := some 0, limit := 3 } oneThread {}
    chooseBind s false (bindOrder s) = some (0, [0]) ∧ (s.survey 0).nthr = 1 ∧ (s.survey 0).seedMode = 0 ∧
    freeRanks s 65536 0 1 = [0] ∧ s.watchdog = false ∧ s.firmware.staged = false ∧ eligible s 0 = true ∧
    (s.queue (s.survey 0).queue).limit ≠ 0 := by decide
theorem witness_dispatch : let p : Party := { nthr := 1, cores := [0] }
    let s : State := { launching {} oneThread {} with parties := [(0, p)], plat := [(0, { st := .bind, pc := 0x4000 })] }
    tfind s.parties 0 = some p ∧ p.killed = false ∧ (tget {} s.plat 0).st = .bind ∧ s.imageOf (s.survey p.surv).img = some anImage ∧
    anImage.channels = [] ∧ anImage.regions = [] ∧ (tget {} s.plat 0).tidx = 0 := by decide
/-- A survey that is over, killed or not, whose image stays or is being removed. -/
def finished (killed removing : Bool) : State := { launching {} { img := 0x1001, ended := 1, killed := killed } {} with
  images := [(1, { anImage with removing := removing })] }
theorem witness_survey_over : ∀ k ∈ [true, false], ∀ r ∈ [true, false], let s := finished k r
    s.surveys = [(0, s.survey 0)] ∧ (s.survey 0).nparty ≤ (s.survey 0).ended ∧ (s.queue 0).active ≠ some 0 ∧
    s.imageOf (s.survey 0).img = some { anImage with removing := r } ∧ killedRegions s 0 = false ∧ (s.queue 0).cmds = [] := by decide
/-- A queue with its survey alone, and with a running party of one thread. -/
def manned (ps : Table Party) : State := { launching { active := some 0 } { nparty := 3, bound := 1 } {} with parties := ps }
theorem witness_qkill : let p : Party := { nthr := 1, cores := [0] }
    let s := manned [(0, p)]
    ((manned []).queue 0).killing = false ∧ (manned []).surveys = [(0, { nparty := 3, bound := 1 })] ∧ (manned []).parties = [] ∧
    s.parties = [(0, p)] ∧ p.surv = 0 ∧ s.savedAreas = [] ∧ (s.threadAt 0).status = .running ∧ (s.threadAt 0).pid = 0 ∧
    (s.threadAt 0).party.tidx = 0 ∧ (s.threadAt 0).place = 0 ∧ (s.core 0).ctxs = [] := by decide
theorem witness_queue_commands : let s := launching {} { queue := 1 } {}
    let r := { fabric { regions := [(0, { region [] .resident with asked := true, owner := some 7 })] } {} with clock := 130000 }
    ({ region [] .resident with owner := some 7 } : Region).orphan r = true ∧ r.clock = 130000 ∧
    (s.queue 0).killing = false ∧ (s.queue 0).active = none ∧ (∀ v ∈ s.surveys, v.2.queue ≠ 0) ∧
    (r.region 0 0).isSome = true := ⟨by decide, rfl, by decide, by decide, by decide, by decide⟩

/-! ServicesStopsAndMoves. Party 0, one thread at place 0, has trapped for a service. -/

def pleading (e : Escalation) (q : Party) (feat : BitVec 6) : State := { box [] with
  escal := [e], parties := [(0, q)], surveys := [(0, {})]
  cores := (List.range 64).map fun c => (c, { feat := feat })
  th := { (box []).th with wait := .escalated, eval2 := 1 } }
def aSolo : Party := { nthr := 1, cores := [0] }
def anEscal (e1 : Word) (asked fatal : Bool) : Escalation := { place := 0, cause := .trapInstr, pc := 8, e1 := e1, e2 := 0, fatal := fatal, asked := asked }
def asking (e1 : Word) (asked fatal : Bool) : State := pleading (anEscal e1 asked fatal) aSolo 0
theorem witness_services (e1 : Word) (a f : Bool) : escalOf (asking e1 a f) 0 = some (anEscal e1 a f) ∧
    (asking e1 a f).watchdog = false := ⟨rfl, rfl⟩
set_option maxRecDepth 20000 in
theorem witness_no_core : let s := asking 2 false false
    tfind s.stops 0 = none ∧ (s.party 0).nthr = 1 ∧
    clusterPlacement s 0 { kind := .migrate, services := [0] } = none := by decide
set_option maxRecDepth 20000 in
theorem witness_a_core : clusterPlacement (pleading (anEscal 2 false false) aSolo 0x3F) 0 { kind := .migrate, services := [0] } = some [0] := by
  decide
theorem witness_party_termination (f : Bool) : let s := asking 4 false f
    tfind s.parties 0 = some aSolo ∧ s.th.status = .running ∧ s.th.party.tidx = 0 ∧ s.th.place = 0 ∧ (s.counter 0).seen = false :=
  ⟨rfl, rfl, rfl, rfl, rfl⟩
theorem witness_no_commands (e1 : Word) (a f : Bool) : ((asking e1 a f).core 0).ctxs = [] := rfl
set_option maxRecDepth 20000 in
theorem witness_thread_termination : let s := pleading (anEscal 3 false false) { nthr := 2, cores := [0] } 0x3F
    escalOf s 0 = some (anEscal 3 false false) ∧ (tfind s.parties (s.threadAt 0).pid).isSome = true ∧
    ∃ i < (s.party (s.threadAt 0).pid).nthr, i ≠ (s.threadAt 0).party.tidx.toNat ∧ (s.party (s.threadAt 0).pid).gone.contains i = false := by decide

/-- The same party without an escalation, with a stop noted. -/
def stopping (st : Option Stop) (a : EvArgs) : State := { pleading (anEscal 0 false false) aSolo 0x3F with
  ev := a, escal := [], stops := st.toList.map fun x => (0, x), th := (box []).th }
theorem witness_preemption : let s := stopping none { v := 0x10000, k := 0x20000 }
    let new : Stop := { kind := .save, area := 0x10000, size := 0x20000, seq := 1 }
    tfind s.stops 0 = none ∧ tfind s.parties 0 = some aSolo ∧ aSolo.killed = false ∧ aSolo.cores ≠ [] ∧ partyEscalated s 0 [] = false ∧
    movers s 0 new = [0] ∧ (∀ c ∈ aSolo.cores, (tget {} s.plat (c * 16)).st ≠ .bind) ∧ s.ev.v.toNat % 64 = 0 ∧ ownedRegions s 0 0 = [] ∧
    (s.cluster 0).reqs = [] := by decide
theorem witness_saving : let st : Stop := { kind := .save, begun := true }
    stopReady (stopping (some st) {}) 0 st = true ∧ tfind (stopping (some st) {}).stops 0 = some st ∧
    tfind (stopping (some { st with stopped := true }) {}).stops 0 = some { st with stopped := true } ∧
    tfind (stopping (some { st with faulted := true }) {}).stops 0 = some { st with faulted := true } := by decide
/-- A stopped party whose area's pages are at hand. -/
theorem witness_area : let st : Stop := { kind := .save, begun := true, stopped := true, size := 0x1000 }
    let s := { stopping (some st) {} with dtlb := [(0, [⟨0, .k64, 0, 0, true, true, false, true⟩])] }
    tfind s.stops 0 = some st ∧ st.faulted = false ∧ unitAwaits s 0 0 (spanVas st.area (min 0x1000 st.size)) = none ∧
    unitAwaits s 0 0 (spanVas 0 64) = none ∧ unitAwaits s 0 0 (spanVas 0xFFFF 1) = none := by decide

/-- A saved party of one thread whose area, at address 0, is valid. -/
def anArea : Saved := { area := 0, size := 0x10000, cls := 0, ctx := 0, surv := 0, pidx := 0, thrs := [5], cores := [0] }
def parked : State := { box [] with
  ev := { nums := [3] }, savedAreas := [(0, anArea)], mem := [(0, 1)]
  dtlb := [(0, [⟨0, .k64, 0, 0, true, true, false, true⟩])] }
theorem witness_restore : tfind parked.savedAreas 0 = some anArea ∧ anArea.restoring = [] ∧
    unitAwaits parked 0 anArea.ctx (spanVas anArea.area anArea.size) = none ∧ nbit (anArea.word parked 0) 0 = true ∧ placementOk anArea.cls anArea.thrs.length parked.ev.nums = true ∧
    (∀ j, j < parked.ev.nums.length → coreFree parked (savedNeed anArea parked j) (parked.ev.nums.getD j 0) = true) ∧
    anArea.regions = [] ∧ (parked.cluster 0).reqs = [] ∧ ownedRegions parked 0 0 = [] := by decide
theorem witness_restore_ends : let a := { anArea with restoring := [3] }
    let s := { parked with savedAreas := [(0, a)] }
    tfind s.savedAreas 0 = some a ∧ a.restoring ≠ [] ∧ restoreReady s 0 a.restoring = true := by decide

/-- A party of two threads, of which thread 0 is to move to slot 2. -/
def moving (st : Option Stop) : State := { box [] with
  ev := { p := 2 }, parties := [(0, { nthr := 2, cores := [0] })], plat := [(2, { st := .held })]
  stops := st.toList.map fun x => (0, x) }
theorem witness_migration : let st : Stop := { kind := .migrate, tidx := some 0, target := 2 }
    let s := moving none
    let m := moving (some { st with begun := true })
    tfind s.stops 0 = none ∧ (tfind s.parties 0).isSome = true ∧ (s.party 0).killed = false ∧ (s.party 0).cores ≠ [] ∧
    partyEscalated s 0 [] = false ∧ movers s 0 st ≠ [] ∧ moveOk s 0 st = true ∧ s.ev.yes = false ∧
    (tfind m.stops 0).isSome = true ∧ moveOk m 0 { st with begun := true } = true ∧ m.moveQueue = [] ∧ stopReady m 0 { st with begun := true } = true ∧ movers m 0 { st with begun := true } = [0] ∧
    (m.core (coreOf 0)).vlatch ≠ some 0 ∧ (∀ x ∈ m.moveQueue, x.1 ≠ 0) := by decide
/-- A thread that asks to move while its party is being saved. -/
theorem witness_no_move : let s := { asking 2 false false with stops := [(0, { kind := .save })] }
    escalOf s 0 = some (anEscal 2 false false) ∧ tfind s.stops (s.threadAt 0).pid = some { kind := .save } := ⟨rfl, rfl⟩

/-- Tile 0 is hot, and its party of one thread is persistent. -/
def hot : State := { stopping none {} with tiles := [(0, { temp := 120 })], tmig := [(0, { en := true, persist := 0 })] }
set_option maxRecDepth 20000 in
theorem witness_thermal : let whole : Stop := { kind := .migrate }
    thermalDue hot 0 0 = true ∧ (hot.party 0).nthr ≤ 1 ∧ thermalDue (stopping none {}) 0 0 = false ∧
    coolest hot (((List.range 64).map (0 / 16 * 64 + ·)).filter fun c => decide ((tget {} hot.tiles (tileOf c)).temp + 5 < 100) &&
        coreFree hot (unionReqf hot (movers hot 0 whole)) c) = some 4 ∧
    tfind hot.stops 0 = none ∧ (tfind hot.parties 0).isSome = true ∧ (hot.party 0).killed = false ∧ (hot.party 0).cores ≠ [] ∧
    partyEscalated hot 0 [] = false ∧ movers hot 0 whole ≠ [] ∧ moveOk hot 0 { whole with cores := [4] } = true := by decide

/-- Tile 0 is hot; a party of two threads on cores 0 and 4, of which thread 0 or both may move. -/
def hotPair (yes : Bool) : State := { hot with
  ev := { k := 0, yes := yes }, parties := [(0, { nthr := 2, cores := [0, 4], cls := 1 })], plat := [(64, { st := .held })] }
set_option maxRecDepth 20000 in
theorem witness_thermal_pair : let whole : Stop := { kind := .migrate }
    let s := hotPair false
    thermalDue s 0 0 = true ∧ 1 < (s.party 0).nthr ∧ placeOfIndex s 0 0 = some 0 ∧ tileOf (coreOf 0) = 0 ∧
    (tget {} s.plat (4 * 16 + 0)).st = .held ∧ coolest s ((s.party 0).cores.filter fun c => decide ((tget {} s.tiles (tileOf c)).temp + 5 < 100) &&
      hasFeat s (unionReqf s (movers s 0 { whole with tidx := some 0 })) c &&
        (List.range 16).any fun i => (tget {} s.plat (c * 16 + i)).st == .held) = some 4 ∧
    moveOk s 0 { whole with tidx := some 0, target := 64 } = true ∧ partyEscalated s 0 [] = false ∧
    movers s 0 { whole with tidx := some 0 } = [0] := by decide

set_option maxRecDepth 20000 in
theorem witness_thermal_placement : let s := hotPair true
    let fit := fun c => decide ((tget {} s.tiles (tileOf c)).temp + 5 < 100) && coreFree s (unionReqf s (movers s 0 { kind := .migrate })) c
    (coolPlacement s 0 (unitCores (s.party 0).cls) 2 fit).isSome = true := by decide

/-! MailboxCommands. A command of host 0: the words of CW. -/

def ordered (cw : List Word) (a : EvArgs) : State := { box [] with
  ev := a, hosts := [(0, { cw := (cw ++ List.replicate 8 0).take 8, submitted := true })]
  images := [(1, { anImage with regions := [List.replicate 24 0] })] }
theorem witness_mailbox_codes : (∀ c ∈ [1, 2, 3, 4, 5], let s := ordered [BitVec.ofNat 64 c] {}
      (s.host 0).submitted = true ∧ (((s.host 0).cw.getD 0 0).toNat % 256) = c ∧ s.watchdog = false) ∧
    surveyBytes (ordered [1, 4, 0] {}) 4 0 ≠ none ∧ surveyBytes (ordered [1] {}) 0 0 = none ∧
    (ordered [3, 0x1001] {}).imageOf 0x1001 ≠ none ∧ (ordered [3, 5] {}).imageOf 5 = none ∧
    badCommand (ordered [9] {}) ((ordered [9] {}).host 0) = true ∧ badCommand (ordered [4, 7] {}) ((ordered [4, 7] {}).host 0) = true := by decide
/-- The words of a SETREG: class, instance, register, value, each at any value, so at both ends of each range. -/
theorem witness_setreg (c i n v : Word) (a : EvArgs) : let s := ordered [4, c, i, n, v] a
    let w := fun k => (s.host 0).cw.getD k 0
    (w 0).toNat % 256 = 4 ∧ w 1 = c ∧ w 2 = i ∧ w 3 = n ∧ w 4 = v ∧ (s.host 0).submitted = true ∧ (s.host 0).linkUp = true ∧
      s.ev = a ∧ s.firmware.keys.length = 4 := ⟨rfl, rfl, rfl, rfl, rfl, rfl, rfl, rfl, rfl⟩
theorem witness_meter_listed : meterListed (ordered [4, 1, 0x10010] {}) 0x10010 = true ∧
    (({ ordered [4, 6, 0, 5] {} with hosts := [(0, { linkUp := false })] } : State).host 0).linkUp = false := by decide
theorem witness_host_bytes : let s := ordered [4, 6, 0, 5, 64] {}
    (s.host 0).linkUp = true ∧ s.firmware.attnonce.toNat + 32 ≤ 2 ^ 44 ∧ (64#64).toNat + 1952 ≤ 2 ^ 44 ∧ (64#64).toNat ≠ 0 := by decide

/-! LinksPowerAndReset. -/

def linked (a : EvArgs) : State := { ordered [] a with
  ports := [(0, { up := true })], tiles := [(0, { trip := true })] }
theorem witness_links : let s := linked { k := 0x138, nums := [1] }
    let r := linked { m := 2, k := 0x1F820 }
    s.ev.yes = false ∧ s.ev.m = 0 ∧ (s.host 0).cw.length = 8 ∧ s.ev.k = 0x100 + 8 * 7 ∧ r.ev.yes = false ∧ r.ev.m = 2 ∧
    r.ev.k = 0x1000 * 31 + 0x820 ∧ (s.port 0).up = true ∧ (s.port 1).up = false ∧ s.outbound = [] ∧ flitGood [] = false := by decide
/-- What DEBUG_UNLOCK asks before it reads, and a link with no miss on its way. -/
theorem witness_debug (b : Bool) : let s : State := { linked { yes := b } with firmware := { (linked {}).firmware with unlocked := b } }
    s.ev.yes = b ∧ s.firmware.unlocked = b ∧ s.mshrs = [] ∧ s.outbound = [] := ⟨rfl, rfl, rfl, rfl⟩
theorem flitOf_good (cls src dst seq : Nat) (p : List Byte) : flitGood (flitOf cls src dst seq p) = true := by
  simp only [flitOf]
  generalize hb : leBytes 16 _ ++ _ = body
  have h : body.length = 248 := by
    rw [← hb, List.length_append, leBytes_length, List.length_take, List.length_append, List.length_replicate]; omega
  simp only [flitGood, List.take_append_of_le_length (Nat.le_of_eq h.symm), List.drop_append_of_le_length (Nat.le_of_eq h.symm),
    List.length_append, leBytes_length, List.take_of_length_le (Nat.le_of_eq h), List.drop_of_length_le (Nat.le_of_eq h), h]
  simp
theorem witness_good_flit : flitGood (flitOf 3 1 7 0 [1, 2, 3]) = true ∧
    ((flitOf 3 1 7 0 [1, 2, 3]).getD 2 0).toNat ≠ (linked {}).pkgNo.toNat ∧ flitGood (flitOf 3 1 0 0 [1, 2, 3]) = true ∧
    ((flitOf 3 1 0 0 [1, 2, 3]).getD 2 0).toNat = (linked {}).pkgNo.toNat ∧ ((flitOf 3 1 0 0 [1, 2, 3]).getD 0 0).toNat = 3 :=
  ⟨flitOf_good .., by decide, flitOf_good .., by decide, by decide⟩
theorem witness_limits : ((linked {}).tile 0).trip = true ∧ ((linked {}).tile 1).trip = false ∧ (linked {}).watchdog = false ∧
    (linked { k := 110 }).ev.k = 110 ∧ 125 ≤ (linked { k := 125 }).ev.k ∧ (linked { k := 99 }).ev.k < 100 ∧
    (∀ c < 4, (tget ({} : OpReq) (linked {}).opreq c).hinten = false) := by decide

/-! DecodeEncodeAgree, StepRunsTheDecodedWord, RotationPicksTheFirstReadySlot and StepKeepsInv. -/

theorem witness_encoding : (Instr.srv 20 4 5 1 1 3).wf = true ∧ (Instr.vgatherP 1 2 2 1 .i32 4).wf = true ∧ decode 0xA9410553 = .ok (.srv 20 4 5 1 1 3) := by
  decide
/-- The machine after reset with ADDI R1, R0, 5 put where it fetches. -/
def first : State := State.reset.withFetchWord 32 (encode (.addi 1 0 5)).toNat
theorem witness_step : first.shutDown = false ∧ first.agenda = [.core 0] ∧
    pickThread { first with agenda := [] } 0 = some (0, 1) ∧ (turnOf { first with agenda := [] } 0 1).th.phase ≠ .resumed ∧
    (match fetch (turnOf { first with agenda := [] } 0 1) with | .word w _ => decode w == .ok (.addi 1 0 5) | _ => false) = true ∧
    first.th.held = none ∧ (Instr.addi 1 0 5).wf = true := by decide
theorem witness_step_holds : Inv first ∧ (match step first with | .next t => t.th.reg 1 == { val := 5 } && t.th.pc == 4 | _ => false) = true :=
  ⟨⟨by decide, by decide⟩, by decide⟩
theorem witness_fetch : let s := { first with th := { first.th with stat := { la := true }, lstart := 0, lend := 8, loopBuf := [(0, 7)] } }
    s.th.held = none ∧ s.th.inBody = true ∧ tfind s.th.loopBuf s.th.pc.toNat = some 7 ∧ first.th.inBody = false := by decide
theorem witness_undecodable : decode 0 = .error .reservedMajor ∧ 0 ∈ [0, 0x1C, 0x3F] ∧ decode 0x0400003F = .error .unassigned ∧
    decode 0xC1800000 = .error .reservedEngine ∧ (first.core first.here).feat = 0x3F ∧ first.th.stat.pp = false := by decide
theorem witness_event_turn : let s : State := { box [] with agenda := [.event .tempRefresh { k := 80 }] }
    s.agenda = [.event .tempRefresh { k := 80 }] ∧ s.shutDown = false ∧ encode .tempRefresh = 0 ∧ Instr.tempRefresh ≠ .packageReset := by decide
/-- Slots 0 and 1 hold runnable threads; slot 0 issued last, in cycle 3. -/
def pair : State := { box [] with
  clock := 3, lastSlot := [(0, 0)], th := { (box []).th with leftAt := 3 }, others := [(1, { (box []).th with place := 1 })] }
theorem witness_rotation : pickThread pair 0 = some (1, 4) ∧ pickThread State.reset 0 = none ∧ Inv pair := ⟨by decide, by decide, ⟨rfl, rfl⟩⟩

end Sys2Proof.Tests
end

section
/-!
SUPPORT. Integer division at its corners (R88): what the four operations give there, and that they never trap.
-/

namespace Sys2Proof.Machine

/-- The one quotient that does not fit, the most negative word by minus one (R88). -/
theorem divOp_overflow : divOp 0x8000000000000000 (BitVec.allOnes 64) = 0x8000000000000000 := by decide

theorem remOp_overflow : remOp 0x8000000000000000 (BitVec.allOnes 64) = 0 := by decide

/-- DIV with its two fixed cases told apart (R88). -/
theorem divOp_eq_corners (x y : Word) : divOp x y =
    if y = 0 then 0xFFFFFFFFFFFFFFFF
    else if x = 0x8000000000000000 ∧ y = BitVec.allOnes 64 then x
    else BitVec.ofInt 64 (x.toInt.tdiv y.toInt) := by
  by_cases hy : y = 0
  · rw [if_pos hy]; exact if_pos hy
  rw [if_neg hy]
  by_cases hc : x = 0x8000000000000000 ∧ y = BitVec.allOnes 64
  · rw [if_pos hc, hc.1, hc.2]; exact divOp_overflow
  · rw [if_neg hc]; exact if_neg hy

/-- REM with its two fixed cases told apart, and otherwise what the truncated quotient leaves of the dividend (R88). -/
theorem remOp_eq_corners (x y : Word) : remOp x y =
    if y = 0 then x
    else if x = 0x8000000000000000 ∧ y = BitVec.allOnes 64 then 0
    else BitVec.ofInt 64 (x.toInt - y.toInt * x.toInt.tdiv y.toInt) := by
  by_cases hy : y = 0
  · rw [if_pos hy]; exact if_pos hy
  rw [if_neg hy]
  by_cases hc : x = 0x8000000000000000 ∧ y = BitVec.allOnes 64
  · rw [if_pos hc, hc.1, hc.2]; exact remOp_overflow
  · rw [if_neg hc, ← Int.tmod_def]; exact if_neg hy

/-- Settles O2: a division completes with its operation's value, whose corners `divOp_eq_corners` and
`remOp_eq_corners` tell apart; the unsigned operations have the one fixed case of their definitions. -/
theorem divisionNeverTraps : Obligations.DivisionNeverTraps := by
  intro s d a b hA hB h r x y
  refine ⟨?div, ?divu, ?rem, ?remu⟩
  case div => rw [exec_div]; exact alu_computes _ h (divOp_eq_corners x y)
  case divu => rw [exec_divu]; exact alu_computes _ h rfl
  case rem => rw [exec_rem]; exact alu_computes _ h (remOp_eq_corners x y)
  case remu => rw [exec_remu]; exact alu_computes _ h rfl

end Sys2Proof.Machine
end

section
/-!
SUPPORT. The bit fields of R96, bit by bit.
-/

namespace Sys2Proof.Machine

/-- Bit i of the field that a control word names (R96). -/
theorem bfField_testBit (a c : Word) (i : Nat) :
    (bfField a c).testBit i = (decide (i < bfLen c) && a.getLsbD (bfPos c + i)) := by
  rw [bfField, Nat.testBit_mod_two_pow, Nat.testBit_div_two_pow, BitVec.testBit_toNat, Nat.add_comm]

theorem bfField_lt (a c : Word) : bfField a c < 2 ^ bfLen c := Nat.mod_lt _ (Nat.two_pow_pos _)

theorem bfxuOp_getLsbD (a c : Word) (i : Nat) (hi : i < 64) :
    (bfxuOp a c).getLsbD i = (decide (i < bfLen c) && a.getLsbD (bfPos c + i)) := by
  rw [bfxuOp, BitVec.getLsbD_ofNat, bfField_testBit, decide_eq_true hi, Bool.true_and]

/-- BFX takes the field as a signed number of its own length, 0 included. -/
theorem bfxOp_eq_signExtend (a c : Word) :
    bfxOp a c = (BitVec.ofNat (bfLen c) (bfField a c)).signExtend 64 := by
  have hf : (BitVec.ofNat (bfLen c) (bfField a c)).toNat = bfField a c :=
    (BitVec.toNat_ofNat ..).trans (Nat.mod_eq_of_lt (bfField_lt a c))
  have hlt := bfField_lt a c
  rw [BitVec.signExtend, BitVec.toInt_eq_toNat_cond, hf]
  unfold bfxOp
  cases hn : bfLen c with
  | zero =>
    rw [hn] at hlt
    simp [show bfField a c = 0 by omega]
  | succ n =>
    have hp : 2 * bfField a c < 2 ^ (n + 1) ↔ bfField a c < 2 ^ n := by omega
    by_cases h : bfField a c < 2 ^ n
    · simp [h, hp]
    · simp [h, hp]

theorem bfxOp_getLsbD (a c : Word) (i : Nat) (hi : i < 64) :
    (bfxOp a c).getLsbD i = (decide (0 < bfLen c) && a.getLsbD (bfPos c + min i (bfLen c - 1))) := by
  rw [bfxOp_eq_signExtend, BitVec.getLsbD_signExtend, BitVec.msb_eq_getLsbD_last, BitVec.getLsbD_ofNat,
    BitVec.getLsbD_ofNat, bfField_testBit, bfField_testBit]
  by_cases h : i < bfLen c
  · have h0 : 0 < bfLen c := by omega
    have hm : min i (bfLen c - 1) = i := by omega
    simp [hi, h, h0, hm]
  · have hm : min i (bfLen c - 1) = bfLen c - 1 := by omega
    simp [hi, h, hm]

/-- The ones of BFI's mask are the places of the field. -/
theorem bfMask_getLsbD (c : Word) (i : Nat) (hi : i < 64) :
    (BitVec.ofNat 64 ((2 ^ bfLen c - 1) * 2 ^ bfPos c)).getLsbD i =
      decide (bfPos c ≤ i ∧ i < bfPos c + bfLen c) := by
  rw [BitVec.getLsbD_ofNat, Nat.testBit_mul_two_pow, Nat.testBit_two_pow_sub_one, decide_eq_true hi]
  by_cases h : bfPos c ≤ i
  · simp [h, Nat.sub_lt_iff_lt_add' h]
  · simp [h]

theorem bfiOp_getLsbD (a b c : Word) (i : Nat) (hi : i < 64) :
    (bfiOp a b c).getLsbD i =
      if bfPos c ≤ i ∧ i < bfPos c + bfLen c then b.getLsbD (i - bfPos c) else a.getLsbD i := by
  simp only [bfiOp, BitVec.getLsbD_or, BitVec.getLsbD_and, BitVec.getLsbD_not, BitVec.getLsbD_shiftLeft,
    bfMask_getLsbD c i hi]
  by_cases h : bfPos c ≤ i ∧ i < bfPos c + bfLen c
  · simp [h, hi]
  · simp [h, hi]

/-- Settles O5: each instruction completes with its operation's value, read bit by bit. -/
theorem bitFieldResults : Obligations.BitFieldResults := by
  intro s d a b hA hB h r x y pos len
  refine ⟨?bfxu, ?bfx, ?bfi⟩
  case bfxu =>
    obtain ⟨t, ht, hc⟩ := alu_computes (v := fun t => bfxuOp (t.readA a) (t.readB b)) _ h rfl
    exact ⟨t, _, ht, hc, bfxuOp_getLsbD x y⟩
  case bfx =>
    obtain ⟨t, ht, hc⟩ := alu_computes (v := fun t => bfxOp (t.readA a) (t.readB b)) _ h rfl
    exact ⟨t, _, ht, hc, bfxOp_getLsbD x y⟩
  case bfi =>
    obtain ⟨t, ht, hc⟩ := alu_computes (v := fun t => bfiOp (t.readA a) (t.readB b) t.z0) _ h rfl
    exact ⟨t, _, ht, hc, bfiOp_getLsbD x y s.th.z0⟩

end Sys2Proof.Machine
end

section
/-!
SUPPORT. Arming a register (R174), and the fields of a capability as bits of its word (R170 to R173).
-/

namespace Sys2Proof.Machine

/-- Completion looks at no register. -/
theorem Thread.complete_withRegs (t : Thread) (x : Vector Reg 56) :
    ({ t with regs := x } : Thread).complete = { t.complete with regs := x } := by
  simp only [Thread.complete, Thread.advance, Thread.looping, Thread.loopTooBig]
  split <;> [split; skip] <;> rfl

theorem Thread.complete_setReg (t : Thread) (n : Nat) (x : Reg) :
    (t.setReg n x).complete = t.complete.setReg n x := by
  unfold Thread.setReg
  split
  · rw [complete_withRegs, complete_regs]
  · rfl

/-- ARM waits at its instruction while the register is PENDING. -/
theorem armReg_pending {i : Instr} {d : RegCode} {aq : Option Scope} {s : State} (h : MayIssue s 1 {} [])
    (hx : (s.th.reg d.toNat).sb = .pending) : armReg i d aq s = stall (.reg d) s := by
  unfold armReg
  rw [issue_none h]
  exact if_pos hx

/-- The record that ARM leaves of a register that is not PENDING. -/
def Reg.armed (x : Reg) (aq : Option Scope) : Reg :=
  { x with sb := if x.sb = .ready then .armed else x.sb, ra := x.sb != .ready && x.ra, ex := true, aq }

theorem Reg.armed_eq (x : Reg) (aq : Option Scope) : x.armed aq =
    if x.sb = .ready then { x with sb := .armed, ra := false, ex := true, aq } else { x with ex := true, aq } := by
  unfold Reg.armed
  split
  next h => simp [h]
  next h => simp [h]

theorem armReg_completes {i : Instr} {d : RegCode} {aq : Option Scope} {s : State} (h : MayIssue s 1 {} [])
    (hx : (s.th.reg d.toNat).sb ≠ .pending) :
    ∃ t, armReg i d aq s = .next t ∧
      Completes s s t {} fun u => u.setReg d.toNat ((s.th.reg d.toNat).armed aq) := by
  unfold armReg
  rw [issue_none h]
  dsimp only
  rw [if_neg hx, ← Reg.armed_eq]
  exact retire_completes {} s s _ _ rfl fun x => Thread.complete_setReg x d.toNat _

/-- A concatenation as a sum of its parts at their places. -/
theorem toNat_append_eq_add {m n : Nat} (x : BitVec m) (y : BitVec n) :
    (x ++ y).toNat = x.toNat * 2 ^ n + y.toNat := by
  rw [BitVec.toNat_append, ← Nat.shiftLeft_add_eq_or_of_lt y.isLt, Nat.shiftLeft_eq]

/-- A capability word before its check: its fields at the places of R170. -/
def capForm (kind : BitVec 2) (r : Rank) (field : BitVec 6) (rights : BitVec 2) : Word :=
  kind ++ r.pkg ++ r.thr ++ field ++ r.gen ++ rights ++ 0#22

theorem capForm_toNat (kind : BitVec 2) (r : Rank) (field : BitVec 6) (rights : BitVec 2) :
    (capForm kind r field rights).toNat =
      kind.toNat * 2 ^ 62 + r.logical.toNat * 2 ^ 38 + field.toNat * 2 ^ 32 + r.gen.toNat * 2 ^ 24 + rights.toNat * 2 ^ 22 := by
  simp only [capForm, Rank.logical, toNat_append_eq_add, BitVec.toNat_ofNat]
  omega

/-- The low half of the 22 zeros is the place of the check. -/
theorem capForm_check_clear (kind : BitVec 2) (r : Rank) (field : BitVec 6) (rights : BitVec 2) :
    (capForm kind r field rights).setWidth 16 = 0#16 := by
  unfold capForm
  rw [BitVec.setWidth_append, dif_pos (by decide)]
  rfl

/-- Minting puts the fields at their places and adds the check of the thread's survey (R172). -/
theorem mintCap_eq_capForm (s : State) (t : Thread) (kind : BitVec 2) (field : BitVec 6) (rights : BitVec 2) :
    mintCap s t kind.toNat field.toNat rights.toNat =
      capForm kind t.rank field rights |||
        (capCheck (s.keyOf t.party.surv.toNat) (capForm kind t.rank field rights)).setWidth 64 := by
  unfold mintCap
  rw [← capForm_toNat, BitVec.ofNat_toNat, BitVec.setWidth_eq]

/-- The word of an inbox capability: the upper two bits of its field are 0, the others the ring size. -/
theorem capForm_inbox (r : Rank) (size : BitVec 4) :
    capForm 2#2 r (size.setWidth 6) 1#2 = 2#2 ++ r.pkg ++ r.thr ++ 0#2 ++ size ++ r.gen ++ 1#2 ++ 0#22 := by
  apply BitVec.eq_of_toNat_eq
  simp only [capForm, toNat_append_eq_add, BitVec.toNat_setWidth, BitVec.toNat_ofNat]
  omega

theorem mintCap_inbox (s : State) (t : Thread) :
    mintCap s t 2 t.inbox.size.toNat 1 = capForm 2#2 t.rank (t.inbox.size.setWidth 6) 1#2 |||
      (capCheck (s.keyOf t.party.surv.toNat) (capForm 2#2 t.rank (t.inbox.size.setWidth 6) 1#2)).setWidth 64 := by
  rw [← mintCap_eq_capForm, BitVec.toNat_setWidth_of_le (by decide)]
  rfl

/-- A field read as a number is the value of the bits it stands in. -/
theorem nbits_toNat (c : Word) (lo n : Nat) : nbits c.toNat lo n = (c.extractLsb' lo n).toNat := by
  rw [nbits, BitVec.extractLsb'_toNat, Nat.shiftRight_eq_div_pow]

theorem nbits_eq_iff (c : Word) (lo n : Nat) {k : Nat} (hk : k < 2 ^ n) :
    nbits c.toNat lo n = k ↔ c.extractLsb' lo n = BitVec.ofNat n k := by
  rw [nbits_toNat, BitVec.toNat_eq, BitVec.toNat_ofNat, Nat.mod_eq_of_lt hk]

/-- The first defect of a capability's form, by the bits of its word (R173). -/
theorem capDefect_eq_bits (c : Word) : capDefect c =
    if c.extractLsb' 62 2 ≠ 1 ∧ c.extractLsb' 62 2 ≠ 2 then 1
    else if c.extractLsb' 22 2 = 0 ∨ c.extractLsb' 62 2 = 2 ∧ c.extractLsb' 22 2 ≠ 1 then 2
    else if c.extractLsb' 16 6 ≠ 0 ∨ c.extractLsb' 62 2 = 2 ∧ c.extractLsb' 36 2 ≠ 0 ∨
      c.extractLsb' 62 2 = 1 ∧ 55 < (c.extractLsb' 32 6).toNat then 3
    else 0 := by
  have hkind (k : Nat) (hk : k < 4) : capKind c = k ↔ c.extractLsb' 62 2 = BitVec.ofNat 2 k := nbits_eq_iff c 62 2 hk
  have hrights (k : Nat) (hk : k < 4) : capRights c = k ↔ c.extractLsb' 22 2 = BitVec.ofNat 2 k := nbits_eq_iff c 22 2 hk
  have hzero : nbits c.toNat 16 6 = 0 ↔ c.extractLsb' 16 6 = 0#6 := nbits_eq_iff c 16 6 (by decide)
  have hring : nbits c.toNat 36 2 = 0 ↔ c.extractLsb' 36 2 = 0#2 := nbits_eq_iff c 36 2 (by decide)
  have hreg : capReg c = (c.extractLsb' 32 6).toNat := nbits_toNat c 32 6
  simp [capDefect, hkind, hrights, hzero, hring, hreg, or_assoc]

/-- The number of the first of three defects as a word, or another answer when there is none. -/
theorem numbered_or_else (p q r : Prop) [Decidable p] [Decidable q] [Decidable r] (v : Word) :
    let n : Nat := if p then 1 else if q then 2 else if r then 3 else 0
    (if n ≠ 0 then BitVec.ofNat 64 n else v) = if p then 1 else if q then 2 else if r then 3 else v := by
  by_cases hp : p
  · simp [hp]
  by_cases hq : q
  · simp [hp, hq]
  by_cases hr : r
  · simp [hp, hq, hr]
  · simp [hp, hq, hr]

/-- What CAPCHK answers, by the bits of the word and its check: the first row of R173 that applies. -/
theorem capchk_eq_bits (key : List Byte) (c : Word) :
    (if capDefect c ≠ 0 then BitVec.ofNat 64 (capDefect c) else if capCheck key c = c.setWidth 16 then 0 else 4) =
    if c.extractLsb' 62 2 ≠ 1 ∧ c.extractLsb' 62 2 ≠ 2 then (1 : Word)
    else if c.extractLsb' 22 2 = 0 ∨ c.extractLsb' 62 2 = 2 ∧ c.extractLsb' 22 2 ≠ 1 then 2
    else if c.extractLsb' 16 6 ≠ 0 ∨ c.extractLsb' 62 2 = 2 ∧ c.extractLsb' 36 2 ≠ 0 ∨
      c.extractLsb' 62 2 = 1 ∧ 55 < (c.extractLsb' 32 6).toNat then 3
    else if capCheck key c = c.setWidth 16 then 0 else 4 := by
  rw [capDefect_eq_bits]
  exact numbered_or_else _ _ _ _

/-- Settles O37: ARM by the state of its register, minting by the fields of the word, and CAPCHK by the first defect
of the form before the check is compared. -/
theorem armingAndCapabilities : Obligations.ArmingAndCapabilities := by
  intro s d a b hA sc rights t key x
  refine ⟨fun h p hp => ?arm, fun h => ⟨?capr, ?capi⟩, fun h => ?capchk⟩
  case arm =>
    have he : exec p.1 s = armReg p.1 d p.2 s := by
      simp only [List.mem_cons, List.not_mem_nil, or_false] at hp
      rcases hp with rfl | rfl <;> rfl
    rw [he]
    split
    next hx => exact armReg_pending h hx
    next hx => exact armReg_completes h hx
  case capr =>
    obtain ⟨u, hu, hc⟩ := alu_computes (v := fun t => mintCap s t 1 b.toNat rights.toNat) _ h rfl
    exact ⟨u, _, hu, hc, mintCap_eq_capForm s t 1 b rights, capForm_check_clear 1 t.rank b rights⟩
  case capi =>
    obtain ⟨u, hu, hc⟩ := alu_computes (v := fun t => mintCap s t 2 t.inbox.size.toNat 1) _ h (mintCap_inbox s t)
    rw [← capForm_inbox]
    exact ⟨u, _, hu, hc, rfl, capForm_check_clear 2 t.rank (t.inbox.size.setWidth 6) 1⟩
  case capchk =>
    rw [exec_capchk]
    exact alu_computes _ h (capchk_eq_bits key (t.readA a))

end Sys2Proof.Machine
end
